-- ==== Sys2Proof/Word.lean ====
section
/-! DEFINITION. The word types of the AXN-9600 and their plainest arithmetic (R3, R219). -/

namespace Sys2Proof

/-- One byte (R3). -/
abbrev Byte := BitVec 8
/-- A vector lane, an instruction word (R103, R250). -/
abbrev W32 := BitVec 32
/-- A scalar register, a pointer, a control register (R103, R138). -/
abbrev W64 := BitVec 64
/-- One bit per lane of the widest team (R106): lanes at or above the team's width hold 0. -/
abbrev Mask := BitVec 1024
/-- A scalar or vector register number (R247). -/
abbrev Reg := Fin 64
/-- A mask register number, k0 to k15 (R247). -/
abbrev KReg := Fin 16

end Sys2Proof
end

