-- ==== Sys2Proof/Config.lean ====
section
/-! DEFINITION. What an implementation fixes and the manual leaves open: opaque constants with no body. -/

namespace Sys2Proof.Config

/-- The n-th choice among agents that no rule orders (R2, R178): free (log 6). -/
opaque pick : Nat → Nat
/-- The n-th choice of a value or course that a rule allows to be one of two (racing accesses, R188, R192; fetching ahead, R161; migrating,
R73): free (logs 6, 47, 79). -/
opaque coin : Nat → Bool
/-- SM3, the digest that R29 to R31 name and the manual does not define: uninterpreted (log 7). -/
opaque sm3 : List Byte → BitVec 256
/-- The module's SM2 signature over a digest (R31), components r and s: uninterpreted (log 7). -/
opaque sm2Sign : BitVec 256 → BitVec 256 × BitVec 256
/-- Whether an SM2 signature over a digest verifies under the given root key (R29): uninterpreted (log 7). -/
opaque sm2Verify : List Byte → BitVec 256 → List Byte → Bool
/-- Requester ID of the host root port (R43). -/
opaque hostRid : Nat
/-- Module serial number (R31). -/
opaque serial : BitVec 128
/-- Fused 64-bit security-version counter (R29). -/
opaque fusedVersion : W64
/-- Fused digest of the root public key (R29). -/
opaque fusedKeyDigest : BitVec 256
/-- The fuse and debug configuration measured into meas[3] (R30). -/
opaque fuseBytes : List Byte
/-- Bit 0 of the attestation flags: debug enabled (R31). -/
opaque debugEnabled : Bool
/-- Version of the boot ROM (R31). -/
opaque romVersion : W64

end Sys2Proof.Config
end

