-- ==== Sys2Proof/Syntax.lean ====
section
/-! DEFINITION. The instructions and steps of the AXN-9600: one constructor of `Instr` per row of
spec/opcode_table.json, with the plain data its operands are made of. -/

namespace Sys2Proof

/-! ## Field values of instruction words -/

/-- Order field (R251). -/
inductive Ord | rlx | acq | rel | ar
deriving DecidableEq, Repr
/-- Scope field (R251). -/
inductive Scope | wg | die | dev | sys
deriving DecidableEq, Repr
/-- Element width (R251). -/
inductive Sz | b8 | b16 | b32 | b64
deriving DecidableEq, Repr
/-- Floating-point format of majors 0x20 to 0x22 (R259). -/
inductive FFmt | f32 | f16 | bf16
deriving DecidableEq, Repr
/-- Comparison of `scmp` and `vcmp` (R253, R255). -/
inductive Cmp | eq | ne | ltI | geI | ltN | geN
deriving DecidableEq, Repr
/-- Comparison of `vfcmp` (R259). -/
inductive FCmp | eq | lt | le | ne | un
deriving DecidableEq, Repr
/-- Operation of `vred` and `vscan` (R258). -/
inductive RedOp | add | minI | maxI | minN | maxN | and | or | xor | fadd | fmin | fmax
deriving DecidableEq, Repr
/-- Element types of `vcvt` (R256). -/
inductive IType | i8 | n8 | i16 | n16 | i32 | n32 | i64 | n64
deriving DecidableEq, Repr
/-- Element types of `vfcvt` (R260). -/
inductive FType | f32 | f16 | bf16 | e4m3 | qn4 | i32 | n32
deriving DecidableEq, Repr
/-- Operation of `satom` and `vatom` (R262). -/
inductive AtomOp | add | minI | maxI | minN | maxN | and | or | xor | xchg | faddF32 | faddF16 | faddBf16 | addB32 | xchgB32
deriving DecidableEq, Repr
/-- Condition of `waitc` (R347). -/
inductive WCond | eq | ne | ge | lt
deriving DecidableEq, Repr
/-- Engine context (R263). -/
inductive Ctx | c | m | l
deriving DecidableEq, Repr
/-- Special values of `smov` (R249). -/
inductive Special | team | wg | wgdim | grid | stage | core | die | width | time
deriving DecidableEq, Repr
/-- Scalar branch conditions 0 to 5 (R264). -/
inductive BrCond | z | nz | lt | ge | gt | le
deriving DecidableEq, Repr
/-- Mask branch conditions 6 to 9 (R264). -/
inductive BrMask | kany | knone | kall | knall
deriving DecidableEq, Repr
/-- A field that names a mask or a flag set (R247). -/
inductive KF | k (n : KReg) | f (n : Fin 5)
deriving DecidableEq, Repr

/-! ## Control registers (every `ctl.` name of the manual) -/

/-- The control registers by name. Indices: partition `q`, QIF `i`, core `n`, port `p`, home `h`, module `m`, team-owned
registers without an index belong to the team (R389, R390). -/
inductive CtlReg
  | harvest (d : Nat) | ncores | coremap (n : Nat) | modid | pwrCap | therm | feat (i : Nat)
  | fjRoute (m : Nat) | fjStat (p : Nat) | fjErr (p : Nat) | fjBad (p : Nat) | fjTenant (q : Nat) | fjLperm (q : Nat)
  | qifCfg (i : Nat) | qifCfgerr | qifSt (i : Nat) | qifRst (i : Nat) | irqMap (q e : Nat) | hostPasid (q : Nat) | biasCmd
  | partCfg (q : Nat) | partCfgerr | partLim (q : Nat) | partSave (q : Nat) | partCsave (q : Nat) | partQos (q : Nat)
  | partWdog (q : Nat) | partHvec (q : Nat) | partHdata (q : Nat) | partKgrant (q j : Nat)
  | split (q : Nat) | schedQuantum | duty | lvalBase | lvalVerdict | lfeVfail (q : Nat) | sigpol (q : Nat)
  | cap (n : Nat) | bankThr | bankCmd | bankPend (n : Nat)
  | dist (i : Nat) | ptRoot | ptErr | rmapBase | ptCmd | ptArg | homeOvf (h : Nat) | homeFlt (h s w : Nat) | homeFcmd (h : Nat)
  | fpool (q : Nat) | fpoolCnt (q : Nat) | hotBase (q : Nat) | hotPtr (q : Nat) | time
  | emuPend (q : Nat) | emuReg (q n : Nat) | emuCmd (q : Nat)
  /-- MSI-X table of a physical function: entry and 64-bit word of it (0 address, 1 data and vector control), and its pending-bit array (R45). -/
  | msix (pf v w : Nat) | msixPba (pf w : Nat)
  | mflag | lflag | efault (x : Fin 3) | efbatch (x : Fin 3)
  | trCause | trIpc | trPc | trWord | trInfo | trSig | trImm | trHint | trS (i : Nat) | trK0 (i : Nat)
deriving DecidableEq, Repr

/-! ## Messages and other operands of the module's steps -/

/-- Who makes an access (R165). `ctrl` is a core's cache controller writing back (R203), `slice` a slice that fills or writes back its copy
of a line homed elsewhere (R198); `peer`: another module, and whether a core of it made the access (R21, R181). -/
inductive Agent
  | team | fetch | engine (x : Ctx) | lfe | host | ctrl | slice | peer (module : Nat) (team : Bool)
deriving DecidableEq, Repr

/-- What a request does at the point of coherence (R218, R343, R345, R347). -/
inductive ReqOp
  | read | write | atom (f : AtomOp) | cas | monitor (c : WCond) | query
deriving DecidableEq, Repr

/-- One access of a line request: a lane (0 for scalar), its byte offset in the line, its size in bytes, its operand
(stored value, atomic operand or expected value) and the new value of a compare-and-swap. -/
structure Item where
  lane : Nat
  off : Nat
  size : Nat
  data : Nat := 0
  data2 : Nat := 0
deriving DecidableEq, Repr, Inhabited

/-- An ember (R210). -/
structure Ember where
  sig : BitVec 256 := 0
  line : W64 := 0
  core : Nat := 0
  part : Nat := 0
  scope : Scope := .die
  wgtag : Nat := 0
  rseq : W32 := 0
  vclock : List W32 := []
  drawing : Bool := false
  drawn : Bool := false
  /-- It continues the release sequence of other cores' releases, already drawn, whose signatures and times it has joined (R172). -/
  joined : Bool := false
deriving DecidableEq, Repr, Inhabited

/-- Where an access goes (R142). -/
inductive HomeSel
  | none | local (h : Nat) | remote (module : Nat)
deriving DecidableEq, Repr

/-- A line request (R218): everything the home, the slice and the fault buffer see of an access. -/
structure Req where
  id : Nat := 0
  agent : Agent := .team
  core : Nat := 0
  team : Nat := 0
  part : Nat := 0
  op : ReqOp := .read
  /-- Key in [63:56] and VA of the first byte the request addresses. -/
  ptr : W64 := 0
  items : List Item := []
  ord : Ord := .rlx
  scope : Scope := .dev
  wide : Bool := false
  wgtag : Nat := 0
  /-- The core's logical times and versions when the request was sent (R201, R207). -/
  pts : List W32 := []
  vw : Nat := 0
  vd : Nat := 0
  /-- The record an EMBER message carries (R212). -/
  ember : Option Ember := none
  /-- The release has written its dirty set back already, and records no ember (R212). -/
  eager : Bool := false
  /-- The read fetches the line for a relaxed store to go into the core's copy (R203). -/
  walloc : Bool := false
  /-- The launches whose relaxed stores a write-back carries (R24, R100). -/
  launches : List Nat := []
  /-- The home it was sent to (R142); a home has counted it (R163); it went on to the host when its partition might (R48). -/
  home : Option HomeSel := none
  counted : Bool := false
  passed : Bool := false
  /-- Of a write-back: when its bytes were first dirtied (R199, R214), and, of a slice's, the partitions that wrote them (R198). -/
  depoch : W32 := 0
  writers : List Nat := []
  /-- A release fence of the team comes before it: its write acts as a release (R170). -/
  fenced : Bool := false
  /-- A posted write of the host over CXL.io (R44). -/
  posted : Bool := false
  /-- The replay of a stored request at this home (R157); an instruction fetch ahead of the pc (R161). -/
  replay : Option Nat := none
  spec : Bool := false
deriving DecidableEq, Repr, Inhabited

/-- How an acquire was answered (R213). `all`: every clean copy becomes unusable, since the line has had an `.ar` write (R179). -/
inductive AcqAns
  | notAcquire | same | drawn (sig : BitVec 256) (vclock : List W32) (all : Bool) | bump (wts : W32)
deriving DecidableEq, Repr

/-- Read data (RDRSP, R218). `lease = none`: no copy may be kept (R196, R350). -/
structure Rsp where
  req : Req
  vals : List Nat := []
  line : List Byte := []
  wts : W32 := 0
  lease : Option W32 := none
  acq : AcqAns := .notAcquire
  /-- The line held an undrawn ember of another core (R350). -/
  mark : Bool := false
  /-- Bytes read of a pinned line are poisoned (R117, R132, R152). -/
  poison : Bool := false
  /-- The scope record found, when the access mismatched (R209). -/
  mismatch : Option Nat := none
deriving DecidableEq, Repr

/-- A write acknowledgement (ACK, R218). -/
structure AckMsg where
  req : Req
  wts : W32 := 0
  acq : AcqAns := .notAcquire
deriving DecidableEq, Repr

/-- A negative reply (R21, R24, R155). -/
structure NackMsg where
  req : Req
  status : Nat := 0
  level : Nat := 0
  home : Nat := 0
  slot : Nat := 0
  hostHeld : Bool := false
  /-- The agent that finds the answer when it tries again (log 5); 0: none. -/
  who : Nat := 0
deriving DecidableEq, Repr

/-- A draw and its answer (R214): the slice's synchronisation line, the releaser and what it is to write back. -/
structure DrawMsg where
  line : W64
  core : Nat
  part : Nat
  rseq : W32
  vclock : List W32 := []
deriving DecidableEq, Repr

/-- A draw's write-back (WBACK, R214). -/
structure WbackMsg where
  draw : DrawMsg
  req : Req
deriving DecidableEq, Repr

/-- Destination of a fill: nothing, a scalar, a scalar pair, a vector register, a vector pair. -/
inductive Dest
  | none | s (r : Reg) | sPair (r : Reg) | v (r : Reg) | vPair (r : Reg)
deriving DecidableEq, Repr

/-- A fill of a destination (R114): values by lane (lane 0 for a scalar); `ent` is the LSU entry it completes. -/
structure Fill where
  team : Nat
  dest : Dest
  vals : List (Nat × Nat) := []
  poison : Bool := false
  ent : Option Nat := none
  /-- Issued in handler state (R382). -/
  inh : Bool := false
  /-- The team and the context whose value it brings: fills of one context keep their order (R187, R363). -/
  ctx : Option (Nat × Fin 3) := none
deriving DecidableEq, Repr

/-- A condition monitor's fill (MONFILL, R347). `mark`: an undrawn ember of another core stands on the line (R350). -/
structure MonMsg where
  id : Nat
  value : Nat
  mark : Bool := false
deriving DecidableEq, Repr

/-- The answer to an instruction fetch (R161): 64 bytes, or a status. -/
structure FetchRsp where
  team : Nat
  ptr : W64
  status : Nat := 0
  bytes : List Byte := []
  level : Nat := 0
  home : Nat := 0
  slot : Nat := 0
  hostHeld : Bool := false
  /-- The number of a fetch ahead of the pc; 0: a demand fetch (R161). -/
  spec : Nat := 0
deriving DecidableEq, Repr

/-- A queue or dependency operation at its home slice (R94). -/
inductive QKind | enq (a b : W64) | deq | dec
deriving DecidableEq, Repr
structure QOp where
  id : Nat
  kind : QKind
  team : Nat
  part : Nat
  core : Nat
  ptr : W64
  /-- It is a replay at this home (R157); the home of its header when it was sent (R142). -/
  replay : Option Nat := none
  home : Option HomeSel := none
deriving DecidableEq, Repr

/-- A write to a notify page (R37): function, slot, offset, requester, bytes, and whether all byte enables were set. -/
structure NotifyWrite where
  pf : Nat
  slot : Nat
  off : Nat
  rid : Nat
  bytes : List Byte
  allEnables : Bool := true
  /-- The Relaxed Ordering attribute; the push waits already for the writes it is ordered after (R44). -/
  ro : Bool := false
  waited : Bool := false
deriving DecidableEq, Repr

/-- A Fjonlink packet header and payload (R21). -/
structure Packet where
  op : Nat := 0
  tc : Nat := 0
  ord : Nat := 0
  scope : Nat := 0
  rsv : Nat := 0
  rs : Bool := false
  dst : Nat := 0
  srcm : Nat := 0
  agent : Nat := 0
  tag : Nat := 0
  tenant : Nat := 0
  key : Nat := 0
  va : Nat := 0
  len : Nat := 0
  status : Nat := 0
  sub : Nat := 0
  aux : Nat := 0
  payload : List Byte := []
deriving DecidableEq, Repr, Inhabited

/-- What a Fjonlink flit has beside its body: header and CRC (R15). `fec`: one of its codewords could not be corrected (R19). -/
structure FlitHead where
  seq : Nat
  ack : Nat
  ty : Nat
  tc : Nat
  crc : W64
  fec : Bool := false
deriving DecidableEq, Repr

/-- A Fjonlink flit (R15); `body` holds the packet bytes carried, or what a control flit says. -/
structure Flit extends FlitHead where
  body : List Byte
deriving DecidableEq, Repr

/-- A collective chunk with its trailer (R25): `x` are its 64-bit elements. -/
structure ChunkMsg where
  tag : Nat
  tenant : Nat
  srcm : Nat
  rank : Nat
  x : List W64
  c1 : W64
  c2 : W64
  w : BitVec 16
  count : Nat
  chunk : Nat
  kind : Nat
  /-- The tag of the packet that brought it, which its acknowledgement echoes (R21). -/
  ptag : Nat := 0
deriving DecidableEq, Repr

/-- A host access to device memory (R50): HDM offset, bytes to write (none for a read of `size`), requester and
whether it came over CXL.mem. -/
structure HostAccess where
  off : Nat
  size : Nat
  write : Option (List Byte) := none
  rid : Nat := 0
  cxlMem : Bool := true
deriving DecidableEq, Repr

/-- What a PCIe or ATS completion answers (R48). `write`: the translation grants writes too. -/
inductive PcieKind
  | data (bytes : List Byte) | ur | ca | atsOk (target : Nat) (write : Bool) | atsDenied
deriving DecidableEq, Repr

/-- An error that ECC cannot correct, found when a core's storage is read (R117, R123): none, a scalar or a vector register of a team, or the
team's trap or other scalar state. -/
inductive StoreError
  | none | s (team : Nat) (r : Reg) | v (team : Nat) (r : Reg) | state (team : Nat)
deriving DecidableEq, Repr

/-- What a bank's ECC reports: correctable errors (R128), or what a read found that cannot be corrected. -/
structure EccReport where
  errs : Nat := 0
  bad : StoreError := .none
deriving DecidableEq, Repr

/-- Who reads a notify page, and whether the read waits already for the writes it follows (R44). -/
structure StatusReader where
  rid : Nat
  waited : Bool := false
deriving DecidableEq, Repr

/-- One die's reading over a 10 us step (R27): power in mW and the hottest sensor in degrees C. -/
structure DieReading where
  powerMw : Nat
  ioPowerMw : Nat
  temp : Nat
deriving DecidableEq, Repr

/-- One firmware image presented at boot (R29). -/
structure Image where
  bytes : List Byte
  signature : List Byte
  rootKey : List Byte
  version : W64
deriving DecidableEq, Repr, Inhabited

/-! ## Instructions and steps -/

/-- One constructor per row of spec/opcode_table.json. In the words `d`, `a`, `b` are the register fields rd, ra, rb,
`ta` and `tb` the trap-on-empty bits (R250); `w` is the element width of majors 0x10 and 0x11 (true: 64 bits). -/
inductive Instr
  -- Major 0x01: scalar register operations (R253, R287, R288)
  | sadd (d a b : Reg) (ta tb : Bool)
  | ssub (d a b : Reg) (ta tb : Bool)
  | smul (d a b : Reg) (ta tb : Bool)
  | smulhI64 (d a b : Reg) (ta tb : Bool)
  | smulhN64 (d a b : Reg) (ta tb : Bool)
  | sdivI64 (d a b : Reg) (ta tb : Bool)
  | sdivN64 (d a b : Reg) (ta tb : Bool)
  | sremI64 (d a b : Reg) (ta tb : Bool)
  | sremN64 (d a b : Reg) (ta tb : Bool)
  | sand (d a b : Reg) (ta tb : Bool)
  | sor (d a b : Reg) (ta tb : Bool)
  | sxor (d a b : Reg) (ta tb : Bool)
  | sandn (d a b : Reg) (ta tb : Bool)
  | sshl (d a b : Reg) (ta tb : Bool)
  | sshr (d a b : Reg) (ta tb : Bool)
  | ssra (d a b : Reg) (ta tb : Bool)
  | sminI64 (d a b : Reg) (ta tb : Bool)
  | sminN64 (d a b : Reg) (ta tb : Bool)
  | smaxI64 (d a b : Reg) (ta tb : Bool)
  | smaxN64 (d a b : Reg) (ta tb : Bool)
  | sclz (d a : Reg) (ta : Bool)
  | sctz (d a : Reg) (ta : Bool)
  | spopc (d a : Reg) (ta : Bool)
  | smov (d a : Reg) (ta : Bool)
  | ssel (d a b : Reg) (ta tb : Bool)
  | sbfxI64 (d a b : Reg) (ta tb : Bool)
  | sbfxN64 (d a b : Reg) (ta tb : Bool)
  | sbfi (d a b : Reg) (ta tb : Bool)
  | scmp (c : Cmp) (d a b : Reg) (ta tb : Bool)
  -- Majors 0x02 to 0x0A: immediate forms and special values (R289, R290)
  | saddi (d a : Reg) (ta : Bool) (i : BitVec 13)
  | sandi (d a : Reg) (ta : Bool) (i : BitVec 13)
  | sori (d a : Reg) (ta : Bool) (i : BitVec 13)
  | sxori (d a : Reg) (ta : Bool) (i : BitVec 13)
  | sshli (d a : Reg) (ta : Bool) (c : Fin 64)
  | sshri (d a : Reg) (ta : Bool) (c : Fin 64)
  | ssrai (d a : Reg) (ta : Bool) (c : Fin 64)
  | smovi (d : Reg) (i : BitVec 13)
  | smovSpecial (d : Reg) (x : Special)
  -- Majors 0x10, 0x11: vector integer (R255, R311, R312)
  | vadd (w : Bool) (d a b : Reg) (ta tb : Bool)
  | vsub (w : Bool) (d a b : Reg) (ta tb : Bool)
  | vmul (w : Bool) (d a b : Reg) (ta tb : Bool)
  | vmulhI (w : Bool) (d a b : Reg) (ta tb : Bool)
  | vmulhN (w : Bool) (d a b : Reg) (ta tb : Bool)
  | vmad (w : Bool) (d a b : Reg) (ta tb : Bool)
  | vand (w : Bool) (d a b : Reg) (ta tb : Bool)
  | vor (w : Bool) (d a b : Reg) (ta tb : Bool)
  | vxor (w : Bool) (d a b : Reg) (ta tb : Bool)
  | vandn (w : Bool) (d a b : Reg) (ta tb : Bool)
  | vshl (w : Bool) (d a b : Reg) (ta tb : Bool)
  | vshr (w : Bool) (d a b : Reg) (ta tb : Bool)
  | vsra (w : Bool) (d a b : Reg) (ta tb : Bool)
  | vminI (w : Bool) (d a b : Reg) (ta tb : Bool)
  | vminN (w : Bool) (d a b : Reg) (ta tb : Bool)
  | vmaxI (w : Bool) (d a b : Reg) (ta tb : Bool)
  | vmaxN (w : Bool) (d a b : Reg) (ta tb : Bool)
  | vabs (w : Bool) (d a : Reg) (ta : Bool)
  | vclz (w : Bool) (d a : Reg) (ta : Bool)
  | vpopc (w : Bool) (d a : Reg) (ta : Bool)
  | vmov (w : Bool) (d a : Reg) (ta : Bool)
  | vsel (w : Bool) (d a b : Reg) (ta tb : Bool)
  | vcmp (c : Cmp) (w : Bool) (d : KReg) (a b : Reg) (ta tb : Bool)
  | vaddi (d a : Reg) (ta : Bool) (i : BitVec 13)
  | vcvt (dst src : IType) (d a : Reg) (ta : Bool)
  -- Major 0x14: broadcast, lane index, pack (R256, R314)
  | vbcastB32 (d a : Reg) (ta : Bool)
  | vlane (d : Reg)
  | vpackB16 (d a b : Reg) (ta tb : Bool)
  | vpackB8 (d a b : Reg) (ta tb : Bool)
  | vunpackB16 (d a b : Reg) (ta tb : Bool)
  | vunpackB8 (d a b : Reg) (ta tb : Bool)
  | vbcastB64 (d a : Reg) (ta : Bool)
  -- Major 0x15: masks and flags (R257, R299 to R303)
  | kmov (d : KReg) (a : KF)
  | kand (d : KReg) (a b : KF)
  | kor (d : KReg) (a b : KF)
  | kxor (d : KReg) (a b : KF)
  | kandn (d : KReg) (a b : KF)
  | knot (d : KReg) (a : KF)
  | kpopc (d : Reg) (a : KF)
  | kffs (d : Reg) (a : KF)
  | kwrd (d : Reg) (a : KF) (b : Reg) (tb : Bool)
  | kwwr (d : KReg) (a b : Reg) (ta tb : Bool)
  | kif (d a : KReg)
  | kelse (d : KReg)
  | kjoin (a : KReg)
  | kvoteAny (d : Reg) (a : KF)
  | kvoteAll (d : Reg) (a : KF)
  | kflag (d : KReg) (a : Fin 5)
  | flrd (d : Reg) (a : Fin 5) (b : Reg) (tb : Bool)
  /-- `none` is `flclr all` (R303). -/
  | flclr (a : Option (Fin 5))
  -- Majors 0x16 to 0x18: cross-lane (R258, R326 to R329)
  | vperm (d a b : Reg) (ta tb : Bool)
  | vshflUp (d a b : Reg) (ta tb : Bool)
  | vshflDn (d a b : Reg) (ta tb : Bool)
  | vshflXor (d a b : Reg) (ta tb : Bool)
  | vext (d a b : Reg) (ta tb : Bool)
  | vins (d a b : Reg) (ta tb : Bool)
  | vred (o : RedOp) (w : Bool) (d a : Reg) (ta : Bool)
  | vscan (o : RedOp) (w ex : Bool) (d a : Reg) (ta : Bool)
  -- Majors 0x20 to 0x23: floating point (R259, R260, R317 to R324)
  | vfadd (p : FFmt) (d a b : Reg) (ta tb : Bool)
  | vfsub (p : FFmt) (d a b : Reg) (ta tb : Bool)
  | vfmul (p : FFmt) (d a b : Reg) (ta tb : Bool)
  | vffma (p : FFmt) (d a b : Reg) (ta tb : Bool)
  | vfmin (p : FFmt) (d a b : Reg) (ta tb : Bool)
  | vfmax (p : FFmt) (d a b : Reg) (ta tb : Bool)
  | vfsgn (p : FFmt) (d a b : Reg) (ta tb : Bool)
  | vfsgnNeg (p : FFmt) (d a b : Reg) (ta tb : Bool)
  | vfsgnXor (p : FFmt) (d a b : Reg) (ta tb : Bool)
  | vfclass (p : FFmt) (d a : Reg) (ta : Bool)
  | vfround (p : FFmt) (d a : Reg) (ta : Bool)
  | vfrcp (p : FFmt) (d a : Reg) (ta : Bool)
  | vfrsqrt (p : FFmt) (d a : Reg) (ta : Bool)
  | vfsqrt (p : FFmt) (d a : Reg) (ta : Bool)
  | vfdiv (p : FFmt) (d a b : Reg) (ta tb : Bool)
  | vfexp2 (p : FFmt) (d a : Reg) (ta : Bool)
  | vflog2 (p : FFmt) (d a : Reg) (ta : Bool)
  | vfsinp (p : FFmt) (d a : Reg) (ta : Bool)
  | vfcosp (p : FFmt) (d a : Reg) (ta : Bool)
  | vfcmp (c : FCmp) (p : FFmt) (d : KReg) (a b : Reg) (ta tb : Bool)
  | vfcvt (dst src : FType) (d a : Reg) (ta : Bool)
  -- Majors 0x2C to 0x33: loads and stores (R261, R336 to R342)
  | sld (d a b : Reg) (ta tb : Bool) (z : Sz) (o : Ord) (s : Scope)
  | sst (d a b : Reg) (ta tb : Bool) (z : Sz) (o : Ord) (s : Scope)
  | vld (d a b : Reg) (ta tb : Bool) (z : Sz) (o : Ord) (s : Scope)
  | vst (d a b : Reg) (ta tb : Bool) (z : Sz) (o : Ord) (s : Scope)
  | vldb (d a b : Reg) (ta tb : Bool) (o : Ord) (s : Scope)
  | vstb (d a b : Reg) (ta tb : Bool) (o : Ord) (s : Scope)
  | xld (d a b : Reg) (ta tb : Bool) (z : Sz) (o : Ord) (s : Scope)
  | xst (d a b : Reg) (ta tb : Bool) (z : Sz) (o : Ord) (s : Scope)
  | xldb (d a b : Reg) (ta tb : Bool) (o : Ord) (s : Scope)
  | xstb (d a b : Reg) (ta tb : Bool) (o : Ord) (s : Scope)
  -- Majors 0x34 to 0x37: atomics, monitors, fences, barriers (R262, R343 to R354)
  | satom (p : AtomOp) (d a b : Reg) (o : Ord) (s : Scope)
  | vatom (p : AtomOp) (d a b : Reg) (o : Ord) (s : Scope)
  | scas (w : Bool) (d a b : Reg) (o : Ord) (s : Scope)
  | scas2 (d a b : Reg) (o : Ord) (s : Scope)
  | vcas (d a b : Reg) (o : Ord) (s : Scope)
  | waitc64 (c : WCond) (d a b : Reg) (o : Ord) (s : Scope)
  | waitc32 (c : WCond) (d a b : Reg) (o : Ord) (s : Scope)
  | fence (o : Ord) (s : Scope)
  | fenceSc (s : Scope)
  | barArr (a : Reg) (b : Fin 64)
  | barWait (d : Reg) (b : Fin 64)
  | barSync (d a : Reg) (b : Fin 64)
  -- Majors 0x38 to 0x3B: engines and task queues (R361 to R378)
  | cpy (d a b l : Reg)
  | cpy2d (d a b l : Reg)
  | mcfg (a b : Reg)
  | midx (a : Reg)
  | mloop (d a b : Reg) (adv : Bool) (sel : Fin 4)
  | mzero (t : Bool)
  | mmovRegister (d a : Reg)
  | mmovScratchpad (d a b : Reg)
  | mburst (a : Reg)
  | cred (a : Reg)
  | cbcast (a : Reg)
  | cgath (a : Reg)
  | efence (x : Ctx) (d : Reg)
  | ewait (x : Ctx) (d a : Reg)
  | tlrd (x : Ctx) (d a : Reg)
  | tlwait (x : Ctx) (d a b : Reg)
  | tqenq (d a b : Reg)
  | tqdeq (d a : Reg)
  | tqdec (d a : Reg)
  | launch (d a b : Reg)
  -- Major 0x3C: system (R387)
  | trap (n : BitVec 12)
  | eret
  | ctlrd (d : Reg)
  | ctlwr (a : Reg)
  | sigchk
  | sigrd (d : Reg)
  | capq (d a : Reg)
  | yield
  | fltinfo (d a : Reg)
  | replay (a b : Reg)
  | replayDiscard (a b : Reg)
  | pmap (d a b : Reg)
  | pkload (d a b : Reg)
  -- Major 0x3D: control flow (R264, R292 to R296)
  | brScalar (c : BrCond) (a : Reg) (i : BitVec 16)
  | brMask (c : BrMask) (k : KReg) (i : BitVec 16)
  | jmp (i : BitVec 16)
  | call (a : Reg) (i : BitVec 16)
  | jr (a : Reg) (i : BitVec 16)
  | exit
  | nop
  -- Major 0x3E: hints (R269 to R273). A word of this major with a reserved kind or a non-zero reserved payload bit is
  -- no instruction of the table; the decoder names it (`Reject.badHint`) and it makes its group malformed (R269).
  | hintImm (p : BitVec 23)
  | hintOff (o : BitVec 23)
  | hintMod (bx : BitVec 2) (sat ftz : Bool) (rm : BitVec 2)
  | hintSched (p : BitVec 3)
  -- Major 0x3F: extension space (R267)
  | extensionWord (g : BitVec 8) (b : BitVec 18)
  -- Host interface (02)
  /-- The LFE executes the packet with sequence number `seq` of QIF `i` (R40). -/
  | requestNop (i seq : Nat)
  | requestLaunch (i seq : Nat)
  | requestWait (i seq : Nat)
  | requestWrite (i seq : Nat)
  -- Launches (04)
  /-- The LFE reads the record of launch request `l` (R80). -/
  | recordRead (l : Nat)
  | dealPass (q : Nat)
  | launchComplete (l : Nat)
  | signalRetry (l : Nat)
  | launchPacket (port : Nat) (p : Packet)
  | launchResend (id : Nat)
  -- Partitions (03)
  | partitionResetComplete (q : Nat)
  | quantumBoundary (c : Nat)
  | unitReload (team : Nat)
  | watchdogExpiry (l : Nat)
  -- Cores (05)
  | coreCycle (n : Nat)
  | forcedLeave (n : Nat)
  | trapEntry (team : Nat)
  | registerFill (f : Fill)
  /-- The Rake of core `n` copies its next chunk; `bad`: the chunk read with an uncorrectable error (R132). -/
  | rakeChunkCopy (n : Nat) (bad : Bool)
  | mapFlip (n : Nat)
  | oldBankRelease (n : Nat)
  | workgroupSave (wg : Nat)
  -- Coherence (06, 08)
  | rd (r : Req)
  | rdrsp (r : Rsp)
  | wr (r : Req)
  | atom (r : Req)
  | ack (a : AckMsg)
  | nack (n : NackMsg)
  | ember (r : Req)
  | draw (d : DrawMsg)
  | wback (w : WbackMsg)
  | drawack (d : DrawMsg)
  | monfill (m : MonMsg)
  | queueOperation (o : QOp)
  | ptsTick (n : Nat)
  | ageSweep (n : Nat)
  | monitorRecheck (id : Nat)
  | wake (h : Nat)
  -- Mappings (06)
  | mappingOpComplete
  | instructionFetch (f : FetchRsp)
  -- Fjonlink (01)
  | pauseExpiry (p cls : Nat)
  | pauseRefresh (p cls : Nat)
  | failoverTimeout (p : Nat)
  | dedupExpiry
  | chunk (c : ChunkMsg)
  | chunkack (tag tenant srcm chunk status : Nat)
  -- Engines (14)
  | copyChunk (team : Nat)
  | matrixStep (n : Nat)
  | damperStep (n : Nat)
  -- Host bias and host memory (02)
  | biasFlipDone
  -- Steps that the outside world causes: the host, the link partners, boot, temperature and error sources
  /-- A push to a notify page arrives (R42). -/
  | notifyPush (w : NotifyWrite)
  /-- A read of a notify page: function, slot, offset, length, reader (R37, R44). -/
  | notifyStatusRead (pf slot off len : Nat) (r : StatusReader)
  | qifConfigWrite (i : Nat) (v : W64)
  | qifReset (i : Nat) (v : W64)
  | irqMapWrite (q e : Nat) (v : W64)
  | lvalVerdict (v : W64)
  | partEnable (q : Nat) (v : W64)
  | partReset (q : Nat) (v : W64)
  | functionLevelReset (pf : Nat)
  | partSaveWrite (q : Nat) (v : W64)
  | partCsaveWrite (q : Nat) (v : W64)
  | partQosWrite (q : Nat) (v : W64)
  | wdogResume (q : Nat)
  | wdogKill (q : Nat)
  /-- A physical bank of core `n` (kind 0 VRF, 1 SRAM, 2 accumulator) reports correctable errors (R128), or a read of
  its storage finds an error that cannot be corrected (R117, R123). -/
  | bankCrossing (n kind bank : Nat) (r : EccReport)
  | bankAsh (v : W64)
  | homeOvfClear (h : Nat) (v : W64)
  | fcmdReplay (h : Nat) (v : W64)
  | fcmdDiscard (h : Nat) (v : W64)
  | ptUnmap (v : W64)
  | ptSplit (v : W64)
  | ptMove (v : W64)
  | ptReattribute (v : W64)
  | hotBaseWrite (q : Nat) (v : W64)
  | dataFlit (p : Nat) (f : Flit)
  | nakFlit (p : Nat) (f : Flit)
  /-- A pause flit, as its head and its body (R20). -/
  | pauseFlit (p : Nat) (h : FlitHead) (body : List Byte)
  | retrainComplete (p : Nat) (ok : Bool)
  | portRetrain (p : Nat) (v : W64)
  | flueLinkFailure (l : Nat)
  | throttleStep (d : Nat) (r : DieReading)
  | thermalHalt (d temp : Nat)
  | powerRemoval (d temp : Nat)
  | moduleReset (boot device home : Image)
  | attestationReport (nonce : BitVec 256)
  | measExtend (i : Nat) (image : List Byte)
  | biasToHost (v : W64)
  | biasToDevice (v : W64)
  | hostMemoryAccess (a : HostAccess)
  | atsInvalidation (pasid base pages : Nat)
  | pcieCompletion (id : Nat) (k : PcieKind)
  | timeWrite (v : W64)
  | emuEret (q : Nat)
  | emuKill (q : Nat)
  | emuRegWrite (q n : Nat) (v : W64)
  | registerWrite (r : CtlReg) (v : W64)
  | backInvalidationResponse (gran line : Nat) (dirty : Option (List Byte))
  | cxlCacheResponse (ptr : W64) (bytes : List Byte)
deriving DecidableEq, Repr

end Sys2Proof
end

