-- ==== Sys2Proof/WellFormed.lean ====
section
/-! DEFINITION. Which terms of `Instr` are instructions of the part: the requirements of R248 and of the encoding tables that
do not depend on a team's state. A word that breaks one traps ILLEGAL; a step's operand that breaks one names nothing. -/

namespace Sys2Proof

/-- An even register number, as a pair field needs (R247, R248). -/
def Reg.even (r : Reg) : Bool := r.val % 2 == 0
/-- A pair field when the element has 64 bits, any register otherwise (R255). -/
def Reg.pairIf (w : Bool) (r : Reg) : Bool := !w || Reg.even r
/-- 64-bit types of `vcvt` take pairs (R256). -/
def IType.wide : IType → Bool
  | .i64 | .n64 => true
  | _ => false
/-- The 32-bit integer types of `vfcvt` (R260). -/
def FType.isInt : FType → Bool
  | .i32 | .n32 => true
  | _ => false
/-- The floating-point chain operations exist at 32 bits only (R258). -/
def RedOp.isFloat : RedOp → Bool
  | .fadd | .fmin | .fmax => true
  | _ => false
/-- `vatom` has no 32-bit forms of codes 12 and 13 (R262). -/
def AtomOp.vectorOk : AtomOp → Bool
  | .addB32 | .xchgB32 => false
  | _ => true

/-- A step's operand index lies in the range the manual gives the table it indexes. -/
def inRange (n bound : Nat) : Bool := n < bound

/-- Well-formedness of an instruction term. -/
def Instr.wf : Instr → Bool
  | .vadd w d a b _ _ | .vsub w d a b _ _ | .vmul w d a b _ _ | .vmulhI w d a b _ _ | .vmulhN w d a b _ _
  | .vmad w d a b _ _ | .vand w d a b _ _ | .vor w d a b _ _ | .vxor w d a b _ _ | .vandn w d a b _ _
  | .vshl w d a b _ _ | .vshr w d a b _ _ | .vsra w d a b _ _ | .vminI w d a b _ _ | .vminN w d a b _ _
  | .vmaxI w d a b _ _ | .vmaxN w d a b _ _ | .vsel w d a b _ _ => d.pairIf w && a.pairIf w && b.pairIf w
  | .vabs w d a _ | .vclz w d a _ | .vpopc w d a _ | .vmov w d a _ => d.pairIf w && a.pairIf w
  | .vcmp _ w _ a b _ _ => a.pairIf w && b.pairIf w
  | .vcvt dst src d a _ => dst != src && d.pairIf dst.wide && a.pairIf src.wide
  | .vbcastB64 d _ _ => d.even
  | .kif d _ => d != 0
  | .kelse d => d != 0
  | .kjoin a => a != 0
  | .vred o w _ a _ => !(w && o.isFloat) && a.pairIf w
  | .vscan o w _ d a _ => !(w && o.isFloat) && d.pairIf w && a.pairIf w
  | .vfdiv p _ _ _ _ _ => p != .bf16
  | .vfexp2 p _ _ _ | .vflog2 p _ _ _ | .vfsinp p _ _ _ | .vfcosp p _ _ _ => p != .bf16
  | .vfcvt dst src _ _ _ => dst != src && !(dst.isInt && src.isInt)
  | .vld d _ _ _ _ z _ _ | .vst d _ _ _ _ z _ _ | .xld d _ _ _ _ z _ _ | .xst d _ _ _ _ z _ _ => d.pairIf (z == .b64)
  | .vatom p _ a _ _ _ => p.vectorOk && a.even
  | .scas2 d _ b _ _ => d != 0 && d.even && b.even
  | .vcas _ a _ _ _ => a.even
  | .waitc64 _ d _ _ _ _ | .waitc32 _ d _ _ _ _ => d != 0
  | .fence o _ => o != .rlx
  | .cpy2d _ _ _ l => l.even
  | .tqenq _ _ b => b.even
  | .tqdeq d _ => d != 0 && d.even
  | .fltinfo d _ => d.val % 4 == 0
  | .qifConfigWrite i _ | .qifReset i _ | .requestNop i _ | .requestLaunch i _ | .requestWait i _ | .requestWrite i _ => inRange i 1024
  | .notifyPush w => inRange w.pf 8 && inRange w.slot 1024 && inRange w.off 4096
  | .notifyStatusRead pf slot off len _ => inRange pf 8 && inRange slot 1024 && inRange off 4096 && inRange len 9
  | .irqMapWrite q e _ => inRange q 64 && inRange e 16
  | .functionLevelReset pf => inRange pf 8
  | .partEnable q _ | .partReset q _ | .partitionResetComplete q | .partSaveWrite q _ | .partCsaveWrite q _ | .partQosWrite q _
  | .wdogResume q | .wdogKill q | .hotBaseWrite q _ | .emuEret q | .emuKill q | .emuRegWrite q _ _ | .dealPass q => inRange q 64
  | .quantumBoundary c => inRange c 36
  | .coreCycle n | .forcedLeave n | .rakeChunkCopy n _ | .mapFlip n | .oldBankRelease n | .ptsTick n | .ageSweep n
  | .matrixStep n | .damperStep n | .bankCrossing n _ _ _ => inRange n 144
  | .wake h | .homeOvfClear h _ | .fcmdReplay h _ | .fcmdDiscard h _ => inRange h 37
  | .dataFlit p _ | .nakFlit p _ | .pauseFlit p _ _ | .retrainComplete p _ | .failoverTimeout p | .portRetrain p _
  | .launchPacket p _ => inRange p 8
  | .pauseExpiry p c | .pauseRefresh p c => inRange p 8 && inRange c 4
  | .throttleStep d _ | .thermalHalt d _ | .powerRemoval d _ => inRange d 6
  | .measExtend i _ => inRange i 8
  | _ => true

end Sys2Proof
end

