-- ==== Sys2Proof/Decode.lean ====
section
/-! DEFINITION. The decoder of Hedex words (R247 to R275), total and rejecting by name, and after it the encoder, written from the
same tables of the spec. Words are Nats below 2^32, bit 0 least significant (R3, R250). -/

namespace Sys2Proof

/-- Why a word is not an instruction of the opcode table (R248, R265). `badHint` is a word of major 0x3E that makes its hint group
malformed (R269); every other reason traps ILLEGAL. -/
inductive Reject
  | major | fn | unused | oddPair | maskField | zeroField | type | badHint
deriving DecidableEq, Repr

/-! ## Fields -/

/-- The six-bit field whose lowest bit is `lo`. -/
def fld6 (w lo : Nat) : Reg := ⟨w / 2 ^ lo % 64, Nat.mod_lt _ (by decide)⟩
/-- One bit of a word. -/
def fldB (w lo : Nat) : Bool := w / 2 ^ lo % 2 == 1
/-- `n` bits of a word from bit `lo`. -/
def fldN (w lo n : Nat) : Nat := w / 2 ^ lo % 2 ^ n

def Ord.ofCode : Nat → Ord
  | 0 => .rlx | 1 => .acq | 2 => .rel | _ => .ar
def Ord.code : Ord → Nat
  | .rlx => 0 | .acq => 1 | .rel => 2 | .ar => 3
def Scope.ofCode : Nat → Scope
  | 0 => .wg | 1 => .die | 2 => .dev | _ => .sys
def Scope.code : Scope → Nat
  | .wg => 0 | .die => 1 | .dev => 2 | .sys => 3
def Sz.ofCode : Nat → Sz
  | 0 => .b8 | 1 => .b16 | 2 => .b32 | _ => .b64
def Sz.code : Sz → Nat
  | .b8 => 0 | .b16 => 1 | .b32 => 2 | .b64 => 3
def FFmt.code : FFmt → Nat
  | .f32 => 0 | .f16 => 1 | .bf16 => 2
def Cmp.code : Cmp → Nat
  | .eq => 0 | .ne => 1 | .ltI => 2 | .geI => 3 | .ltN => 4 | .geN => 5
def FCmp.code : FCmp → Nat
  | .eq => 0 | .lt => 1 | .le => 2 | .ne => 3 | .un => 4
def RedOp.ofCode : Nat → Option RedOp
  | 0 => some .add | 1 => some .minI | 2 => some .maxI | 3 => some .minN | 4 => some .maxN | 5 => some .and
  | 6 => some .or | 7 => some .xor | 8 => some .fadd | 9 => some .fmin | 10 => some .fmax | _ => none
def RedOp.code : RedOp → Nat
  | .add => 0 | .minI => 1 | .maxI => 2 | .minN => 3 | .maxN => 4 | .and => 5
  | .or => 6 | .xor => 7 | .fadd => 8 | .fmin => 9 | .fmax => 10
def IType.ofCode : Nat → IType
  | 0 => .i8 | 1 => .n8 | 2 => .i16 | 3 => .n16 | 4 => .i32 | 5 => .n32 | 6 => .i64 | _ => .n64
def IType.code : IType → Nat
  | .i8 => 0 | .n8 => 1 | .i16 => 2 | .n16 => 3 | .i32 => 4 | .n32 => 5 | .i64 => 6 | .n64 => 7
def FType.ofCode : Nat → Option FType
  | 0 => some .f32 | 1 => some .f16 | 2 => some .bf16 | 3 => some .e4m3 | 4 => some .qn4 | 5 => some .i32 | 6 => some .n32
  | _ => none
def FType.code : FType → Nat
  | .f32 => 0 | .f16 => 1 | .bf16 => 2 | .e4m3 => 3 | .qn4 => 4 | .i32 => 5 | .n32 => 6
def AtomOp.ofCode : Nat → Option AtomOp
  | 0 => some .add | 1 => some .minI | 2 => some .maxI | 3 => some .minN | 4 => some .maxN | 5 => some .and | 6 => some .or
  | 7 => some .xor | 8 => some .xchg | 9 => some .faddF32 | 10 => some .faddF16 | 11 => some .faddBf16 | 12 => some .addB32
  | 13 => some .xchgB32 | _ => none
def AtomOp.code : AtomOp → Nat
  | .add => 0 | .minI => 1 | .maxI => 2 | .minN => 3 | .maxN => 4 | .and => 5 | .or => 6 | .xor => 7 | .xchg => 8
  | .faddF32 => 9 | .faddF16 => 10 | .faddBf16 => 11 | .addB32 => 12 | .xchgB32 => 13
def WCond.ofCode : Nat → WCond
  | 0 => .eq | 1 => .ne | 2 => .ge | _ => .lt
def WCond.code : WCond → Nat
  | .eq => 0 | .ne => 1 | .ge => 2 | .lt => 3
def Ctx.ofCode : Nat → Option Ctx
  | 0 => some .c | 1 => some .m | 2 => some .l | _ => none
def Ctx.code : Ctx → Nat
  | .c => 0 | .m => 1 | .l => 2
def Special.ofCode : Nat → Option Special
  | 0 => some .team | 1 => some .wg | 2 => some .wgdim | 3 => some .grid | 4 => some .stage | 5 => some .core
  | 6 => some .die | 7 => some .width | 8 => some .time | _ => none
def Special.code : Special → Nat
  | .team => 0 | .wg => 1 | .wgdim => 2 | .grid => 3 | .stage => 4 | .core => 5 | .die => 6 | .width => 7 | .time => 8
def BrCond.code : BrCond → Nat
  | .z => 0 | .nz => 1 | .lt => 2 | .ge => 3 | .gt => 4 | .le => 5
def BrMask.code : BrMask → Nat
  | .kany => 6 | .knone => 7 | .kall => 8 | .knall => 9
/-- The mask register a field names, if it names one (R247). -/
def kOf (r : Reg) : Option KReg := if h : r.val < 16 then some ⟨r.val, h⟩ else none
/-- The flag set a field names, if it names one (R247). -/
def fOf (r : Reg) : Option (Fin 5) := if h : 16 ≤ r.val ∧ r.val < 21 then some ⟨r.val - 16, by omega⟩ else none
/-- The mask or flag set a field names (R247). -/
def kfOf (r : Reg) : Option KF :=
  match kOf r with
  | some k => some (.k k)
  | none => (fOf r).map .f
def KF.code : KF → Nat
  | .k n => n.val | .f n => 16 + n.val

/-- The answer of a decoder. -/
abbrev Dec := Except Reject Instr
/-- Keep an instruction only under a condition; otherwise reject by name. -/
def keep (c : Bool) (e : Reject) (i : Instr) : Dec := if c then .ok i else .error e
/-- Reject a term that breaks a requirement of its entry (R248: odd pairs, zero or equal fields). -/
def keepWf (e : Reject) (i : Instr) : Dec := keep i.wf e i

/-! ## The decoder, one function per major opcode -/

/-- Major 0x01 (R253). -/
def decScalar (w : Nat) : Dec :=
  let d := fld6 w 20; let a := fld6 w 14; let b := fld6 w 8; let ta := fldB w 7; let tb := fldB w 6
  let b0 := b == 0 && !tb
  match w % 64 with
  | 0 => .ok (.sadd d a b ta tb)
  | 1 => .ok (.ssub d a b ta tb)
  | 2 => .ok (.smul d a b ta tb)
  | 3 => .ok (.smulhI64 d a b ta tb)
  | 4 => .ok (.smulhN64 d a b ta tb)
  | 5 => .ok (.sdivI64 d a b ta tb)
  | 6 => .ok (.sdivN64 d a b ta tb)
  | 7 => .ok (.sremI64 d a b ta tb)
  | 8 => .ok (.sremN64 d a b ta tb)
  | 9 => .ok (.sand d a b ta tb)
  | 10 => .ok (.sor d a b ta tb)
  | 11 => .ok (.sxor d a b ta tb)
  | 12 => .ok (.sandn d a b ta tb)
  | 13 => .ok (.sshl d a b ta tb)
  | 14 => .ok (.sshr d a b ta tb)
  | 15 => .ok (.ssra d a b ta tb)
  | 16 => .ok (.sminI64 d a b ta tb)
  | 17 => .ok (.sminN64 d a b ta tb)
  | 18 => .ok (.smaxI64 d a b ta tb)
  | 19 => .ok (.smaxN64 d a b ta tb)
  | 24 => .ok (.ssel d a b ta tb)
  | 25 => .ok (.sbfxI64 d a b ta tb)
  | 26 => .ok (.sbfxN64 d a b ta tb)
  | 27 => .ok (.sbfi d a b ta tb)
  | 20 => keep b0 .unused (.sclz d a ta)
  | 21 => keep b0 .unused (.sctz d a ta)
  | 22 => keep b0 .unused (.spopc d a ta)
  | 23 => keep b0 .unused (.smov d a ta)
  | 32 => .ok (.scmp .eq d a b ta tb)
  | 33 => .ok (.scmp .ne d a b ta tb)
  | 34 => .ok (.scmp .ltI d a b ta tb)
  | 35 => .ok (.scmp .geI d a b ta tb)
  | 36 => .ok (.scmp .ltN d a b ta tb)
  | 37 => .ok (.scmp .geN d a b ta tb)
  | _ => .error .fn

/-- Majors 0x02 to 0x0A and 0x12: immediate forms (R254). -/
def decImm (maj w : Nat) : Dec :=
  let d := fld6 w 20; let a := fld6 w 14; let ta := fldB w 13
  let i := BitVec.ofNat 13 w; let c := fld6 w 0; let hi0 := fldN w 6 7 == 0
  match maj with
  | 0x02 => .ok (.saddi d a ta i)
  | 0x03 => .ok (.sandi d a ta i)
  | 0x04 => .ok (.sori d a ta i)
  | 0x05 => .ok (.sxori d a ta i)
  | 0x06 => keep hi0 .unused (.sshli d a ta c)
  | 0x07 => keep hi0 .unused (.sshri d a ta c)
  | 0x08 => keep hi0 .unused (.ssrai d a ta c)
  | 0x09 => keep (a == 0 && !ta) .unused (.smovi d i)
  | 0x0A =>
    match Special.ofCode (fldN w 0 13) with
    | some x => keep (a == 0 && !ta) .unused (.smovSpecial d x)
    | none => .error .fn
  | _ => .ok (.vaddi d a ta i)

/-- Majors 0x10 and 0x11 (R255); `e` is true for 0x11. -/
def decVecInt (e : Bool) (w : Nat) : Dec :=
  let d := fld6 w 20; let a := fld6 w 14; let b := fld6 w 8; let ta := fldB w 7; let tb := fldB w 6
  let b0 := b == 0 && !tb
  match w % 64 with
  | 0 => keepWf .oddPair (.vadd e d a b ta tb)
  | 1 => keepWf .oddPair (.vsub e d a b ta tb)
  | 2 => keepWf .oddPair (.vmul e d a b ta tb)
  | 3 => keepWf .oddPair (.vmulhI e d a b ta tb)
  | 4 => keepWf .oddPair (.vmulhN e d a b ta tb)
  | 5 => keepWf .oddPair (.vmad e d a b ta tb)
  | 6 => keepWf .oddPair (.vand e d a b ta tb)
  | 7 => keepWf .oddPair (.vor e d a b ta tb)
  | 8 => keepWf .oddPair (.vxor e d a b ta tb)
  | 9 => keepWf .oddPair (.vandn e d a b ta tb)
  | 10 => keepWf .oddPair (.vshl e d a b ta tb)
  | 11 => keepWf .oddPair (.vshr e d a b ta tb)
  | 12 => keepWf .oddPair (.vsra e d a b ta tb)
  | 13 => keepWf .oddPair (.vminI e d a b ta tb)
  | 14 => keepWf .oddPair (.vminN e d a b ta tb)
  | 15 => keepWf .oddPair (.vmaxI e d a b ta tb)
  | 16 => keepWf .oddPair (.vmaxN e d a b ta tb)
  | 21 => keepWf .oddPair (.vsel e d a b ta tb)
  | 17 => if b0 then keepWf .oddPair (.vabs e d a ta) else .error .unused
  | 18 => if b0 then keepWf .oddPair (.vclz e d a ta) else .error .unused
  | 19 => if b0 then keepWf .oddPair (.vpopc e d a ta) else .error .unused
  | 20 => if b0 then keepWf .oddPair (.vmov e d a ta) else .error .unused
  | 32 => match kOf d with
    | some k => keepWf .oddPair (.vcmp .eq e k a b ta tb)
    | none => .error .maskField
  | 33 => match kOf d with
    | some k => keepWf .oddPair (.vcmp .ne e k a b ta tb)
    | none => .error .maskField
  | 34 => match kOf d with
    | some k => keepWf .oddPair (.vcmp .ltI e k a b ta tb)
    | none => .error .maskField
  | 35 => match kOf d with
    | some k => keepWf .oddPair (.vcmp .geI e k a b ta tb)
    | none => .error .maskField
  | 36 => match kOf d with
    | some k => keepWf .oddPair (.vcmp .ltN e k a b ta tb)
    | none => .error .maskField
  | 37 => match kOf d with
    | some k => keepWf .oddPair (.vcmp .geN e k a b ta tb)
    | none => .error .maskField
  | _ => .error .fn

/-- Major 0x13 (R256). -/
def decVcvt (w : Nat) : Dec :=
  let d := fld6 w 20; let a := fld6 w 14; let b := fld6 w 8; let ta := fldB w 7; let tb := fldB w 6
  if b == 0 && !tb then keepWf .type (.vcvt (IType.ofCode (fldN w 3 3)) (IType.ofCode (fldN w 0 3)) d a ta) else .error .unused

/-- Major 0x14 (R256). -/
def decBcast (w : Nat) : Dec :=
  let d := fld6 w 20; let a := fld6 w 14; let b := fld6 w 8; let ta := fldB w 7; let tb := fldB w 6
  let b0 := b == 0 && !tb
  match w % 64 with
  | 0 => keep b0 .unused (.vbcastB32 d a ta)
  | 1 => keep (b0 && a == 0 && !ta) .unused (.vlane d)
  | 2 => .ok (.vpackB16 d a b ta tb)
  | 3 => .ok (.vpackB8 d a b ta tb)
  | 4 => .ok (.vunpackB16 d a b ta tb)
  | 5 => .ok (.vunpackB8 d a b ta tb)
  | 6 => if b0 then keepWf .oddPair (.vbcastB64 d a ta) else .error .unused
  | _ => .error .fn

/-- Apply a constructor to the mask and flag fields it takes, or reject the field (R248, R298). -/
def withK {α : Type} (x : Option α) (f : α → Dec) : Dec :=
  match x with
  | some v => f v
  | none => .error .maskField

/-- Major 0x15 (R257, R298). -/
def decMask (w : Nat) : Dec :=
  let d := fld6 w 20; let a := fld6 w 14; let b := fld6 w 8; let ta := fldB w 7; let tb := fldB w 6
  let t0 := !ta && !tb
  let b0 := b == 0 && t0
  match w % 64 with
  | 0 => withK (kOf d) fun k => withK (kfOf a) fun x => keep b0 .unused (.kmov k x)
  | 1 => withK (kOf d) fun k => withK (kfOf a) fun x => withK (kfOf b) fun y => keep t0 .unused (.kand k x y)
  | 2 => withK (kOf d) fun k => withK (kfOf a) fun x => withK (kfOf b) fun y => keep t0 .unused (.kor k x y)
  | 3 => withK (kOf d) fun k => withK (kfOf a) fun x => withK (kfOf b) fun y => keep t0 .unused (.kxor k x y)
  | 4 => withK (kOf d) fun k => withK (kfOf a) fun x => withK (kfOf b) fun y => keep t0 .unused (.kandn k x y)
  | 5 => withK (kOf d) fun k => withK (kfOf a) fun x => keep b0 .unused (.knot k x)
  | 6 => withK (kfOf a) fun x => keep b0 .unused (.kpopc d x)
  | 7 => withK (kfOf a) fun x => keep b0 .unused (.kffs d x)
  | 8 => withK (kfOf a) fun x => keep (!ta) .unused (.kwrd d x b tb)
  | 9 => withK (kOf d) fun k => .ok (.kwwr k a b ta tb)
  | 10 => withK (kOf d) fun k => withK (kOf a) fun x => if b0 then keepWf .zeroField (.kif k x) else .error .unused
  | 11 => withK (kOf d) fun k => if b0 && a == 0 then keepWf .zeroField (.kelse k) else .error .unused
  | 12 => withK (kOf a) fun x => if b0 && d == 0 then keepWf .zeroField (.kjoin x) else .error .unused
  | 13 => withK (kfOf a) fun x => keep b0 .unused (.kvoteAny d x)
  | 14 => withK (kfOf a) fun x => keep b0 .unused (.kvoteAll d x)
  | 15 => withK (kOf d) fun k => withK (fOf a) fun x => keep b0 .unused (.kflag k x)
  | 16 => withK (fOf a) fun x => keep (!ta) .unused (.flrd d x b tb)
  | 17 => if a == 31 then keep (b0 && d == 0) .unused (.flclr none)
          else withK (fOf a) fun x => keep (b0 && d == 0) .unused (.flclr (some x))
  | _ => .error .fn

/-- Major 0x16 (R258). -/
def decPerm (w : Nat) : Dec :=
  let d := fld6 w 20; let a := fld6 w 14; let b := fld6 w 8; let ta := fldB w 7; let tb := fldB w 6
  match w % 64 with
  | 0 => .ok (.vperm d a b ta tb)
  | 1 => .ok (.vshflUp d a b ta tb)
  | 2 => .ok (.vshflDn d a b ta tb)
  | 3 => .ok (.vshflXor d a b ta tb)
  | 4 => .ok (.vext d a b ta tb)
  | 5 => .ok (.vins d a b ta tb)
  | _ => .error .fn

/-- Majors 0x17 and 0x18 (R258). -/
def decRed (scan : Bool) (w : Nat) : Dec :=
  let d := fld6 w 20; let a := fld6 w 14; let b := fld6 w 8; let ta := fldB w 7; let tb := fldB w 6
  let e := fldB w 4; let x := fldB w 5
  match RedOp.ofCode (fldN w 0 4) with
  | none => .error .fn
  | some o =>
    if b == 0 && !tb then
      if scan then keepWf .type (.vscan o e x d a ta)
      else if x then .error .fn else keepWf .type (.vred o e d a ta)
    else .error .unused

/-- Majors 0x20 to 0x22 (R259). -/
def decFloat (p : FFmt) (w : Nat) : Dec :=
  let d := fld6 w 20; let a := fld6 w 14; let b := fld6 w 8; let ta := fldB w 7; let tb := fldB w 6
  let b0 := b == 0 && !tb
  match w % 64 with
  | 0 => .ok (.vfadd p d a b ta tb)
  | 1 => .ok (.vfsub p d a b ta tb)
  | 2 => .ok (.vfmul p d a b ta tb)
  | 3 => .ok (.vffma p d a b ta tb)
  | 4 => .ok (.vfmin p d a b ta tb)
  | 5 => .ok (.vfmax p d a b ta tb)
  | 6 => .ok (.vfsgn p d a b ta tb)
  | 7 => .ok (.vfsgnNeg p d a b ta tb)
  | 8 => .ok (.vfsgnXor p d a b ta tb)
  | 9 => keep b0 .unused (.vfclass p d a ta)
  | 10 => keep b0 .unused (.vfround p d a ta)
  | 16 => keep b0 .unused (.vfrcp p d a ta)
  | 17 => keep b0 .unused (.vfrsqrt p d a ta)
  | 18 => keep b0 .unused (.vfsqrt p d a ta)
  | 19 => keepWf .fn (.vfdiv p d a b ta tb)
  | 20 => if b0 then keepWf .fn (.vfexp2 p d a ta) else .error .unused
  | 21 => if b0 then keepWf .fn (.vflog2 p d a ta) else .error .unused
  | 22 => if b0 then keepWf .fn (.vfsinp p d a ta) else .error .unused
  | 23 => if b0 then keepWf .fn (.vfcosp p d a ta) else .error .unused
  | 24 => withK (kOf d) fun k => .ok (.vfcmp .eq p k a b ta tb)
  | 25 => withK (kOf d) fun k => .ok (.vfcmp .lt p k a b ta tb)
  | 26 => withK (kOf d) fun k => .ok (.vfcmp .le p k a b ta tb)
  | 27 => withK (kOf d) fun k => .ok (.vfcmp .ne p k a b ta tb)
  | 28 => withK (kOf d) fun k => .ok (.vfcmp .un p k a b ta tb)
  | _ => .error .fn

/-- Major 0x23 (R260). -/
def decVfcvt (w : Nat) : Dec :=
  let d := fld6 w 20; let a := fld6 w 14; let b := fld6 w 8; let ta := fldB w 7; let tb := fldB w 6
  match FType.ofCode (fldN w 3 3), FType.ofCode (fldN w 0 3) with
  | some x, some y => if b == 0 && !tb then keepWf .type (.vfcvt x y d a ta) else .error .unused
  | _, _ => .error .type

/-- Majors 0x2C to 0x33 (R261). -/
def decMem (maj w : Nat) : Dec :=
  let d := fld6 w 20; let a := fld6 w 14; let b := fld6 w 8; let ta := fldB w 7; let tb := fldB w 6
  let z := Sz.ofCode (fldN w 4 2); let o := Ord.ofCode (fldN w 2 2); let s := Scope.ofCode (fldN w 0 2)
  let st := fldB w 5; let z4 := fldB w 4
  match maj with
  | 0x2C => .ok (.sld d a b ta tb z o s)
  | 0x2D => .ok (.sst d a b ta tb z o s)
  | 0x2E => keepWf .oddPair (.vld d a b ta tb z o s)
  | 0x2F => keepWf .oddPair (.vst d a b ta tb z o s)
  | 0x30 => keep (!z4) .unused (if st then .vstb d a b ta tb o s else .vldb d a b ta tb o s)
  | 0x31 => keepWf .oddPair (.xld d a b ta tb z o s)
  | 0x32 => keepWf .oddPair (.xst d a b ta tb z o s)
  | _ => keep (!z4) .unused (if st then .xstb d a b ta tb o s else .xldb d a b ta tb o s)

/-- Majors 0x34 to 0x37 (R262). -/
def decSync (maj w : Nat) : Dec :=
  let d := fld6 w 20; let a := fld6 w 14; let b := fld6 w 8
  let o := Ord.ofCode (fldN w 2 2); let s := Scope.ofCode (fldN w 0 2); let kind := fldN w 4 4
  let lo0 := fldN w 0 4 == 0
  match maj with
  | 0x34 =>
    match AtomOp.ofCode kind with
    | some p => .ok (.satom p d a b o s)
    | none => .error .fn
  | 0x35 =>
    match AtomOp.ofCode kind with
    | some p => keepWf .oddPair (.vatom p d a b o s)
    | none => .error .fn
  | 0x36 =>
    match kind with
    | 0 => .ok (.scas false d a b o s)
    | 1 => .ok (.scas true d a b o s)
    | 2 => keepWf .oddPair (.scas2 d a b o s)
    | 3 => keepWf .oddPair (.vcas d a b o s)
    | 4 | 5 | 6 | 7 => keepWf .zeroField (.waitc64 (WCond.ofCode (fldN w 4 2)) d a b o s)
    | 8 | 9 | 10 | 11 => keepWf .zeroField (.waitc32 (WCond.ofCode (fldN w 4 2)) d a b o s)
    | _ => .error .fn
  | _ =>
    match kind with
    | 0 => if d == 0 && a == 0 && b == 0 then keepWf .zeroField (.fence o s) else .error .unused
    | 1 => keep (d == 0 && a == 0 && b == 0 && o == .rlx) .unused (.fenceSc s)
    | 2 => keep (d == 0 && lo0) .unused (.barArr a b)
    | 3 => keep (a == 0 && lo0) .unused (.barWait d b)
    | 4 => keep lo0 .unused (.barSync d a b)
    | _ => .error .fn

/-- Majors 0x38 and 0x39 (R361, R364). -/
def decEngine (maj w : Nat) : Dec :=
  let d := fld6 w 20; let a := fld6 w 14; let b := fld6 w 8; let l := fld6 w 0
  let lo := fldN w 0 4
  match maj with
  | 0x38 =>
    match fldN w 6 2 with
    | 0 => .ok (.cpy d a b l)
    | 1 => keepWf .oddPair (.cpy2d d a b l)
    | _ => .error .fn
  | _ =>
    match fldN w 4 4 with
    | 0 => keep (d == 0 && lo == 0) .unused (.mcfg a b)
    | 1 => keep (d == 0 && b == 0 && lo == 0) .unused (.midx a)
    | 2 => keep (!fldB w 3) .unused (.mloop d a b (fldB w 2) ⟨w % 4, Nat.mod_lt _ (by decide)⟩)
    | 3 => keep (d == 0 && a == 0 && b == 0 && fldN w 1 3 == 0) .unused (.mzero (fldB w 0))
    | 4 => if fldB w 3 then keep (b == 0 && fldN w 0 3 == 0) .unused (.mmovRegister d a)
           else keep (fldN w 0 3 == 0) .unused (.mmovScratchpad d a b)
    | 5 => keep (d == 0 && b == 0 && lo == 0) .unused (.mburst a)
    | _ => .error .fn

/-- Majors 0x3A and 0x3B (R372, R373, R376). -/
def decQueue (maj w : Nat) : Dec :=
  let d := fld6 w 20; let a := fld6 w 14; let b := fld6 w 8
  let lo0 := fldN w 0 4 == 0; let hi0 := fldN w 2 2 == 0
  match maj with
  | 0x3A =>
    match fldN w 4 4, Ctx.ofCode (fldN w 0 2) with
    | 0, _ => keep (d == 0 && b == 0 && lo0) .unused (.cred a)
    | 1, _ => keep (d == 0 && b == 0 && lo0) .unused (.cbcast a)
    | 2, _ => keep (d == 0 && b == 0 && lo0) .unused (.cgath a)
    | 3, some x => keep (a == 0 && b == 0 && hi0) .unused (.efence x d)
    | 4, some x => keep (b == 0 && hi0) .unused (.ewait x d a)
    | 5, some x => keep (b == 0 && hi0) .unused (.tlrd x d a)
    | 6, some x => keep hi0 .unused (.tlwait x d a b)
    | _, _ => .error .fn
  | _ =>
    match fldN w 4 4 with
    | 0 => if lo0 then keepWf .oddPair (.tqenq d a b) else .error .unused
    | 1 => if b == 0 && lo0 then keepWf .oddPair (.tqdeq d a) else .error .unused
    | 2 => keep (b == 0 && lo0) .unused (.tqdec d a)
    | 3 => keep lo0 .unused (.launch d a b)
    | _ => .error .fn

/-- Major 0x3C (R387). -/
def decSystem (w : Nat) : Dec :=
  let d := fld6 w 20; let a := fld6 w 14; let b := fld6 w 8
  let d0 := d == 0; let a0 := a == 0; let b0 := b == 0
  match w % 256 with
  | 0x01 => keep d0 .unused (.trap (BitVec.ofNat 12 (w / 2 ^ 8)))
  | 0x02 => keep (d0 && a0 && b0) .unused .eret
  | 0x03 => keep (a0 && b0) .unused (.ctlrd d)
  | 0x04 => keep (d0 && b0) .unused (.ctlwr a)
  | 0x05 => keep (d0 && a0 && b0) .unused .sigchk
  | 0x06 => keep (a0 && b0) .unused (.sigrd d)
  | 0x07 => keep b0 .unused (.capq d a)
  | 0x08 => keep (d0 && a0 && b0) .unused .yield
  | 0x09 => if b0 then keepWf .oddPair (.fltinfo d a) else .error .unused
  | 0x0A => keep d0 .unused (.replay a b)
  | 0x0B => keep d0 .unused (.replayDiscard a b)
  | 0x0C => .ok (.pmap d a b)
  | 0x0D => .ok (.pkload d a b)
  | _ => .error .fn

/-- Major 0x3D, format C (R264). -/
def decControl (w : Nat) : Dec :=
  let a := fld6 w 16; let i := BitVec.ofNat 16 w
  match fldN w 22 4 with
  | 0 => .ok (.brScalar .z a i)
  | 1 => .ok (.brScalar .nz a i)
  | 2 => .ok (.brScalar .lt a i)
  | 3 => .ok (.brScalar .ge a i)
  | 4 => .ok (.brScalar .gt a i)
  | 5 => .ok (.brScalar .le a i)
  | 6 => withK (kOf a) fun k => .ok (.brMask .kany k i)
  | 7 => withK (kOf a) fun k => .ok (.brMask .knone k i)
  | 8 => withK (kOf a) fun k => .ok (.brMask .kall k i)
  | 9 => withK (kOf a) fun k => .ok (.brMask .knall k i)
  | 10 => keep (a == 0) .unused (.jmp i)
  | 11 => .ok (.call a i)
  | 12 => .ok (.jr a i)
  | 13 => keep (a == 0 && i == 0) .unused .exit
  | 14 => keep (a == 0 && i == 0) .unused .nop
  | _ => .error .fn

/-- Major 0x3E (R269 to R273). -/
def decHint (w : Nat) : Dec :=
  match fldN w 23 3 with
  | 0 => .ok (.hintImm (BitVec.ofNat 23 w))
  | 1 => .ok (.hintOff (BitVec.ofNat 23 w))
  | 2 => keep (fldN w 6 17 == 0) .badHint (.hintMod (BitVec.ofNat 2 (w / 2 ^ 4)) (fldB w 3) (fldB w 2) (BitVec.ofNat 2 w))
  | 3 => keep (fldN w 3 20 == 0) .badHint (.hintSched (BitVec.ofNat 3 w))
  | _ => .error .badHint

/-- The decoder (R252). -/
def decode (w : Nat) : Dec :=
  match w / 2 ^ 26 % 64 with
  | 0x01 => decScalar w
  | 0x02 => decImm 0x02 w
  | 0x03 => decImm 0x03 w
  | 0x04 => decImm 0x04 w
  | 0x05 => decImm 0x05 w
  | 0x06 => decImm 0x06 w
  | 0x07 => decImm 0x07 w
  | 0x08 => decImm 0x08 w
  | 0x09 => decImm 0x09 w
  | 0x0A => decImm 0x0A w
  | 0x10 => decVecInt false w
  | 0x11 => decVecInt true w
  | 0x12 => decImm 0x12 w
  | 0x13 => decVcvt w
  | 0x14 => decBcast w
  | 0x15 => decMask w
  | 0x16 => decPerm w
  | 0x17 => decRed false w
  | 0x18 => decRed true w
  | 0x20 => decFloat .f32 w
  | 0x21 => decFloat .f16 w
  | 0x22 => decFloat .bf16 w
  | 0x23 => decVfcvt w
  | 0x2C => decMem 0x2C w
  | 0x2D => decMem 0x2D w
  | 0x2E => decMem 0x2E w
  | 0x2F => decMem 0x2F w
  | 0x30 => decMem 0x30 w
  | 0x31 => decMem 0x31 w
  | 0x32 => decMem 0x32 w
  | 0x33 => decMem 0x33 w
  | 0x34 => decSync 0x34 w
  | 0x35 => decSync 0x35 w
  | 0x36 => decSync 0x36 w
  | 0x37 => decSync 0x37 w
  | 0x38 => decEngine 0x38 w
  | 0x39 => decEngine 0x39 w
  | 0x3A => decQueue 0x3A w
  | 0x3B => decQueue 0x3B w
  | 0x3C => decSystem w
  | 0x3D => decControl w
  | 0x3E => decHint w
  | 0x3F => .ok (.extensionWord (BitVec.ofNat 8 (w / 2 ^ 18)) (BitVec.ofNat 18 w))
  | _ => .error .major

/-- A little-endian word from its bytes (R3). -/
def wordOfBytes : List Byte → Nat
  | [] => 0
  | b :: bs => b.toNat + 256 * wordOfBytes bs
/-- The low `n` bytes of a value, least significant first (R3). -/
def bytesOfWord : Nat → Nat → List Byte
  | 0, _ => []
  | n + 1, w => BitVec.ofNat 8 w :: bytesOfWord n (w / 256)

/-- Decode the instruction that stands at the head of a list of bytes (R250): four bytes, little-endian. -/
def decodeBytes (bs : List Byte) : Dec := decode (wordOfBytes (bs.take 4))

/-- What the decoder reads from an instruction of the opcode table's numbering: its bytes laid out as the hardware stores them. -/
def decodeTableWord (nbits w : Nat) : Option Instr :=
  if nbits ≤ 32 then (decodeBytes (bytesOfWord 4 (w % 2 ^ nbits))).toOption else none

/-! ## The encoder -/

/-- Formats A and D (R250): the low six bits are fn, or sz, ord and scope. -/
def fmtA (maj : Nat) (d a b : Reg) (ta tb : Bool) (lo : Nat) : Nat :=
  maj * 2 ^ 26 + d.val * 2 ^ 20 + a.val * 2 ^ 14 + b.val * 2 ^ 8 + ta.toNat * 2 ^ 7 + tb.toNat * 2 ^ 6 + lo
/-- Format B (R250). -/
def fmtB (maj : Nat) (d a : Reg) (ta : Bool) (imm : Nat) : Nat :=
  maj * 2 ^ 26 + d.val * 2 ^ 20 + a.val * 2 ^ 14 + ta.toNat * 2 ^ 13 + imm
/-- Format C (R250). -/
def fmtC (cond : Nat) (a : Nat) (disp : BitVec 16) : Nat := 0x3D * 2 ^ 26 + cond * 2 ^ 22 + a * 2 ^ 16 + disp.toNat
/-- Format E (R250). -/
def fmtE (maj : Nat) (d a b : Reg) (ctl : Nat) : Nat := maj * 2 ^ 26 + d.val * 2 ^ 20 + a.val * 2 ^ 14 + b.val * 2 ^ 8 + ctl
/-- Format H (R250). -/
def fmtH (kind payload : Nat) : Nat := 0x3E * 2 ^ 26 + kind * 2 ^ 23 + payload
/-- A mask register as a field value. -/
def kReg (k : KReg) : Reg := ⟨k.val, by omega⟩
/-- A mask or flag set as a field value. -/
def kfReg : KF → Reg
  | .k n => ⟨n.val, by omega⟩
  | .f n => ⟨16 + n.val, by omega⟩
/-- The ctl field of format E with an operation, an order and a scope. -/
def ctlOs (op : Nat) (o : Ord) (s : Scope) : Nat := op * 16 + o.code * 4 + s.code
/-- Major of a vector-integer width. -/
def majV (w : Bool) : Nat := if w then 0x11 else 0x10

/-- The word of an instruction, from the encoding tables (R250 to R273, R387); none for a step that no word stands for. -/
def encode : Instr → Option Nat
  | .sadd d a b ta tb => some (fmtA 0x01 d a b ta tb 0)
  | .ssub d a b ta tb => some (fmtA 0x01 d a b ta tb 1)
  | .smul d a b ta tb => some (fmtA 0x01 d a b ta tb 2)
  | .smulhI64 d a b ta tb => some (fmtA 0x01 d a b ta tb 3)
  | .smulhN64 d a b ta tb => some (fmtA 0x01 d a b ta tb 4)
  | .sdivI64 d a b ta tb => some (fmtA 0x01 d a b ta tb 5)
  | .sdivN64 d a b ta tb => some (fmtA 0x01 d a b ta tb 6)
  | .sremI64 d a b ta tb => some (fmtA 0x01 d a b ta tb 7)
  | .sremN64 d a b ta tb => some (fmtA 0x01 d a b ta tb 8)
  | .sand d a b ta tb => some (fmtA 0x01 d a b ta tb 9)
  | .sor d a b ta tb => some (fmtA 0x01 d a b ta tb 10)
  | .sxor d a b ta tb => some (fmtA 0x01 d a b ta tb 11)
  | .sandn d a b ta tb => some (fmtA 0x01 d a b ta tb 12)
  | .sshl d a b ta tb => some (fmtA 0x01 d a b ta tb 13)
  | .sshr d a b ta tb => some (fmtA 0x01 d a b ta tb 14)
  | .ssra d a b ta tb => some (fmtA 0x01 d a b ta tb 15)
  | .sminI64 d a b ta tb => some (fmtA 0x01 d a b ta tb 16)
  | .sminN64 d a b ta tb => some (fmtA 0x01 d a b ta tb 17)
  | .smaxI64 d a b ta tb => some (fmtA 0x01 d a b ta tb 18)
  | .smaxN64 d a b ta tb => some (fmtA 0x01 d a b ta tb 19)
  | .ssel d a b ta tb => some (fmtA 0x01 d a b ta tb 24)
  | .sbfxI64 d a b ta tb => some (fmtA 0x01 d a b ta tb 25)
  | .sbfxN64 d a b ta tb => some (fmtA 0x01 d a b ta tb 26)
  | .sbfi d a b ta tb => some (fmtA 0x01 d a b ta tb 27)
  | .sclz d a ta => some (fmtA 0x01 d a 0 ta false 20)
  | .sctz d a ta => some (fmtA 0x01 d a 0 ta false 21)
  | .spopc d a ta => some (fmtA 0x01 d a 0 ta false 22)
  | .smov d a ta => some (fmtA 0x01 d a 0 ta false 23)
  | .scmp c d a b ta tb => some (fmtA 0x01 d a b ta tb (32 + c.code))
  | .saddi d a ta i => some (fmtB 0x02 d a ta i.toNat)
  | .sandi d a ta i => some (fmtB 0x03 d a ta i.toNat)
  | .sori d a ta i => some (fmtB 0x04 d a ta i.toNat)
  | .sxori d a ta i => some (fmtB 0x05 d a ta i.toNat)
  | .sshli d a ta c => some (fmtB 0x06 d a ta c.val)
  | .sshri d a ta c => some (fmtB 0x07 d a ta c.val)
  | .ssrai d a ta c => some (fmtB 0x08 d a ta c.val)
  | .smovi d i => some (fmtB 0x09 d 0 false i.toNat)
  | .smovSpecial d x => some (fmtB 0x0A d 0 false x.code)
  | .vadd w d a b ta tb => some (fmtA (majV w) d a b ta tb 0)
  | .vsub w d a b ta tb => some (fmtA (majV w) d a b ta tb 1)
  | .vmul w d a b ta tb => some (fmtA (majV w) d a b ta tb 2)
  | .vmulhI w d a b ta tb => some (fmtA (majV w) d a b ta tb 3)
  | .vmulhN w d a b ta tb => some (fmtA (majV w) d a b ta tb 4)
  | .vmad w d a b ta tb => some (fmtA (majV w) d a b ta tb 5)
  | .vand w d a b ta tb => some (fmtA (majV w) d a b ta tb 6)
  | .vor w d a b ta tb => some (fmtA (majV w) d a b ta tb 7)
  | .vxor w d a b ta tb => some (fmtA (majV w) d a b ta tb 8)
  | .vandn w d a b ta tb => some (fmtA (majV w) d a b ta tb 9)
  | .vshl w d a b ta tb => some (fmtA (majV w) d a b ta tb 10)
  | .vshr w d a b ta tb => some (fmtA (majV w) d a b ta tb 11)
  | .vsra w d a b ta tb => some (fmtA (majV w) d a b ta tb 12)
  | .vminI w d a b ta tb => some (fmtA (majV w) d a b ta tb 13)
  | .vminN w d a b ta tb => some (fmtA (majV w) d a b ta tb 14)
  | .vmaxI w d a b ta tb => some (fmtA (majV w) d a b ta tb 15)
  | .vmaxN w d a b ta tb => some (fmtA (majV w) d a b ta tb 16)
  | .vsel w d a b ta tb => some (fmtA (majV w) d a b ta tb 21)
  | .vabs w d a ta => some (fmtA (majV w) d a 0 ta false 17)
  | .vclz w d a ta => some (fmtA (majV w) d a 0 ta false 18)
  | .vpopc w d a ta => some (fmtA (majV w) d a 0 ta false 19)
  | .vmov w d a ta => some (fmtA (majV w) d a 0 ta false 20)
  | .vcmp c w d a b ta tb => some (fmtA (majV w) (kReg d) a b ta tb (32 + c.code))
  | .vaddi d a ta i => some (fmtB 0x12 d a ta i.toNat)
  | .vcvt x y d a ta => some (fmtA 0x13 d a 0 ta false (x.code * 8 + y.code))
  | .vbcastB32 d a ta => some (fmtA 0x14 d a 0 ta false 0)
  | .vlane d => some (fmtA 0x14 d 0 0 false false 1)
  | .vpackB16 d a b ta tb => some (fmtA 0x14 d a b ta tb 2)
  | .vpackB8 d a b ta tb => some (fmtA 0x14 d a b ta tb 3)
  | .vunpackB16 d a b ta tb => some (fmtA 0x14 d a b ta tb 4)
  | .vunpackB8 d a b ta tb => some (fmtA 0x14 d a b ta tb 5)
  | .vbcastB64 d a ta => some (fmtA 0x14 d a 0 ta false 6)
  | .kmov d a => some (fmtA 0x15 (kReg d) (kfReg a) 0 false false 0)
  | .kand d a b => some (fmtA 0x15 (kReg d) (kfReg a) (kfReg b) false false 1)
  | .kor d a b => some (fmtA 0x15 (kReg d) (kfReg a) (kfReg b) false false 2)
  | .kxor d a b => some (fmtA 0x15 (kReg d) (kfReg a) (kfReg b) false false 3)
  | .kandn d a b => some (fmtA 0x15 (kReg d) (kfReg a) (kfReg b) false false 4)
  | .knot d a => some (fmtA 0x15 (kReg d) (kfReg a) 0 false false 5)
  | .kpopc d a => some (fmtA 0x15 d (kfReg a) 0 false false 6)
  | .kffs d a => some (fmtA 0x15 d (kfReg a) 0 false false 7)
  | .kwrd d a b tb => some (fmtA 0x15 d (kfReg a) b false tb 8)
  | .kwwr d a b ta tb => some (fmtA 0x15 (kReg d) a b ta tb 9)
  | .kif d a => some (fmtA 0x15 (kReg d) (kReg a) 0 false false 10)
  | .kelse d => some (fmtA 0x15 (kReg d) 0 0 false false 11)
  | .kjoin a => some (fmtA 0x15 0 (kReg a) 0 false false 12)
  | .kvoteAny d a => some (fmtA 0x15 d (kfReg a) 0 false false 13)
  | .kvoteAll d a => some (fmtA 0x15 d (kfReg a) 0 false false 14)
  | .kflag d a => some (fmtA 0x15 (kReg d) (kfReg (.f a)) 0 false false 15)
  | .flrd d a b tb => some (fmtA 0x15 d (kfReg (.f a)) b false tb 16)
  | .flclr a => some (fmtA 0x15 0 (match a with | some x => kfReg (.f x) | none => 31) 0 false false 17)
  | .vperm d a b ta tb => some (fmtA 0x16 d a b ta tb 0)
  | .vshflUp d a b ta tb => some (fmtA 0x16 d a b ta tb 1)
  | .vshflDn d a b ta tb => some (fmtA 0x16 d a b ta tb 2)
  | .vshflXor d a b ta tb => some (fmtA 0x16 d a b ta tb 3)
  | .vext d a b ta tb => some (fmtA 0x16 d a b ta tb 4)
  | .vins d a b ta tb => some (fmtA 0x16 d a b ta tb 5)
  | .vred o w d a ta => some (fmtA 0x17 d a 0 ta false (w.toNat * 16 + o.code))
  | .vscan o w x d a ta => some (fmtA 0x18 d a 0 ta false (x.toNat * 32 + w.toNat * 16 + o.code))
  | .vfadd p d a b ta tb => some (fmtA (0x20 + p.code) d a b ta tb 0)
  | .vfsub p d a b ta tb => some (fmtA (0x20 + p.code) d a b ta tb 1)
  | .vfmul p d a b ta tb => some (fmtA (0x20 + p.code) d a b ta tb 2)
  | .vffma p d a b ta tb => some (fmtA (0x20 + p.code) d a b ta tb 3)
  | .vfmin p d a b ta tb => some (fmtA (0x20 + p.code) d a b ta tb 4)
  | .vfmax p d a b ta tb => some (fmtA (0x20 + p.code) d a b ta tb 5)
  | .vfsgn p d a b ta tb => some (fmtA (0x20 + p.code) d a b ta tb 6)
  | .vfsgnNeg p d a b ta tb => some (fmtA (0x20 + p.code) d a b ta tb 7)
  | .vfsgnXor p d a b ta tb => some (fmtA (0x20 + p.code) d a b ta tb 8)
  | .vfdiv p d a b ta tb => some (fmtA (0x20 + p.code) d a b ta tb 19)
  | .vfclass p d a ta => some (fmtA (0x20 + p.code) d a 0 ta false 9)
  | .vfround p d a ta => some (fmtA (0x20 + p.code) d a 0 ta false 10)
  | .vfrcp p d a ta => some (fmtA (0x20 + p.code) d a 0 ta false 16)
  | .vfrsqrt p d a ta => some (fmtA (0x20 + p.code) d a 0 ta false 17)
  | .vfsqrt p d a ta => some (fmtA (0x20 + p.code) d a 0 ta false 18)
  | .vfexp2 p d a ta => some (fmtA (0x20 + p.code) d a 0 ta false 20)
  | .vflog2 p d a ta => some (fmtA (0x20 + p.code) d a 0 ta false 21)
  | .vfsinp p d a ta => some (fmtA (0x20 + p.code) d a 0 ta false 22)
  | .vfcosp p d a ta => some (fmtA (0x20 + p.code) d a 0 ta false 23)
  | .vfcmp c p d a b ta tb => some (fmtA (0x20 + p.code) (kReg d) a b ta tb (24 + c.code))
  | .vfcvt x y d a ta => some (fmtA 0x23 d a 0 ta false (x.code * 8 + y.code))
  | .sld d a b ta tb z o s => some (fmtA 0x2C d a b ta tb (z.code * 16 + o.code * 4 + s.code))
  | .sst d a b ta tb z o s => some (fmtA 0x2D d a b ta tb (z.code * 16 + o.code * 4 + s.code))
  | .vld d a b ta tb z o s => some (fmtA 0x2E d a b ta tb (z.code * 16 + o.code * 4 + s.code))
  | .vst d a b ta tb z o s => some (fmtA 0x2F d a b ta tb (z.code * 16 + o.code * 4 + s.code))
  | .xld d a b ta tb z o s => some (fmtA 0x31 d a b ta tb (z.code * 16 + o.code * 4 + s.code))
  | .xst d a b ta tb z o s => some (fmtA 0x32 d a b ta tb (z.code * 16 + o.code * 4 + s.code))
  | .vldb d a b ta tb o s => some (fmtA 0x30 d a b ta tb (0 + o.code * 4 + s.code))
  | .vstb d a b ta tb o s => some (fmtA 0x30 d a b ta tb (32 + o.code * 4 + s.code))
  | .xldb d a b ta tb o s => some (fmtA 0x33 d a b ta tb (0 + o.code * 4 + s.code))
  | .xstb d a b ta tb o s => some (fmtA 0x33 d a b ta tb (32 + o.code * 4 + s.code))
  | .satom p d a b o s => some (fmtE 0x34 d a b (ctlOs p.code o s))
  | .vatom p d a b o s => some (fmtE 0x35 d a b (ctlOs p.code o s))
  | .scas w d a b o s => some (fmtE 0x36 d a b (ctlOs w.toNat o s))
  | .scas2 d a b o s => some (fmtE 0x36 d a b (ctlOs 2 o s))
  | .vcas d a b o s => some (fmtE 0x36 d a b (ctlOs 3 o s))
  | .waitc64 c d a b o s => some (fmtE 0x36 d a b (ctlOs (4 + c.code) o s))
  | .waitc32 c d a b o s => some (fmtE 0x36 d a b (ctlOs (8 + c.code) o s))
  | .fence o s => some (fmtE 0x37 0 0 0 (ctlOs 0 o s))
  | .fenceSc s => some (fmtE 0x37 0 0 0 (ctlOs 1 .rlx s))
  | .barArr a b => some (fmtE 0x37 0 a b 0x20)
  | .barWait d b => some (fmtE 0x37 d 0 b 0x30)
  | .barSync d a b => some (fmtE 0x37 d a b 0x40)
  | .cpy d a b l => some (fmtE 0x38 d a b l.val)
  | .cpy2d d a b l => some (fmtE 0x38 d a b (0x40 + l.val))
  | .mcfg a b => some (fmtE 0x39 0 a b 0)
  | .midx a => some (fmtE 0x39 0 a 0 0x10)
  | .mloop d a b adv sel => some (fmtE 0x39 d a b (0x20 + adv.toNat * 4 + sel.val))
  | .mzero t => some (fmtE 0x39 0 0 0 (0x30 + t.toNat))
  | .mmovRegister d a => some (fmtE 0x39 d a 0 0x48)
  | .mmovScratchpad d a b => some (fmtE 0x39 d a b 0x40)
  | .mburst a => some (fmtE 0x39 0 a 0 0x50)
  | .cred a => some (fmtE 0x3A 0 a 0 0x00)
  | .cbcast a => some (fmtE 0x3A 0 a 0 0x10)
  | .cgath a => some (fmtE 0x3A 0 a 0 0x20)
  | .efence x d => some (fmtE 0x3A d 0 0 (0x30 + x.code))
  | .ewait x d a => some (fmtE 0x3A d a 0 (0x40 + x.code))
  | .tlrd x d a => some (fmtE 0x3A d a 0 (0x50 + x.code))
  | .tlwait x d a b => some (fmtE 0x3A d a b (0x60 + x.code))
  | .tqenq d a b => some (fmtE 0x3B d a b 0x00)
  | .tqdeq d a => some (fmtE 0x3B d a 0 0x10)
  | .tqdec d a => some (fmtE 0x3B d a 0 0x20)
  | .launch d a b => some (fmtE 0x3B d a b 0x30)
  | .trap n => some (0x3C * 2 ^ 26 + n.toNat * 2 ^ 8 + 0x01)
  | .eret => some (fmtE 0x3C 0 0 0 0x02)
  | .ctlrd d => some (fmtE 0x3C d 0 0 0x03)
  | .ctlwr a => some (fmtE 0x3C 0 a 0 0x04)
  | .sigchk => some (fmtE 0x3C 0 0 0 0x05)
  | .sigrd d => some (fmtE 0x3C d 0 0 0x06)
  | .capq d a => some (fmtE 0x3C d a 0 0x07)
  | .yield => some (fmtE 0x3C 0 0 0 0x08)
  | .fltinfo d a => some (fmtE 0x3C d a 0 0x09)
  | .replay a b => some (fmtE 0x3C 0 a b 0x0A)
  | .replayDiscard a b => some (fmtE 0x3C 0 a b 0x0B)
  | .pmap d a b => some (fmtE 0x3C d a b 0x0C)
  | .pkload d a b => some (fmtE 0x3C d a b 0x0D)
  | .brScalar c a i => some (fmtC c.code a.val i)
  | .brMask c k i => some (fmtC c.code k.val i)
  | .jmp i => some (fmtC 10 0 i)
  | .call a i => some (fmtC 11 a.val i)
  | .jr a i => some (fmtC 12 a.val i)
  | .exit => some (fmtC 13 0 0)
  | .nop => some (fmtC 14 0 0)
  | .hintImm p => some (fmtH 0 p.toNat)
  | .hintOff o => some (fmtH 1 o.toNat)
  | .hintMod bx sat ftz rm => some (fmtH 2 (bx.toNat * 16 + sat.toNat * 8 + ftz.toNat * 4 + rm.toNat))
  | .hintSched p => some (fmtH 3 p.toNat)
  | .extensionWord g b => some (0x3F * 2 ^ 26 + g.toNat * 2 ^ 18 + b.toNat)
  | _ => none

/-- The word of an instruction as the team feeds it to sig (R120); 0 for a step. -/
def encodeWord (i : Instr) : Nat := (encode i).getD 0

end Sys2Proof
end

