-- ==== Sys2Proof/Machine/State.lean ====
section
/-! DEFINITION. The state of one AXN-9600 module as plain data: its teams, cores, slices, homes, engines, launches, partitions,
host interface, links, power and security state, the reasons a step can stop, and the state after reset. -/

namespace Sys2Proof.Machine

/-! ## Memory -/

/-- A byte store in canonical form: addresses strictly rising, no byte equal to the 0 an unlisted address reads as (R175). -/
abbrev Memory := List Host.Cell

/-- The canonical form: every address is at least `lo`, addresses strictly rise, no zero byte is listed. -/
def Memory.wfFrom : Nat → Memory → Bool
  | _, [] => true
  | lo, (a, b) :: m => decide (lo ≤ a) && b != 0 && Memory.wfFrom (a + 1) m
/-- The canonical form of a memory. -/
def Memory.wf (m : Memory) : Bool := Memory.wfFrom 0 m

/-! ## Teams (R103) -/

/-- A scalar register with its full/empty and poison bits (R103, R114, R117). -/
structure SReg where
  val : W64 := 0
  full : Bool := true
  poison : Bool := false
deriving DecidableEq, Repr, Inhabited

/-- A vector register: one 32-bit value a lane, one full/empty and one poison bit (R103). -/
structure VReg where
  lanes : List W32 := []
  full : Bool := true
  poison : Bool := false
deriving DecidableEq, Repr, Inhabited

/-- The hint latch (R269). `lastImm` says whether the group's last hint was a `hint.imm`. -/
structure Hint where
  imm : W64 := 0
  nimm : Nat := 0
  off : BitVec 23 := 0
  offv : Bool := false
  rm : BitVec 2 := 0
  ftz : Bool := false
  sat : Bool := false
  bx : BitVec 2 := 0
  modv : Bool := false
  sched : BitVec 3 := 0
  schedv : Bool := false
  snap : W32 := 0
  bad : Bool := false
  lastImm : Bool := false
deriving DecidableEq, Repr, Inhabited

/-- The sticky flag sets, one bit a lane (R226, R257). -/
structure Flags where
  nv : Mask := 0
  dz : Mask := 0
  of : Mask := 0
  uf : Mask := 0
  nx : Mask := 0
deriving DecidableEq, Repr, Inhabited

/-- Which lanes of the acquire in progress mismatched (R334): the instruction, its word, and the group it consumed. -/
structure Mismatch where
  ipc : W64 := 0
  word : W32 := 0
  hint : Hint := {}
  lanes : Mask := 0
  found : Nat := 0
deriving DecidableEq, Repr, Inhabited

/-- The trap state (R382, R383). `entry` is the mask the handler was entered with; `mm` the acquire that was in progress then (R334). -/
structure TrapState where
  cause : Byte := 0
  ipc : W64 := 0
  pc : W64 := 0
  word : W32 := 0
  info : W64 := 0
  sig : W32 := 0
  hint : Hint := {}
  s : Vector SReg 16 := Vector.replicate 16 {}
  k0 : Mask := 0
  entry : Mask := 0
  mm : Option Mismatch := none
  /-- The `bar.sync` of the program whose arrival had been made (R352). -/
  sync : Option (W64 × Nat) := none
deriving DecidableEq, Repr, Inhabited

/-- Why a team stands on the shelf (R111, R334, R349, R352). -/
inductive Wait
  | regs (ss vs : List Reg) -- these empty sources or destinations (R115, R116)
  | fetch               -- an instruction word not yet arrived
  | replies (group : Nat) -- every lane of an acquire must have its reply (R334)
  | fence (ent : Nat)   -- a fence completes (R349)
  | barArr (b : Nat)    -- a second arrival waits for the earlier phase (R352)
  | barEnt (ent : Nat)  -- the arrival is on its way (R354)
  | barrier (b phase : Nat) -- a phase of a barrier completes (R352)
  | host                -- the host's emulation (R398)
deriving DecidableEq, Repr

/-- The states of R119 (the handler state is `Team.handler`). `gone`: retired, its counters stay readable (R372). -/
inductive Status
  | hob | shelfWait (w : Wait) | shelfReady | halted | draining | killed | saved | gone
deriving DecidableEq, Repr

/-- A fault record of a team (R156). -/
structure FaultRec where
  ptr : W64
  lanes : W32
  word : Nat
  cause : Nat
  kind : Nat
  level : Nat
  pc : W64
  home : Nat
  slot : Nat
  module : Nat
  dest : Nat
  part : Nat
  /-- The LSU entry or the engine operation that waits, and whether the record is host-held (R159). -/
  ent : Nat
  hostHeld : Bool := false
deriving DecidableEq, Repr, Inhabited

/-- A matrix configuration (R365). -/
structure MCfg where
  m : Nat
  n : Nat
  fmt : Nat
  sat : Bool
  bsrc : Bool
  tile : Nat
  sra : Nat
  srb : Nat
  astride : Nat
  fa : W32
  fb : W32
deriving DecidableEq, Repr, Inhabited

/-- A queued operation of an engine context (R361, R364, R373) with the registers it read at issue. -/
inductive EOp
  | copy (dst src : W64) (rows rowb dstr sstr dsp ssp : Nat) (tok : Reg) (badWord : Bool)
  | mcfg (a b : W64)
  | midx (idx : List W32)
  | mloop (loop a b : W64) (adv : Bool) (sel : Nat) (scaleA scaleB : List (List W32))
  | mzero (t : Nat)
  | mmov (off move shape : W64)
  | coll (kind : Nat) (desc : W64)
deriving DecidableEq, Repr

/-- A part of a collective in progress (R373 to R375). -/
structure CollPart where
  src : W64 := 0
  dst : W64 := 0
  mods : List Nat := []
  count : Nat := 0
  tag : Nat := 0
  rank : Nat := 0
  w : BitVec 16 := 0
  type : Nat := 0
  root : Nat := 0
  /-- Contributions received: chunk, rank, elements, check words. -/
  got : List (Nat × Nat × List W64 × W64 × W64) := []
  /-- Chunks delivered at dst, and chunks of this part acknowledged by each rank. -/
  done : List Nat := []
  acked : List (Nat × Nat) := []
  /-- Packet tags of the chunks received that are not acknowledged yet, by chunk; of these, those sent on (R374). -/
  ptags : List (Nat × Nat) := []
  sentOn : List Nat := []
  /-- Peers that have granted receive space (R375), and the flags of chunks that this part formed and that are not complete (R238). -/
  granted : List Nat := []
  fl : List (Nat × Nat) := []
deriving DecidableEq, Repr, Inhabited

/-- An operation in flight: its batch and its progress. -/
structure EngOp where
  id : Nat
  batch : Nat
  op : EOp
  pc : W64
  /-- Chunks or steps performed; for a copy the row and the byte it stands at, the bytes read of the chunk and how many are written. -/
  prog : Nat := 0
  row : Nat := 0
  pos : Nat := 0
  buf : Option (List Byte) := none
  wpos : Nat := 0
  /-- Bytes read so far of what is being read (R188). -/
  rd : List Byte := []
  /-- Aligned 8-byte words of the chunk, by their place in it, that a scratchpad or an accumulator has given or taken so far (R188). -/
  wrote : List Nat := []
  /-- Completed; a copy stays until the timeline reaches its number (R363). -/
  done : Bool := false
  /-- A home answered status 3: it waits for that home's wake (R158). -/
  retry : Option Nat := none
  /-- It waits with a request for this line under the limit of outstanding requests (R68, R71). -/
  outAt : Option W64 := none
  /-- Issued in handler state, and the number of the first LSU entry issued after it (R186). -/
  inh : Bool := false
  after : Nat := 0
  part : Option CollPart := none
deriving DecidableEq, Repr

/-- An engine context (R356, R359, R365 to R367). -/
structure Ectx where
  /-- Last closed number. -/
  last : Nat := 0
  ops : List EngOp := []
  /-- Operations were issued since the last close. -/
  opened : Bool := false
  /-- A kill abandoned the batches above this number: the timeline stays at or below it (R124). -/
  limit : Option Nat := none
  efault : W64 := 0
  efbatch : W64 := 0
deriving DecidableEq, Repr, Inhabited

/-- One lane's access. -/
structure Acc where
  lane : Nat
  ptr : W64
  size : Nat
  data : Nat := 0
  data2 : Nat := 0
deriving DecidableEq, Repr, Inhabited

/-- A scratchpad access that has issued and waits at the core for an earlier acquire of its team that is not performed (R168, R334); `id` stands in
the order of the team's LSU entries, `dst` is a load's destination, `inh` says it is the handler's. -/
structure SpAcc where
  id : Nat
  store : Bool
  ord : Ord
  dst : Reg
  pair : Bool
  inh : Bool
  accs : List Acc
deriving DecidableEq, Repr

/-- A team (R103). -/
structure Team where
  id : Nat := 0
  core : Nat := 0
  slot : Nat := 0
  part : Nat := 0
  wg : Nat := 0
  /-- Number within the workgroup, 0 to T - 1. -/
  num : Nat := 0
  width : Nat := 32
  pc : W64 := 0
  s : Vector SReg 64 := Vector.replicate 64 {}
  v : List VReg := []
  k : Vector Mask 16 := Vector.replicate 16 0
  flags : Flags := {}
  sig : W32 := 0xFFFF_FFFF
  hint : Hint := {}
  /-- The stage's signature flag (R79). -/
  sigOn : Bool := true
  handler : Bool := false
  tr : TrapState := {}
  -- asynchronous causes pending (R385)
  wdog : Bool := false
  atomU : Mask := 0
  preempt : Option W64 := none
  records : List FaultRec := []
  /-- k0 to restore after the re-execution of R386. -/
  reexec : Option Mask := none
  mm : Option Mismatch := none
  -- engine contexts (R355)
  c : Ectx := {}
  m : Ectx := {}
  l : Ectx := {}
  mcfg : Option MCfg := none
  midx : Option (List W32) := none
  /-- The shape latch: m, n and fmt of the last `mcfg` issued (R365). -/
  shape : Nat × Nat × Nat := (0, 0, 0)
  mflag : W64 := 0
  lflag : W64 := 0
  /-- The ck of the engines' last updates of the flag words and the bits these set (R238). -/
  mset : Nat × W64 := (0, 0)
  lset : Nat × W64 := (0, 0)
  /-- Ember list (R350). -/
  emberList : List W64 := []
  /-- It has executed a release fence: its later writes act as releases (R170). -/
  fenced : Bool := false
  -- scheduling (R109 to R113)
  status : Status := .gone
  exited : Bool := false
  dead : Bool := false
  /-- Waiting for the host's emulation (R398). -/
  emu : Bool := false
  passed : Nat := 0
  urgent : Option Nat := none
  hobSince : Nat := 0
  readySince : Nat := 0
  yielded : Bool := false
  busy : Nat := 0
  /-- The wait this team had when it was halted (R64), and when it was halted (R399). -/
  haltWait : Option Wait := none
  haltedAt : Nat := 0
  spilled : Bool := false
  /-- Its partition lost the cluster while it was halted, and it has not resumed since (R64). -/
  pre : Bool := false
  /-- Registers whose copy in a bank that the Rake is filling is poisoned (R132). -/
  vbad : List Nat := []
  /-- A unit of its partition on its core was claimed while it was halted (R62). -/
  claimed : Bool := false
  /-- Instruction lines at hand: pointer of the line and its bytes (R161). -/
  ilines : List (W64 × List Byte) := []
  fetching : Bool := false
  /-- The demand fetch was answered with a status and waits for the home (R158, R159, R382). -/
  fetchBad : Bool := false
  /-- Fetches ahead of the pc that are under way and not discarded (R161, R192). -/
  ahead : List Nat := []
  /-- Barrier arrivals outstanding: barrier and phase (R352). -/
  arrived : List (Nat × Nat) := []
  /-- The `bar.sync` whose arrival has been made: its pc and barrier (R352). -/
  syncAt : Option (W64 × Nat) := none
  /-- What an issued acquire or fence of the program still waits for (R334, R349): a trap taken meanwhile returns to that wait. -/
  owed : Option Wait := none
  abandon : Bool := false
  /-- Scratchpad accesses that wait at the core, in order (R334). -/
  spq : List SpAcc := []
deriving DecidableEq, Repr, Inhabited

/-! ## Workgroups and launches (04) -/

/-- A named barrier of a workgroup (R352): phase, the n its first arrival fixed, arrivals of the phase, completions. -/
structure Barrier where
  phase : Nat := 0
  n : Nat := 0
  arrived : List Nat := []
  /-- Completed phases and their counts, newest first. -/
  hist : List (Nat × Nat) := []
deriving DecidableEq, Repr, Inhabited

/-- A stage descriptor (R79). -/
structure Stage where
  entry : W64 := 0
  gx : Nat := 0
  gy : Nat := 0
  gz : Nat := 0
  wcode : Nat := 0
  teams : Nat := 0
  vregs : Nat := 0
  scratch : Nat := 0
  flags : Nat := 0
  atiles : Nat := 0
deriving DecidableEq, Repr, Inhabited

/-- A workgroup that was dealt and has not retired. -/
structure Workgroup where
  id : Nat := 0
  launch : Nat := 0
  part : Nat := 0
  stage : Nat := 0
  x : Nat := 0
  y : Nat := 0
  z : Nat := 0
  wide : Bool := false
  T : Nat := 1
  vregs : Nat := 16
  width : Nat := 32
  /-- Its cores: one, or the four of a cluster. -/
  cores : List Nat := []
  tag : Nat := 0
  age : Nat := 0
  teams : List Nat := []
  bars : List (Nat × Barrier) := []
  /-- Scratchpad share in bytes, the bytes of it written so far by offset; scratchpad units and tiles held on each core. -/
  share : Nat := 0
  sp : List (Nat × Byte) := []
  spoison : List Nat := []
  /-- Bytes of the share, and accumulator elements, whose copy in a bank that the Rake is filling is poisoned (R132). -/
  spbad : List Nat := []
  abad : List Nat := []
  units : List (Nat × List Nat) := []
  atiles : Nat := 0
  tiles : List (Nat × List Nat) := []
  /-- Its units that another partition has claimed, whose state stands in the save area (R62 to R64): core, kind (0 bank, 1 SRAM unit, 2 tile,
  3 slot of a team, 4 place for barrier state), number. -/
  out : List (Nat × Nat × Nat) := []
  /-- VRF granules held: team number and granule. -/
  gran : List (Nat × Nat) := []
  /-- Accumulator elements written so far, by tile and element; poisoned tiles. -/
  acc : List (Nat × W32) := []
  apoison : List Nat := []
  saved : Bool := false
  slots : List Nat := []
  oldCore : List Nat := []
deriving DecidableEq, Repr, Inhabited

/-- Where a launch came from (R84, R40, R55, R378). -/
inductive Origin
  | qif (i num : Nat) | team (t : Nat) (d : Reg) (ent : Nat) | peer (module id tag : Nat)
deriving DecidableEq, Repr

/-- Where a launch stands: waiting to be read, being read, waiting for the host's verdict, its queues being set up, running, draining and
signalling, its signal word on its way to another module. -/
inductive LPhase
  | waiting | reading | verdict (ticket : Nat) | setup | running | signalling | signalled
deriving DecidableEq, Repr

/-- A launch (R75, R84, R99, R100). -/
structure Launch where
  id : Nat := 0
  part : Nat := 0
  record : W64 := 0
  origin : Origin := .qif 0 0
  phase : LPhase := .waiting
  nstage : Nat := 0
  sigptr : W64 := 0
  seqno : Nat := 0
  args : W64 := 0
  qarea : W64 := 0
  lgcap : Nat := 0
  stages : List Stage := []
  age : Nat := 0
  dealt : List Nat := []
  retired : Nat := 0
  gone : List Nat := []
  errors : Nat := 0
  closed : List Nat := []
  cores : List Nat := []
  wdog : Nat := 0
  wdogHalt : Bool := false
  event0 : Bool := false
  raw : List Byte := []
deriving DecidableEq, Repr, Inhabited

/-! ## Cores -/

/-- A bank map (R126): logical to physical, physical banks ashed. -/
structure BankMap where
  map : List (Nat × Nat) := []
  ashed : List Nat := []
  /-- Logical banks that ceased. -/
  ceased : List Nat := []
deriving DecidableEq, Repr, Inhabited

/-- The Rake at work (R130, R131): kind, physical bank, its logical bank, the destination (the bank itself: its logical bank ceases), the
next chunk, whether the destination's logical bank is dropped, whether the map has flipped, victims not saved yet. -/
structure Evac where
  kind : Nat
  bank : Nat
  logical : Nat
  dest : Nat
  next : Nat
  total : Nat
  drop : Bool := false
  flipped : Bool := false
  victims : List Nat := []
deriving DecidableEq, Repr, Inhabited

/-- A line of a core data cache (R199). `since` is the ck at which depoch was set. -/
structure DLine where
  va : Nat
  key : Byte
  part : Nat
  vw : Nat
  vd : Nat
  wts : W32
  rts : W32
  die : Nat
  dmask : Nat := 0
  depoch : W32 := 0
  since : Nat := 0
  data : List Byte
  /-- The launches of the teams that wrote its dirty bytes (R24, R100). -/
  launches : List Nat := []
deriving DecidableEq, Repr, Inhabited

/-- A core (05, 08). -/
structure Core where
  pts : Vector W32 4 := Vector.replicate 4 0
  vw : Nat := 0
  vd : Nat := 0
  rseq : W32 := 0
  dl : List DLine := []
  /-- The Damper (R371): its level, ck since the rise or the fall began or the level moved, consecutive idle ck, and the ck that a hold still
  runs once the level is 8. -/
  damper : Nat := 1
  ramp : Nat := 0
  idle : Nat := 0
  hold : Option Nat := none
  mxBusy : Nat := 0
  /-- Bank maps of VRF, SRAM, accumulator (kinds 0, 1, 2). -/
  vmap : BankMap := {}
  smap : BankMap := {}
  amap : BankMap := {}
  pending : List (Nat × Nat) := []
  /-- When a bank's correctable errors came: kind, bank, ms of each (R128). -/
  errs : List ((Nat × Nat) × List Nat) := []
  rakeQ : List (Nat × Nat) := []
  evac : Option Evac := none
  old : List (Nat × Nat) := []
  portBusy : List Nat := [0, 0, 0, 0]
  lastSwap : Nat := 0
  hobSeq : Nat := 0
deriving DecidableEq, Repr, Inhabited

/-! ## LSU -/

/-- What an LSU entry is. -/
inductive EntKind
  | load | store | atomic | waitc | queue (q : QKind) | fence (sc : Bool) | barArr (b n : Nat)
  | launch (rec : W64) (module : Nat) | pmap (ptr : W64) (attr : W64)
deriving DecidableEq, Repr

/-- How far an LSU entry has come. -/
inductive Phase
  | held                       -- not sent (R155, R168, R193)
  | flush (ids : List Nat)     -- write-backs of an eager release, fence or arrival outstanding (R212, R349)
  | query (ids : List Nat)     -- ember queries of an acquire fence outstanding (R350)
  | sent
  | fault (home slot : Nat)    -- a fault record (R156)
  | retry (home : Nat)         -- status 3 (R158)
  | monitor                    -- armed (R347)
  | fill                       -- its data are on their way to the register
deriving DecidableEq, Repr

/-- An LSU entry (R156): one line request, or a fence or arrival that stands in the team's order. -/
structure LsuEnt where
  id : Nat
  kind : EntKind
  req : Req
  dest : Dest := .none
  group : Nat
  pc : W64
  inh : Bool := false
  phase : Phase := .held
  hostHeld : Bool := false
  /-- The values a fill or a marked access brought, while an ember query for it is under way (R190, R350). -/
  value : Option (List (Nat × Nat)) := none
  /-- A monitor's fill that came before the answer to its arming read (R347). -/
  early : Option MonMsg := none
  /-- The core has written its own bytes of the line back since the request was sent: the answer may lack them (R175). -/
  redo : Bool := false
  /-- Values of lanes answered so far, and whether a reply was negative (R24). -/
  acc : List (Nat × Nat) := []
  bad : Bool := false
  /-- The team has withdrawn it while its arming read was under way: the answer ends it (R295). -/
  gone : Bool := false
  /-- Vector class, whatever destination it names (R156, R184). -/
  vec : Bool := false
deriving DecidableEq, Repr

/-! ## Slices and homes -/

/-- State of a slice line (R205); masks by core: (core, read mask, write mask). -/
inductive LState
  | shared | gathering (n : Nat) (ms : List (Nat × Nat × Nat)) | privatised (ms : List (Nat × Nat × Nat)) | held
deriving DecidableEq, Repr

/-- Where the bytes of a line live: HBM physical line address, host I/O address, CXL address, another module's home. -/
inductive Place
  | hbm (pa : Nat) | host (iova : Nat) | cxl (home pa : Nat) | remote (module : Nat)
deriving DecidableEq, Repr, Inhabited

/-- A line at its point of coherence (R196, R199, R209). `data` holds the bytes of a line that is not homed in local HBM, `dirty` marks
those not yet written back to its home. A line of which no copy is kept here (a never-cached host page, a `.sys` access performed at another
module) keeps its stamps and record only (R197). -/
structure SLine where
  va : Nat
  key : Byte
  place : Place
  attr : Nat := 0
  loc : Nat := 0
  /-- Base and bytes of its page (R151). -/
  page : Nat × Nat := (0, 0)
  wts : W32 := 0
  rts : W32 := 0
  record : Nat := 0
  st : LState := .shared
  data : List Byte := []
  dirty : Nat := 0
  /-- Virtual time (ck) of the fill and of the first write since the last write-back (R198). -/
  filled : Nat := 0
  dirtied : Nat := 0
  /-- Partitions that wrote its dirty bytes (R198); bytes written back while the line was being fetched, which lie over what comes; the system
  version under which it is being fetched (R213). -/
  writers : List Nat := []
  kept : Nat := 0
  ver : Nat := 0
  /-- Where the host keeps the line: its translated address (R47). -/
  hpa : Nat := 0
  /-- Bytes of a pinned line whose unit read with an uncorrectable error (R132, R152). -/
  poison : Nat := 0
  /-- Bytes whose last release the line's ember covers, and bytes whose last release it does not (R171, R172, log 73). -/
  rel : Nat := 0
  loose : Nat := 0
  /-- Latest lease granted to each core, and the ck of the last writes that passed another core's lease (R205). -/
  leases : List (Nat × W32) := []
  cuts : List Nat := []
  waiting : List Req := []
  part : Nat := 0
  /-- The line is in the slice; when it has left, its stamps and (in local HBM) its record stay (R209). -/
  present : Bool := true
  used : Nat := 0
  /-- An `.ar` write stands in its coherence order (R179). -/
  ar : Bool := false
  /-- The launches whose stores its dirty bytes carry (R24, R100); the host granted its page for reading only (R48). -/
  launches : List Nat := []
  readOnly : Bool := false
deriving DecidableEq, Repr, Inhabited

/-- A condition monitor (R347, R348). `slice`: held in the slice's table; otherwise it re-checks. -/
structure Monitor where
  id : Nat
  ent : Nat
  team : Nat
  core : Nat
  part : Nat
  ptr : W64
  width : Nat
  cond : WCond
  b : Nat
  ord : Ord
  scope : Scope
  slice : Bool
  /-- A WAIT packet's monitor (R40): its QIF and the packet's number. -/
  lfe : Option (Nat × Nat) := none
deriving DecidableEq, Repr

/-- A team waiting in `tqdeq` or for room in `tqenq` at the header's home slice (R90, R91), in order of arrival. -/
structure QWait where
  op : QOp
  cluster : Nat
deriving DecidableEq, Repr

/-- An `ewait` or `tlwait` that waits (R372): the waiting team and its destination, the team and context observed, the value. -/
structure TWait where
  team : Nat
  dest : Reg
  inh : Bool
  target : Nat
  ctx : Fin 3
  n : Nat
deriving DecidableEq, Repr

/-- A draw in progress (R214): the synchronisation line and the write-backs not yet acknowledged. `far`: those are the slices' write-backs
of lines homed elsewhere, which follow the core's (R198). -/
structure Draw where
  line : W64
  core : Nat
  part : Nat
  rseq : W32
  pending : List Nat := []
  far : Bool := false
deriving DecidableEq, Repr

/-- An entry of a home translation buffer (R153): base VA, size code, the leaf, the stamp of its last use. -/
structure HtbEnt where
  base : Nat
  size : Nat
  leaf : W64
  used : Nat := 0
deriving DecidableEq, Repr, Inhabited

/-- A fault-buffer entry (R155): the stored request and what R159 shows of it. -/
structure FaultEnt where
  slot : Nat
  req : Req
  cause : Nat
  level : Nat
  kind : Nat
  hostHeld : Bool := false
deriving DecidableEq, Repr

/-- A local home (R141, R153, R155, R158, R163). -/
structure Home where
  htb : List HtbEnt := []
  faults : List FaultEnt := []
  /-- Cores noted for a wake: core, partition, and whether the host must clear the overflow bit first (R73, R158). -/
  noted : List (Nat × Nat × Bool) := []
  ovf : Nat := 0
  counts : List (Nat × Nat) := []
  held : List Req := []
deriving DecidableEq, Repr, Inhabited

/-- A mapping operation in progress (R154); `fw`: home firmware's own (R73). -/
structure MapOp where
  op : Nat
  size : Nat
  va : Nat
  arg : W64
  fw : Bool := false
deriving DecidableEq, Repr, Inhabited

/-- A request outstanding on PCIe, CXL or Fjonlink: its tag, the request, what it asks. -/
inductive LinkKind
  | hostRead | hostWrite | hostAtomic | own | ats | cxlRead | remote (module : Nat) | qnLaunch (l : Nat) | backInv
deriving DecidableEq, Repr
structure LinkReq where
  id : Nat
  kind : LinkKind
  req : Req
  addr : Nat := 0
  /-- The ck from which a packet answered RETRY may be sent again (R55); 0: none. -/
  due : Nat := 0
  pkt : Option Packet := none
  /-- Of a write-back in several packets: the negative answer that one of them got (R24). -/
  refused : Option NackMsg := none
  /-- The PASID a host request was tagged with (R47), and its Relaxed Ordering attribute (R32, R44). -/
  pasid : Nat := 0
  ro : Bool := false
  /-- A compare-and-swap that carries several lanes of one location or a 64-bit one: the old value it was sent with (R182). -/
  guess : Option Nat := none
deriving DecidableEq, Repr

/-! ## Host interface, partitions, links -/

/-- A packet taken by a QIF (R39). -/
structure QPkt where
  seq : Nat
  /-- Its number, which no other packet of its QIF has (R36). -/
  num : Nat := 0
  bytes : List Byte
  /-- 0 not started, 1 started, 2 complete. -/
  state : Nat := 0
  /-- The PF and MSI-X vector its completion sends, fixed when it was taken (R36). -/
  irq : Option (Nat × Nat) := none
  /-- Number of a WAIT's monitor. -/
  mon : Nat := 0
  /-- The owning partition, fixed when it was taken (R40). -/
  part : Nat := 0
deriving DecidableEq, Repr, Inhabited

/-- A QIF (R38 to R42). -/
structure Qif where
  next : Nat := 0
  ecode : Nat := 0
  err : Bool := false
  rejected : Nat := 0
  held : List QPkt := []
  taken : List QPkt := []
  done : Nat := 0
  /-- Packets accepted so far. -/
  count : Nat := 0
deriving DecidableEq, Repr, Inhabited

/-- A partition's bookkeeping (R66, R84 to R86). -/
structure Part where
  pointer : Nat := 0
  resetting : Bool := false
  savedWgs : List Nat := []
  nextAge : Nat := 0
  /-- Collectives that a reset abandoned: tag, and the peers that have not been told (R66). -/
  abandoned : List (Nat × Nat) := []
deriving DecidableEq, Repr, Inhabited

/-- A cluster scheduler (R61). -/
structure Cluster where
  holder : Option Nat := none
  pass : List (Nat × Nat) := []
  gpass : Nat := 0
  last : Nat := 0
  /-- Partitions found runnable at the last look. -/
  ready : List Nat := []
deriving DecidableEq, Repr, Inhabited

/-- Deficit round robin (R69): the partition whose turn it is, and what each has left of its credit. -/
structure Drr where
  turn : Nat := 0
  credit : List (Nat × Nat) := []
deriving DecidableEq, Repr, Inhabited

/-- A Fjonlink port (R15 to R20). -/
structure Port where
  up : Bool := false
  training : Bool := false
  expect : Nat := 0
  sent : Nat := 0
  retry : List Flit := []
  naks : Nat := 0
  fails : Nat := 0
  pausedUntil : List Nat := [0, 0, 0, 0]
  weSent : List Bool := [false, false, false, false]
  /-- Receive buffer of each class. -/
  rx : List (List Byte) := [[], [], [], []]
  nakSeq : Nat := 0
  /-- Packets with a flit in the retry buffer: first and last sequence number; packets not yet framed, a re-sent one with the ck at
  which it is answered locally (R18, R20). -/
  queue : List (Nat × Nat × Packet) := []
  pend : List (Nat × Packet) := []
  /-- The flits it has sent, replayed ones again (R16, R20), and its arbiters, one a class (R69). -/
  out : List Flit := []
  drr : List Drr := [{}, {}, {}, {}]
deriving DecidableEq, Repr, Inhabited

/-- A packet accepted in the last 2 ms, when, and the reply it was sent (R18). -/
structure Accepted where
  pkt : Packet
  time : Nat
  reply : Option Packet := none
deriving DecidableEq, Repr, Inhabited

/-- Throttling and temperature (R27, R28), by compute die: gated eighths, hottest sensor (also of dies 4 and 5, IO0 and IO1), the causes that stood at the last step (bit 0
power, bit 1 temperature). `halted`: the controller has halted all issue; `sticky`: bit 6 of `ctl.therm`. -/
structure Power where
  level : List Nat := [0, 0, 0, 0]
  temps : List Nat := [0, 0, 0, 0, 0, 0]
  why : List Nat := [0, 0, 0, 0]
  /-- The ck of each compute die's last step (R27). -/
  last : List (Nat × Nat) := []
  halted : Bool := false
  sticky : Bool := false
deriving DecidableEq, Repr, Inhabited

/-- Condition of the module (R12, R27, R29). -/
inductive Cond
  | running | fatal | recovery | unpowered
deriving DecidableEq, Repr

/-! ## The machine -/

/-- Why a step can stop with a fault. -/
inductive Fault
  /-- Raised by `step` when module power has been removed at 110 °C (R27): the spec gives an unpowered module no further step. Safe: the
  machine stops where the hardware does nothing. -/
  | unpowered
deriving DecidableEq, Repr

/-- Why an instruction has no meaning in the model. -/
inductive Refusal
  /-- Raised by an arm of `exec` whose instruction has no meaning yet. Safe: nothing is claimed of it. -/
  | notModelled (mnemonic : String)
deriving DecidableEq, Repr

/-- The state of one module. -/
structure State where
  -- the focus team and the others; the teams a core cycle has picked; what has been caused and has not taken place
  cur : Team := {}
  teams : List Team := []
  issue : List Nat := []
  agenda : List Instr := []
  ck : Nat := 0
  free : Nat := 0
  nextId : Nat := 1
  cond : Cond := .running
  time : W64 := 0
  mem : Memory := []
  ctl : List (CtlReg × W64) := []
  pkt : List ((Nat × Nat) × BitVec 3) := []
  wgs : List Workgroup := []
  launches : List Launch := []
  cores : List (Nat × Core) := []
  lsu : List LsuEnt := []
  lines : List SLine := []
  embers : List Ember := []
  monitors : List Monitor := []
  draws : List Draw := []
  qwait : List QWait := []
  twaits : List TWait := []
  sysver : Nat := 0
  homes : List (Nat × Home) := []
  mapop : Option MapOp := none
  mapq : List Nat := []
  links : List LinkReq := []
  cxlMem : Memory := []
  biasHost : List Nat := []
  biasOp : Option (Bool × Nat × Nat) := none
  qifs : List (Nat × Qif) := []
  parts : List (Nat × Part) := []
  clusters : List (Nat × Cluster) := []
  ports : List (Nat × Port) := []
  /-- Arbiters of homes and slices (R69). -/
  arb : List (Nat × Drr) := []
  accepted : List Accepted := []
  peers : List (Nat × Packet) := []
  /-- ATS translation cache (R47, R48): PASID, page, host page, whether writes are granted. -/
  atc : List (Nat × Nat × Nat × Bool) := []
  invals : List (Nat × Nat × Nat) := []
  /-- Flue links that have failed (R12). -/
  flueDown : List Nat := []
  /-- Accesses, not yet over, of agents that try again (log 5): access number, line, the home it was sent to (R142), and whether that home has
  counted it and let it go on to its place (R48, R163). -/
  asks : List (Nat × W64 × HomeSel × Bool) := []
  got : List (Nat × Nat × Option (List Byte)) := []
  msixTab : List ((Nat × Nat) × (W64 × W32 × Bool)) := []
  msixPend : List (Nat × Nat) := []
  msixSent : List (Nat × W64 × W32) := []
  hostOut : List (Nat × List Byte) := []
  ticket : Nat := 0
  power : Power := {}
  meas : List (BitVec 256) := []
  /-- Security versions of boot, device and home firmware (R29, R31). -/
  fw : List W64 := [0, 0, 0]
  reports : List (List Byte) := []
deriving DecidableEq, Repr, Inhabited

/-- The module right after reset: nothing resident, memory empty, every register at its reset value. The registers that do not reset to
the value of `ctlReset` are listed: the site fuses, every site enabled (R13, log 2). -/
def State.reset : State :=
  { ctl := [(.harvest 0, 0xF_FFFF_FFFF), (.harvest 1, 0xF_FFFF_FFFF), (.harvest 2, 0xF_FFFF_FFFF), (.harvest 3, 0xF_FFFF_FFFF)]
    meas := List.replicate 8 0 }

end Sys2Proof.Machine
end

