-- ==== Sys2Proof/Machine/Base.lean ====
section
/-! DEFINITION. The plainest named operations over the state: tables, memory bytes, bit fields, the team in focus, cores,
workgroups, launches, homes, control-register storage, the agenda. -/

namespace Sys2Proof.Machine

/-! ## Tables held as lists -/

/-- The value an association list holds for a key, or a default. -/
def alGet {α β : Type} [DecidableEq α] (d : β) (k : α) : List (α × β) → β
  | [] => d
  | (a, b) :: l => if a = k then b else alGet d k l
/-- Set the value of a key. -/
def alSet {α β : Type} [DecidableEq α] (k : α) (v : β) : List (α × β) → List (α × β)
  | [] => [(k, v)]
  | (a, b) :: l => if a = k then (k, v) :: l else (a, b) :: alSet k v l
/-- Change every element that satisfies a test. -/
def updWhere {α : Type} (p : α → Bool) (f : α → α) (l : List α) : List α := l.map fun x => if p x then f x else x
/-- The lowest number at or above `lo`, among `n` candidates, that is not listed. -/
def firstFree (used : List Nat) (lo : Nat) : Nat → Nat
  | 0 => lo
  | n + 1 => if used.contains lo then firstFree used (lo + 1) n else lo
/-- Largest of a list of numbers, 0 for none. -/
def maxOf (l : List Nat) : Nat := l.foldl max 0
/-- The element with the least measure, the first among equals. -/
def minBy? {α : Type} (m : α → Nat) : List α → Option α
  | [] => none
  | x :: l =>
    match minBy? m l with
    | none => some x
    | some y => if m y < m x then some y else some x

/-! ## Bit fields and bytes -/

/-- Bits [lo+n-1 : lo] of a value. -/
def fld (w : W64) (lo n : Nat) : Nat := w.toNat / 2 ^ lo % 2 ^ n
/-- One bit of a value. -/
def bit (w : W64) (i : Nat) : Bool := w.getLsbD i
/-- A number as a 64-bit value. -/
def w64 (n : Nat) : W64 := BitVec.ofNat 64 n
/-- A number as a 32-bit value. -/
def w32 (n : Nat) : W32 := BitVec.ofNat 32 n
/-- `b` as a field value. -/
def nb (b : Bool) : Nat := if b then 1 else 0
/-- The virtual address of a pointer (R138). -/
def vaOf (p : W64) : Nat := p.toNat % 2 ^ 56
/-- The protection key of a pointer (R138). -/
def keyOf (p : W64) : Byte := BitVec.ofNat 8 (p.toNat / 2 ^ 56)
/-- A pointer from key and virtual address, which wraps within [55:0] (R138). -/
def mkPtr (k : Byte) (va : Nat) : W64 := w64 (k.toNat * 2 ^ 56 + va % 2 ^ 56)
/-- An engine's address increment: it wraps within [55:0] and keeps the key (R138). -/
def ptrAdd (p : W64) (n : Int) : W64 := mkPtr (keyOf p) (((vaOf p : Int) + n) % 2 ^ 56).toNat
/-- The 64-byte line a virtual address lies in (R138). -/
def lineVa (va : Nat) : Nat := va / 64 * 64
/-- The pointer of the line a pointer lies in. -/
def linePtr (p : W64) : W64 := mkPtr (keyOf p) (lineVa (vaOf p))
/-- Little-endian bytes as a number (R3). -/
def natOfBytes (bs : List Byte) : Nat := wordOfBytes bs
/-- The low `n` bytes of a number, little-endian (R3). -/
def bytesOfNat (n v : Nat) : List Byte := bytesOfWord n v
/-- Bytes `off` to `off + n - 1` of a byte list, zero beyond its end. -/
def sliceBytes (bs : List Byte) (off n : Nat) : List Byte := (List.range n).map fun i => bs.getD (off + i) 0
/-- A byte list with bytes from `off` replaced. -/
def putBytes (bs : List Byte) (off : Nat) (new : List Byte) : List Byte :=
  bs.mapIdx fun i b => if off ≤ i ∧ i < off + new.length then new.getD (i - off) b else b
/-- Sign extension of the low `n` bits of a number. -/
def sextInt (n v : Nat) : Int :=
  let x := v % 2 ^ n
  if 2 * x < 2 ^ n then (x : Int) else (x : Int) - (2 : Int) ^ n
/-- An integer as `n` bits, wrapping. -/
def wrapNat (n : Nat) (i : Int) : Nat := (i % (2 : Int) ^ n).toNat

/-! ## Masks (R106) -/

/-- The mask of the lanes below `n` for which `f` holds. -/
def maskOf (n : Nat) (f : Nat → Bool) : Mask :=
  BitVec.ofNat 1024 ((List.range n).foldl (fun acc i => if f i then acc + 2 ^ i else acc) 0)
/-- All lanes of a team of `n` lanes. -/
def fullMask (n : Nat) : Mask := BitVec.ofNat 1024 (2 ^ n - 1)
/-- The number of words with an active lane (R107). -/
def activeWords (n : Nat) (m : Mask) : Nat :=
  ((List.range (n / 32)).filter fun j => m.toNat / 2 ^ (32 * j) % 2 ^ 32 != 0).length
/-- Word `j` of a mask (R106). -/
def maskWord (m : Mask) (j : Nat) : W32 := BitVec.ofNat 32 (m.toNat / 2 ^ (32 * j))
/-- The summary word of a mask: bit j is 1 exactly when word j is non-zero (R106). -/
def maskSummary (n : Nat) (m : Mask) : W32 :=
  w32 ((List.range (n / 32)).foldl (fun acc j => if maskWord m j != 0 then acc + 2 ^ j else acc) 0)
/-- A mask with word `j` replaced. -/
def setMaskWord (m : Mask) (j : Nat) (w : W32) : Mask :=
  BitVec.ofNat 1024 (m.toNat - m.toNat / 2 ^ (32 * j) % 2 ^ 32 * 2 ^ (32 * j) + w.toNat * 2 ^ (32 * j))
/-- Set lanes of a mask, in ascending order. -/
def lanesOf (n : Nat) (m : Mask) : List Nat := (List.range n).filter m.getLsbD
/-- The mask of a list of lanes. -/
def maskOfLanes (ls : List Nat) : Mask := maskOf 1024 ls.contains

/-! ## Memory bytes (R143, R175) -/

/-- The byte at a physical address; 0 where nothing is listed. -/
def Memory.read (m : Memory) (a : Nat) : Byte :=
  match m with
  | [] => 0
  | (b, v) :: l => if b = a then v else Memory.read l a
/-- Store one byte, keeping the canonical form. -/
def Memory.write (m : Memory) (a : Nat) (v : Byte) : Memory :=
  match m with
  | [] => if v = 0 then [] else [(a, v)]
  | (b, w) :: l =>
    if a < b then (if v = 0 then (b, w) :: l else (a, v) :: (b, w) :: l)
    else if a = b then (if v = 0 then l else (a, v) :: l)
    else (b, w) :: Memory.write l a v
/-- `n` bytes from an address. -/
def Memory.readN (m : Memory) (a : Nat) : Nat → List Byte
  | 0 => []
  | n + 1 => m.read a :: Memory.readN m (a + 1) n
/-- Store bytes from an address up. -/
def Memory.writeN (m : Memory) (a : Nat) : List Byte → Memory
  | [] => m
  | b :: bs => Memory.writeN (m.write a b) (a + 1) bs
/-- A little-endian number of `n` bytes. -/
def Memory.readNat (m : Memory) (a n : Nat) : Nat := natOfBytes (m.readN a n)
/-- Store a little-endian number of `n` bytes. -/
def Memory.writeNat (m : Memory) (a n v : Nat) : Memory := m.writeN a (bytesOfNat n v)
/-- HBM physical addresses end at 384 GiB (R143). -/
def hbmEnd : Nat := 384 * 2 ^ 30

/-! ## Teams -/

/-- Value of a scalar register; s0 reads as zero (R103). -/
def Team.gs (t : Team) (r : Reg) : W64 := if r = 0 then 0 else (t.s[r.val]'r.isLt).val
/-- The scalar register `r`; s0 is zero, full and clean. -/
def Team.sreg (t : Team) (r : Reg) : SReg := if r = 0 then {} else t.s[r.val]'r.isLt
/-- Replace a scalar register; s0 discards. -/
def Team.setS (t : Team) (r : Reg) (x : SReg) : Team := if r = 0 then t else { t with s := t.s.set r.val x r.isLt }
/-- Write a scalar register: full and clean (R116, R117). -/
def Team.ss (t : Team) (r : Reg) (v : W64) : Team := t.setS r { val := v }
/-- Register `r + 1` of a pair field. -/
def regNext (r : Reg) : Reg := ⟨(r.val + 1) % 64, Nat.mod_lt _ (by decide)⟩
/-- The vector register `r`; v0 is zero, full and clean (R103). -/
def Team.vreg (t : Team) (r : Reg) : VReg := if r = 0 then {} else t.v.getD r.val {}
/-- Lane `l` of a vector register. -/
def Team.lane (t : Team) (r : Reg) (l : Nat) : W32 := (t.vreg r).lanes.getD l 0
/-- Lane `l` of a vector pair as 64 bits, low half in the even register (R255). -/
def Team.lane64 (t : Team) (r : Reg) (l : Nat) : W64 := (t.lane (regNext r) l) ++ (t.lane r l)
/-- Replace a vector register; v0 discards. A bank that the Rake is filling gets what is written, clean (R131). -/
def Team.setV (t : Team) (r : Reg) (x : VReg) : Team := if r = 0 then t else { t with v := t.v.set r.val x, vbad := t.vbad.filter (· != r.val) }
/-- Lane `l` is active under k0 (R107). -/
def Team.act (t : Team) (l : Nat) : Bool := (t.k[0]).getLsbD l
/-- The lanes of a vector register with those that `f` gives a value replaced. -/
def laneMap (w : Nat) (old : List W32) (f : Nat → Option W32) : List W32 :=
  (List.range w).map fun l => (f l).getD (old.getD l 0)
/-- Write lanes of a vector register: full and clean afterwards (R116, R117). -/
def Team.sv (t : Team) (r : Reg) (f : Nat → Option W32) : Team :=
  t.setV r { lanes := laneMap t.width (t.vreg r).lanes f }
/-- Write lanes of a vector pair. -/
def Team.sv64 (t : Team) (r : Reg) (f : Nat → Option W64) : Team :=
  (t.sv r fun l => (f l).map (BitVec.setWidth 32)).sv (regNext r) fun l => (f l).map fun (x : W64) => (x >>> 32).setWidth 32
/-- A mask register. -/
def Team.gk (t : Team) (k : KReg) : Mask := t.k[k.val]'k.isLt
/-- Write a mask register. -/
def Team.sk (t : Team) (k : KReg) (m : Mask) : Team := { t with k := t.k.set k.val m k.isLt }
/-- A flag set by number: nv, dz, of, uf, nx (R257). -/
def Flags.get (f : Flags) (i : Fin 5) : Mask :=
  match i with | 0 => f.nv | 1 => f.dz | 2 => f.of | 3 => f.uf | 4 => f.nx
/-- Replace a flag set. -/
def Flags.put (f : Flags) (i : Fin 5) (m : Mask) : Flags :=
  match i with
  | 0 => { f with nv := m } | 1 => { f with dz := m } | 2 => { f with of := m } | 3 => { f with uf := m } | 4 => { f with nx := m }
/-- A mask or flag set as an operand. -/
def Team.gkf (t : Team) : KF → Mask
  | .k n => t.gk n
  | .f n => t.flags.get n

/-- The team with a number, in focus or not. -/
def teamOf (id : Nat) (s : State) : Option Team := if s.cur.id = id then some s.cur else s.teams.find? fun t => t.id == id
/-- Change a team. -/
def modTeam (id : Nat) (f : Team → Team) (s : State) : State :=
  if s.cur.id = id then { s with cur := f s.cur } else { s with teams := updWhere (fun t => t.id == id) f s.teams }
/-- Every team of the module. -/
def allTeams (s : State) : List Team := (if s.cur.id = 0 then [] else [s.cur]) ++ s.teams
/-- Change the team in focus. -/
def modCur (f : Team → Team) (s : State) : State := { s with cur := f s.cur }
/-- Bring a team into focus. -/
def focus (id : Nat) (s : State) : State :=
  if s.cur.id = id then s
  else match s.teams.find? (fun t => t.id == id) with
    | none => s
    | some t => { s with cur := t, teams := (if s.cur.id = 0 then [] else [s.cur]) ++ s.teams.filter fun u => u.id != id }
/-- Change every team that satisfies a test. -/
def modTeams (p : Team → Bool) (f : Team → Team) (s : State) : State :=
  { s with cur := if p s.cur then f s.cur else s.cur, teams := updWhere p f s.teams }
/-- Do something for every element of a list, in order. -/
def forEach {α : Type} (l : List α) (f : α → State → State) (s : State) : State := l.foldl (fun s x => f x s) s

/-! ## Cores, homes, workgroups, launches, partitions -/

/-- Logical core `n`. -/
def coreOf (n : Nat) (s : State) : Core := alGet {} n s.cores
/-- Change a core. -/
def modCore (n : Nat) (f : Core → Core) (s : State) : State := { s with cores := alSet n (f (coreOf n s)) s.cores }
/-- Home `h` (R141). -/
def homeOf (h : Nat) (s : State) : Home := alGet {} h s.homes
def modHome (h : Nat) (f : Home → Home) (s : State) : State := { s with homes := alSet h (f (homeOf h s)) s.homes }
def qifOf (i : Nat) (s : State) : Qif := alGet {} i s.qifs
def modQif (i : Nat) (f : Qif → Qif) (s : State) : State := { s with qifs := alSet i (f (qifOf i s)) s.qifs }
def partOf (q : Nat) (s : State) : Part := alGet {} q s.parts
def modPart (q : Nat) (f : Part → Part) (s : State) : State := { s with parts := alSet q (f (partOf q s)) s.parts }
def clusterOf (c : Nat) (s : State) : Cluster := alGet {} c s.clusters
def modCluster (c : Nat) (f : Cluster → Cluster) (s : State) : State := { s with clusters := alSet c (f (clusterOf c s)) s.clusters }
def portOf (p : Nat) (s : State) : Port := alGet {} p s.ports
def modPort (p : Nat) (f : Port → Port) (s : State) : State := { s with ports := alSet p (f (portOf p s)) s.ports }
def wgOf (id : Nat) (s : State) : Option Workgroup := s.wgs.find? fun w => w.id == id
def modWg (id : Nat) (f : Workgroup → Workgroup) (s : State) : State := { s with wgs := updWhere (fun w => w.id == id) f s.wgs }
def launchOf (id : Nat) (s : State) : Option Launch := s.launches.find? fun l => l.id == id
def modLaunch (id : Nat) (f : Launch → Launch) (s : State) : State := { s with launches := updWhere (fun l => l.id == id) f s.launches }
/-- The core on which team `num` of a workgroup runs (R75). -/
def Workgroup.coreOfNum (w : Workgroup) (num : Nat) : Nat := if w.wide then w.cores.getD (num % 4) 0 else w.cores.headD 0
/-- The launch a team belongs to. -/
def launchOfTeam (t : Team) (s : State) : Option Nat := (wgOf t.wg s).map (·.launch)
/-- A byte of a workgroup's scratchpad share; one it has not written has its initial value, zero (R165, R175, R185, log 15). -/
def Workgroup.spByte (w : Workgroup) (a : Nat) : Byte := alGet 0 a w.sp
/-- Bytes of the share. -/
def Workgroup.spBytes (w : Workgroup) (a n : Nat) : List Byte := (List.range n).map fun i => w.spByte (a + i)
/-- Write bytes of the share: they are clean, in a bank that the Rake is filling too (R131, R132). -/
def Workgroup.spPut (w : Workgroup) (a : Nat) (bs : List Byte) : Workgroup :=
  let kept (l : List Nat) : List Nat := l.filter fun b => !(decide (a ≤ b) && decide (b < a + bs.length))
  { w with sp := (bs.zipIdx).foldl (fun m x => alSet (a + x.2) x.1 m) w.sp, spoison := kept w.spoison, spbad := kept w.spbad }
/-- An accumulator element by number, 65,536 a tile: what was written, else its initial value, zero (R165, R175, log 15). -/
def Workgroup.accGet (w : Workgroup) (k : Nat) : W32 := alGet 0 k w.acc
/-- Write an accumulator element. -/
def Workgroup.accPut (w : Workgroup) (k : Nat) (v : W32) : Workgroup := { w with acc := alSet k v w.acc, abad := w.abad.filter (· != k) }
/-- The error count of a launch gains `n`, saturating (R100). -/
def addErrors (launch n : Nat) (s : State) : State := modLaunch launch (fun l => { l with errors := min 0xFFFF (l.errors + n) }) s
/-- The error count of the launch of a team gains one (R100). -/
def teamError (team : Nat) (s : State) : State :=
  match (teamOf team s).bind (fun t => launchOfTeam t s) with
  | some l => addErrors l 1 s
  | none => s

/-! ## Events, numbers, time -/

/-- A caused event is put on the agenda. -/
def cause (i : Instr) (s : State) : State := { s with agenda := s.agenda ++ [i] }
/-- Put an event on the agenda unless it stands there. -/
def causeOnce (i : Instr) (s : State) : State := if s.agenda.contains i then s else cause i s
/-- Several events, in order. -/
def causeAll (is : List Instr) (s : State) : State := { s with agenda := s.agenda ++ is }
/-- A fresh number for an entry, operation, team or workgroup (log 5). -/
def fresh (s : State) : Nat × State := (s.nextId, { s with nextId := s.nextId + 1 })
/-- The next free value that chooses among alternatives (log 6). -/
def choose (s : State) : Nat × State := (Config.pick s.free, { s with free := s.free + 1 })
/-- The next free coin (log 6). -/
def toss (s : State) : Bool × State := (Config.coin s.free, { s with free := s.free + 1 })
/-- Cycles per microsecond: the core clock is 1.9 GHz (R1). -/
def usCk : Nat := 1900

/-! ## Deficit round robin (R69) -/

/-- The next of some partitions after one, in a circle. -/
def cyclicNext (qs : List Nat) (q : Nat) : Nat := (minBy? id (qs.filter fun x => q < x) <|> minBy? id qs).getD 0
/-- The partition whose first request goes next: `heads` names the partitions with requests queued and the size of the first of each; a turn
credits 64 bytes times the weight, a partition with nothing queued keeps none (R69). -/
def Drr.pick (w : Nat → Nat) (heads : List (Nat × Nat)) : Nat → Drr → Option (Nat × Drr)
  | 0, _ => none
  | fuel + 1, d =>
    let qs := heads.map (·.1)
    let d := { d with credit := d.credit.filter fun c => qs.contains c.1 }
    let has (n : Nat) : Bool := decide (n ≤ alGet 0 d.turn d.credit)
    match heads.find? fun h => h.1 == d.turn && has h.2 with
    | some (q, n) => some (q, { d with credit := alSet q (alGet 0 q d.credit - n) d.credit })
    | none =>
      if qs.isEmpty then none
      else
        let t := cyclicNext qs d.turn
        Drr.pick w heads fuel { turn := t, credit := alSet t (alGet 0 t d.credit + 64 * max 1 (w t)) d.credit }

/-! ## Control-register storage (R4) -/

/-- Reset values; every register not named resets to 0 (see INVENTORY, State). -/
def ctlReset : CtlReg → W64
  | .pwrCap => 2000
  | .feat 0 => 1
  | .bankThr => w64 (16 + 1000 * 2 ^ 16)
  | .hotBase _ => w64 (10 * 2)
  | .schedQuantum => 50
  | .partQos _ => w64 (1 + 2 ^ 8)
  | _ => 0
/-- Stored value of a control register. -/
def ctlRaw (r : CtlReg) (s : State) : W64 := alGet (ctlReset r) r s.ctl
/-- Store a control register. -/
def ctlPut (r : CtlReg) (v : W64) (s : State) : State := { s with ctl := alSet r v s.ctl }
/-- A field of a stored control register. -/
def ctlFld (r : CtlReg) (lo n : Nat) (s : State) : Nat := fld (ctlRaw r s) lo n
/-- Set a field of a stored control register. -/
def ctlSetFld (r : CtlReg) (lo n v : Nat) (s : State) : State :=
  let x := ctlRaw r s
  ctlPut r (w64 (x.toNat - fld x lo n * 2 ^ lo + v % 2 ^ n * 2 ^ lo)) s

/-! ## Cores and sites (R7, R13) -/

/-- Enabled sites in ascending (die, site) order: the list of logical cores (R7). -/
def coreSites (s : State) : List (Nat × Nat) :=
  (List.range 4).flatMap fun d => ((List.range 36).filter fun i => bit (ctlRaw (.harvest d) s) i).map fun i => (d, i)
/-- Die and site of a logical core. -/
def siteOf (n : Nat) (s : State) : Option (Nat × Nat) := (coreSites s)[n]?
/-- Compute die of a logical core. -/
def dieOf (n : Nat) (s : State) : Nat := ((siteOf n s).map (·.1)).getD 0

/-! ## Logical time (R200) -/

/-- `a` does not come after `b` (R200). -/
def serLe (a b : W32) : Bool := (b - a).toNat < 2 ^ 31
/-- The later of two times. -/
def serMax (a b : W32) : W32 := if serLe a b then b else a
/-- A core merges a time of die `e` (R201). -/
def Core.mergePts (c : Core) (e : Nat) (w : W32) : Core :=
  { c with pts := Vector.ofFn fun i => if i.val = e then serMax c.pts[i] w else c.pts[i] }
/-- A core merges a whole vector (R213). -/
def Core.mergeVec (c : Core) (v : List W32) : Core := { c with pts := Vector.ofFn fun i => serMax c.pts[i] (v.getD i.val c.pts[i]) }
/-- Die whose time a line's stamps are in (R196, R199). -/
def SLine.die (ln : SLine) (s : State) : Nat :=
  if ln.attr = 3 then ln.loc / 64 else if ln.attr = 2 then dieOf ln.loc s else ln.va / 2 ^ 14 % 4
/-- A core's times raised past the last write of every line: what an acquire that met no ember has seen (R9, R173, R217, log 73). -/
def Core.mergeLines (c : Core) (s : State) : Core :=
  { c with pts := Vector.ofFn fun i => s.lines.foldl (fun t l => if l.die s = i.val then serMax t l.wts else t) c.pts[i] }
/-- The time of a die: the latest that a core has (R200). -/
def dieTime (e : Nat) (s : State) : W32 :=
  match s.cores.map fun c => c.2.pts.toList.getD e 0 with | [] => 0 | t :: ts => ts.foldl serMax t
/-- The stamps of a line that has had none: 0, or what a lease that trails its die's time by 2^30 is taken for (R200). -/
def firstStamp (e : Nat) (s : State) : W32 := if (dieTime e s).toNat < 2 ^ 30 then 0 else dieTime e s - w32 (2 ^ 30)

end Sys2Proof.Machine
end

