-- ==== Sys2Proof/Machine/Float.lean ====
section
/-! DEFINITION. Number formats and arithmetic (R220 to R231, R239 to R244): exact dyadic values, one rounding function, the correctly
rounded functions. -/

namespace Sys2Proof.Machine

/-- Flags one element raises (R226). -/
structure FX where
  nv : Bool := false
  dz : Bool := false
  of : Bool := false
  uf : Bool := false
  nx : Bool := false
deriving DecidableEq, Repr, Inhabited
/-- Flags of either of two steps. -/
def FX.or (a b : FX) : FX := { nv := a.nv || b.nv, dz := a.dz || b.dz, of := a.of || b.of, uf := a.uf || b.uf, nx := a.nx || b.nx }

/-- A rounding mode (R223). -/
inductive RMode | rne | rz | ru | rd
deriving DecidableEq, Repr, Inhabited
/-- The rm field (R272). -/
def rmOf (b : BitVec 2) : RMode := if b = 0 then .rne else if b = 1 then .rz else if b = 2 then .ru else .rd

/-- A binary format: fraction bits, exponent bits, bias (R220). -/
structure Fmt where
  F : Nat
  E : Nat
  bias : Nat
deriving DecidableEq, Repr
def fmtF32 : Fmt := ⟨23, 8, 127⟩
def fmtF16 : Fmt := ⟨10, 5, 15⟩
def fmtBf16 : Fmt := ⟨7, 8, 127⟩
def fmtOf : FFmt → Fmt
  | .f32 => fmtF32 | .f16 => fmtF16 | .bf16 => fmtBf16
/-- Bits of a value of the format. -/
def Fmt.bits (f : Fmt) : Nat := f.F + f.E + 1
/-- Exponent of the least subnormal. -/
def Fmt.qmin (f : Fmt) : Int := 1 - (f.bias : Int) - f.F
/-- Magnitude pattern of infinity. -/
def Fmt.inf (f : Fmt) : Nat := (2 ^ f.E - 1) * 2 ^ f.F
/-- The canonical NaN (R220). -/
def Fmt.nan (f : Fmt) : Nat := f.inf + 2 ^ (f.F - 1)
/-- A pattern with a sign. -/
def Fmt.signed (f : Fmt) (neg : Bool) (m : Nat) : Nat := if neg then m + 2 ^ (f.F + f.E) else m

/-- The value of a pattern: a NaN (signalling or quiet), an infinity, or sign, integer and exponent of two. -/
inductive Val
  | nan (sig : Bool) | inf (neg : Bool) | fin (neg : Bool) (m : Nat) (e : Int)
deriving DecidableEq, Repr, Inhabited
/-- Read a pattern (R220). -/
def Fmt.read (f : Fmt) (x : Nat) : Val :=
  let neg := x.testBit (f.F + f.E)
  let e := x / 2 ^ f.F % 2 ^ f.E
  let m := x % 2 ^ f.F
  if e = 2 ^ f.E - 1 then (if m = 0 then .inf neg else .nan (!x.testBit (f.F - 1)))
  else if e = 0 then .fin neg m f.qmin
  else .fin neg (m + 2 ^ f.F) (f.qmin + e - 1)
/-- The magnitude is subnormal. -/
def Fmt.isSub (f : Fmt) (x : Nat) : Bool := x / 2 ^ f.F % 2 ^ f.E == 0 && x % 2 ^ f.F != 0
/-- `in(x)`: a subnormal is read as a zero of the same sign under ftz (R224, R316). -/
def Fmt.readIn (f : Fmt) (ftz : Bool) (x : Nat) : Val :=
  if ftz && f.isSub x then .fin (x.testBit (f.F + f.E)) 0 0 else f.read x

/-- Number of bits of a number. -/
def bitLen (n : Nat) : Nat := if n = 0 then 0 else Nat.log2 n + 1

/-- Round the magnitude (m + s) · 2^e, with 0 < s < 1 when `sticky`, to a multiple of 2^q: the multiple, and whether it differs. -/
def roundTo (rm : RMode) (neg : Bool) (m : Nat) (e q : Int) (sticky : Bool) : Nat × Bool :=
  if q ≤ e then (m * 2 ^ (e - q).toNat, sticky)
  else
    let sh := (q - e).toNat
    let kept := m / 2 ^ sh
    let rem := m % 2 ^ sh
    let half := 2 ^ (sh - 1)
    let inexact := rem != 0 || sticky
    let up := match rm with
      | .rne => decide (half < rem) || (rem == half && (sticky || kept % 2 == 1))
      | .rz => false
      | .ru => !neg && inexact
      | .rd => neg && inexact
    (if up then kept + 1 else kept, inexact)

/-- Round an exact non-zero value into a format's magnitude pattern with an unbounded exponent above: pattern, inexact, tiny (R225). -/
def roundMag (F : Nat) (qmin : Int) (rm : RMode) (neg : Bool) (m : Nat) (e : Int) (sticky : Bool) : Nat × Bool × Bool :=
  let qu := e + bitLen m - 1 - F
  let q := max qu qmin
  let (kept, inexact) := roundTo rm neg m e q sticky
  let tiny := decide (qu < qmin) && !(decide (qu = qmin - 1) && (roundTo rm neg m e qu sticky).1 == 2 ^ (F + 1))
  (((q - qmin).toNat) * 2 ^ F + kept, inexact, tiny)

/-- `rnd` into a format (R223, R225): pattern and flags. -/
def Fmt.round (f : Fmt) (rm : RMode) (neg : Bool) (m : Nat) (e : Int) (sticky : Bool := false) : Nat × FX :=
  if m = 0 ∧ !sticky then (f.signed neg 0, {})
  else
    let (p, inexact, tiny) := roundMag f.F f.qmin rm neg m e sticky
    if f.inf ≤ p then
      let toInf := match rm with | .rne => true | .rz => false | .ru => !neg | .rd => neg
      (f.signed neg (if toInf then f.inf else f.inf - 1), { of := true, nx := true })
    else (f.signed neg p, { nx := inexact, uf := tiny && inexact })
/-- `out(y)`: a subnormal result is delivered as a zero of its sign under ftz, with underflow and inexact (R224). -/
def Fmt.out (f : Fmt) (ftz : Bool) (r : Nat × FX) : Nat × FX :=
  if ftz && f.isSub r.1 then (f.signed (r.1.testBit (f.F + f.E)) 0, { r.2 with uf := true, nx := true }) else r

/-! ## Sums and products -/

/-- Exact sum of two finite values: sign, magnitude, exponent; an exact zero takes the sign of R222. -/
def addFin (rm : RMode) (n1 : Bool) (m1 : Nat) (e1 : Int) (n2 : Bool) (m2 : Nat) (e2 : Int) : Bool × Nat × Int :=
  if m1 = 0 ∧ m2 = 0 then (if n1 = n2 then n1 else rm == .rd, 0, 0)
  else if m1 = 0 then (n2, m2, e2)
  else if m2 = 0 then (n1, m1, e1)
  else
    let e := min e1 e2
    let a : Int := (if n1 then -1 else 1) * (m1 * 2 ^ (e1 - e).toNat : Nat)
    let b : Int := (if n2 then -1 else 1) * (m2 * 2 ^ (e2 - e).toNat : Nat)
    let c := a + b
    if c = 0 then (rm == .rd, 0, 0) else (decide (c < 0), c.natAbs, e)
/-- Negate a value. -/
def Val.neg : Val → Val
  | .nan s => .nan s | .inf n => .inf (!n) | .fin n m e => .fin (!n) m e
/-- A NaN result: canonical, with nv when asked (R221). -/
def Fmt.nanR (f : Fmt) (nv : Bool) : Nat × FX := (f.nan, { nv := nv })
/-- Signalling NaN. -/
def Val.isSig : Val → Bool
  | .nan s => s | _ => false
def Val.isNan : Val → Bool
  | .nan _ => true | _ => false
/-- a + b rounded once (R317). -/
def Fmt.add (f : Fmt) (rm : RMode) (ftz : Bool) (a b : Val) : Nat × FX :=
  match a, b with
  | .nan x, .nan y => f.nanR (x || y)
  | .nan x, _ => f.nanR x
  | _, .nan y => f.nanR y
  | .inf x, .inf y => if x = y then (f.signed x f.inf, {}) else f.nanR true
  | .inf x, _ => (f.signed x f.inf, {})
  | _, .inf y => (f.signed y f.inf, {})
  | .fin n1 m1 e1, .fin n2 m2 e2 =>
    let (n, m, e) := addFin rm n1 m1 e1 n2 m2 e2
    f.out ftz (f.round rm n m e)
/-- The exact product as a value; `none` is 0 × ∞. -/
def mulVal (a b : Val) : Option Val :=
  match a, b with
  | .nan x, .nan y => some (.nan (x || y))
  | .nan x, _ => some (.nan x)
  | _, .nan y => some (.nan y)
  | .inf x, .inf y => some (.inf (x != y))
  | .inf x, .fin y m _ => if m = 0 then none else some (.inf (x != y))
  | .fin x m _, .inf y => if m = 0 then none else some (.inf (x != y))
  | .fin n1 m1 e1, .fin n2 m2 e2 => some (.fin (n1 != n2) (m1 * m2) (e1 + e2))
/-- A value rounded once. -/
def Fmt.roundVal (f : Fmt) (rm : RMode) (ftz : Bool) : Val → Nat × FX
  | .nan s => f.nanR s
  | .inf n => (f.signed n f.inf, {})
  | .fin n m e => f.out ftz (f.round rm n m e)
/-- a × b rounded once (R317). -/
def Fmt.mul (f : Fmt) (rm : RMode) (ftz : Bool) (a b : Val) : Nat × FX :=
  match mulVal a b with
  | none => f.nanR true
  | some v => f.roundVal rm ftz v
/-- a × b + c rounded once; 0 × ∞ raises nv even with a quiet NaN c (R317). -/
def Fmt.fma (f : Fmt) (rm : RMode) (ftz : Bool) (a b c : Val) : Nat × FX :=
  match mulVal a b with
  | none => f.nanR true
  | some p => f.add rm ftz p c

/-! ## Selection, comparison, class (R318 to R323) -/

/-- a < b on the real line with −0 below +0. -/
def Val.ltOrd (a b : Val) : Bool :=
  match a, b with
  | .inf x, .inf y => x && !y
  | .inf x, _ => x
  | _, .inf y => !y
  | .fin n1 m1 e1, .fin n2 m2 e2 =>
    if n1 != n2 then n1
    else
      let e := min e1 e2
      let x := m1 * 2 ^ (e1 - e).toNat
      let y := m2 * 2 ^ (e2 - e).toNat
      if n1 then decide (y < x) else decide (x < y)
  | _, _ => false
/-- Both are zero. -/
def Val.isZero : Val → Bool
  | .fin _ 0 _ => true | _ => false
/-- `vfmin`, `vfmax` (R318) on patterns. -/
def Fmt.minmax (f : Fmt) (isMax : Bool) (x y : Nat) : Nat × FX :=
  let a := f.read x
  let b := f.read y
  let nv := a.isSig || b.isSig
  if a.isNan && b.isNan then (f.nan, { nv := nv })
  else if a.isNan then (y, { nv := nv })
  else if b.isNan then (x, { nv := nv })
  else (if (if isMax then b.ltOrd a else a.ltOrd b) then x else y, { nv := nv })
/-- The comparisons of R323 on patterns. -/
def Fmt.cmp (f : Fmt) (c : FCmp) (x y : Nat) : Bool × FX :=
  let a := f.read x
  let b := f.read y
  let sig := a.isSig || b.isSig
  let un := a.isNan || b.isNan
  let lt := !un && !(a.isZero && b.isZero) && a.ltOrd b
  let gt := !un && !(a.isZero && b.isZero) && b.ltOrd a
  match c with
  | .eq => (!un && !lt && !gt, { nv := sig })
  | .lt => (lt, { nv := un })
  | .le => (!un && !gt, { nv := un })
  | .ne => (un || lt || gt, { nv := sig })
  | .un => (un, { nv := sig })
/-- `vfclass` (R320). -/
def Fmt.classify (f : Fmt) (x : Nat) : Nat :=
  match f.read x with
  | .inf n => if n then 1 else 128
  | .nan s => if s then 256 else 512
  | .fin n m _ => if m = 0 then (if n then 8 else 16) else if f.isSub x then (if n then 4 else 32) else (if n then 2 else 64)
/-- `vfround` (R321): the nearest integer under the mode. -/
def Fmt.roundInt (f : Fmt) (rm : RMode) (ftz : Bool) (x : Nat) : Nat × FX :=
  match f.readIn ftz x with
  | .nan s => f.nanR s
  | .inf n => (f.signed n f.inf, {})
  | .fin n m e =>
    if m = 0 then (f.signed n 0, {})
    else
      let (k, inexact) := roundTo rm n m e 0 false
      if 0 ≤ e then (f.signed n (f.round .rne false m e).1, {})
      else ((f.round .rne n k 0).1, { nx := inexact })

/-! ## Correctly rounded functions (R239, R240) -/

/-- Integer square root, bit by bit from bit `n` down. -/
def isqrtAux (x : Nat) : Nat → Nat → Nat
  | 0, r => r
  | n + 1, r =>
    let c := r + 2 ^ n
    isqrtAux x n (if c * c ≤ x then c else r)
def isqrt (x : Nat) : Nat := isqrtAux x (bitLen x / 2 + 1) 0

/-- Quotient of finite non-zero magnitudes with at least 64 bits. -/
def Fmt.divFin (f : Fmt) (rm : RMode) (ftz neg : Bool) (m1 : Nat) (e1 : Int) (m2 : Nat) (e2 : Int) : Nat × FX :=
  let k := 64 + bitLen m2
  let q := m1 * 2 ^ k / m2
  f.out ftz (f.round rm neg q (e1 - e2 - k) (q * m2 != m1 * 2 ^ k))
/-- a / b (R240). -/
def Fmt.div (f : Fmt) (rm : RMode) (ftz : Bool) (a b : Val) : Nat × FX :=
  match a, b with
  | .nan x, .nan y => f.nanR (x || y)
  | .nan x, _ => f.nanR x
  | _, .nan y => f.nanR y
  | .inf _, .inf _ => f.nanR true
  | .inf x, .fin y _ _ => (f.signed (x != y) f.inf, {})
  | .fin x _ _, .inf y => (f.signed (x != y) 0, {})
  | .fin n1 m1 e1, .fin n2 m2 e2 =>
    if m2 = 0 then (if m1 = 0 then f.nanR true else (f.signed (n1 != n2) f.inf, { dz := true }))
    else if m1 = 0 then (f.signed (n1 != n2) 0, {})
    else f.divFin rm ftz (n1 != n2) m1 e1 m2 e2
/-- 1 / a. -/
def Fmt.rcp (f : Fmt) (rm : RMode) (ftz : Bool) (a : Val) : Nat × FX := f.div rm ftz (.fin false 1 0) a
/-- Make an exponent even, keeping the value. -/
def evenExp (m : Nat) (e : Int) : Nat × Int := if e % 2 = 0 then (m, e) else (2 * m, e - 1)
def Fmt.sqrt (f : Fmt) (rm : RMode) (ftz : Bool) (a : Val) : Nat × FX :=
  match a with
  | .nan s => f.nanR s
  | .inf n => if n then f.nanR true else (f.inf, {})
  | .fin n m e =>
    if m = 0 then (f.signed n 0, {})
    else if n then f.nanR true
    else
      let (m, e) := evenExp m e
      let x := m * 2 ^ 128
      let r := isqrt x
      f.out ftz (f.round rm false r (e / 2 - 64) (r * r != x))
def Fmt.rsqrt (f : Fmt) (rm : RMode) (ftz : Bool) (a : Val) : Nat × FX :=
  match a with
  | .nan s => f.nanR s
  | .inf n => if n then f.nanR true else (0, {})
  | .fin n m e =>
    if m = 0 then (f.signed n f.inf, { dz := true })
    else if n then f.nanR true
    else
      let (m, e) := evenExp m e
      let r := isqrt (2 ^ 256 / m)
      f.out ftz (f.round rm false r (-(e / 2) - 128) (r * r * m != 2 ^ 256))

/-- Bits after the point of the fixed-point series below: far beyond what any rounding of R220's formats can need (log 10). -/
def fxBits : Nat := 400
def fxOne : Nat := 2 ^ fxBits
/-- Σ z^(2k+1) / (2k+1) in fixed point, with signs alternating for the arctangent. -/
def atanSeries (alt : Bool) (zz : Nat) : Nat → Nat → Nat → Int → Int
  | 0, _, _, acc => acc
  | n + 1, p, k, acc =>
    let t : Int := (p / (2 * k + 1) : Nat)
    atanSeries alt zz n (p * zz / fxOne) (k + 1) (if alt && k % 2 == 1 then acc - t else acc + t)
/-- 2 · atanh(z), for z in fixed point, |z| at most 1/3. -/
def atanh2 (z : Nat) : Nat := (2 * atanSeries false (z * z / fxOne) 140 z 0 0).toNat
/-- ln 2 = 2 · atanh(1/3). -/
def fxLn2 : Nat := atanh2 (fxOne / 3)
/-- π = 16 · atan(1/5) − 4 · atan(1/239). -/
def fxPi : Nat :=
  (16 * atanSeries true (fxOne / 25) 100 (fxOne / 5) 0 0 - 4 * atanSeries true (fxOne / 57121) 40 (fxOne / 239) 0 0).toNat
/-- Σ t^k / k! in fixed point. -/
def expSeries (t : Nat) : Nat → Nat → Nat → Nat → Nat
  | 0, _, _, acc => acc
  | n + 1, p, k, acc => expSeries t n (p * t / fxOne / (k + 1)) (k + 1) (acc + p)
/-- Σ (−1)^k t^(2k+1) / (2k+1)! in fixed point. -/
def sinSeries (tt : Nat) : Nat → Nat → Nat → Int → Int
  | 0, _, _, acc => acc
  | n + 1, p, k, acc =>
    sinSeries tt n (p * tt / fxOne / ((2 * k + 2) * (2 * k + 3))) (k + 1) (if k % 2 = 1 then acc - (p : Int) else acc + (p : Int))

/-- 2^a (R240): integer and fractional part of the exponent are separated; an integer is exact. -/
def Fmt.exp2 (f : Fmt) (rm : RMode) (ftz : Bool) (a : Val) : Nat × FX :=
  match a with
  | .nan s => f.nanR s
  | .inf n => (if n then 0 else f.inf, {})
  | .fin n m e =>
    if m = 0 then (f.bias * 2 ^ f.F, {})
    else if 12 < e + bitLen m then f.out ftz (f.round rm false 1 (if n then -4096 else 4096) true)
    else
      let x : Int := (if n then -1 else 1) * (if 0 ≤ e then (m * 2 ^ e.toNat * fxOne : Nat) else (m * fxOne / 2 ^ (-e).toNat : Nat))
      let i := x / fxOne
      let fr := (x % fxOne).toNat
      if fr = 0 then f.out ftz (f.round rm false 1 i)
      else f.out ftz (f.round rm false (expSeries (fr * fxLn2 / fxOne) 100 fxOne 0 0) (i - fxBits) true)
/-- log2 a (R240); a power of two is exact. -/
def Fmt.log2 (f : Fmt) (rm : RMode) (ftz : Bool) (a : Val) : Nat × FX :=
  match a with
  | .nan s => f.nanR s
  | .inf n => if n then f.nanR true else (f.inf, {})
  | .fin n m e =>
    if m = 0 then (f.signed true f.inf, { dz := true })
    else if n then f.nanR true
    else
      let l := bitLen m - 1
      let i : Int := e + l
      if m = 2 ^ l then f.out ftz (f.round rm (decide (i < 0)) i.natAbs 0)
      else
        let z := (m - 2 ^ l) * fxOne / (m + 2 ^ l)
        let v : Int := i * fxOne + (atanh2 z * fxOne / fxLn2 : Nat)
        f.out ftz (f.round rm (decide (v < 0)) v.natAbs (-fxBits) true)
/-- sin(π y / D) for 0 ≤ y / D < 2, as sign and either an exact 0 or 1 or a fixed-point magnitude. -/
def sinUnits (y D : Nat) : Bool × Nat × Bool :=
  let neg := decide (D ≤ y)
  let y := y % D
  let y := if D < 2 * y then D - y else y
  if y = 0 then (neg, 0, false)
  else if 2 * y = D then (neg, fxOne, false)
  else
    let t := y * fxPi / D
    (neg, (sinSeries (t * t / fxOne) 90 t 0 0).toNat, true)
/-- An angle as units y of 1/D, both numbers. -/
def angle (m : Nat) (e : Int) : Nat × Nat := if 0 ≤ e then (m * 2 ^ e.toNat, 1) else (m, 2 ^ (-e).toNat)
def Fmt.sinp (f : Fmt) (rm : RMode) (ftz : Bool) (a : Val) : Nat × FX :=
  match a with
  | .nan s => f.nanR s
  | .inf _ => f.nanR true
  | .fin n m e =>
    let (y, D) := angle m e
    let (neg, v, st) := sinUnits (y % (2 * D)) D
    if v = 0 ∧ !st then (f.signed n 0, {}) else f.out ftz (f.round rm (n != neg) v (-fxBits) st)
def Fmt.cosp (f : Fmt) (rm : RMode) (ftz : Bool) (a : Val) : Nat × FX :=
  match a with
  | .nan s => f.nanR s
  | .inf _ => f.nanR true
  | .fin _ m e =>
    let (x, D) := angle m e
    let (y, D) := (2 * x + D, 2 * D)
    let (neg, v, st) := sinUnits (y % (2 * D)) D
    if v = 0 ∧ !st then (0, {}) else f.out ftz (f.round rm neg v (-fxBits) st)

/-! ## E4M3 (R227, R228) -/

def e4m3Read (x : Nat) : Val :=
  let neg := x.testBit 7
  let e := x / 8 % 16
  let m := x % 8
  if e = 15 ∧ m = 7 then .nan false
  else if e = 0 then .fin neg m (-9)
  else .fin neg (m + 8) (-10 + e)
/-- Convert into E4M3 (R228): pattern, flags, and whether the range was overflowed (R237). -/
def e4m3Write (rm : RMode) (sat : Bool) : Val → Nat × FX × Bool
  | .nan s => (0x7F, { nv := s }, false)
  | .inf n => (if sat then 0x7E + 128 * nb n else 0x7F, { of := true }, true)
  | .fin n m e =>
    if m = 0 then (128 * nb n, {}, false)
    else
      let (p, inexact, tiny) := roundMag 3 (-9) rm n m e false
      if 0x7E < p then (if sat then 0x7E + 128 * nb n else 0x7F, { of := true, nx := true }, true)
      else (p + 128 * nb n, { nx := inexact, uf := tiny && inexact }, false)

/-! ## QN4 (R230, R231) -/

def codebook : List Int := [-2048, -1526, -1192, -931, -710, -512, -328, -160, 0, 148, 306, 482, 682, 922, 1242, 2048]
/-- An index's element value times 2048. -/
def qn4Int (i : Nat) : Int := codebook.getD (i % 16) 0
/-- The element value of an index (R230). -/
def qn4Val (i : Nat) : Val := .fin (decide (qn4Int i < 0)) (qn4Int i).natAbs (-11)
/-- Is index `i` a better choice than `j` for the value v / 2^k of 2048 t: nearer, or as near with the smaller magnitude (R231). -/
def qn4Better (v : Int) (sc : Nat) (i j : Nat) : Bool :=
  let di := (v - qn4Int i * sc).natAbs
  let dj := (v - qn4Int j * sc).natAbs
  decide (di < dj) || (di == dj && decide ((qn4Int i).natAbs < (qn4Int j).natAbs))
/-- Quantise (R231): index and flags. -/
def qn4Write : Val → Nat × FX
  | .nan _ => (8, { nv := true })
  | .inf n => (if n then 0 else 15, { nx := true })
  | .fin n m e =>
    let k := (-(e + 11)).toNat
    let v : Int := (if n then -1 else 1) * (m * 2 ^ (e + 11).toNat : Nat)
    let sc := 2 ^ k
    let i := (List.range 16).foldl (fun best i => if qn4Better v sc i best then i else best) 8
    (i, { nx := qn4Int i * sc != v })

/-! ## Conversions (R229, R324) -/

/-- Round to an integer type of 32 bits (R229). -/
def toInt32 (signed : Bool) (rm : RMode) : Val → Nat × FX
  | .nan _ => (0, { nv := true })
  | .inf n => (if signed then (if n then 2 ^ 31 else 2 ^ 31 - 1) else (if n then 0 else 2 ^ 32 - 1), { nv := true })
  | .fin n m e =>
    let (k, inexact) := if 40 < e + bitLen m then (2 ^ 40, false) else roundTo rm n m e 0 false
    let v : Int := if n then -(k : Int) else k
    let lo : Int := if signed then -2 ^ 31 else 0
    let hi : Int := if signed then 2 ^ 31 - 1 else 2 ^ 32 - 1
    if v < lo then (wrapNat 32 lo, { nv := true })
    else if hi < v then (wrapNat 32 hi, { nv := true })
    else (wrapNat 32 v, { nx := inexact })
/-- The exact value of a `vfcvt` source element; ftz acts on FP32, FP16 and BF16 (R324). -/
def ftypeRead (x : FType) (ftz : Bool) (v : Nat) : Val :=
  match x with
  | .f32 => fmtF32.readIn ftz v
  | .f16 => fmtF16.readIn ftz (v % 2 ^ 16)
  | .bf16 => fmtBf16.readIn ftz (v % 2 ^ 16)
  | .e4m3 => e4m3Read (v % 256)
  | .qn4 => qn4Val (v % 16)
  | .i32 => let i := sextInt 32 v; .fin (decide (i < 0)) i.natAbs 0
  | .n32 => .fin false v 0
/-- Deliver a value to a `vfcvt` destination (R324). -/
def ftypeWrite (x : FType) (rm : RMode) (ftz sat : Bool) (v : Val) : Nat × FX :=
  match x with
  | .f32 => fmtF32.roundVal rm ftz v
  | .f16 => fmtF16.roundVal rm ftz v
  | .bf16 => fmtBf16.roundVal rm ftz v
  | .e4m3 => let r := e4m3Write rm sat v; (r.1, r.2.1)
  | .qn4 => qn4Write v
  | .i32 => toInt32 true rm v
  | .n32 => toInt32 false rm v

/-! ## The collective wire form (R241 to R244) -/

/-- Wire form of an input with window exponent w (R242). -/
def toWire (w : Int) (v : Val) : W64 × FX :=
  match v with
  | .nan _ => (0, { nv := true })
  | .inf n => (if n then -(w64 (2 ^ 63 - 1)) else w64 (2 ^ 63 - 1), { of := true })
  | .fin n m e =>
    if m = 0 then (0, {})
    else if 70 < e - w + bitLen m then (if n then -(w64 (2 ^ 63 - 1)) else w64 (2 ^ 63 - 1), { of := true })
    else
      let (k, inexact) := roundTo .rne n m (e - w) 0 false
      if 2 ^ 63 - 1 < k then (if n then -(w64 (2 ^ 63 - 1)) else w64 (2 ^ 63 - 1), { of := true })
      else (if n then -(w64 k) else w64 k, { uf := k == 0, nx := inexact })
/-- A reduced element back into a format (R244). -/
def ofWire (f : Fmt) (w : Int) (x : W64) : Nat × FX :=
  let i := x.toInt
  f.round .rne (decide (i < 0)) i.natAbs w

/-- Step of a floating-point atomic or chain: rne(exact(a + b)) on patterns (R183, R329). -/
def Fmt.addPat (f : Fmt) (a b : Nat) : Nat × FX := f.add .rne false (f.read a) (f.read b)

end Sys2Proof.Machine
end

