-- ==== Sys2Proof/Machine/Ops.lean ====
section
/-! DEFINITION. The named operations over teams: versions, barriers, killing and retiring, taking an exception (one shared
operation, R381, R382) and returning from one (R386). -/

namespace Sys2Proof.Machine

/-! ## Signatures (R120) -/

/-- One bit step of CRC-32C, reflected polynomial 0x82F6_3B78 (R120). -/
def crcBit (c : W32) : W32 := if c.getLsbD 0 then (c >>> 1) ^^^ 0x82F63B78#32 else c >>> 1
/-- Feed one byte (R120). -/
def crcByte (c : W32) (b : Byte) : W32 :=
  crcBit (crcBit (crcBit (crcBit (crcBit (crcBit (crcBit (crcBit (c ^^^ b.setWidth 32))))))))
/-- Feed bytes in order. -/
def crcBytes (c : W32) (bs : List Byte) : W32 := bs.foldl crcByte c
/-- The bytes an instruction word feeds: its four bytes, the check byte, and 0xC3 for `kjoin` (R120). -/
def sigStream (word : Nat) (escaped join : Bool) : List Byte :=
  bytesOfNat 4 word ++ [if escaped then 0xA5 else 0x5A] ++ (if join then [0xC3] else [])
/-- The value sig starts from and returns to (R120, R121). -/
def sigStart : W32 := 0xFFFF_FFFF

/-! ## Scope versions (R207) -/

/-- A counter of 6 bits moves on; at 63 every clean line goes first and the counter returns to 0 (R207). The core's times move past every
write that what it acquires may order (log 73). -/
def bumpVersion (wgv : Bool) (n : Nat) (s : State) : State :=
  modCore n (fun c =>
    let c := c.mergeLines s
    let v := if wgv then c.vw else c.vd
    let c := if v = 63 then { c with dl := c.dl.filter fun d => d.dmask != 0 } else c
    let v' := if v = 63 then 0 else v + 1
    if wgv then { c with vw := v' } else { c with vd := v' }) s

/-! ## Status of a team (R119) -/

/-- A team that holds a Hob place may issue. -/
def Team.onHob (t : Team) : Bool := t.status == .hob
/-- A team leaves for the shelf, waiting (R111). -/
def Team.toShelf (t : Team) (w : Wait) : Team := { t with status := .shelfWait w, passed := 0, urgent := none }
/-- Its wait has cleared: it is shelf ready (R112), also while it is halted (R64). -/
def Team.wake (ck : Nat) (t : Team) : Team :=
  match t.status with
  | .shelfWait _ => { t with status := .shelfReady, readySince := ck, passed := 0, urgent := none, yielded := false }
  | .halted | .saved => { t with haltWait := none }
  | _ => t
/-- The wait a team is in, halted, saved or neither. -/
def Team.waitingFor (t : Team) : Option Wait :=
  match t.status with
  | .shelfWait w => some w
  | .halted | .saved => t.haltWait
  | _ => none

/-! ## Named barriers (R351 to R354) -/

/-- A barrier of a workgroup. -/
def Workgroup.bar (w : Workgroup) (b : Nat) : Barrier := alGet {} b w.bars
/-- Teams counted in the current phase: arrivals, and teams that exited or were killed and had not arrived (R352). -/
def barCount (w : Workgroup) (b : Nat) (s : State) : Nat :=
  let bar := w.bar b
  bar.arrived.length +
    (w.teams.filter fun id => !bar.arrived.contains id &&
      (match teamOf id s with | some t => t.exited || t.dead || t.status == .gone | none => true)).length
/-- The result word of a barrier wait (R353). -/
def barResult (abandoned : Bool) (phase count : Nat) : W64 :=
  w64 ((if abandoned then 0x12 else 0) + phase % 2 ^ 16 * 2 ^ 16 + count % 128 * 2 ^ 32)
/-- A wait of team `id` at a barrier completes: the result is written, the abandon mark cleared (R353); a wide workgroup bumps vw (R354). -/
def finishBarWait (id b : Nat) (wide : Bool) (d : Reg) (phase count : Nat) (s : State) : State :=
  match teamOf id s with
  | none => s
  | some t =>
    let s := if wide then bumpVersion true t.core s else s
    modTeam id (fun t => ({ t with abandon := false, syncAt := none, arrived := t.arrived.filter fun a => a.1 != b }).ss d (barResult t.abandon phase count)) s
/-- Complete phases of barrier `b` while the count reaches n (R352). -/
def barProgress (wg b : Nat) : Nat → State → State
  | 0, s => s
  | fuel + 1, s =>
    match wgOf wg s with
    | none => s
    | some w =>
      let bar := w.bar b
      let c := barCount w b s
      if bar.n = 0 ∨ c < bar.n then s
      else
        let s := modWg wg (fun w => { w with bars := alSet b { phase := bar.phase + 1, hist := (bar.phase, c) :: bar.hist } w.bars }) s
        let s := forEach w.teams (fun id s =>
          match (teamOf id s).bind Team.waitingFor with
          | some (.barrier b' ph) => if b' = b ∧ ph = bar.phase then modTeam id (Team.wake s.ck) s else s
          | some (.barArr b') => if b' = b then modTeam id (Team.wake s.ck) s else s
          | _ => s) s
        barProgress wg b fuel s
/-- Look at every barrier of a workgroup again after an exit or a kill (R352). -/
def barRecheck (wg : Nat) (s : State) : State :=
  match wgOf wg s with
  | none => s
  | some w => forEach (w.bars.map (·.1)) (fun b s => barProgress wg b (w.T + 1) s) s
/-- A team arrives at a barrier; the first arrival of a phase fixes n (R352). One that has exited arrives at none (R295). -/
def barArrive (id b n : Nat) (s : State) : State :=
  match teamOf id s with
  | none => s
  | some t =>
    match wgOf t.wg s with
    | none => s
    | some w =>
      if t.exited then s else
      let bar := w.bar b
      let bar' := { bar with n := (if bar.n = 0 then n else bar.n), arrived := bar.arrived ++ [id] }
      let s := modWg t.wg (fun w => { w with bars := alSet b bar' w.bars }) s
      let s := modTeam id (fun t => { t with arrived := alSet b bar.phase t.arrived }) s
      barProgress t.wg b (w.T + 1) s
/-- The n of an arrival: sA[6:0], 0 or more than T acting as T (R351). -/
def barCountArg (v : W64) (T : Nat) : Nat :=
  let n := v.toNat % 128
  if n = 0 ∨ T < n then T else n

/-! ## Retiring (R98, R118, R124) -/

/-- Requests of a team that have not been acknowledged. -/
def teamPending (id : Nat) (s : State) : Bool := s.lsu.any fun e => e.req.team == id
/-- Operations a team's contexts still hold. -/
def Team.engineBusy (t : Team) : Bool := !t.c.ops.isEmpty || !t.m.ops.isEmpty || !t.l.ops.isEmpty
/-- Free what a workgroup holds and count its retirement; a whole stage retired closes the stage's output queue (R95, R98). -/
def closeStageQueue (l : Launch) (st : Nat) (s : State) : State :=
  let stg := l.stages.getD st {}
  let n := stg.gx * stg.gy * stg.gz
  if l.gone.getD st 0 = n ∧ st + 1 < l.nstage ∧ !l.closed.contains st then
    let s := modLaunch l.id (fun l => { l with closed := st :: l.closed }) s
    let hdr := ptrAdd l.qarea (st * (384 + 576 * 2 ^ l.lgcap) + 9 : Nat)
    let (id, s) := fresh s
    cause (.wr { id := id, agent := .lfe, part := l.part, op := .write, ptr := hdr, ord := .rel, scope := .dev,
                 items := [{ lane := 0, off := vaOf hdr % 64, size := 1, data := 3 }] }) s
  else s
/-- Count `n` workgroups of a stage as retired, vacated or failed (R98, R87, R101). -/
def countRetired (launch st n : Nat) (s : State) : State :=
  let s := modLaunch launch (fun l =>
    { l with retired := l.retired + n, gone := (List.range l.nstage).map fun i => l.gone.getD i 0 + if i = st then n else 0 }) s
  match launchOf launch s with
  | none => s
  | some l =>
    let s := closeStageQueue l st s
    let total := (l.stages.map fun g => g.gx * g.gy * g.gz).sum
    if l.retired = total ∧ l.phase = .running then cause (.launchComplete launch) (modLaunch launch (fun l => { l with phase := .signalling }) s)
    else s
/-- The partition has a workgroup resident or waiting (R85). -/
def hasWork (q : Nat) (s : State) : Bool :=
  s.wgs.any (fun w => w.part == q) || s.launches.any fun l => l.part == q && l.phase == .running && (List.range l.nstage).any fun i =>
    let g := l.stages.getD i {}
    decide (l.dealt.getD i 0 < g.gx * g.gy * g.gz)
/-- The pointer of a partition without work returns to 0 (R85). -/
def restPointer (q : Nat) (s : State) : State := if hasWork q s then s else modPart q (fun p => { p with pointer := 0 }) s
/-- A workgroup whose teams have all gone retires; the DSR runs a pass (R85, R98). -/
def retireWorkgroup (wg : Nat) (s : State) : State :=
  match wgOf wg s with
  | none => s
  | some w =>
    if !w.saved && w.teams.all fun id => match teamOf id s with | some t => t.status == .gone | none => true then
      let s := { s with wgs := s.wgs.filter fun x => x.id != wg, teams := s.teams.filter fun t => t.wg != wg || t.id == s.cur.id,
                        cur := if s.cur.wg = wg then {} else s.cur
                        twaits := s.twaits.filter fun t => !(w.teams.contains t.team || w.teams.contains t.target) }
      causeOnce (.dealPass w.part) (restPointer w.part (countRetired w.launch w.stage 1 s))
    else s
/-- A draining or killed team with nothing outstanding retires; its registers are released (R118, R124), its granules with the workgroup's (R105,
R427: the model's reading, log 85). One that its workgroup's restart discarded just goes, and the workgroup may be dealt again (R101). -/
def tryRetire (id : Nat) (s : State) : State :=
  match teamOf id s with
  | none => s
  | some t =>
    if (t.status == .draining || t.status == .killed) && !teamPending id s && !t.engineBusy && t.spq.isEmpty && t.records.isEmpty then
      let s := modTeam id (fun t => { t with status := .gone, v := [], ilines := [], ahead := [] }) s
      let mine := (wgOf t.wg s).any fun w => w.teams.contains id
      if mine then retireWorkgroup t.wg s
      else causeOnce (.dealPass t.part) { s with teams := s.teams.filter fun x => x.id != id }
    else s

/-! ## Killing (R123 to R125) -/

/-- A fault-buffer entry came free, or the host cleared an overflow bit: the home looks which noted cores it may wake (R158). -/
def wakeNoted (h : Nat) (s : State) : State := if (homeOf h s).noted.isEmpty then s else cause (.wake h) s
/-- Free an entry of a fault buffer (R157; a home number from 37 on names another module's home, which keeps its own). -/
def freeFault (home slot : Nat) (s : State) : State :=
  if 37 ≤ home then s else
  let s := modHome home (fun h => { h with faults := h.faults.filter fun f => f.slot != slot }) s
  wakeNoted home s
/-- An entry of a team that withdraws its monitors: one whose arming read is not sent, or whose fill is on its way, goes; another stays until its
slice confirms (R295). -/
def LsuEnt.withdrawn (e : LsuEnt) : Option LsuEnt := match e.phase with | .held | .fill => none | _ => some { e with gone := true }
/-- Withdraw the monitors and dequeue waits of a team (R295, R348, R377): each is pending until its slice has confirmed; a monitor whose arming
read is under way is confirmed by the answer. -/
def withdraw (id : Nat) (s : State) : State :=
  let mine (e : LsuEnt) : Bool := e.req.team == id && e.kind == .waitc
  causeAll (((s.qwait.filter fun q => q.op.team == id && q.op.kind == .deq).map fun q => .queueOperation q.op)
      ++ (s.monitors.filter fun m => m.team == id && m.lfe.isNone).map fun m => .monitorRecheck m.id)
    { s with lsu := s.lsu.filterMap fun e => if mine e then e.withdrawn else some e }
/-- A record of the team arrived that its handler is to see: a waiting team becomes shelf ready, a draining one runs its handler (R118,
R157); a team that waits for every lane of an acquire goes on waiting (R334). -/
def Team.recordWake (ck : Nat) (t : Team) : Team :=
  match t.status with
  | .shelfWait (.replies _) => t
  | .shelfWait _ => if t.handler then t else t.wake ck
  | .halted | .saved => match t.haltWait with | some (.replies _) => t | _ => if t.handler then t else t.wake ck
  | .draining => { t with status := .shelfReady, readySince := ck, passed := 0, urgent := none, yielded := false }
  | _ => t
/-- A team that has exited drains, unless a record first runs its handler (R118, R157). -/
def Team.drain (ck : Nat) (t : Team) : Team :=
  let t := { t with status := .draining }
  if t.records.any (fun r => !r.hostHeld) then t.recordWake ck else t
/-- Operations of a context that a kill abandons go; its timeline stays below the batches of those not done (R124, R356). -/
def Ectx.keepOnly (p : EngOp → Bool) (e : Ectx) : Ectx :=
  { e with ops := e.ops.filter p, limit := (e.ops.filter fun o => !p o && !o.done).foldl (fun l o => some (min (l.getD e.last) (o.batch - 1))) e.limit }
/-- A copy stands in the middle of a chunk: it has read some of it. -/
def EngOp.mid (o : EngOp) : Bool := o.buf.isSome || !o.rd.isEmpty
/-- A killed team's copies and loops stop; a copy in the middle of a chunk that waits for no refused request finishes that chunk (R124). -/
def Team.stopCopies (t : Team) : Team :=
  { t with c := t.c.keepOnly fun o => o.mid && !(t.records.any fun r => r.ent == o.id) && !o.done, m := t.m.keepOnly fun _ => false }
/-- Kill a team (R124): it stops issuing; its faulted requests (its engines' among them, its instruction fetches apart) are abandoned and counted, and what stood behind them goes on; its copies and loops stop; collectives and
other outstanding requests complete; siblings are marked (R125). -/
def killTeam (id : Nat) (s : State) : State :=
  match teamOf id s with
  | none => s
  | some t =>
    if t.dead || t.status == .gone || t.id = 0 then s
    else
      let ents := t.records.filter fun r => r.kind != 4
      let s := forEach t.records (fun r s => freeFault r.home r.slot s) s
      let s := { s with lsu := s.lsu.filter fun e => !(e.req.team == id && (ents.any fun r => r.ent == e.id)) }
      let s := withdraw id s
      let s := { s with lsu := s.lsu.filter fun e => !(e.req.team == id && (match e.kind with | .fence _ => true | .barArr .. => true | _ => false)) }
      let s := modTeam id (fun t => { t with
        dead := true, status := (if t.status == .saved then .saved else .killed), handler := false, records := [], mm := none, emu := false,
        wdog := false, preempt := none, atomU := 0, haltWait := none
        c := t.stopCopies.c, m := t.stopCopies.m }) s
      let s := match launchOfTeam t s with
        | some l => addErrors l (1 + ents.length) s
        | none => s
      let s := modTeams (fun u => u.wg == t.wg && u.id != id) (fun u => { u with abandon := true }) s
      let s := if !t.spq.isEmpty || s.lsu.any fun e => e.req.team == id && e.phase == .held then cause (.registerFill { team := id, dest := .none }) s else s
      tryRetire id (barRecheck t.wg s)

/-! ## Taking an exception (R379 to R386) -/

/-- What a trap is entered with (R381). -/
structure Trap where
  cause : Byte
  lanes : Mask
  ipc : W64
  resume : W64
  word : W32
  info : W64 := 0
  hint : Hint := {}
deriving DecidableEq, Repr

/-- The partition's handler vector (R380). -/
def hvecOf (q : Nat) (s : State) : W64 := ctlRaw (.partHvec q) s
/-- The handler of a cause starts at base + 64 times its code (R380). -/
def handlerPc (hvec : W64) (c : Byte) : W64 := w64 (hvec.toNat / 2 ^ 11 * 2 ^ 11 + 64 * c.toNat)
/-- A live s48 to s59 at entry: an empty one becomes full with value 0, a full one keeps its value (R382). -/
def liveAtEntry (x : SReg) : SReg := if x.full then x else {}
/-- The scalar file at handler entry (R382, step 4). -/
def entryScalars (s : Vector SReg 64) (c : Byte) (ipc : W64) (word : W32) (hdata : W64) : Vector SReg 64 :=
  Vector.ofFn fun i =>
    if i.val < 48 then s[i]
    else if i.val < 60 then liveAtEntry s[i]
    else if i.val = 60 then { val := c.setWidth 64 }
    else if i.val = 61 then { val := ipc }
    else if i.val = 62 then { val := word.setWidth 64 }
    else { val := hdata }
/-- s48 to s63, as saved (R382, step 2). -/
def savedScalars (s : Vector SReg 64) : Vector SReg 16 := Vector.ofFn fun i => s[48 + i.val]
/-- Steps 1 to 5 of R382 on a team. -/
def Team.enter (t : Team) (x : Trap) (hvec hdata : W64) : Team :=
  { t with
    tr := { cause := x.cause, ipc := x.ipc, pc := x.resume, word := x.word, info := x.info, sig := t.sig, hint := x.hint
            s := savedScalars t.s, k0 := t.k[0], entry := x.lanes, mm := t.mm, sync := t.syncAt }
    mm := none
    syncAt := none
    hint := {}
    s := entryScalars t.s x.cause x.ipc x.word hdata
    k := t.k.set 0 x.lanes
    pc := handlerPc hvec x.cause
    handler := true }

/-- TAKING AN EXCEPTION: the one operation every trap of the team in focus goes through. A synchronous cause in handler state kills
(R384); so does any cause while the handler vector has valid = 0 (R380). -/
def takeTrap (x : Trap) (s : State) : State :=
  let q := s.cur.part
  if s.cur.handler || !bit (hvecOf q s) 0 then killTeam s.cur.id s
  else
    let s := modCur (fun t => t.enter x (hvecOf q s) (ctlRaw (.partHdata q) s)) s
    modCur (fun t => { t with busy := s.ck, ilines := [], ahead := [], fetching := false, fetchBad := false }) s

/-- Restore s48 to s63 (R386, step 4). -/
def restoredScalars (s : Vector SReg 64) (saved : Vector SReg 16) : Vector SReg 64 :=
  Vector.ofFn fun i => if h : 48 ≤ i.val then saved[i.val - 48] else s[i]
/-- A resume address: bits [1:0] are ignored (R383). -/
def alignPc (p : W64) : W64 := w64 (p.toNat / 4 * 4)
/-- RETURNING FROM AN EXCEPTION (R386, steps 1 to 5). Cause 0x0B with an unchanged resume address re-executes the instruction at ipc
once under the entry mask before the restored k0 governs. -/
def Team.leave (t : Team) : Team :=
  let redo := t.tr.cause == 0x0B && alignPc t.tr.pc == t.tr.ipc
  let keep := alignPc t.tr.pc == t.tr.ipc
  { t with
    k := t.k.set 0 (if redo then t.tr.entry else t.tr.k0)
    reexec := if redo then some t.tr.k0 else if keep then t.reexec else none
    sig := t.tr.sig
    hint := if t.tr.cause == 0x03 then {} else t.tr.hint
    s := restoredScalars t.s t.tr.s
    pc := alignPc t.tr.pc
    mm := t.tr.mm
    syncAt := t.tr.sync
    handler := false }
/-- `eret` on the team in focus; a team that had exited returns to draining (R118), and lines fetched ahead are discarded (R192). -/
def returnFromTrap (s : State) : State :=
  modCur (fun t =>
    let t := { t.leave with ilines := [], ahead := [] }
    if t.exited then t.drain s.ck else t) s

/-! ## Pending asynchronous causes (R385) -/

/-- Lanes of the last acquire found another scope record (R334). -/
def Team.mismatched (t : Team) : Bool := match t.mm with | some m => m.lanes != 0 | none => false

/-- The pending cause a normal-state team takes at an instruction boundary: the trap without ipc, word and latch, and the team with
that cause no longer pending (R381, R385). The records that k0 and info count are those that are not host-held: the model's reading (log 86). -/
def Team.pendingCause (t : Team) : Option (Byte × Mask × W64 × Team) :=
  let full := fullMask t.width
  if t.wdog then some (0x14, full, 0, { t with wdog := false })
  else match t.records.filter fun r => !r.hostHeld with
    | r :: rs =>
      let lanes := (r :: rs).foldl (fun m r => m ||| BitVec.ofNat 1024 (r.lanes.toNat * 2 ^ (32 * r.word))) (0 : Mask)
      some (BitVec.ofNat 8 r.cause, if (r :: rs).all (fun r => r.lanes == 0) then lanes ||| 1 else lanes, w64 (r :: rs).length, t)
    | [] =>
      if t.atomU != 0 then some (0x0A, t.atomU, 0, { t with atomU := 0 })
      else match t.preempt with
        | some i => some (0x1D, full, i, { t with preempt := none })
        | none => none

end Sys2Proof.Machine
end

