-- ==== Sys2Proof/Machine/Ctl.lean ====
section
/-! DEFINITION. Control registers (R4, R389, R390): access masks, registers whose value is computed, the numbers `ctlrd` and `ctlwr`
use, and what each state of a team may do with them. -/

namespace Sys2Proof.Machine

/-! ## Cores and sites (R7, R11, R13, R14) -/

/-- Enabled cores of the module (R14). -/
def ncores (s : State) : Nat := (coreSites s).length
/-- Global cluster of a logical core: 9 times die plus cluster (R89). -/
def clusterIx (n : Nat) (s : State) : Nat := match siteOf n s with | some (d, i) => 9 * d + i / 4 | none => 0
/-- Logical cores of a global cluster, ascending. -/
def clusterCores (c : Nat) (s : State) : List Nat := (List.range (ncores s)).filter fun n => clusterIx n s == c
/-- All four sites of a cluster are enabled (R14). -/
def wideCluster (c : Nat) (s : State) : Bool := (clusterCores c s).length == 4
/-- `ctl.coremap[n]` (R14). -/
def coremapWord (n : Nat) (s : State) : W64 :=
  match siteOf n s with
  | some (d, i) => w64 (i % 4 + i / 4 * 4 + d * 64 + 256 + nb (wideCluster (9 * d + i / 4) s) * 512)
  | none => 0

/-! ## Capacity (R126, R127, R129) -/

/-- Logical and physical banks of a storage kind (R126). -/
def bankCounts : Nat → Nat × Nat
  | 0 => (64, 68) | 1 => (64, 68) | _ => (32, 34)
/-- The bank map of a kind. -/
def Core.bmap (c : Core) : Nat → BankMap
  | 0 => c.vmap | 1 => c.smap | _ => c.amap
/-- Usable logical banks. -/
def Core.usable (c : Core) (k : Nat) : Nat := (bankCounts k).1 - (c.bmap k).ceased.length
/-- Physical bank behind a logical bank: the identity where the map has no entry. -/
def BankMap.phys (m : BankMap) (l : Nat) : Nat := alGet l l m.map
/-- Physical banks in use by logical banks that exist. -/
def Core.inUse (c : Core) (k : Nat) : List Nat :=
  ((List.range (bankCounts k).1).filter fun l => !(c.bmap k).ceased.contains l).map (c.bmap k).phys
/-- Unused spares: physical banks neither in use nor ashed, nor being filled by the Rake. -/
def Core.spares (c : Core) (k : Nat) : List Nat :=
  (List.range (bankCounts k).2).filter fun p => !(c.inUse k).contains p && !(c.bmap k).ashed.contains p &&
    !(match c.evac with | some e => e.kind == k && e.dest == p | none => false)
/-- An evacuation is running or queued. -/
def Core.raking (c : Core) : Bool := c.evac.isSome || !c.rakeQ.isEmpty
/-- `ctl.cap[n]` (R127). -/
def capWord (n : Nat) (s : State) : W64 :=
  if n < ncores s then
    let c := coreOf n s
    w64 (c.usable 0 + (c.spares 0).length * 2 ^ 8 + c.usable 1 * 2 ^ 16 + (c.spares 1).length * 2 ^ 24 + c.usable 2 * 2 ^ 32
      + (c.spares 2).length * 2 ^ 38 + nb c.raking * 2 ^ 40)
  else 0
/-- `ctl.bank.pend[n]` (R129). -/
def pendWord (n : Nat) (s : State) : W64 :=
  let ps := (coreOf n s).pending
  match minBy? (fun p : Nat × Nat => p.1 * 128 + p.2) ps with
  | some (k, b) => w64 (1 + k * 2 + b * 8 + ps.length * 2 ^ 16)
  | none => 0

/-! ## Access masks -/

/-- Bits that a plain write stores (RW, R4). -/
def ctlRwMask : CtlReg → Nat
  | .pwrCap => 0xFFF
  | .fjRoute _ => 0xFF
  | .fjErr _ => 2 ^ 64 - 1
  | .fjBad _ => 0xFFFF_FFFF
  | .fjTenant _ => 0x1_FFFF
  | .fjLperm _ => 0xFF01
  | .qifCfg _ => 2 ^ 52 - 1
  | .irqMap _ _ => 0xFFFF
  | .hostPasid _ => 0x1F_FFFF
  | .partLim _ => 0x7F_7F7F
  | .partSave _ => 0xFFFF_FFFF_0001
  | .partCsave _ => 0xFF_FFFF_FFFF_0001
  | .partQos _ => 0x01FF_FFFF_0FFF_FFFF
  | .partWdog _ => 0xFFFF_FFFF
  | .partHvec _ => 0xFFFF_FFFF_FFFF_F801
  | .partHdata _ => 2 ^ 64 - 1
  | .partKgrant _ _ => 0x7777_7777_7777_7777
  | .split _ => 0x7F
  | .schedQuantum => 0x3FF
  | .duty => 0x7F
  | .lvalBase => 0xFFFF_FFFF_FFFF_F000
  | .lfeVfail _ => 0xFFFF_0000
  | .sigpol _ => 1
  | .bankThr => 0xFFFF_FFFF
  | .dist _ => 0xFFFF_001F
  | .modid => 0xFFFF
  | .ptRoot => 0x7F_FFFF_E001
  | .rmapBase => 0x7F_FFFF_0001
  | .ptArg => 2 ^ 64 - 1
  | .fpool _ => 0xFFFF_FFFF_0001
  | .fpoolCnt _ => 0xFFFF_FFFF
  | .hotBase _ => 0xFFFF_FFFF_07FF
  | .hotPtr _ => 0xFFFF_FFFF_FF00_0000
  | _ => 0
/-- Bits that a written 1 clears (W1C, R4). -/
def ctlW1cMask : CtlReg → Nat
  | .therm => 0x40
  | .fjStat _ => 0x4
  | .qifCfgerr => 0x1
  | .qifSt _ => 2 ^ 20
  | .biasCmd => 0xC
  | .partCfgerr => 0xF
  | .partWdog _ => 2 ^ 32
  | .ptErr => 0x1
  | .ptCmd => 0x30
  | .homeOvf _ => 2 ^ 64 - 1
  | .mflag => 0x1F
  | .lflag => 0xF
  | .efault _ => 0x100
  | _ => 0
/-- A register after a write under its access types (R4, R5, R389). -/
def ctlMerge (r : CtlReg) (old v : W64) : W64 :=
  let rw := w64 (ctlRwMask r)
  let w1c := w64 (ctlW1cMask r)
  ((old &&& ~~~rw) ||| (v &&& rw)) &&& ~~~(v &&& w1c)

/-! ## Team-owned registers (R237, R359, R383) -/

/-- Pack the hint latch as `ctl.tr.hint` (R383). -/
def Hint.word (h : Hint) : W64 :=
  w64 (h.off.toNat + nb h.offv * 2 ^ 23 + h.rm.toNat * 2 ^ 24 + nb h.ftz * 2 ^ 26 + nb h.sat * 2 ^ 27 + h.bx.toNat * 2 ^ 28 + nb h.modv * 2 ^ 30
    + h.sched.toNat * 2 ^ 31 + nb h.schedv * 2 ^ 34 + h.nimm * 2 ^ 35 + nb h.bad * 2 ^ 37)
/-- The latch that a write to `ctl.tr.hint` leaves (R383). -/
def Hint.ofWord (h : Hint) (v : W64) : Hint :=
  { h with
    off := BitVec.ofNat 23 (fld v 0 23), offv := bit v 23, rm := BitVec.ofNat 2 (fld v 24 2), ftz := bit v 26, sat := bit v 27
    bx := BitVec.ofNat 2 (fld v 28 2), modv := bit v 30, sched := BitVec.ofNat 3 (fld v 31 3), schedv := bit v 34, nimm := fld v 35 2, bad := bit v 37 }
/-- An engine context by number (R359). -/
def Team.ectx (t : Team) : Fin 3 → Ectx
  | 0 => t.c | 1 => t.m | 2 => t.l
/-- Replace an engine context. -/
def Team.putEctx (t : Team) (x : Fin 3) (e : Ectx) : Team :=
  match x with | 0 => { t with c := e } | 1 => { t with m := e } | 2 => { t with l := e }
/-- Word `i` of the saved k0; 0 for i at or above W/32 (R383). -/
def Team.trK0 (t : Team) (i : Nat) : W64 := if i < t.width / 32 then (maskWord t.tr.k0 i).setWidth 64 else 0
/-- A register that belongs to the team itself. -/
def Team.ctlGet (t : Team) : CtlReg → Option W64
  | .mflag => some t.mflag
  | .lflag => some t.lflag
  | .efault x => some (t.ectx x).efault
  | .efbatch x => some (t.ectx x).efbatch
  | .trCause => some (t.tr.cause.setWidth 64)
  | .trIpc => some t.tr.ipc
  | .trPc => some t.tr.pc
  | .trWord => some (t.tr.word.setWidth 64)
  | .trInfo => some t.tr.info
  | .trSig => some (w64 (t.tr.sig.toNat + t.tr.hint.snap.toNat * 2 ^ 32))
  | .trImm => some t.tr.hint.imm
  | .trHint => some t.tr.hint.word
  | .trS i => some (if h : i < 16 then (t.tr.s[i]'h).val else 0)
  | .trK0 i => some (t.trK0 i)
  | _ => none
/-- Flag bits that an engine sets in the ck of a write end set (R238). -/
def Team.keepSet (ck : Nat) (t : Team) : Team :=
  { t with mflag := t.mflag ||| (if t.mset.1 = ck then t.mset.2 else 0), lflag := t.lflag ||| (if t.lset.1 = ck then t.lset.2 else 0) }
/-- Write a register that belongs to the team itself; read-only ones ignore it. -/
def Team.ctlSet (t : Team) (r : CtlReg) (v : W64) : Team :=
  match r with
  | .mflag => { t with mflag := ctlMerge r t.mflag v }
  | .lflag => { t with lflag := ctlMerge r t.lflag v }
  | .efault x => if bit v 8 && bit (t.ectx x).efault 8 then t.putEctx x { t.ectx x with efault := 0 } else t
  | .trPc => { t with tr := { t.tr with pc := v } }
  | .trSig => { t with tr := { t.tr with sig := v.setWidth 32, hint := { t.tr.hint with snap := (v >>> 32).setWidth 32 } } }
  | .trImm => { t with tr := { t.tr with hint := { t.tr.hint with imm := v } } }
  | .trHint => { t with tr := { t.tr with hint := t.tr.hint.ofWord v } }
  | .trS i => if h : i < 16 then { t with tr := { t.tr with s := t.tr.s.set i { val := v } h } } else t
  | .trK0 i => if i < t.width / 32 then { t with tr := { t.tr with k0 := setMaskWord t.tr.k0 i (v.setWidth 32) } } else t
  | _ => t

/-! ## Reading (R4) -/

/-- Teams waiting for the host's emulation in partition `q`, oldest first (R398). -/
def emuQueue (q : Nat) (s : State) : List Team :=
  let ts := (allTeams s).filter fun t => t.emu && t.part == q
  let age (t : Team) : Nat := ((wgOf t.wg s).map (·.age)).getD 0 * 64 + t.num
  ts.mergeSort fun a b => age a ≤ age b
/-- `ctl.emu.pend[q]` (R398). -/
def emuPendWord (q : Nat) (s : State) : W64 :=
  match emuQueue q s with
  | [] => 0
  | t :: ts => w64 (1 + t.core % 256 * 2 + t.slot % 64 * 2 ^ 9 + (ts.length + 1) * 2 ^ 16)
/-- `ctl.home.flt[h][s][w]` (R159). -/
def homeFltWord (h sl w : Nat) (s : State) : W64 :=
  match (homeOf h s).faults.find? fun f => f.slot == sl with
  | none => 0
  | some f =>
    if w = 0 then f.req.ptr
    else w64 (f.cause + f.kind * 2 ^ 8 + f.level * 2 ^ 16 + f.req.part % 64 * 2 ^ 24 + f.req.core % 256 * 2 ^ 30 + nb f.hostHeld * 2 ^ 38 + 2 ^ 63)
/-- `ctl.fj.stat[p]` (R19). -/
def fjStatWord (p : Nat) (s : State) : W64 :=
  let x := portOf p s
  let bits (l : List Bool) : Nat := nb (l.getD 0 false) + nb (l.getD 1 false) * 2 + nb (l.getD 2 false) * 4 + nb (l.getD 3 false) * 8
  w64 (nb (x.up && !x.training) + nb x.training * 2 + fld (ctlRaw (.fjStat p) s) 2 1 * 4 + bits (x.pausedUntil.map fun u => decide (s.ck < u)) * 2 ^ 8
    + bits x.weSent * 2 ^ 12)
/-- `ctl.qif.st[i]` (R38). -/
def qifStWord (i : Nat) (s : State) : W64 :=
  let x := qifOf i s
  w64 (x.next + x.ecode * 2 ^ 16 + nb x.err * 2 ^ 20 + x.held.length * 2 ^ 24 + x.done * 2 ^ 32 + x.rejected * 2 ^ 48)
/-- `ctl.therm` (R28). Dies are throttled one by one (R27): the register shows the highest level and the causes of any die, the model's choice
(log 77). -/
def thermWord (s : State) : W64 :=
  let p := s.power
  w64 ((if p.halted then 8 else maxOf p.level) + nb (p.why.any fun c => c.testBit 0) * 2 ^ 4 + nb (p.why.any fun c => c.testBit 1) * 2 ^ 5 + nb p.sticky * 2 ^ 6
    + maxOf p.temps % 256 * 2 ^ 16)
/-- Words of the MSI-X table and of the pending-bit array in BAR0 (R33, R45): an entry's address, its data and, in bit 32, its mask; 64 pending
bits a word. -/
def msixWord (pf v w : Nat) (s : State) : W64 :=
  let (addr, data, masked) := alGet ((0 : W64), (0 : W32), true) (pf, v) s.msixTab
  if w = 0 then addr else w64 (data.toNat + nb masked * 2 ^ 32)
def msixPbaWord (pf w : Nat) (s : State) : W64 :=
  w64 ((List.range 64).foldl (fun acc i => if s.msixPend.contains (pf, 64 * w + i) then acc + 2 ^ i else acc) 0)
/-- The value of a control register as its reader with full rights sees it (R4: write-only ones read 0). -/
def ctlRead (r : CtlReg) (s : State) : W64 :=
  match r with
  | .ncores => w64 (ncores s)
  | .coremap n => coremapWord n s
  | .cap n => capWord n s
  | .bankPend n => pendWord n s
  | .fjStat p => fjStatWord p s
  | .qifSt i => qifStWord i s
  | .homeFlt h sl w => homeFltWord h sl w s
  | .emuPend q => emuPendWord q s
  | .therm => thermWord s
  | .time => s.time
  | .msix pf v w => msixWord pf v w s
  | .msixPba pf w => msixPbaWord pf w s
  | .homeOvf h => w64 (homeOf h s).ovf
  | .fjLperm q => w64 ((ctlRaw r s).toNat % 2 ^ 16 + (s.launches.filter fun l =>
      l.part == q && (match l.origin, l.phase with | .peer .., .running | .peer .., .signalling | .peer .., .signalled => true | _, _ => false)).length * 2 ^ 16)
  | .biasCmd => w64 ((ctlRaw r s).toNat % 2 ^ 39 + nb (s.biasHost.contains (ctlFld r 16 23 s)) * 2 ^ 39)
  | .qifRst _ | .lvalVerdict | .bankCmd | .homeFcmd _ | .emuCmd _ => 0
  | .emuReg q n =>
    match emuQueue q s with
    | [] => 0
    | t :: _ =>
      if h : n < 64 then t.gs ⟨n, h⟩
      else
        let i := n - 0x100
        if n < 0x100 then 0
        else if i = 0x30 then (t.ctlGet .trCause).getD 0 else if i = 0x31 then (t.ctlGet .trIpc).getD 0
        else if i = 0x32 then (t.ctlGet .trPc).getD 0 else if i = 0x33 then (t.ctlGet .trWord).getD 0
        else if i = 0x34 then (t.ctlGet .trInfo).getD 0 else if i = 0x35 then (t.ctlGet .trSig).getD 0
        else if i = 0x36 then (t.ctlGet .trImm).getD 0 else if i = 0x37 then (t.ctlGet .trHint).getD 0
        else if 0x40 ≤ i ∧ i < 0x50 then (t.ctlGet (.trS (i - 0x40))).getD 0
        else if 0x60 ≤ i ∧ i < 0x80 then (t.ctlGet (.trK0 (i - 0x60))).getD 0
        else 0
  | r => match s.cur.ctlGet r with | some v => v | none => ctlRaw r s

/-! ## The numbers of R390 -/

/-- The register a number names for a team of partition `q` (R390). -/
def ctlNumber (q n : Nat) : Option CtlReg :=
  if n < 4 then some (.harvest n)
  else if n = 4 then some .ncores
  else if n = 5 then some .modid
  else if n = 6 then some .pwrCap
  else if 8 ≤ n ∧ n < 12 then some (.feat (n - 8))
  else if n = 0x10 then some (.split q)
  else if n = 0x11 then some (.sigpol q)
  else if n = 0x12 then some (.lfeVfail q)
  else if n = 0x13 then some (.fpool q)
  else if n = 0x14 then some (.fpoolCnt q)
  else if n = 0x15 then some (.partHvec q)
  else if n = 0x16 then some (.partHdata q)
  else if n = 0x18 then some .mflag
  else if n = 0x19 then some .lflag
  else if n = 0x20 then some (.efault 0) else if n = 0x21 then some (.efault 1) else if n = 0x22 then some (.efault 2)
  else if n = 0x24 then some (.efbatch 0) else if n = 0x25 then some (.efbatch 1) else if n = 0x26 then some (.efbatch 2)
  else if n = 0x30 then some .trCause else if n = 0x31 then some .trIpc else if n = 0x32 then some .trPc
  else if n = 0x33 then some .trWord else if n = 0x34 then some .trInfo else if n = 0x35 then some .trSig
  else if n = 0x36 then some .trImm else if n = 0x37 then some .trHint
  else if 0x40 ≤ n ∧ n < 0x50 then some (.trS (n - 0x40))
  else if 0x60 ≤ n ∧ n < 0x80 then some (.trK0 (n - 0x60))
  else if 0x100 ≤ n ∧ n < 0x190 then some (.coremap (n - 0x100))
  else if 0x200 ≤ n ∧ n < 0x290 then some (.cap (n - 0x200))
  else none
/-- Trap-state registers exist in handler state only (R379). -/
def ctlIsTrap : CtlReg → Bool
  | .trCause | .trIpc | .trPc | .trWord | .trInfo | .trSig | .trImm | .trHint | .trS _ | .trK0 _ => true
  | _ => false
/-- Writes that R390 grants: in either state, or in handler state only; a trap-state register that R383 marks RO is granted none
(DEDUCED, log 8). -/
def ctlWritable (handler : Bool) : CtlReg → Bool
  | .mflag | .lflag | .efault _ => true
  | .split _ | .sigpol _ | .lfeVfail _ | .partHvec _ | .partHdata _ => handler
  | .trCause | .trIpc | .trWord | .trInfo => false
  | .trPc | .trSig | .trImm | .trHint | .trS _ | .trK0 _ => handler
  | _ => false
/-- The check of `ctlrd` and `ctlwr` on the group's value (R389, R381): `some info` traps ILLEGAL. -/
def ctlIllegal (t : Team) (wr : Bool) : Option W64 :=
  if t.hint.nimm = 0 ∨ 0xFFFF < t.hint.imm.toNat then some 1
  else
    match ctlNumber t.part t.hint.imm.toNat with
    | none => some 1
    | some r =>
      if ctlIsTrap r && !t.handler then some 0
      else if wr && !ctlWritable t.handler r then some 0
      else none

end Sys2Proof.Machine
end

