-- ==== Sys2Proof/Machine/Irq.lean ====
section
/-! DEFINITION. Messages to the host: MSI-X (R45), partition events (R46), fixed vectors (R34). -/

namespace Sys2Proof.Machine

/-- Send an MSI-X message under the PF's table and vector mask; a masked vector's message stays pending (R45). -/
def sendMsix (pf vec : Nat) (s : State) : State :=
  let (addr, data, masked) := alGet ((0 : W64), (0 : W32), true) (pf, vec) s.msixTab
  if masked then { s with msixPend := if s.msixPend.contains (pf, vec) then s.msixPend else s.msixPend ++ [(pf, vec)] }
  else { s with msixSent := s.msixSent ++ [(pf, addr, data)] }
/-- A write to the MSI-X table: a message that is pending is sent once its vector is not masked (R45). -/
def writeMsix (pf v w : Nat) (x : W64) (s : State) : State :=
  if 8 ≤ pf ∨ 2048 ≤ v then s
  else
    let (addr, data, masked) := alGet ((0 : W64), (0 : W32), true) (pf, v) s.msixTab
    let ent := if w = 0 then (x, data, masked) else (addr, x.setWidth 32, bit x 32)
    let s := { s with msixTab := alSet (pf, v) ent s.msixTab }
    if !ent.2.2 && s.msixPend.contains (pf, v) then sendMsix pf v { s with msixPend := s.msixPend.filter (· != (pf, v)) } else s
/-- Raise event `e` of partition `q` (R46): discarded, made pending, or sent. -/
def raiseEvent (q e : Nat) (s : State) : State :=
  let r := CtlReg.irqMap q e
  if ctlFld r 14 1 s = 0 then s
  else if ctlFld r 15 1 s = 1 then ctlSetFld r 16 1 1 s
  else sendMsix (ctlFld r 11 3 s) (ctlFld r 0 11 s) s
/-- The fatal-error interrupt of every physical function (R12, R34). -/
def raiseFatal (s : State) : State := forEach (List.range 8) (fun pf s => sendMsix pf 0 s) s

end Sys2Proof.Machine
end

