-- ==== Sys2Proof/Machine/Capacity.lean ====
section
/-! DEFINITION. What a core holds and what it has free: vector-register granules, scratchpad units, data-cache units, accumulator tiles; what
may be claimed of it and what a claim spills (R58, R59, R62, R63, R105, R126, R152). -/

namespace Sys2Proof.Machine

/-! ## Who is on a core -/

/-- Workgroups resident on a core. -/
def wgsOn (n : Nat) (s : State) : List Workgroup := s.wgs.filter fun w => !w.saved && w.cores.contains n
/-- Teams resident on a core. -/
def teamsOn (n : Nat) (s : State) : List Team :=
  (allTeams s).filter fun t => t.core == n && (match t.status with | .saved | .gone => false | _ => true)
/-- A workgroup is a victim that has not been saved (R62, R134). -/
def beingSaved (wg : Nat) (s : State) : Bool := s.cores.any fun c => match c.2.evac with | some e => e.victims.contains wg | none => false
/-- A logical bank that the Rake is evacuating (R62). -/
def evacuating (k l n : Nat) (s : State) : Bool :=
  match (coreOf n s).evac with | some e => e.kind == k && e.logical == l && !e.flipped | none => false
/-- Workgroups of other partitions on a core whose units may be claimed. -/
def claimable (q n : Nat) (s : State) : List Workgroup := (wgsOn n s).filter fun w => w.part != q && !beingSaved w.id s

/-! ## Banks, granules, units, tiles -/

/-- Granules held on a core by resident workgroups (R105). -/
def granHeld (n : Nat) (s : State) : List Nat :=
  s.wgs.flatMap fun w => if w.saved then [] else (w.gran.filter fun g => w.coreOfNum g.1 == n).map (·.2)
/-- A logical bank exists, and is not one that an evacuation is about to drop: the destination's, or the ashed bank's own where nothing has been
found for it yet (R130, R134). -/
def bankThere (k l n : Nat) (s : State) : Bool :=
  let c := coreOf n s
  !(c.bmap k).ceased.contains l &&
    !(match c.evac with
      | some e => e.kind == k && !e.flipped && ((e.drop && (c.bmap k).phys l == e.dest) || (e.dest == e.bank && l == e.logical))
      | none => false)
/-- Granules of the logical banks that may hold some. -/
def granAll (n : Nat) (s : State) : List Nat := (List.range 512).filter fun g => bankThere 0 (g / 8) n s
/-- Free granules, lowest first (R105); those of a bank that an evacuation is about to drop are not given out, though R105's count has them still
(log 87). -/
def granFree (n : Nat) (s : State) : List Nat :=
  let held := granHeld n s
  (granAll n s).filter fun g => !held.contains g
/-- Scratchpad units held on a core, with their partitions. -/
def unitsHeld (n : Nat) (s : State) : List (Nat × Nat) :=
  s.wgs.flatMap fun w => if w.saved then [] else (alGet [] n w.units).map fun u => (w.part, u)
/-- Core SRAM units a partition may use on a core: min(limit, usable) (R58, R127). -/
def sramLimit (q n : Nat) (s : State) : Nat := min (min 64 (ctlFld (.partLim q) 0 7 s)) ((coreOf n s).usable 1)
/-- Data-cache units the partition keeps (R59). -/
def cminOf (q n : Nat) (s : State) : Nat := min (ctlFld (.split q) 0 7 s) (sramLimit q n s)
/-- SRAM units that hold lines of pages the partition pinned in the core (R152). -/
def pinnedUnits (q n : Nat) (s : State) : Nat :=
  ((s.lines.filter fun l => l.present && l.attr == 2 && l.loc == n && l.part == q).length + 511) / 512
/-- Free scratchpad units of a partition on a core (R59). -/
def unitsFree (q n : Nat) (s : State) : Nat :=
  sramLimit q n s - cminOf q n s - pinnedUnits q n s - ((unitsHeld n s).filter fun u => u.1 == q).length
/-- Data-cache units that a partition's lines occupy on a core. -/
def cacheUnits (q n : Nat) (s : State) : Nat := (((coreOf n s).dl.filter fun x => x.part == q).length + 511) / 512
/-- A unit of a workgroup stands in its core: no other partition has claimed it (R63). -/
def Workgroup.placed (w : Workgroup) (n k u : Nat) : Bool := !w.out.contains (n, k, u)
/-- Granules of a workgroup on a core, its SRAM units and its tiles there, claimed or not. -/
def Workgroup.granOn (w : Workgroup) (n : Nat) : List Nat := (w.gran.filter fun g => w.coreOfNum g.1 == n).map (·.2)
/-- Units of a core that hold scratchpad now. -/
def scratchUnits (n : Nat) (s : State) : List Nat := ((wgsOn n s).flatMap fun w => (alGet [] n w.units).filter (w.placed n 1)).eraseDups
/-- SRAM units in use on a core: scratchpad, pinned lines, and the data-cache lines of every partition (R1). -/
def sramUsed (n : Nat) (s : State) : Nat := (scratchUnits n s).length + ((List.range 64).map fun q => pinnedUnits q n s + cacheUnits q n s).sum
/-- What the units without scratchpad hold: pinned lines of a partition (true), then data-cache lines of one, from the highest-numbered unit
down; the rest is unallocated (log 78). -/
def lineUnits (n : Nat) (s : State) : List (Nat × Bool × Nat) :=
  let units := ((List.range 64).filter fun u => bankThere 1 u n s && !(scratchUnits n s).contains u).reverse
  let of (b : Bool) (f : Nat → Nat) : List (Bool × Nat) := (List.range 64).flatMap fun q => List.replicate (f q) (b, q)
  units.zip (of true (fun q => pinnedUnits q n s) ++ of false fun q => cacheUnits q n s)
/-- Units of other partitions that a partition may claim on a core, lowest first, with the partition whose data cache one holds (R62, R152). -/
def claimableUnits (q n : Nat) (s : State) : List (Nat × Option Nat) :=
  let kept := ((wgsOn n s).filter fun w => w.part == q || beingSaved w.id s).flatMap fun w => alGet [] n w.units
  let theirs := (claimable q n s).flatMap fun w => (alGet [] n w.units).filter (w.placed n 1)
  let lines := lineUnits n s
  ((List.range 64).filter fun u => bankThere 1 u n s && !evacuating 1 u n s && !kept.contains u).filterMap fun u =>
    match lines.find? fun x => x.1 == u with
    | some (_, false, p) => if p = q then none else some (u, some p)
    | some (_, true, _) => none
    | none => if theirs.contains u then some (u, none) else none
/-- The team has state in one of the named banks, units, tiles or slots of a core; its scratchpad may lie on any core of its workgroup (R64). -/
def holdsOf (n : Nat) (banks units tiles slots : List Nat) (s : State) (t : Team) : Bool :=
  match wgOf t.wg s with
  | some w => (alGet [] n w.units).any units.contains ||
      (t.core == n && (slots.contains t.slot || (w.gran.any fun g => g.1 == t.num && banks.contains (g.2 / 8)) || (alGet [] n w.tiles).any tiles.contains))
  | none => t.core == n && slots.contains t.slot
/-- What a workgroup has on a core of the banks, units, tiles, slots and, where `bar` says so, the place for barrier state that are named. -/
def Workgroup.unitsIn (w : Workgroup) (n : Nat) (banks units tiles slots : List Nat) (bar : Bool) (s : State) : List (Nat × Nat × Nat) :=
  (((w.granOn n).map (· / 8)).eraseDups.filter banks.contains).map (fun b => (n, 0, b))
    ++ ((alGet [] n w.units).filter units.contains).map (fun u => (n, 1, u)) ++ ((alGet [] n w.tiles).filter tiles.contains).map (fun t => (n, 2, t))
    ++ (((teamsOn n s).filter fun t => t.wg == w.id && slots.contains t.slot).map fun t => (n, 3, t.slot)) ++ (if bar then [(n, 4, 0)] else [])
/-- Other partitions' state in the units claimed is spilled, and their teams with state there wait for its reload. The values stay in the team and
the workgroup, and the save area's bytes in HBM keep theirs: the spec gives the area no format (log 82). -/
def spill (q n : Nat) (banks units tiles slots : List Nat) (s : State) : State :=
  let s := { s with wgs := s.wgs.map fun w =>
    if w.part == q || w.saved || !w.cores.contains n then w else { w with out := (w.out ++ w.unitsIn n banks units tiles slots false s).eraseDups } }
  modTeams (fun t => t.part != q && t.status == .halted && holdsOf n banks units tiles slots s t) (fun t => { t with spilled := true }) s
/-- A workgroup's units named are its own again (R64). -/
def regain (wg : Nat) (n : Nat) (banks units tiles slots : List Nat) (s : State) : State :=
  modWg wg (fun w => let back := w.unitsIn n banks units tiles slots true s; { w with out := w.out.filter fun x => !back.contains x }) s
/-- Lines a partition's data cache may hold on a core (R59): sram minus the scratchpad units in use, 512 lines a unit. -/
def cacheLines (q n : Nat) (s : State) : Nat :=
  (sramLimit q n s - pinnedUnits q n s - ((unitsHeld n s).filter fun u => u.1 == q).length) * 512
/-- Accumulator tiles a core can offer: floor(usable banks / 16), first those whose sixteen banks all exist (R105, R126). -/
def tilesAll (n : Nat) (s : State) : List Nat :=
  let c := coreOf n s
  let whole (t : Nat) : Bool := !(c.amap.ceased.any fun l => l / 16 == t)
  ((((List.range 2).filter whole) ++ (List.range 2).filter fun t => !whole t).take (c.usable 2 / 16)).filter fun t =>
    (List.range 16).all fun i => c.amap.ceased.contains (16 * t + i) || bankThere 2 (16 * t + i) n s
/-- Tiles held on a core. -/
def tilesHeld (n : Nat) (s : State) : List Nat := s.wgs.flatMap fun w => if w.saved then [] else alGet [] n w.tiles
/-- Free tiles, lowest first. -/
def tilesFree (n : Nat) (s : State) : List Nat :=
  let held := tilesHeld n s
  (tilesAll n s).filter fun t => !held.contains t
/-- What a core counts as free of a storage for a partition (R392): granules and tiles that the usable banks hold less those held (R105, R126),
scratchpad units (R59). -/
def freeCount (q n k : Nat) (s : State) : Nat :=
  let u := (coreOf n s).usable k
  match k with
  | 0 => 8 * u - (granHeld n s).eraseDups.length
  | 1 => unitsFree q n s
  | _ => u / 16 - (tilesHeld n s).eraseDups.length

end Sys2Proof.Machine
end

