-- ==== Sys2Proof/Machine/Walk.lean ====
section
/-! DEFINITION. Homes: the distribution table, the five-level walk, leaves, the reverse map, home translation buffers, hotness
samples (R141 to R153, R163, R164). -/

namespace Sys2Proof.Machine

/-- The home of a virtual address (R142). -/
def homeSel (va : Nat) (s : State) : HomeSel :=
  let r := CtlReg.dist (va / 2 ^ 44 % 4096)
  let hbm := HomeSel.local (va / 2 ^ 11 % 32)
  match ctlFld r 0 3 s with
  | 1 => hbm
  | 2 => .local 32
  | 3 => .local (33 + ctlFld r 3 2 s)
  | 4 => if ctlFld r 16 16 s = ctlFld .modid 0 16 s then hbm else .remote (ctlFld r 16 16 s)
  | _ => .none
/-- The home a request goes to: the one it was sent to, whatever `ctl.dist` says now (R142). -/
def reqHome (r : Req) (s : State) : HomeSel := r.home.getD (homeSel (vaOf r.ptr) s)
/-- Region kind, a remote entry naming this module acting as 1 (R142). -/
def regionKind (va : Nat) (s : State) : Nat :=
  match homeSel va s with
  | .none => 0 | .remote _ => 4
  | .local h => if h = 32 then 2 else if h < 32 then 1 else 3

/-- Least VA bit a level indexes and how many it indexes (R145). -/
def levelBits : Nat → Nat × Nat
  | 0 => (46, 10) | 1 => (34, 12) | 2 => (30, 4) | 3 => (21, 9) | _ => (16, 5)
/-- Bytes of a level's table (R145). -/
def tableSize (l : Nat) : Nat := 8 * 2 ^ (levelBits l).2
/-- Size code of a leaf at a level (R150): 0 64 KiB, 1 2 MiB, 2 1 GiB, 3 16 GiB. -/
def sizeCode (l : Nat) : Nat := 4 - l
/-- Page size of a size code (R145). -/
def pageBytes : Nat → Nat
  | 0 => 2 ^ 16 | 1 => 2 ^ 21 | 2 => 2 ^ 30 | _ => 2 ^ 34
/-- Address of a level's entry in its table. -/
def entryAddr (base va l : Nat) : Nat := base + va / 2 ^ (levelBits l).1 % 2 ^ (levelBits l).2 * 8

/-- What translation finds: a leaf (its level and entry), an absent entry (status 1), a malformed one (cause of R149). -/
inductive Found
  | leaf (level : Nat) (e : W64) | absent (level : Nat) | malformed (level cause : Nat)
deriving DecidableEq, Repr

/-- Reverse-map entry of the frame that holds a physical address; none without a reverse map (R150). -/
def rmapEntry (pa : Nat) (s : State) : Option W64 :=
  if ctlFld .rmapBase 0 1 s = 0 then none
  else some (w64 (s.mem.readNat (ctlFld .rmapBase 16 23 s * 2 ^ 16 + pa / 2 ^ 16 * 8) 8))
/-- The reverse-map check of R150. An entry whose reserved bits [15:4] or [63:56] are not zero fails it too, and so makes the leaf malformed with cause
5: R150 names no check of them, the model's choice (log 88). -/
def rmapOk (pa va l : Nat) (s : State) : Bool :=
  match rmapEntry pa s with
  | none => false
  | some e => bit e 0 && !bit e 1 && fld e 2 2 == sizeCode l && fld e 16 40 == va / pageBytes (sizeCode l) * pageBytes (sizeCode l) / 2 ^ 16
      && fld e 4 12 == 0 && fld e 56 8 == 0
/-- The loc field lies in its range (R147). -/
def locOk (e : W64) (s : State) : Bool :=
  let loc := fld e 14 8
  match fld e 4 2, fld e 2 2 with
  | 2, _ => decide (loc < ncores s)
  | 3, _ => fld e 18 2 == 0
  | _, 2 => decide (loc < 4)
  | _, _ => loc == 0
/-- Checks of a leaf, with the cause R149 gives the first that fails (R148). -/
def leafCheck (e : W64) (va l : Nat) (s : State) : Option Nat :=
  let sz := pageBytes (sizeCode l)
  let target := fld e 28 36 * 2 ^ 16
  let tgt := fld e 2 2
  let kind := regionKind va s
  if fld e 23 1 ≠ 0 then some 1
  else if l = 0 then some 2
  else if target % sz ≠ 0 then some 3
  else if tgt = 3 ∨ (tgt = 0 ∧ hbmEnd ≤ target) ∨ (kind = 1 ∧ tgt = 1) ∨ (kind = 2 ∧ tgt ≠ 1) ∨ (kind = 3 ∧ tgt ≠ 2) then some 4
  else if (fld e 4 2 = 2 ∨ fld e 4 2 = 3 ∨ fld e 22 1 = 1) ∧ tgt ≠ 0 then some 4
  else if !locOk e s then some 6
  else if tgt = 0 ∧ !rmapOk (target + va % sz) va l s then some 5
  else none
/-- The walk from a level down (R145 to R148); the fuel is the number of levels left. -/
def walkFrom (va : Nat) (s : State) : Nat → Nat → Found
  | 0, _ => .absent 4
  | fuel + 1, base =>
    let l := 4 - fuel
    let e := w64 (s.mem.readNat (entryAddr base va l) 8)
    if !bit e 0 then .absent l
    else if bit e 1 then
      match leafCheck e va l s with
      | some c => .malformed l c
      | none => .leaf l e
    else if fld e 2 5 ≠ 0 ∨ fld e 39 25 ≠ 0 then .malformed l 1
    else if l = 4 then .malformed l 2
    else
      let next := fld e 7 32 * 2 ^ 7
      if next % tableSize (l + 1) ≠ 0 then .malformed l 3
      else if hbmEnd ≤ next then .malformed l 4
      else walkFrom va s fuel next
/-- A whole walk (R144). -/
def walk (va : Nat) (s : State) : Found :=
  if ctlFld .ptRoot 0 1 s = 0 then .absent 0 else walkFrom va s 5 (ctlFld .ptRoot 13 26 s * 2 ^ 13)

/-! ## Home translation buffers (R153) -/

/-- Generation a is newer than b (R153). -/
def genNewer (a b : Nat) : Bool := let d := (a + 16 - b) % 16; 1 ≤ d && d ≤ 7
/-- An entry covers an address. -/
def HtbEnt.covers (e : HtbEnt) (va : Nat) : Bool := va / pageBytes e.size * pageBytes e.size == e.base
/-- Generation of a leaf. -/
def leafGen (e : W64) : Nat := fld e 24 4
/-- The entry a lookup uses (R153); the list is in order of filling, newest first. -/
def htbLookup (l : List HtbEnt) (va : Nat) : Option HtbEnt :=
  let cov := l.filter fun e => e.covers va
  let newest := cov.filter fun e => !(cov.any fun f => genNewer (leafGen f.leaf) (leafGen e.leaf))
  minBy? HtbEnt.size (if newest.isEmpty then cov else newest)
/-- Fill one entry; the least recently used goes beyond 4,096 (R153). -/
def htbFill (e : HtbEnt) (l : List HtbEnt) : List HtbEnt :=
  let l := l.filter fun x => !(x.base == e.base && x.size == e.size && x.leaf == e.leaf)
  e :: (if l.length < 4096 then l else match minBy? HtbEnt.used l with | some old => l.erase old | none => l)
/-- `ctl.pt.err` records the first malformed entry (R149). -/
def recordPtErr (va level c : Nat) (s : State) : State :=
  if ctlFld .ptErr 0 1 s = 1 then s else ctlPut .ptErr (w64 (1 + level * 2 + c * 16 + va % 2 ^ 56 * 2 ^ 8)) s

/-- A translated access: physical place of the line, attribute, loc, key of the page. -/
structure Trans where
  place : Place
  attr : Nat
  loc : Nat
  key : Byte
  leaf : W64
  size : Nat
  hit : Bool
deriving DecidableEq, Repr
/-- What a home answers to a translation: a page, status 1 with its level, status 2, status 6. -/
inductive TransAns
  | ok (t : Trans) | absent (level : Nat) | key | malformed
deriving DecidableEq, Repr
/-- Place of the line of `va` under a leaf of a page size. -/
def placeOf (e : W64) (size va : Nat) : Place :=
  let t := fld e 28 36 * 2 ^ 16 + lineVa va % pageBytes size
  match fld e 2 2 with
  | 0 => .hbm t
  | 1 => .host t
  | _ => .cxl (fld e 14 2) t
/-- Translate at home `h` for a pointer key: the buffer, else a walk, then the key (R140, R148, R153). The reverse map is looked at on a walk, for the
frame accessed; a use of a leaf from the buffer looks at none, whichever frame of the page it names: the model's choice (log 88). -/
def translate (h : Nat) (key : Byte) (va : Nat) (s : State) : TransAns × State :=
  let done (e : W64) (size : Nat) (hit : Bool) (s : State) : TransAns × State :=
    if BitVec.ofNat 8 (fld e 6 8) = key then
      (.ok { place := placeOf e size va, attr := fld e 4 2, loc := fld e 14 8, key := key, leaf := e, size := size, hit := hit }, s)
    else (.key, s)
  match htbLookup (homeOf h s).htb va with
  | some e =>
    let (n, s) := fresh s
    let s := modHome h (fun x => { x with htb := x.htb.map fun y => if y == e then { y with used := n } else y }) s
    done e.leaf e.size true s
  | none =>
    match walk va s with
    | .absent l => (.absent l, s)
    | .malformed l c => (.malformed, recordPtErr va l c s)
    | .leaf l e =>
      let size := sizeCode l
      let (n, s) := fresh s
      let ent : HtbEnt := { base := va / pageBytes size * pageBytes size, size := size, leaf := e, used := n }
      done e size false (modHome h (fun x => { x with htb := htbFill ent x.htb }) s)

/-! ## Hotness (R163, R164) -/

/-- A sample record's type code (R164). -/
def hotType (r : Req) : Nat :=
  match r.agent, r.op with
  | .fetch, _ => 3
  | .engine _, .write => 5
  | .engine _, _ => 4
  | _, .write => 1
  | _, .atom _ => 2
  | _, .cas => 2
  | _, _ => 0
/-- Home firmware may move the page whose sample it has just recorded, in hardware mode of `ctl.duty`'s migr bit (R73, R154): whether it
does, and to which frames, are free values (log 79). `ctl.pt.cmd`'s go reads 1 until the operation ends. -/
def migrate (va : Nat) (t : Trans) (s : State) : State :=
  if ctlFld .duty 3 1 s = 1 || s.mapop.isSome || !s.mapq.isEmpty then s
  else
    let (go, s) := toss s
    if !go then s
    else
      let (n, s) := choose s
      let frames := pageBytes t.size / 2 ^ 16
      let f := n % (hbmEnd / 2 ^ 16 / frames) * frames
      cause .mappingOpComplete { ctlSetFld .ptCmd 0 1 1 s with
        mapop := some { op := 3, size := t.size, va := va / pageBytes t.size * pageBytes t.size, arg := w64 (t.leaf.toNat % 2 ^ 28 + f * 2 ^ 28), fw := true } }
/-- Count a request a home serves, and write a sample record on every 2^k-th (R163, R164). -/
def hotSample (h : Nat) (r : Req) (t : Trans) (s : State) : State :=
  let q := r.part
  let base := ctlRaw (.hotBase q) s
  if !bit base 0 || r.counted || (match r.agent with | .host | .peer .. => true | _ => false) then s
  else
    let n := alGet 0 q (homeOf h s).counts + 1
    let k := min 20 (fld base 1 5)
    if n < 2 ^ k then modHome h (fun x => { x with counts := alSet q n x.counts }) s
    else
      let s := modHome h (fun x => { x with counts := alSet q 0 x.counts }) s
      let lgn := max 7 (min 20 (fld base 6 5))
      let p := ctlRaw (.hotPtr q) s
      let occ := (fld p 0 24 + 2 ^ 24 - fld p 24 24) % 2 ^ 24
      if occ = 2 ^ lgn - 1 then ctlSetFld (.hotPtr q) 48 16 (min 0xFFFF (fld p 48 16 + 1)) s
      else
        let a := fld base 16 32 * 2 ^ 16 + fld p 0 24 % 2 ^ lgn * 32
        let core := match r.agent with | .lfe => 0xFF | _ => r.core
        let bytes := bytesOfNat 8 r.ptr.toNat ++ bytesOfNat 4 (core % 256 + hotType r * 2 ^ 8 + h * 2 ^ 16 + nb t.hit * 2 ^ 24)
          ++ bytesOfNat 4 0 ++ bytesOfNat 8 s.time.toNat ++ bytesOfNat 8 0
        let s := { s with mem := s.mem.writeN a bytes }
        let s := ctlSetFld (.hotPtr q) 0 24 (fld p 0 24 + 1) s
        migrate (vaOf r.ptr) t (if occ + 1 = 3 * 2 ^ lgn / 4 then raiseEvent q 5 s else s)

end Sys2Proof.Machine
end

