-- ==== Sys2Proof/Machine/Lines.lean ====
section
/-! DEFINITION. Lines at their points of coherence: logical time, the bytes of a line, read-modify-writes, monitors, privatisation
(R196 to R206). -/

namespace Sys2Proof

/-! ## What kind of access -/

/-- The request writes or may write. -/
def Req.isRmw (r : Req) : Bool := match r.op with | .atom _ | .cas => true | _ => false
def Req.isWrite (r : Req) : Bool := match r.op with | .write => true | _ => r.isRmw
/-- An acquire: a read or read-modify-write with `.acq` or `.ar` (R168). -/
def Req.isAcq (r : Req) : Bool := (r.ord == .acq || r.ord == .ar) && r.op != .write
/-- A release: a write or read-modify-write with `.rel` or `.ar` (R168). -/
def Req.isRel (r : Req) : Bool := (r.ord == .rel || r.ord == .ar) && r.isWrite
/-- Takes the acquirer's course of R213: an acquire, any `.ar` access, an ember query, or the ninth marked read
(a read with `eager` set, R350). -/
def Req.acquires (r : Req) : Bool := r.isAcq || r.ord == .ar || r.op == .query || (r.op == .read && r.eager)
/-- At `.dev` or `.sys`. -/
def Req.wideScope (r : Req) : Bool := r.scope == .dev || r.scope == .sys
/-- A narrow workgroup's `.wg` access (R207, R208). -/
def Req.narrowWg (r : Req) : Bool := r.scope == .wg && !r.wide
/-- Agents that meet a busy line by trying again, not by waiting in its queue (engines, LFE). -/
def Req.isSync (r : Req) : Bool := match r.agent with | .engine _ | .lfe => true | _ => false
/-- Made by a core. -/
def Req.byCore (r : Req) : Bool := match r.agent with | .team | .ctrl => true | _ => false
/-- Made by a team, of this module or of another (R181). -/
def Req.byTeam (r : Req) : Bool := match r.agent with | .team | .peer _ true => true | _ => false
/-- The access needs leave to write: it writes, or fetches a line that is to be written (R48). -/
def Req.forWrite (r : Req) : Bool := r.isWrite || r.walloc
/-- A team's access at system scope that is performed at another module's home (R142, R198). -/
def Req.direct (r : Req) : Bool := r.scope == .sys && r.agent == .team && (r.acquires || r.isRel || r.isRmw)

/-- The ember of another module (log 30). -/
def Ember.ofPeer (e : Ember) : Bool := decide (2 ^ 10 ≤ e.core)

/-- The bytes of a line a list of items touches, as a mask. -/
def itemsMask (items : List Item) : Nat := items.foldl (fun m i => m ||| ((2 ^ i.size - 1) * 2 ^ i.off)) 0
/-- The read and write masks of a request. -/
def Req.masks (r : Req) : Nat × Nat :=
  let m := itemsMask r.items
  match r.op with
  | .write => (0, m)
  | .atom _ | .cas => (m, m)
  | .query => (0, 0)
  | _ => (m, 0)

end Sys2Proof

namespace Sys2Proof.Machine

/-! ## Identity and place -/

/-- The slice line of an address and key. -/
def lineAt (va : Nat) (key : Byte) (s : State) : Option SLine := s.lines.find? fun l => l.va == va && l.key == key
/-- Put a slice line in place of the one with its address and key. -/
def setLine (ln : SLine) (s : State) : State :=
  { s with lines := if s.lines.any (fun l => l.va == ln.va && l.key == ln.key)
                    then updWhere (fun l => l.va == ln.va && l.key == ln.key) (fun _ => ln) s.lines else s.lines ++ [ln] }
/-- The slice of a line: 16 times its die plus its slice number (R196). -/
def SLine.slice (ln : SLine) (s : State) : Nat :=
  if ln.attr = 3 then ln.loc / 64 * 16 + ln.loc % 16 else 16 * ln.die s + ((ln.va / 2 ^ 6 % 16) ^^^ (ln.va / 2 ^ 10 % 16))
/-- The line's point of coherence is a slice (R196). -/
def SLine.inSlice (ln : SLine) : Bool := ln.attr == 0 || ln.attr == 3
/-- The pointer of a slice line. -/
def SLine.ptr (ln : SLine) : W64 := mkPtr ln.key ln.va
/-- The bytes of a line: those of its HBM frame, or those the slice holds (R143, R196, R198). -/
def SLine.bytes (ln : SLine) (s : State) : List Byte :=
  match ln.place with
  | .hbm pa => s.mem.readN pa 64
  | _ => ln.data
/-- Bytes that a slice holds for a home elsewhere change: they are dirty, and the partition is among those that wrote them (R198). -/
def SLine.dirtyWith (ln : SLine) (q : Nat) (bs : List Byte) (mask : Nat) (s : State) : SLine :=
  { ln with data := bs, dirty := ln.dirty ||| mask, dirtied := if ln.dirty = 0 then s.ck else ln.dirtied
            writers := if ln.writers.contains q then ln.writers else ln.writers ++ [q] }
/-- Partition `q` stores the bytes of a line; `mask` says which changed. A never-cached line of a CXL home is written at its home (R196). -/
def SLine.store (ln : SLine) (q : Nat) (bs : List Byte) (mask : Nat) (s : State) : SLine × State :=
  match ln.place with
  | .hbm pa => ({ ln with launches := [], poison := ln.poison - (ln.poison &&& mask) }, { s with mem := s.mem.writeN pa bs })
  | .cxl h pa =>
    if ln.attr = 1 then ({ ln with data := bs, launches := [] }, { s with cxlMem := s.cxlMem.writeN (h * 2 ^ 52 + pa) bs })
    else (ln.dirtyWith q bs mask s, s)
  | _ => (ln.dirtyWith q bs mask s, s)
/-- The slice holds the line under a lease of its own: it is homed on another module or on a CXL home (R198). -/
def SLine.far (ln : SLine) : Bool := match ln.place with | .remote _ | .cxl .. => true | _ => false
/-- Bytes from a line's home under those of the slice that the home had not got yet when it gave them. -/
def SLine.fresh (ln : SLine) (bs : List Byte) : List Byte :=
  let own := ln.dirty ||| ln.kept
  if own = 0 then bs else (List.range 64).map fun i => if own.testBit i then ln.data.getD i 0 else bs.getD i 0
/-- The granule of an HBM line (R50). -/
def SLine.granule (ln : SLine) : Option Nat := match ln.place with | .hbm pa => some (pa / 2 ^ 16) | _ => none

/-! ## Bytes of a request -/

/-- Write items in ascending lane order (R167). -/
def writeItems (bs : List Byte) (items : List Item) : List Byte :=
  items.foldl (fun bs i => putBytes bs i.off (bytesOfNat i.size i.data)) bs
/-- The value of an item. -/
def itemValue (bs : List Byte) (i : Item) : Nat := natOfBytes (sliceBytes bs i.off i.size)
/-- The new value of an atomic on `n` bits (R343, R344). -/
def atomNew (f : AtomOp) (n old b : Nat) : Nat :=
  match f with
  | .add | .addB32 => (old + b) % 2 ^ n
  | .minI => if sextInt n b < sextInt n old then b else old
  | .maxI => if sextInt n old < sextInt n b then b else old
  | .minN => min old b
  | .maxN => max old b
  | .and => old &&& b
  | .or => old ||| b
  | .xor => old ^^^ b
  | .xchg | .xchgB32 => b
  | .faddF32 => (fmtF32.addPat old b).1
  | .faddF16 => (fmtF16.addPat old b).1
  | .faddBf16 => (fmtBf16.addPat old b).1
/-- One step of the sequence of R182: the bytes, the values returned so far, the mask of bytes written. -/
def rmwItem (op : ReqOp) (st : List Byte × List Nat × Nat) (i : Item) : List Byte × List Nat × Nat :=
  let (bs, vals, m) := st
  let old := itemValue bs i
  match op with
  | .atom f => (putBytes bs i.off (bytesOfNat i.size (atomNew f (8 * i.size) old (i.data % 2 ^ (8 * i.size)))), vals ++ [old], m ||| itemsMask [i])
  | .cas =>
    if old = i.data % 2 ^ (8 * i.size) then (putBytes bs i.off (bytesOfNat i.size i.data2), vals ++ [old], m ||| itemsMask [i])
    else (bs, vals ++ [old], m)
  | .write => (putBytes bs i.off (bytesOfNat i.size i.data), vals, m ||| itemsMask [i])
  | _ => (bs, vals ++ [old], m)
/-- Carry out a request's items in ascending lane order: new bytes, values read, mask of bytes written (R167, R182). -/
def runItems (op : ReqOp) (bs : List Byte) (items : List Item) : List Byte × List Nat × Nat := items.foldl (rmwItem op) (bs, [], 0)
/-- The condition of a `waitc` (R347). -/
def condHolds (c : WCond) (v b : Nat) : Bool :=
  match c with | .eq => v == b | .ne => v != b | .ge => decide (b ≤ v) | .lt => decide (v < b)

/-! ## Monitors and queue waiters (R204, R347) -/

/-- An LSU entry's data are on their way to its destination (R114). -/
def fillEnt (id : Nat) (vals : List (Nat × Nat)) (poison : Bool) (s : State) : State :=
  match s.lsu.find? fun e => e.id == id with
  | none => s
  | some e =>
    cause (.registerFill { team := e.req.team, dest := e.dest, vals := vals, poison := poison, ent := some id, inh := e.inh })
      { s with lsu := updWhere (fun x => x.id == id) (fun x => { x with phase := .fill }) s.lsu }
/-- A write at the point of coherence fills the slice's monitors on the line, in the order they were armed (R347). -/
def fireMonitors (ln : SLine) (bs : List Byte) (mask : Nat) (s : State) : State :=
  let hit (m : Monitor) : Bool :=
    m.slice && linePtr m.ptr == ln.ptr && ((2 ^ m.width - 1) * 2 ^ (vaOf m.ptr % 64)) &&& mask != 0
      && condHolds m.cond (natOfBytes (sliceBytes bs (vaOf m.ptr % 64) m.width)) m.b
  let fired := s.monitors.filter hit
  let mark (m : Monitor) : Bool := s.embers.any fun e => e.line == ln.ptr && !e.drawn && e.core != m.core
  causeAll (fired.map fun m => .monfill { id := m.id, value := natOfBytes (sliceBytes bs (vaOf m.ptr % 64) m.width), mark := mark m })
    { s with monitors := s.monitors.filter fun m => !hit m }
/-- The end record (R91). -/
def endRecord : List (Nat × Nat) := [(0, 2 ^ 64 - 1), (1, 2 ^ 64 - 1)]
/-- Partitions with a stage that a queue gates (R85, R87). -/
def gatedBy (h : W64) (s : State) : List Nat :=
  ((s.launches.filter fun l => (List.range (l.nstage - 1)).any fun i => ptrAdd l.qarea (i * (384 + 576 * 2 ^ l.lgcap) : Nat) == h).map (·.part)).eraseDups

/-! ## Stamps of a write (R201, R205) -/

/-- A write's stamps (R201). The tag of no copy changes, so the lease that an owner of a Privatised line holds is not cut by writes outside its
mask (R206); the fourth write in 2,048 ck that passes another core's lease starts Gathering (R205). -/
def stampWrite (r : Req) (ln : SLine) (s : State) : SLine :=
  let e := ln.die s
  let pts := r.pts.getD e ln.rts
  let t := serMax pts (ln.rts + 1)
  let cut := r.byCore && ln.leases.any fun l => l.1 != r.core && serLe pts l.2
  let cuts := if cut then (s.ck :: ln.cuts.filter fun c => s.ck < c + 2048) else ln.cuts
  let ln := { ln with wts := t, rts := t, leases := [] }
  match ln.st with
  | .shared => if cut && 4 ≤ cuts.length && ln.inSlice then { ln with st := .gathering 0 [], cuts := [] } else { ln with cuts := cuts }
  | _ => ln

/-- A write to byte 9 of a queue header that sets closed gives every waiter the end record, in waiting order; the slice's own write of the
header's waiters field follows (R88, R91, R204). The line stands in its table before and after. -/
def closeQueue (ln : SLine) (bs : List Byte) (mask : Nat) (s : State) : SLine × State :=
  if mask.testBit 9 && (bs.getD 9 0).getLsbD 0 then
    let mine := s.qwait.filter fun q => linePtr q.op.ptr == ln.ptr && q.op.kind == .deq
    let s := { s with qwait := s.qwait.filter fun q => !(linePtr q.op.ptr == ln.ptr && q.op.kind == .deq) }
    let s := forEach (gatedBy ln.ptr s) (fun q s => causeOnce (.dealPass q) s) s
    let s := forEach mine (fun q s => bumpVersion false q.op.core (fillEnt q.op.id endRecord false s)) s
    if mine.isEmpty then (ln, s)
    else
      let bs := putBytes bs 0x14 (bytesOfNat 4 0)
      let m := 15 * 2 ^ 0x14
      let (ln, s) := ln.store ln.part bs m s
      let ln := stampWrite { agent := .slice } ln s
      (ln, fireMonitors ln bs m (setLine ln s))
  else (ln, s)

/-! ## Data caches (R199 to R203) -/

/-- The line of a core's data cache. -/
def Core.line (c : Core) (va : Nat) (key : Byte) : Option DLine := c.dl.find? fun d => d.va == va && d.key == key
/-- A clean hit is usable (R201). -/
def DLine.usable (d : DLine) (c : Core) : Bool := d.vw == c.vw && d.vd == c.vd && serLe (c.pts.toList.getD d.die 0) d.rts
/-- Dirty bytes as items. -/
def DLine.items (d : DLine) : List Item :=
  ((List.range 64).filter d.dmask.testBit).map fun i => { lane := 0, off := i, size := 1, data := (d.data.getD i 0).toNat }
/-- Clean a line whose dirty bytes have gone. A reading request for it that is on its way may have been served before them: it is made again when
its answer is there (R175, R176). -/
def cleanDLine (n va : Nat) (key : Byte) (s : State) : State :=
  let behind (e : LsuEnt) : Bool := e.phase == .sent && e.req.core == n && lineVa (vaOf e.req.ptr) == va && keyOf e.req.ptr == key
  modCore n (fun c => { c with dl := updWhere (fun d => d.va == va && d.key == key) (fun d => { d with dmask := 0, launches := [] }) c.dl })
    { s with lsu := updWhere behind (fun e => { e with redo := true }) s.lsu }

/-! ## Privatisation (R205, R206) -/

/-- The write-back of a core's lines that an event carries. -/
def writeBackOf : Instr → Option Req
  | .wr r => if r.agent == .ctrl then some r else none
  | .wback w => some w.req
  | _ => none
/-- The event carries a write-back of a core's line. -/
def carriesLine (n va : Nat) (key : Byte) (i : Instr) : Bool :=
  match writeBackOf i with | some r => r.core == n && lineVa (vaOf r.ptr) == va && keyOf r.ptr == key | none => false
/-- Write bytes of a line at the slice for a partition: monitors and queue waiters follow, and the scope record clears (R181, R204). The
write-back of a copy says nothing of the fences before its stores: no ember of the line covers its bytes (R170, log 73). -/
def putLine (q : Nat) (ln : SLine) (items : List Item) (s : State) : SLine × State :=
  let bs := writeItems (ln.bytes s) items
  let m := itemsMask items
  let (ln, s) := ln.store q bs m s
  let ln := if m = 0 then ln else { ln with record := 0, loose := ln.loose ||| m }
  closeQueue ln bs m (fireMonitors ln bs m (setLine ln s))
/-- Merge a core's bytes of a line into the slice at once: its write-backs that are on their way, in the order they were sent, then its dirty
bytes; the core merges the line's new time (R201, R206). -/
def mergeOwner (n : Nat) (ln : SLine) (s : State) : SLine × State :=
  let sent := (s.agenda.filter (carriesLine n ln.va ln.key)).filterMap writeBackOf
  let (ln, s) := sent.foldl (fun (x : SLine × State) r => putLine r.part { x.1 with launches := (x.1.launches ++ r.launches).eraseDups } r.items x.2)
    (ln, { s with agenda := s.agenda.filter fun i => !carriesLine n ln.va ln.key i })
  let (ln, s) := match (coreOf n s).line ln.va ln.key with
    | none => (ln, s)
    | some d => let (ln, s) := putLine d.part { ln with launches := (ln.launches ++ d.launches).eraseDups } d.items s; (ln, cleanDLine n ln.va ln.key s)
  (ln, causeAll (sent.map fun r => .ack { req := r, wts := ln.wts }) (modCore n (·.mergePts (ln.die s) ln.wts) s))
/-- The merge of R206. -/
def mergePrivate (ms : List (Nat × Nat × Nat)) (ln : SLine) (s : State) : SLine × State :=
  let owners := (ms.filter fun m => m.2.2 != 0).map (·.1)
  let t := owners.foldl (fun t n => serMax t ((coreOf n s).pts.toList.getD (ln.die s) 0)) (ln.rts + 1)
  owners.foldl (fun (x : SLine × State) n => mergeOwner n x.1 x.2) ({ ln with wts := t, rts := t, st := .shared, leases := [], cuts := [] }, s)
/-- The access touches a byte in another core's write mask. -/
def maskConflict (core rd wr : Nat) (ms : List (Nat × Nat × Nat)) : Bool :=
  ms.any fun m => m.1 != core && (m.2.2 &&& (rd ||| wr)) != 0
/-- Before an access: gather its masks, enter or leave the Privatised state (R205). -/
def privatise (r : Req) (ln : SLine) (s : State) : SLine × State :=
  let (rd, wr) := r.masks
  let add (ms : List (Nat × Nat × Nat)) : List (Nat × Nat × Nat) :=
    let (a, b) := alGet (0, 0) r.core ms
    alSet r.core (a ||| rd, b ||| wr) ms
  match ln.st with
  | .gathering n ms =>
    let ms := if r.byCore then add ms else ms
    if n + 1 < 32 then ({ ln with st := .gathering (n + 1) ms }, s)
    else
      let clash := ms.any fun m => maskConflict m.1 m.2.1 m.2.2 ms
      let table := (s.lines.filter fun (l : SLine) => l.slice s == ln.slice s && (match l.st with | .privatised _ => true | _ => false)).length
      if !clash && ms.length ≤ 8 && table < 256 then ({ ln with st := .privatised ms }, s)
      else ({ ln with st := .shared, cuts := [] }, s)
  | .privatised ms =>
    if r.isRmw || r.isRel || r.acquires || maskConflict (if r.byCore then r.core else 256) rd wr ms
        || (r.byCore && !(ms.any fun m => m.1 == r.core) && 8 ≤ ms.length) then mergePrivate ms ln s
    else ({ ln with st := .privatised (if r.byCore then add ms else ms) }, s)
  | _ => (ln, s)

end Sys2Proof.Machine
end

