-- ==== Sys2Proof/Machine/Slice.lean ====
section
/-! DEFINITION. What a slice does with a request for a line it holds: embers and draws, scope records, leases, monitors (R201, R205, R207
to R216, R347 to R350). -/

namespace Sys2Proof.Machine

/-- The answer of a point of coherence: data, an acknowledgement, a negative reply, or none yet. -/
inductive Ans
  | data (rsp : Rsp) | ack (a : AckMsg) | nack (n : NackMsg) | later
deriving DecidableEq, Repr

/-! ## Reservations (R67, R68) -/

/-- Entries of a table that an enabled partition reserves. -/
def reserved (q lo n unit : Nat) (s : State) : Nat := if ctlFld (.partCfg q) 0 1 s = 1 then ctlFld (.partQos q) lo n s * unit else 0
/-- A partition may take one more entry of a table that is not full: its own reservation first, then the common pool (R67). -/
def poolFree (q lo n unit total : Nat) (used : List Nat) (s : State) : Bool :=
  if total ≤ used.length then false
  else if used.count q < reserved q lo n unit s then true
  else
    let common := total - ((List.range 64).map fun p => reserved p lo n unit s).sum
    let beyond := ((List.range 64).map fun p => used.count p - reserved p lo n unit s).sum
    decide (beyond < common)

/-! ## Signatures (R211) -/

/-- The two bits a line sets in a signature (R211). -/
def bloomBits (va : Nat) : Nat × Nat :=
  let b (lo n : Nat) : Nat := va / 64 / 2 ^ lo % 2 ^ n
  (b 0 8, (b 8 8) ^^^ (b 16 8) ^^^ (b 24 8) ^^^ (b 32 8) ^^^ (b 40 8) ^^^ (b 48 2))
/-- The signature of a dirty set. -/
def bloomOf (ds : List DLine) : BitVec 256 :=
  ds.foldl (fun s d => let (a, b) := bloomBits d.va; s ||| (1#256 <<< a) ||| (1#256 <<< b)) 0
/-- A line matches a signature when both of its bits are set. -/
def bloomHit (sig : BitVec 256) (va : Nat) : Bool := let (a, b) := bloomBits va; sig.getLsbD a && sig.getLsbD b
/-- The dirty set of a partition up to a release sequence (R211). -/
def Core.dirtySet (c : Core) (q : Nat) (n : W32) : List DLine := c.dl.filter fun d => d.part == q && d.dmask != 0 && serLe d.depoch n
/-- Every dirty line of a partition. -/
def Core.dirtyOf (c : Core) (q : Nat) : List DLine := c.dl.filter fun d => d.part == q && d.dmask != 0

/-! ## The Flue's links (R10, R12) -/

/-- The Flue link between two different compute dies, 0 to 5, and that of a compute die to its I/O die, 6 to 9 (log 26). -/
def flueLink (a b : Nat) : Nat := if min a b = 0 then max a b - 1 else min a b + max a b
def flueIo (d : Nat) : Nat := 6 + d
/-- The links between two dies, 4 and 5 standing for IO0 and IO1 (R10): IO0 is joined to D0 and D1, IO1 to D2 and D3; from the other compute
dies one compute link leads to a die that is joined. -/
def fluePath (a b : Nat) : List Nat :=
  let toIo (d io : Nat) : List Nat := if d / 2 = io - 4 then [flueIo d] else [flueLink d ((d + 2) % 4), flueIo ((d + 2) % 4)]
  if a = b then [] else if a < 4 ∧ b < 4 then [flueLink a b] else if a < 4 then toIo a b else if b < 4 then toIo b a else [flueIo 0, flueLink 0 2, flueIo 2]

/-! ## Write-backs (R203, R214) -/

/-- The write-back of a dirty line as a request of the core's cache controller. -/
def writeBackReq (n id : Nat) (d : DLine) (s : State) : Req :=
  { id := id, agent := .ctrl, core := n, part := d.part, op := .write, ptr := mkPtr d.key d.va, items := d.items, pts := (coreOf n s).pts.toList
    launches := d.launches, depoch := d.depoch, home := some (homeSel d.va s) }
/-- A write-back would cross a Flue link that has failed (R12). -/
def writeBackCut (r : Req) (s : State) : Bool :=
  !s.flueDown.isEmpty && (match lineAt (lineVa (vaOf r.ptr)) (keyOf r.ptr) s with
    | none => false
    | some ln => (fluePath (dieOf r.core s) (ln.die s)).any s.flueDown.contains)
/-- Apply a write-back at its point of coherence (R201, R206, R214): it is never held, it clears the scope record (R181). The core
merges the acknowledged time. One that would cross a failed link is refused, and counted (R12, R24). -/
def applyWriteBack (r : Req) (s : State) : W32 × State :=
  match lineAt (lineVa (vaOf r.ptr)) (keyOf r.ptr) s with
  | none => (0, s)
  | some ln =>
    if writeBackCut r s then (ln.wts, forEach r.launches (fun l s => addErrors l 1 s) s) else
    let (ln, s) := privatise r ln s
    let ln := stampWrite r { ln with launches := (ln.launches ++ r.launches).eraseDups } s
    let w := ln.wts
    (w, (putLine r.part ln r.items s).2)
/-- The bytes of a line can be written at its point of coherence now. -/
def SLine.writable (ln : SLine) : Bool := match ln.place with | .hbm _ => true | _ => ln.present && !ln.readOnly
/-- The line of an address can be written now. -/
def writableAt (va : Nat) (key : Byte) (s : State) : Bool := match lineAt va key s with | some l => l.writable | none => false
/-- Die whose time a reply's stamp is in. -/
def replyDie (r : Req) (s : State) : Nat := (lineAt (lineVa (vaOf r.ptr)) (keyOf r.ptr) s).elim 0 fun l => l.die s
/-- Apply at once, in the order they were sent, the write-backs on their way that satisfy a test; the core merges the new times, and the
acknowledgements follow. -/
def drainWhere (p : Req → Bool) (s : State) : State :=
  let here (i : Instr) : Bool := match writeBackOf i with | some r => p r && writableAt (lineVa (vaOf r.ptr)) (keyOf r.ptr) s | none => false
  forEach ((s.agenda.filter here).filterMap writeBackOf) (fun r s =>
      let (w, s) := applyWriteBack r s
      cause (.ack { req := r, wts := w }) (modCore r.core (fun c => c.mergePts (replyDie r s) w) s))
    { s with agenda := s.agenda.filter fun i => !here i }
/-- Apply the write-backs of a core's line that are on their way (R175). -/
def drainLine (n va : Nat) (key : Byte) (s : State) : State :=
  drainWhere (fun r => r.core == n && lineVa (vaOf r.ptr) == va && keyOf r.ptr == key) s
/-- The request is a write-back of a core's lines of a partition. -/
def isWriteBack (n q : Nat) (r : Req) : Bool := r.agent == .ctrl && r.op == .write && r.core == n && r.part == q
/-- It is one of a line dirtied before a release took its value of the release sequence (R214, R407). -/
def dirtiedBefore (n q : Nat) (rseq : W32) (r : Req) : Bool := isWriteBack n q r && serLe r.depoch rseq
/-- Apply the write-backs of a core and partition that are on their way. -/
def drainWrites (n q : Nat) (s : State) : State := drainWhere (isWriteBack n q) s
/-- Write back a list of dirty lines of a core at once, after what is on its way for the same line (R175); where the line cannot be written
yet, its write-back is sent. -/
def flushNow (n : Nat) (ds : List DLine) (s : State) : State :=
  forEach ds (fun d s =>
    let s := drainLine n d.va d.key s
    let (id, s) := fresh s
    let r := writeBackReq n id d s
    let s := cleanDLine n d.va d.key s
    if writableAt d.va d.key s then
      let (w, s) := applyWriteBack r s
      let e := (lineAt d.va d.key s).elim 0 fun l => l.die s
      modCore n (fun c => c.mergePts e w) s
    else cause (.wr r) s) s
/-- Requests in flight that satisfy a test: on their way, waiting at a line or a home, sent on, or with their answer on its way back. -/
def inFlight (p : Req → Bool) (s : State) : List Req :=
  (s.agenda.filterMap fun i => match i with
    | .wr r => some r | .wback w => some w.req | .ack a => some a.req | .nack n => some n.req | _ => none).filter p
  ++ (s.lines.flatMap (·.waiting)).filter p ++ (s.homes.flatMap fun h => h.2.held).filter p ++ (s.links.map (·.req)).filter p
/-- Write-backs of a core and partition that are not applied yet. -/
def unwritten (n q : Nat) (s : State) : Bool :=
  !(inFlight (isWriteBack n q) { s with agenda := s.agenda.filter fun i => (writeBackOf i).isSome }).isEmpty
/-- Write-backs of a core and partition, of lines dirtied up to a value of its release sequence, that are not acknowledged yet (R214). -/
def unapplied (n q : Nat) (rseq : W32) (s : State) : List Nat := ((inFlight (dirtiedBefore n q rseq) s).map (·.id)).eraseDups
/-- Every write-back of a core and partition that is not acknowledged yet. -/
def unacked (n q : Nat) (s : State) : List Nat := ((inFlight (isWriteBack n q) s).map (·.id)).eraseDups
/-- A write-back of a core's line is not applied yet. -/
def lineUnapplied (n va : Nat) (key : Byte) (s : State) : Bool :=
  !(inFlight (fun r => r.agent == .ctrl && r.op == .write && r.core == n && lineVa (vaOf r.ptr) == va && keyOf r.ptr == key)
    { s with agenda := s.agenda.filter fun i => (writeBackOf i).isSome }).isEmpty
/-- Write back a core's own bytes of one line: those on their way, then its dirty bytes (R175, R203). -/
def flushLineNow (n va : Nat) (key : Byte) (s : State) : State :=
  let s := drainLine n va key s
  match (coreOf n s).line va key with
  | some d => if d.dmask = 0 then s else flushNow n [d] s
  | none => s

/-! ## Embers (R210 to R215) -/

/-- The ember a slice holds for a line. -/
def emberAt (p : W64) (s : State) : Option Ember := s.embers.find? fun e => e.line == p
/-- Replace the ember of a line; the newest stands last (R215). -/
def putEmber (e : Ember) (s : State) : State := { s with embers := (s.embers.filter fun x => x.line != e.line) ++ [e] }
def dropEmber (p : W64) (s : State) : State := { s with embers := s.embers.filter fun e => e.line != p }
/-- An ember that another module's EMBER brought names its releaser by a number beyond every core here (log 30). -/
def peerCore (m agent : Nat) : Nat := 2 ^ 10 + m * 2 ^ 16 + agent
/-- The ember's scope instance holds the requester, and the requester's holds the releasing core (R213). -/
def emberUsable (x : Ember) (r : Req) (s : State) : Bool :=
  let die := r.byCore && !x.ofPeer && dieOf x.core s == dieOf r.core s
  let wg := r.byCore && x.wgtag == r.wgtag && x.scope == .wg
  (match x.scope with | .die => die | .wg => wg | _ => true) &&
  (match r.scope with
   | .wg => if r.wide then (match (teamOf r.team s).bind fun t => wgOf t.wg s with | some w => w.cores.contains x.core | none => false)
            else r.byCore && x.core == r.core
   | .die => die
   | _ => true)
/-- DRAW goes to the releasing core (R214 step 1). -/
def sendDraw (x : Ember) (s : State) : State :=
  if x.drawing then s
  else
    let d : DrawMsg := { line := x.line, core := x.core, part := x.part, rseq := x.rseq }
    cause (.draw d) { s with embers := updWhere (fun e => e.line == x.line) (fun e => { e with drawing := true }) s.embers
                             draws := s.draws ++ [{ line := x.line, core := x.core, part := x.part, rseq := x.rseq }] }
/-- Start a draw: the line is Held, the request waits (an agent that waits in no queue tries again). -/
def startDraw (x : Ember) (r : Req) (ln : SLine) (s : State) : State :=
  sendDraw x (setLine { ln with st := .held, waiting := if r.isSync then ln.waiting else ln.waiting ++ [r] } s)

/-- How a request's acquire or release part stands: it waits for a draw, no entry is to be had, or it may go on. -/
inductive Course
  | wait (s : State) | overflow | go (a : AcqAns) (s : State)
/-- The acquirer's course (R213). The releaser's own core needs nothing of its own release, but what a joined ember took over of the other
cores whose release sequence it continues (R172). -/
def acqCourse (r : Req) (ln : SLine) (s : State) : Course :=
  match emberAt ln.ptr s with
  | none => .go (.bump ln.wts) s
  | some x =>
    if !ln.inSlice || !emberUsable x r s then .go (.bump ln.wts) s
    else if x.core = r.core ∧ x.part = r.part ∧ r.byCore then .go (if x.joined then .drawn x.sig x.vclock false else .same) s
    else if x.drawn then .go (.drawn x.sig x.vclock x.ofPeer) (putEmber x s)
    else .wait (startDraw x r ln s)
/-- The bytes an acquire reads; an ember query for a listed line names none, and asks for all of it (R350). -/
def acqBytes (r : Req) : Nat := if r.items.isEmpty then 2 ^ 64 - 1 else itemsMask r.items
/-- An acquire of a line that has had an `.ar` write, and one of bytes whose last release the line's ember does not cover, leaves no clean copy
usable (R171, R172, R179, log 73). -/
def widenAcq (r : Req) (ln : SLine) (a : AcqAns) : AcqAns :=
  let loose := acqBytes r &&& ln.loose != 0 && !r.narrowWg
  if !ln.ar && !loose then a
  else match a with
    | .notAcquire => .notAcquire
    | .same => .drawn 0 [] true
    | .drawn sig v _ => .drawn sig v true
    | .bump w => if r.narrowWg then .drawn 0 [] true else .bump w
/-- Partitions of the embers of a line's slice. -/
def embersOfSlice (ln : SLine) (s : State) : List Nat :=
  (s.embers.filter fun e => match lineAt (vaOf e.line) (keyOf e.line) s with | some l => l.slice s == ln.slice s | none => false).map (·.part)
/-- Make room for an ember: a free entry, or the least recently used drawn entry of the same partition (R215). -/
def emberRoom (q : Nat) (ln : SLine) (s : State) : Option State :=
  if poolFree q 32 8 64 8192 (embersOfSlice ln s) s then some s
  else
    match s.embers.find? (fun e => e.drawn && e.part == q &&
        (match lineAt (vaOf e.line) (keyOf e.line) s with | some l => l.slice s == ln.slice s | none => false)) with
    | some e => some (dropEmber e.line s)
    | none => none
/-- The release part before the write (R197, R212, R215): at a line whose point of coherence is no slice a release must have been eager; an
undrawn ember of another core or partition is drawn first, and replaced where the partition may have its entry; an eager release draws and
removes any ember. -/
def relCourse (r : Req) (ln : SLine) (a : AcqAns) (s : State) : Course :=
  let drawFirst (x : Ember) (k : State → Course) : Course := if x.drawn then k s else .wait (startDraw x r ln s)
  if r.isRel && r.agent == .team && !r.eager && !ln.inSlice then .overflow
  else match r.ember, emberAt ln.ptr s with
  | some e, some x =>
    if x.core = e.core ∧ x.part = r.part then .go a s
    else drawFirst x fun s => if x.part = r.part then .go a s else match emberRoom r.part ln (dropEmber ln.ptr s) with | some s => .go a (putEmber x s) | none => .overflow
  | some _, none => match emberRoom r.part ln s with | some s => .go a s | none => .overflow
  | none, some x => if r.isRel && r.scope == .sys || r.eager then drawFirst x (fun s => .go a (dropEmber ln.ptr s)) else .go a s
  | none, none => .go a s
/-- The narrowest scope that holds both instances of a core's releases. -/
def joinScope (x e : Ember) : Scope :=
  if x.scope == e.scope && (x.scope != .wg || x.wgtag == e.wgtag) then e.scope
  else if x.scope == .dev || e.scope == .dev then .dev else .die
/-- Store the ember of a release after its write (R212). The same core's and partition's signature is joined; a read-modify-write continues
the release sequence of the ember it replaces, so its scope, and what another core's drawn ember holds, stay with it (R172, log 73). -/
def storeEmber (r : Req) (ln : SLine) (s : State) : State :=
  match r.ember with
  | none => s
  | some e =>
    let v := r.pts.mapIdx fun i p => if i = ln.die s then serMax p ln.wts else p
    let new : Ember := { e with line := ln.ptr, vclock := v, drawing := false, drawn := false }
    let both (x : Ember) : Ember := { new with sig := x.sig ||| e.sig, vclock := v.mapIdx fun i p => serMax p (x.vclock.getD i p) }
    putEmber (match emberAt ln.ptr s with
      | none => new
      | some x =>
        if x.core = e.core ∧ x.part = e.part then
          let y := if x.joined then both x else { new with sig := x.sig ||| e.sig }
          if r.isRmw then { y with joined := x.joined, scope := joinScope x e } else { y with joined := x.joined }
        else if r.isRmw then { both x with joined := true } else new) s

/-- A write that brings no ember acts as a release, or may: an eager release, a write of a team behind a release fence, and every write of an
agent that is no team (R99, R170, R212, log 73). -/
def mayRelease (r : Req) : Bool :=
  match r.agent with | .team => (r.isRel && !r.narrowWg) || r.fenced | .engine _ | .fetch => false | _ => true
/-- Which bytes of a line the ember covers after a write of bytes `m`: one with an ember is covered by it, and so are the earlier releases of the
same core and partition, and those that a read-modify-write continues; the others come loose (R171, R172, R212, log 73). -/
def coverBytes (r : Req) (m : Nat) (ln : SLine) (s : State) : SLine :=
  match r.ember, emberAt ln.ptr s with
  | some e, some x =>
    if r.isRmw then { ln with rel := ln.rel ||| m }
    else if x.core = e.core ∧ x.part = e.part then { ln with rel := ln.rel ||| m, loose := ln.loose - (ln.loose &&& m) }
    else { ln with rel := m, loose := (ln.loose ||| ln.rel) - ((ln.loose ||| ln.rel) &&& m) }
  | some _, none =>
    let old := ln.loose ||| ln.rel
    { ln with rel := m, loose := if r.isRmw then old else old - (old &&& m) }
  | none, _ => if mayRelease r then { ln with loose := ln.loose ||| m } else ln

/-! ## Scope records (R181, R209) -/

/-- The record an access at `.dev` or `.sys` sets. -/
def scopeCode : Scope → Nat | .dev => 2 | .sys => 3 | _ => 0
/-- The access is checked and finds the other record (R181). -/
def mismatches (r : Req) (ln : SLine) : Bool :=
  r.byTeam && r.wideScope && (r.isAcq || r.ord == .ar) && (match r.op with | .monitor _ | .query => false | _ => true)
    && ln.record != 0 && ln.record != scopeCode r.scope
/-- The record after an access that wrote `wrote`. -/
def recordAfter (r : Req) (wrote : Bool) (ln : SLine) : Nat :=
  let plain := match r.op with | .monitor _ | .query => true | _ => false
  if r.byTeam && r.wideScope && !plain && (r.ord == .ar || (r.ord == .rel && r.isWrite)) then scopeCode r.scope
  else if wrote then 0 else ln.record

/-! ## Performing an access (R201, R347, R350) -/

/-- An undrawn ember of another core stands on the line (R350). -/
def marked (r : Req) (ln : SLine) (s : State) : Bool :=
  match emberAt ln.ptr s with | some x => !x.drawn && (x.core != r.core || !r.byCore) | none => false
/-- Arm a monitor: in the slice's table when the line is homed in local HBM, in device bias, and an entry is free; otherwise it
re-checks (R348). -/
def armMonitor (r : Req) (c : WCond) (ln : SLine) (s : State) : State :=
  let it := r.items.headD default
  let here := s.monitors.filter fun m => m.slice && (match lineAt (vaOf (linePtr m.ptr)) (keyOf m.ptr) s with | some l => l.slice s == ln.slice s | none => false)
  let inTable := ln.inSlice && (match ln.granule with | some g => !s.biasHost.contains g | none => false)
    && poolFree r.part 40 8 32 4096 (here.map (·.part)) s
  let m : Monitor := { id := r.id, ent := r.id, team := r.team, core := r.core, part := r.part, ptr := mkPtr ln.key (ln.va + it.off), width := it.size,
                       cond := c, b := it.data, ord := r.ord, scope := r.scope, slice := inTable }
  { s with monitors := (s.monitors.filter fun x => x.id != m.id) ++ [m] }
/-- The lease's end after a core's read (R201), of a line that no slice holds too (R197). -/
def readStamp (r : Req) (ln : SLine) (s : State) : W32 := serMax (serMax ln.rts ln.wts) (r.pts.getD (ln.die s) 0 + 64)
/-- Perform a request on a line that may serve it now. -/
def perform (r : Req) (ln : SLine) (acq : AcqAns) (s : State) : Ans × State :=
  let bs := ln.bytes s
  let (bs', vals, mask) := runItems r.op bs r.items
  match r.op with
  | .query => (.data { req := r, wts := ln.wts, acq := acq }, s)
  | .read | .monitor _ =>
    let mk := marked r ln s
    let keep := ln.inSlice && r.byCore && !mk && !ln.ar && ln.poison == 0
    let rts := if keep || (r.byCore && !ln.inSlice) then readStamp r ln s else ln.rts
    let ln := { ln with rts := rts, used := s.ck, record := recordAfter r false ln, leases := if keep then alSet r.core rts ln.leases else ln.leases }
    let s := setLine ln s
    let s := match r.op with
      | .monitor c => if condHolds c (vals.headD 0) (r.items.headD default).data then s else armMonitor r c ln s
      | _ => s
    (.data { req := r, vals := vals, line := bs, wts := ln.wts, lease := if keep then some rts else none, acq := acq, mark := mk, poison := itemsMask r.items &&& ln.poison != 0 }, s)
  | _ =>
    let wrote := mask != 0
    let mk := marked r ln s
    let hbm := match ln.place with | .hbm _ => true | _ => false
    let was := ln.poison
    let (ln, s) := if wrote then ln.store r.part bs' mask s else (ln, s)
    let ln := { (if wrote || r.isRel then stampWrite r ln s else ln) with
                used := s.ck, record := recordAfter r wrote ln, ar := ln.ar || (r.ord == .ar && (wrote || r.isRel))
                launches := if wrote && !hbm then (ln.launches ++ r.launches).eraseDups else ln.launches }
    let ln := if wrote || r.isRel then coverBytes r (itemsMask r.items) ln s else ln
    let s := storeEmber r ln (setLine ln s)
    let s := if wrote then (closeQueue ln bs' mask (fireMonitors ln bs' mask s)).2 else s
    (if r.isRmw then .data { req := r, vals := vals, wts := ln.wts, acq := acq, mark := mk, poison := itemsMask r.items &&& was != 0 } else .ack { req := r, wts := ln.wts, acq := acq }, s)

/-- The host home may reach host memory for a partition (R48). -/
def pasidOn (q : Nat) (s : State) : Bool := ctlFld (.hostPasid q) 20 1 s == 1
def pasidOf (q : Nat) (s : State) : Nat := ctlFld (.hostPasid q) 0 20 s
/-- A link request for a number, place and request (R47, R50), with the old value a compare-and-swap is tried with. The device sets Relaxed
Ordering on the posted writes of bulk copies only (R32, R44). -/
def sendLinkWith (k : LinkKind) (r : Req) (addr : Nat) (guess : Option Nat) (s : State) : State :=
  let (id, s) := fresh s
  { s with links := s.links ++ [{ id := id, kind := k, req := r, addr := addr, pasid := pasidOf r.part s, ro := k == .hostWrite && r.agent == .engine .c, guess := guess }] }
def sendLink (k : LinkKind) (r : Req) (addr : Nat) (s : State) : State := sendLinkWith k r addr none s
/-- The key under which an answer waits for an agent that tries again: the number of its access (log 5). -/
def syncKeyOf (r : Req) : Nat := if r.isSync then r.id + 1 else 0
/-- Before a device access to a host-bias granule the home snoops the host (R50, R51): the request goes on when the answer is there. -/
def snoopFirst (r : Req) (ln : SLine) (s : State) : Bool :=
  r.agent != .host && (match ln.granule with | some g => s.biasHost.contains g | none => false)

/-- An arming read whose condition does not hold fills nothing, so it is no acquire (R190, R404); one performed at a home elsewhere meets the
line's ember before its value is known. -/
def armsOnly (r : Req) (ln : SLine) (s : State) : Bool :=
  match r.op with
  | .monitor c => ln.present && !r.direct && !condHolds c ((r.items.map (itemValue (ln.bytes s))).headD 0) (r.items.headD default).data
  | _ => false
/-- The acquire and release parts of a request meet the line's ember; then the access goes on with the acquire's answer. An acquirer is answered
after the draw of an undrawn ember that it may use, whichever partition's that is (R213, R350): what R70 says a fence does not wait for are other
partitions' accesses, not the draw of a release that it is to see (log 83). -/
def meet (r : Req) (ln : SLine) (s : State) (k : AcqAns → State → Ans × State) : Ans × State :=
  match (if r.acquires && !armsOnly r ln s then acqCourse r ln s else .go .notAcquire s) with
  | .wait s => (.later, s)
  | .overflow => (.nack { req := r, status := 8 }, s)
  | .go a s =>
    match relCourse r ln (widenAcq r ln a) s with
    | .wait s => (.later, s)
    | .overflow => (.nack { req := r, status := 8 }, s)
    | .go a s => k a s
/-- Serve a request at a line that is there; `snooped`: the back-invalidation of R50 is done. -/
def serve (snooped : Bool) (r : Req) (ln : SLine) (s : State) : Ans × State :=
  if ln.st == .held then (.later, if r.isSync then s else setLine { ln with waiting := ln.waiting ++ [r] } s)
  else
    let (ln, s) := privatise r ln s
    let s := setLine ln s
    if mismatches r ln then (.data { req := r, wts := ln.wts, mismatch := some ln.record }, s)
    else meet r ln s fun a s =>
      let ln := (lineAt ln.va ln.key s).getD ln
      let pa := match ln.place with | .hbm pa => pa | _ => 0
      if !snooped && snoopFirst r ln s then
        if r.isSync && s.got.any (fun g => g.1 == (syncKeyOf r) && g.2.1 == pa) then
          perform r ln a { s with got := s.got.filter fun g => !(g.1 == (syncKeyOf r) && g.2.1 == pa) }
        else if r.isSync && s.links.any (fun l => l.kind == .backInv && l.addr == pa && syncKeyOf l.req == (syncKeyOf r)) then (.later, s)
        else (.later, sendLink .backInv r pa s)
      else perform r ln a s

/-! ## Room in a core's SRAM (R1, R59, R62, R63, R152) -/

/-- Put a dirty line's write-back on its way; its acknowledgement carries `id` (R203). -/
def sendWriteBack (n id : Nat) (d : DLine) (s : State) : State :=
  let r := writeBackReq n id d s
  cause (.wr r) (cleanDLine n d.va d.key s)
/-- Touch a line: it becomes the most recently used. -/
def Core.put (c : Core) (d : DLine) : Core := { c with dl := (c.dl.filter fun x => !(x.va == d.va && x.key == d.key)) ++ [d] }
/-- Drop lines of a core's data cache; dirty ones are written back (R203). -/
def expelLines (n : Nat) (ds : List DLine) (s : State) : State :=
  forEach ds (fun d s =>
    let s := if d.dmask = 0 then s else (let (id, s) := fresh s; sendWriteBack n id d s)
    modCore n (fun c => { c with dl := c.dl.filter fun x => !(x.va == d.va && x.key == d.key) }) s) s
/-- A partition's least recently used lines on a core go beyond its limit there (R59). -/
def trimPart (n q : Nat) (s : State) : State :=
  let mine := (coreOf n s).dl.filter fun x => x.part == q
  expelLines n (mine.take (mine.length - cacheLines q n s)) s
/-- A unit of a partition that is not the holder was claimed: its halted teams there say so (R62, R399). -/
def markClaimed (q n : Nat) (s : State) : State :=
  modTeams (fun t => t.core == n && t.part == q && (t.status == .halted || t.status == .saved)) (fun t => { t with claimed := true }) s
/-- A data-cache unit of a partition on a core is given up: its least recently used lines go, dirty ones written back (R63, R130, R203). -/
def giveUnit (n p : Nat) (s : State) : State :=
  let mine := (coreOf n s).dl.filter fun x => x.part == p
  expelLines n (mine.take (mine.length - (cacheUnits p n s - 1) * 512)) s
/-- A partition claims a core SRAM unit of another: scratchpad is spilled, a data-cache unit given up (R62, R63). -/
def claimUnit (q n : Nat) (u : Nat × Option Nat) (s : State) : State :=
  match u.2 with
  | some p => giveUnit n p (markClaimed p n s)
  | none => spill q n [] [u.1] [] [] s
/-- A core's SRAM has no unit for a partition's lines: the holder of the cluster claims others' units, the lowest-numbered first; otherwise the
partition's own least recently used lines go (R1, R59, R62). -/
def claimCache (n q : Nat) : Nat → State → State
  | 0, s => s
  | fuel + 1, s =>
    if sramUsed n s ≤ (coreOf n s).usable 1 then s
    else match (if (clusterOf (clusterIx n s) s).holder = some q then (claimableUnits q n s).head? else none) with
      | some u => claimCache n q fuel (claimUnit q n u s)
      | none => if cacheUnits q n s = 0 then s else claimCache n q fuel (giveUnit n q s)
/-- Data-cache units go until the lines fit the core (R1). -/
def fitSram (n : Nat) : Nat → State → State
  | 0, s => s
  | fuel + 1, s =>
    if sramUsed n s ≤ (coreOf n s).usable 1 then s
    else match minBy? id ((coreOf n s).dl.map (·.part)) with
      | some q => fitSram n fuel (giveUnit n q s)
      | none => s

end Sys2Proof.Machine
end

