-- ==== Sys2Proof/Machine/Fjon.lean ====
section
/-! DEFINITION. Fjonlink packets as bytes, routing and framing (R15 to R22). -/

namespace Sys2Proof.Machine

/-! ## CRC-64 (R15) -/

/-- One bit of the CRC-64 of ECMA-182, polynomial 0x42F0E1EBA9EA3693, most significant bit first, initial value 0 (log 11). -/
def crc64Bit (c : W64) : W64 := if c.getLsbD 63 then (c <<< 1) ^^^ 0x42F0E1EBA9EA3693#64 else c <<< 1
/-- Feed one byte. -/
def crc64Byte (c : W64) (b : Byte) : W64 :=
  crc64Bit (crc64Bit (crc64Bit (crc64Bit (crc64Bit (crc64Bit (crc64Bit (crc64Bit (c ^^^ (b.setWidth 64 <<< 56)))))))))
/-- The CRC of a byte string. -/
def crc64 (bs : List Byte) : W64 := bs.foldl crc64Byte 0

/-! ## Packets (R21, R22) -/

/-- The 32 header bytes (R21). -/
def packetHead (p : Packet) : Nat :=
  p.op % 2 ^ 8 + p.tc % 4 * 2 ^ 8 + p.ord % 4 * 2 ^ 10 + p.scope % 4 * 2 ^ 12 + p.rsv % 2 * 2 ^ 14 + nb p.rs * 2 ^ 15 + p.dst % 2 ^ 16 * 2 ^ 16
    + p.srcm % 2 ^ 16 * 2 ^ 32 + p.agent % 2 ^ 16 * 2 ^ 48 + p.tag % 2 ^ 16 * 2 ^ 64 + p.tenant % 2 ^ 16 * 2 ^ 80 + p.key % 2 ^ 8 * 2 ^ 96
    + p.va % 2 ^ 56 * 2 ^ 104 + p.len % 2 ^ 12 * 2 ^ 160 + p.status % 2 ^ 4 * 2 ^ 172 + p.sub % 2 ^ 16 * 2 ^ 176 + p.aux % 2 ^ 64 * 2 ^ 192
/-- Header, payload padded to a multiple of 32 bytes (R21). -/
def packetBytes (p : Packet) : List Byte :=
  bytesOfNat 32 (packetHead p) ++ p.payload ++ List.replicate ((32 - p.payload.length % 32) % 32) 0
/-- The traffic class of an opcode (R22). -/
def opClass (op : Nat) : Option Nat :=
  if op = 0x01 ∨ op = 0x02 ∨ op = 0x03 ∨ op = 0x04 then some 0
  else if op = 0x10 ∨ op = 0x11 ∨ op = 0x12 then some 1
  else if 0x20 ≤ op ∧ op ≤ 0x24 then some 2
  else if op = 0x30 ∨ op = 0x31 then some 3
  else none
/-- Payload sizes of an opcode, smallest and largest; none: it carries none (R22). -/
def opPayload (op sub : Nat) : Option (Nat × Nat) :=
  if op = 0x02 then some (1, 64) else if op = 0x03 then (if sub % 2 ^ 8 = 0x10 then some (32, 32) else none)
  else if op = 0x04 then some (64, 64) else if op = 0x10 then some (1, 112) else if op = 0x21 then some (16, 16)
  else if op = 0x22 then some (64, 64) else if op = 0x23 then some (8, 8) else if op = 0x24 then some (65, 128)
  else if op = 0x30 then some (8, 4096) else none
/-- A header and the bytes that follow it, read back (R21). -/
def packetOf (bs : List Byte) : Packet :=
  let h := natOfBytes (bs.take 32)
  let f (lo n : Nat) : Nat := h / 2 ^ lo % 2 ^ n
  let p : Packet :=
    { op := f 0 8, tc := f 8 2, ord := f 10 2, scope := f 12 2, rsv := f 14 1, rs := f 15 1 == 1, dst := f 16 16, srcm := f 32 16
      agent := f 48 16, tag := f 64 16, tenant := f 80 16, key := f 96 8, va := f 104 56, len := f 160 12, status := f 172 4, sub := f 176 16, aux := f 192 64 }
  match opPayload p.op p.sub with
  | some _ => { p with payload := sliceBytes bs 32 (p.len + 1 + (if p.op = 0x30 then (32 - (p.len + 1) % 32) % 32 + 32 else 0)) }
  | none => p
/-- Bytes a packet takes on the wire. -/
def packetSize (bs : List Byte) : Nat :=
  let p := packetOf bs
  32 + (p.payload.length + 31) / 32 * 32

/-! ## Agents and tags (R21) -/

/-- The agent a request names as its source: a core by die and site, a slice by die and number, else the module agent (R21, log 74). -/
def agentNo (r : Req) (s : State) : Nat :=
  match r.agent with
  | .team | .fetch | .engine _ | .ctrl => match siteOf r.core s with | some (d, i) => d * 2 ^ 14 + i | none => 3 * 2 ^ 12
  | .slice => let n := ((lineAt (lineVa (vaOf r.ptr)) (keyOf r.ptr) s).map fun l => l.slice s).getD 0; n / 16 * 2 ^ 14 + 2 ^ 12 + n % 16
  | _ => 3 * 2 ^ 12
/-- The home controller of an address, as the agent of a reply: HBM homes by die and number, the host home and the CXL homes by their home
numbers (R21, R141, log 74). -/
def homeAgent (va : Nat) (s : State) : Nat :=
  match homeSel va s with
  | .local h => if h < 32 then h / 8 * 2 ^ 14 + 2 ^ 13 + h % 8 else 2 ^ 13 + h
  | _ => 3 * 2 ^ 12
/-- A tag that no packet outstanding to a module has (R18). -/
def freeTag (dst n : Nat) (s : State) : Nat :=
  let used := s.links.filterMap fun l => l.pkt.bind fun p => if p.dst = dst then some p.tag else none
  let t := firstFree used (n % 2 ^ 16) (used.length + 1)
  if t < 2 ^ 16 then t else firstFree used 0 (used.length + 1)
/-- The partition here that has a tenant (R23). -/
def partOfTenant (tenant : Nat) (s : State) : Option Nat :=
  (List.range 64).find? fun q => ctlFld (.fjTenant q) 16 1 s == 1 && ctlFld (.fjTenant q) 0 16 s == tenant

/-! ## Routing and framing (R16 to R18, R20, R69) -/

/-- The port a packet for a module leaves on (R17). -/
def routePort (dst : Nat) (s : State) : Option Nat :=
  let r := ctlRaw (.fjRoute dst) s
  if bit r 3 && (portOf (fld r 0 3) s).up then some (fld r 0 3)
  else if bit r 7 && (portOf (fld r 4 3) s).up then some (fld r 4 3)
  else none
/-- Flit bytes that the CRC covers (R15). -/
def flitCovered (f : Flit) : List Byte := bytesOfNat 4 (f.seq + f.ack * 2 ^ 12 + f.ty * 2 ^ 24 + f.tc * 2 ^ 28) ++ f.body
/-- A flit with its CRC. -/
def sealFlit (f : Flit) : Flit := { f with crc := crc64 (flitCovered f) }
/-- The flit's CRC holds, and every codeword of it could be read (R16, R19). -/
def goodFlit (f : Flit) : Bool := !f.fec && f.crc == crc64 (flitCovered f)
/-- The flits of a class's packets from a sequence number: the bytes stand one after another, zeros follow the last (R15, log 11). -/
def flitsOf (seq ack tc : Nat) (bs : List Byte) : List Flit :=
  (List.range ((bs.length + 243) / 244)).map fun i => sealFlit { seq := (seq + i) % 4096, ack := ack, ty := 0, tc := tc, body := sliceBytes bs (244 * i) 244, crc := 0 }
/-- The last good sequence number received. -/
def Port.lastGood (x : Port) : Nat := (x.expect + 4095) % 4096
/-- A port sends a control flit: its body begins with what it says, zeros follow (R15, log 11). It bears the seq of the next data flit and consumes
none, and its seq is not compared on arrival: only data flits are counted, which R15 and R16 leave open (log 84). A port that is down or training
sends nothing (R18). -/
def Port.control (x : Port) (ty : Nat) (body : List Byte) : Port :=
  if !x.up || x.training then x else
  { x with out := x.out ++ [sealFlit { seq := x.sent, ack := x.lastGood, ty := ty, tc := 0, body := sliceBytes body 0 244, crc := 0 }] }
/-- The packet of a class that a port frames next: what a failed port left goes first (R18); else partitions share by deficit round robin, at
fjw times 64 bytes (R69). Also the arbiter as it then stands. -/
def nextOut (c : Nat) (x : Port) (s : State) : Option ((Nat × Packet) × Drr) :=
  let mine := x.pend.filter fun k => k.2.tc == c
  let part (k : Nat × Packet) : Nat := (partOfTenant k.2.tenant s).getD 0
  let d := x.drr.getD c {}
  match mine.find? fun k => k.1 != 0 with
  | some k => some (k, d)
  | none =>
    let firsts := ((mine.map part).eraseDups).filterMap fun q => mine.find? fun k => part k == q
    let heads := firsts.map fun k => (part k, (packetBytes k.2).length)
    match Drr.pick (fun q => ctlFld (.partQos q) 8 8 s) heads (70 * heads.length + 1) d with
    | some (q, d) => (mine.find? fun k => part k == q).map fun k => (k, d)
    | none => mine.head?.map fun k => (k, d)
/-- Take packets of a class as long as they fit into so many bytes. -/
def takeOutOf (c room : Nat) (s : State) : Nat → Port → List Packet → Port × List Packet
  | 0, x, ps => (x, ps)
  | fuel + 1, x, ps =>
    match nextOut c x s with
    | none => (x, ps)
    | some (k, d) =>
      if room < (ps.flatMap packetBytes).length + (packetBytes k.2).length then (x, ps)
      else takeOutOf c room s fuel { x with pend := x.pend.erase k, drr := x.drr.set c d } (ps ++ [k.2])
/-- The packets of a stream with the flits each begins and ends in. -/
def packetSpans (sent : Nat) : Nat → List Packet → List (Nat × Nat × Packet)
  | _, [] => []
  | off, p :: ps =>
    let n := (packetBytes p).length
    ((sent + off / 244) % 4096, (sent + (off + n - 1) / 244) % 4096, p) :: packetSpans sent (off + n) ps
/-- Frame the packets a port holds back, as far as pause and the 1,024 flits of the retry buffer allow (R15, R16, R20). -/
def pumpPort (n : Nat) (s : State) : State :=
  let p := portOf n s
  if !p.up || p.training then s
  else
    modPort n (fun _ => (List.range 4).foldl (fun x c =>
      if s.ck < x.pausedUntil.getD c 0 then x
      else
        let (x, ps) := takeOutOf c ((1024 - x.retry.length) * 244) s x.pend.length x []
        let fs := flitsOf x.sent x.lastGood c (ps.flatMap packetBytes)
        { x with retry := x.retry ++ fs, out := x.out ++ fs, sent := (x.sent + fs.length) % 4096, queue := x.queue ++ packetSpans x.sent 0 ps }) p) s
/-- A negative answer that an event brings. -/
def nackOf : Instr → Option NackMsg
  | .nack n => some n
  | _ => none
/-- A link request is over; its answer goes to whoever made it. Of a write-back that took several packets the last answer does, a negative one
where any of them got one (R24). -/
def answerLink (l : LinkReq) (i : Instr) (s : State) : State :=
  let s := { s with links := s.links.filter fun x => x.id != l.id }
  let same (x : LinkReq) : Bool := x.req.agent == .slice && x.req.op == .write && x.req.id == l.req.id
  let bad := l.refused <|> nackOf i
  if same l && s.links.any same then { s with links := updWhere same (fun x => { x with refused := bad }) s.links }
  else cause ((bad.map .nack).getD i) s
/-- A negative answer to a link request; for an agent that tries again it names whom it is for (log 5). -/
def refuseLinkWith (l : LinkReq) (n : NackMsg) (s : State) : State := answerLink l (.nack { n with req := l.req, who := l.addr }) s
/-- A negative answer that no home gave: it names home 255. -/
def refuseLink (l : LinkReq) (status : Nat) (s : State) : State := refuseLinkWith l { req := l.req, status := status, home := 255 } s
/-- The packet's request stands among those outstanding. -/
def LinkReq.sentAs (l : LinkReq) (m tag : Nat) : Bool := match l.pkt with | some p => p.dst == m && p.tag == tag | none => false
/-- The answer a module makes locally to a packet it cannot send (R16, R18): status 5; a draw is over (R214). -/
def unreachable (p : Packet) (s : State) : State :=
  if p.op = 0x30 then cause (.chunkack (p.va % 2 ^ 32) p.tenant p.dst (p.va / 2 ^ 32) 5) s
  else if p.op = 0x20 then
    match s.draws.find? fun d => d.line == mkPtr (BitVec.ofNat 8 p.key) p.va with
    | some d => cause (.drawack { line := d.line, core := d.core, part := d.part, rseq := d.rseq }) s
    | none => s
  else match s.links.find? fun l => l.sentAs p.dst p.tag && l.pkt.any fun q => q.op == p.op with
    | some l => refuseLink l 5 s
    | none => s
/-- Send a packet on the port R17 names, or answer it locally. -/
def sendPacket (p : Packet) (s : State) : State :=
  match routePort p.dst s with
  | some n => pumpPort n (modPort n (fun x => { x with pend := x.pend ++ [(0, p)] }) s)
  | none => unreachable p s
/-- A packet of this module: destination, source agent, a tag free there, and the tenant of the partition (R21, R23). The agents this
module names in its packets are the model's choice where R21 leaves them open (log 74). -/
def newPacket (op dst agent id part : Nat) (s : State) : Packet :=
  { op := op, tc := (opClass op).getD 0, dst := dst, srcm := ctlFld .modid 0 16 s, agent := agent, tag := freeTag dst id s, tenant := ctlFld (.fjTenant part) 0 16 s }
/-- A reply to a request packet (R21): its agent is the home controller of the address, or the module agent where no home answers. -/
def replyPacket (q : Packet) (op status : Nat) (payload : List Byte) (s : State) : Packet :=
  { op := op, tc := (opClass op).getD 1, ord := q.ord, scope := q.scope, dst := q.srcm, srcm := ctlFld .modid 0 16 s
    agent := if q.op = 0x04 then 3 * 2 ^ 12 else homeAgent q.va s, tag := q.tag, tenant := q.tenant, key := q.key
    va := q.va, len := payload.length - 1, status := status, payload := payload }
/-- Send a reply, and record it for re-sent copies of its request (R18); its sub and aux are zero (R21). -/
def sendReply (q : Packet) (op status : Nat) (payload : List Byte) (s : State) : State :=
  let p := replyPacket q op status payload s
  let s := { s with accepted := updWhere (fun a => a.pkt.srcm == q.srcm && a.pkt.agent == q.agent && a.pkt.tag == q.tag && a.pkt.op == q.op)
                      (fun a => { a with reply := some p }) s.accepted }
  sendPacket p s
/-- Code of the order and scope fields (R21). -/
def ordNum : Ord → Nat | .rlx => 0 | .acq => 1 | .rel => 2 | .ar => 3
def scopeNum : Scope → Nat | .wg => 0 | .die => 1 | .dev => 2 | .sys => 3
/-- The sub field of an ATOM (log 11): the op of R343, 16 for a compare-and-swap. -/
def atomNum : AtomOp → Nat
  | .add => 0 | .minI => 1 | .maxI => 2 | .minN => 3 | .maxN => 4 | .and => 5 | .or => 6 | .xor => 7 | .xchg => 8 | .faddF32 => 9 | .faddF16 => 10
  | .faddBf16 => 11 | .addB32 => 12 | .xchgB32 => 13
/-- The atomic function a sub field names. -/
def atomOfNum : Nat → Option AtomOp
  | 0 => some .add | 1 => some .minI | 2 => some .maxI | 3 => some .minN | 4 => some .maxN | 5 => some .and | 6 => some .or | 7 => some .xor | 8 => some .xchg
  | 9 => some .faddF32 | 10 => some .faddF16 | 11 => some .faddBf16 | 12 => some .addB32 | 13 => some .xchgB32 | _ => none
/-- The runs of bytes that items touch: first byte and length. -/
def itemRuns (items : List Item) : List (Nat × Nat) :=
  let m := itemsMask items
  let run (i : Nat) : Nat := ((List.range (64 - i)).takeWhile fun k => m.testBit (i + k)).length
  ((List.range 64).filter fun i => m.testBit i && (i == 0 || !m.testBit (i - 1))).map fun i => (i, run i)
/-- The instruction that made an atomic takes no old value (R22). -/
def noReturn (r : Req) (s : State) : Bool := match s.lsu.find? fun e => e.id == r.id with | some e => e.dest == .none | none => false
/-- The function of an ATOM packet (log 11): function, operand size and, in bit 15, that it returns nothing. -/
def atomSub (f n : Nat) (quiet : Bool) : Nat := f + n * 2 ^ 8 + nb quiet * 2 ^ 15
/-- The lanes of an atomic request by location, in order (R182). -/
def atomLocations (r : Req) : List (List Item) := ((r.items.map (·.off)).eraseDups).map fun o => r.items.filter fun i => i.off == o
/-- The 16-byte block of a group of lanes, and the lanes' places in it. -/
def blockOf (g : List Item) : Nat := (g.headD default).off / 16 * 16
def inBlock (g : List Item) : List Item := g.map fun i => { i with off := i.off - blockOf g }
/-- What a group of lanes makes of its block: the new block, the values it returns, whether it writes (R182). -/
def blockStep (op : ReqOp) (g : List Item) (old : Nat) : Nat × List Nat × Bool :=
  let (bs, vals, m) := runItems op (bytesOfNat 16 old) (inBlock g)
  (natOfBytes bs, vals, m != 0)
/-- One packet can carry the group: one lane, but for a 64-bit compare-and-swap, whose operands aux cannot hold (R22). -/
def carried (op : ReqOp) (g : List Item) : Bool := g.length ≤ 1 && !(op == .cas && g.all fun i => i.size == 8)
/-- A packet that carries (part of) a request, the items it answers, and the old block a 128-bit compare-and-swap is sent with. -/
structure Carrier where
  pkt : Packet
  items : List Item
  guess : Option Nat := none
/-- A group of lanes as one 128-bit compare-and-swap of its block, which is tried again with the value found until that was the expected
one (R22, R182, log 75). -/
def blockCas (base : Packet) (line : Nat) (op : ReqOp) (g : List Item) (old : Nat) : Carrier :=
  { pkt := { base with op := 0x03, va := line + blockOf g, sub := atomSub 0x10 16 false, len := 31, payload := bytesOfNat 16 old ++ bytesOfNat 16 (blockStep op g old).1 }
    items := g, guess := some old }
/-- The packet of a lane that one packet carries. -/
def laneAtom (base : Packet) (line : Nat) (op : ReqOp) (quiet : Bool) (i : Item) : Packet :=
  match op with
  | .atom f => { base with op := 0x03, va := line + i.off, sub := atomSub (atomNum f) i.size quiet, aux := i.data }
  | _ =>
    if i.size = 16 then { base with op := 0x03, va := line + i.off, sub := atomSub 0x10 16 quiet, len := 31, payload := bytesOfNat 16 i.data ++ bytesOfNat 16 i.data2 }
    else { base with op := 0x03, va := line + i.off, sub := atomSub 0x11 i.size quiet, aux := i.data % 2 ^ 32 + i.data2 % 2 ^ 32 * 2 ^ 32 }
/-- The fields that every packet of a request has. -/
def packetBase (r : Req) : Packet := { ord := ordNum r.ord, scope := scopeNum r.scope, key := (keyOf r.ptr).toNat }
/-- The packets that carry a request to another module's home (R22): a write-back made for a draw in one, else one a run of written bytes;
one a location of an atomic; one a line read. -/
def remotePackets (r : Req) (s : State) : List Carrier :=
  let line := lineVa (vaOf r.ptr)
  let base := packetBase r
  match r.op with
  | .write =>
    let bs := writeItems (List.replicate 64 0) r.items
    if r.agent == .slice && r.eager then [{ pkt := { base with op := 0x22, va := line, len := 63, payload := bs, aux := itemsMask r.items }, items := r.items }]
    else (itemRuns r.items).map fun x => { pkt := { base with op := 0x02, va := line + x.1, len := x.2 - 1, payload := sliceBytes bs x.1 x.2 }
                                           items := r.items.filter fun i => decide (x.1 ≤ i.off) && decide (i.off < x.1 + x.2) }
  | .atom _ | .cas => (atomLocations r).map fun g =>
    let i := g.headD default
    if carried r.op g then { pkt := laneAtom base line r.op (noReturn r s) i, items := g }
    else blockCas base line r.op g (if r.op == .cas then i.data * 2 ^ (8 * (i.off - blockOf g)) else 0)
  | _ => [{ pkt := { base with op := 0x01, va := line }, items := r.items }]
/-- Send a carrier of a request; `who`: the agent that tries again (log 5). -/
def sendCarrier (who m : Nat) (r : Req) (x : Carrier) (s : State) : State :=
  let (id, s) := fresh s
  let h := newPacket x.pkt.op m (agentNo r s) id r.part s
  let p := { x.pkt with tc := h.tc, dst := h.dst, srcm := h.srcm, agent := h.agent, tag := h.tag, tenant := h.tenant }
  sendPacket p { s with links := s.links ++ [{ id := id, kind := .remote m, req := { r with items := x.items }, addr := who, pkt := some p, guess := x.guess }] }
/-- Send a request to another module's home (R142). -/
def sendRemoteFor (who m : Nat) (r : Req) (s : State) : State := forEach (remotePackets r s) (sendCarrier who m r) s
def sendRemote (m : Nat) (r : Req) (s : State) : State := sendRemoteFor 0 m r s

end Sys2Proof.Machine
end

