-- ==== Sys2Proof/Machine/Home.lean ====
section
/-! DEFINITION. Homes serving requests: held pages, misses, fault buffers, host memory, other modules; and the replies (R140, R142, R148,
R153 to R159, R196 to R198, R47 to R49). -/

namespace Sys2Proof.Machine

/-! ## Fault buffers (R155, R158, R159) -/

/-- The record kind of a request (R156). -/
def faultKind (r : Req) (s : State) : Nat :=
  let ent := s.lsu.find? fun e => e.id == r.id
  if (match ent with | some e => (match e.kind with | .queue _ => true | _ => false) | none => false) then 7
  else match r.agent, r.op with
  | .fetch, _ => 4
  | .engine .m, _ => 6
  | .engine _, _ => 5
  | _, .monitor _ => 8
  | _, .write => 1
  | _, .atom _ | _, .cas => (match ent with | some e => if e.dest == .none then 3 else 2 | none => 2)
  | _, _ => (match ent with | some e => (match e.kind with | .store => 1 | .waitc => 8 | _ => 0) | none => 0)
/-- A module's home answers status 3: the overflow bit, event 0 when it rises, and the noted core with the mode that
its wake follows (R73, R158). -/
def overflowAnswer (r : Req) (h : Nat) (s : State) : Ans × State :=
  let q := r.part
  let old := (homeOf h s).ovf.testBit q
  let n := (r.core, q, ctlFld .duty 4 1 s == 1)
  let s := modHome h (fun x => { x with ovf := x.ovf ||| 2 ^ q, noted := if x.noted.contains n then x.noted else x.noted ++ [n] }) s
  (.nack { req := r, status := 3, home := h }, if old then s else raiseEvent q 0 s)
/-- A fault entry may be taken by the partition at a home (R67). -/
def faultRoom (q h : Nat) (s : State) : Bool :=
  decide ((homeOf h s).faults.length < 256) && poolFree q 48 9 1 256 ((homeOf h s).faults.map fun f => f.req.part) s
/-- Store the whole request and answer status 1 or 2 with its handle (R155); with map = 1 a status 1 is host-held (R159). The LFE, the host,
collectives and fetches ahead of the pc leave no entry: they see the status (R80, R157, R161). -/
def faultAnswer (r : Req) (h cause level kind : Nat) (s : State) : Ans × State :=
  let status := if cause = 8 then 1 else 2
  let bare := match r.agent with | .lfe | .host | .engine .l | .ctrl | .slice => true | _ => r.spec
  if bare then (.nack { req := r, status := status, level := level, home := h }, s)
  else if !faultRoom r.part h s then overflowAnswer r h s
  else
    let slot := firstFree ((homeOf h s).faults.map (·.slot)) 0 256
    let held := status == 1 && ctlFld .duty 0 1 s == 1
    let f : FaultEnt := { slot := slot, req := r, cause := cause, level := level, kind := kind, hostHeld := held }
    let s := modHome h (fun x => { x with faults := x.faults ++ [f] }) s
    (.nack { req := r, status := status, level := level, home := h, slot := slot, hostHeld := held }, if held then raiseEvent r.part 0 s else s)

/-- A record stands for an entry of a home of this module (R155). -/
def FaultRec.names (x : FaultRec) (h slot : Nat) (s : State) : Bool := x.module == ctlFld .modid 0 16 s && x.home == h && x.slot == slot
/-- The entry of this module's homes that a record stands for. -/
def FaultRec.entry (x : FaultRec) (s : State) : Option FaultEnt :=
  if x.module = ctlFld .modid 0 16 s ∧ x.home < 37 then (homeOf x.home s).faults.find? fun f => f.slot == x.slot else none

/-! ## Pages and granules under change (R51, R154) -/

/-- The home number that keeps a request waiting. -/
def homeNum (r : Req) (s : State) : Nat := match reqHome r s with | .local h => h | _ => 0
/-- An address lies on the page of the mapping operation in progress. -/
def mapHolds (va : Nat) (s : State) : Bool :=
  match s.mapop with | some m => va / pageBytes m.size == m.va / pageBytes m.size | none => false
/-- The chunk of a copy is under way: it is finished before the copy pauses (R51). -/
def midChunk (r : Req) (s : State) : Bool :=
  r.agent == .engine .c && ((teamOf r.team s).elim false fun t => t.c.ops.any fun o => o.id == r.id && o.mid)
/-- A granule's bias is being flipped, and a request waits for that. -/
def flipHolds (g : Option Nat) (r : Req) (s : State) : Bool :=
  match s.biasOp, g with | some (_, x, _), some y => x == y && !midChunk r s | _, _ => false
/-- Keep a request in its home's queue, without RETRY and without a record (R51, R154). -/
def park (r : Req) (s : State) : Ans × State :=
  (.later, if r.isSync then s else modHome (homeNum r s) (fun h => { h with held := h.held ++ [r] }) s)

/-! ## Filling slices (R151, R196, R198, R60) -/

/-- Lines of a partition pinned at a place. -/
def pinnedLines (attr q loc : Nat) (s : State) : List SLine := s.lines.filter fun l => l.present && l.attr == attr && l.loc == loc && l.part == q
/-- A page that is to be pinned fits, whole, beside the pages with lines pinned there, and so does one more line, in `room` units of some
lines (R60, R151). -/
def pageFits (ls : List SLine) (page : Nat × Nat) (unit room : Nat) : Bool :=
  let pages := (ls.map (·.page)).eraseDups
  let need := ((if pages.contains page then pages else page :: pages).map fun p => (p.2 / 64 + unit - 1) / unit).sum
  (pages.contains page || decide (need ≤ room)) && decide ((ls.length + 1 + unit - 1) / unit ≤ room)
/-- A page pinned in a slice has room under pin and slc there (R60), and beside the pages of every partition pinned there in the slice's 6 MiB
(R1): of limits that add up to more, the pages pinned first keep their places (log 37). -/
def pinRoom (q loc : Nat) (page : Nat × Nat) (s : State) : Bool :=
  pageFits (pinnedLines 3 q loc s) page 1024 (min (min 96 (ctlFld (.partLim q) 8 7 s)) (ctlFld (.partLim q) 16 7 s))
    && pageFits (s.lines.filter fun l => l.present && l.attr == 3 && l.loc == loc) page 1024 96
/-- A page pinned in a core's SRAM has room under the partition's limit there (R151), and one more line of it has a unit among those of the core:
beside the lines that others have pinned and the scratchpad that the partition cannot claim now (R1, R62, R152; log 37). -/
def corePinRoom (q n : Nat) (page : Nat × Nat) (s : State) : Bool :=
  let others := ((List.range 64).filter (· != q)).map fun p => pinnedUnits p n s
  let scratch := if (clusterOf (clusterIx n s) s).holder = some q then ((unitsHeld n s).filter fun u => u.1 == q).length else (scratchUnits n s).length
  pageFits (pinnedLines 2 q n s) page 512 (sramLimit q n s - ((unitsHeld n s).filter fun u => u.1 == q).length)
    && decide (others.sum + ((pinnedLines 2 q n s).length + 1 + 511) / 512 + scratch ≤ (coreOf n s).usable 1)
/-- The page of an address under a translation: base and bytes. -/
def Trans.page (t : Trans) (va : Nat) : Nat × Nat := (va / pageBytes t.size * pageBytes t.size, pageBytes t.size)
/-- The attribute a line is served under: a page whose pinning would exceed its limit, or in a host-bias granule, is served as cached normally
(R60, R151). -/
def effAttr (q va : Nat) (t : Trans) (s : State) : Nat × State :=
  let host := match t.place with | .hbm pa => s.biasHost.contains (pa / 2 ^ 16) | _ => false
  if t.attr = 2 ∨ t.attr = 3 then
    if host then (0, s)
    else if (if t.attr = 2 then corePinRoom q t.loc (t.page va) s else pinRoom q t.loc (t.page va) s) then (t.attr, s)
    else (0, ctlSetFld .partCfgerr 1 1 1 s)
  else (t.attr, s)
/-- The line as it stands when its dirty bytes have been sent; those sent while it is being fetched lie over what comes. -/
def SLine.sentBack (ln : SLine) : SLine :=
  { ln with dirty := 0, launches := [], writers := [], kept := if ln.st == .held && !ln.present then ln.kept ||| ln.dirty else ln.kept }
/-- Write back, for a draw or for another reason, the bytes of a line that its home, on another module or a CXL home, has not got yet (R22,
R198); the number its acknowledgement carries, if one follows. -/
def farWrite (draw : Bool) (ln : SLine) (s : State) : List Nat × State :=
  if ln.dirty = 0 then ([], s)
  else
    let d : DLine := { va := ln.va, key := ln.key, part := ln.part, vw := 0, vd := 0, wts := 0, rts := 0, die := 0, dmask := ln.dirty, data := ln.data }
    match ln.place with
    | .remote m =>
      let (id, s) := fresh s
      ([id], sendRemote m { id := id, agent := .slice, core := 255, part := ln.writers.headD ln.part, op := .write, eager := draw, ptr := ln.ptr, items := d.items
                            launches := ln.launches, writers := ln.writers, home := some (.remote m) } (setLine ln.sentBack s))
    | .cxl h pa =>
      let s := setLine ln.sentBack s
      ([], { s with cxlMem := s.cxlMem.writeN (h * 2 ^ 52 + pa) (writeItems (s.cxlMem.readN (h * 2 ^ 52 + pa) 64) d.items) })
    | _ => ([], s)
/-- A slice's write-back of bytes that a partition wrote, to another module. -/
def isFarWrite (q : Nat) (r : Req) : Bool := r.agent == .slice && r.op == .write && r.writers.contains q
/-- Slice lines homed elsewhere that partition `q` wrote go to their homes, each under a number; all write-backs of its bytes that are under way,
whichever partition's draw or fence sent them (R198, R349). -/
def flushRemote (draw : Bool) (q : Nat) (s : State) : List Nat × State :=
  let s := forEach (s.lines.filter fun l => l.far && l.writers.contains q && l.dirty != 0) (fun l s => (farWrite draw l s).2) s
  (((inFlight (isFarWrite q) s).map (·.id)).eraseDups, s)
/-- A line leaves its slice: private copies are merged (R205), dirty bytes go to their home, those of a cached host line to the address that its
translation gave (R47), stamps stay, the record stays only in local HBM (R209). -/
def leaveSlice (ln : SLine) (s : State) : State :=
  let (ln, s) := match ln.st with | .privatised ms => mergePrivate ms ln s | _ => (ln, s)
  let hbm := match ln.place with | .hbm _ => true | _ => false
  let (_, s) := farWrite false ln s
  let s := match ln.place with
    | .host _ => if ln.dirty = 0 then s else { s with hostOut := s.hostOut ++ [(2 ^ 64 + ln.hpa, ln.data)] }
    | _ => s
  setLine { ln with present := false, st := .shared, cuts := [], dirty := 0, launches := [], writers := [], record := if hbm then ln.record else 0, data := if hbm then [] else ln.data } s
/-- Lines a slice may hold of a partition (R60). -/
def sliceLimit (q : Nat) (s : State) : Nat := min 96 (ctlFld (.partLim q) 8 7 s) * 1024
/-- Make a slice's least recently used lines leave, as often as the fuel says: those that satisfy a test, never a pinned or a busy one. -/
def evictLines (p : SLine → Bool) (sl : Nat) : Nat → State → State
  | 0, s => s
  | fuel + 1, s =>
    match minBy? SLine.used (s.lines.filter fun l => l.present && l.attr == 0 && l.st != .held && l.waiting.isEmpty && p l && l.slice s == sl) with
    | some v => evictLines p sl fuel (leaveSlice v s)
    | none => s
/-- Evict what a partition holds in a slice beyond slc, then what the slice's 6 MiB, 98,304 lines, do not hold (R1, R60). -/
def evictSlice (q sl : Nat) (s : State) : State :=
  let here (s : State) (p : SLine → Bool) : Nat := (s.lines.filter fun l => l.present && l.inSlice && p l && l.slice s == sl).length
  let s := evictLines (fun l => l.part == q) sl (here s (fun l => l.part == q) - sliceLimit q s) s
  evictLines (fun _ => true) sl (here s (fun _ => true) - 98304) s
/-- Evict beyond the limits in the slice of an address. -/
def evictAt (va : Nat) (key : Byte) (s : State) : State :=
  match lineAt va key s with
  | some l => if l.inSlice then evictSlice l.part (l.slice s) s else s
  | none => s
/-- The slice line a translated page gives an address: a line known before keeps its stamps and, in local HBM, its record; one that was not has
those of the oldest lease there may be (R200); a CXL home gives its bytes at once. -/
def fillLine (r : Req) (va : Nat) (t : Trans) (attr : Nat) (s : State) : SLine :=
  let ln : SLine := match lineAt va t.key s with
    | some l => { l with place := t.place, attr := attr, loc := t.loc, page := t.page va, present := true, filled := s.ck, used := s.ck, part := if l.dirty = 0 then r.part else l.part }
    | none =>
      let l : SLine := { va := va, key := t.key, place := t.place, attr := attr, loc := t.loc, page := t.page va, filled := s.ck, used := s.ck, part := r.part }
      { l with wts := firstStamp (l.die s) s, rts := firstStamp (l.die s) s }
  match ln.place with
  | .cxl h pa => { ln with data := ln.fresh (s.cxlMem.readN (h * 2 ^ 52 + pa) 64) }
  | _ => ln
/-- The lease of a line homed elsewhere has run out: 64 µs after its fill. Its dirty bytes lie over what its home then gives (R198). -/
def staleRemote (ln : SLine) (s : State) : Bool := ln.far && decide (ln.filled + 64 * usCk < s.ck)
/-- The slice draws on an ember without an acquirer, for flips, mapping operations and resets: the line is Held until the draw is over (R205, R214,
R216). -/
def drawFree (x : Ember) (s : State) : State :=
  let s := match lineAt (vaOf x.line) (keyOf x.line) s with
    | none => s
    | some ln => let (ln, s) := (match ln.st with | .privatised ms => mergePrivate ms ln s | _ => (ln, s)); setLine { ln with st := .held } s
  sendDraw x s
/-- Draw on every undrawn ember that satisfies a test; whether all are drawn (R51, R66, R216). -/
def drawEvery (p : Ember → Bool) (s : State) : Bool × State :=
  let open_ := s.embers.filter fun e => p e && !e.drawn
  (open_.isEmpty, forEach (open_.filter fun e => !e.drawing) drawFree s)

/-! ## Host memory (R47 to R49) -/

/-- Atomics that exist as PCIe AtomicOps (R49). -/
def pcieAtomic (r : Req) : Bool :=
  let w := !r.items.isEmpty && r.items.all fun i => i.size == 4 || i.size == 8
  match r.op with
  | .atom .add | .atom .addB32 | .atom .xchg | .atom .xchgB32 => w
  | .cas => !r.items.isEmpty && r.items.all fun i => i.size == 4 || i.size == 8 || i.size == 16
  | _ => false
/-- The old value the AtomicOp of a group of lanes is tried with: one compare-and-swap for several lanes of a location (R49, R182, log 12). -/
def hostGuess (r : Req) (g : List Item) : Option Nat := if r.op == .cas && 1 < g.length then some (g.headD default).data else none
/-- An access to a line of which no copy is kept here has been performed: the stamps, the record and the `.ar` mark of the line follow (R181,
R197). The line's stamp is answered. -/
def farDone (r : Req) (wrote : Bool) (s : State) : W32 × State :=
  match lineAt (lineVa (vaOf r.ptr)) (keyOf r.ptr) s with
  | none => (0, s)
  | some ln =>
    let ln := if wrote || r.isRel then coverBytes r (itemsMask r.items) (stampWrite r ln s) s else if r.byCore then { ln with rts := readStamp r ln s } else ln
    let ln := { ln with record := recordAfter r wrote ln, ar := ln.ar || (wrote && r.ord == .ar) }
    (ln.wts, setLine ln s)
/-- The access of an agent that tries again stands as one under way: its home, and whether that home has counted it. -/
def asked (r : Req) (s : State) : Option (HomeSel × Bool) :=
  if r.isSync then (s.asks.find? fun a => a.1 == syncKeyOf r && a.2.1 == linePtr r.ptr).map (·.2.2) else none
/-- An access of an agent that tries again is under way: it keeps the home it was sent to (R142). -/
def noteAsk (r : Req) (s : State) : State :=
  if !r.isSync || (asked r s).isSome then s else { s with asks := s.asks ++ [(syncKeyOf r, linePtr r.ptr, reqHome r s, false)] }
/-- Its home has counted it: it counts there once, and goes on whatever becomes of the partition's leave (R48, R163). -/
def countAsk (r : Req) (s : State) : State :=
  { s with asks := updWhere (fun a => a.1 == syncKeyOf r && a.2.1 == linePtr r.ptr) (fun a => (a.1, a.2.1, a.2.2.1, true)) s.asks }
/-- The accesses made under a number are over. -/
def endAsk (id : Nat) (s : State) : State := { s with asks := s.asks.filter fun a => a.1 != id + 1 }
/-- The request as it is tried again. -/
def again (r : Req) (s : State) : Req :=
  match asked r s with | some (h, c) => { r with home := some h, counted := r.counted || c, passed := r.passed || c } | none => r
/-- The requests of one atomic instruction's other passes for a line, not sent yet (R182, R338). -/
def siblings (r : Req) (s : State) : List LsuEnt :=
  if r.agent != .team || !r.isRmw then []
  else match s.lsu.find? fun e => e.id == r.id with
    | none => []
    | some e => s.lsu.filter fun x => x.group == e.group && x.phase == .held && linePtr x.req.ptr == linePtr r.ptr && x.req.isRmw && decide (r.id < x.id)
/-- The entries are sent. -/
def markSent (es : List LsuEnt) (s : State) : State :=
  { s with lsu := updWhere (fun x => es.any fun y => y.id == x.id) (fun x => { x with phase := .sent }) s.lsu }
/-- An atomic that is performed outside the module goes as one request with the other passes' lanes on its line, so that no other write comes
between those of one location (R182). -/
def joinPasses (r : Req) (s : State) : Req × State :=
  let sibs := siblings r s
  ({ r with items := r.items ++ sibs.flatMap (·.req.items) }, markSent sibs s)
/-- An access to a never-cached host page, which has met the acquire's and release's courses (R47, R49, R197). -/
def hostUncached (r : Req) (iova : Nat) (a : AcqAns) (s : State) : Ans × State :=
  let key := syncKeyOf r
  match r.op with
  | .query => (.data { req := r, acq := a }, s)
  | .atom _ | .cas =>
    let (r, s) := joinPasses r s
    if pcieAtomic r then (.later, forEach (atomLocations r) (fun g s => sendLinkWith .hostAtomic { r with items := g } iova (hostGuess r g) s) s)
    else (.nack { req := r, status := 9 }, s)
  | op =>
    if r.isSync then
      match s.got.find? fun g => g.1 == key && g.2.1 == iova with
      | some (_, _, some bs) =>
        let (w, s) := farDone r (op == .write) { s with got := s.got.filter fun g => !(g.1 == key && g.2.1 == iova) }
        if op == .write then (.ack { req := r, wts := w, acq := a }, s)
        else (.data { req := r, vals := r.items.map (itemValue bs), line := bs, wts := w, acq := a }, s)
      | some (_, _, none) => (.nack { req := r, status := 4 }, { s with got := s.got.filter fun g => !(g.1 == key && g.2.1 == iova) })
      | none =>
        if s.links.any (fun l => l.addr == iova && syncKeyOf l.req == key && l.req.isSync) then (.later, s)
        else (.later, sendLink (if op == .write then .hostWrite else .hostRead) r iova s)
    else (.later, sendLink (if op == .write then .hostWrite else .hostRead) r iova s)
/-- Ask for CXL.cache ownership of a cached host line, after the ATS translation of its page (R47, R48); a translation that grants reads
only is asked for again when a write needs it. -/
def hostCached (r : Req) (ln : SLine) (iova : Nat) (s : State) : Ans × State :=
  let q := pasidOf r.part s
  if r.isSync && s.got.any (fun g => g.1 == syncKeyOf r && g.2.1 == iova && g.2.2.isNone) then
    (.nack { req := r, status := 4 }, { s with got := s.got.filter fun g => !(g.1 == syncKeyOf r && g.2.1 == iova) })
  else
  match s.atc.find? fun a => a.1 == q && a.2.1 == iova / 4096 && (a.2.2.2 || !r.forWrite) with
  | none =>
    if s.links.any (fun l => l.kind == .ats && l.addr == iova && l.req.ptr == r.ptr) && r.isSync then (.later, s)
    else (.later, sendLink .ats { r with counted := true, passed := true } iova s)
  | some (_, _, hpa, w) =>
    let at_ := hpa * 4096 + iova % 4096
    let s := setLine { ln with st := .held, readOnly := !w, hpa := at_, waiting := if r.isSync then [] else [{ r with passed := true }] } s
    (.later, sendLink .own r at_ s)

/-! ## Requests (R142, R148, R153) -/

/-- The slice line of an address on another module; one that is not known has no bytes yet. -/
def remoteLine (r : Req) (m : Nat) (s : State) : SLine :=
  (lineAt (lineVa (vaOf r.ptr)) (keyOf r.ptr) s).getD
    (let l : SLine := { va := lineVa (vaOf r.ptr), key := keyOf r.ptr, place := .remote m, part := r.part, data := List.replicate 64 0, present := false }
     { l with wts := firstStamp (l.die s) s, rts := firstStamp (l.die s) s })
/-- A line that lies on another module is fetched from its home (R142, R196, R198). -/
def remoteMiss (r : Req) (m : Nat) (s : State) : Ans × State :=
  let va := lineVa (vaOf r.ptr)
  let mine (g : Nat × Nat × Option (List Byte)) : Bool := r.isSync && g.1 == syncKeyOf r && g.2.1 == 2 ^ 60 + va
  match s.got.find? mine with
  | some (_, _, x) =>
    let b (i : Nat) : Nat := ((x.getD []).getD i 0).toNat
    (.nack { req := r, status := b 0, level := b 1, home := b 2, slot := b 3 }, { s with got := s.got.filter fun g => !mine g })
  | none =>
  let (id, s) := fresh s
  let rd : Req := { id := id, agent := .slice, core := 255, part := r.part, op := .read, ptr := linePtr r.ptr, home := some (.remote m) }
  let ln := { remoteLine r m s with present := false, st := .held, ver := s.sysver, kept := 0, waiting := if r.isSync then [] else [r], used := s.ck }
  (.later, sendRemoteFor (syncKeyOf r) m rd (setLine ln s))
/-- A request at its home: held page, translation, key, and the place the leaf names. -/
def miss (r : Req) (h : Nat) (s : State) : Ans × State :=
  let va := vaOf r.ptr
  let line := lineVa va
  let (ans, s) := translate h (keyOf r.ptr) va s
  match ans with
  | .absent l => faultAnswer r h 8 l (faultKind r s) s
  | .key => faultAnswer r h 9 7 (faultKind r s) s
  | .malformed => (.nack { req := r, status := 6, home := h }, s)
  | .ok t =>
    let g := match t.place with | .hbm pa => some (pa / 2 ^ 16) | _ => none
    if flipHolds g r s then park r s
    else
      let s := countAsk r (hotSample h r t s)
      match t.place with
      | .host iova =>
        if !pasidOn r.part s && !r.passed then (.nack { req := r, status := 7 }, s)
        else if t.attr = 1 then
          let ln := { fillLine r line t 1 s with present := false }
          if mismatches r ln then (.data { req := r, wts := ln.wts, mismatch := some ln.record }, s)
          else meet r ln (setLine ln s) (hostUncached r iova)
        else hostCached r (fillLine r line t 0 s) iova s
      | _ =>
        let (attr, s) := effAttr r.part va t s
        let ln := fillLine r line t attr s
        let s := setLine ln s
        let s := if attr = 2 then fitSram t.loc 64 (claimCache t.loc r.part 64 s) else s
        let (a, s) := serve false r ln s
        (a, evictAt ln.va ln.key s)
/-- The I/O die that packets to and from a module cross: ports 0 to 3 are on IO0, 4 to 7 on IO1 (R10). -/
def portDie (m : Nat) (s : State) : Nat := match routePort m s with | some p => 4 + p / 4 | none => 4
/-- The Flue links a request needs: from its agent to the line's die, and on to the home of the line or the port to its module (R10). A host access
names a physical address, whose low 16 bits are those of every address mapped to it. -/
def flueNeeds (r : Req) (s : State) : List Nat :=
  let low := vaOf r.ptr / 2 ^ 14 % 4
  let ln := if r.agent = .host then s.lines.find? fun l => l.place == .hbm (r.ptr.toNat / 64 * 64) else lineAt (lineVa (vaOf r.ptr)) (keyOf r.ptr) s
  let d := ln.elim low fun l => l.die s
  let from_ := match r.agent with
    | .team | .fetch | .engine _ | .ctrl => dieOf r.core s
    | .lfe | .host => 4
    | .peer m _ => portDie m s
    | .slice => d
  fluePath from_ d ++ (match (if r.agent = .host then HomeSel.local (low * 8) else reqHome r s) with
    | .local h => if 32 ≤ h then fluePath d 4 else fluePath d (h / 8)
    | .remote m => fluePath d (portDie m s)
    | .none => [])
/-- A request needs a Flue link that has failed (R12). -/
def flueCut (r : Req) (s : State) : Bool := !s.flueDown.isEmpty && (flueNeeds r s).any s.flueDown.contains
/-- The LFE's release at system scope to another module's line, which it tries until the answer has come: whether it was performed, or the negative
reply (R99). -/
def remoteSignal (r : Req) (m : Nat) (s : State) : Ans × State :=
  let mine (g : Nat × Nat × Option (List Byte)) : Bool := g.1 == syncKeyOf r && g.2.1 == 2 ^ 61 + lineVa (vaOf r.ptr)
  let s' := { s with got := s.got.filter fun g => !mine g }
  match s.got.find? mine with
  | some (_, _, none) => (.ack { req := r }, s')
  | some (_, _, some bs) =>
    let b (i : Nat) : Nat := (bs.getD i 0).toNat
    (.nack { req := r, status := b 0, level := b 1, home := b 2, slot := b 3 }, s')
  | none =>
    if s.links.any fun l => l.req.agent == .lfe && l.req.id == r.id && l.req.ptr == r.ptr then (.later, s)
    else
      let ln := remoteLine r m s
      meet r ln s fun _ s => (.later, sendRemoteFor (syncKeyOf r) m r (leaveSlice ((lineAt ln.va ln.key s).getD ln) s))
/-- An access of a line homed on another module: at system scope it goes there once the slice's record and ember are met (R209, R212, R213);
else it is served from the slice's copy, which its lease must cover (R198). -/
def remoteAccess (r : Req) (m : Nat) (s : State) : Ans × State :=
  let ln := remoteLine r m s
  if ln.st == .held then serve false r ln s
  else if r.agent == .lfe && r.isRel && r.scope == .sys then remoteSignal r m s
  else if r.direct then
    if mismatches r ln then (.data { req := r, wts := ln.wts, mismatch := some ln.record }, s)
    else meet r ln s fun a s =>
      if r.op == .query then (.data { req := r, wts := ln.wts, acq := a }, s)
      else if r.op == .write && itemsMask r.items = 0 then (.ack { req := r, wts := ln.wts }, s)
      else
        let (r, s) := joinPasses r s
        (.later, sendRemote m r (leaveSlice ((lineAt ln.va ln.key s).getD ln) s))
  else if ln.present && !staleRemote ln s then serve false r ln s
  else remoteMiss r m s
/-- A request at its point of coherence (R140, R142, R196); over a failed Flue link it is answered poisoned (R12). A host that stores to a line that
a slice holds takes it back first: whether it has done so since the last access is free (R47, R191, log 95). A present line of a host
page is served while the partition may reach host memory, and written while its translation grants it; what has gone on to the host completes
whatever the partition may then (R48). -/
def access (r : Req) (s : State) : Ans × State :=
  let r := again r s
  let s := noteAsk r s
  let va := vaOf r.ptr
  if flueCut r s then (.nack { req := r, status := 4 }, s) else
  match reqHome r s with
  | .none => (.nack { req := r, status := 6 }, s)
  | .remote m => remoteAccess r m s
  | .local h =>
    if mapHolds va s then park r s
    else match lineAt (lineVa va) (keyOf r.ptr) s with
      | some ln =>
        if flipHolds ln.granule r s then park r s
        else if ln.st == .held then serve false r ln s
        else if ln.present && ln.attr != 1 && !staleRemote ln s then
          match ln.place with
          | .host iova =>
            if !pasidOn r.part s && !r.passed && r.agent != .ctrl then (.nack { req := r, status := 7 }, s)
            else
              let (taken, s) := if r.passed || r.agent == .ctrl then (false, s) else toss s
              if taken then miss r h (leaveSlice ln s)
              else if r.forWrite && ln.readOnly then hostCached r ln iova s
              else serve false r ln s
          | _ => serve false r ln s
        else miss r h s
      | none => miss r h s

/-! ## Replies (R218, R22) -/

/-- The bytes a peer's request reads back, with the signature and vclock of a drawn ember (R22). -/
def peerBytes (r : Req) (rsp : Rsp) : List Byte :=
  (match r.op with
  | .read => rsp.line
  | _ => r.items.zip rsp.vals |>.flatMap fun x => bytesOfNat x.1.size x.2)
  ++ (match rsp.acq with | .drawn sig v _ => bytesOfNat 32 sig.toNat ++ (List.range 4).flatMap (fun i => bytesOfNat 4 (v.getD i 0).toNat) | _ => [])
/-- The wire status of a scope record that did not match a peer's acquire: 10 or 11, beyond those that R21 lists (R209, log 76). -/
def mismatchStatus (f : Nat) : Nat := 8 + f % 4
/-- Send the answer of a point of coherence to whoever made the request. A negative reply to a peer has no field for the level, the slot and whether
the host holds the entry (R21, R155, log 76); one to the host is a poisoned completion (R12). -/
def deliver (r : Req) (a : Ans) (s : State) : State :=
  match r.agent with
  | .fetch =>
    match a with
    | .data rsp => cause (.instructionFetch { team := r.team, ptr := r.ptr, status := if rsp.poison then 4 else 0, bytes := rsp.vals.flatMap (bytesOfNat 8), spec := if r.spec then r.id else 0 }) s
    | .nack n => cause (.instructionFetch { team := r.team, ptr := r.ptr, status := n.status, level := n.level, home := n.home, slot := n.slot
                                            hostHeld := n.hostHeld, spec := if r.spec then r.id else 0 }) s
    | _ => s
  | .peer .. =>
    match s.peers.find? fun p => p.1 == r.id with
    | none => s
    | some (_, p) =>
      let s' := { s with peers := s.peers.filter fun x => x.1 != r.id }
      match a with
      | .data rsp =>
        (match rsp.mismatch with
        | some f => sendReply p 0x12 (mismatchStatus f) [] s'
        | none => if r.op != .read && p.sub.testBit 15 then sendReply p 0x11 0 [] s' else sendReply p 0x10 0 (peerBytes r rsp) s')
      | .ack _ => sendReply p 0x11 0 [] s'
      | .nack n => sendReply p 0x12 (if n.status = 8 then 3 else n.status) [] (if n.status = 1 ∨ n.status = 2 then s else s')
      | .later => s
  | .engine _ | .lfe => s
  | .host =>
    match a with
    | .data rsp => { s with hostOut := s.hostOut ++ [(2 * 2 ^ 64 + r.team, rsp.vals.flatMap fun v => bytesOfNat ((r.items.headD default).size) v)] }
    | .ack _ => { s with hostOut := s.hostOut ++ [(3 * 2 ^ 64 + r.team, [])] }
    | .nack _ => { s with hostOut := s.hostOut ++ [(5 * 2 ^ 64 + r.team, [])] }
    | .later => s
  | _ =>
    match a with
    | .data rsp => cause (.rdrsp rsp) s
    | .ack k => cause (.ack k) s
    | .nack n => cause (.nack n) s
    | .later => s
/-- A host request for device memory (R50): `ptr` is the physical address. A granule being flipped or a page under change holds it; it is
served at the line of that place, or, where no line has been used, in memory itself. -/
def hostServe (r : Req) (s : State) : Ans × State :=
  let pa := r.ptr.toNat / 64 * 64
  let ln := s.lines.find? fun l => l.place == .hbm pa
  if flueCut r s then (.nack { req := r, status := 4 }, s)
  else if flipHolds (some (pa / 2 ^ 16)) r s || (match ln with | some l => mapHolds l.va s | none => false) then
    (.later, modHome 0 (fun h => { h with held := h.held ++ [r] }) s)
  else
    match ln with
    | some l => serve true r l s
    | none =>
      let (bs, vals, mask) := runItems r.op (s.mem.readN pa 64) r.items
      if mask = 0 then (.data { req := r, vals := vals }, s) else (.ack { req := r }, { s with mem := s.mem.writeN pa bs })
/-- Serve a request: its answer is sent as soon as there is one; the other requests of one atomic instruction for the same line follow at
once, so that no other write comes between (R182). -/
def handle (r : Req) (s : State) : State :=
  let (a, s) := if r.agent == .host then hostServe r s else access r s
  let s := deliver r a s
  match a with
  | .later => s
  | _ =>
    let sibs := siblings r s
    forEach sibs (fun x s => let q := { x.req with pts := r.pts, vw := r.vw, vd := r.vd }; let (a, s) := access q s; deliver q a s) (markSent sibs s)
/-- A line is on its way to its slice from its home. -/
def fetching (p : W64) (s : State) : Bool := s.links.any fun l => (l.kind == .own || (l.req.agent == .slice && l.req.op == .read)) && linePtr l.req.ptr == p
/-- Requests that waited for a line are served in the order they came (R205, R214 step 5). -/
def serveWaiting (va : Nat) (key : Byte) (s : State) : State :=
  match lineAt va key s with
  | none => s
  | some ln =>
    let s := setLine { ln with st := .shared, waiting := [] } s
    forEach ln.waiting handle s
/-- Requests held at the homes are released in order (R51, R154). -/
def releaseHeld (s : State) : State :=
  let rs := s.homes.flatMap fun h => h.2.held
  forEach rs handle { s with homes := s.homes.map fun h => (h.1, { h.2 with held := [] }) }

/-! ## Lines that another module's home fills (R142, R196, R198) -/

/-- The line has come: bytes that this module holds for it already lie over it; the requests that waited are served. One that was asked for under
an older system version is asked for again (R213). -/
def remoteFilled (r : Req) (bs : List Byte) (s : State) : State :=
  match lineAt (lineVa (vaOf r.ptr)) (keyOf r.ptr) s, reqHome r s with
  | none, _ => s
  | some ln, .remote m =>
    if ln.st != .held then s
    else if ln.ver != s.sysver then sendRemote m r (setLine { ln with ver := s.sysver } s)
    else
    let ln := { ln with data := ln.fresh bs, kept := 0 }
    evictAt ln.va ln.key (serveWaiting ln.va ln.key (setLine { ln with present := true, filled := s.ck, used := s.ck, st := .shared } s))
  | some _, _ => s
/-- The home refuses the line: every request that waited is answered so; an agent that tries again finds the status (log 5). -/
def remoteRefused (n : NackMsg) (s : State) : State :=
  match lineAt (lineVa (vaOf n.req.ptr)) (keyOf n.req.ptr) s with
  | none => s
  | some ln =>
    let s := setLine { ln with st := .shared, present := false, waiting := [], kept := 0 } s
    let s := if n.who = 0 then s else { s with got := s.got ++ [(n.who, 2 ^ 60 + ln.va, some ([n.status, n.level, n.home, n.slot].map (BitVec.ofNat 8)))] }
    forEach ln.waiting (fun r s => deliver r (.nack { req := r, status := n.status, level := n.level, home := n.home, slot := n.slot, hostHeld := n.hostHeld }) s) s

end Sys2Proof.Machine
end

