-- ==== Sys2Proof/Machine/Operands.lean ====
section
/-! DEFINITION. What an instruction reads and writes (R115, R116, R247), the hints it accepts (R274), the tests before it has any
effect in the order of R266, and what every issued instruction does besides its own effect: sig, hint latch, pc (R120, R269). -/

namespace Sys2Proof.Machine

/-- A register an instruction names. -/
inductive RegName
  | s (r : Reg) | v (r : Reg)
deriving DecidableEq, Repr

/-- The registers an instruction reads (with its trap-on-empty bit's number when that bit is 1) and writes, the hints it accepts
beside `hint.sched`, its issue class (R108) and the ck each pass holds its unit (R306). -/
structure Use where
  src : List (RegName × Option Nat) := []
  dst : List RegName := []
  imm : Bool := false
  off : Bool := false
  mod : Bool := false
  vector : Bool := false
  perPass : Nat := 1
  onePass : Bool := false
deriving DecidableEq, Repr

/-- A scalar source with its trap-on-empty bit. -/
def sA (r : Reg) (t : Bool := false) (n : Nat := 0) : List (RegName × Option Nat) := [(.s r, if t then some n else none)]
/-- A vector source, or a pair. -/
def vA (r : Reg) (t : Bool := false) (n : Nat := 0) (pair : Bool := false) : List (RegName × Option Nat) :=
  (.v r, if t then some n else none) :: (if pair then [(.v (regNext r), if t then some n else none)] else [])
/-- A scalar pair without a bit. -/
def sPair (r : Reg) : List (RegName × Option Nat) := sA r ++ sA (regNext r)
/-- A vector destination, or a pair. -/
def vD (r : Reg) (pair : Bool := false) : List RegName := .v r :: (if pair then [.v (regNext r)] else [])
/-- Vector registers r to r + n - 1. -/
def vRange (r n : Nat) : List RegName := (List.range n).map fun i => .v ⟨(r + i) % 64, Nat.mod_lt _ (by decide)⟩

/-- A three-operand scalar form (R286). -/
def useS (d a b : Reg) (ta tb : Bool) : Use := { src := sA a ta 0 ++ sA b tb 1, dst := [.s d] }
/-- A vector form with two vector sources (R310, R316); `rd` says whether the old destination is read. -/
def useV (w rd : Bool) (d a b : Reg) (ta tb : Bool) (pp : Nat) : Use :=
  { src := vA a ta 0 w ++ vA b tb 1 w ++ (if rd then vA d false 0 w else []), dst := vD d w, vector := true, perPass := pp }
/-- A vector form with one vector source. -/
def useV1 (w : Bool) (d a : Reg) (ta : Bool) (pp : Nat) : Use := { src := vA a ta 0 w, dst := vD d w, vector := true, perPass := pp }
/-- A floating-point vector form: it accepts `hint.mod` (R307). -/
def Use.fp (u : Use) : Use := { u with mod := true }
/-- A mask instruction: one pass whatever k0 (R108, R298). -/
def useK (src : List (RegName × Option Nat)) (dst : List RegName) : Use := { src := src, dst := dst, vector := true, onePass := true }
/-- A load or store to memory or scratchpad (R333, R336): `vi`: vector index, `ve`: vector data. -/
def useMem (store vi ve : Bool) (d a b : Reg) (ta tb pair off : Bool) : Use :=
  let dat := if ve then vA d false 0 pair else sA d
  { src := sA a ta 0 ++ (if vi then vA b tb 1 else sA b tb 1) ++ (if store then dat else [])
    dst := if store then [] else if ve then vD d pair else [.s d], off := off, vector := ve }

/-- Scale registers of `mloop` (R367): both ranges under the shape latch, for every step of the loop word. -/
def mloopRegs (t : Team) (cfgSra cfgSrb steps sel : Nat) (adv : Bool) : List RegName :=
  let (m, n, fmt) := t.shape
  if fmt = 2 ∨ fmt = 3 ∨ fmt = 4 then
    let hi := if steps = 0 then 0 else (sel + (if adv then steps - 1 else 0)) / 4 + 1
    let lo := sel / 4
    let ra := (m + t.width - 1) / t.width
    let rb := (n + t.width - 1) / t.width
    if steps = 0 then []
    else vRange (cfgSra + ra * lo) (ra * (hi - lo)) ++ vRange (cfgSrb + rb * lo) (rb * (hi - lo))
  else []
/-- `mloop`'s sel: ctl[1:0] and the bx of a `hint.mod` (R364). -/
def Team.msel (t : Team) (sel : Fin 4) : Nat := sel.val + (if t.hint.modv then 4 * t.hint.bx.toNat else 0)

/-- A scalar source that says which registers a word names; while it is empty it names none, and the word waits for it first (R250, R266). -/
def Team.naming (t : Team) (r : Reg) : W64 := if (t.sreg r).full then t.gs r else 0
/-- What an instruction reads, writes and accepts, for a team that issues it. Registers whose number depends on a register's value
(`midx`, `mloop`, `mmov`) are those of the values the team holds (R366, R367, R370). -/
def useOf (t : Team) : Instr → Use
  | .sadd d a b ta tb | .ssub d a b ta tb | .smul d a b ta tb | .smulhI64 d a b ta tb | .smulhN64 d a b ta tb
  | .sdivI64 d a b ta tb | .sdivN64 d a b ta tb | .sremI64 d a b ta tb | .sremN64 d a b ta tb | .sand d a b ta tb
  | .sor d a b ta tb | .sxor d a b ta tb | .sandn d a b ta tb | .sshl d a b ta tb | .sshr d a b ta tb | .ssra d a b ta tb
  | .sminI64 d a b ta tb | .sminN64 d a b ta tb | .smaxI64 d a b ta tb | .smaxN64 d a b ta tb | .sbfxI64 d a b ta tb
  | .sbfxN64 d a b ta tb | .scmp _ d a b ta tb => useS d a b ta tb
  | .ssel d a b ta tb | .sbfi d a b ta tb => { src := sA a ta 0 ++ sA b tb 1 ++ sA d, dst := [.s d] }
  | .sclz d a ta | .sctz d a ta | .spopc d a ta | .smov d a ta => { src := sA a ta 0, dst := [.s d] }
  | .saddi d a ta _ | .sandi d a ta _ | .sori d a ta _ | .sxori d a ta _ => { src := sA a ta 0, dst := [.s d], imm := true }
  | .sshli d a ta _ | .sshri d a ta _ | .ssrai d a ta _ => { src := sA a ta 0, dst := [.s d] }
  | .smovi d _ => { dst := [.s d], imm := true }
  | .smovSpecial d _ => { dst := [.s d] }
  | .vadd w d a b ta tb | .vsub w d a b ta tb | .vand w d a b ta tb | .vor w d a b ta tb | .vxor w d a b ta tb
  | .vandn w d a b ta tb | .vshl w d a b ta tb | .vshr w d a b ta tb | .vsra w d a b ta tb | .vminI w d a b ta tb
  | .vminN w d a b ta tb | .vmaxI w d a b ta tb | .vmaxN w d a b ta tb => useV w false d a b ta tb 1
  | .vmul w d a b ta tb | .vmulhI w d a b ta tb | .vmulhN w d a b ta tb => useV w false d a b ta tb (if w then 2 else 1)
  | .vmad w d a b ta tb => useV w true d a b ta tb (if w then 2 else 1)
  | .vsel w d a b ta tb => useV w true d a b ta tb 1
  | .vabs w d a ta | .vclz w d a ta | .vpopc w d a ta | .vmov w d a ta => useV1 w d a ta 1
  | .vcmp _ w _ a b ta tb => { src := vA a ta 0 w ++ vA b tb 1 w, vector := true }
  | .vaddi d a ta _ => { useV1 false d a ta 1 with imm := true }
  | .vcvt x y d a ta => { src := vA a ta 0 y.wide, dst := vD d x.wide, vector := true, mod := true }
  | .vbcastB32 d a ta => { src := sA a ta 0, dst := vD d, vector := true }
  | .vlane d => { dst := vD d, vector := true }
  | .vpackB16 d a b ta tb => useV false false d a b ta tb 1
  | .vpackB8 d a b ta tb => useV false true d a b ta tb 1
  | .vunpackB16 d a b ta tb | .vunpackB8 d a b ta tb => { src := vA a ta 0 ++ sA b tb 1, dst := vD d, vector := true }
  | .vbcastB64 d a ta => { src := sA a ta 0, dst := vD d true, vector := true }
  | .kmov _ _ | .kand _ _ _ | .kor _ _ _ | .kxor _ _ _ | .kandn _ _ _ | .knot _ _ | .kif _ _ | .kelse _ | .kjoin _ | .kflag _ _
  | .flclr _ => useK [] []
  | .kpopc d _ | .kffs d _ | .kvoteAny d _ | .kvoteAll d _ => useK [] [.s d]
  | .kwrd d _ b tb | .flrd d _ b tb => useK (sA b tb 1) [.s d]
  | .kwwr _ a b ta tb => useK (sA a ta 0 ++ sA b tb 1) []
  | .vperm d a b ta tb => useV false false d a b ta tb 2
  | .vshflUp d a b ta tb | .vshflDn d a b ta tb | .vshflXor d a b ta tb =>
    { src := vA a ta 0 ++ sA b tb 1, dst := vD d, vector := true, perPass := 2 }
  | .vext d a b ta tb => { src := vA a ta 0 ++ sA b tb 1, dst := [.s d], vector := true, onePass := true }
  | .vins d a b ta tb => { src := sA a ta 0 ++ sA b tb 1 ++ vA d, dst := vD d, vector := true, onePass := true }
  | .vred _ w d a ta => { src := vA a ta 0 w, dst := [.s d], vector := true }
  | .vscan o w _ d a ta => useV1 w d a ta (if o.isFloat then 2 else 1)
  | .vfadd _ d a b ta tb | .vfsub _ d a b ta tb | .vfmul _ d a b ta tb | .vfmin _ d a b ta tb | .vfmax _ d a b ta tb
  | .vfsgn _ d a b ta tb | .vfsgnNeg _ d a b ta tb | .vfsgnXor _ d a b ta tb => (useV false false d a b ta tb 1).fp
  | .vffma _ d a b ta tb => (useV false true d a b ta tb 1).fp
  | .vfdiv _ d a b ta tb => (useV false false d a b ta tb 4).fp
  | .vfclass _ d a ta | .vfround _ d a ta => (useV1 false d a ta 1).fp
  | .vfrcp _ d a ta | .vfrsqrt _ d a ta | .vfsqrt _ d a ta => (useV1 false d a ta 2).fp
  | .vfexp2 _ d a ta | .vflog2 _ d a ta | .vfsinp _ d a ta | .vfcosp _ d a ta => (useV1 false d a ta 4).fp
  | .vfcmp _ _ _ a b ta tb => { src := vA a ta 0 ++ vA b tb 1, vector := true, mod := true }
  | .vfcvt _ _ d a ta => (useV1 false d a ta 1).fp
  | .sld d a b ta tb _ _ _ => useMem false false false d a b ta tb false true
  | .sst d a b ta tb _ _ _ => useMem true false false d a b ta tb false true
  | .vld d a b ta tb z _ _ | .xld d a b ta tb z _ _ => useMem false true true d a b ta tb (z == .b64) true
  | .vst d a b ta tb z _ _ | .xst d a b ta tb z _ _ => useMem true true true d a b ta tb (z == .b64) true
  | .vldb d a b ta tb _ _ | .xldb d a b ta tb _ _ => useMem false false true d a b ta tb false true
  | .vstb d a b ta tb _ _ | .xstb d a b ta tb _ _ => useMem true false true d a b ta tb false true
  | .satom _ d a b _ _ => { src := sA a ++ sA b, dst := [.s d], off := true }
  | .vatom _ d a b _ _ => { src := vA a false 0 true ++ vA b, dst := vD d, off := true, vector := true }
  | .scas _ d a b _ _ => { src := sA a ++ sA b ++ sA d, dst := [.s d], off := true }
  | .scas2 d a b _ _ => { src := sA a ++ sPair b ++ sPair d, dst := [.s d, .s (regNext d)], off := true }
  | .vcas d a b _ _ => { src := vA a false 0 true ++ vA b ++ vA d, dst := vD d, off := true, vector := true }
  | .waitc64 _ d a b _ _ | .waitc32 _ d a b _ _ => { src := sA a ++ sA b, dst := [.s d], off := true }
  | .fence _ _ | .fenceSc _ => {}
  | .barArr a _ => { src := sA a }
  | .barWait d _ => { dst := [.s d] }
  | .barSync d a _ => { src := sA a, dst := [.s d] }
  | .cpy d a b l => { src := sA a ++ sA b ++ sA l, dst := [.s d] }
  | .cpy2d d a b l => { src := sA a ++ sA b ++ sPair l, dst := [.s d] }
  | .mcfg a b => { src := sA a ++ sA b }
  | .midx a => { src := (vRange a.val ((128 + t.width - 1) / t.width)).map fun r => (r, none) }
  | .mloop d a b adv sel =>
    let cfg := (t.m.ops.reverse.findSome? fun o => match o.op with | .mcfg x _ => some x | _ => none)
    let (ra, rb) := match cfg, t.mcfg with
      | some x, _ => (fld x 24 6, fld x 30 6)
      | none, some c => (c.sra, c.srb)
      | none, none => (0, 0)
    let steps := min 256 (fld (t.naming d) 0 9)
    { src := sA d ++ sA a ++ sA b ++ (mloopRegs t ra rb steps (t.msel sel) adv).map fun r => (r, none), mod := true }
  | .mzero _ => {}
  | .mmovRegister d a => { src := sA a, dst := vRange d.val (min 64 (fld (t.naming a) 16 10)) }
  | .mmovScratchpad d a b => { src := sA d ++ sA a ++ sA b }
  | .mburst a => { src := sA a }
  | .cred a | .cbcast a | .cgath a => { src := sA a }
  | .efence _ d => { dst := [.s d] }
  | .ewait _ d a | .tlrd _ d a => { src := sA a, dst := [.s d] }
  | .tlwait _ d a b => { src := sA a ++ sA b, dst := [.s d] }
  | .tqenq d a b => { src := sA a ++ sPair b, dst := [.s d], off := true }
  | .tqdeq d a => { src := sA a, dst := [.s d, .s (regNext d)], off := true }
  | .tqdec d a => { src := sA a, dst := [.s d], off := true }
  | .launch d a b => { src := sA a ++ sA b, dst := [.s d] }
  | .ctlrd d => { dst := [.s d], imm := true }
  | .ctlwr a => { src := sA a, imm := true }
  | .sigchk => { imm := true }
  | .sigrd d => { dst := [.s d] }
  | .capq d a => { src := sA a, dst := [.s d] }
  | .fltinfo d a => { src := sA a, dst := [.s d, .s (regNext d), .s (regNext (regNext d)), .s (regNext (regNext (regNext d)))] }
  | .replay a b | .replayDiscard a b => { src := sA a ++ sA b }
  | .pmap d a b | .pkload d a b => { src := sA a ++ sA b, dst := [.s d] }
  | .brScalar _ a _ => { src := sA a }
  | .call a _ => { dst := [.s a] }
  | .jr a _ => { src := sA a }
  | _ => {}

/-! ## The tests before any effect (R266) -/

/-- A hint word itself (R269). -/
def isHintWord : Instr → Bool
  | .hintImm _ | .hintOff _ | .hintMod .. | .hintSched _ => true
  | _ => false
/-- The 13-bit immediate that a `hint.imm` group replaces (R270). -/
def imm13Of : Instr → BitVec 13
  | .saddi _ _ _ i | .sandi _ _ _ i | .sori _ _ _ i | .sxori _ _ _ i | .smovi _ i | .vaddi _ _ _ i => i
  | _ => 0
/-- The group that stands before an instruction is one it accepts (R269, R270, R272, R274, R391). -/
def hintAccepted (t : Team) (i : Instr) (u : Use) : Bool :=
  let h := t.hint
  !h.bad && (h.nimm == 0 || u.imm) && (!h.offv || u.off) && (!h.modv || u.mod)
    && (h.nimm == 0 || imm13Of i == 0)
    && (!h.modv || (match i with
      | .mloop .. => h.rm == 0 && !h.ftz && !h.sat
      | _ => h.bx == 0))
    && (match i with | .sigchk => h.nimm != 0 | _ => true)
/-- Instructions of handler state (R379). -/
def handlerOnly : Instr → Bool
  | .eret | .fltinfo .. | .replay .. | .replayDiscard .. | .pmap .. | .pkload .. => true
  | _ => false
/-- A word of an extension group that is absent: it accepts every hint group (R267). -/
def absentGroup (s : State) : Instr → Bool
  | .extensionWord g _ => g != 0 && !bit (ctlRaw (.feat (g.toNat / 64)) s) (g.toNat % 64)
  | _ => false
/-- A vector register the team does not have (R104, R248). -/
def badVreg (t : Team) (u : Use) : Bool :=
  (u.src.map (·.1) ++ u.dst).any fun r => match r with | .v n => decide (t.v.length ≤ n.val) | .s _ => false
/-- Ranges of `midx`, `mloop` and `mmov` that run past v63 reach vregs as well (R366, R367, R370). -/
def badRange (t : Team) : Instr → Bool
  | .midx a => decide (t.v.length < a.val + (128 + t.width - 1) / t.width)
  | .mmovRegister d a => fld (t.naming a) 16 10 != 0 && decide (t.v.length < d.val + fld (t.naming a) 16 10)
  | .mloop d _ _ adv sel =>
    let (m, n, fmt) := t.shape
    let cfg := (t.m.ops.reverse.findSome? fun o => match o.op with | .mcfg x _ => some x | _ => none)
    let (sra, srb) := match cfg, t.mcfg with
      | some x, _ => (fld x 24 6, fld x 30 6)
      | none, some c => (c.sra, c.srb)
      | none, none => (0, 0)
    let steps := min 256 (fld (t.naming d) 0 9)
    let hi := (t.msel sel + (if adv then steps - 1 else 0)) / 4 + 1
    (fmt = 2 ∨ fmt = 3 ∨ fmt = 4) && steps != 0 &&
      (decide (t.v.length < sra + (m + t.width - 1) / t.width * hi) || decide (t.v.length < srb + (n + t.width - 1) / t.width * hi))
  | _ => false
/-- ILLEGAL at the word: `some info` (R265, R381, R389). -/
def illegalAt (s : State) (t : Team) (i : Instr) (u : Use) : Option W64 :=
  if absentGroup s i then none
  else if !hintAccepted t i u then some 1
  else if badVreg t u || badRange t i || (handlerOnly i && !t.handler) then some 0
  else match i with
    | .ctlrd _ => ctlIllegal t false
    | .ctlwr _ => ctlIllegal t true
    | .extensionWord .. => some 0
    | _ => none

/-- The full bit of a named register (R103). -/
def Team.isFull (t : Team) : RegName → Bool
  | .s r => (t.sreg r).full
  | .v r => (t.vreg r).full
/-- Full and poisoned (R117). -/
def Team.isPoisoned (t : Team) : RegName → Bool
  | .s r => (t.sreg r).full && (t.sreg r).poison
  | .v r => (t.vreg r).full && (t.vreg r).poison

/-- A scratchpad load that waits at the core has yet to write the register: what reads or writes it waits on the Hob (R109, R341). -/
def Team.pending (t : Team) : RegName → Bool
  | .s _ => false
  | .v r => r != 0 && t.spq.any fun a => !a.store && (a.dst == r || (a.pair && regNext a.dst == r))
/-- The instruction names such a register. -/
def Team.interlocked (t : Team) (u : Use) : Bool := u.src.any (fun x => t.pending x.1) || u.dst.any t.pending

/-- What the tests of R266 decide before an instruction has any effect. -/
inductive Gate
  | go | illegal (info : W64) | empty (which : Nat) | wait (ss vs : List Reg) | busy | kill
deriving DecidableEq, Repr

/-- The order of R266, steps 1, 3, 4 and 5. -/
def gate (s : State) (t : Team) (i : Instr) : Gate :=
  let u := useOf t i
  match illegalAt s t i u with
  | some info => .illegal info
  | none =>
    match u.src.find? (fun x => x.2.isSome && !t.isFull x.1) with
    | some (_, some n) => .empty n
    | _ =>
      let need := (u.src.map (·.1) ++ u.dst).filter fun r => !t.isFull r
      if need.isEmpty then (if t.interlocked u then .busy else if u.src.any (fun x => t.isPoisoned x.1) then .kill else .go)
      else .wait (need.filterMap fun r => match r with | .s n => some n | .v _ => none)
                 (need.filterMap fun r => match r with | .v n => some n | .s _ => none)

/-- The offset a `hint.off` adds, sign-extended; 0 without one (R271). -/
def offOf (t : Team) : W64 := if t.hint.offv then t.hint.off.signExtend 64 else 0
/-- The active lanes of a team. -/
def Team.active (t : Team) : List Nat := lanesOf t.width t.k[0]
/-- sA + sB + off. -/
def Team.scalarPtr (t : Team) (a b : Reg) : W64 := t.gs a + t.gs b + offOf t
/-- sA + sext(vB[l]) + off. -/
def Team.lanePtr (t : Team) (a b : Reg) (l : Nat) : W64 := t.gs a + (t.lane b l).signExtend 64 + offOf t
/-- Distinct lines that the lanes of each pass touch, summed over the passes (R338). -/
def Team.passLines (t : Team) (a b : Reg) : Nat :=
  (((List.range (t.width / 32)).filter fun j => maskWord t.k[0] j != 0).map fun j =>
    ((t.active.filter fun l => l / 32 == j).map fun l => linePtr (t.lanePtr a b l)).eraseDups.length).sum
/-- The ck an instruction holds its unit: one pass for each non-empty word of k0, one ck where there is none (R107, R108, R306); `vld` and
`vst` a ck for each line that a pass touches (R338). -/
def costOf (t : Team) (i : Instr) : Nat :=
  match i with
  | .vld _ a b .. | .vst _ a b .. => max 1 (t.passLines a b)
  | _ =>
    let u := useOf t i
    let n := activeWords t.width t.k[0]
    if u.vector && !u.onePass && n != 0 then n * u.perPass else 1

/-! ## Issuing -/

/-- Words whose sig returns to its start after they are fed (R121). -/
def resetsSig : Instr → Bool
  | .brScalar .. | .brMask .. | .jmp _ | .call .. | .jr .. | .nop | .exit => true
  | _ => false
/-- sig after the word issues: nothing is fed in handler state (R120), at the re-execution of R386, or by `sigchk` (R121). -/
def fedSig (t : Team) (i : Instr) (escaped : Bool) : W32 :=
  match i with
  | .sigchk | .eret => t.sig
  | _ =>
    if t.handler || t.reexec.isSome then t.sig
    else if resetsSig i then sigStart
    else crcBytes t.sig (sigStream (encodeWord i) escaped (match i with | .kjoin _ => true | _ => false))
/-- What an issued instruction does to its team `t` besides its effect: sig, hint latch, pc, issue slot, which it holds as the team stood
(`t0`) when its first pass issued (R107); after the re-execution of R386
the restored k0 governs. -/
def Team.retire (t0 t : Team) (i : Instr) (escaped : Bool) (npc : W64) (ck : Nat) : Team :=
  let t' := { t with sig := fedSig t i escaped, hint := (if isHintWord i then t.hint else {}), pc := npc, busy := ck + costOf t0 i }
  if t.handler then t'
  else match t.reexec with
    | some k => { t' with k := t'.k.set 0 k, reexec := none }
    | none => t'
/-- An issued instruction resets its launch's watchdog counter, `yield` apart (R71, R393). -/
def feedWatchdog (i : Instr) (s : State) : State :=
  match i with
  | .yield => s
  | _ => match launchOfTeam s.cur s with
    | some l => modLaunch l (fun l => { l with wdog := 0 }) s
    | none => s
/-- An instruction has issued. -/
def retire (t0 : Team) (i : Instr) (escaped : Bool) (npc : W64) (s : State) : State :=
  feedWatchdog i (modCur (fun t => t0.retire t i escaped npc s.ck) s)

/-- How an instruction's own effect ends: done (and whether a mask written escaped its enclosing mask, R120), a transfer of control, a
trap before any effect (R381: lanes, cause, info), a trap after the word has issued that resumes behind it (`trap`, `sigchk`, an
extension word; with the latch to save), not issued (it waits), or a kill. -/
inductive Eff
  | done (s : State) (escaped : Bool := false)
  | jump (s : State) (pc : W64)
  | trap (cause : Byte) (lanes : Mask) (info : W64)
  | fedTrap (s : State) (cause : Byte) (info : W64) (hint : Hint)
  | stay (s : State)
  | kill

/-- The address after the instruction. -/
def nextPc (t : Team) : W64 := t.pc + 4
/-- A trap of the team in focus at its instruction: precise, resuming at it (R381). -/
def trapAt (i : Instr) (c : Byte) (lanes : Mask) (info : W64) (s : State) : State :=
  takeTrap { cause := c, lanes := lanes, ipc := s.cur.pc, resume := s.cur.pc, word := w32 (encodeWord i), info := info, hint := s.cur.hint } s
/-- Carry out one instruction of the team in focus: the tests of R266, its effect, and what follows every issue. -/
def issueWord (i : Instr) (body : State → Eff) (s : State) : State :=
  match gate s s.cur i with
  | .illegal info => trapAt i 0x01 (fullMask s.cur.width) info s
  | .empty n => trapAt i 0x02 (fullMask s.cur.width) (w64 n) s
  | .wait ss vs => modCur (fun t => t.toShelf (.regs ss vs)) s
  | .busy => s
  | .kill => killTeam s.cur.id s
  | .go =>
    match body s with
    | .done s' e => retire s.cur i e (nextPc s.cur) s'
    | .jump s' p => retire s.cur i false p (modCur (fun t => { t with ilines := [], ahead := [] }) s')
    | .trap c l info => trapAt i c l info s
    | .fedTrap s' c info h =>
      takeTrap { cause := c, lanes := fullMask s.cur.width, ipc := s.cur.pc, resume := nextPc s.cur, word := w32 (encodeWord i), info := info,
                 hint := h } s'
    | .stay s' => s'
    | .kill => killTeam s.cur.id s
/-- A word instruction always has a next state. -/
def word (i : Instr) (body : State → Eff) (s : State) : Host.Outcome State Fault Refusal := .next (issueWord i body s)
/-- An event of the rest of the module always has a next state; in recovery mode nothing but the recovery interface responds (R29). -/
def event (f : State → State) (s : State) : Host.Outcome State Fault Refusal := .next (match s.cond with | .recovery => s | _ => f s)

/-! ## Immediates (R250, R270) -/

/-- The operand of an immediate form: the latch's imm under a `hint.imm` group, else the sign-extended field (R289). -/
def immOf (t : Team) (i : BitVec 13) : W64 := if t.hint.nimm = 0 then i.signExtend 64 else t.hint.imm

end Sys2Proof.Machine
end

