-- ==== Sys2Proof/Machine/Lsu.lean ====
section
/-! DEFINITION. The load-store unit: requests of an instruction, the order they are sent in, data-cache hits, releases, fences and
barrier arrivals, replies and fills (R114 to R117, R155 to R158, R168, R201 to R213, R330 to R354). -/

namespace Sys2Proof.Machine

/-! ## Data caches -/

/-- Write back a core's dirty bytes of a line before a release, atomic or `waitc` for it (R203). -/
def flushLine (n va : Nat) (key : Byte) (s : State) : State :=
  match (coreOf n s).line va key with
  | some d => if d.dmask = 0 then s else let (id, s) := fresh s; sendWriteBack n id d s
  | none => s
/-- Write back a list of lines, each under a number of its own (R212, R349). -/
def sendFlush (n : Nat) : List DLine → State → List Nat × State
  | [], s => ([], s)
  | d :: ds, s =>
    let (id, s) := fresh s
    let (ids, s) := sendFlush n ds (sendWriteBack n id d s)
    (id :: ids, s)
/-- Form a dirty set: the release sequence moves on (R211). -/
def takeRseq (n : Nat) (s : State) : W32 × State := ((coreOf n s).rseq, modCore n (fun c => { c with rseq := c.rseq + 1 }) s)
/-- Put a line into a core's data cache: the partition's least recently used lines go beyond its limit, and its fill may claim a unit (R59, R62). -/
def installLine (n : Nat) (d : DLine) (s : State) : State := claimCache n d.part 64 (trimPart n d.part (modCore n (fun c => c.put d) s))
/-- A relaxed write of a team of a partition and launch goes into the core's copy (R199, R203); dirty bytes of another partition in it are
written back first. -/
def writeCopy (n part launch : Nat) (d : DLine) (items : List Item) (s : State) : State :=
  let foreign := d.dmask != 0 && d.part != part
  let s := if foreign then (let (id, s) := fresh s; sendWriteBack n id d s) else s
  let d := if foreign then { d with dmask := 0, launches := [] } else d
  let s := modCore n (fun c => c.put { d with
    part := part, data := writeItems d.data items, dmask := d.dmask ||| itemsMask items, launches := if d.launches.contains launch then d.launches else d.launches ++ [launch]
    depoch := if d.dmask = 0 then c.rseq else d.depoch, since := if d.dmask = 0 then s.ck else d.since }) s
  if d.part = part ∧ !foreign then s else trimPart n part s
/-- Bytes of a reply under the core's own dirty bytes of the line (R201). -/
def mergeOwn (old : Option DLine) (bs : List Byte) : List Byte :=
  match old with | some d => writeItems bs d.items | none => bs
/-- The copy a reply brings: its lease is clamped, its versions are the core's (R199, R201, R207). -/
def copyOf (r : Req) (line : List Byte) (wts : W32) (lease : Option W32) (die : Nat) (old : Option DLine) (c : Core) : DLine :=
  let p := c.pts.toList.getD die 0
  let rts := match lease with | some x => if serLe x (p + 64) then x else p + 64 | none => p - 1
  { va := lineVa (vaOf r.ptr), key := keyOf r.ptr, part := if (old.map DLine.dmask).getD 0 = 0 then r.part else (old.map DLine.part).getD r.part
    vw := c.vw, vd := c.vd, wts := wts, rts := rts, die := die, launches := (old.map DLine.launches).getD []
    dmask := (old.map DLine.dmask).getD 0, depoch := (old.map DLine.depoch).getD 0, since := (old.map DLine.since).getD 0
    data := mergeOwn old line }
/-- The core's versions are those the request was sent under: its reply may leave a copy (R207, log 13). -/
def sameVersions (r : Req) (c : Core) : Bool := r.vw == c.vw && r.vd == c.vd

/-! ## Acquiring (R207, R213) -/

/-- The effect of an acquire's reply at its core. The whole vclock is merged at every scope: happens-before is cumulative (R9, R173, R213,
log 73). -/
def applyAcq (r : Req) (a : AcqAns) (s : State) : State :=
  match a with
  | .notAcquire | .same => s
  | .drawn sig v all =>
    let s := modCore r.core (fun c => ({ c with dl := c.dl.filter fun d => !(d.dmask == 0 && bloomHit sig d.va) }).mergeVec v) s
    if all then bumpVersion (r.scope == .wg) r.core s else s
  | .bump _ => if r.narrowWg then s else bumpVersion (r.scope == .wg) r.core s
/-- A `.sys` acquire moves the module's system version: slice lines homed elsewhere, the host's too, leave, dirty bytes going to their homes, so that
the next access fetches them; a Held one is not usable when it is served again, and one being fetched is fetched anew (R171, R191, R198, R213). -/
def bumpSystem (s : State) : State :=
  forEach (s.lines.filter fun l => (l.far || (match l.place with | .host _ => true | _ => false)) && l.present)
    (fun l s => if l.st == .held then setLine { l with present := false } s else leaveSlice l s) { s with sysver := s.sysver + 1 }
/-- The effect of an acquire, its scope included. -/
def acquired (r : Req) (a : AcqAns) (s : State) : State :=
  let s := applyAcq r a s
  match a with
  | .notAcquire => s
  | _ => if r.scope == .sys then bumpSystem s else s

/-! ## Order at the core (R155, R168, R175, R193) -/

/-- The entry is a release or a release fence, arrival, launch or queue entry: everything earlier comes first. -/
def LsuEnt.releases (e : LsuEnt) : Bool :=
  match e.kind with
  | .fence sc => sc || e.req.ord == .rel || e.req.ord == .ar
  | .barArr .. | .launch .. => true
  | .queue .deq => false
  | .queue _ => true
  | _ => e.req.isRel
/-- The entry acquires: what follows waits for it. -/
def LsuEnt.acquires (e : LsuEnt) : Bool :=
  match e.kind with
  | .fence sc => sc || e.req.ord == .acq || e.req.ord == .ar
  | .queue .deq | .queue .dec => true
  | .barArr .. | .launch .. | .pmap .. | .queue _ => false
  | _ => e.req.isAcq
/-- The entry addresses a line of global memory. -/
def LsuEnt.memory (e : LsuEnt) : Bool :=
  match e.kind with | .load | .store | .atomic | .waitc | .queue _ => true | _ => false
/-- An earlier entry of the team, not yet performed, holds a later one back. The lanes of one instruction are not ordered among themselves,
but for those of one line, which go in ascending order (R167, R182). -/
def LsuEnt.holds (x e : LsuEnt) : Bool :=
  (x.group != e.group && (e.releases || x.acquires)) || (e.memory && x.memory && linePtr x.req.ptr == linePtr e.req.ptr)
    || ((match e.kind with | .fence _ => true | _ => false) && x.kind != .store)
/-- The entries of a team's program that a home refused, and those held back behind them (R155, R193). -/
def behindRecords (team : Nat) (s : State) : List LsuEnt :=
  (s.lsu.filter fun x => x.req.team == team && !x.inh).foldl (fun l x => match x.phase with
    | .fault .. | .retry _ => l ++ [x]
    | .held => if l.any (fun y => y.holds x) then l ++ [x] else l
    | _ => l) []
/-- Entries of the team that stand before one and are not performed; a handler's accesses are not held behind those that the interrupted
program's records hold up (R155, R193), and nothing is held behind a withdrawn monitor (R295). -/
def earlierEnts (e : LsuEnt) (s : State) : List LsuEnt :=
  let l := s.lsu.filter fun x => x.req.team == e.req.team && decide (x.id < e.id) && x.phase != .fill && !x.gone
  if e.inh then (let stuck := behindRecords e.req.team s; l.filter fun x => !(stuck.any fun y => y.id == x.id)) else l
/-- Requests on their way, waiting, sent on, or with their answer on its way back. -/
def sentReqs (s : State) : List Req :=
  (s.agenda.filterMap fun i => match i with
    | .rd r | .wr r | .atom r | .ember r => some r | .wback w => some w.req
    | .rdrsp a => some a.req | .ack a => some a.req | .nack n => some n.req | _ => none)
  ++ s.lines.flatMap (·.waiting) ++ (s.homes.flatMap fun h => h.2.held) ++ s.links.map (·.req)
/-- A partition's requests from cores that are outstanding at the home of one: those of the LSU, instruction fetches, write-backs, ember queries,
and what its engines ask outside the module (R68). -/
def outstanding (r : Req) (s : State) : Nat :=
  let here (x : Req) : Bool := x.part == r.part && reqHome x s == reqHome r s
  let cores (x : Req) : Bool := match x.agent with | .team | .ctrl | .fetch | .engine _ => true | _ => false
  (((s.lsu.filter fun x => x.phase == .sent && here x.req).map (·.req.id)) ++ ((sentReqs s).filter fun x => cores x && here x).map (·.id)).eraseDups.length
/-- The partition's outstanding requests at a request's home are at their limit (R68). -/
def outFull (r : Req) (s : State) : Bool :=
  let m := ctlFld (.partQos r.part) 16 12 s
  decide ((if m = 0 then 4095 else m) ≤ outstanding r s)
/-- The entry is a line request that the LSU tracks: an armed monitor waits at its slice or for its re-check, and one answered is done (R156, R348). -/
def LsuEnt.tracked (e : LsuEnt) : Bool := e.memory && e.phase != .monitor && e.phase != .fill
/-- The mask word whose pass made the entry. -/
def LsuEnt.word (e : LsuEnt) : Nat := if e.vec then (e.req.items.headD default).lane / 32 else 0
/-- The entry's pass stands, whole or in part, beyond the 1,024 line requests its core's LSU tracks: the pass waits (R156). -/
def beyondLsu (e : LsuEnt) (s : State) : Bool :=
  let pass := maxOf ((s.lsu.filter fun x => x.group == e.group && x.req.team == e.req.team && x.word == e.word).map (·.id))
  decide (1024 < (s.lsu.filter fun x => x.tracked && x.req.core == e.req.core && decide (x.id ≤ pass)).length)
/-- An entry may not be carried out yet. -/
def entBlocked (e : LsuEnt) (s : State) : Bool :=
  (earlierEnts e s).any (fun x => x.holds e) || (e.memory && (outFull e.req s || beyondLsu e s))

/-! ## Completing entries -/

/-- Change an entry. -/
def modEnt (id : Nat) (f : LsuEnt → LsuEnt) (s : State) : State := { s with lsu := updWhere (fun e => e.id == id) f s.lsu }
/-- Remove an entry. -/
def dropEnt (id : Nat) (s : State) : State := { s with lsu := s.lsu.filter fun e => e.id != id }
/-- Values for a destination: a scalar pair takes the two halves of its one value. -/
def destVals (d : Dest) (vals : List (Nat × Nat)) : List (Nat × Nat) :=
  match d, vals with
  | .sPair _, [(_, v)] => [(0, v % 2 ^ 64), (1, v / 2 ^ 64)]
  | _, vs => vs
/-- A reply (or part of one) for an entry's items: when none is left, its data go to the register (R114), or it is done. -/
def answerItems (id : Nat) (items : List Item) (vals : List (Nat × Nat)) (bad : Bool) (s : State) : State :=
  match s.lsu.find? fun e => e.id == id with
  | none => s
  | some e =>
    let rest := e.req.items.filter fun i => !items.contains i
    let e' := { e with req := { e.req with items := rest }, acc := e.acc ++ vals, bad := e.bad || bad }
    let s := modEnt id (fun _ => e') s
    if !rest.isEmpty then s
    else if e.dest == .none then dropEnt id s
    else fillEnt id (destVals e.dest e'.acc) e'.bad s

/-! ## Releases, fences, arrivals (R211, R212, R349, R354) -/

/-- The dirty set of an eager release, a fence or an arrival goes back; the entry waits for every acknowledgement. A narrow workgroup's `.wg`
release takes no value of the release sequence; one that found no ember entry keeps the value it took (R211, R215). -/
def startFlush (e : LsuEnt) (s : State) : State :=
  let (n, s) := match e.req.ember with
    | some x => (x.rseq, s)
    | none => if e.req.narrowWg then ((coreOf e.req.core s).rseq, s) else takeRseq e.req.core s
  let before := unacked e.req.core e.req.part s
  let (ids, s) := sendFlush e.req.core ((coreOf e.req.core s).dirtySet e.req.part n) s
  modEnt e.id (fun e => { e with phase := .flush (before ++ ids) }) s
/-- An ember query for each listed line, at the fence's scope (R350). -/
def sendQueries (r : Req) : List W64 → State → List Nat × State
  | [], s => ([], s)
  | p :: ps, s =>
    let (id, s) := fresh s
    let c := coreOf r.core s
    let q : Req := { r with id := id, op := .query, ptr := p, items := [], pts := c.pts.toList, vw := c.vw, vd := c.vd, home := some (homeSel (vaOf p) s) }
    let (ids, s) := sendQueries r ps (cause (.rd q) s)
    (id :: ids, s)
/-- The entry is a fence with a release part. -/
def LsuEnt.relFence (e : LsuEnt) : Bool := match e.kind with | .fence _ => e.releases | _ => false
/-- A fence's acquire part after its queries: versions move on (R349); behind a release part the team's writes act as releases (R170). -/
def endFence (e : LsuEnt) (s : State) : State :=
  let s := if e.acquires then acquired e.req (.bump 0) s else s
  let s := if e.relFence then modTeam e.req.team (fun t => { t with fenced := true }) s else s
  dropEnt e.id s
/-- The acquire part of a fence. -/
def fenceAcquire (e : LsuEnt) (s : State) : State :=
  if !e.acquires || e.req.narrowWg then endFence e s
  else
    let list := ((teamOf e.req.team s).map (·.emberList)).getD []
    let s := modTeam e.req.team (fun t => { t with emberList := [] }) s
    let (ids, s) := sendQueries e.req list s
    if ids.isEmpty then endFence e s else modEnt e.id (fun e => { e with phase := .query ids }) s
/-- An arrival takes effect (R352, R354). -/
def endArrival (e : LsuEnt) (s : State) : State :=
  match e.kind with
  | .barArr b n => barArrive e.req.team b n (dropEnt e.id s)
  | _ => s
/-- Send a request as the core stands now (R218). -/
def sendReq (f : Req → Instr) (r : Req) (id : Nat) (s : State) : State :=
  let c := coreOf r.core s
  cause (f { r with pts := c.pts.toList, vw := c.vw, vd := c.vd, home := r.home <|> some (homeSel (vaOf r.ptr) s) }) (modEnt id (fun e => { e with phase := .sent, redo := false }) s)
/-- The event that carries a request. -/
def reqEvent (r : Req) : Instr :=
  match r.op with
  | .write => if r.ember.isSome then .ember r else .wr r
  | .atom _ | .cas => if r.ember.isSome then .ember r else .atom r
  | _ => .rd r
/-- The launch front end, this module's or another's, gets a launch (R97, R378): defined by the number of its entry. -/
def startLaunch (e : LsuEnt) (s : State) : State :=
  match e.kind with
  | .launch rec m =>
    let s := modEnt e.id (fun e => { e with phase := .sent }) s
    if m = ctlFld .modid 0 16 s then
      let (id, s) := fresh s
      let reg := match e.dest with | .s r => r | _ => 0
      cause (.recordRead id) { s with launches := s.launches ++ [{ id := id, part := e.req.part, record := rec, origin := .team e.req.team reg e.id }] }
    else
      let (id, s) := fresh s
      let p := { newPacket 0x04 m (agentNo e.req s) id e.req.part s with
        len := 63, payload := bytesOfNat 2 0 ++ [1, 0] ++ List.replicate 4 0 ++ bytesOfNat 8 rec.toNat ++ List.replicate 48 0, scope := 3, ord := 2 }
      sendPacket p { s with links := s.links ++ [{ id := id, kind := .qnLaunch 0, req := e.req, addr := m, pkt := some p }] }
  | _ => s
/-- After its write-backs are acknowledged, what an entry was waiting to do. -/
def afterFlush (e : LsuEnt) (s : State) : State :=
  let toHomes : Bool := match e.kind with | .fence sc => sc || e.req.scope == .sys | .barArr .. | .queue .deq => false | _ => true
  let (ids, s) := if toHomes then flushRemote false e.req.part s else ([], s)
  if !ids.isEmpty then modEnt e.id (fun e => { e with phase := .flush ids }) s
  else
    match e.kind with
    | .fence _ => fenceAcquire e s
    | .barArr .. => endArrival e s
    | .launch .. => startLaunch e s
    | .queue k => cause (.queueOperation { id := e.id, kind := k, team := e.req.team, part := e.req.part, core := e.req.core, ptr := e.req.ptr,
                                               home := some (homeSel (vaOf e.req.ptr) s) })
                    (modEnt e.id (fun e => { e with phase := .sent }) s)
    | _ =>
      let s := flushLine e.req.core (lineVa (vaOf e.req.ptr)) (keyOf e.req.ptr) s
      sendReq reqEvent { e.req with eager := true, ember := none } e.id s
/-- Write the dirty set back, and go on at once when there is none. -/
def flushThen (e : LsuEnt) (s : State) : State :=
  let s := startFlush e s
  let done := s.lsu.any fun x => x.id == e.id && x.phase == Phase.flush []
  if done then afterFlush e s else s
/-- The record of an EMBER message (R210, R212). -/
def newEmber (r : Req) (s : State) : Ember × State :=
  let (n, s) := takeRseq r.core s
  let ds := (coreOf r.core s).dirtySet r.part n
  ({ sig := bloomOf ds, line := linePtr r.ptr, core := r.core, part := r.part, scope := r.scope, wgtag := r.wgtag, rseq := n }, s)
/-- The launch a team's number belongs to. -/
def launchOfNo (team : Nat) (s : State) : Option Nat := (teamOf team s).bind fun t => launchOfTeam t s
/-- Carry out an entry whose turn it is. -/
def runEnt (e : LsuEnt) (s : State) : State :=
  let r := e.req
  let va := lineVa (vaOf r.ptr)
  let own := (coreOf r.core s).line va (keyOf r.ptr)
  match e.kind with
  | .fence sc =>
    if !(sc || r.ord == .rel || r.ord == .ar) then fenceAcquire e s
    else if r.narrowWg && !sc then fenceAcquire e s
    else
      flushThen e s
  | .barArr .. =>
    if !r.wide then endArrival e s
    else
      flushThen e s
  | .launch .. | .queue (.enq ..) | .queue .dec =>
    flushThen e s
  | .queue .deq => afterFlush e s
  | .pmap .. => s
  | .load =>
    let cached := (r.ord == .rlx || r.ord == .rel || (r.isAcq && r.narrowWg && r.ord != .ar)) && !r.eager
    match own with
    | some d => if cached && d.usable (coreOf r.core s) then
        let s := modCore r.core (fun c => c.put d) s
        answerItems e.id r.items (r.items.map fun i => (i.lane, itemValue d.data i)) false s
      else sendReq reqEvent r e.id s
    | none => sendReq reqEvent r e.id s
  | .store =>
    if r.isRel then
      if r.narrowWg && !r.eager then sendReq reqEvent r e.id (flushLine r.core va (keyOf r.ptr) s)
      else if r.scope == .sys || r.eager then
        flushThen e s
      else
        let s := flushLine r.core va (keyOf r.ptr) s
        let (em, s) := newEmber r s
        sendReq reqEvent { r with ember := some em } e.id s
    else match own with
      | some d => dropEnt e.id (writeCopy r.core r.part ((launchOfNo r.team s).getD 0) d r.items s)
      | none => if cacheLines r.part r.core s = 0 then sendReq reqEvent r e.id s
                else sendReq .rd { r with op := .read, ord := .rlx, walloc := true } e.id s
  | .atomic | .waitc =>
    let s := flushLine r.core va (keyOf r.ptr) s
    if r.isRel && (!r.narrowWg || r.eager) then
      if r.scope == .sys || r.eager then
        flushThen e s
      else
        let (em, s) := newEmber r s
        sendReq reqEvent { r with ember := some em } e.id s
    else sendReq reqEvent r e.id s
/-- Carry out an entry if it is held and its turn has come. -/
def tryEnt (id : Nat) (s : State) : State :=
  match s.lsu.find? fun e => e.id == id with
  | some e => if e.phase == .held && !entBlocked e s then runEnt e s else s
  | none => s

/-! ## Scratchpad accesses (R168, R185, R341, R342) -/

/-- A scratchpad access waits for an earlier acquire of the team that is not performed, a release for everything earlier (R168); a
handler's is not held behind the records of its program (R193). `before`: entries with a lower number are earlier. -/
def spHolds (t : Team) (before : Option Nat) (inh store : Bool) (o : Ord) (s : State) : Bool :=
  let stuck := if inh then behindRecords t.id s else []
  let mine := s.lsu.filter fun e => e.req.team == t.id && e.phase != .fill && !e.gone && before.all (fun n => decide (e.id < n)) && !(stuck.any fun y => y.id == e.id)
  (store && (o == .rel || o == .ar) && !mine.isEmpty) || mine.any LsuEnt.acquires
/-- A `.wg` release to the share of a wide workgroup comes after everything its core wrote has reached the slices: the partition's dirty lines
are written back before it, and it takes a value of the release sequence; an acquire there leaves no clean copy usable (R185, R211). The
state it may go on in, or the one in which it waits. -/
def spReleaseOf (t : Team) (w : Workgroup) (s : State) : Bool × State :=
  if !w.wide then (true, s)
  else
    let s := flushNow t.core ((coreOf t.core s).dirtyOf t.part) (drainWrites t.core t.part s)
    if (unacked t.core t.part s).isEmpty then (true, (takeRseq t.core s).2) else (false, s)
/-- What a scratchpad load brings to its team: poisoned where the share is (R132, R341). -/
def Team.spFill (d : Reg) (pair : Bool) (accs : List Acc) (w : Workgroup) (t : Team) : Team :=
  let bad := accs.any fun a => (List.range a.size).any fun i => w.spoison.contains (a.ptr.toNat + i)
  let val (l : Nat) : Option W64 := (accs.find? fun a => a.lane == l).map fun a => w64 (natOfBytes (w.spBytes a.ptr.toNat a.size))
  let poison (r : Reg) (t : Team) : Team := if bad then t.setV r { t.vreg r with poison := true } else t
  if pair then poison (regNext d) (poison d (t.sv64 d val)) else poison d (t.sv d fun l => (val l).map (BitVec.setWidth 32))
/-- A scratchpad store: of lanes with one address the highest writes; a written byte is clean (R132, R167). -/
def spStore (accs : List Acc) (w : Workgroup) (s : State) : State :=
  modWg w.id (fun w => accs.foldl (fun w a => w.spPut a.ptr.toNat (bytesOfNat a.size a.data)) w) s
/-- Perform a scratchpad access that waited, where nothing holds it any longer; those of one team go in program order (R114, R334). -/
def spRun (team id : Nat) (s : State) : State :=
  match teamOf team s with
  | none => s
  | some t =>
    match t.spq.find? fun a => a.id == id with
    | none => s
    | some a =>
      let w := (wgOf t.wg s).getD {}
      if (t.spq.any fun b => decide (b.id < a.id) && (!a.inh || b.inh)) || spHolds t (some a.id) a.inh a.store a.ord s then s
      else
        let out (s : State) : State := modTeam team (fun t => { t with spq := t.spq.filter fun b => b.id != id }) s
        if a.store then
          (match (if a.ord == .rel || a.ord == .ar then spReleaseOf t w s else (true, s)) with
          | (true, s) => spStore a.accs w (out s)
          | (false, s) => s)
        else
          let s := modTeam team (Team.spFill a.dst a.pair a.accs w) (out s)
          if (a.ord == .acq || a.ord == .ar) && w.wide then bumpVersion true t.core s else s
/-- The scratchpad accesses of a team that may go on do. -/
def pumpSp (team : Nat) (s : State) : State := forEach (((teamOf team s).map fun t => t.spq.map (·.id)).getD []) (spRun team) s
/-- Carry out what a team's order lets go. -/
def pumpTeam (team : Nat) (s : State) : State :=
  let s := pumpSp team s
  forEach ((s.lsu.filter fun e => e.req.team == team).map (·.id)) tryEnt s
/-- Carry out what every team's order lets go (after an acknowledgement frees a request, R68). -/
def pumpAll (s : State) : State :=
  let s := forEach (((allTeams s).filter fun t => !t.spq.isEmpty).map (·.id)) pumpSp s
  forEach (s.lsu.map (·.id)) tryEnt s
/-- A write-back or query is acknowledged: what waits for it goes on (R212, R214, R349). -/
def acked (id : Nat) (s : State) : State :=
  if id = 0 then s
  else
    let es := s.lsu.filter fun e => match e.phase with | .flush ids | .query ids => ids.contains id | _ => false
    let s := { s with lsu := s.lsu.map fun e => match e.phase with
      | .flush ids => { e with phase := .flush (ids.filter (· != id)) }
      | .query ids => { e with phase := .query (ids.filter (· != id)) }
      | _ => e }
    forEach es (fun e s =>
      match (s.lsu.find? fun x => x.id == e.id) with
      | some e => (match e.phase with
        | .flush [] => afterFlush e s
        | .query [] => endFence e s
        | _ => s)
      | none => s) s
/-- A wait has cleared (R112); waits at barriers and for the host are ended by what they wait for. -/
def waitOver (w : Wait) (t : Team) (s : State) : Bool :=
  match w with
  | .regs ss vs => ss.all (fun r => (t.sreg r).full) && vs.all fun r => (t.vreg r).full
  | .fetch => !t.fetching || t.ilines.any fun l => l.1 == linePtr t.pc
  | .replies g =>
    let stuck := behindRecords t.id s
    !(s.lsu.any fun e => e.req.team == t.id && e.group == g
      && (match e.phase with | .held => !(stuck.any fun x => x.id == e.id) | .flush _ | .query _ | .sent | .retry _ => true | _ => false))
  | .fence id | .barEnt id => !(s.lsu.any fun e => e.id == id)
  | .barArr _ | .barrier .. | .host => false
/-- After something of a team completed: its order moves on, and it may retire (R118, R168). -/
def settle (team : Nat) (s : State) : State := tryRetire team (pumpTeam team s)

/-! ## Issuing (R156, R167, R330 to R334) -/

/-- Group accesses by line, in order of their first lane. -/
def byLine : List Acc → List (W64 × List Acc)
  | [] => []
  | a :: l =>
    let r := byLine l
    let p := linePtr a.ptr
    match r.find? fun x => x.1 == p with
    | some (_, xs) => (p, a :: xs) :: r.filter fun x => x.1 != p
    | none => (p, [a]) :: r
/-- Each pass groups the active lanes of its mask word into line requests (R338). -/
def lineGroups (w : Nat) (l : List Acc) : List (W64 × List Acc) :=
  (List.range ((w + 31) / 32)).flatMap fun j => byLine (l.filter fun a => a.lane / 32 == j)
/-- Of lanes that store to one element only the highest writes; the others stand in their pass's line request with nothing to write (R156, R167,
R338). -/
def topLanes (l : List Acc) : List Acc := l.map fun a => if l.any fun b => b.ptr == a.ptr && decide (a.lane < b.lane) then { a with size := 0 } else a
/-- Mark a destination empty: its poison is cleared until data arrive (R114, R117). -/
def Team.markEmpty (t : Team) (d : Dest) : Team :=
  let es (t : Team) (r : Reg) : Team := t.setS r { t.sreg r with full := false, poison := false }
  let ev (t : Team) (r : Reg) : Team := t.setV r { t.vreg r with full := false, poison := false }
  match d with
  | .none => t
  | .s r => es t r
  | .sPair r => es (es t r) (regNext r)
  | .v r => ev t r
  | .vPair r => ev (ev t r) (regNext r)
/-- A destination that names s0 or v0 marks nothing: its data are discarded (R116, R184). -/
def destOf : Dest → Dest
  | .s 0 => .none | .v 0 => .none | d => d
/-- The request every access of an instruction of the team in focus starts from. -/
def baseReq (s : State) (op : ReqOp) (o : Ord) (sc : Scope) : Req :=
  let t := s.cur
  let w := (wgOf t.wg s).getD {}
  { core := t.core, team := t.id, part := t.part, op := op, ord := o, scope := sc, wide := w.wide, wgtag := w.tag, launches := (launchOfTeam t s).toList
    fenced := t.fenced }
/-- New LSU entries of one instruction. -/
def newEnts (k : EntKind) (base : Req) (d : Dest) (group : Nat) (pc : W64) (inh vec : Bool) : List (W64 × List Acc) → State → State
  | [], s => s
  | (p, as) :: l, s =>
    let (id, s) := fresh s
    let items := as.map fun a => ({ lane := a.lane, off := vaOf a.ptr % 64, size := a.size, data := a.data, data2 := a.data2 } : Item)
    let first := (as.map fun a => vaOf a.ptr).foldl min (2 ^ 56)
    let e : LsuEnt := { id := id, kind := k, req := { base with id := id, ptr := mkPtr (keyOf p) first, items := items }, dest := d, group := group, pc := pc, inh := inh, vec := vec }
    newEnts k base d group pc inh vec l { s with lsu := s.lsu ++ [e] }
/-- The lanes of a list of accesses; a scalar-class access concerns the whole team (R381, log 14). -/
def accLanes (vec : Bool) (w : Nat) (l : List Acc) : Mask := if vec then maskOfLanes (l.map (·.lane)) else fullMask w
/-- Rights of a partition for a key (R139). -/
def pktOf (q : Nat) (key : Byte) (s : State) : BitVec 3 := alGet 0 (q, key.toNat) s.pkt
/-- An access that has passed its tests: the destination is marked empty, its requests enter the LSU in the team's order, one for each
line of each pass; a team waits for every lane of an acquire whose scope record is checked (R114, R334, R338). -/
def sendAccess (i : Instr) (vec : Bool) (k : EntKind) (op : ReqOp) (d : Dest) (o : Ord) (sc : Scope) (accs : List Acc) (s : State) : State :=
  let t := s.cur
  let d := destOf d
  let base := baseReq s op o sc
  let (g, s) := fresh s
  let s := modCur (·.markEmpty d) s
  let s := newEnts k base d g t.pc t.handler vec (lineGroups t.width (if k == .store then topLanes accs else accs)) s
  let checked := (o == .acq || o == .ar) && base.wideScope && (match k with | .waitc | .queue _ => false | _ => (base.isAcq || o == .ar))
  let s := if checked then modCur (fun t => { t.toShelf (.replies g) with owed := if t.handler then t.owed else some (.replies g), mm := some { ipc := t.pc, word := w32 (encodeWord i), hint := t.hint, lanes := 0 } }) s else s
  pumpTeam t.id s
/-- The tests of R331 and R332 before an access has any effect, then its requests, if the LSU has room for its first pass (R156). `need`: rights as R, W bits. -/
def issueAccess (i : Instr) (vec : Bool) (k : EntKind) (op : ReqOp) (need : BitVec 3) (d : Dest) (o : Ord) (sc : Scope) (accs : List Acc) (s : State) : Eff :=
  let t := s.cur
  let mis := accs.filter fun a => vaOf a.ptr % a.size != 0
  let bad := accs.filter fun a => pktOf t.part (keyOf a.ptr) s &&& need != need
  if !mis.isEmpty then .trap 0x05 (accLanes vec t.width mis) 0
  else if !bad.isEmpty then .trap 0x09 (accLanes vec t.width bad) (w64 (2 ^ 63))
  else if accs.isEmpty then .done s
  else if 1024 < (s.lsu.filter fun e => e.tracked && e.req.core == t.core).length + (byLine (accs.filter fun a => a.lane / 32 == (accs.headD default).lane / 32)).length then .stay s
  else .done (sendAccess i vec k op d o sc accs s)

/-! ## Replies at the core (R201, R334, R350) -/

/-- A core merges the time of a reply, where the line's slice knows one (R201, R217). -/
def mergeReply (r : Req) (wts : W32) (s : State) : State :=
  if (lineAt (lineVa (vaOf r.ptr)) (keyOf r.ptr) s).isNone then s else modCore r.core (fun c => c.mergePts (replyDie r s) wts) s
/-- The entry's walloc data have come: the bytes go into the copy, or through to the point of coherence where none may be kept (R203), and the
partition keeps its limits (R59, R62); a line that was sent for under older versions, or before own bytes of it went back, is sent for again
(R175, R207). -/
def finishWalloc (e : LsuEnt) (rsp : Rsp) (s : State) : State :=
  let r := e.req
  let die := replyDie r s
  match rsp.lease, rsp.mark with
  | none, false => sendReq reqEvent r e.id s
  | _, _ =>
    let c := coreOf r.core s
    if !sameVersions rsp.req c || e.redo then sendReq .rd { r with op := .read, ord := .rlx, walloc := true } e.id s
    else
      let d := copyOf rsp.req rsp.line rsp.wts rsp.lease die (c.line (lineVa (vaOf r.ptr)) (keyOf r.ptr)) c
      dropEnt e.id (claimCache r.core r.part 64 (trimPart r.core r.part (writeCopy r.core r.part ((launchOfNo r.team s).getD 0) d r.items s)))
/-- A marked relaxed read enters the team's ember list (R350). -/
def listEmber (team : Nat) (p : W64) (s : State) : State :=
  modTeam team (fun t => if t.emberList.contains p then t else { t with emberList := t.emberList ++ [p] }) s
/-- An ember query for an entry whose values have come: they fill when it is answered (R190, R350). -/
def askEmber (e : LsuEnt) (sc : Scope) (vals : List (Nat × Nat)) (s : State) : State :=
  sendReq .rd { e.req with op := .query, scope := sc, eager := false } e.id (modEnt e.id (fun e => { e with value := some vals }) s)
/-- A relaxed read-modify-write or a monitor's fill answers an entry: a marked one enters the ember list, and a ninth asks the line's ember
first (R350). -/
def answerMarked (e : LsuEnt) (mark : Bool) (items : List Item) (vals : List (Nat × Nat)) (s : State) : State :=
  let list := ((teamOf e.req.team s).map (·.emberList)).getD []
  if !mark || e.req.acquires || list.contains (linePtr e.req.ptr) then answerItems e.id items vals false s
  else if list.length < 8 then answerItems e.id items vals false (listEmber e.req.team (linePtr e.req.ptr) s)
  else askEmber e .dev vals s
/-- Read data at the core for an entry; a request that own bytes of the line may have overtaken on their way back is made again (R175, R176). -/
def readReply (e : LsuEnt) (rsp : Rsp) (s : State) : State :=
  let r := e.req
  let line := lineVa (vaOf r.ptr)
  let c := coreOf r.core s
  let old := c.line line (keyOf r.ptr)
  let bs := mergeOwn old rsp.line
  let list := ((teamOf r.team s).map (·.emberList)).getD []
  let relaxed := !r.acquires
  if e.redo && !rsp.line.isEmpty then sendReq reqEvent r e.id s
  else if rsp.mark && relaxed && !list.contains (linePtr r.ptr) && 8 ≤ list.length && e.kind == .load then
    let r := { r with eager := true, scope := .dev }
    sendReq reqEvent r e.id (modEnt e.id (fun e => { e with req := r }) s)
  else
    let s := if rsp.mark && relaxed && e.kind == .load then listEmber r.team (linePtr r.ptr) s else s
    let s := if (rsp.lease.isSome || (rsp.mark && old.isSome)) && sameVersions rsp.req c then
        installLine r.core (copyOf rsp.req rsp.line rsp.wts rsp.lease (replyDie r s) old c) s else s
    answerItems e.id rsp.req.items (rsp.req.items.map fun i => (i.lane, if rsp.line.isEmpty then alGet 0 i (rsp.req.items.zip rsp.vals) else itemValue bs i)) false s
/-- The line's last write as a fill reads it: an older copy of the core is not used after it (R176, R190). -/
def readWrite (r : Req) (s : State) : State :=
  match lineAt (lineVa (vaOf r.ptr)) (keyOf r.ptr) s with
  | some ln => modCore r.core (fun c => c.mergePts (ln.die s) ln.wts) s
  | none => s
/-- A monitor's fill at its core: the observed value; an acquiring one first asks the line's ember (R190, R350). -/
def fillMonitor (e : LsuEnt) (m : MonMsg) (s : State) : State :=
  if e.req.isAcq then askEmber e e.req.scope [(0, m.value)] s
  else answerMarked e m.mark e.req.items [(0, m.value)] (readWrite e.req s)
/-- A `waitc`'s arming read: filled at once, or the monitor waits; a fill that came first is taken now (R347). One that the team has withdrawn is over
(R295). -/
def armedReply (e : LsuEnt) (rsp : Rsp) (c : WCond) (s : State) : State :=
  let it := e.req.items.headD default
  let v := rsp.vals.headD 0
  if e.gone then dropEnt e.id { s with monitors := s.monitors.filter fun m => m.ent != e.id }
  else if condHolds c v it.data then answerMarked e rsp.mark e.req.items [(0, v)] { s with monitors := s.monitors.filter fun m => m.ent != e.id }
  else match e.early with
    | some m => fillMonitor e m (modEnt e.id (fun e => { e with early := none }) s)
    | none => modEnt e.id (fun e => { e with phase := .monitor }) s
/-- Lanes whose line held the other scope record (R334): they perform nothing; the trap waits for the other lanes' replies. -/
def mismatchReply (e : LsuEnt) (rsp : Rsp) (found : Nat) (s : State) : State :=
  let lanes := maskOfLanes (rsp.req.items.map (·.lane))
  let s := modTeam e.req.team (fun t =>
    let mask := if e.vec then lanes else fullMask t.width
    let put (m : Option Mismatch) : Option Mismatch := let m := m.getD {}; some { m with lanes := m.lanes ||| mask, found := found }
    if t.handler && !e.inh then { t with tr := { t.tr with mm := put t.tr.mm } } else { t with mm := put t.mm }) s
  answerItems e.id rsp.req.items [] false s
/-- The entries whose lanes a reply answers: an atomic performed outside the module brings those of several passes (R182). -/
def passesOf (r : Req) (s : State) : List LsuEnt :=
  match s.lsu.find? fun e => e.id == r.id with
  | none => []
  | some e => if !r.isRmw then [e] else s.lsu.filter fun x => x.group == e.group && x.req.team == r.team && x.req.items.any r.items.contains
/-- The part of a reply's lanes that an entry has. -/
def LsuEnt.share (e : LsuEnt) (r : Req) : List Item := r.items.filter e.req.items.contains
/-- A host-held request of another module's home is answered after all: its record goes (R159). -/
def heldDone (e : LsuEnt) (s : State) : State :=
  if !e.hostHeld then s
  else modTeam e.req.team (fun t => { t with records := t.records.filter fun r => r.ent != e.id }) (modEnt e.id (fun e => { e with phase := .sent, hostHeld := false }) s)
/-- What an acquire's reply does at the core; an arming read that fills nothing acquires nothing (R190, R213). -/
def replyAcquire (rsp : Rsp) (s : State) : State :=
  let fills : Bool := match rsp.req.op with | .monitor c => condHolds c (rsp.vals.headD 0) (rsp.req.items.headD default).data | _ => true
  if rsp.mismatch.isNone && fills then acquired rsp.req rsp.acq s else s
/-- RDRSP at a core (R201, R209, R213). -/
def coreData (rsp : Rsp) (s : State) : State :=
  let r := rsp.req
  let s := replyAcquire rsp (mergeReply r rsp.wts s)
  match s.lsu.find? fun e => e.id == r.id with
  | none => if r.op == .query then acked r.id s else s
  | some e =>
    let s := heldDone e s
    let s := if rsp.poison then forEach (passesOf r s) (fun x s => modEnt x.id (fun y => { y with bad := true }) s) s else s
    let e := { e with bad := e.bad || rsp.poison }
    match r.op, rsp.mismatch with
    | .query, _ => (match e.value with
      | some vs => answerItems e.id e.req.items vs false (modEnt e.id (fun e => { e with value := none }) s)
      | none => s)
    | _, some f => mismatchReply e rsp f s
    | .monitor c, none => armedReply e rsp c s
    | .read, none => if r.walloc then finishWalloc e rsp s else readReply e rsp s
    | _, none => forEach (passesOf r s) (fun x s =>
        answerMarked x rsp.mark (x.share r) (((r.items.zip rsp.vals).filter fun y => x.req.items.contains y.1).map fun y => (y.1.lane, y.2)) s) s
/-- ACK at a core (R201). -/
def coreAck (a : AckMsg) (s : State) : State :=
  let r := a.req
  let s := if r.agent == .slice then s else mergeReply r a.wts s
  match r.agent with
  | .ctrl | .slice => acked r.id s
  | _ =>
    let s := forEach (passesOf r s) heldDone (acquired r a.acq s)
    forEach (passesOf r s) (fun e s => if e.phase == .sent then answerItems e.id (e.share r) [] false s else s) s

/-! ## Negative replies (R24, R155 to R158) -/

/-- The register number of a fault record: [6] vector, [7] none (R156). -/
def destCode : Dest → Nat
  | .none => 0x80 | .s r | .sPair r => r.val | .v r | .vPair r => 0x40 + r.val
/-- The record of a refused request (R156). -/
def faultRecord (e : LsuEnt) (n : NackMsg) (s : State) : FaultRec :=
  let lanes := if e.vec then (e.req.items.foldl (fun m i => m ||| 2 ^ (i.lane % 32)) 0) else 0
  { ptr := n.req.ptr, lanes := w32 lanes, word := e.word, cause := if n.status = 1 then 8 else 9, kind := faultKind e.req s, level := n.level, pc := e.pc, home := n.home
    slot := n.slot, module := match reqHome n.req s with | .remote m => m | _ => ctlFld .modid 0 16 s
    dest := destCode e.dest, part := e.req.part, ent := e.id, hostHeld := n.hostHeld }
/-- A request of a team ended without being performed: counted as a write, or its destination fills poisoned (R24, R157). -/
def failEnt (e : LsuEnt) (s : State) : State :=
  if e.dest == .none then
    let s := if e.kind == .load then s else teamError e.req.team s
    dropEnt e.id s
  else answerItems e.id e.req.items [] true s
/-- Status 1 or 2: a record of the team; one made by its handler kills it; a killed team's request is abandoned and counted (R124, R157), a withdrawn
one just ends (R295). -/
def faultReply (e : LsuEnt) (n : NackMsg) (s : State) : State :=
  match teamOf e.req.team s with
  | none => s
  | some t =>
    if t.dead then teamError t.id (dropEnt e.id (freeFault n.home n.slot s))
    else if e.gone then dropEnt e.id (freeFault n.home n.slot s)
    else
      let s := modEnt e.id (fun e => { e with phase := .fault n.home n.slot, hostHeld := n.hostHeld }) s
      let s := modTeam t.id (fun t => { t with records := t.records ++ [faultRecord e n s] }) s
      if e.inh then killTeam t.id s
      else if n.hostHeld then s
      else modTeam t.id (Team.recordWake s.ck) s
/-- A refused atomic on a never-cached host page (R49, R346). -/
def refusedAtomic (e : LsuEnt) (items : List Item) (s : State) : State :=
  if e.dest == .none then answerItems e.id items [] false (teamError e.req.team s)
  else
    let s := modTeam e.req.team (fun t => if t.dead then t else
      { t with atomU := t.atomU ||| (if e.vec then maskOfLanes (items.map (·.lane)) else fullMask t.width) }) s
    answerItems e.id items (items.map fun i => (i.lane, 0)) false s
/-- NACK at a core. A refused write-back is over: each launch whose stores it carried counts one (R24, R100). One that found no ember entry
takes the eager path with the release-sequence value it has (R215). -/
def coreNack (n : NackMsg) (s : State) : State :=
  let es := passesOf n.req s
  if es.isEmpty then
    match n.req.agent with
    | .ctrl | .slice => acked n.req.id (forEach n.req.launches (fun l s => addErrors l 1 s) s)
    | _ => if n.req.op == .query then acked n.req.id s else s
  else
    forEach es (fun e s =>
      let n := if e.id = n.req.id then n else { n with req := { n.req with id := e.id, ptr := e.req.ptr } }
      let s := heldDone e s
      let e' := { e with req := { e.req with pts := n.req.pts } }
      match n.status with
      | 1 | 2 => faultReply e' n s
      | 3 => modEnt e.id (fun e => { e with phase := .retry n.home }) s
      | 8 =>
        let s := modEnt e.id (fun e => { e with req := { e.req with eager := true, ember := n.req.ember }, phase := .held }) s
        tryEnt e.id s
      | 9 => refusedAtomic e (e.share n.req) s
      | _ => (match e.kind with
        | .launch .. => fillEnt e.id [(0, 0x100 + n.status)] false (teamError e.req.team s)
        | _ => failEnt e s)) s

/-! ## Fills (R114, R116, R117, R382) -/

/-- Write a value into a scalar destination; a fill for a register that was empty at handler entry goes to the saved copy (R382). -/
def Team.fillS (t : Team) (inh : Bool) (r : Reg) (x : SReg → SReg) : Team :=
  if h : 48 ≤ r.val ∧ t.handler = true ∧ inh = false then
    { t with tr := { t.tr with s := t.tr.s.set (r.val - 48) (x (t.tr.s[r.val - 48]'(by have := r.isLt; omega))) (by have := r.isLt; omega) } }
  else if 48 ≤ r.val ∧ inh = true ∧ t.handler = false then t
  else t.setS r (x (t.sreg r))
/-- Put a fill's values into its destination. -/
def Team.putFill (t : Team) (f : Fill) : Team :=
  let val (l : Nat) : Option Nat := (f.vals.find? fun x => x.1 == l).map (·.2)
  let vreg (t : Team) (r : Reg) (g : Nat → Nat) : Team :=
    let x := t.vreg r
    t.setV r { x with lanes := laneMap t.width x.lanes fun l => (val l).map fun v => w32 (g v), poison := x.poison || f.poison }
  let sc (t : Team) (r : Reg) (l : Nat) : Team := t.fillS f.inh r fun x => { x with val := ((val l).map w64).getD x.val, poison := x.poison || f.poison }
  match f.dest with
  | .none => t
  | .s r => sc t r 0
  | .sPair r => sc (sc t r 0) (regNext r) 1
  | .v r => vreg t r fun v => v
  | .vPair r => vreg (vreg t r fun v => v) (regNext r) fun v => v / 2 ^ 32
/-- The last of a destination's data has come: full (R114). -/
def Team.markFull (t : Team) (f : Fill) : Team :=
  let sc (t : Team) (r : Reg) : Team := t.fillS f.inh r fun x => { x with full := true }
  let ve (t : Team) (r : Reg) : Team := t.setV r { t.vreg r with full := true }
  match f.dest with
  | .none => t
  | .s r => sc t r
  | .sPair r => sc (sc t r) (regNext r)
  | .v r => ve t r
  | .vPair r => ve (ve t r) (regNext r)
/-- A fill arrives. A team that is draining, killed or gone discards it (R118, R124). -/
def fillTeam (f : Fill) (s : State) : State :=
  let live (t : Team) : Bool := match t.status with | .draining | .killed | .gone => false | _ => true
  let last : Bool := match f.ent with
    | some id => (match s.lsu.find? fun e => e.id == id with
      | some e => !(s.lsu.any fun x => x.group == e.group && x.id != id && x.req.team == e.req.team)
      | none => false)
    | none => true
  let s := modTeam f.team (fun t => if live t then (let t := t.putFill f; if last then t.markFull f else t) else t) s
  let s := match f.ent with | some id => dropEnt id s | none => s
  settle f.team s

end Sys2Proof.Machine
end

