-- ==== Sys2Proof/Machine/Fetch.lean ====
section
/-! DEFINITION. The instruction word at hand (R161, R192), what a word that is no instruction does, and the word placed for a next
step. -/

namespace Sys2Proof.Machine

/-- The word at a pc among the instruction lines at hand. -/
def wordIn (lines : List (W64 × List Byte)) (pc : W64) : Option Nat :=
  (lines.find? fun l => l.1 == linePtr pc && !l.2.isEmpty).map fun l => natOfBytes (sliceBytes l.2 (vaOf pc % 64 / 4 * 4) 4)
/-- The word a team would issue next, if its line has arrived. -/
def Team.nextWord (t : Team) : Option Nat := wordIn t.ilines t.pc

/-- What the team in focus does at its issue slot. -/
inductive Slot
  | idle | async | fetch | reject (r : Reject) (w : Nat) | ins (i : Instr)
deriving DecidableEq, Repr
/-- The team in focus holds a Hob place; a scope mismatch of its last instruction comes first (R334), then
a pending asynchronous cause (R385), then its word. -/
def slotOf (s : State) : Slot :=
  let t := s.cur
  if !t.onHob || t.emu then .idle
  else if t.mismatched || (!t.handler && (t.pendingCause.isSome || t.exited)) then .async
  else match t.nextWord with
    | none => .fetch
    | some w => match decode w with
      | .ok i => .ins i
      | .error r => .reject r w

/-- The request of an instruction fetch for the line of a team's pc (R161). -/
def fetchReq (t : Team) (id : Nat) : Req :=
  { id := id, agent := .fetch, core := t.core, team := t.id, part := t.part, op := .read, ptr := linePtr t.pc
    items := (List.range 8).map fun i => { lane := i, off := 8 * i, size := 8 } }
/-- An instruction fetch under a new number, to the home that its line has now (R142). -/
def sendFetch (t : Team) (id : Nat) (s : State) : State := cause (.rd { fetchReq t id with home := some (homeSel (vaOf t.pc) s) }) s
/-- A fetch for a team whose word is on the way goes to its home again: woken (R158), or its host has mapped the line (R159). While the partition
has as many requests outstanding there as it may, the team asks itself when it may go on (R68). -/
def fetchAgain (t : Team) (s : State) : State :=
  if outFull (fetchReq t 0) s then modTeam t.id (fun t => { t with fetching := false, fetchBad := false }) s
  else
    let (id, s) := fresh s
    sendFetch t id (modTeam t.id (fun t => { t with fetchBad := false }) s)
/-- Ask the home for the line at the pc: a demand fetch (R161), which waits while the partition has as many requests outstanding there as it may
(R68). The X right is checked at the core (R139, R397): without it the team traps PROT_KEY at the instruction (R381). -/
def demandFetch (s : State) : State :=
  let t := s.cur
  if !(alGet 0 (t.part, (keyOf t.pc).toNat) s.pkt).getLsbD 2 then
    takeTrap { cause := 0x09, lanes := fullMask t.width, ipc := t.pc, resume := t.pc, word := 0, info := w64 (2 ^ 63), hint := t.hint } s
  else if outFull (fetchReq t 0) s then modCur (fun t => t.toShelf .fetch) s
  else
    let (id, s) := fresh s
    sendFetch t id (modCur (fun t => { t.toShelf .fetch with fetching := true, fetchBad := false }) s)
/-- A word that is no instruction traps ILLEGAL; the word alone causes it (R265, R381). -/
def illegalWord (w : Nat) (s : State) : State :=
  takeTrap { cause := 0x01, lanes := fullMask s.cur.width, ipc := s.cur.pc, resume := s.cur.pc, word := w32 w, info := 0, hint := s.cur.hint } s
/-- The latch before a hint of a group: its first hint takes the snap (R269). -/
def hintStart (t : Team) : Hint :=
  let h := t.hint
  if h.nimm = 0 ∧ !h.offv ∧ !h.modv ∧ !h.schedv ∧ !h.bad then { snap := t.sig } else h
/-- A hint word of a reserved kind or with a reserved payload bit issues as a hint and makes its group malformed (R269). -/
def badHintWord (w : Nat) (s : State) : State :=
  let t := s.cur
  let h := { hintStart t with bad := true, lastImm := false }
  let sig := if t.handler || t.reexec.isSome then t.sig else crcBytes t.sig (sigStream w false false)
  feedWatchdog .nop (modCur (fun t => { t with hint := h, sig := sig, pc := nextPc t, busy := s.ck + 1 }) s)

/-- The instruction line that holds a word at its place among zeros. -/
def lineWith (pc : W64) (w : Nat) : List Byte := putBytes (List.replicate 64 0) (vaOf pc % 64 / 4 * 4) (bytesOfNat 4 w)
/-- The team in focus made able to issue at once: if no team stands in focus, a team of 32 lanes with 64 vector registers of partition 0
on core 0 (log 9). -/
def runnable (t : Team) : Team :=
  let t := if t.id = 0 then { t with id := 2 ^ 32, width := 32, v := List.replicate 64 { lanes := List.replicate 32 0 },
                                     k := t.k.set 0 (fullMask 32) } else t
  { t with status := .hob, emu := false, wdog := false, records := [], atomU := 0, preempt := none, mm := none }

end Sys2Proof.Machine
end

