-- ==== Sys2Proof/Machine/Agenda.lean ====
section
/-! DEFINITION. Which caused event comes next (R2, R44, R217): events of one channel keep their order; the rest is free (log 6). -/

namespace Sys2Proof.Machine

/-- A channel: its kind, and what names it among those of the kind. -/
abbrev Channel := List Nat
/-- The channel of a request: replays of a team to one home keep their order (R157), else the requests of an agent for a line do. -/
def reqChannel (r : Req) : Channel :=
  match r.replay with
  | some h => [13, h, r.team]
  | none => [1, r.core * 8 + (match r.agent with | .host => 1 | .lfe => 2 | .peer .. => 3 | .fetch => 4 | .slice => 5 | _ => 0), lineVa (vaOf r.ptr)]
/-- The die a requester of this module sends from: its core's, or IO0 for the host (R10). For the others (the LFE, whose die the spec does not name,
another module's core, whose port R10 does, and a slice) no order beyond that of `reqChannel` is taken. -/
def agentDie (r : Req) (s : State) : Option Nat :=
  match r.agent with
  | .host => some 4
  | .lfe | .peer .. | .slice => none
  | _ => some (dieOf r.core s)
/-- The die of a line's slice (R196). -/
def sliceDie (p : W64) (s : State) : Nat := (lineAt (lineVa (vaOf p)) (keyOf p) s).elim (vaOf p / 2 ^ 14 % 4) fun l => l.die s
/-- The Flue's channel of a class from one die to another: messages there are delivered in order (R217). -/
def flue (cls : Nat) (a b : Option Nat) : List Channel :=
  match a, b with
  | some x, some y => if x = y then [] else [[20, cls, x, y]]
  | _, _ => []
/-- A request, or an ember (a class of its own, R22), on its way to the slice. -/
def toSlice (cls : Nat) (r : Req) (s : State) : List Channel := reqChannel r :: flue cls (agentDie r s) (some (sliceDie r.ptr s))
/-- A reply to a requester. -/
def toAgent (r : Req) (s : State) : List Channel := [2, r.core, lineVa (vaOf r.ptr)] :: flue 1 (some (sliceDie r.ptr s)) (agentDie r s)
/-- A write of the host to a register of BAR0 or BAR4. -/
def isRegisterWrite : Instr → Bool
  | .qifConfigWrite .. | .qifReset .. | .irqMapWrite .. | .lvalVerdict _ | .partEnable .. | .partReset .. | .partSaveWrite .. | .partCsaveWrite ..
  | .partQosWrite .. | .wdogResume _ | .wdogKill _ | .bankAsh _ | .homeOvfClear .. | .fcmdReplay .. | .fcmdDiscard .. | .ptUnmap _ | .ptSplit _ | .ptMove _
  | .ptReattribute _ | .hotBaseWrite .. | .portRetrain .. | .biasToHost _ | .biasToDevice _ | .timeWrite _ | .emuEret _ | .emuKill _ | .emuRegWrite ..
  | .registerWrite .. => true
  | _ => false
/-- The channels an event travels on: those of its class between two places; none: unordered with every other event (R44, R217). -/
def channelsOf (s : State) : Instr → List Channel
  | .rd r | .wr r | .atom r => toSlice 0 r s
  | .ember r => toSlice 2 r s
  | .rdrsp r => toAgent r.req s
  | .ack a => toAgent a.req s
  | .nack n => toAgent n.req s
  | .instructionFetch f => (teamOf f.team s).elim [] fun t => flue 1 (some (sliceDie f.ptr s)) (some (dieOf t.core s))
  | .wback w => [1, w.draw.core * 8, lineVa (vaOf w.req.ptr)] :: flue 2 (some (dieOf w.draw.core s)) (some (sliceDie w.req.ptr s))
  | .draw d => [3, d.core, d.part] :: flue 2 (some (sliceDie d.line s)) (some (dieOf d.core s))
  | .drawack d => [4, d.core, d.part] :: flue 2 (some (dieOf d.core s)) (some (sliceDie d.line s))
  | .monfill m => (s.monitors.find? fun x => x.id == m.id && x.lfe.isNone).elim [] fun x => flue 2 (some (sliceDie x.ptr s)) (some (dieOf x.core s))
  | .registerFill f => (f.ctx.map fun c => [12, c.1, c.2.val]).toList
  | .notifyPush w => if w.ro then [[14, w.rid]] else [[5, w.rid]]
  | .notifyStatusRead _ _ _ _ r => [[5, r.rid]]
  | .hostMemoryAccess a => [[5, a.rid]]
  | .requestNop i _ | .requestLaunch i _ | .requestWait i _ | .requestWrite i _ => [[6, i]]
  | .dataFlit p _ | .nakFlit p _ | .pauseFlit p _ _ => [[7, p]]
  | .queueOperation o => [match o.replay with | some h => [13, h, o.team] | none => [8, o.core, lineVa (vaOf o.ptr)]]
  | .pcieCompletion _ _ => [[9]]
  | .launchPacket _ p => [[11, p.srcm]]
  | i => if isRegisterWrite i then [[15]] else []
/-- The channels on which nothing may stand before an event: a push without RO follows the host's register writes, and a status read these and its
requester's pushes with RO as well. A register write does not say who made it, so it counts for every requester (R44, log 6). -/
def awaits (s : State) (i : Instr) : List Channel :=
  match i with
  | .notifyPush w => if w.ro then [] else [[5, w.rid], [15]]
  | .notifyStatusRead _ _ _ _ r => [[5, r.rid], [14, r.rid], [15]]
  | _ => channelsOf s i
/-- The agenda's events that may come next, each with the agenda that remains: those that nothing stands before. -/
def enabledFrom (s : State) (seen : List Channel) (before : List Instr) : List Instr → List (Instr × List Instr)
  | [] => []
  | i :: rest =>
    let tail := enabledFrom s (channelsOf s i ++ seen) (before ++ [i]) rest
    if (awaits s i).any seen.contains then tail else (i, before ++ rest) :: tail

end Sys2Proof.Machine
end

