-- ==== Sys2Proof/Machine/Arbiter.lean ====
section
/-! DEFINITION. Which of the requests queued at a slice or a home goes first (R67, R69). -/

namespace Sys2Proof.Machine

/-- Bytes a request counts for at an arbiter: those of its packet on a Fjonlink port, a header and what it carries (R21, log 81). -/
def reqBytes (r : Req) : Nat :=
  32 + (match r.op with | .read | .query => 0 | _ => (r.items.map Item.size).foldl (· + ·) 0)
/-- The arbiter of an address: the slice that holds its line, else its home, which counts from 64 on; none: no home of this module. -/
def arbiterAt (ptr : W64) (h : HomeSel) (s : State) : Option Nat :=
  match lineAt (lineVa (vaOf ptr)) (keyOf ptr) s, h with
  | some ln, _ => some (ln.slice s)
  | none, .local h => some (64 + h)
  | none, _ => none
/-- Where an event of the agenda is queued as a request: the arbiter, the partition, its bytes (R69). Every request is of one traffic class. The
accesses that an engine's event makes stand in no queue: they are served when that event comes up (log 81). -/
def queuedAt (s : State) : Instr → Option (Nat × Nat × Nat)
  | .rd r | .wr r | .atom r | .ember r =>
    if r.agent == .host then none else (arbiterAt r.ptr (reqHome r s) s).map fun k => (k, r.part, reqBytes r)
  | .queueOperation o => (arbiterAt o.ptr (o.home.getD (homeSel (vaOf o.ptr) s)) s).map fun k => (k, o.part, 32)
  | _ => none
/-- The first request of each partition among the events queued at an arbiter, with its bytes. -/
def firstOfEach (k : Nat) (es : List (Instr × List Instr)) (s : State) : List (Nat × Nat × (Instr × List Instr)) :=
  let here := es.filterMap fun x => match queuedAt s x.1 with | some (k', q, n) => if k' = k then some (q, n, x) else none | none => none
  (here.map (·.1)).eraseDups.filterMap fun q => here.find? fun x => x.1 == q
/-- The event that takes place when `e` of the enabled events `es` comes up: for a request queued at a slice or home, the one that deficit
round robin among the partitions queued there serves, memw times 64 bytes a turn (R67, R69). -/
def arbitrate (es : List (Instr × List Instr)) (e : Instr × List Instr) (s : State) : (Instr × List Instr) × State :=
  match queuedAt s e.1 with
  | none => (e, s)
  | some (k, _, _) =>
    let firsts := firstOfEach k es s
    match Drr.pick (fun q => ctlFld (.partQos q) 0 8 s) (firsts.map fun x => (x.1, x.2.1)) (70 * firsts.length + 1) (alGet {} k s.arb) with
    | some (q, d) =>
      match firsts.find? fun x => x.1 == q with
      | some x => (x.2.2, { s with arb := alSet k d s.arb })
      | none => (e, s)
    | none => (e, s)

end Sys2Proof.Machine
end

