-- ==== Sys2Proof/Machine/Queue.lean ====
section
/-! DEFINITION. Task queues and dependency objects at the header's home slice (R88 to R94, R377), and the instructions `tqenq`, `tqdeq`,
`tqdec` and `launch` (R376 to R378). -/

namespace Sys2Proof.Machine

/-! ## Lines the slice obtains (R94) -/

/-- What obtaining a line found: the line, a negative reply, or nothing yet. -/
inductive Got
  | ok (bs : List Byte) (s : State) | no (n : NackMsg) (s : State) | later (s : State)
/-- The operation's core merges a line's time (R201); on the slice's behalf the reply's merge is made when the line is touched. -/
def mergeLine (o : QOp) (p : W64) (s : State) : State :=
  match lineAt (lineVa (vaOf p)) (keyOf p) s with
  | some l => modCore o.core (fun c => c.mergePts (l.die s) l.wts) s
  | none => s
/-- Obtain the line of a pointer for an operation: any private copies are merged, nothing is written (R94, R205). The object of a decrement
is met by an `.ar` access and the header of an enqueue by a release, which are eager: an ember there is drawn and removed first; the header of a
dequeue is met by an acquire, and the core takes what an acquire met (R92, R93, R212, R213). -/
def obtain (o : QOp) (p : W64) (s : State) : Got :=
  let ord : Ord := if p = o.ptr then (match o.kind with | .enq .. => .rel | .deq => .acq | .dec => .ar) else .rlx
  let r : Req := { id := o.id, agent := .engine .c, core := o.core, team := o.team, part := o.part, op := .cas, ptr := p, ord := ord
                   eager := ord == .rel || ord == .ar, home := if p = o.ptr then o.home else none }
  let (a, s) := access r s
  match a with
  | .data rsp => .ok rsp.line (applyAcq r rsp.acq (mergeLine o p s))
  | .ack _ | .later => .later s
  | .nack n => .no n s
/-- The bytes of a line that has been obtained. -/
def lineBytes (p : W64) (s : State) : List Byte := (lineAt (lineVa (vaOf p)) (keyOf p) s).elim (List.replicate 64 0) fun l => l.bytes s
/-- A field of a line that has been obtained. -/
def lineField (p : W64) (n : Nat) (s : State) : Nat := natOfBytes (sliceBytes (lineBytes p s) (vaOf p % 64) n)
/-- The slice writes a field of a line it has obtained (R181, R201). -/
def putField (o : QOp) (p : W64) (n v : Nat) (s : State) : State :=
  match lineAt (lineVa (vaOf p)) (keyOf p) s with
  | none => s
  | some ln =>
    let r : Req := { id := o.id, agent := .engine .c, core := o.core, team := o.team, part := o.part, op := .write, ptr := p
                     items := [{ lane := 0, off := vaOf p % 64, size := n, data := v }] }
    mergeLine o p (perform r ln .notAcquire s).2

/-- How an operation at its home slice ends: it is done, a line was refused, it is tried again, or it waits. -/
inductive QEnd
  | done (s : State) | no (n : NackMsg) (s : State) | later (s : State) | wait (s : State)
/-- Go on with a line that has been obtained. -/
def withLine (o : QOp) (p : W64) (s : State) (k : State → QEnd) : QEnd :=
  match obtain o p s with
  | .ok _ s => k s
  | .no n s => .no n s
  | .later s => .later s

/-! ## Headers, shards and rings (R88, R89, R94) -/

/-- A header passes the checks of R94. -/
def headerOk (h : W64) (s : State) : Bool :=
  let b := lineBytes h s
  let lg := (b.getD 8 0).toNat
  vaOf h % 64 == 0 && (b.getD 9 0).getLsbD 1 && decide ((b.getD 9 0).toNat < 4) && decide (4 ≤ lg ∧ lg ≤ 12)
    && natOfBytes (sliceBytes b 0x0A 6) == 0 && natOfBytes (sliceBytes b 0x20 32) == 0
/-- Records per shard. -/
def qCap (h : W64) (s : State) : Nat := 2 ^ lineField (ptrAdd h 8) 1 s
/-- The queue is closed. -/
def qClosed (h : W64) (s : State) : Bool := lineField (ptrAdd h 9) 1 s % 2 == 1
/-- Control word of shard `c` (R89). -/
def shardWord (h : W64) (c : Nat) (s : State) : W64 := ptrAdd (w64 (lineField h 8 s)) (8 * c : Nat)
/-- Head and tail counts of a shard. -/
def shardHead (h : W64) (c : Nat) (s : State) : Nat := lineField (shardWord h c s) 4 s
def shardTail (h : W64) (c : Nat) (s : State) : Nat := lineField (ptrAdd (shardWord h c s) 4) 4 s
/-- Records in a shard. -/
def shardCount (h : W64) (c : Nat) (s : State) : Nat := (shardTail h c s + 2 ^ 32 - shardHead h c s) % 2 ^ 32
/-- Ring slot of a count in shard `c`. -/
def ringSlot (h : W64) (c n : Nat) (s : State) : W64 := ptrAdd (w64 (lineField h 8 s)) (320 + c * 16 * qCap h s + n % qCap h s * 16 : Nat)
/-- A shard area must be aligned to lines for its words and records to lie within them (R88). -/
def shardsOk (h : W64) (s : State) : Bool := vaOf (w64 (lineField h 8 s)) % 64 == 0

/-! ## Delivery (R92, R114) -/

/-- Values for an operation's destination; a dequeue or decrement acquires, and its core merges the time of the header or object (R92, R93, R213). -/
def deliverQueue (o : QOp) (vals : List (Nat × Nat)) (s : State) : State :=
  let s := match o.kind with
    | .enq .. => s
    | _ => bumpVersion false o.core (mergeLine o o.ptr s)
  match s.lsu.find? fun e => e.id == o.id with
  | some e => if e.dest == .none then settle o.team (dropEnt o.id s) else fillEnt o.id vals false s
  | none => s
/-- Waiters in `tqdeq` at a header, in order of arrival. -/
def deqWaiters (h : W64) (s : State) : List QWait := s.qwait.filter fun q => q.op.kind == .deq && q.op.ptr == h
/-- Remove a waiter and lower the header's count of them. -/
def dropWaiter (o : QOp) (h : W64) (w : QWait) (s : State) : State :=
  putField o (ptrAdd h 0x14) 4 (lineField (ptrAdd h 0x14) 4 s - 1) { s with qwait := s.qwait.filter fun q => q.op.id != w.op.id }
/-- Room came free: enqueues and decrements that wait for it are tried again (R90). -/
def retryEntries (s : State) : State :=
  let ws := s.qwait.filter fun q => q.op.kind != .deq
  causeAll (ws.map fun q => .queueOperation q.op) { s with qwait := s.qwait.filter fun q => q.op.kind == .deq }

/-! ## Entering a record (R90) -/

/-- The shard a record goes to: shard c, or the next in ascending order with room. -/
def findRoom (o : QOp) (h : W64) (k : Nat → State → QEnd) : Nat → Nat → State → QEnd
  | 0, _, s => .wait s
  | fuel + 1, c, s => withLine o (shardWord h c s) s fun s =>
      if shardCount h c s < qCap h s then k c s else findRoom o h k fuel ((c + 1) % 36) s
/-- Enter the record a, b into queue `h` for cluster `c`; `before` takes place once every line is there (R93). The total before the
entry goes to `k`. -/
def enterRecord (o : QOp) (h : W64) (c a b : Nat) (before : State → State) (k : Nat → State → QEnd) (s : State) : QEnd :=
  let total := lineField (ptrAdd h 0x18) 8 s
  let count (s : State) : State := putField o (ptrAdd h 0x18) 8 (total + 1) s
  let ws := deqWaiters h s
  match (if lineField (ptrAdd h 0x14) 4 s = 0 then none else (ws.find? fun w => w.cluster == c) <|> ws.head?) with
  | some w =>
    let s := count (dropWaiter o h w (before s))
    k total (deliverQueue w.op [(0, a), (1, b)] s)
  | none =>
    if !shardsOk h s then .no { req := { id := o.id }, status := 6 } s
    else findRoom o h (fun c s =>
      let slot := ringSlot h c (shardTail h c s) s
      withLine o slot s fun s =>
        let t := shardTail h c s
        let s := before s
        let s := putField o (ptrAdd slot 8) 8 b (putField o slot 8 a s)
        let s := putField o (ptrAdd (shardWord h c s) 4) 4 (t + 1) s
        let s := putField o (ptrAdd h 0x10) 4 (lineField (ptrAdd h 0x10) 4 s + 1) s
        k total (count s)) 36 c s
/-- A record has entered a queue: passes of the partitions whose stages it gates follow (R85, R87). -/
def entered (h : W64) (s : State) : State :=
  forEach (gatedBy h s) (fun q s => causeOnce (.dealPass q) s) s
/-- `tqenq` (R90, R377). -/
def enqueue (o : QOp) (a b : W64) (s : State) : QEnd :=
  withLine o o.ptr s fun s =>
    if !headerOk o.ptr s then .no { req := { id := o.id }, status := 6 } s
    else enterRecord o o.ptr (clusterIx o.core s) a.toNat b.toNat (fun s => s)
      (fun total s => .done (entered o.ptr (deliverQueue o [(0, total)] s))) s

/-! ## Taking a record (R91) -/

/-- Obtain the lines of all 36 control words. -/
def allShards (o : QOp) (h : W64) (k : State → QEnd) : Nat → State → QEnd
  | 0, s => k s
  | n + 1, s => withLine o (ptrAdd (w64 (lineField h 8 s)) (64 * n : Nat)) s fun s => allShards o h k n s
/-- The shard to steal from: the highest count, then the same die, then the lower cluster number (R91). -/
def stealFrom (h : W64) (c : Nat) (s : State) : Option Nat :=
  let most := maxOf ((List.range 36).map fun i => shardCount h i s)
  if most = 0 then none
  else
    let top := (List.range 36).filter fun i => shardCount h i s == most
    ((top.filter fun i => i / 9 == c / 9).head?) <|> top.head?
/-- Take the head record of a shard. -/
def takeHead (o : QOp) (h : W64) (c : Nat) (s : State) : QEnd :=
  let slot := ringSlot h c (shardHead h c s) s
  withLine o slot s fun s =>
    let vals := [(0, lineField slot 8 s), (1, lineField (ptrAdd slot 8) 8 s)]
    let s := putField o (shardWord h c s) 4 (shardHead h c s + 1) s
    let s := putField o (ptrAdd h 0x10) 4 (lineField (ptrAdd h 0x10) 4 s - 1) s
    .done (retryEntries (deliverQueue o vals s))
/-- The team has exited or is killed: its waits are withdrawn (R295). -/
def withdrawn (team : Nat) (s : State) : Bool :=
  match teamOf team s with | some t => t.dead || t.exited || t.status == .gone | none => true
/-- The withdrawal of a wait reaches its home slice, which confirms it (R295). -/
def confirmWithdrawal (o : QOp) (w : QWait) (s : State) : State :=
  match obtain o o.ptr s with
  | .ok _ s => settle o.team (dropEnt o.id (dropWaiter o o.ptr w s))
  | .later s => cause (.queueOperation o) s
  | .no _ s => settle o.team (dropEnt o.id { s with qwait := s.qwait.filter fun q => q.op.id != o.id })
/-- The queue holds nothing: the end record when it is closed, else the team waits (R91). -/
def emptyQueue (o : QOp) (s : State) : QEnd :=
  if qClosed o.ptr s then .done (deliverQueue o endRecord s)
  else if withdrawn o.team s then .done (settle o.team (dropEnt o.id s))
  else .done (putField o (ptrAdd o.ptr 0x14) 4 (lineField (ptrAdd o.ptr 0x14) 4 s + 1)
    { s with qwait := s.qwait ++ [{ op := o, cluster := clusterIx o.core s }] })
/-- `tqdeq` (R91). -/
def dequeue (o : QOp) (s : State) : QEnd :=
  withLine o o.ptr s fun s =>
    if !headerOk o.ptr s then .no { req := { id := o.id }, status := 6 } s
    else if lineField (ptrAdd o.ptr 0x10) 4 s = 0 then emptyQueue o s
    else if !shardsOk o.ptr s then .no { req := { id := o.id }, status := 6 } s
    else
      let c := clusterIx o.core s
      withLine o (shardWord o.ptr c s) s fun s =>
        if shardCount o.ptr c s ≠ 0 then takeHead o o.ptr c s
        else allShards o o.ptr (fun s => match stealFrom o.ptr c s with | some v => takeHead o o.ptr v s | none => emptyQueue o s) 5 s

/-! ## Dependency objects (R93) -/

/-- `tqdec` (R93): the decrement from 1 enters the object's record once every line of that entry is there. -/
def decrement (o : QOp) (s : State) : QEnd :=
  if vaOf o.ptr % 16 ≠ 0 then .no { req := { id := o.id }, status := 6 } s
  else withLine o o.ptr s fun s =>
    match lineField o.ptr 4 s with
    | 0 => .done (deliverQueue o [(0, 0)] (teamError o.team s))
    | 1 =>
      let h := w64 (lineField (ptrAdd o.ptr 8) 8 s)
      withLine o (ptrAdd o.ptr 16) s fun s =>
        let a := lineField (ptrAdd o.ptr 16) 8 s
        let b := lineField (ptrAdd o.ptr 24) 8 s
        if vaOf h % 64 ≠ 0 then .no { req := { id := o.id }, status := 6 } s
        else withLine o h s fun s =>
          if !headerOk h s then .no { req := { id := o.id }, status := 6 } s
          else enterRecord o h (clusterIx o.core s) a b (putField o o.ptr 4 0)
            (fun _ s => .done (entered h (deliverQueue o [(0, 1)] s))) s
    | n => .done (deliverQueue o [(0, n)] (putField o o.ptr 4 (n - 1) s))

/-! ## The event -/

/-- A queue or dependency operation at its home slice. An operation of which a line was refused has changed nothing (R94). -/
def execQueueOperation (o : QOp) (s : State) :=
  event (fun s =>
    match s.lsu.find? fun e => e.id == o.id with
    | none => s
    | some e =>
      match s.qwait.find? fun q => q.op.id == o.id && q.op.kind == .deq with
      | some w => if withdrawn o.team s then confirmWithdrawal o w s else s
      | none =>
      match (match o.kind with | .enq a b => enqueue o a b s | .deq => dequeue o s | .dec => decrement o s) with
      | .done s => endAsk o.id s
      | .later s => cause (.queueOperation o) s
      | .wait s => endAsk o.id { s with qwait := s.qwait ++ [{ op := o, cluster := clusterIx o.core s }] }
      | .no n s => endAsk o.id <| cause (.nack { n with req := { e.req with ptr := if n.status = 1 ∨ n.status = 2 then n.req.ptr else e.req.ptr } }) s) s

/-! ## Major 0x3B -/

/-- The key rights of R139, then the operation's entry in the team's order. -/
def queueBody (i : Instr) (k : QKind) (a : Reg) (d : Dest) (o : Ord) (s : State) : Eff :=
  let p := s.cur.gs a + offOf s.cur
  if pktOf s.cur.part (keyOf p) s &&& 3 != 3 then .trap 0x09 (fullMask s.cur.width) (w64 (2 ^ 63))
  else issueAccess i false (.queue k) .query 0 d o .dev [{ lane := 0, ptr := p, size := 1 }] s
def execTqenq (d a b : Reg) (s : State) :=
  word (.tqenq d a b) (fun s => queueBody (.tqenq d a b) (.enq (s.cur.gs b) (s.cur.gs (regNext b))) a (.s d) .rel s) s
def execTqdeq (d a : Reg) (s : State) := word (.tqdeq d a) (fun s => queueBody (.tqdeq d a) .deq a (.sPair d) .acq s) s
def execTqdec (d a : Reg) (s : State) := word (.tqdec d a) (fun s => queueBody (.tqdec d a) .dec a (.s d) .ar s) s
/-- `launch` (R378): rb = 0 names this module. -/
def execLaunch (d a b : Reg) (s : State) :=
  word (.launch d a b) (fun s =>
    let here := ctlFld .modid 0 16 s
    let m := if b = 0 then here else fld (s.cur.gs b) 0 16
    let sc := if m = here then Scope.dev else Scope.sys
    issueAccess (.launch d a b) false (.launch (s.cur.gs a + offOf s.cur) m) .query 0 (.s d) .rel sc
      [{ lane := 0, ptr := 0, size := 1 }] s) s

end Sys2Proof.Machine
end

