-- ==== Sys2Proof/Machine/Coherence.lean ====
section
/-! DEFINITION. The coherence messages and the events of slices, homes and cores: R153 to R161, R198 to R217. -/

namespace Sys2Proof.Machine

/-! ## Requests at homes and slices (R140, R201) -/

/-- The retirements that a closing write of the LFE follows were releases (R92, R98): the partition's dirty lines go back first; whether all
have been applied. -/
def retiredWritesDone (r : Req) (s : State) : Bool × State :=
  if r.isWrite && r.isRel then
    let ns := s.cores.map (·.1)
    let s := forEach ns (fun n s => flushNow n ((coreOf n s).dirtyOf r.part) (drainWrites n r.part s)) s
    (ns.all fun n => (unacked n r.part s).isEmpty, s)
  else (true, s)
/-- Carry out a request. A core's write-back is never held where its line can be written (R206, R214); a write of the LFE that finds the
line busy or is refused is made again (R95, R158, log 61). -/
def arrive (i : Instr) (r : Req) (s : State) : State :=
  match r.agent with
  | .ctrl =>
    if writeBackCut r s then deliver r (.nack { req := r, status := 4 }) s
    else if r.op == .write && writableAt (lineVa (vaOf r.ptr)) (keyOf r.ptr) s then (let (w, s) := applyWriteBack r s; cause (.ack { req := r, wts := w }) s)
    else handle r s
  | .lfe | .engine _ =>
    let (ok, s) := retiredWritesDone r s
    if !ok then cause i s else
    match access r s with
    | (.later, s) => cause i s
    | (.nack _, s) => cause i s
    | (_, s) => endAsk r.id s
  | _ => handle r s
def execRd (r : Req) (s : State) := event (arrive (.rd r) r) s
def execWr (r : Req) (s : State) := event (arrive (.wr r) r) s
def execAtom (r : Req) (s : State) := event (arrive (.atom r) r) s
def execEmber (r : Req) (s : State) := event (arrive (.ember r) r) s

/-! ## Draws (R214, R216) -/

/-- The releasing core's answer to a draw. -/
def drawDone (d : DrawMsg) (s : State) : State := cause (.drawack { d with vclock := (coreOf d.core s).pts.toList }) s
/-- The draw's core has been acknowledged: the slices' bytes of lines homed elsewhere follow to their homes (R198), then the answer. -/
def drawFar (d : DrawMsg) (s : State) : State :=
  let (ids, s) := flushRemote true d.part s
  if ids.isEmpty then drawDone d s
  else { s with draws := updWhere (fun x => x.line == d.line) (fun x => { x with pending := ids, far := true }) s.draws }
/-- A write-back named by a draw is acknowledged; after the last one the draw goes on. -/
def drawAcked (id : Nat) (s : State) : State :=
  if id = 0 then s
  else
    let mine := s.draws.filter fun d => d.pending.contains id
    let s := { s with draws := s.draws.map fun d => { d with pending := d.pending.filter (· != id) } }
    forEach mine (fun d s =>
      let m : DrawMsg := { line := d.line, core := d.core, part := d.part, rseq := d.rseq }
      if !d.pending.all (· == id) then s else if d.far then drawDone m s else drawFar m s) s
/-- Write back lines named by a draw, each under a number (WBACK). -/
def sendWbacks (d : DrawMsg) : List DLine → State → List Nat × State
  | [], s => ([], s)
  | l :: ls, s =>
    let (id, s) := fresh s
    let r := writeBackReq d.core id l s
    let (ids, s) := sendWbacks d ls (cause (.wback { draw := d, req := r }) (cleanDLine d.core l.va l.key s))
    (id :: ids, s)
/-- DRAW for the ember of another module goes there (R22, log 30). -/
def sendPeerDraw (d : DrawMsg) (s : State) : State :=
  let (id, s) := fresh s
  let p := newPacket 0x20 ((d.core - 2 ^ 10) / 2 ^ 16) (agentNo { agent := .slice, ptr := d.line } s) id d.part s
  sendPacket { p with key := (keyOf d.line).toNat, va := vaOf d.line } s
/-- DRAW at the releasing core's cache controller (R214 step 2): of the write-backs on their way it waits for those of lines dirtied before the
release (R407). -/
def execDraw (d : DrawMsg) (s : State) :=
  event (fun s =>
    if 2 ^ 10 ≤ d.core then sendPeerDraw d s else
    let before := unapplied d.core d.part d.rseq s
    let (ids, s) := sendWbacks d ((coreOf d.core s).dirtySet d.part d.rseq) s
    let all := before ++ ids
    if all.isEmpty then drawFar d s
    else { s with draws := updWhere (fun x => x.line == d.line) (fun x => { x with pending := all }) s.draws }) s
/-- WBACK at its home slice (R214 step 3): the core merges the acknowledged time. A line that has left its slice is obtained first. -/
def execWback (w : WbackMsg) (s : State) :=
  event (fun s =>
    if writeBackCut w.req s then deliver w.req (.nack { req := w.req, status := 4 }) s
    else if !writableAt (lineVa (vaOf w.req.ptr)) (keyOf w.req.ptr) s then handle w.req s
    else
      let (t, s) := applyWriteBack w.req s
      let e := replyDie w.req s
      drawAcked w.req.id (acked w.req.id (modCore w.draw.core (fun c => c.mergePts e t) s))) s
/-- DRAWACK at the slice (R214 step 5). -/
def execDrawack (d : DrawMsg) (s : State) :=
  event (fun s =>
    let s := { s with draws := s.draws.filter fun x => x.line != d.line
                      embers := updWhere (fun e => e.line == d.line) (fun e =>
                        { e with vclock := d.vclock.mapIdx (fun i p => if e.joined then serMax p (e.vclock.getD i p) else p), drawing := false, drawn := true }) s.embers }
    if fetching d.line s then s else serveWaiting (lineVa (vaOf d.line)) (keyOf d.line) s) s

/-! ## Replies at the core -/

/-- A line that another module's home refused until its host had mapped it has come: what waited for it goes on (R159). -/
def resumeHeld (p : W64) (s : State) : State :=
  let here (r : FaultRec) : Bool := r.hostHeld && r.home == 255 && linePtr r.ptr == linePtr p
  let ents := s.lsu.filter fun e => e.hostHeld && (match e.phase with | .fault h _ => h == 255 | _ => false) && linePtr e.req.ptr == linePtr p
  let fetches := (allTeams s).filter fun t => t.fetching && t.records.any fun r => here r && r.kind == 4
  let s := modTeams (fun t => t.records.any here) (fun t => { t with records := t.records.filter fun r => !here r }) s
  let s := forEach ents (fun e s => tryEnt e.id (modEnt e.id (fun e => { e with phase := .held, hostHeld := false }) s)) s
  forEach fetches fetchAgain s
/-- After a reply, the team's order moves on; a request came free for its partition (R68). -/
def afterReply (r : Req) (s : State) : State := pumpAll (settle r.team s)
/-- RDRSP. -/
def execRdrsp (r : Rsp) (s : State) :=
  event (fun s => if r.req.agent == .slice && r.req.op == .read then resumeHeld r.req.ptr (remoteFilled r.req r.line s) else afterReply r.req (coreData r s)) s
/-- ACK. -/
def execAck (a : AckMsg) (s : State) :=
  event (fun s =>
    if a.req.agent == .lfe then { s with got := s.got ++ [(syncKeyOf a.req, 2 ^ 61 + lineVa (vaOf a.req.ptr), none)] } else
    let s := coreAck a s
    afterReply a.req (if a.req.agent == .ctrl || a.req.agent == .slice then drawAcked a.req.id s else s)) s
/-- NACK. -/
def execNack (n : NackMsg) (s : State) :=
  event (fun s =>
    if n.req.agent == .slice && n.req.op == .read then remoteRefused n s else
    if n.req.agent == .lfe then
      { s with got := s.got ++ [(syncKeyOf n.req, 2 ^ 61 + lineVa (vaOf n.req.ptr), some ([n.status, n.level, n.home, n.slot].map (BitVec.ofNat 8)))] } else
    let s := coreNack n s
    afterReply n.req (if n.req.agent == .ctrl || n.req.agent == .slice then drawAcked n.req.id s else s)) s
/-- REGISTER_FILL (R114). -/
def execRegisterFill (f : Fill) (s : State) := event (fillTeam f) s

/-! ## Time (R198, R200, R201, R203) -/

/-- A tag's lease trails its core's time by 2^30 or more (R200). -/
def trails (c : Core) (d : DLine) : Bool := decide (2 ^ 30 ≤ (c.pts.toList.getD d.die 0 - d.rts).toNat) && serLe d.rts (c.pts.toList.getD d.die 0)
/-- A slice line's lease that trails the time of its die by 2^30 or more is dropped: its stamps stay within reach of comparison (R200). -/
def SLine.aged (ln : SLine) (time : W32) : SLine :=
  if 2 ^ 30 ≤ (time - ln.rts).toNat && serLe ln.rts time then { ln with wts := time - w32 (2 ^ 30), rts := time - w32 (2 ^ 30), leases := [] } else ln
/-- Every 256 ck each entry of a core's vector moves on (R201); leases that trail it are dropped, the core's and those of the slices of its
die (R200). -/
def execPtsTick (n : Nat) (s : State) :=
  event (fun s =>
    let s := modCore n (fun c =>
      let c := { c with pts := c.pts.map (· + 1) }
      { c with dl := c.dl.filter fun d => d.dmask != 0 || !trails c d }) s
    let e := dieOf n s
    let time := (coreOf n s).pts.toList.getD e 0
    { s with lines := s.lines.map fun l => if l.die s == e then l.aged time else l }) s
/-- Lines that have been dirty for half of the 64 µs they may be. -/
def sweepAge : Nat := 32 * usCk
/-- The age sweep of a core (R203), and of the lines that slices hold for homes elsewhere (R198). -/
def execAgeSweep (n : Nat) (s : State) :=
  event (fun s =>
    let old := (coreOf n s).dl.filter fun d => d.dmask != 0 && decide (d.since + sweepAge ≤ s.ck)
    let s := forEach old (fun d s => let (id, s) := fresh s; sendWriteBack n id d s) s
    forEach (s.lines.filter fun l => l.far && l.dirty != 0 && l.st != .held && decide (l.dirtied + sweepAge ≤ s.ck)) (fun l s => (farWrite false l s).2) s) s

/-! ## Waking and the host's commands over fault buffers (R158, R159) -/

/-- A woken core fetches again for a team that waits for its line and has no fetch on its way (R161). -/
def refetch (h : Nat) (t : Team) (s : State) : State :=
  let out := s.agenda.any fun i => match i with
    | .rd r => r.agent == .fetch && r.team == t.id && !r.spec | .instructionFetch f => f.team == t.id && f.spec == 0 | _ => false
  if t.fetching && !out && homeSel (vaOf t.pc) s == .local h then fetchAgain t s else s
/-- Noted cores of a home that are woken: an entry is available to the partition and, in the host's mode, the host has cleared its overflow
bit (R73, R158). -/
def wakeable (h : Nat) (s : State) : List (Nat × Nat × Bool) :=
  (homeOf h s).noted.filter fun n => faultRoom n.2.1 h s && (!n.2.2 || !(homeOf h s).ovf.testBit n.2.1)
/-- A woken core's engine operations may try that home again (R158). -/
def Ectx.awake (h : Nat) (e : Ectx) : Ectx := { e with ops := e.ops.map fun o => if o.retry = some h then { o with retry := none } else o }
/-- A woken core issues its status-3 requests to the home again, in their order of issue (R158). -/
def execWake (h : Nat) (s : State) :=
  event (fun s =>
    let woken := wakeable h s
    let ns := woken.map fun n => (n.1, n.2.1)
    let s := modHome h (fun x => { x with noted := x.noted.filter fun n => !woken.contains n }) s
    let mine := s.lsu.filter fun e => e.phase == .retry h && ns.contains (e.req.core, e.req.part)
    let s := modTeams (fun t => ns.contains (t.core, t.part)) (fun t => { t with c := t.c.awake h, m := t.m.awake h, l := t.l.awake h }) s
    let s := { s with lsu := s.lsu.map fun e => if mine.any (fun m => m.id == e.id) then { e with phase := .held } else e }
    let s := forEach (mine.map (·.id)) tryEnt s
    forEach ((allTeams s).filter fun t => ns.contains (t.core, t.part)) (refetch h) s) s
/-- The host clears overflow bits: the home looks whom it may wake (R158). -/
def clearHomeOvf (h : Nat) (v : W64) (s : State) : State := wakeNoted h (modHome h (fun x => { x with ovf := x.ovf - (x.ovf &&& v.toNat) }) s)
def execHomeOvfClear (h : Nat) (v : W64) (s : State) := event (clearHomeOvf h v) s
/-- Issue the request of an LSU entry to its home again, as a replay there: a queue operation is performed from its start (R94, R157). -/
def reissue (h : Nat) (e : LsuEnt) (r : Req) (s : State) : State :=
  match e.kind with
  | .queue k => cause (.queueOperation { id := e.id, kind := k, team := e.req.team, part := e.req.part, core := e.req.core, ptr := e.req.ptr, replay := some h })
      (modEnt e.id (fun e => { e with phase := .sent }) s)
  | _ => sendReq reqEvent { r with replay := some h } e.id (modEnt e.id (fun e => { e with value := none, hostHeld := false }) s)
/-- Send the request of a fault entry back to its home; the entry frees (R94, R157). -/
def replayEntry (h : Nat) (f : FaultEnt) (s : State) : State :=
  let s := modTeam f.req.team (fun t => { t with records := t.records.filter fun r => !r.names h f.slot s }) s
  let s := freeFault h f.slot s
  match s.lsu.find? fun e => e.id == f.req.id with
  | some e => reissue h e f.req s
  | none => (match f.req.agent with | .fetch => cause (.rd { f.req with replay := some h }) (modTeam f.req.team (fun t => { t with fetchBad := false }) s) | .peer .. => handle f.req s | _ => s)

/-! ## Instruction fetch (R161) -/

/-- The record of a demand fetch (R156). -/
def fetchRecord (t : Team) (f : FetchRsp) (pc : W64) (held : Bool) (s : State) : FaultRec :=
  { ptr := f.ptr, lanes := 0, word := 0, cause := if f.status = 1 then 8 else 9, kind := 4, level := f.level, pc := pc, home := f.home, slot := f.slot
    module := match homeSel (vaOf f.ptr) s with | .remote m => m | _ => ctlFld .modid 0 16 s
    dest := 0x80, part := t.part, ent := 0, hostHeld := held }
/-- A refused demand fetch makes a record whose pc is the instruction (R161); one of a handler's own fetches kills (R157). -/
def fetchFault (f : FetchRsp) (t : Team) (s : State) : State :=
  let held := f.hostHeld
  if t.dead || t.status == .gone then freeFault f.home f.slot s
  else if t.fetching && linePtr t.pc == f.ptr then
    let s := modTeam t.id (fun t => { t with records := t.records ++ [fetchRecord t f t.pc held s], fetching := held, fetchBad := held }) s
    if t.handler then killTeam t.id s
    else if held then s
    else modTeam t.id (Team.recordWake s.ck) s
  else if t.handler && linePtr t.tr.ipc == f.ptr then
    modTeam t.id (fun t => { t with records := t.records ++ [fetchRecord t f t.tr.ipc held s] }) s
  else freeFault f.home f.slot s
/-- The fetch was made (or goes on) for trap entry: a negative answer makes no record and kills nothing (R382). -/
def Team.entryFetch (t : Team) (f : FetchRsp) : Bool := t.fetching && linePtr t.pc == f.ptr && !t.handler && t.pendingCause.isSome
/-- With the team's line at hand its core may fetch the next one ahead of the pc (R161), while the partition may send a request (R68); whether it
does is free (log 47). -/
def fetchAhead (team : Nat) (ptr : W64) (s : State) : State :=
  let (go, s) := toss s
  if !go then s
  else
    match teamOf team s with
    | none => s
    | some t =>
      let (id, s) := fresh s
      let r : Req := { fetchReq t id with ptr := ptrAdd ptr 64, spec := true, home := some (homeSel (vaOf (ptrAdd ptr 64)) s) }
      if outFull r s then s else cause (.rd r) (modTeam team (fun t => { t with ahead := t.ahead ++ [id] }) s)
/-- A fetch ahead of the pc comes back: its line is at hand unless it was refused, or has been discarded since (R161, R192). -/
def aheadArrives (f : FetchRsp) (t : Team) : Team :=
  let t' := { t with ahead := t.ahead.filter (· != f.spec) }
  if f.status = 0 && t.ahead.contains f.spec && t.status != .gone then { t' with ilines := t.ilines ++ [(f.ptr, f.bytes)] } else t'
def execInstructionFetch (f : FetchRsp) (s : State) :=
  event (fun s =>
    match teamOf f.team s with
    | none => s
    | some t =>
      if f.spec ≠ 0 then modTeam t.id (aheadArrives f) s
      else if f.status ≠ 0 ∧ t.entryFetch f then
        let s := if f.status = 1 ∨ f.status = 2 then freeFault f.home f.slot s else s
        modTeam t.id (fun t => { t with ilines := [(f.ptr, [])], fetching := false, fetchBad := false }.wake s.ck) s
      else if f.status = 1 ∨ f.status = 2 then fetchFault f t s
      else if !(t.fetching && linePtr t.pc == f.ptr) then s
      else if f.status = 0 then
        fetchAhead t.id f.ptr (modTeam t.id (fun t => { t with ilines := [(f.ptr, f.bytes)], fetching := false, fetchBad := false }.wake s.ck) s)
      else if f.status = 3 then modTeam t.id (fun t => { t with fetchBad := true }) s
      else killTeam t.id s) s

end Sys2Proof.Machine
end

