-- ==== Sys2Proof/Machine/Engine.lean ====
section
/-! DEFINITION. Engine contexts, batches and timelines (R355 to R360, R372), and the copy engine (R361 to R363). -/

namespace Sys2Proof.Machine

/-! ## Timelines (R356, R359, R360, R187) -/

/-- Number of a context (R359). -/
def ctxIx : Ctx → Fin 3
  | .c => 0 | .m => 1 | .l => 2
/-- The highest n for which every batch numbered n or less has completed (R356); it does not reach what a kill abandoned (R124). -/
def Ectx.timeline (e : Ectx) : Nat :=
  ((e.ops.filter fun o => !o.done && decide (o.batch ≤ e.last)).map fun o => o.batch - 1).foldl min (min e.last (e.limit.getD e.last))
/-- A failure stands in the fault registers. -/
def Ectx.faulted (e : Ectx) : Bool := bit e.efault 8
/-- A delivered value carries the fail marker when a failed batch is at or below it (R360). -/
def Ectx.marked (e : Ectx) (v : Nat) : Bool := e.faulted && decide (e.efbatch.toNat ≤ v)
def Ectx.deliver (e : Ectx) (v : Nat) : Nat := if e.marked v then v + 2 ^ 63 else v
/-- Observing a timeline value is an acquire with no ember (R187, R358). -/
def observe (core : Nat) (x : Fin 3) (s : State) : State :=
  acquired { core := core, scope := if x = 2 then .sys else .dev } (.bump 0) s
/-- Close the open batch (R356). -/
def Ectx.close (e : Ectx) : Ectx := if e.opened then { e with last := e.last + 1, opened := false } else e
/-- Change an engine context of a team. -/
def modEctx (team : Nat) (x : Fin 3) (f : Ectx → Ectx) (s : State) : State := modTeam team (fun t => t.putEctx x (f (t.ectx x))) s
/-- Change an operation. -/
def modOp (team : Nat) (x : Fin 3) (id : Nat) (f : EngOp → EngOp) (s : State) : State :=
  modEctx team x (fun e => { e with ops := updWhere (fun o => o.id == id) f e.ops }) s
/-- A value of a context of team `src` goes to a register of a team; unless it is marked, the team's core observes it. -/
def deliverValue (src team : Nat) (dest : Reg) (inh : Bool) (x : Fin 3) (e : Ectx) (v : Nat) (s : State) : State :=
  let s := match teamOf team s with | some t => if e.marked v then s else observe t.core x s | none => s
  if dest = 0 then s else cause (.registerFill { team := team, dest := .s dest, vals := [(0, e.deliver v)], inh := inh, ctx := some (src, x) }) s
/-- What a team's core wrote goes to the slices, where it has not gone yet: the operations it issued, and their completion, are releases
(R173, R174, R189). Whether all of it is there. -/
def publish (t : Team) (s : State) : Bool × State :=
  let s := flushNow t.core ((coreOf t.core s).dirtyOf t.part) (drainWrites t.core t.part s)
  (!unwritten t.core t.part s, s)
/-- A context has moved on: tokens fill in number order (R187, R363), waits it reaches are filled (R372). A team on another core observes
once what the issuer's core wrote has reached the slices (R174). -/
def advance (team : Nat) (x : Fin 3) (s : State) : State :=
  match teamOf team s with
  | none => s
  | some t =>
    let e := t.ectx x
    let v := e.timeline
    let out := e.ops.filter fun o => o.done && decide (o.batch ≤ v)
    let s := modEctx team x (fun e => { e with ops := e.ops.filter fun o => !(o.done && (x != 0 || decide (o.batch ≤ v))) }) s
    let s := forEach out (fun o s => match o.op with
      | .copy _ _ _ _ _ _ _ _ tok _ => deliverValue team team tok o.inh x e o.batch s
      | _ => s) s
    let due (w : TWait) : Bool := w.target == team && w.ctx == x && decide (w.n ≤ v)
    let far (w : TWait) : Bool := (teamOf w.team s).elim false fun u => u.core != t.core
    let (ok, s) := if s.twaits.any fun w => due w && far w then publish t s else (true, s)
    let ws := s.twaits.filter fun w => due w && (ok || !far w)
    let s := { s with twaits := s.twaits.filter fun w => !(due w && (ok || !far w)) }
    let s := if ok then s else causeOnce (.copyChunk team) s
    tryRetire team (forEach ws (fun w s => deliverValue team w.team w.dest w.inh x e v s) s)
/-- An operation is done. -/
def finishOp (team : Nat) (x : Fin 3) (id : Nat) (s : State) : State := advance team x (endAsk id (modOp team x id (fun o => { o with done := true, rd := [] }) s))
/-- An operation fails (R359): the first failure is recorded, later ones are counted; its batch counts as completed. -/
def failOp (team : Nat) (x : Fin 3) (o : EngOp) (c detail : Nat) (s : State) : State :=
  let s := modEctx team x (fun e =>
    if e.faulted then { e with efault := w64 (e.efault.toNat % 2 ^ 48 + min 0xFFFF (fld e.efault 48 16 + 1) * 2 ^ 48) }
    else { e with efault := w64 (c + 2 ^ 8 + detail % 2 ^ 32 * 2 ^ 16), efbatch := w64 o.batch }) s
  finishOp team x o.id s

/-! ## Engine accesses (R186, R358) -/

/-- A request of an engine operation; tried again, it goes where it went (R142). -/
def engReq (t : Team) (x : Ctx) (o : EngOp) (op : ReqOp) (p : W64) (items : List Item) (s : State) : Req :=
  again { id := o.id, agent := .engine x, core := t.core, team := t.id, part := t.part, op := op, ptr := p, items := items, launches := (launchOfTeam t s).toList } s
/-- The pieces of a range of bytes within lines: pointer, place in the range, bytes. -/
def linePieces (p : W64) (n : Nat) : Nat → Nat → List (W64 × Nat × Nat)
  | 0, _ => []
  | fuel + 1, at_ =>
    if n ≤ at_ then []
    else
      let q := ptrAdd p at_
      let k := min (n - at_) (64 - vaOf q % 64)
      (q, at_, k) :: linePieces p n fuel (at_ + k)
/-- Pieces of a range of `n` bytes. -/
def pieces (p : W64) (n : Nat) : List (W64 × Nat × Nat) := linePieces p n (n / 64 + 2) 0
/-- How an engine's read or write ended: done, refused, with poisoned bytes (R132), or not yet. -/
inductive EngAns
  | ok (bs : List Byte) | no (n : NackMsg) | bad | later
/-- An engine's accesses of several lines may be apart in time: whether it stops after one, with more to come, is free (R188, log 6). -/
def pauses (more : Bool) (s : State) : Bool × State := if more then toss s else (false, s)
/-- A request of an operation waits under the limit of outstanding requests (R68), which the operation keeps in mind (R71). -/
def outWaits (t : Team) (x : Ctx) (o : EngOp) (r : Req) (s : State) : Bool × State :=
  let full := outFull r s
  (full, modOp t.id (ctxIx x) o.id (fun o => { o with outAt := if full then some r.ptr else none }) s)
/-- Read the bytes of pieces in order, behind those read before; the core's own bytes, dirty or on their way, reach the line first (R175, R186,
R203). The bytes read so far are answered in every case. -/
def engRead (t : Team) (x : Ctx) (o : EngOp) : List (W64 × Nat × Nat) → List Byte → State → EngAns × List Byte × State
  | [], acc, s => (.ok acc, acc, s)
  | (q, i, k) :: l, acc, s =>
    if i < acc.length then engRead t x o l acc s
    else
      let s := flushLineNow t.core (lineVa (vaOf q)) (keyOf q) s
      let r := engReq t x o .read q [{ lane := 0, off := vaOf q % 64, size := k }] s
      let (full, s) := outWaits t x o r s
      if lineUnapplied t.core (lineVa (vaOf q)) (keyOf q) s || full then (.later, acc, s) else
      match access r s with
      | (.data a, s) =>
        if a.poison then (.bad, acc, s)
        else
          let acc := acc ++ bytesOfNat k (a.vals.headD 0)
          let (stop, s) := pauses (!l.isEmpty) s
          if stop then (.later, acc, s) else engRead t x o l acc s
      | (.nack n, s) => (.no n, acc, s)
      | (_, s) => (.later, acc, s)
/-- Read pieces for an operation, which keeps what it has read. -/
def engFetch (t : Team) (x : Ctx) (o : EngOp) (ps : List (W64 × Nat × Nat)) (s : State) : EngAns × State :=
  let (a, acc, s) := engRead t x o ps o.rd s
  (a, modOp t.id (ctxIx x) o.id (fun o => { o with rd := acc }) s)
/-- Write pieces of a buffer from byte `w` on; the bytes written so far are answered in every case. -/
def engWrite (t : Team) (x : Ctx) (o : EngOp) (buf : List Byte) : List (W64 × Nat × Nat) → Nat → State → EngAns × Nat × State
  | [], w, s => (.ok [], w, s)
  | (q, i, k) :: l, w, s =>
    if i < w then engWrite t x o buf l w s
    else
      let s := flushLineNow t.core (lineVa (vaOf q)) (keyOf q) s
      let r := engReq t x o .write q [{ lane := 0, off := vaOf q % 64, size := k, data := natOfBytes (sliceBytes buf i k) }] s
      let (full, s) := outWaits t x o r s
      if lineUnapplied t.core (lineVa (vaOf q)) (keyOf q) s || full then (.later, w, s) else
      match access r s with
      | (.nack n, s) => (.no n, w, s)
      | (.later, s) => (.later, w, s)
      | (_, s) =>
        let (stop, s) := pauses (!l.isEmpty) s
        if stop then (.later, i + k, s) else engWrite t x o buf l (i + k) s
/-- A fault record of an engine operation (R156, R157); one of an operation that the team's handler issued kills. -/
def engineRecord (t : Team) (o : EngOp) (kind : Nat) (n : NackMsg) (s : State) : State :=
  let r : FaultRec :=
    { ptr := n.req.ptr, lanes := 0, word := 0, cause := if n.status = 1 then 8 else 9, kind := kind, level := n.level, pc := o.pc, home := n.home, slot := n.slot
      module := match reqHome n.req s with | .remote m => m | _ => ctlFld .modid 0 16 s
      dest := 0x80, part := t.part, ent := o.id, hostHeld := n.hostHeld }
  let s := modTeam t.id (fun t => { t with records := t.records ++ [r] }) s
  if o.inh then killTeam t.id s else if n.hostHeld then s else modTeam t.id (Team.recordWake s.ck) s
/-- A refused request of a copy or a matrix loop: a record, a wait for the home's wake, or a failure with the status (R157 to R159, R359). A killed
team's copy, or one of a partition being reset, ends, the request abandoned and counted (R66, R124). -/
def engineNack (t : Team) (x : Fin 3) (o : EngOp) (kind : Nat) (n : NackMsg) (s : State) : State :=
  if t.dead || (partOf t.part s).resetting then
    teamError t.id (modEctx t.id x (Ectx.keepOnly fun y => y.id != o.id) (if n.status = 1 ∨ n.status = 2 then freeFault n.home n.slot s else s))
  else if n.status = 1 ∨ n.status = 2 then engineRecord t o kind n s
  else if n.status = 3 then modOp t.id x o.id (fun o => { o with retry := some n.home }) s
  else failOp t.id x o 0x07 n.status s
/-- The team's copies and loops may go on: it is resident, not halted, and its partition holds the cluster (R62, R72, R358). -/
def Team.engineRuns (t : Team) (s : State) : Bool :=
  !s.power.halted && (clusterOf (clusterIx t.core s) s).holder == some t.part && (match t.status with | .halted | .saved | .gone => false | _ => true)
/-- An operation may go on: earlier accesses of the team are performed (R186), it waits for no home and holds no record. One that the handler
issued is not held behind the program's records and what they hold back (R155, R193). -/
def opReady (t : Team) (o : EngOp) (s : State) : Bool :=
  let stuck := if o.inh then behindRecords t.id s else []
  !o.done && o.retry.isNone && !(t.records.any fun r => r.ent == o.id)
    && !(s.lsu.any fun e => e.req.team == t.id && decide (e.id < o.after) && e.phase != .fill && !(stuck.any fun x => x.id == e.id))
/-- Issue an operation into a context of the team in focus; the C context closes its own batch (R356). -/
def issueOp (x : Fin 3) (op : EOp) (s : State) : State :=
  let (id, s) := fresh s
  modCur (fun t =>
    let e := t.ectx x
    let o : EngOp := { id := id, batch := e.last + 1, op := op, pc := t.pc, inh := t.handler, after := id }
    t.putEctx x { e with ops := e.ops ++ [o], last := if x = 0 then e.last + 1 else e.last, opened := x != 0 }) s
/-- Bits that an engine sets in a flag word in a ck, with those it has set in that ck already (R238). -/
def setBits (ck : Nat) (old : Nat × W64) (f : Nat) : Nat × W64 := (ck, if old.1 = ck then old.2 ||| w64 f else w64 f)
/-- Operations in flight of a context. -/
def Ectx.inFlight (e : Ectx) : Nat := (e.ops.filter fun o => !o.done).length

/-! ## Scratchpad and accumulator storage of a workgroup (R342, R362) -/

/-- Bytes of a share that lie in it. -/
def inShare (w : Workgroup) (off : Int) (n : Nat) : Bool := decide (0 ≤ off) && decide (off + n ≤ (w.share : Int))
/-- Some byte of a range of the share is poisoned. -/
def spPoisoned (w : Workgroup) (off n : Nat) : Bool := w.spoison.any fun b => decide (off ≤ b) && decide (b < off + n)
/-- Write bytes into the share: they are clean. -/
def spWrite (wg : Nat) (off : Nat) (bs : List Byte) (s : State) : State :=
  modWg wg (fun w => w.spPut off bs) s
/-- The core of a workgroup that holds a team's tiles: 0 for a narrow one, the core-within-cluster number for a wide one. -/
def tileCore (t : Team) (w : Workgroup) : Nat := if w.wide then t.num % 4 else 0
/-- Number of a tile among the workgroup's. -/
def tileKey (t : Team) (w : Workgroup) (tile : Nat) : Nat := tileCore t w * 2 + tile
/-- Number of an accumulator element: 65,536 words a tile. -/
def accKey (t : Team) (w : Workgroup) (word : Nat) : Nat := tileCore t w * 2 * 65536 + word

/-! ## The copy engine (R363) -/

/-- Space, base, stride of one side of a copy and its offset at a row and byte. -/
def sideAt (sp : Nat) (base : W64) (stride row pos : Nat) : Int :=
  let d : Int := sextInt 32 stride * row + pos
  if sp = 0 then (vaOf (ptrAdd base d) : Int) else (base.toNat : Int) + d
/-- Checks of a side before its chunk (R362, R363): alignment of accumulator rows, ranges; the cause of R359. `pos`: the chunk's place in its row. -/
def sideCheck (sp : Nat) (w : Workgroup) (off : Int) (n pos rowb : Nat) : Option Nat :=
  match sp with
  | 1 => if inShare w off n then none else some 0x02
  | 2 => if (off - pos) % 4 ≠ 0 ∨ rowb % 4 ≠ 0 then some 0x03 else if decide (0 ≤ off) && decide (off + n ≤ (w.atiles * 262144 : Int)) then none else some 0x02
  | _ => none
/-- Read a local side; none: poisoned. -/
def sideRead (sp : Nat) (t : Team) (w : Workgroup) (off n : Nat) : Option (List Byte) :=
  if sp = 1 then (if spPoisoned w off n then none else some (w.spBytes off n))
  else if (List.range (n / 262144 + 2)).any fun i => w.apoison.contains (tileKey t w (off / 262144 + i)) && decide ((off / 262144 + i) * 262144 < off + n) then none
  else some ((List.range n).map fun i => (bytesOfNat 4 (w.accGet (accKey t w ((off + i) / 4))).toNat).getD ((off + i) % 4) 0)
/-- Write a local side. -/
def sideWrite (sp : Nat) (t : Team) (wg off : Nat) (bs : List Byte) (s : State) : State :=
  if sp = 1 then spWrite wg off bs s
  else modWg wg (fun w => (List.range (bs.length / 4)).foldl (fun w i => w.accPut (accKey t w (off / 4 + i)) (w32 (natOfBytes (sliceBytes bs (4 * i) 4)))) w) s
/-- The aligned 8-byte words of `n` bytes from an offset: place among them, bytes. -/
def wordsOf (off n : Nat) : List (Nat × Nat) :=
  (List.range ((off % 8 + n + 7) / 8)).map fun i => (8 * i - off % 8, min n (8 * (i + 1) - off % 8) - (8 * i - off % 8))
/-- One of the words of a chunk that have not been read or written yet, which is free: each aligned word of local storage is read and written at a
time of its own (R188). -/
def freeWord (off n : Nat) (taken : List Nat) (s : State) : Option (Nat × Nat) × State :=
  let l := (wordsOf off n).filter fun w => !taken.contains w.1
  let (k, s) := choose s
  (l[k % l.length]?, s)
/-- The last of the words not taken is taken. -/
def lastWord (off n : Nat) (taken : List Nat) : Bool := decide ((wordsOf off n).length ≤ taken.length + 1)
/-- A chunk is written: the copy stands at the next one, or it is done. -/
def nextChunk (t : Team) (o : EngOp) (n rows rowb : Nat) (s : State) : State :=
  let (row, pos) := if o.pos + n < rowb then (o.row, o.pos + n) else (o.row + 1, 0)
  let s := endAsk o.id (modOp t.id 0 o.id (fun o => { o with prog := o.prog + 1, row := row, pos := pos, buf := none, rd := [], wpos := 0, wrote := [] }) s)
  if rows ≤ row then finishOp t.id 0 o.id s else s
/-- Write one word of the chunk's buffer to a local side. -/
def writeLocal (t : Team) (o : EngOp) (dsp off : Nat) (buf : List Byte) (rows rowb : Nat) (s : State) : State :=
  let (x, s) := freeWord off buf.length o.wrote s
  match x with
  | none => nextChunk t o buf.length rows rowb s
  | some (i, k) =>
    let s := sideWrite dsp t t.wg (off + i) (sliceBytes buf i k) s
    if lastWord off buf.length o.wrote then nextChunk t o buf.length rows rowb s
    else modOp t.id 0 o.id (fun y => { y with buf := some buf, rd := [], wrote := i :: o.wrote }) s
/-- Write the chunk's buffer. -/
def writeChunk (t : Team) (o : EngOp) (dst : W64) (dsp : Nat) (off : Int) (buf : List Byte) (rows rowb : Nat) (s : State) : State :=
  if dsp ≠ 0 then writeLocal t o dsp off.toNat buf rows rowb s
  else
    match engWrite t .c o buf (pieces (mkPtr (keyOf dst) off.toNat) buf.length) o.wpos s with
    | (.no n, w, s) => engineNack t 0 o 5 n (modOp t.id 0 o.id (fun o => { o with buf := some buf, rd := [], wpos := w }) s)
    | (.ok _, _, s) => nextChunk t o buf.length rows rowb s
    | (_, w, s) => modOp t.id 0 o.id (fun o => { o with buf := some buf, rd := [], wpos := w }) s
/-- Read one word of a chunk from a local side; the last one completes its buffer. -/
def readLocal (t : Team) (o : EngOp) (ssp : Nat) (w : Workgroup) (off n : Nat) (s : State) : State :=
  let (x, s) := freeWord off n o.wrote s
  let (i, k) := x.getD (0, n)
  match sideRead ssp t w (off + i) k with
  | none => failOp t.id 0 o 0x06 o.prog s
  | some bs =>
    let rd := putBytes (if o.rd.isEmpty then List.replicate n 0 else o.rd) i bs
    modOp t.id 0 o.id (fun y => if lastWord off n o.wrote then { y with buf := some rd, rd := [], wrote := [] } else { y with rd := rd, wrote := i :: o.wrote }) s
/-- Go on with one chunk of a copy (R363): it is read wholly before it is written. -/
def copyStep (t : Team) (o : EngOp) (s : State) : State :=
  match o.op with
  | .copy dst src rows rowb dstr sstr dsp ssp _ bad =>
    if bad || dsp == 3 || ssp == 3 then failOp t.id 0 o 0x01 0 s
    else if rows = 0 ∨ rowb = 0 then finishOp t.id 0 o.id s
    else
      let w := (wgOf t.wg s).getD {}
      let d := sideAt dsp dst dstr o.row o.pos
      let sr := sideAt ssp src sstr o.row o.pos
      let n := min (rowb - o.pos) (4096 - (d % 4096).toNat)
      match o.buf with
      | some b => writeChunk t o dst dsp d b rows rowb s
      | none =>
        match (sideCheck ssp w sr n o.pos rowb) <|> (sideCheck dsp w d n o.pos rowb) with
        | some c => failOp t.id 0 o c o.prog s
        | none =>
          if ssp ≠ 0 then readLocal t o ssp w sr.toNat n s
          else
            match engFetch t .c o (pieces (mkPtr (keyOf src) sr.toNat) n) s with
            | (.ok b, s) => writeChunk t o dst dsp d b rows rowb (endAsk o.id s)
            | (.later, s) => s
            | (.bad, s) => failOp t.id 0 o 0x06 o.prog s
            | (.no n, s) => engineNack t 0 o 5 n s
  | _ => s
/-- A bias flip is in progress on a granule that the copy's source or destination touches; the reverse map says which page lies there (R51,
R150). -/
def flipTouches (o : EngOp) (s : State) : Bool :=
  match s.biasOp, o.op with
  | some (_, g, _), .copy dst src rows rowb dstr sstr dsp ssp _ _ =>
    (match rmapEntry (g * 2 ^ 16) s with
    | some e =>
      let base := fld e 16 40 * 2 ^ 16 + g * 2 ^ 16 % pageBytes (fld e 2 2)
      let hits (sp : Nat) (p : W64) (stride : Nat) : Bool := sp == 0 && (List.range rows).any fun r =>
        let a := (sideAt 0 p stride r 0).toNat
        decide (a < base + 2 ^ 16) && decide (base < a + rowb)
      bit e 0 && (hits dsp dst dstr || hits ssp src sstr)
    | none => false)
  | _, _ => false
/-- Copies that may go on: those of a team that runs and whose granule is not being flipped; a chunk once begun is finished (R51, R62, R124). -/
def copiesReady (t : Team) (s : State) : List EngOp :=
  t.c.ops.filter fun o => opReady t o s && !s.power.halted && (o.mid || (t.engineRuns s && !t.dead && !flipTouches o s))
/-- COPY_CHUNK: one chunk of a copy of the team that may go on, which of several is free (R357); a killed team's copy ends with its chunk
(R124). Observers that waited for the team's writes are looked at again. -/
def execCopyChunk (team : Nat) (s : State) :=
  event (fun s =>
    match teamOf team s with
    | none => s
    | some t =>
      let ready := copiesReady t s
      let s :=
        if ready.isEmpty then s
        else
          let (k, s) := choose s
          match ready[k % ready.length]? with
          | some o => copyStep t o s
          | none => s
      let s := forEach [0, 1, 2] (advance team) s
      let s := modTeam team (fun t => if t.dead || (partOf t.part s).resetting then t.stopCopies else t) s
      match teamOf team s with
      | some t => if t.c.inFlight = 0 then tryRetire team s else causeOnce (.copyChunk team) s
      | none => s) s

/-! ## Major 0x38 -/

/-- Rights of a global base pointer are checked at issue (R139). -/
def baseOk (q : Nat) (need : BitVec 3) (p : W64) (s : State) : Bool := pktOf q (keyOf p) s &&& need == need
/-- Issue a copy (R363). -/
def copyBody (dst src : W64) (rows rowb dstr sstr dsp ssp : Nat) (tok : Reg) (bad : Bool) (s : State) : Eff :=
  let t := s.cur
  if (dsp == 0 && !baseOk t.part 2 dst s) || (ssp == 0 && !baseOk t.part 1 src s) then .trap 0x09 (fullMask t.width) (w64 (2 ^ 63))
  else if 16 ≤ t.c.inFlight then .stay s
  else
    let s := modCur (·.markEmpty (destOf (.s tok))) s
    .done (causeOnce (.copyChunk t.id) (issueOp 0 (.copy dst src rows rowb dstr sstr dsp ssp tok bad) s))
def execCpy (d a b l : Reg) (s : State) :=
  word (.cpy d a b l) (fun s =>
    let x := s.cur.gs l
    copyBody (s.cur.gs a) (s.cur.gs b) 1 (fld x 0 32) 0 0 (fld x 32 2) (fld x 34 2) d (fld x 36 28 != 0) s) s
def execCpy2d (d a b l : Reg) (s : State) :=
  word (.cpy2d d a b l) (fun s =>
    let x := s.cur.gs l
    let y := s.cur.gs (regNext l)
    copyBody (s.cur.gs a) (s.cur.gs b) (fld x 24 24) (fld x 0 24) (fld y 0 32) (fld y 32 32) (fld x 48 2) (fld x 50 2) d (fld x 52 12 != 0) s) s

/-! ## Timeline instructions (R360, R372) -/

def execEfence (x : Ctx) (d : Reg) (s : State) :=
  word (.efence x d) (fun s =>
    let e := s.cur.ectx (ctxIx x)
    if e.faulted then .trap 0x0C (fullMask s.cur.width) (w64 (ctxIx x).val)
    else
      let s := modCur (fun t => (t.putEctx (ctxIx x) e.close).ss d (w64 e.close.last)) s
      .done (advance s.cur.id (ctxIx x) s)) s
def execEwait (x : Ctx) (d a : Reg) (s : State) :=
  word (.ewait x d a) (fun s =>
    let e := s.cur.ectx (ctxIx x)
    if e.faulted then .trap 0x0C (fullMask s.cur.width) (w64 (ctxIx x).val)
    else
      let n := (s.cur.gs a).toNat
      let e := e.close
      let s := modCur (fun t => (t.putEctx (ctxIx x) e).markEmpty (destOf (.s d))) s
      if e.last < n then
        .done (if d = 0 then s else cause (.registerFill { team := s.cur.id, dest := .s d, vals := [(0, e.timeline + 2 ^ 63)], inh := s.cur.handler, ctx := some (s.cur.id, ctxIx x) }) s)
      else
        .done (advance s.cur.id (ctxIx x)
          { s with twaits := s.twaits ++ [{ team := s.cur.id, dest := d, inh := s.cur.handler, target := s.cur.id, ctx := ctxIx x, n := n }] })) s
/-- The team of the workgroup in focus with a number. -/
def siblingNo (n : Nat) (s : State) : Option Team := (allTeams s).find? fun t => t.wg == s.cur.wg && t.num == n && t.id != 0
def execTlrd (x : Ctx) (d a : Reg) (s : State) :=
  word (.tlrd x d a) (fun s =>
    match siblingNo (fld (s.cur.gs a) 0 6) s with
    | none => .done (modCur (fun t => t.ss d (w64 (2 ^ 63))) s)
    | some u =>
      let e := u.ectx (ctxIx x)
      let (ok, s) := if e.marked e.timeline || u.core == s.cur.core then (true, s) else publish u s
      if !ok then .stay s else
      let s := if e.marked e.timeline then s else observe s.cur.core (ctxIx x) s
      .done (modCur (fun t => t.ss d (w64 (e.deliver e.timeline))) s)) s
def execTlwait (x : Ctx) (d a b : Reg) (s : State) :=
  word (.tlwait x d a b) (fun s =>
    let n := (s.cur.gs a).toNat
    match siblingNo (fld (s.cur.gs b) 0 6) s with
    | none => .done (modCur (fun t => t.ss d (w64 (2 ^ 63))) s)
    | some u =>
      let s := modCur (·.markEmpty (destOf (.s d))) s
      .done (advance u.id (ctxIx x)
        { s with twaits := s.twaits ++ [{ team := s.cur.id, dest := d, inh := s.cur.handler, target := u.id, ctx := ctxIx x, n := n }] })) s

end Sys2Proof.Machine
end

