-- ==== Sys2Proof/Machine/Collective.lean ====
section
/-! DEFINITION. The collective engine (R25, R189, R241 to R246, R373 to R375). Each part sends its contribution to every other part;
R374 leaves the route to the engine. -/

namespace Sys2Proof.Machine

/-! ## Descriptors (R373) -/

/-- Bytes of an element of `cred`. -/
def collElem (type : Nat) : Nat := if type = 1 ∨ type = 2 then 2 else 4
/-- Elements or words of a chunk: at most 512. -/
def CollPart.units (p : CollPart) (kind : Nat) : Nat := if kind = 0 then p.count else p.count / 8
/-- Chunks of a contribution. -/
def CollPart.chunks (p : CollPart) (kind : Nat) : Nat := (p.units kind + 511) / 512
/-- Elements of chunk `k`. -/
def CollPart.unitsOf (p : CollPart) (kind k : Nat) : Nat := min 512 (p.units kind - 512 * k)
/-- The descriptor's fields are valid and name no other part (R373); `mods` is the list. -/
def descOk (kind : Nat) (bs : List Byte) : Bool :=
  let f (lo n : Nat) : Nat := natOfBytes (sliceBytes bs lo n)
  let nmod := f 0x20 2
  let type := f 0x26 1
  f 0x18 4 != 0 && decide (1 ≤ nmod) && decide (nmod ≤ 4096) && decide (f 0x22 2 < nmod) && f 0x27 1 == 0 && f 0x2A 22 == 0
    && (if kind = 0 then decide (type ≤ 3) && (type != 3 || f 0x24 2 == 0) else type == 0 && f 0x18 4 % 8 == 0)
    && (if kind = 1 then decide (f 0x28 2 < nmod) else f 0x28 2 == 0)
/-- The part a descriptor and its module list describe. -/
def partOfDesc (bs list : List Byte) : CollPart :=
  let f (lo n : Nat) : Nat := natOfBytes (sliceBytes bs lo n)
  { src := w64 (f 0 8), dst := w64 (f 8 8), mods := (List.range (f 0x20 2)).map fun i => natOfBytes (sliceBytes list (2 * i) 2), count := f 0x18 4, tag := f 0x1C 4
    rank := f 0x22 2, w := BitVec.ofNat 16 (f 0x24 2), type := f 0x26 1, root := f 0x28 2 }
/-- Parts in progress of a partition: team and operation. -/
def activeParts (q : Nat) (s : State) : List (Nat × EngOp) :=
  ((allTeams s).filter fun t => t.part == q).flatMap fun t => (t.l.ops.filter fun o => !o.done && o.part.isSome).map fun o => (t.id, o)
/-- The kind of a collective operation. -/
def EngOp.collKind (o : EngOp) : Nat := match o.op with | .coll k _ => k | _ => 0
/-- Kind of its chunks (R25): 0 fixed-point reduction, 1 raw words. -/
def EngOp.chunkKind (o : EngOp) : Nat := if o.collKind = 0 then 0 else 1

/-! ## Chunks (R25, R241 to R246) -/

/-- c1 and c2 of a chunk's elements (R245). -/
def checkSums (x : List W64) : W64 × W64 :=
  x.foldl (fun (a : W64 × W64 × W64) v => (a.1 + v, a.2.1 + (a.2.2 + 1) * v, a.2.2 + 1)) ((0 : W64), (0 : W64), (0 : W64)) |> fun a => (a.1, a.2.1)
/-- Flags of the collective flag word (R237). -/
def FX.lword (f : FX) : Nat := nb f.nv + nb f.of * 2 + nb f.uf * 4 + nb f.nx * 8
/-- OR flags into the team's collective flag word (R238). -/
def orLflag (team f : Nat) (s : State) : State :=
  modTeam team (fun t => { t with lflag := t.lflag ||| w64 f, lset := setBits s.ck t.lset f }) s
/-- Format of a reduction's elements. -/
def collFmt (type : Nat) : Fmt := if type = 0 then fmtF32 else if type = 1 then fmtF16 else fmtBf16
/-- Wire elements of a contribution's bytes, and their flags (R241, R242). -/
def wireOf (p : CollPart) (kind : Nat) (bs : List Byte) : List W64 × FX :=
  let n := if kind = 0 then collElem p.type else 8
  let one (i : Nat) : W64 × FX :=
    let v := natOfBytes (sliceBytes bs (n * i) n)
    if kind ≠ 0 then (w64 v, {}) else if p.type = 3 then (BitVec.ofInt 64 (sextInt 32 v), {}) else toWire p.w.toInt ((collFmt p.type).read v)
  let r := (List.range (bs.length / n)).map one
  (r.map (·.1), (r.map (·.2)).foldl FX.or {})
/-- Bytes and flags of reduced or raw elements at the destination (R244). -/
def unwire (p : CollPart) (kind : Nat) (x : List W64) : List Byte × FX :=
  if kind ≠ 0 then (x.flatMap fun v => bytesOfNat 8 v.toNat, {})
  else if p.type = 3 then (x.flatMap fun v => bytesOfNat 4 (v.toNat % 2 ^ 32), {})
  else
    let r := x.map fun v => ofWire (collFmt p.type) p.w.toInt v
    (r.flatMap fun v => bytesOfNat (collElem p.type) v.1, (r.map (·.2)).foldl FX.or {})
/-- A CHUNK packet (R22, R25): the collective's identifier and the chunk's index travel in va (log 11). -/
def chunkPacket (p : CollPart) (kind q dst k : Nat) (x : List W64) (c1 c2 : W64) (s : State) : Packet :=
  let body := x.flatMap fun v => bytesOfNat 8 v.toNat
  let pad := List.replicate ((32 - body.length % 32) % 32) (0 : Byte)
  let tail := bytesOfNat 8 c1.toNat ++ bytesOfNat 8 c2.toNat ++ bytesOfNat 2 p.w.toNat ++ bytesOfNat 2 x.length ++ bytesOfNat 4 k ++ bytesOfNat 1 kind ++ bytesOfNat 7 0
  let (id, _) := fresh s
  { newPacket 0x30 dst (3 * 2 ^ 12) id q s with va := p.tag + k % 2 ^ 24 * 2 ^ 32, len := body.length - 1, payload := body ++ pad ++ tail }
/-- The answer to a chunk (R22). -/
def sendChunkAck (tag tenant dst k status ptag : Nat) (s : State) : State :=
  sendPacket { op := 0x31, tc := 3, dst := dst, srcm := ctlFld .modid 0 16 s, agent := 3 * 2 ^ 12, tag := ptag % 2 ^ 16, tenant := tenant, va := tag + k % 2 ^ 24 * 2 ^ 32, status := status } s
/-- The engine's own next step for an operation: an event that names the operation and its team (log 5). -/
def ownStep (team id q : Nat) : Instr :=
  .chunk { tag := id, tenant := q, srcm := 2 ^ 16, rank := team, x := [], c1 := 0, c2 := 0, w := 0, count := 0, chunk := 0, kind := 2 }
/-- Change a part in progress. -/
def modPartOf (team id : Nat) (f : CollPart → CollPart) (s : State) : State := modOp team 2 id (fun o => { o with part := o.part.map f }) s

/-! ## Failures (R359, R375) -/

/-- A refused access of a collective fails its part; status 3 is made again after the wake. -/
def collNack (t : Team) (o : EngOp) (k : Nat) (n : NackMsg) (s : State) : State :=
  if n.status = 3 then modOp t.id 2 o.id (fun o => { o with retry := some n.home }) s
  else if n.status = 1 ∨ n.status = 2 then failOp t.id 2 o 0x08 k s
  else failOp t.id 2 o 0x07 n.status s

/-! ## The engine's steps (R373 to R375) -/

/-- This part contributes chunks of its own. -/
def contributes (o : EngOp) (p : CollPart) : Bool := o.collKind != 1 || p.rank == p.root
/-- Begin a part: read and check its descriptor and list. The key of src is tested where this part reads it, of dst at every part, which writes it
(R373). -/
def collStart (t : Team) (o : EngOp) (desc : W64) (s : State) : State :=
  let fail (c : Nat) (s : State) : State := failOp t.id 2 o c 0 s
  if vaOf desc % 64 ≠ 0 then fail 0x03 s
  else match engFetch t .l o (pieces desc 64) s with
    | (.later, s) => s
    | (.bad, s) => fail 0x06 s
    | (.no n, s) => collNack t o 0 n s
    | (.ok bs, s) =>
      if !descOk o.collKind bs then fail 0x01 s
      else
        let list := w64 (natOfBytes (sliceBytes bs 0x10 8))
        if !baseOk t.part 1 list s then fail 0x08 s
        else match engFetch t .l { o with rd := bs } (pieces desc 64 ++ (pieces list (2 * natOfBytes (sliceBytes bs 0x20 2))).map fun x => (x.1, x.2.1 + 64, x.2.2)) s with
          | (.later, s) => s
          | (.bad, s) => fail 0x06 s
          | (.no n, s) => collNack t o 0 n s
          | (.ok ls, s) =>
            let p := partOfDesc bs (ls.drop 64)
            let es := if o.collKind = 0 then collElem p.type else 8
            if p.mods.getD p.rank 0 ≠ ctlFld .modid 0 16 s ∨ p.mods.eraseDups.length ≠ p.mods.length
                ∨ (activeParts t.part s).any (fun a => (a.2.part.map (·.tag)) == some p.tag) then fail 0x01 s
            else if vaOf p.src % es ≠ 0 ∨ vaOf p.dst % es ≠ 0 then fail 0x03 s
            else if (contributes o p && !baseOk t.part 1 p.src s) || !baseOk t.part 2 p.dst s then fail 0x08 s
            else endAsk o.id (modOp t.id 2 o.id (fun o => { o with part := some p, rd := [] }) s)
/-- Bytes of a unit at the source. -/
def srcUnit (o : EngOp) (p : CollPart) : Nat := if o.collKind = 0 then collElem p.type else 8
/-- The module a broadcast's chunks go on to from this part, and the one they come from: they pass through the parts in order of rank,
beginning at the root, so that a part completes only after every other was issued (R189, R374, log 49). -/
def nextInChain (p : CollPart) : Option Nat :=
  let n := p.mods.length
  if (p.rank + 1) % n = p.root then none else p.mods[(p.rank + 1) % n]?
def prevInChain (p : CollPart) : Option Nat := if p.rank = p.root then none else p.mods[(p.rank + p.mods.length - 1) % p.mods.length]?
/-- Modules a chunk of this part's is sent to. -/
def collPeers (o : EngOp) (p : CollPart) (s : State) : List Nat :=
  if o.collKind = 1 then (nextInChain p).toList else p.mods.filter fun m => m != ctlFld .modid 0 16 s
/-- Form the next chunk of this part's contribution and send it to the other parts; its flags wait until the chunk completes (R238). -/
def collSend (t : Team) (o : EngOp) (p : CollPart) (s : State) : State :=
  let k := o.prog
  let n := p.unitsOf o.chunkKind k
  match engFetch t .l o (pieces (ptrAdd p.src (512 * k * srcUnit o p : Nat)) (n * srcUnit o p)) s with
  | (.later, s) => s
  | (.bad, s) => failOp t.id 2 o 0x06 k s
  | (.no n, s) => collNack t o k n s
  | (.ok bs, s) =>
    let (x, f) := wireOf p o.chunkKind bs
    let (c1, c2) := checkSums x
    let s := modPartOf t.id o.id (fun p => { p with got := p.got ++ [(k, p.rank, x, c1, c2)], fl := p.fl ++ [(k, f.lword)] }) s
    let s := endAsk o.id (modOp t.id 2 o.id (fun o => { o with prog := o.prog + 1, rd := [] }) s)
    forEach (collPeers o p s) (fun m s => sendPacket (chunkPacket p o.chunkKind t.part m k x c1 c2 s) (fresh s).2) s
/-- The next chunk of a broadcast that this part has received and has to send on (R374, log 49). -/
def toForward (o : EngOp) (p : CollPart) : Option (Nat × Nat × List W64 × W64 × W64) :=
  if o.collKind != 1 || (nextInChain p).isNone then none
  else (p.ptags.find? fun x => !p.sentOn.contains x.1).bind fun x => p.got.find? fun g => g.1 == x.1
/-- Send a broadcast's chunk on along the chain. -/
def collForward (t : Team) (o : EngOp) (p : CollPart) (g : Nat × Nat × List W64 × W64 × W64) (s : State) : State :=
  let s := modPartOf t.id o.id (fun p => { p with sentOn := g.1 :: p.sentOn }) s
  forEach (nextInChain p).toList (fun m s => sendPacket (chunkPacket p o.chunkKind t.part m g.1 g.2.2.1 g.2.2.2.1 g.2.2.2.2 s) (fresh s).2) s
/-- Every peer that this part sends to has reserved space for it (R375); when one does that is free, for it waits until its own part is issued
(log 93). -/
def collGrant (t : Team) (o : EngOp) (p : CollPart) (s : State) : Bool × State :=
  match (collPeers o p s).filter fun m => !p.granted.contains m with
  | [] => (true, s)
  | m :: rest =>
    let (yes, s) := toss s
    if yes then (rest.isEmpty, modPartOf t.id o.id (fun p => { p with granted := p.granted ++ [m] }) s) else (false, s)
/-- Contributions whose arrival a chunk's delivery needs: all for a reduction, else one. -/
def deliverable (o : EngOp) (p : CollPart) : Option (Nat × Nat × List W64 × W64 × W64) :=
  if o.collKind = 0 then
    ((List.range (p.chunks 0)).find? fun k => !p.done.contains k && decide ((p.got.filter fun g => g.1 == k).length = p.mods.length)).map fun k =>
      let gs := p.got.filter fun g => g.1 == k
      (k, 0, (List.range (p.unitsOf 0 k)).map (fun i => (gs.map fun g => g.2.2.1.getD i 0).foldl (· + ·) 0), (gs.map fun g => g.2.2.2.1).foldl (· + ·) 0,
        (gs.map fun g => g.2.2.2.2).foldl (· + ·) 0)
  else p.got.find? fun g => !p.done.contains (g.1 + g.2.1 * p.chunks 1)
/-- Where a chunk goes. -/
def collTarget (o : EngOp) (p : CollPart) (k rank : Nat) : W64 :=
  ptrAdd p.dst ((if o.collKind = 2 then rank * p.count else 0) + 512 * k * srcUnit o p : Nat)
/-- Deliver a chunk whose contributions have arrived and been checked (R245); it is complete, and its flags are set (R238). -/
def collDeliver (t : Team) (o : EngOp) (p : CollPart) (g : Nat × Nat × List W64 × W64 × W64) (s : State) : State :=
  let (k, rank, x, c1, c2) := g
  if checkSums x ≠ (c1, c2) then failOp t.id 2 o 0x09 k s
  else
    let (bs, f) := unwire p o.chunkKind x
    match engWrite t .l o bs (pieces (collTarget o p k rank) bs.length) o.wpos s with
    | (.ok _, _, s) =>
      let formed := ((p.fl.filter fun y => y.1 == k).map (·.2)).foldl (· ||| ·) f.lword
      let s := endAsk o.id (modOp t.id 2 o.id (fun o => { o with wpos := 0 }) s)
      orLflag t.id formed (modPartOf t.id o.id (fun p => { p with
        done := (k + rank * p.chunks 1 * nb (o.collKind != 0)) :: p.done, fl := p.fl.filter fun y => y.1 != k }) s)
    | (.no n, w, s) => collNack t o k n (modOp t.id 2 o.id (fun o => { o with wpos := w }) s)
    | (_, w, s) => modOp t.id 2 o.id (fun o => { o with wpos := w }) s
/-- Everything is delivered, and every chunk sent is acknowledged (R189, R375). -/
def collDone (o : EngOp) (p : CollPart) : Bool :=
  let k := p.chunks o.chunkKind
  let due := if o.collKind = 2 then k * p.mods.length else k
  let acks := if o.collKind = 1 then (nextInChain p).toList.length else p.mods.length - 1
  decide (p.done.length = due) && decide (p.acked.length = k * acks)
/-- What the issuing team's core wrote has been performed everywhere, before the part does anything (R189). -/
def publishAll (t : Team) (s : State) : Bool × State :=
  let (ok, s) := publish t s
  let (ids, s) := flushRemote false t.part s
  (ok && ids.isEmpty, s)
/-- The engine goes on with an operation. -/
def collStep (team id : Nat) (s : State) : State :=
  match teamOf team s with
  | none => s
  | some t =>
    match t.l.ops.find? fun o => o.id == id with
    | none => s
    | some o =>
      if o.done then s
      else if !opReady t o s then causeOnce (ownStep team id t.part) s
      else
        match o.part, o.op with
        | none, .coll _ desc =>
          let (ok, s) := publishAll t s
          causeOnce (ownStep team id t.part) (if ok then collStart t o desc s else s)
        | none, _ => s
        | some p, _ =>
          let again (s : State) : State := causeOnce (ownStep team id t.part) s
          let mine := contributes o p && decide (o.prog < p.chunks o.chunkKind)
          let (ok, s) := if mine || (toForward o p).isSome then collGrant t o p s else (false, s)
          if ok && mine then again (collSend t o p s)
          else match (if ok then toForward o p else none), deliverable o p with
            | some g, _ => again (collForward t o p g s)
            | none, some g => again (collDeliver t o p g s)
            | none, none => if collDone o p then finishOp team 2 id s else if mine || (toForward o p).isSome then again s else s

/-! ## The events -/

/-- The active part a chunk or its acknowledgement belongs to: team, operation, part. -/
def partFor (tag tenant : Nat) (s : State) : Option (Nat × EngOp) :=
  (List.range 64).findSome? fun q =>
    if ctlFld (.fjTenant q) 16 1 s = 1 ∧ ctlFld (.fjTenant q) 0 16 s = tenant then
      (activeParts q s).find? fun a => (a.2.part.map (·.tag)) == some tag
    else none
/-- A partition with this tenant is enabled here and not being reset (R23, R66). -/
def tenantHere (tenant : Nat) (s : State) : Bool :=
  (List.range 64).any fun q => ctlFld (.fjTenant q) 16 1 s == 1 && ctlFld (.fjTenant q) 0 16 s == tenant && !(partOf q s).resetting
/-- A chunk from a peer: it is checked, then kept for its delivery, and acknowledged (R245, R246, R375). A broadcast's chunk goes on along the
chain, and is acknowledged when the part after this one has acknowledged it. -/
def peerChunk (c : ChunkMsg) (team : Nat) (o : EngOp) (p : CollPart) (s : State) : State :=
  match teamOf team s with
  | none => s
  | some t =>
    let rank := p.mods.findIdx fun m => m == c.srcm
    let on := if o.collKind = 1 then nextInChain p else none
    if c.kind ≠ o.chunkKind ∨ c.w ≠ p.w ∨ c.count ≠ p.unitsOf o.chunkKind c.chunk ∨ p.mods.length ≤ rank ∨ (o.collKind = 1 ∧ prevInChain p ≠ some c.srcm) then
      failOp t.id 2 o 0x0A c.chunk (sendChunkAck c.tag c.tenant c.srcm c.chunk 6 c.ptag s)
    else if checkSums c.x ≠ (c.c1, c.c2) then failOp t.id 2 o 0x09 c.chunk (sendChunkAck c.tag c.tenant c.srcm c.chunk 4 c.ptag s)
    else
      let new := !(p.got.any fun g => g.1 == c.chunk && g.2.1 == (if o.collKind = 1 then p.root else rank))
      let s := if new then modPartOf team o.id (fun p => { p with got := p.got ++ [(c.chunk, if o.collKind = 1 then p.root else rank, c.x, c.c1, c.c2)] }) s else s
      let s := match on with
        | some m => if new then modPartOf team o.id (fun p => { p with ptags := p.ptags ++ [(c.chunk, c.ptag)] }) s
                    else if p.acked.contains (c.chunk, m) then sendChunkAck c.tag c.tenant c.srcm c.chunk 0 c.ptag s else s
        | none => sendChunkAck c.tag c.tenant c.srcm c.chunk 0 c.ptag s
      causeOnce (ownStep team o.id t.part) s
/-- CHUNK (R245): the engine's own step, or a chunk of a peer. A chunk for a part not yet issued waits (R375); one that no partition here
may take is refused (R23, R66). -/
def execChunk (c : ChunkMsg) (s : State) :=
  event (fun s =>
    if c.kind = 2 then collStep c.rank c.tag s
    else if !tenantHere c.tenant s then sendChunkAck c.tag c.tenant c.srcm c.chunk 7 c.ptag s
    else match partFor c.tag c.tenant s with
      | some (team, o) => (match o.part with | some p => peerChunk c team o p s | none => s)
      | none =>
        match (List.range 64).find? fun q => ctlFld (.fjTenant q) 16 1 s == 1 && ctlFld (.fjTenant q) 0 16 s == c.tenant && (partOf q s).abandoned.contains (c.tag, c.srcm) with
        | some q => sendChunkAck c.tag c.tenant c.srcm c.chunk 7 c.ptag (modPart q (fun p => { p with abandoned := p.abandoned.filter (· != (c.tag, c.srcm)) }) s)
        | none => cause (.chunk c) s) s
/-- CHUNKACK (R24, R375); along a broadcast's chain it goes back towards the root. -/
def execChunkack (tag tenant srcm chunk status : Nat) (s : State) :=
  event (fun s =>
    match partFor tag tenant s with
    | none => s
    | some (team, o) =>
      let s := match o.part.bind fun p => if o.collKind = 1 then prevInChain p else none with
        | some m => sendChunkAck tag tenant m chunk status (alGet 0 chunk ((o.part.map (·.ptags)).getD [])) s
        | none => s
      if status = 0 then
        causeOnce (ownStep team o.id ((teamOf team s).map (·.part) |>.getD 0))
          (modPartOf team o.id (fun p => { p with acked := if p.acked.contains (chunk, srcm) then p.acked else p.acked ++ [(chunk, srcm)] }) s)
      else
        let c := if status = 6 then 0x0A else if status = 7 then 0x0B else 0x07
        failOp team 2 o c (if c = 0x07 then status else chunk) s) s

/-! ## Major 0x3A kinds 0 to 2 -/

/-- Issue a part of a collective (R373): only the descriptor pointer's key is checked; at most four are in flight (R357). -/
def collBody (kind : Nat) (a : Reg) (s : State) : Eff :=
  let t := s.cur
  if !baseOk t.part 1 (t.gs a) s then .trap 0x09 (fullMask t.width) (w64 (2 ^ 63))
  else if 4 ≤ t.l.inFlight then .stay s
  else
    let s := issueOp 2 (.coll kind (t.gs a)) s
    .done (match s.cur.l.ops.getLast? with | some o => cause (ownStep t.id o.id t.part) s | none => s)
def execCred (a : Reg) (s : State) := word (.cred a) (collBody 0 a) s
def execCbcast (a : Reg) (s : State) := word (.cbcast a) (collBody 1 a) s
def execCgath (a : Reg) (s : State) := word (.cgath a) (collBody 2 a) s

end Sys2Proof.Machine
end

