-- ==== Sys2Proof/Machine/Control.lean ====
section
/-! DEFINITION. Major 0x3D, control flow (R292 to R297), and major 0x3E, hints (R269 to R273). -/

namespace Sys2Proof.Machine

/-- The target of a pc-relative transfer (R292). -/
def relTarget (pc : W64) (i : BitVec 16) : W64 := pc + 4 * i.signExtend 64
/-- The scalar conditions of R293. -/
def brHolds (c : BrCond) (x : W64) : Bool :=
  match c with
  | .z => x == 0 | .nz => x != 0 | .lt => x.slt 0 | .ge => !x.slt 0 | .gt => (0 : W64).slt x | .le => !(0 : W64).slt x
/-- The mask conditions of R293. -/
def brMaskHolds (c : BrMask) (m : Mask) (w : Nat) : Bool :=
  match c with
  | .kany => m != 0 | .knone => m == 0 | .kall => m &&& fullMask w == fullMask w | .knall => m &&& fullMask w != fullMask w

def execBrScalar (c : BrCond) (a : Reg) (i : BitVec 16) (s : State) :=
  word (.brScalar c a i) (fun s => if brHolds c (s.cur.gs a) then .jump s (relTarget s.cur.pc i) else .done s) s
def execBrMask (c : BrMask) (k : KReg) (i : BitVec 16) (s : State) :=
  word (.brMask c k i) (fun s => if brMaskHolds c (s.cur.gk k) s.cur.width then .jump s (relTarget s.cur.pc i) else .done s) s
def execJmp (i : BitVec 16) (s : State) := word (.jmp i) (fun s => .jump s (relTarget s.cur.pc i)) s
/-- The link is the address after the call, key included; with s0 it is discarded (R294). -/
def execCall (a : Reg) (i : BitVec 16) (s : State) :=
  word (.call a i) (fun s => .jump (modCur (fun t => t.ss a (nextPc t)) s) (relTarget s.cur.pc i)) s
/-- A target with bits [1:0] not 0 traps MISALIGNED at the `jr` (R294, R381). -/
def execJr (a : Reg) (i : BitVec 16) (s : State) :=
  word (.jr a i) (fun s =>
    let target := s.cur.gs a + 4 * i.signExtend 64
    if fld target 0 2 = 0 then .jump s target else .trap 0x05 (fullMask s.cur.width) 0) s
/-- `exit` (R118, R295): withdrawals, then draining; in a handler the saved trap state is discarded. -/
def execExit (s : State) :=
  event (fun s => tryRetire s.cur.id (issueWord .exit (fun s =>
    let id := s.cur.id
    let s := withdraw id s
    let s := modCur (fun t => { t with exited := true, handler := false, tr := {}, reexec := none }.drain s.ck) s
    .done (barRecheck s.cur.wg s)) s)) s
def execNop (s : State) := word .nop (fun s => .done s) s

/-! ## Hints -/

/-- `hint.imm` (R269, R270): the first sets imm by sign extension, up to two more shift it on; anything else makes the group malformed. -/
def hintImmLatch (h : Hint) (p : BitVec 23) : Hint :=
  if h.nimm = 0 then { h with imm := p.signExtend 64, nimm := 1, lastImm := true }
  else if h.lastImm ∧ h.nimm < 3 then { h with imm := h.imm * 0x80_0000 + p.setWidth 64, nimm := h.nimm + 1 }
  else { h with bad := true, lastImm := false }
/-- `hint.off` (R271); a second one makes the group malformed (R269). -/
def hintOffLatch (h : Hint) (o : BitVec 23) : Hint :=
  if h.offv then { h with bad := true, lastImm := false } else { h with off := o, offv := true, lastImm := false }
/-- `hint.mod` (R272). -/
def hintModLatch (h : Hint) (bx : BitVec 2) (sat ftz : Bool) (rm : BitVec 2) : Hint :=
  if h.modv then { h with bad := true, lastImm := false }
  else { h with bx := bx, sat := sat, ftz := ftz, rm := rm, modv := true, lastImm := false }
/-- `hint.sched` (R273). -/
def hintSchedLatch (h : Hint) (p : BitVec 3) : Hint :=
  if h.schedv then { h with bad := true, lastImm := false } else { h with sched := p, schedv := true, lastImm := false }

/-- A hint word issues: it changes only the latch (and is fed) and never traps itself (R269). -/
def hintWord (i : Instr) (f : Hint → Hint) (s : State) : Host.Outcome State Fault Refusal :=
  .next (retire s.cur i false (nextPc s.cur) (modCur (fun t => { t with hint := f (hintStart t) }) s))
def execHintImm (p : BitVec 23) (s : State) := hintWord (.hintImm p) (fun h => hintImmLatch h p) s
def execHintOff (o : BitVec 23) (s : State) := hintWord (.hintOff o) (fun h => hintOffLatch h o) s
def execHintMod (bx : BitVec 2) (sat ftz : Bool) (rm : BitVec 2) (s : State) :=
  hintWord (.hintMod bx sat ftz rm) (fun h => hintModLatch h bx sat ftz rm) s
def execHintSched (p : BitVec 3) (s : State) := hintWord (.hintSched p) (fun h => hintSchedLatch h p) s

end Sys2Proof.Machine
end

