-- ==== Sys2Proof/Machine/Flags.lean ====
section
/-! DEFINITION. The sticky flag sets: an instruction sets the bits its active lanes raise and clears none (R226). -/

namespace Sys2Proof.Machine

/-- The mask of the lanes for which a flag was raised. -/
def raisedMask (w : Nat) (r : List (Option FX)) (g : FX → Bool) : Mask :=
  maskOf w fun l => match r.getD l none with | some x => g x | none => false
/-- OR the flags that lanes raised into the team's flag sets (R226). -/
def Team.raise (t : Team) (r : List (Option FX)) : Team :=
  { t with flags := {
      nv := t.flags.nv ||| raisedMask t.width r FX.nv, dz := t.flags.dz ||| raisedMask t.width r FX.dz
      of := t.flags.of ||| raisedMask t.width r FX.of, uf := t.flags.uf ||| raisedMask t.width r FX.uf
      nx := t.flags.nx ||| raisedMask t.width r FX.nx } }
/-- The rounding mode in effect: RNE without a `hint.mod` (R223). -/
def Team.rmode (t : Team) : RMode := if t.hint.modv then rmOf t.hint.rm else .rne
/-- FTZ is in effect (R224). -/
def Team.ftz (t : Team) : Bool := t.hint.modv && t.hint.ftz
/-- SAT is in effect (R228). -/
def Team.sat (t : Team) : Bool := t.hint.modv && t.hint.sat

/-- Active lanes' results and flags, in lane order. -/
def lanesRun (t : Team) (f : Nat → Nat × FX) : List (Option (Nat × FX)) :=
  (List.range t.width).map fun l => if t.act l then some (f l) else none
/-- A floating-point result in active lanes, its flags raised there (R226, R304). -/
def Team.putFp (t : Team) (d : Reg) (r : List (Option (Nat × FX))) : Team :=
  if t.gk 0 = 0 then t
  else (t.sv d fun l => (r.getD l none).map fun x => w32 x.1).raise (r.map fun x => x.map (·.2))
/-- A floating-point vector instruction. -/
def fpOp (i : Instr) (d : Reg) (f : Team → Nat → Nat × FX) : State → Host.Outcome State Fault Refusal :=
  word i fun s => .done (modCur (fun t => t.putFp d (lanesRun t (f t))) s)

end Sys2Proof.Machine
end

