-- ==== Sys2Proof/Machine/Scalar.lean ====
section
/-! DEFINITION. Majors 0x01 to 0x0A: scalar arithmetic, immediates and special values (R283 to R291). -/

namespace Sys2Proof.Machine

/-! ## The functions of R287 and R288 -/

/-- Signed quotient truncated toward zero, with the corners of R287. -/
def sdivI (a b : W64) : W64 := if b = 0 then BitVec.allOnes 64 else BitVec.sdiv a b
/-- Unsigned quotient (R287). -/
def sdivN (a b : W64) : W64 := if b = 0 then BitVec.allOnes 64 else a / b
/-- Signed remainder with the sign of A (R287). -/
def sremI (a b : W64) : W64 := if b = 0 then a else BitVec.srem a b
/-- Unsigned remainder (R287). -/
def sremN (a b : W64) : W64 := if b = 0 then a else a % b
/-- High half of the signed product (R287). -/
def mulhI {n : Nat} (a b : BitVec n) : BitVec n := BitVec.ofInt n ((a.toInt * b.toInt) / (2 : Int) ^ n)
/-- High half of the unsigned product (R287). -/
def mulhN {n : Nat} (a b : BitVec n) : BitVec n := BitVec.ofNat n ((a.toNat * b.toNat) / 2 ^ n)
/-- Leading zero bits of `x` below bit `n`. -/
def leadZeros (x : Nat) : Nat → Nat
  | 0 => 0
  | n + 1 => if x.testBit n then 0 else leadZeros x n + 1
/-- Trailing zero bits of `x`, at most `n`. -/
def trailZeros (x : Nat) : Nat → Nat
  | 0 => 0
  | n + 1 => if x % 2 = 1 then 0 else trailZeros (x / 2) n + 1
/-- Set bits among the low `n`. -/
def popCount (x : Nat) : Nat → Nat
  | 0 => 0
  | n + 1 => x % 2 + popCount (x / 2) n
/-- Field position, width and existing bits from B (R288). -/
def fieldSpec (b : W64) : Nat × Nat :=
  let lo := fld b 0 6
  (lo, min (fld b 8 7) (64 - lo))
/-- `sbfx` (R288). -/
def sbfx (signed : Bool) (a b : W64) : W64 :=
  let (lo, n) := fieldSpec b
  if n = 0 then 0 else if signed then BitVec.ofInt 64 (sextInt n (fld a lo n)) else w64 (fld a lo n)
/-- `sbfi` (R288). -/
def sbfiOf (old a b : W64) : W64 :=
  let (lo, n) := fieldSpec b
  if n = 0 then old else w64 (old.toNat - fld old lo n * 2 ^ lo + fld a 0 n * 2 ^ lo)
/-- The comparisons of R287 and R312. -/
def cmpHolds {n : Nat} (c : Cmp) (a b : BitVec n) : Bool :=
  match c with
  | .eq => a == b | .ne => a != b | .ltI => a.slt b | .geI => !a.slt b | .ltN => a.ult b | .geN => !a.ult b
/-- Lesser or greater, signed or unsigned (R287, R311). -/
def pick {n : Nat} (lt : Bool) (a b : BitVec n) : BitVec n := if lt then a else b

/-! ## Forms -/

/-- A scalar result: sources are read, then sD is written (R283, R284). -/
def scalarOp (i : Instr) (d : Reg) (f : Team → W64) : State → Host.Outcome State Fault Refusal :=
  word i fun s => .done (modCur (fun t => t.ss d (f t)) s)
/-- A two-source register operation (R286). -/
def scalar2 (i : Instr) (d a b : Reg) (f : W64 → W64 → W64) : State → Host.Outcome State Fault Refusal :=
  scalarOp i d fun t => f (t.gs a) (t.gs b)
/-- A single-source register operation (R286). -/
def scalar1 (i : Instr) (d a : Reg) (f : W64 → W64) : State → Host.Outcome State Fault Refusal :=
  scalarOp i d fun t => f (t.gs a)

/-! ## Major 0x01 -/

def execSadd (d a b : Reg) (ta tb : Bool) (s : State) := scalar2 (.sadd d a b ta tb) d a b (· + ·) s
def execSsub (d a b : Reg) (ta tb : Bool) (s : State) := scalar2 (.ssub d a b ta tb) d a b (· - ·) s
def execSmul (d a b : Reg) (ta tb : Bool) (s : State) := scalar2 (.smul d a b ta tb) d a b (· * ·) s
def execSmulhI64 (d a b : Reg) (ta tb : Bool) (s : State) := scalar2 (.smulhI64 d a b ta tb) d a b mulhI s
def execSmulhN64 (d a b : Reg) (ta tb : Bool) (s : State) := scalar2 (.smulhN64 d a b ta tb) d a b mulhN s
def execSdivI64 (d a b : Reg) (ta tb : Bool) (s : State) := scalar2 (.sdivI64 d a b ta tb) d a b sdivI s
def execSdivN64 (d a b : Reg) (ta tb : Bool) (s : State) := scalar2 (.sdivN64 d a b ta tb) d a b sdivN s
def execSremI64 (d a b : Reg) (ta tb : Bool) (s : State) := scalar2 (.sremI64 d a b ta tb) d a b sremI s
def execSremN64 (d a b : Reg) (ta tb : Bool) (s : State) := scalar2 (.sremN64 d a b ta tb) d a b sremN s
def execSand (d a b : Reg) (ta tb : Bool) (s : State) := scalar2 (.sand d a b ta tb) d a b (· &&& ·) s
def execSor (d a b : Reg) (ta tb : Bool) (s : State) := scalar2 (.sor d a b ta tb) d a b (· ||| ·) s
def execSxor (d a b : Reg) (ta tb : Bool) (s : State) := scalar2 (.sxor d a b ta tb) d a b (· ^^^ ·) s
def execSandn (d a b : Reg) (ta tb : Bool) (s : State) := scalar2 (.sandn d a b ta tb) d a b (fun x y => x &&& ~~~y) s
def execSshl (d a b : Reg) (ta tb : Bool) (s : State) := scalar2 (.sshl d a b ta tb) d a b (fun x y => x <<< fld y 0 6) s
def execSshr (d a b : Reg) (ta tb : Bool) (s : State) := scalar2 (.sshr d a b ta tb) d a b (fun x y => x >>> fld y 0 6) s
def execSsra (d a b : Reg) (ta tb : Bool) (s : State) := scalar2 (.ssra d a b ta tb) d a b (fun x y => x.sshiftRight (fld y 0 6)) s
def execSminI64 (d a b : Reg) (ta tb : Bool) (s : State) := scalar2 (.sminI64 d a b ta tb) d a b (fun x y => pick (x.slt y) x y) s
def execSminN64 (d a b : Reg) (ta tb : Bool) (s : State) := scalar2 (.sminN64 d a b ta tb) d a b (fun x y => pick (x.ult y) x y) s
def execSmaxI64 (d a b : Reg) (ta tb : Bool) (s : State) := scalar2 (.smaxI64 d a b ta tb) d a b (fun x y => pick (y.slt x) x y) s
def execSmaxN64 (d a b : Reg) (ta tb : Bool) (s : State) := scalar2 (.smaxN64 d a b ta tb) d a b (fun x y => pick (y.ult x) x y) s
def execSclz (d a : Reg) (ta : Bool) (s : State) := scalar1 (.sclz d a ta) d a (fun x => w64 (leadZeros x.toNat 64)) s
def execSctz (d a : Reg) (ta : Bool) (s : State) := scalar1 (.sctz d a ta) d a (fun x => w64 (trailZeros x.toNat 64)) s
def execSpopc (d a : Reg) (ta : Bool) (s : State) := scalar1 (.spopc d a ta) d a (fun x => w64 (popCount x.toNat 64)) s
def execSmov (d a : Reg) (ta : Bool) (s : State) := scalar1 (.smov d a ta) d a (fun x => x) s
def execSsel (d a b : Reg) (ta tb : Bool) (s : State) :=
  scalarOp (.ssel d a b ta tb) d (fun t => if t.gs d = 0 then t.gs b else t.gs a) s
def execSbfxI64 (d a b : Reg) (ta tb : Bool) (s : State) := scalar2 (.sbfxI64 d a b ta tb) d a b (sbfx true) s
def execSbfxN64 (d a b : Reg) (ta tb : Bool) (s : State) := scalar2 (.sbfxN64 d a b ta tb) d a b (sbfx false) s
def execSbfi (d a b : Reg) (ta tb : Bool) (s : State) :=
  scalarOp (.sbfi d a b ta tb) d (fun t => sbfiOf (t.gs d) (t.gs a) (t.gs b)) s
def execScmp (c : Cmp) (d a b : Reg) (ta tb : Bool) (s : State) :=
  scalar2 (.scmp c d a b ta tb) d a b (fun x y => w64 (nb (cmpHolds c x y))) s

/-! ## Majors 0x02 to 0x0A -/

def execSaddi (d a : Reg) (ta : Bool) (i : BitVec 13) (s : State) := scalarOp (.saddi d a ta i) d (fun t => t.gs a + immOf t i) s
def execSandi (d a : Reg) (ta : Bool) (i : BitVec 13) (s : State) := scalarOp (.sandi d a ta i) d (fun t => t.gs a &&& immOf t i) s
def execSori (d a : Reg) (ta : Bool) (i : BitVec 13) (s : State) := scalarOp (.sori d a ta i) d (fun t => t.gs a ||| immOf t i) s
def execSxori (d a : Reg) (ta : Bool) (i : BitVec 13) (s : State) := scalarOp (.sxori d a ta i) d (fun t => t.gs a ^^^ immOf t i) s
def execSshli (d a : Reg) (ta : Bool) (c : Fin 64) (s : State) := scalarOp (.sshli d a ta c) d (fun t => t.gs a <<< c.val) s
def execSshri (d a : Reg) (ta : Bool) (c : Fin 64) (s : State) := scalarOp (.sshri d a ta c) d (fun t => t.gs a >>> c.val) s
def execSsrai (d a : Reg) (ta : Bool) (c : Fin 64) (s : State) := scalarOp (.ssrai d a ta c) d (fun t => (t.gs a).sshiftRight c.val) s
def execSmovi (d : Reg) (i : BitVec 13) (s : State) := scalarOp (.smovi d i) d (fun t => immOf t i) s

/-- The special values of R76 and R249. -/
def specialValue (x : Special) (s : State) : W64 :=
  let t := s.cur
  let w := (wgOf t.wg s).getD {}
  let g := ((launchOf w.launch s).map fun l => l.stages.getD w.stage {}).getD {}
  match x with
  | .team => w64 t.num
  | .wg => w64 (w.x + w.y * 2 ^ 16 + w.z * 2 ^ 32)
  | .wgdim => w64 (w.T + nb w.wide * 128)
  | .grid => w64 (g.gx + g.gy * 2 ^ 16 + g.gz * 2 ^ 32)
  | .stage => w64 w.stage
  | .core => w64 t.core
  | .die => w64 (dieOf t.core s)
  | .width => w64 t.width
  | .time => s.time
def execSmovSpecial (d : Reg) (x : Special) (s : State) :=
  word (.smovSpecial d x) (fun s => .done (modCur (fun t => t.ss d (specialValue x s)) s)) s

end Sys2Proof.Machine
end

