-- ==== Sys2Proof/Machine/VecInt.lean ====
section
/-! DEFINITION. Majors 0x10 to 0x14: vector integer operations, comparisons, packing and integer conversion (R304 to R315). -/

namespace Sys2Proof.Machine

/-! ## Forms: results are written in active lanes only, and nothing is written when k0 is empty (R107, R304, R305) -/

/-- A vector result of 32-bit lanes. -/
def vecOp (i : Instr) (d : Reg) (f : Team → Nat → W32) : State → Host.Outcome State Fault Refusal :=
  word i fun s => .done (modCur (fun t => if t.gk 0 = 0 then t else t.sv d fun l => if t.act l then some (f t l) else none) s)
/-- A vector result of 64-bit pairs. -/
def vecOp64 (i : Instr) (d : Reg) (f : Team → Nat → W64) : State → Host.Outcome State Fault Refusal :=
  word i fun s => .done (modCur (fun t => if t.gk 0 = 0 then t else t.sv64 d fun l => if t.act l then some (f t l) else none) s)
/-- A two-source lane function at width 32 or 64 (R310). -/
def vec2 (i : Instr) (w : Bool) (d a b : Reg) (f32 : W32 → W32 → W32) (f64 : W64 → W64 → W64) : State → Host.Outcome State Fault Refusal :=
  if w then vecOp64 i d fun t l => f64 (t.lane64 a l) (t.lane64 b l) else vecOp i d fun t l => f32 (t.lane a l) (t.lane b l)
/-- A single-source lane function. -/
def vec1 (i : Instr) (w : Bool) (d a : Reg) (f32 : W32 → W32) (f64 : W64 → W64) : State → Host.Outcome State Fault Refusal :=
  if w then vecOp64 i d fun t l => f64 (t.lane64 a l) else vecOp i d fun t l => f32 (t.lane a l)
/-- A lane function that reads the old destination. -/
def vec3 (i : Instr) (w : Bool) (d a b : Reg) (f32 : W32 → W32 → W32 → W32) (f64 : W64 → W64 → W64 → W64) :
    State → Host.Outcome State Fault Refusal :=
  if w then vecOp64 i d fun t l => f64 (t.lane64 d l) (t.lane64 a l) (t.lane64 b l)
  else vecOp i d fun t l => f32 (t.lane d l) (t.lane a l) (t.lane b l)

def execVadd (w : Bool) (d a b : Reg) (ta tb : Bool) (s : State) := vec2 (.vadd w d a b ta tb) w d a b (· + ·) (· + ·) s
def execVsub (w : Bool) (d a b : Reg) (ta tb : Bool) (s : State) := vec2 (.vsub w d a b ta tb) w d a b (· - ·) (· - ·) s
def execVmul (w : Bool) (d a b : Reg) (ta tb : Bool) (s : State) := vec2 (.vmul w d a b ta tb) w d a b (· * ·) (· * ·) s
def execVmulhI (w : Bool) (d a b : Reg) (ta tb : Bool) (s : State) := vec2 (.vmulhI w d a b ta tb) w d a b mulhI mulhI s
def execVmulhN (w : Bool) (d a b : Reg) (ta tb : Bool) (s : State) := vec2 (.vmulhN w d a b ta tb) w d a b mulhN mulhN s
def execVmad (w : Bool) (d a b : Reg) (ta tb : Bool) (s : State) :=
  vec3 (.vmad w d a b ta tb) w d a b (fun x y z => y * z + x) (fun x y z => y * z + x) s
def execVand (w : Bool) (d a b : Reg) (ta tb : Bool) (s : State) := vec2 (.vand w d a b ta tb) w d a b (· &&& ·) (· &&& ·) s
def execVor (w : Bool) (d a b : Reg) (ta tb : Bool) (s : State) := vec2 (.vor w d a b ta tb) w d a b (· ||| ·) (· ||| ·) s
def execVxor (w : Bool) (d a b : Reg) (ta tb : Bool) (s : State) := vec2 (.vxor w d a b ta tb) w d a b (· ^^^ ·) (· ^^^ ·) s
def execVandn (w : Bool) (d a b : Reg) (ta tb : Bool) (s : State) :=
  vec2 (.vandn w d a b ta tb) w d a b (fun x y => x &&& ~~~y) (fun x y => x &&& ~~~y) s
def execVshl (w : Bool) (d a b : Reg) (ta tb : Bool) (s : State) :=
  vec2 (.vshl w d a b ta tb) w d a b (fun x y => x <<< (y.toNat % 32)) (fun x y => x <<< (y.toNat % 64)) s
def execVshr (w : Bool) (d a b : Reg) (ta tb : Bool) (s : State) :=
  vec2 (.vshr w d a b ta tb) w d a b (fun x y => x >>> (y.toNat % 32)) (fun x y => x >>> (y.toNat % 64)) s
def execVsra (w : Bool) (d a b : Reg) (ta tb : Bool) (s : State) :=
  vec2 (.vsra w d a b ta tb) w d a b (fun x y => x.sshiftRight (y.toNat % 32)) (fun x y => x.sshiftRight (y.toNat % 64)) s
def execVminI (w : Bool) (d a b : Reg) (ta tb : Bool) (s : State) :=
  vec2 (.vminI w d a b ta tb) w d a b (fun x y => pick (x.slt y) x y) (fun x y => pick (x.slt y) x y) s
def execVminN (w : Bool) (d a b : Reg) (ta tb : Bool) (s : State) :=
  vec2 (.vminN w d a b ta tb) w d a b (fun x y => pick (x.ult y) x y) (fun x y => pick (x.ult y) x y) s
def execVmaxI (w : Bool) (d a b : Reg) (ta tb : Bool) (s : State) :=
  vec2 (.vmaxI w d a b ta tb) w d a b (fun x y => pick (y.slt x) x y) (fun x y => pick (y.slt x) x y) s
def execVmaxN (w : Bool) (d a b : Reg) (ta tb : Bool) (s : State) :=
  vec2 (.vmaxN w d a b ta tb) w d a b (fun x y => pick (y.ult x) x y) (fun x y => pick (y.ult x) x y) s
def execVabs (w : Bool) (d a : Reg) (ta : Bool) (s : State) :=
  vec1 (.vabs w d a ta) w d a (fun x => if x.msb then -x else x) (fun x => if x.msb then -x else x) s
def execVclz (w : Bool) (d a : Reg) (ta : Bool) (s : State) :=
  vec1 (.vclz w d a ta) w d a (fun x => w32 (leadZeros x.toNat 32)) (fun x => w64 (leadZeros x.toNat 64)) s
def execVpopc (w : Bool) (d a : Reg) (ta : Bool) (s : State) :=
  vec1 (.vpopc w d a ta) w d a (fun x => w32 (popCount x.toNat 32)) (fun x => w64 (popCount x.toNat 64)) s
def execVmov (w : Bool) (d a : Reg) (ta : Bool) (s : State) := vec1 (.vmov w d a ta) w d a (fun x => x) (fun x => x) s
def execVsel (w : Bool) (d a b : Reg) (ta tb : Bool) (s : State) :=
  vec3 (.vsel w d a b ta tb) w d a b (fun x y z => if x = 0 then z else y) (fun x y z => if x = 0 then z else y) s

/-- A comparison into kD: every word is written when k0 is not empty, nothing otherwise; its enclosing mask is k0 (R312, R323). -/
def Team.putCmp (t : Team) (d : KReg) (f : Nat → Bool) : Team :=
  if t.gk 0 = 0 then t else t.sk d (maskOf t.width fun l => t.act l && f l)
def execVcmp (c : Cmp) (w : Bool) (d : KReg) (a b : Reg) (ta tb : Bool) (s : State) :=
  word (.vcmp c w d a b ta tb) (fun s => .done (modCur (fun t => t.putCmp d fun l =>
    if w then cmpHolds c (t.lane64 a l) (t.lane64 b l) else cmpHolds c (t.lane a l) (t.lane b l)) s)) s
def execVaddi (d a : Reg) (ta : Bool) (i : BitVec 13) (s : State) :=
  vecOp (.vaddi d a ta i) d (fun t l => t.lane a l + (immOf t i).setWidth 32) s

/-! ## Conversion (R315) -/

/-- Width in bits and signedness of an integer type. -/
def itypeInfo : IType → Nat × Bool
  | .i8 => (8, true) | .n8 => (8, false) | .i16 => (16, true) | .n16 => (16, false)
  | .i32 => (32, true) | .n32 => (32, false) | .i64 => (64, true) | .n64 => (64, false)
/-- The exact integer of a source element (R315). -/
def itypeRead (x : IType) (v : W64) : Int :=
  let (n, sg) := itypeInfo x
  if sg then sextInt n v.toNat else (v.toNat % 2 ^ n : Nat)
/-- Smallest and largest value of a type. -/
def itypeRange (x : IType) : Int × Int :=
  let (n, sg) := itypeInfo x
  if sg then (-(2 : Int) ^ (n - 1), (2 : Int) ^ (n - 1) - 1) else (0, (2 : Int) ^ n - 1)
/-- Deliver an exact integer to a type: itself, wrapped, or clamped (R315); the lane is filled as R304 gives. -/
def itypeWrite (x : IType) (sat : Bool) (v : Int) : W64 :=
  let (n, sg) := itypeInfo x
  let (lo, hi) := itypeRange x
  let r := if lo ≤ v ∧ v ≤ hi then v else if sat then (if v < lo then lo else hi) else
    (if sg then sextInt n (wrapNat n v) else (wrapNat n v : Nat))
  BitVec.ofInt 64 r
def execVcvt (dst src : IType) (d a : Reg) (ta : Bool) (s : State) :=
  let conv (t : Team) (l : Nat) : W64 :=
    itypeWrite dst (t.hint.modv && t.hint.sat) (itypeRead src (if src.wide then t.lane64 a l else (t.lane a l).setWidth 64))
  if dst.wide then vecOp64 (.vcvt dst src d a ta) d conv s
  else vecOp (.vcvt dst src d a ta) d (fun t l => (conv t l).setWidth 32) s

/-! ## Major 0x14 (R314) -/

def execVbcastB32 (d a : Reg) (ta : Bool) (s : State) := vecOp (.vbcastB32 d a ta) d (fun t _ => (t.gs a).setWidth 32) s
def execVlane (d : Reg) (s : State) := vecOp (.vlane d) d (fun _ l => w32 l) s
def execVpackB16 (d a b : Reg) (ta tb : Bool) (s : State) :=
  vecOp (.vpackB16 d a b ta tb) d (fun t l => w32 ((t.lane b l).toNat % 2 ^ 16 * 2 ^ 16 + (t.lane a l).toNat % 2 ^ 16)) s
def execVpackB8 (d a b : Reg) (ta tb : Bool) (s : State) :=
  vecOp (.vpackB8 d a b ta tb) d (fun t l =>
    w32 ((t.lane b l).toNat % 2 ^ 8 * 2 ^ 24 + (t.lane a l).toNat % 2 ^ 8 * 2 ^ 16 + (t.lane d l).toNat / 2 ^ 16)) s
def execVunpackB16 (d a b : Reg) (ta tb : Bool) (s : State) :=
  vecOp (.vunpackB16 d a b ta tb) d (fun t l => w32 ((t.lane a l).toNat / 2 ^ (16 * fld (t.gs b) 0 1) % 2 ^ 16)) s
def execVunpackB8 (d a b : Reg) (ta tb : Bool) (s : State) :=
  vecOp (.vunpackB8 d a b ta tb) d (fun t l => w32 ((t.lane a l).toNat / 2 ^ (8 * fld (t.gs b) 0 2) % 2 ^ 8)) s
def execVbcastB64 (d a : Reg) (ta : Bool) (s : State) := vecOp64 (.vbcastB64 d a ta) d (fun t _ => t.gs a) s

end Sys2Proof.Machine
end

