-- ==== Sys2Proof/Machine/Cross.lean ====
section
/-! DEFINITION. Majors 0x16 to 0x18: cross-lane instructions (R325 to R329). -/

namespace Sys2Proof.Machine

/-- Each active lane takes the lane of A that B names, 0 when it names none (R326). -/
def execVperm (d a b : Reg) (ta tb : Bool) (s : State) :=
  vecOp (.vperm d a b ta tb) d (fun t l => let i := (t.lane b l).toNat; if i < t.width then t.lane a i else 0) s
/-- A shuffle: lane l takes A[j] when j names a lane, its own otherwise (R327). -/
def shfl (i : Instr) (d a b : Reg) (j : Nat → Nat → Int) : State → Host.Outcome State Fault Refusal :=
  vecOp i d fun t l =>
    let x := j l (t.gs b).toNat
    if 0 ≤ x ∧ x < t.width then t.lane a x.toNat else t.lane a l
def execVshflUp (d a b : Reg) (ta tb : Bool) (s : State) := shfl (.vshflUp d a b ta tb) d a b (fun l c => (l : Int) - c) s
def execVshflDn (d a b : Reg) (ta tb : Bool) (s : State) := shfl (.vshflDn d a b ta tb) d a b (fun l c => (l : Int) + c) s
def execVshflXor (d a b : Reg) (ta tb : Bool) (s : State) := shfl (.vshflXor d a b ta tb) d a b (fun l c => ((l ^^^ c : Nat) : Int)) s
/-- One lane of A to a scalar, whatever k0 holds; 0 when sB names no lane (R328). -/
def execVext (d a b : Reg) (ta tb : Bool) (s : State) :=
  word (.vext d a b ta tb) (fun s => .done (modCur (fun t =>
    let i := (t.gs b).toNat
    t.ss d (if i < t.width then (t.lane a i).setWidth 64 else 0)) s)) s
/-- sA into lane i when it is active (R328). -/
def execVins (d a b : Reg) (ta tb : Bool) (s : State) :=
  word (.vins d a b ta tb) (fun s => .done (modCur (fun t =>
    let i := (t.gs b).toNat
    if i < t.width ∧ t.act i then t.sv d fun l => if l = i then some ((t.gs a).setWidth 32) else none else t) s)) s

/-! ## Chains (R329) -/

/-- Identity of an operation at a width. -/
def redIdentity (o : RedOp) (n : Nat) : Nat :=
  match o with
  | .add | .or | .xor | .maxN => 0
  | .minI => 2 ^ (n - 1) - 1
  | .maxI => 2 ^ (n - 1)
  | .minN | .and => 2 ^ n - 1
  | .fadd => 0x8000_0000
  | .fmin => 0x7F80_0000
  | .fmax => 0xFF80_0000
/-- One step of a chain, with the flags it raises. -/
def redStep (o : RedOp) (n : Nat) (acc x : Nat) : Nat × FX :=
  match o with
  | .add => ((acc + x) % 2 ^ n, {})
  | .minI => (if sextInt n acc ≤ sextInt n x then acc else x, {})
  | .maxI => (if sextInt n x ≤ sextInt n acc then acc else x, {})
  | .minN => (min acc x, {})
  | .maxN => (max acc x, {})
  | .and => (acc &&& x, {})
  | .or => (acc ||| x, {})
  | .xor => (acc ^^^ x, {})
  | .fadd => fmtF32.addPat acc x
  | .fmin => fmtF32.minmax false acc x
  | .fmax => fmtF32.minmax true acc x
/-- The chain over the lanes 0 to n - 1 in ascending order: the accumulator at the end and, for each active lane, the accumulator before
and after it with the step's flags. -/
def redChain (o : RedOp) (n : Nat) : Nat → List (Option Nat) → Nat × List (Option (Nat × Nat × FX))
  | acc, [] => (acc, [])
  | acc, none :: l => let r := redChain o n acc l; (r.1, none :: r.2)
  | acc, some x :: l =>
    let st := redStep o n acc x
    let r := redChain o n st.1 l
    (r.1, some (acc, st.1, st.2) :: r.2)
/-- The active lanes' elements. -/
def redInput (t : Team) (w : Bool) (a : Reg) : List (Option Nat) :=
  (List.range t.width).map fun l => if t.act l then some (if w then (t.lane64 a l).toNat else (t.lane a l).toNat) else none
/-- The chain of a reduction or scan. -/
def redRun (t : Team) (o : RedOp) (w : Bool) (a : Reg) : Nat × List (Option (Nat × Nat × FX)) :=
  let n := if w then 64 else 32
  redChain o n (redIdentity o n) (redInput t w a)
/-- How a 32-bit reduction fills sD: sign-extended for signed minimum and maximum (R329). -/
def redExtend (o : RedOp) (w : Bool) (x : Nat) : W64 :=
  if w then w64 x
  else match o with
    | .minI | .maxI => BitVec.ofInt 64 (sextInt 32 x)
    | _ => w64 x
def execVred (o : RedOp) (w : Bool) (d a : Reg) (ta : Bool) (s : State) :=
  word (.vred o w d a ta) (fun s => .done (modCur (fun t =>
    let r := redRun t o w a
    (t.ss d (redExtend o w r.1)).raise (r.2.map fun x => x.map (·.2.2))) s)) s
def execVscan (o : RedOp) (w ex : Bool) (d a : Reg) (ta : Bool) (s : State) :=
  word (.vscan o w ex d a ta) (fun s => .done (modCur (fun t =>
    if t.gk 0 = 0 then t
    else
      let r := (redRun t o w a).2
      let val (l : Nat) : Option Nat := (r.getD l none).map fun x => if ex then x.1 else x.2.1
      (if w then t.sv64 d fun l => (val l).map w64 else t.sv d fun l => (val l).map w32).raise (r.map fun x => x.map (·.2.2))) s)) s

end Sys2Proof.Machine
end

