-- ==== Sys2Proof/Machine/Matrix.lean ====
section
/-! DEFINITION. The matrix engine (R232 to R238, R364 to R371). -/

namespace Sys2Proof.Machine

/-! ## Arithmetic (R232 to R236) -/

/-- Flags of the matrix flag word (R237). -/
def FX.mword (f : FX) (sat : Bool) : Nat := nb f.nv + nb f.of * 2 + nb f.uf * 4 + nb f.nx * 8 + nb sat * 16
/-- Effective block scale s = rne_f32(F × q / 256) (R232). -/
def blockScale (F : W32) (q : Nat) : Nat × FX :=
  match mulVal (fmtF32.read F.toNat) (.fin false q (-8)) with
  | some v => fmtF32.roundVal .rne false v
  | none => fmtF32.nanR true
/-- What the products of a block have shown so far: a NaN, nv, an infinity of either sign, and the exact finite sum. -/
structure Dot where
  nan : Bool := false
  nv : Bool := false
  pos : Bool := false
  neg : Bool := false
  n : Bool := true
  m : Nat := 0
  e : Int := 0
deriving DecidableEq, Repr, Inhabited
/-- Take in one product (R234). -/
def Dot.add (d : Dot) (a b : Val) : Dot :=
  let sig := a.isSig || b.isSig
  match mulVal a b with
  | none => { d with nan := true, nv := true }
  | some (.nan _) => { d with nan := true, nv := d.nv || sig }
  | some (.inf true) => { d with neg := true }
  | some (.inf false) => { d with pos := true }
  | some (.fin n m e) =>
    let (n, m, e) := addFin .rne d.n d.m d.e n m e
    { d with n := n, m := m, e := e }
/-- D and its flag (R234): the sum starts at the neutral −0. -/
def Dot.result (d : Dot) : Val × FX :=
  if d.nan || (d.pos && d.neg) then (.nan false, { nv := d.nv || (d.pos && d.neg) })
  else if d.pos || d.neg then (.inf d.neg, {})
  else (.fin d.n d.m d.e, {})
/-- The exact dot product of a block (R234). -/
def blockDot (as bs : List Val) : Val × FX := ((as.zip bs).foldl (fun d x => d.add x.1 x.2) ({} : Dot)).result
/-- One block's update of an accumulator element with S (R235). -/
def accStep (S : Nat) (acc : W32) (as bs : List Val) : W32 × FX :=
  let (d, f1) := blockDot as bs
  let (p, f2) := match mulVal (fmtF32.read S) d with
    | some v => fmtF32.roundVal .rne false v
    | none => fmtF32.nanR true
  let (r, f3) := fmtF32.add .rne false (fmtF32.read acc.toNat) (fmtF32.read p)
  (w32 r, f1.or (f2.or f3))
/-- A scaled block (R233, R235). -/
def accScaled (FA FB : W32) (qa qb : Nat) (acc : W32) (as bs : List Val) : W32 × FX :=
  if qa = 0 ∨ qb = 0 then (acc, {})
  else
    let (sa, f1) := blockScale FA qa
    let (sb, f2) := blockScale FB qb
    let (S, f3) := fmtF32.mul .rne false (fmtF32.read sa) (fmtF32.read sb)
    let (r, f4) := accStep S acc as bs
    (r, f1.or (f2.or (f3.or f4)))

/-! ## Operands (R365, R367, R368) -/

/-- Bytes of 64 A elements and of 64 B elements of a pairing. -/
def rowBytes (fmt : Nat) : Nat := if fmt = 0 ∨ fmt = 1 then 128 else 64
def colBytes (fmt : Nat) : Nat := if fmt = 4 then 32 else rowBytes fmt
/-- Bytes of an A element. -/
def elemA (fmt : Nat) : Nat := rowBytes fmt / 64
/-- Value of an 8- or 16-bit element of a pairing. An INT8 zero has no sign of its own: its product takes the sign of the other factor alone, so
that the product of a negative element and zero is −0: the model's choice (R230, R234, log 91). -/
def elemVal (fmt v : Nat) : Val :=
  match fmt with
  | 0 => fmtBf16.read v
  | 1 => fmtF16.read v
  | 3 => let i := sextInt 8 v; .fin (decide (i < 0)) i.natAbs 0
  | _ => e4m3Read v
/-- The 64 elements of an A row block. -/
def rowVals (fmt : Nat) (bs : List Byte) : List Val :=
  (List.range 64).map fun k => elemVal fmt (natOfBytes (sliceBytes bs (k * elemA fmt) (elemA fmt)))
/-- The 64 elements of a B column block (R230 for QN4). -/
def colVals (fmt : Nat) (bs : List Byte) : List Val :=
  if fmt = 4 then (List.range 64).map fun k => qn4Val ((bs.getD (k / 2) 0).toNat / 16 ^ (k % 2))
  else rowVals fmt bs
/-- A code from scale registers read at issue: byte s mod 4 of lane i mod W of the register for i and s (R367). -/
def scaleCode (regs : List (List W32)) (width i per s lo : Nat) : Nat :=
  ((regs.getD (i / width + per * (s / 4 - lo)) []).getD (i % width) 0).toNat / 256 ^ (s % 4) % 256
/-- The configuration of a word pair, if its fields are in range (R365). -/
def cfgOf (a b : W64) : Option MCfg :=
  let c : MCfg := { m := fld a 0 8, n := fld a 8 10, fmt := fld a 18 3, sat := bit a 21, bsrc := bit a 22, tile := fld a 23 1, sra := fld a 24 6, srb := fld a 30 6
                    astride := fld a 36 20, fa := w32 (fld b 0 32), fb := w32 (fld b 32 32) }
  if 1 ≤ c.m ∧ c.m ≤ 128 ∧ 1 ≤ c.n ∧ c.n ≤ 512 ∧ c.fmt ≤ 4 ∧ fld a 56 8 = 0 then some c else none
/-- A row index of the context (R366). -/
def rowIndex (t : Team) (r : Nat) : Nat := match t.midx with | some l => (l.getD r 0).toNat | none => r

/-! ## Steps (R367 to R370) -/

/-- OR flags into the team's matrix flag word (R238). -/
def orMflag (team f : Nat) (s : State) : State :=
  modTeam team (fun t => { t with mflag := t.mflag ||| w64 f, mset := setBits s.ck t.mset f }) s
/-- Apply a step to the tile: rows, columns, codes (R235, R367). -/
def applyStep (t : Team) (c : MCfg) (w : Workgroup) (rows : List (List Val)) (cols : List (List Val)) (qa qb : Nat → Nat) : Workgroup × FX :=
  (List.range c.m).foldl (fun (x : Workgroup × FX) r =>
    (List.range c.n).foldl (fun (x : Workgroup × FX) k =>
      let key := accKey t w (c.tile * 65536 + r * 512 + k)
      let as := rows.getD r []
      let bs := cols.getD k []
      let (v, f) := if c.fmt = 0 ∨ c.fmt = 1 then accStep 0x3F800000 (x.1.accGet key) as bs
                    else accScaled c.fa c.fb (qa r) (qb k) (x.1.accGet key) as bs
      (x.1.accPut key v, x.2.or f)) x) (w, {})
/-- The step is performed with its B bytes: the loop stands at the next step, or it is done. -/
def loopStep (t : Team) (o : EngOp) (c : MCfg) (w : Workgroup) (rows : List (List Byte)) (b : List Byte) (scA scB : List (List W32)) (sel : Nat) (adv : Bool) (steps : Nat)
    (s : State) : State :=
  let sc := sel + (if adv then o.prog else 0)
  let ra := (c.m + t.width - 1) / t.width
  let rb := (c.n + t.width - 1) / t.width
  let (w', f) := applyStep t c w (rows.map (rowVals c.fmt)) ((List.range c.n).map fun k => colVals c.fmt (sliceBytes b (k * colBytes c.fmt) (colBytes c.fmt)))
    (fun r => scaleCode scA t.width r ra sc (sel / 4)) (fun k => scaleCode scB t.width k rb sc (sel / 4))
  let s := orMflag t.id (f.mword false) (modWg w.id (fun _ => w') s)
  let rate := if c.fmt ≤ 1 then 16384 else if c.fmt = 4 then 65536 else 32768
  let s := modCore t.core (fun k => { k with mxBusy := s.ck + max 8 ((c.m * c.n * 64 + rate - 1) / rate) * 8 / k.damper }) s
  let s := endAsk o.id (modOp t.id 1 o.id (fun o => { o with prog := o.prog + 1, rd := [] }) s)
  if o.prog + 1 = steps then finishOp t.id 1 o.id s else s
/-- Check and perform the next step of a matrix loop (R367, R368). -/
def matrixLoop (t : Team) (o : EngOp) (loop a b : W64) (adv : Bool) (sel : Nat) (scA scB : List (List W32)) (s : State) : State :=
  let steps := fld loop 0 9
  if 256 < steps ∨ fld loop 9 3 ≠ 0 then failOp t.id 1 o 0x01 0 s
  else if steps = 0 then finishOp t.id 1 o.id s
  else match t.mcfg with
    | none => failOp t.id 1 o 0x05 0 s
    | some c =>
      let w := (wgOf t.wg s).getD {}
      if w.atiles ≤ c.tile then failOp t.id 1 o 0x04 0 s
      else
        let j := o.prog
        let rowOff (r : Nat) : Nat := a.toNat + rowIndex t r * c.astride + j * fld loop 12 20
        let offs := (List.range c.m).map rowOff
        let inc := j * fld loop 32 32
        let bOff := b.toNat + inc
        let nB := c.n * colBytes c.fmt
        let bPtr := ptrAdd b inc
        if offs.any (fun x => !inShare w x (rowBytes c.fmt)) || (!c.bsrc && !inShare w bOff nB) then failOp t.id 1 o 0x02 j s
        else if offs.any (fun x => x % elemA c.fmt != 0) || (if c.bsrc then vaOf bPtr else bOff) % 64 != 0 then failOp t.id 1 o 0x03 j s
        else if offs.any (fun x => spPoisoned w x (rowBytes c.fmt)) || (!c.bsrc && spPoisoned w bOff nB) then failOp t.id 1 o 0x06 j s
        else
          let rows := offs.map fun x => w.spBytes x (rowBytes c.fmt)
          if !c.bsrc then loopStep t o c w rows (w.spBytes bOff nB) scA scB sel adv steps s
          else
            match engFetch t .m o (pieces bPtr nB) s with
            | (.ok bs, s) => loopStep t o c w rows bs scA scB sel adv steps s
            | (.later, s) => s
            | (.bad, s) => failOp t.id 1 o 0x06 j s
            | (.no n, s) => engineNack t 1 o 6 n s
/-- A move's fields: row0, col0, cnt, cvt, tile (R370). -/
structure Move where
  row0 : Nat
  col0 : Nat
  cnt : Nat
  cvt : Nat
  tile : Nat
deriving DecidableEq, Repr
def moveOf (x : W64) : Move := { row0 := fld x 0 7, col0 := fld x 7 9, cnt := fld x 16 10, cvt := fld x 26 3, tile := fld x 29 1 }
/-- A move word is well-formed (R370). -/
def moveOk (x : W64) : Bool :=
  let m := moveOf x
  fld x 30 34 == 0 && decide (m.cvt ≤ 4) && decide (1 ≤ m.cnt) && decide (m.cnt ≤ 512) && decide (m.col0 + m.cnt ≤ 512)
/-- Bytes of a converted element. -/
def cvtBytes (cvt : Nat) : Nat := if cvt = 0 then 4 else if cvt ≤ 2 then 2 else 1
/-- Convert an accumulator element: value, and the flags it ORs into the matrix flag word (R228, R229, R237, R370). -/
def moveElem (cvt : Nat) (sat : Bool) (x : W32) : Nat × Nat :=
  let v := fmtF32.read x.toNat
  match cvt with
  | 0 => (x.toNat, 0)
  | 1 => let r := fmtF16.roundVal .rne false v; (r.1, r.2.mword false)
  | 2 => let r := fmtBf16.roundVal .rne false v; (r.1, r.2.mword false)
  | 3 => let r := e4m3Write .rne sat v; (r.1, r.2.1.mword r.2.2)
  | _ => match v with
    | .nan _ => (0, 1)
    | .inf n => (if n then 0x80 else 0x7F, 0x11)
    | .fin n m e =>
      let (k, inexact) := if 40 < e + bitLen m then (2 ^ 40, false) else roundTo .rne n m e 0 false
      let i : Int := if n then -(k : Int) else k
      if i < -128 then (0x80, 0x11) else if 127 < i then (0x7F, 0x11)
      else (wrapNat 8 i, nb inexact * 8)
/-- The lane of a converted element: INT8 carries copies of its sign, the other formats zeros (R304, R370). -/
def laneElem (cvt x : Nat) : W32 := if cvt = 4 then (BitVec.ofNat 8 x).signExtend 32 else w32 x
/-- The converted elements of a block of the tile, by row and column, and the flags. -/
def moveBlock (t : Team) (w : Workgroup) (m : Move) (sat : Bool) (rows : Nat) : (Nat → Nat → Nat) × Nat :=
  let el (i c : Nat) : Nat × Nat := moveElem m.cvt sat (w.accGet (accKey t w (m.tile * 65536 + (m.row0 + i) * 512 + m.col0 + c)))
  (fun i c => (el i c).1, (List.range rows).foldl (fun f i => (List.range m.cnt).foldl (fun f c => f ||| (el i c).2) f) 0)
/-- The `mmov` that a poisoned tile met has met it: the tile's poison is for the next one only (R132). -/
def readPoison (w : Workgroup) (k : Nat) (s : State) : State := modWg w.id (fun w => { w with apoison := w.apoison.filter (· != k) }) s
/-- The scratchpad form of `mmov` (R370). -/
def matrixMove (t : Team) (o : EngOp) (off move shape : W64) (s : State) : State :=
  let m := moveOf move
  let rows := fld shape 0 8
  let w := (wgOf t.wg s).getD {}
  let es := cvtBytes m.cvt
  let at_ (i : Nat) : Nat := off.toNat + i * fld shape 12 20
  if !moveOk move || rows = 0 || 128 < rows || fld shape 8 4 != 0 || fld shape 32 32 != 0 || decide (128 < m.row0 + rows) then failOp t.id 1 o 0x01 0 s
  else if w.atiles ≤ m.tile then failOp t.id 1 o 0x04 0 s
  else match t.mcfg with
    | none => failOp t.id 1 o 0x05 0 s
    | some c =>
      if (List.range rows).any fun i => !inShare w (at_ i) (m.cnt * es) then failOp t.id 1 o 0x02 0 s
      else if (List.range rows).any fun i => at_ i % es != 0 then failOp t.id 1 o 0x03 0 s
      else if w.apoison.contains (tileKey t w m.tile) then failOp t.id 1 o 0x06 0 (readPoison w (tileKey t w m.tile) s)
      else
        let (el, f) := moveBlock t w m c.sat rows
        let s := forEach (List.range rows) (fun i s => spWrite w.id (at_ i) ((List.range m.cnt).flatMap fun c => bytesOfNat es (el i c)) s) s
        finishOp t.id 1 o.id (orMflag t.id f s)
/-- Zero a tile (R369). -/
def matrixZero (t : Team) (o : EngOp) (tile : Nat) (s : State) : State :=
  let w := (wgOf t.wg s).getD {}
  if w.atiles ≤ tile then failOp t.id 1 o 0x04 0 s
  else
    let lo := accKey t w (tile * 65536)
    finishOp t.id 1 o.id (modWg w.id (fun w => { w with
      acc := w.acc.filter fun x => !(decide (lo ≤ x.1) && decide (x.1 < lo + 65536))
      abad := w.abad.filter fun x => !(decide (lo ≤ x) && decide (x < lo + 65536))
      apoison := w.apoison.filter fun k => k != tileKey t w tile }) s)
/-- Perform the next part of an M operation. -/
def matrixOp (t : Team) (o : EngOp) (s : State) : State :=
  match o.op with
  | .mcfg a b =>
    (match cfgOf a b with
    | some c => finishOp t.id 1 o.id (modTeam t.id (fun t => { t with mcfg := some c }) s)
    | none => failOp t.id 1 o 0x01 0 (modTeam t.id (fun t => { t with mcfg := none }) s))
  | .midx l => finishOp t.id 1 o.id (modTeam t.id (fun t => { t with midx := some l }) s)
  | .mloop loop a b adv sel scA scB => matrixLoop t o loop a b adv sel scA scB s
  | .mzero tile => matrixZero t o tile s
  | .mmov off move shape => matrixMove t o off move shape s
  | _ => s
/-- The M operation of a team that comes next (R357). -/
def nextM (t : Team) (s : State) : Option EngOp :=
  match t.m.ops.filter fun o => !o.done with
  | o :: _ => if t.engineRuns s && opReady t o s then some o else none
  | [] => none
/-- Place of a team in the order of ages (R109). -/
def teamAge (t : Team) (s : State) : Nat := ((wgOf t.wg s).map (·.age)).getD 0 * 64 + t.num
/-- MATRIX_STEP: the MXE of core `n` takes a step of the oldest team with one ready (R357). -/
def execMatrixStep (n : Nat) (s : State) :=
  event (fun s =>
    let ts := (allTeams s).filter fun t => t.core == n && t.m.inFlight != 0
    let s :=
      if s.ck < (coreOf n s).mxBusy then s
      else match minBy? (fun t => teamAge t s) (ts.filter fun t => (nextM t s).isSome) with
        | some t => (match nextM t s with | some o => matrixOp t o s | none => s)
        | none => s
    if (allTeams s).any fun t => t.core == n && t.m.inFlight != 0 then causeOnce (.matrixStep n) s else s) s

/-! ## Major 0x39 -/

/-- Queue an M operation: at most 8 in flight (R357). -/
def matrixIssue (op : EOp) (s : State) : Eff :=
  if 8 ≤ s.cur.m.inFlight then .stay s else .done (causeOnce (.matrixStep s.cur.core) (issueOp 1 op s))
/-- `mcfg`: the shape latch takes m, n and fmt at issue (R365). -/
def execMcfg (a b : Reg) (s : State) :=
  word (.mcfg a b) (fun s =>
    let x := s.cur.gs a
    match matrixIssue (.mcfg x (s.cur.gs b)) s with
    | .done s e => .done (modCur (fun t => { t with shape := (fld x 0 8, fld x 8 10, fld x 18 3) }) s) e
    | y => y) s
/-- All lanes of registers r to r + n − 1. -/
def Team.regLanes (t : Team) (r n : Nat) : List (List W32) :=
  (List.range n).map fun i => (List.range t.width).map fun l => t.lane ⟨(r + i) % 64, Nat.mod_lt _ (by decide)⟩ l
def execMidx (a : Reg) (s : State) :=
  word (.midx a) (fun s => matrixIssue (.midx ((s.cur.regLanes a.val ((128 + s.cur.width - 1) / s.cur.width)).flatten.take 128)) s) s
/-- The scale registers of a loop, read at issue under the shape latch (R367). -/
def scaleRegs (t : Team) (loop : W64) (adv : Bool) (sel : Nat) : List (List W32) × List (List W32) :=
  let cfg := t.m.ops.reverse.findSome? fun o => match o.op with | .mcfg x _ => some x | _ => none
  let (sra, srb) := match cfg, t.mcfg with
    | some x, _ => (fld x 24 6, fld x 30 6)
    | none, some c => (c.sra, c.srb)
    | none, none => (0, 0)
  let (m, n, fmt) := t.shape
  let steps := min 256 (fld loop 0 9)
  if (fmt = 2 ∨ fmt = 3 ∨ fmt = 4) ∧ steps ≠ 0 then
    let lo := sel / 4
    let hi := (sel + (if adv then steps - 1 else 0)) / 4 + 1
    let ra := (m + t.width - 1) / t.width
    let rb := (n + t.width - 1) / t.width
    (t.regLanes (sra + ra * lo) (ra * (hi - lo)), t.regLanes (srb + rb * lo) (rb * (hi - lo)))
  else ([], [])
/-- B comes from global memory in the configuration the loop will run under (R368). -/
def loopGlobal (t : Team) : Bool :=
  match t.m.ops.reverse.findSome? (fun o => match o.op with | .mcfg x _ => some x | _ => none), t.mcfg with
  | some x, _ => bit x 22
  | none, some c => c.bsrc
  | none, none => false
def execMloop (d a b : Reg) (adv : Bool) (sel : Fin 4) (s : State) :=
  word (.mloop d a b adv sel) (fun s =>
    let t := s.cur
    let loop := t.gs d
    if loopGlobal t && !baseOk t.part 1 (t.gs b) s then .trap 0x09 (fullMask t.width) (w64 (2 ^ 63))
    else
      let (scA, scB) := scaleRegs t loop adv (t.msel sel)
      matrixIssue (.mloop loop (t.gs a) (t.gs b) adv (t.msel sel) scA scB) s) s
def execMzero (t : Bool) (s : State) := word (.mzero t) (matrixIssue (.mzero (nb t))) s
/-- The register form of `mmov` (R370): it waits until the M context is empty and is performed at issue. -/
def execMmovRegister (d a : Reg) (s : State) :=
  word (.mmovRegister d a) (fun s =>
    let t := s.cur
    let x := t.gs a
    let m := moveOf x
    let w := (wgOf t.wg s).getD {}
    let fault (c : Nat) : Eff := .trap 0x0C (fullMask t.width) (w64 (1 + c * 2 ^ 8 + 2 ^ 16))
    if t.m.inFlight ≠ 0 then .stay s
    else if !moveOk x then fault 0x01
    else if w.atiles ≤ m.tile then fault 0x04
    else match t.mcfg with
      | none => fault 0x05
      | some c =>
        let rows := min t.width (128 - m.row0)
        let (el, f) := moveBlock t w m c.sat rows
        let bad := w.apoison.contains (tileKey t w m.tile)
        let s := modCur (fun t => (List.range m.cnt).foldl (fun t i =>
          let r : Reg := ⟨(d.val + i) % 64, Nat.mod_lt _ (by decide)⟩
          let t := t.sv r fun l => if l < rows then some (laneElem m.cvt (el l i)) else none
          if bad then t.setV r { t.vreg r with poison := true } else t) t) (if bad then readPoison w (tileKey t w m.tile) s else s)
        .done (orMflag t.id f s)) s
def execMmovScratchpad (d a b : Reg) (s : State) :=
  word (.mmovScratchpad d a b) (fun s => matrixIssue (.mmov (s.cur.gs d) (s.cur.gs a) (s.cur.gs b)) s) s

/-! ## The Damper (R371) -/

/-- The MXE of a core has work: a step of an M context is executing or ready. -/
def mxWork (n : Nat) (s : State) : Bool :=
  decide (s.ck < (coreOf n s).mxBusy) || (allTeams s).any fun t => t.core == n && (match nextM t s with | some o => (match o.op with | .mloop .. => true | _ => false) | none => false)
/-- One ck of a Damper. The level rises by one every 64 ck of work or of a hold, anew after a break (log 92); at 8 a hold runs out; after 2,048 idle
ck it falls by one every 64 ck. -/
def Core.damperTick (work : Bool) (c : Core) : Core :=
  let c := if c.damper = 8 ∧ c.hold = some 0 then { c with hold := none } else c
  if work || c.hold.isSome then
    let r := if c.idle = 0 then c.ramp + 1 else 1
    if 8 ≤ c.damper then { c with ramp := 0, idle := 0, hold := c.hold.map (· - 1) }
    else if r = 64 then { c with damper := c.damper + 1, ramp := 0, idle := 0 }
    else { c with ramp := r, idle := 0 }
  else if c.idle < 2048 then { c with idle := c.idle + 1, ramp := 0 }
  else if c.ramp + 1 = 64 then { c with damper := max 1 (c.damper - 1), ramp := 0 }
  else { c with ramp := c.ramp + 1 }
/-- The Damper of an idle core at level 1: a ck changes nothing that shows. -/
def Core.resting (c : Core) : Bool := decide (c.damper ≤ 1) && c.hold.isNone && decide (2048 ≤ c.idle)
/-- DAMPER_STEP: one ck of the Damper of a core. -/
def execDamperStep (n : Nat) (s : State) := event (fun s => modCore n (Core.damperTick (mxWork n s)) s) s
/-- `mburst` acts at issue (R371): the rise starts and the level is held for sA[31:0] ck after it reaches 8. -/
def execMburst (a : Reg) (s : State) :=
  word (.mburst a) (fun s => .done (modCore s.cur.core (fun c => { c with
    hold := some (fld (s.cur.gs a) 0 32), ramp := if c.idle = 0 then c.ramp else 0, idle := 0 }) s)) s

end Sys2Proof.Machine
end

