-- ==== Sys2Proof/Machine/System.lean ====
section
/-! DEFINITION. Major 0x3C, the system instructions (R387 to R397), trap entry (R381, R382, R385), extension words (R267, R398), and the host's
commands over halted teams and fault buffers (R159, R398). -/

namespace Sys2Proof.Machine

/-! ## Trap entry at a boundary (R382, R385) -/

/-- The word for `ctl.tr.word` at a boundary (R382): it, 0 where none can be had, which a negative answer to its fetch shows, or none while its fetch
is on its way. -/
def entryWord (t : Team) (s : State) : Option W32 :=
  match t.nextWord with
  | some w => some (w32 w)
  | none =>
    let fetchRec := (match t.records.filter fun r => !r.hostHeld with | r :: _ => !t.wdog && r.kind == 4 | [] => false)
    if fetchRec || (t.fetching && t.fetchBad) || t.exited || t.ilines.any (fun l => l.1 == linePtr t.pc) || !(alGet 0 (t.part, (keyOf t.pc).toNat) s.pkt).getLsbD 2 then some 0
    else none
/-- A pending cause is taken once the word is at hand (R382, R385); a team that has exited and holds none drains (R118). -/
def boundaryTrap (s : State) : State :=
  let t := s.cur
  match (if t.handler then none else t.pendingCause) with
  | some (c, lanes, info, t') =>
    (match entryWord t s with
    | some w => takeTrap { cause := c, lanes := lanes, ipc := t.pc, resume := t.pc, word := w, info := info, hint := t.hint } (modCur (fun _ => t') s)
    | none => if t.fetching then modCur (fun t => t.toShelf .fetch) s else demandFetch s)
  | none => if t.exited && !t.handler then tryRetire t.id (modCur (fun t => { t with status := .draining }) s) else s
/-- SCOPE_MISMATCH comes first, at its instruction, with the group that instruction consumed (R334, R382). -/
def trapEnter (s : State) : State :=
  match s.cur.mm with
  | some m =>
    if m.lanes != 0 then
      takeTrap { cause := 0x0B, lanes := m.lanes, ipc := m.ipc, resume := m.ipc, word := m.word, info := w64 m.found, hint := m.hint }
        (modCur (fun t => { t with mm := none }) s)
    else boundaryTrap s
  | none => boundaryTrap s
/-- TRAP_ENTRY: the team stands at an instruction boundary on the Hob. -/
def execTrapEntry (id : Nat) (s : State) :=
  event (fun s =>
    let s := focus id s
    if s.cur.id = id ∧ s.cur.onHob ∧ !s.cur.emu then trapEnter s else s) s

/-! ## trap, eret -/

/-- A word that is fed although it traps (R430): the latch it consumed is empty. -/
def feed (i : Instr) (s : State) : State := feedWatchdog i (modCur (fun t => { t with sig := fedSig t i false, hint := {} }) s)
/-- `trap n` (R388). -/
def execTrap (n : BitVec 12) (s : State) := word (.trap n) (fun s => .fedTrap (feed (.trap n) s) 0x1C (n.setWidth 64) {}) s
/-- The team returns to the wait of an acquire or fence that it had issued before the trap (R334, R349); with a cause pending, such as a record it
still holds, it traps again at once (R157, R385). -/
def resumeWait (s : State) : State :=
  match s.cur.owed with
  | some w =>
    if s.cur.handler || s.cur.status != .hob || s.cur.pendingCause.isSome then s
    else if waitOver w s.cur s then modCur (fun t => { t with owed := none }) s
    else modCur (·.toShelf w) s
  | none => s
/-- `eret` (R386): RETURNING FROM AN EXCEPTION; a pending cause is taken at the boundary that follows. -/
def execEret (s : State) :=
  event (fun s => tryRetire s.cur.id
    (issueWord .eret (fun s => .stay (resumeWait (modCur (fun t => { t with busy := s.ck + 1 }) (feedWatchdog .eret (returnFromTrap s))))) s)) s

/-! ## Control registers (R389, R390) -/

/-- Write a stored register under its access types (R4); a smaller or larger cache share is a change the DSR looks at (R59, R85). -/
def putReg (q : Nat) (r : CtlReg) (v : W64) (s : State) : State :=
  let s := ctlPut r (ctlMerge r (ctlRaw r s) v) s
  match r with
  | .split _ => causeOnce (.dealPass q) s
  | _ => s
/-- The register that the group of the team in focus names. -/
def namedReg (t : Team) : Option CtlReg := ctlNumber t.part t.hint.imm.toNat
def execCtlrd (d : Reg) (s : State) :=
  word (.ctlrd d) (fun s => .done (modCur (fun t => t.ss d ((namedReg t).elim 0 fun r => ctlRead r s)) s)) s
def execCtlwr (a : Reg) (s : State) :=
  word (.ctlwr a) (fun s =>
    let t := s.cur
    match namedReg t with
    | none => .done s
    | some r => .done (if (t.ctlGet r).isSome then modCur (fun t => (t.ctlSet r (t.gs a)).keepSet s.ck) s else putReg t.part r (t.gs a) s)) s

/-! ## Signatures (R122, R391) -/

/-- `sigchk`: in a handler it compares nothing (R384). -/
def execSigchk (s : State) :=
  word .sigchk (fun s =>
    let t := s.cur
    let want : W32 := t.hint.imm.setWidth 32
    if t.handler then .done s
    else
      let s' := modCur (fun t => { t with sig := sigStart }) s
      if t.sigOn && t.hint.snap != want then
        (if ctlFld (.sigpol t.part) 0 1 s = 1 then .kill
         else .fedTrap (feedWatchdog .sigchk s') 0x04 (w64 (t.hint.snap.toNat + want.toNat * 2 ^ 32)) {})
      else .done s') s
/-- `sigrd`: in a handler it returns the saved sig. -/
def execSigrd (d : Reg) (s : State) :=
  word (.sigrd d) (fun s => .done (modCur (fun t => t.ss d ((if t.handler then t.tr.sig else t.sig).setWidth 64)) s)) s

/-! ## capq, yield (R392, R393) -/

/-- The word of `capq` for a partition, core and kind. -/
def capqWord (q n k : Nat) (s : State) : W64 :=
  if ncores s ≤ n ∨ k = 3 then 0
  else
    let c := coreOf n s
    w64 (c.usable k + (c.spares k).length * 2 ^ 8 + freeCount q n k s * 2 ^ 16 + nb c.raking * 2 ^ 32)
def execCapq (d a : Reg) (s : State) :=
  word (.capq d a) (fun s =>
    let x := s.cur.gs a
    let n := if fld x 0 8 = 0xFF then s.cur.core else fld x 0 8
    .done (modCur (fun t => t.ss d (capqWord t.part n (fld x 8 2) s)) s)) s
/-- `yield`: the team leaves the Hob as a ready team, to be chosen only when no other is (R393). -/
def execYield (s : State) :=
  word .yield (fun s => .done (modCur (fun t => { t with status := .shelfReady, readySince := s.ck, passed := 0, urgent := none, yielded := true }) s)) s

/-! ## Fault records (R156, R157, R394, R395) -/

/-- The 32 bytes of a record (R156). -/
def FaultRec.bytes (r : FaultRec) : List Byte :=
  bytesOfNat 8 r.ptr.toNat ++ bytesOfNat 4 r.lanes.toNat ++ bytesOfNat 4 (r.word + r.cause * 2 ^ 8 + r.kind * 2 ^ 16 + r.level * 2 ^ 24)
    ++ bytesOfNat 8 r.pc.toNat ++ bytesOfNat 8 (r.home % 2 ^ 8 + r.slot * 2 ^ 8 + r.module * 2 ^ 16 + r.dest * 2 ^ 32 + r.part * 2 ^ 40)
/-- The records `fltinfo` and `replay` number, oldest first. -/
def Team.shown (t : Team) : List FaultRec := t.records.filter fun r => !r.hostHeld
def execFltinfo (d a : Reg) (s : State) :=
  word (.fltinfo d a) (fun s =>
    let b := match s.cur.shown[fld (s.cur.gs a) 0 10]? with | some r => r.bytes | none => List.replicate 32 0
    let w (i : Nat) : W64 := w64 (natOfBytes (sliceBytes b (8 * i) 8))
    let d1 := regNext d
    let d2 := regNext d1
    .done (modCur (fun t => (((t.ss d (w 0)).ss d1 (w 1)).ss d2 (w 2)).ss (regNext d2) (w 3)) s)) s
/-- Records i to i + c - 1, in the order in which their requests were issued (R157, R395). -/
def Team.named (t : Team) (a b : W64) : List FaultRec :=
  let l := t.shown.drop (fld a 0 10)
  let l := if fld b 0 10 = 0 then l else l.take (fld b 0 10)
  l.mergeSort fun x y => x.ent ≤ y.ent
/-- Remove a record. -/
def Team.dropRec (t : Team) (x : FaultRec) : Team := { t with records := t.records.filter fun r => r != x }
/-- A record of a request that another module's home refused: the request goes there again (log 29). -/
def resend (x : FaultRec) (s : State) : State :=
  match s.lsu.find? fun e => e.id == x.ent with
  | some e => reissue (64 + x.module) e { e.req with ptr := x.ptr } s
  | none => s
/-- The refused request of a copy or a matrix loop goes to its home with the replay, before the next instruction: the operation goes on where it
paused, if it may (R157). -/
def engineAgain (team ent : Nat) (s : State) : State :=
  match teamOf team s with
  | none => s
  | some t =>
    match (copiesReady t s).find? (fun o => o.id == ent), nextM t s with
    | some o, _ => copyStep t o s
    | none, some o => if o.id = ent then matrixOp t o s else s
    | none, none => s
/-- Replay an entry of a fault buffer, an engine's too. -/
def replayFault (h : Nat) (f : FaultEnt) (s : State) : State := engineAgain f.req.team f.req.id (replayEntry h f s)
/-- Replay one record of a team. -/
def replayRec (team : Nat) (x : FaultRec) (s : State) : State :=
  match x.entry s with
  | some f => replayFault x.home f s
  | none => engineAgain team x.ent (resend x (modTeam team (·.dropRec x) s))
/-- Discard what waits under a number: an LSU entry, an engine operation (which fails with 0x0D), or a fetch (R157, R359). -/
def discardWaiter (team ent : Nat) (s : State) : State :=
  match s.lsu.find? fun e => e.id == ent with
  | some e => settle e.req.team (failEnt e s)
  | none =>
    match teamOf team s with
    | none => s
    | some t =>
      match t.c.ops.find? (fun o => o.id == ent), t.m.ops.find? (fun o => o.id == ent) with
      | some o, _ => failOp team 0 o 0x0D o.prog s
      | none, some o => failOp team 1 o 0x0D o.prog s
      | none, none => if t.fetching && t.waitingFor == some .fetch then modTeam team (fun t => { t with fetching := false, fetchBad := false }.wake s.ck) s else s
/-- Discard an entry of a fault buffer and its record (R157, R159). -/
def discardFault (h : Nat) (f : FaultEnt) (s : State) : State :=
  let s := modTeam f.req.team (fun t => { t with records := t.records.filter fun r => !r.names h f.slot s }) s
  let s := freeFault h f.slot s
  match f.req.agent with
  | .peer .. => deliver f.req (.nack { req := f.req, status := 4 }) s
  | _ => discardWaiter f.req.team f.req.id s
/-- Discard one record of a team. That of another module's home is discarded here alone: R22 has no packet that would free the entry there, which
stays until that module's host discards it (log 94). -/
def discardRec (team : Nat) (x : FaultRec) (s : State) : State :=
  match x.entry s with
  | some f => discardFault x.home f s
  | none => discardWaiter team x.ent (modTeam team (·.dropRec x) s)
def execReplay (a b : Reg) (s : State) :=
  word (.replay a b) (fun s => let t := s.cur; .done (forEach (t.named (t.gs a) (t.gs b)) (replayRec t.id) s)) s
def execReplayDiscard (a b : Reg) (s : State) :=
  word (.replayDiscard a b) (fun s => let t := s.cur; .done (forEach (t.named (t.gs a) (t.gs b)) (discardRec t.id) s)) s
/-- The host's command over a home's fault buffer (R159). -/
def fcmd (h : Nat) (v : W64) (s : State) : State :=
  match (homeOf h s).faults.find? fun f => f.slot == fld v 0 8 with
  | none => s
  | some f => if fld v 8 2 = 1 then replayFault h f s else if fld v 8 2 = 2 then discardFault h f s else s
def execFcmdReplay (h : Nat) (v : W64) (s : State) := event (fcmd h v) s
def execFcmdDiscard (h : Nat) (v : W64) (s : State) := event (fcmd h v) s

/-! ## pmap, pkload (R396, R397) -/

/-- `pmap`: it waits its turn at the module's one mapping operation; sD fills with the result code. -/
def execPmap (d a b : Reg) (s : State) :=
  word (.pmap d a b) (fun s =>
    let t := s.cur
    if 1024 ≤ (s.lsu.filter fun e => e.tracked && e.req.core == t.core).length then .stay s
    else
      let (id, s) := fresh s
      let e : LsuEnt := { id := id, kind := .pmap (t.gs a) (t.gs b), req := { baseReq s .query .rlx .dev with id := id, ptr := t.gs a }, dest := destOf (.s d), group := id
                          pc := t.pc, inh := true, phase := .sent }
      let s := modCur (·.markEmpty e.dest) { s with lsu := s.lsu ++ [e], mapq := s.mapq ++ [id] }
      .done (causeOnce .mappingOpComplete s)) s
/-- `pkload`: the grant bounds the rights; every core has them before sD fills. -/
def execPkload (d a b : Reg) (s : State) :=
  word (.pkload d a b) (fun s =>
    let t := s.cur
    let key := fld (t.gs a) 0 8
    let r : BitVec 3 := BitVec.ofNat 3 (fld (t.gs b) 0 3) &&& BitVec.ofNat 3 (fld (ctlRaw (.partKgrant t.part (key / 16)) s) (4 * (key % 16)) 3)
    let s := { s with pkt := alSet (t.part, key) r s.pkt }
    if d = 0 then .done s
    else .done (cause (.registerFill { team := t.id, dest := .s d, vals := [(0, r.toNat)], inh := true }) (modCur (·.markEmpty (.s d)) s))) s

/-! ## Extension words (R267, R398) -/

/-- With emu = 1 the team enters handler state without running handler code, and waits for the host. -/
def emulate (i : Instr) (s : State) : State :=
  let t := s.cur
  let x : Trap := { cause := 0x03, lanes := fullMask t.width, ipc := t.pc, resume := nextPc t, word := w32 (encodeWord i), hint := t.hint }
  let s := feed i s
  raiseEvent t.part 4 (modCur (fun u => { (u.enter x (hvecOf t.part s) (ctlRaw (.partHdata t.part) s)).toShelf .host with emu := true, ilines := [], ahead := [] }) s)
/-- A word of an absent group traps EXT_EMULATE; the saved latch is the group before it. -/
def execExtensionWord (g : BitVec 8) (b : BitVec 18) (s : State) :=
  word (.extensionWord g b) (fun s =>
    let i := Instr.extensionWord g b
    if s.cur.handler then .kill
    else if ctlFld .duty 5 1 s = 1 then .stay (emulate i s)
    else .fedTrap (feed i s) 0x03 0 s.cur.hint) s
/-- Do something to the oldest team of a partition that waits for the host. -/
def withEmulated (q : Nat) (f : Team → State → State) (s : State) : State :=
  match emuQueue q s with
  | t :: _ => f t s
  | [] => s
/-- `ctl.emu.cmd` 1: `eret` for the oldest waiting team. -/
def emuReturn (q : Nat) (s : State) : State :=
  withEmulated q (fun t s => modTeam t.id (fun t => { t with emu := false }.wake s.ck) (returnFromTrap (focus t.id s))) s
def execEmuEret (q : Nat) (s : State) := event (emuReturn q) s
/-- `ctl.emu.cmd` 2: kill it. -/
def emuKillNow (q : Nat) (s : State) : State := withEmulated q (fun t s => killTeam t.id s) s
def execEmuKill (q : Nat) (s : State) := event (emuKillNow q) s
/-- `ctl.emu.reg`: a scalar register becomes full and clean; trap-state registers follow R383. -/
def emuPut (n : Nat) (v : W64) (t : Team) : Team :=
  if h : n < 64 then t.ss ⟨n, h⟩ v
  else
    match ctlNumber t.part (n - 0x100) with
    | some r => if 0x100 ≤ n && ctlIsTrap r then t.ctlSet r v else t
    | none => t
def execEmuRegWrite (q n : Nat) (v : W64) (s : State) := event (withEmulated q fun t s => modTeam t.id (emuPut n v) s) s

end Sys2Proof.Machine
end

