-- ==== Sys2Proof/Machine/Map.lean ====
section
/-! DEFINITION. The module's mapping operation and `pmap` (R150, R154, R160, R396), clearing lines from caches and slices (R51 step 3),
and the hotness ring's register (R163, R164). -/

namespace Sys2Proof.Machine

/-! ## Clearing lines (R51 step 3, R154) -/

/-- Lines under change: the line addresses, and whether a signature matches one of them. -/
structure Area where
  holds : Nat → Bool
  covers : BitVec 256 → Bool
/-- A page of a size code. -/
def pageArea (size va : Nat) : Area :=
  let base := va / pageBytes size * pageBytes size
  { holds := fun a => a / pageBytes size * pageBytes size == base
    covers := fun sig => (List.range (pageBytes size / 64)).any fun i => bloomHit sig (base + 64 * i) }
/-- The ember's signature matches a line, or its synchronisation line is one. -/
def Area.ember (a : Area) (e : Ember) : Bool := a.holds (vaOf e.line) || a.covers e.sig
/-- Accepted requests for the lines are complete: no line waits, no draw of their embers is under way, nothing is outstanding outside. -/
def areaQuiet (a : Area) (s : State) : Bool :=
  !(s.lines.any fun l => a.holds l.va && (l.st == .held || !l.waiting.isEmpty)) && !(s.embers.any fun e => e.drawing && a.ember e)
    && !(s.links.any fun l => a.holds (vaOf l.req.ptr) && (match l.kind with | .remote _ | .qnLaunch _ => false | _ => true))
/-- The lines may be cleared: they are quiet, and every ember that concerns them has been drawn (R51). -/
def areaReady (a : Area) (s : State) : Bool := areaQuiet a s && !(s.embers.any fun e => !e.drawn && a.ember e)
/-- The draws of the embers that concern the lines begin (R51, R214). -/
def drawArea (a : Area) (s : State) : State := (drawEvery a.ember s).2
/-- The lines, whose embers have been drawn, are merged, written back and invalidated in every core cache and slice; their embers go and their
monitors re-check (R51). -/
def clearArea (a : Area) (s : State) : State :=
  let s := forEach (s.lines.filter fun l => a.holds l.va) (fun l s =>
    match l.st with
    | .privatised ms => let (l, s) := mergePrivate ms l s; setLine l s
    | _ => s) s
  let s := { s with embers := s.embers.filter fun e => !a.holds (vaOf e.line) }
  let s := drainWhere (fun r => a.holds (lineVa (vaOf r.ptr))) s
  let s := forEach (s.cores.map (·.1)) (fun n s =>
    let s := flushNow n ((coreOf n s).dl.filter fun d => a.holds d.va && d.dmask != 0) s
    modCore n (fun c => { c with dl := c.dl.filter fun d => !a.holds d.va }) s) s
  let s := { s with monitors := s.monitors.map fun m => if a.holds (lineVa (vaOf m.ptr)) then { m with slice := false } else m }
  forEach (s.lines.filter fun l => a.holds l.va && l.present) leaveSlice s

/-! ## Page tables and the reverse map (R145 to R150) -/

/-- The leaf over an address as memory holds it: level, address of its entry, entry. -/
def leafFrom (va : Nat) (s : State) : Nat → Nat → Option (Nat × Nat × W64)
  | 0, _ => none
  | fuel + 1, base =>
    let l := 4 - fuel
    let a := entryAddr base va l
    let e := w64 (s.mem.readNat a 8)
    if !bit e 0 then none
    else if bit e 1 then some (l, a, e)
    else leafFrom va s fuel (fld e 7 32 * 2 ^ 7)
/-- The leaf over an address. -/
def leafOf (va : Nat) (s : State) : Option (Nat × Nat × W64) :=
  if ctlFld .ptRoot 0 1 s = 0 then none else leafFrom va s 5 (ctlFld .ptRoot 13 26 s * 2 ^ 13)
/-- Address of a frame's reverse-map entry. -/
def rmapAddr (f : Nat) (s : State) : Nat := ctlFld .rmapBase 16 23 s * 2 ^ 16 + f * 8
/-- Write the reverse-map entries of the frames from `f` up, where there is a reverse map. -/
def rmapSet (f n : Nat) (g : Nat → W64 → W64) (s : State) : State :=
  if ctlFld .rmapBase 0 1 s = 0 then s
  else forEach (List.range n) (fun i s =>
    let a := rmapAddr (f + i) s
    if hbmEnd ≤ (f + i) * 2 ^ 16 then s else { s with mem := s.mem.writeNat a 8 (g i (w64 (s.mem.readNat a 8))).toNat }) s
/-- The entry of a mapped frame. -/
def rmapUsed (size va : Nat) : W64 := w64 (1 + size * 2 ^ 2 + va / pageBytes size * pageBytes size / 2 ^ 16 * 2 ^ 16)
/-- Frames reserved or released for a save area or ring (R150). -/
def reserveFrames (f n : Nat) (on : Bool) (s : State) : State := rmapSet f n (fun _ e => if on then e ||| 2 else e &&& ~~~2) s
/-- Every frame of a range has an entry with used = 0 and resv = 0. -/
def framesFree (f n : Nat) (s : State) : Bool :=
  (List.range n).all fun i => match rmapEntry ((f + i) * 2 ^ 16) s with | some e => !bit e 0 && !bit e 1 | none => false
/-- HTB entries that intersect a page go at every home; a new leaf is installed (R154). -/
def htbReplace (size va : Nat) (new : Option W64) (s : State) : State :=
  let meets (e : HtbEnt) : Bool := let m := pageBytes (max e.size size); e.base / m == va / m
  let (n, s) := fresh s
  let put (l : List HtbEnt) : List HtbEnt :=
    let l := l.filter fun e => !meets e
    match new with
    | some e => htbFill { base := va / pageBytes size * pageBytes size, size := size, leaf := e, used := n } l
    | none => l
  forEach (List.range 37) (fun h s => modHome h (fun x => { x with htb := put x.htb }) s) s
/-- A leaf with its generation moved on from another's (R154). -/
def withGen (arg old : W64) : W64 := w64 (arg.toNat - leafGen arg * 2 ^ 24 + (leafGen old + 1) % 16 * 2 ^ 24)
/-- The byte address of a leaf's target. -/
def leafTarget (e : W64) : Nat := fld e 28 36 * 2 ^ 16
/-- A new leaf in the form of R147 for a page: the checks of a leaf that do not rest on the reverse map. -/
def leafForm (arg : W64) (va l : Nat) (s : State) : Bool :=
  bit arg 0 && bit arg 1 && (match leafCheck arg va l s with | none | some 5 => true | _ => false)
/-- Frames of a page in host bias. -/
def hostBiased (target size : Nat) (s : State) : Bool :=
  s.biasHost.any fun g => decide (target / 2 ^ 16 ≤ g) && decide (g < (target + pageBytes size) / 2 ^ 16)

/-! ## The operations of R154 -/

/-- Bytes of a range become zero. -/
def Memory.zero (m : Memory) (a n : Nat) : Memory := m.filter fun c => !(decide (a ≤ c.1) && decide (c.1 < a + n))
/-- 2 split: arg's table maps what the large leaf maps; the reverse map follows the new page size. -/
def splitPage (size va : Nat) (arg : W64) (s : State) : Option State :=
  match leafOf va s with
  | none => none
  | some (l, a, e) =>
    let table := fld arg 7 32 * 2 ^ 7
    let sub := size - 1
    let want (i : Nat) : W64 := w64 ((withGen e e).toNat + i * (pageBytes sub / 2 ^ 16) * 2 ^ 28)
    if sizeCode l ≠ size ∨ l = 4 ∨ l = 0 then none
    else if !bit arg 0 || bit arg 1 || fld arg 2 5 != 0 || fld arg 39 25 != 0 || table % tableSize (l + 1) != 0 || decide (hbmEnd ≤ table) then none
    else if !(List.range (2 ^ (levelBits (l + 1)).2)).all (fun i => w64 (s.mem.readNat (table + 8 * i) 8) == want i) then none
    else
      let base := va / pageBytes size * pageBytes size
      let s := { s with mem := s.mem.writeNat a 8 arg.toNat }
      some (if fld e 2 2 = 0 then rmapSet (leafTarget e / 2 ^ 16) (pageBytes size / 2 ^ 16) (fun i _ => rmapUsed sub (base + i * 2 ^ 16)) s else s)
/-- The bytes of a leaf's page: HBM frames or the memory of a CXL home. -/
def pageData (e : W64) (size : Nat) (s : State) : List Byte :=
  if fld e 2 2 = 0 then s.mem.readN (leafTarget e) (pageBytes size) else s.cxlMem.readN (fld e 14 2 * 2 ^ 52 + leafTarget e) (pageBytes size)
/-- A slice line of a page that moved to HBM frames: what the slice held newer than a CXL home goes to the frame. -/
def moveLine (old new : Nat) (ln : SLine) (s : State) : State :=
  match ln.place with
  | .hbm pa => setLine { ln with place := .hbm (pa - old + new) } s
  | .cxl _ pa =>
    let at' := pa - old + new
    setLine { ln with place := .hbm at', dirty := 0 } (if ln.present then { s with mem := s.mem.writeN at' (ln.fresh (s.mem.readN at' 64)) } else s)
  | _ => s
/-- 3 move: old frames are copied to free ones, the leaf and the reverse map follow; lines stay under their addresses. What a frame holds in
compressed form reads here as the page's bytes, so `cmp` changes the leaf alone (log 80). -/
def movePage (size va : Nat) (arg : W64) (s : State) : Option State :=
  match leafOf va s with
  | none => none
  | some (l, a, e) =>
    let old := leafTarget e
    let new := leafTarget arg
    let n := pageBytes size / 2 ^ 16
    let local' := fld e 2 2 = 0
    if sizeCode l ≠ size ∨ fld e 2 2 = 1 ∨ fld arg 2 2 ≠ 0 ∨ fld arg 6 8 ≠ fld e 6 8 then none
    else if !leafForm arg va l s || !framesFree (new / 2 ^ 16) n s || (local' && hostBiased old size s) || hostBiased new size s then none
    else
      let leaf := withGen arg e
      let s := { s with mem := (s.mem.writeN new (pageData e size s)).writeNat a 8 leaf.toNat }
      let s := if local' then rmapSet (old / 2 ^ 16) n (fun _ x => x &&& 2) s else s
      let s := rmapSet (new / 2 ^ 16) n (fun _ _ => rmapUsed size va) s
      let s := forEach (s.lines.filter fun ln => (pageArea size va).holds ln.va) (moveLine old new) s
      some (htbReplace size va (some leaf) s)
/-- 4 reattribute: the same target and size; a changed key or attribute clears the page's lines. -/
def reattributePage (size va : Nat) (arg : W64) (s : State) : Option State :=
  match leafOf va s with
  | none => none
  | some (l, a, e) =>
    if sizeCode l ≠ size ∨ fld e 2 2 ≠ fld arg 2 2 ∨ leafTarget e ≠ leafTarget arg ∨ !leafForm arg va l s then none
    else
      let s := if fld e 6 8 = fld arg 6 8 ∧ fld e 4 2 = fld arg 4 2 then s else clearArea (pageArea size va) s
      let leaf := withGen arg e
      some (htbReplace size va (some leaf) { s with mem := s.mem.writeNat a 8 leaf.toNat })
/-- The host's operation: none when it is refused. -/
def hostMapOp (m : MapOp) (s : State) : Option State :=
  match m.op with
  | 1 => some (htbReplace m.size m.va none (clearArea (pageArea m.size m.va) s))
  | 2 => splitPage m.size m.va m.arg s
  | 3 => movePage m.size m.va m.arg s
  | 4 => reattributePage m.size m.va m.arg s
  | _ => none

/-! ## pmap (R160, R396) -/

/-- The walk of `pmap` from L0 to L4: the address of the free L4 entry, or the refusal. -/
def pmapWalk (va : Nat) (s : State) : Nat → Nat → Nat ⊕ Nat
  | 0, _ => .inr 7
  | fuel + 1, base =>
    let l := 4 - fuel
    let a := entryAddr base va l
    let e := w64 (s.mem.readNat a 8)
    if l = 4 then (if bit e 0 then .inr 2 else .inl a)
    else if !bit e 0 then .inr 7
    else if bit e 1 then .inr 2
    else pmapWalk va s fuel (fld e 7 32 * 2 ^ 7)
/-- Perform `pmap` for partition `q`: its result code, in the order of checks of R396. -/
def pmapRun (q : Nat) (ptr attr : W64) (s : State) : Nat × State :=
  let va := vaOf ptr / 2 ^ 16 * 2 ^ 16
  let n := ctlFld (.fpoolCnt q) 0 32 s
  if attr.toNat % 4 ≥ 2 ∨ fld attr 2 62 ≠ 0 then (6, s)
  else if ctlFld .duty 0 1 s = 1 then (5, s)
  else if pktOf q (keyOf ptr) s &&& 3 ≠ 3 then (8, s)
  else if regionKind va s ≠ 1 then (3, s)
  else if ctlFld (.fpool q) 0 1 s = 0 ∨ n = 0 then (1, s)
  else
    match (if ctlFld .ptRoot 0 1 s = 0 then .inr 7 else pmapWalk va s 5 (ctlFld .ptRoot 13 26 s * 2 ^ 13)) with
    | .inr c => (c, s)
    | .inl a =>
      let f := s.mem.readNat (ctlFld (.fpool q) 16 32 s * 2 ^ 16 + 4 * (n - 1)) 4
      if hbmEnd ≤ f * 2 ^ 16 ∨ !framesFree f 1 s then (4, s)
      else
        let leaf := w64 (3 + attr.toNat % 4 * 2 ^ 4 + (keyOf ptr).toNat * 2 ^ 6 + f * 2 ^ 28)
        let s := { s with mem := (s.mem.zero (f * 2 ^ 16) (2 ^ 16)).writeNat a 8 leaf.toNat
                          lines := updWhere (fun l => (pageArea 0 va).holds l.va) (fun l => { l with record := 0 }) s.lines }
        let s := rmapSet f 1 (fun _ _ => rmapUsed 0 va) s
        (0, ctlSetFld (.fpoolCnt q) 0 32 (n - 1) (htbReplace 0 va (some leaf) s))
/-- The `pmap` whose turn it is: its entry fills with the code. -/
def runPmap (id : Nat) (s : State) : State :=
  match s.lsu.find? fun e => e.id == id with
  | none => s
  | some e =>
    match e.kind with
    | .pmap ptr attr =>
      let (c, s) := pmapRun e.req.part ptr attr s
      if e.dest == .none then settle e.req.team (dropEnt id s) else fillEnt id [(0, c)] false s
    | _ => s

/-! ## The events (R154) -/

/-- The operation's frames include a granule: those of the page's leaf, those a move maps it to, and, of a leaf that software has cleared already,
those that the reverse map, a home's buffer or a slice still has under the page (R154). -/
def opTouches (m : MapOp) (g : Nat) (s : State) : Bool :=
  let size := pageBytes m.size
  let meets (e : W64) (n : Nat) : Bool := fld e 2 2 == 0 && decide (leafTarget e / 2 ^ 16 ≤ g) && decide (g < (leafTarget e + n) / 2 ^ 16)
  let mapped : Bool := match rmapEntry (g * 2 ^ 16) s with | some e => bit e 0 && fld e 16 40 * 2 ^ 16 / size == m.va / size | none => false
  (match leafOf m.va s with | some (_, _, e) => meets e size | none => false) || (m.op == 3 && meets m.arg size) || mapped
    || (s.homes.any fun h => h.2.htb.any fun e => e.base / size == m.va / size && meets e.leaf (pageBytes e.size))
    || s.lines.any fun l => (pageArea m.size m.va).holds l.va && l.granule == some g
/-- The operation may clear its page's lines: an unmap or a reattribute (R154). -/
def MapOp.clears (m : MapOp) : Bool := m.op == 1 || m.op == 4
/-- Accepted requests for the page are complete, and its embers drawn where its lines are to be cleared (R154). -/
def mapReady (m : MapOp) (s : State) : Bool := if m.clears then areaReady (pageArea m.size m.va) s else areaQuiet (pageArea m.size m.va) s
/-- A flip of a granule of the operation's frames began before it (R154). -/
def flipFirst (m : MapOp) (s : State) : Bool :=
  match s.biasOp with
  | some (_, g, k) => k != 1 && opTouches m g s
  | none => false
/-- MAPPING_OP_COMPLETE: the host's operation or home firmware's own (R73), which reports nothing, or the first waiting `pmap`; held requests go on, and the next follows. -/
def execMappingOpComplete (s : State) :=
  event (fun s =>
    match s.mapop with
    | some m =>
      if !mapReady m s || flipFirst m s then cause .mappingOpComplete (if m.clears then drawArea (pageArea m.size m.va) s else s)
      else
        let (bitNo, s) := match hostMapOp m s with | some s => (4, s) | none => (5, s)
        let s := (if m.fw then id else ctlSetFld .ptCmd bitNo 1 1) (ctlSetFld .ptCmd 0 1 0 { s with mapop := none, biasOp := s.biasOp.map fun b => (b.1, b.2.1, if b.2.2 = 1 then 0 else b.2.2) })
        let s := releaseHeld s
        if s.mapq.isEmpty then s else causeOnce .mappingOpComplete s
    | none =>
      match s.mapq with
      | [] => s
      | id :: rest =>
        let s := runPmap id { s with mapq := rest }
        if rest.isEmpty then s else causeOnce .mappingOpComplete s) s
/-- A write to `ctl.pt.cmd`: go = 1 while go reads 1 sets err and is otherwise ignored; go = 1 starts the operation. -/
def ptWrite (v : W64) (s : State) : State :=
  let old := ctlRaw .ptCmd s
  if bit v 0 && bit old 0 then ctlSetFld .ptCmd 5 1 1 s
  else
    let flags := fld old 4 2 * 2 ^ 4 - (fld old 4 2 &&& fld v 4 2) * 2 ^ 4
    let s := ctlPut .ptCmd (w64 (nb (bit v 0 || bit old 0) + fld v 1 3 * 2 + flags + fld v 6 2 * 2 ^ 6 + fld v 16 40 * 2 ^ 16)) s
    if bit v 0 then causeOnce .mappingOpComplete { s with mapop := some { op := fld v 1 3, size := fld v 6 2, va := fld v 16 40 * 2 ^ 16, arg := ctlRaw .ptArg s } }
    else s
def execPtUnmap (v : W64) (s : State) := event (ptWrite v) s
def execPtSplit (v : W64) (s : State) := event (ptWrite v) s
def execPtMove (v : W64) (s : State) := event (ptWrite v) s
def execPtReattribute (v : W64) (s : State) := event (ptWrite v) s

/-! ## Hotness (R150, R163, R164) -/

/-- Frames of a hotness ring. -/
def ringFrames (v : W64) : Nat := (2 ^ (max 7 (min 20 (fld v 6 5))) * 32 + 65535) / 65536
/-- A write to `ctl.hot.base[q]`: the ring's frames are reserved while en = 1; writing en = 1 restarts the counters. -/
def writeHotBase (q : Nat) (v : W64) (s : State) : State :=
  let old := ctlRaw (.hotBase q) s
  let s := if bit old 0 then reserveFrames (fld old 16 32) (ringFrames old) false s else s
  let s := ctlPut (.hotBase q) (ctlMerge (.hotBase q) old v) s
  if bit v 0 then
    forEach (List.range 37) (fun h s => modHome h (fun x => { x with counts := x.counts.filter fun c => c.1 != q }) s) (reserveFrames (fld v 16 32) (ringFrames v) true s)
  else s
def execHotBaseWrite (q : Nat) (v : W64) (s : State) := event (writeHotBase q v) s

end Sys2Proof.Machine
end

