-- ==== Sys2Proof/Machine/Host.lean ====
section
/-! DEFINITION. Queue interfaces (R35 to R46), the device's accesses to host memory (R47 to R49), the host's to device memory (R50 to R53),
and condition monitors (R347, R348). -/

namespace Sys2Proof.Machine

/-! ## Notify pages (R36, R37, R41 to R44) -/

/-- The enabled QIF of a function's slot (R36). -/
def qifAt (pf slot : Nat) (s : State) : Option Nat :=
  (List.range 1024).find? fun i => let c := ctlRaw (.qifCfg i) s; bit c 3 && fld c 0 3 == pf && fld c 10 10 == slot
/-- A rejection (R41): err and the first cause are kept, the count saturates, event 1 is raised. -/
def rejectPacket (i part code : Nat) (s : State) : State :=
  raiseEvent part 1 (modQif i (fun x => { x with ecode := if x.err then x.ecode else code, err := true, rejected := min 0xFFFF (x.rejected + 1) }) s)
/-- Fields of a request packet (R39). -/
def pkSeq (b : List Byte) : Nat := natOfBytes (sliceBytes b 0 2)
def pkKind (b : List Byte) : Nat := (b.getD 2 0).toNat
def pkAfter (b : List Byte) : Bool := (b.getD 3 0).getLsbD 0
def pkIrq (b : List Byte) : Bool := (b.getD 3 0).getLsbD 1
def pkVidx (b : List Byte) : Nat := natOfBytes (sliceBytes b 4 2)
def pkAddr (b : List Byte) : W64 := w64 (natOfBytes (sliceBytes b 8 8))
def pkValue (b : List Byte) : Nat := natOfBytes (sliceBytes b 16 8)
/-- A reserved field is non-zero (R39). -/
def pkReserved (b : List Byte) : Bool :=
  decide (4 ≤ (b.getD 3 0).toNat) || natOfBytes (sliceBytes b 6 2) != 0 || natOfBytes (sliceBytes b 24 40) != 0
/-- The rejection of a packet's contents (R41): 1, 2 and 4 in that order. -/
def pkCode (b : List Byte) (vlog : Nat) : Option Nat :=
  if pkReserved b || (!pkIrq b && pkVidx b != 0) || (pkKind b == 0 && pkAddr b != 0) || (pkKind b != 2 && pkKind b != 3 && pkValue b != 0) then some 1
  else if 3 < pkKind b then some 2
  else if pkIrq b && decide (2 ^ vlog ≤ pkVidx b) then some 4
  else none
/-- What a rejected packet whose seq is consumed acts as: a NOP with irq = 0 (R41). -/
def nopPacket (b : List Byte) : List Byte := bytesOfNat 2 (pkSeq b) ++ [0, if pkAfter b then 1 else 0] ++ List.replicate 60 0
/-- The packet as the QIF takes it: its owner, and the message it is to send (R36, R40). -/
def takePacket (cfg : W64) (p : QPkt) : QPkt :=
  { p with part := fld cfg 4 6, irq := if pkIrq p.bytes then some (fld cfg 0 3, fld cfg 20 11 + pkVidx p.bytes) else none }
/-- Take held packets that follow in sequence (R42). A packet is handed to the LFE as soon as it is taken (R36), so `done`, the taken field of
`ctl.qif.st` (R38), moves with next, not when a packet starts: the model's reading (log 20). -/
def takeHeld (cfg : W64) : Nat → Qif → Qif
  | 0, x => x
  | n + 1, x =>
    match x.held.find? fun p => p.seq == x.next with
    | none => x
    | some p => takeHeld cfg n { x with next := (x.next + 1) % 65536, done := (x.next + 1) % 65536, held := x.held.filter (fun q => q.seq != p.seq), taken := x.taken ++ [takePacket cfg p] }
/-- The event that carries a started packet out. -/
def packetEvent (i : Nat) (p : QPkt) : Instr :=
  match pkKind p.bytes with
  | 1 => .requestLaunch i p.num | 2 => .requestWait i p.num | 3 => .requestWrite i p.num | _ => .requestNop i p.num
/-- A packet may start (R40): no earlier WAIT stands, and with after = 1 nothing earlier does. -/
def mayStart (before : List QPkt) (p : QPkt) : Bool :=
  !(before.any fun x => pkKind x.bytes == 2) && (!pkAfter p.bytes || before.isEmpty) && before.all fun x => x.state != 0
/-- Start what may start, in order (R40, R42). -/
def startPackets (i : Nat) : Nat → State → State
  | 0, s => s
  | n + 1, s =>
    let x := qifOf i s
    match (List.range x.taken.length).find? fun k => (x.taken.getD k default).state == 0 with
    | none => s
    | some k =>
      let p := x.taken.getD k default
      if mayStart (x.taken.take k) p && s.cond != .fatal then
        startPackets i n (cause (packetEvent i p) (modQif i (fun x => { x with taken := x.taken.set k { p with state := 1 } }) s))
      else s
def pumpQif (i : Nat) (s : State) : State := startPackets i ((qifOf i s).taken.length) s
/-- The started packet of a QIF with a number. -/
def packetOfQif (i num : Nat) (s : State) : Option QPkt := (qifOf i s).taken.find? fun p => p.num == num && p.state != 0
/-- Change a taken packet. -/
def modPacket (i num : Nat) (f : QPkt → QPkt) (s : State) : State := modQif i (fun x => { x with taken := updWhere (fun q => q.num == num) f x.taken }) s
/-- A packet completes (R40): its message is sent, later packets go on. -/
def completePacket (i num : Nat) (s : State) : State :=
  match packetOfQif i num s with
  | none => s
  | some p =>
    let s := modQif i (fun x => { x with taken := x.taken.filter fun q => q.num != num }) s
    let s := match p.irq with | some (pf, v) => sendMsix pf v s | none => s
    pumpQif i s
/-- Ecode 5 (R41): the packet performs nothing further and sends no message. -/
def failPacket (i num : Nat) (s : State) : State :=
  match packetOfQif i num s with
  | none => s
  | some p => completePacket i num (rejectPacket i p.part 5 (modPacket i num (fun q => { q with irq := none }) s))
/-- A push to the page of an enabled QIF (R37, R41 to R43). -/
def pushPacket (i : Nat) (w : NotifyWrite) (s : State) : State :=
  let cfg := ctlRaw (.qifCfg i) s
  let q := fld cfg 4 6
  let x := qifOf i s
  let seq := pkSeq w.bytes
  let d := (seq + 65536 - x.next) % 65536
  if w.off ≠ 0 ∨ w.bytes.length ≠ 64 ∨ !w.allEnables then rejectPacket i q 8 s
  else if !(w.rid == Config.hostRid || (bit cfg 35 && w.rid == fld cfg 36 16)) || (partOf q s).resetting then rejectPacket i q 7 s
  else if 64 ≤ (seq + 65536 - x.done) % 65536 then rejectPacket i q 6 s
  else if 7 < d ∨ x.held.any (fun p => p.seq == seq) then rejectPacket i q 3 s
  else
    let code := pkCode w.bytes (fld cfg 31 4)
    let s := match code with | some c => rejectPacket i q c s | none => s
    let p : QPkt := { seq := seq, num := x.count, bytes := if code.isSome then nopPacket w.bytes else w.bytes }
    let s := modQif i (fun x => { x with count := x.count + 1 }) s
    if d ≠ 0 then modQif i (fun x => { x with held := x.held ++ [p] }) s
    else pumpQif i (modQif i (fun x => takeHeld cfg 8 { x with next := (seq + 1) % 65536, done := (seq + 1) % 65536, taken := x.taken ++ [takePacket cfg p] }) s)
/-- A posted write of a requester over CXL.io has not been performed yet (R44). -/
def postedWaits (rid : Nat) (s : State) : Bool :=
  let p (r : Req) : Bool := r.posted && r.team == rid
  s.lines.any (fun l => l.waiting.any p) || s.homes.any fun h => h.2.held.any p
/-- A push or a status read of a requester that waits for its posted writes. -/
def waitsFor (rid : Nat) : Instr → Bool
  | .notifyPush w => w.rid == rid && w.waited
  | .notifyStatusRead _ _ _ _ r => r.rid == rid && r.waited
  | _ => false
/-- What follows a requester's posted writes waits for them: one that waits already keeps its place, another stands behind it (R44). -/
def afterPosted (rid : Nat) (waited : Bool) (again : Instr) (k : State → State) (s : State) : State :=
  if waited then (if postedWaits rid s then { s with agenda := again :: s.agenda } else k s)
  else if postedWaits rid s || s.agenda.any (waitsFor rid) then cause again s
  else k s
/-- NOTIFY_PUSH: other offsets and slots without an enabled QIF discard the write (R37). A push without RO is performed after every earlier
posted write of its requester (R44). -/
def execNotifyPush (w : NotifyWrite) (s : State) :=
  event (fun s =>
    let push (s : State) : State :=
      match qifAt w.pf w.slot s with
      | some i => if w.off < 0x40 && s.cond != .fatal then pushPacket i w s else s
      | none => s
    if w.ro then push s else afterPosted w.rid w.waited (.notifyPush { w with waited := true }) push s) s
/-- NOTIFY_STATUS_READ: the answer goes to the requester, after every earlier posted write of it (R37, R44). -/
def execNotifyStatusRead (pf slot off len : Nat) (r : StatusReader) (s : State) :=
  event (fun s =>
    let st (s : State) := bytesOfNat 8 ((qifAt pf slot s).elim 0 fun i => (ctlRead (.qifSt i) s).toNat)
    let byte (a : Nat) : Byte := if 0x40 ≤ a ∧ a < 0x48 then (st s).getD (a - 0x40) 0 else 0
    afterPosted r.rid r.waited (.notifyStatusRead pf slot off len { r with waited := true })
      (fun s => { s with hostOut := s.hostOut ++ [(2 * 2 ^ 64 + r.rid, (List.range len).map fun k => byte (off + k))] }) s) s
/-- The vector window avoids what R34 reserves and fits (R36). -/
def windowOk (v : W64) : Bool :=
  decide (fld v 31 4 ≤ 8) && decide (fld v 20 11 + 2 ^ fld v 31 4 ≤ 2048) && decide ((if fld v 0 3 = 0 then 4 else 1) ≤ fld v 20 11)
/-- QIF_CONFIG_WRITE (R36, R38). A write with en = 1 to a QIF that is enabled keeps next, taken and what is held; the held packets are taken
under the new fields: R36 says nothing of it (log 77). -/
def writeQifCfg (i : Nat) (v : W64) (s : State) : State :=
  let old := ctlRaw (.qifCfg i) s
  let v := ctlMerge (.qifCfg i) old v
  let other := (List.range 1024).any fun j => j != i && (let c := ctlRaw (.qifCfg j) s; bit c 3 && fld c 0 3 == fld v 0 3 && fld c 10 10 == fld v 10 10)
  let bad := bit v 3 && (other || !windowOk v)
  let s := if bad then ctlSetFld .qifCfgerr 0 1 1 s else s
  let s := ctlPut (.qifCfg i) (if bad then v &&& ~~~8 else v) s
  if bit v 3 && !bad then (if bit old 3 then s else modQif i (fun x => { x with next := 0, done := 0 }) s)
  else modQif i (fun x => { x with held := [] }) s
def execQifConfigWrite (i : Nat) (v : W64) (s : State) := event (writeQifCfg i v) s
/-- IRQ_MAP_WRITE (R46). A pend that stands when en is written 0 stays, and is sent once en is 1 and mask 0: R46 says nothing of it (log 77). -/
def writeIrqMap (q e : Nat) (v : W64) (s : State) : State :=
  let old := ctlRaw (.irqMap q e) s
  let v := ctlMerge (.irqMap q e) old v
  let v := if fld v 0 11 = 0 ∨ (fld v 11 3 = 0 ∧ fld v 0 11 ≤ 3) then v &&& ~~~0x4000 else v
  let s := ctlPut (.irqMap q e) v s
  if bit v 16 && bit v 14 && !bit v 15 then sendMsix (fld v 11 3) (fld v 0 11) (ctlSetFld (.irqMap q e) 16 1 0 s) else s
def execIrqMapWrite (q e : Nat) (v : W64) (s : State) := event (writeIrqMap q e v) s

/-! ## The launch front end's accesses (R40, R158) -/

/-- A request of the LFE: at system scope, never from a core. -/
def lfeReq (id part : Nat) (op : ReqOp) (ord : Ord) (p : W64) (items : List Item) : Req :=
  { id := id, agent := .lfe, core := 255, part := part, op := op, ptr := p, items := items, ord := ord, scope := .sys }
/-- Make an access of the LFE; one answered with status 3 waits for that home's wake (R158). -/
def lfeAccess (r : Req) (s : State) : Ans × State :=
  match reqHome (again r s) s with
  | .local h => if (homeOf h s).noted.any (fun n => n.1 == 255 && n.2.1 == r.part) then (.later, s) else
      (match access r s with
      | (.later, s) => (.later, s)
      | (.nack n, s) => if n.status = 3 then (.later, s) else (.nack n, endAsk r.id s)
      | (a, s) => (a, endAsk r.id s))
  | _ => (match access r s with
      | (.later, s) => (.later, s)
      | (a, s) => (a, endAsk r.id s))
/-- A partition's bytes that this module holds of other modules' lines go to their homes (R198); whether all have arrived. -/
def drainRemote (q : Nat) (s : State) : Bool × State :=
  let (ids, s) := flushRemote false q s
  (ids.isEmpty, s)

/-! ## Request packets (R40) -/

/-- REQUEST_NOP. -/
def execRequestNop (i seq : Nat) (s : State) := event (completePacket i seq) s
/-- REQUEST_LAUNCH: the packet completes when the launch writes its signal word. -/
def execRequestLaunch (i seq : Nat) (s : State) :=
  event (fun s =>
    match packetOfQif i seq s with
    | none => s
    | some p =>
      let (id, s) := fresh s
      cause (.recordRead id) { s with launches := s.launches ++ [{ id := id, part := p.part, record := pkAddr p.bytes, origin := .qif i seq }] }) s
/-- The number under which a packet makes its accesses. -/
def packetAgent (i : Nat) (p : QPkt) (s : State) : Nat × State :=
  if p.mon = 0 then (let (id, s) := fresh s; (id, modPacket i p.num (fun q => { q with mon := id }) s)) else (p.mon, s)
/-- REQUEST_WRITE: eager, complete once visible at system scope. -/
def execRequestWrite (i num : Nat) (s : State) :=
  event (fun s =>
    match packetOfQif i num s with
    | none => s
    | some p =>
      let a := pkAddr p.bytes
      let again := cause (.requestWrite i num)
      if p.state = 2 then (let (done, s) := drainRemote p.part s; if done then completePacket i num s else again s)
      else if vaOf a % 8 ≠ 0 ∨ !(pktOf p.part (keyOf a) s).getLsbD 1 then failPacket i num s
      else
        let (id, s) := packetAgent i p s
        match lfeAccess (lfeReq id p.part .write .rel a [{ lane := 0, off := vaOf a % 64, size := 8, data := pkValue p.bytes }]) s with
        | (.later, s) => again s
        | (.nack _, s) => failPacket i num s
        | (_, s) => again (modPacket i num (fun q => { q with state := 2 }) s)) s
/-- A WAIT's arming read (R40): acquire at system scope; the condition holds, or a monitor stands. -/
def waitPacket (i seq : Nat) (s : State) : State :=
  match packetOfQif i seq s with
  | none => s
  | some p =>
    let a := pkAddr p.bytes
    if vaOf a % 8 ≠ 0 ∨ !(pktOf p.part (keyOf a) s).getLsbD 0 then failPacket i seq s
    else
      let (id, s) := packetAgent i p (if p.mon = 0 then bumpSystem s else s)
      let s := { s with monitors := s.monitors.filter fun m => m.id != id }
      match lfeAccess (lfeReq id p.part (.monitor .ge) .acq a [{ lane := 0, off := vaOf a % 64, size := 8, data := pkValue p.bytes }]) s with
      | (.later, s) => cause (.requestWait i seq) s
      | (.nack _, s) => failPacket i seq s
      | (.ack _, s) => s
      | (.data rsp, s) =>
        if condHolds .ge (rsp.vals.headD 0) (pkValue p.bytes) then completePacket i seq s
        else if s.monitors.any (fun m => m.id == id) then
          { s with monitors := updWhere (fun m => m.id == id) (fun m => { m with lfe := some (i, seq) }) s.monitors }
        else { s with monitors := s.monitors ++ [{ id := id, ent := id, team := 0, core := 255, part := p.part, ptr := a, width := 8, cond := .ge, b := pkValue p.bytes
                                                   ord := .acq, scope := .sys, slice := false, lfe := some (i, seq) }] }
def execRequestWait (i seq : Nat) (s : State) := event (waitPacket i seq) s

/-! ## Monitors (R190, R347, R348) -/

/-- A WAIT packet's fill acquires: it meets the line's ember, and the packet completes (R40, R190). -/
def waitFilled (i : Nat) (p : QPkt) (m : MonMsg) (s : State) : State :=
  match lfeAccess (lfeReq m.id p.part .query .acq (pkAddr p.bytes) []) s with
  | (.later, s) => cause (.monfill m) s
  | (_, s) => completePacket i p.num (bumpSystem s)
/-- MONFILL: the observed value fills; an acquiring monitor first asks the line's embers (R190, R350). One that comes before the answer to the
arming read waits for that (R347), one of a withdrawn monitor confirms the withdrawal (R295). -/
def execMonfill (m : MonMsg) (s : State) :=
  event (fun s =>
    match s.lsu.find? fun e => e.id == m.id with
    | some e =>
      if e.gone then settle e.req.team (dropEnt e.id s)
      else match e.phase with
        | .monitor => settle e.req.team (fillMonitor e m s)
        | .sent => modEnt e.id (fun e => { e with early := some m }) s
        | _ => s
    | none =>
      match (s.qifs.flatMap fun x => x.2.taken.map fun p => (x.1, p)).find? fun y => y.2.mon == m.id && y.2.state != 0 with
      | some (i, p) => waitFilled i p m s
      | none => s) s
/-- MONITOR_RECHECK: the arming read is made again; the slice confirms the withdrawal of a monitor (R295). -/
def execMonitorRecheck (id : Nat) (s : State) :=
  event (fun s =>
    match s.monitors.find? fun m => m.id == id with
    | none => s
    | some m =>
      let off : State := { s with monitors := s.monitors.filter fun m => m.id != id }
      match m.lfe, s.lsu.find? fun e => e.id == m.ent with
      | some (i, seq), _ => if m.slice then s else (let s := waitPacket i seq s; if s.monitors.any (fun m => m.id == id) then bumpSystem s else s)
      | none, some e =>
        if e.gone then (if e.phase == .monitor then settle e.req.team (dropEnt e.id off) else s)
        else if e.phase == .monitor && !m.slice then sendReq reqEvent e.req e.id off else s
      | none, none => off) s
/-- A monitor that could not be armed at a slice re-checks (R348). -/
def ensureMonitor (r : Req) (s : State) : State :=
  match r.op with
  | .monitor c =>
    if s.monitors.any (fun m => m.id == r.id) then s
    else
      let it := r.items.headD default
      { s with monitors := s.monitors ++ [{ id := r.id, ent := r.id, team := r.team, core := r.core, part := r.part, ptr := mkPtr (keyOf r.ptr) (lineVa (vaOf r.ptr) + it.off)
                                            width := it.size, cond := c, b := it.data, ord := r.ord, scope := r.scope, slice := false }] }
  | _ => s

/-! ## Host memory seen by the device (R47 to R49) -/

/-- ATS entries of an invalidation are still used by a request (R48). -/
def invalBusy (pasid base pages : Nat) (s : State) : Bool :=
  s.links.any fun l => l.kind == .own && l.pasid == pasid &&
    (match lineAt (lineVa (vaOf l.req.ptr)) (keyOf l.req.ptr) s with
     | some ln => (match ln.place with
       | .host iova => decide (base / 4096 ≤ iova / 4096) && decide (iova / 4096 < base / 4096 + pages) | _ => false)
     | none => false)
/-- Invalidation completions that are due are sent (R48). -/
def finishInvals (s : State) : State :=
  let done := s.invals.filter fun x => !invalBusy x.1 x.2.1 x.2.2 s
  { s with invals := s.invals.filter (fun x => invalBusy x.1 x.2.1 x.2.2 s)
           hostOut := s.hostOut ++ done.map fun x => (4 * 2 ^ 64 + x.1, bytesOfNat 8 x.2.1) }
/-- ATS_INVALIDATION. -/
def execAtsInvalidation (pasid base pages : Nat) (s : State) :=
  event (fun s =>
    finishInvals { s with
      atc := s.atc.filter fun a => !(a.1 == pasid && decide (base / 4096 ≤ a.2.1) && decide (a.2.1 < base / 4096 + pages))
      invals := s.invals ++ [(pasid, base, pages)] }) s
/-- The answer of the host for an agent that tries again. -/
def putGot (r : Req) (addr : Nat) (x : Option (List Byte)) (s : State) : State := { s with got := s.got ++ [(syncKeyOf r, addr, x)] }
/-- What a group of lanes makes of the old value of their one location: the new value, the values it returns, whether it writes (R49, R182). -/
def groupStep (r : Req) (old : Nat) : Nat × List Nat × Bool :=
  let it := r.items.headD default
  let (bs, vals, m) := runItems r.op (putBytes (List.replicate 64 0) it.off (bytesOfNat it.size old)) r.items
  (itemValue bs it, vals, m != 0)
/-- The translation of a page is filed under the PASID it was asked with; an access that it does not permit gets status 4 (R47, R48). -/
def fileTranslation (l : LinkReq) (t : Nat) (write : Bool) (s : State) : State :=
  let rest := s.atc.filter fun a => !(a.1 == l.pasid && a.2.1 == l.addr / 4096)
  { s with atc := (if rest.length < 4096 then rest else rest.drop 1) ++ [(l.pasid, l.addr / 4096, t / 4096, write)] }
/-- A completion for a request (R48, R49). -/
def pcieAnswer (l : LinkReq) (k : PcieKind) (s : State) : State :=
  let r := l.req
  let fail (st : Nat) : State := if r.isSync then putGot r l.addr none s else deliver r (.nack { req := r, status := st }) s
  let a := if r.acquires then AcqAns.bump 0 else .notAcquire
  match k with
  | .data bs =>
    (match l.kind with
    | .hostAtomic =>
      let old := natOfBytes bs
      let (_, vals, wrote) := groupStep r old
      if l.guess.all (fun g => old == g) || !wrote then
        let (w, s) := farDone r wrote s
        deliver r (.data { req := r, vals := vals, wts := w, acq := a }) s
      else sendLinkWith .hostAtomic r l.addr (some old) s
    | .hostWrite =>
      if r.isSync then putGot r l.addr (some []) s
      else
        let (w, s) := farDone r true s
        deliver r (.ack { req := r, wts := w, acq := a }) s
    | .hostRead =>
      if r.isSync then putGot r l.addr (some bs) s
      else
        let (w, s) := farDone r false s
        deliver r (.data { req := r, vals := r.items.map (itemValue bs), line := bs, wts := w, acq := a })
          (match r.op with | .monitor c => if condHolds c ((r.items.map (itemValue bs)).headD 0) (r.items.headD default).data then s else ensureMonitor r s | _ => s)
    | _ => s)
  | .ur => if l.kind == .hostAtomic then deliver r (.nack { req := r, status := 9 }) s else fail 4
  | .ca => fail 4
  | .atsOk t w =>
    if r.forWrite && !w then fail 4
    else
      let s := fileTranslation l t w s
      if r.isSync then s else handle { r with counted := true, passed := true } s
  | .atsDenied => fail 4
/-- PCIE_COMPLETION. -/
def execPcieCompletion (id : Nat) (k : PcieKind) (s : State) :=
  event (fun s =>
    match s.links.find? fun l => l.id == id with
    | none => s
    | some l =>
      match l.kind with
      | .hostRead | .hostWrite | .hostAtomic | .ats => finishInvals (pcieAnswer l k { s with links := s.links.filter fun x => x.id != id })
      | _ => s) s
/-- CXL_CACHE_RESPONSE: the slice holds the line under ownership; the requests that waited are served. -/
def execCxlCacheResponse (ptr : W64) (bytes : List Byte) (s : State) :=
  event (fun s =>
    match s.links.find? fun l => l.kind == .own && linePtr l.req.ptr == linePtr ptr with
    | none => s
    | some l =>
      let va := lineVa (vaOf ptr)
      let s := { s with links := s.links.filter fun x => x.id != l.id }
      match lineAt va (keyOf ptr) s with
      | none => s
      | some ln =>
        finishInvals (evictAt va (keyOf ptr)
          (serveWaiting va (keyOf ptr) (setLine { ln with data := ln.fresh (sliceBytes bytes 0 64), present := true, filled := s.ck, used := s.ck, st := .shared } s)))) s

/-! ## What the host link can do (R32) -/

/-- Capabilities of the host link. -/
inductive HostCap
  | flitMode | msix | pasid | ats | atomicRequester | cxlIo | cxlCache | cxlMemHdmDb
  | sriov | pri | atomicCompleter | intx | msi | hdmH | multiLogicalDevice | portSwitching
deriving DecidableEq, Repr
/-- What the device's capability structures report: those that R32 lists as supported are present, all others absent. -/
def HostCap.present : HostCap → Bool
  | .flitMode | .msix | .pasid | .ats | .atomicRequester | .cxlIo | .cxlCache | .cxlMemHdmDb => true
  | .sriov | .pri | .atomicCompleter | .intx | .msi | .hdmH | .multiLogicalDevice | .portSwitching => false
/-- Largest payload, vectors of a function, PASID bits, HDM bytes (R32). -/
def hostLimits : Nat × Nat × Nat × Nat := (512, 2048, 20, hbmEnd)

/-! ## Device memory seen by the host (R50 to R53) -/

/-- HOST_MEMORY_ACCESS: each line of the access is served at its point of coherence as a system-scope access. -/
def execHostMemoryAccess (a : HostAccess) (s : State) :=
  event (fun s =>
    let n := match a.write with | some bs => bs.length | none => a.size
    forEach (pieces (w64 a.off) n) (fun x s =>
      let (p, i, k) := x
      let d := match a.write with | some bs => natOfBytes (sliceBytes bs i k) | none => 0
      handle { agent := .host, core := 255, team := a.rid, posted := a.write.isSome && !a.cxlMem, op := if a.write.isSome then .write else .read, ord := if a.write.isSome then .rel else .acq, scope := .sys
               ptr := p, items := [{ lane := 0, off := p.toNat % 64, size := k, data := d }] } s) s) s
/-- Lines of a granule: those the reverse map places there, and those that have been used (R150). -/
def granuleArea (g : Nat) (s : State) : Area :=
  let known := (s.lines.filter fun l => l.granule == some g).map (·.va)
  let base := match rmapEntry (g * 2 ^ 16) s with
    | some e => if bit e 0 then some (fld e 16 40 * 2 ^ 16 + g * 2 ^ 16 % pageBytes (fld e 2 2)) else none
    | none => none
  { holds := fun va => known.contains va || (match base with | some b => va / 2 ^ 16 * 2 ^ 16 == b | none => false)
    covers := fun sig => known.any (bloomHit sig) || (match base with | some b => (List.range 1024).any fun i => bloomHit sig (b + 64 * i) | none => false) }
/-- A write to `ctl.bias.cmd` (R50). A granule number at or beyond 0x60_0000, past the end of HBM, is flipped like another: R50 gives it no
outcome (log 77). Go during a flip, or for a granule already in that bias, sets err and is otherwise ignored. -/
def biasWrite (v : W64) (s : State) : State :=
  let old := ctlRaw .biasCmd s
  let host := bit v 1
  if bit v 0 && (bit old 0 || s.biasHost.contains (fld v 16 23) == host) then ctlSetFld .biasCmd 3 1 1 s
  else
    let flags := fld old 2 2 * 4 - (fld old 2 2 &&& fld v 2 2) * 4
    let s := ctlPut .biasCmd (w64 (nb (bit v 0 || bit old 0) + nb host * 2 + flags + fld v 16 23 * 2 ^ 16)) s
    if bit v 0 then
      let g := fld v 16 23
      let behind := match s.mapop with | some m => opTouches m g s | none => false
      cause .biasFlipDone { s with biasOp := some (host, g, if behind then 1 else 0) }
    else s
def execBiasToHost (v : W64) (s : State) := event (biasWrite v) s
def execBiasToDevice (v : W64) (s : State) := event (biasWrite v) s
/-- Re-checking monitors of a granule move back into the slice tables as far as these have room (R52); one whose condition holds by now fills
(R53, R190). -/
def rearmMonitors (a : Area) (s : State) : State :=
  forEach (s.monitors.filter fun m => !m.slice && a.holds (lineVa (vaOf m.ptr))) (fun m s =>
    match lineAt (lineVa (vaOf m.ptr)) (keyOf m.ptr) s with
    | none => s
    | some ln =>
      let here := s.monitors.filter fun x => x.slice && (match lineAt (lineVa (vaOf x.ptr)) (keyOf x.ptr) s with | some l => l.slice s == ln.slice s | none => false)
      if ln.inSlice && poolFree m.part 40 8 32 4096 (here.map (·.part)) s then
        fireMonitors ln (ln.bytes s) (2 ^ 64 - 1) { s with monitors := updWhere (fun x => x.id == m.id) (fun x => { x with slice := true }) s.monitors } else s) s
/-- The flip is complete (R51 step 5). -/
def endFlip (s : State) : State :=
  releaseHeld (sendMsix 0 3 (ctlSetFld .biasCmd 2 1 1 (ctlSetFld .biasCmd 0 1 0 { s with biasOp := none })))
/-- BIAS_FLIP_DONE (R51, R52): accepted requests complete, the granule's lines are cleared or snooped back, and the bias changes. -/
def execBiasFlipDone (s : State) :=
  event (fun s =>
    match s.biasOp with
    | none => s
    | some (host, g, k) =>
      let a := granuleArea g s
      let snooping := s.links.any fun l => l.kind == .backInv && l.addr / 2 ^ 16 == g && l.req.agent == .host
      if k = 2 then
        if snooping then cause .biasFlipDone s
        else endFlip (rearmMonitors a { s with biasHost := s.biasHost.filter (· != g) })
      else if k = 1 ∨ !areaReady a s ∨ (allTeams s).any (fun t => t.c.ops.any fun o => o.mid && flipTouches o s) then cause .biasFlipDone (drawArea a s)
      else if host then endFlip { clearArea a s with biasHost := s.biasHost ++ [g] }
      else
        let s := forEach (List.range 1024) (fun i s => sendLink .backInv { agent := .host } (g * 2 ^ 16 + 64 * i) s) s
        cause .biasFlipDone { s with biasOp := some (host, g, 2) }) s
/-- Dirty bytes that the host gives back are its write at the line's point of coherence: stamps, monitors and queue waiters follow (R50, R53, R204). -/
def hostGivesBack (pa : Nat) (bs : List Byte) (s : State) : State :=
  let bs := sliceBytes bs 0 64
  match s.lines.find? fun l => l.place == .hbm pa with
  | some ln =>
    (perform { agent := .host, core := 255, op := .write, scope := .sys, ptr := ln.ptr
               items := bs.zipIdx.map fun x => { lane := 0, off := x.2, size := 1, data := x.1.toNat } } ln .notAcquire s).2
  | none => { s with mem := s.mem.writeN pa bs }
/-- BACK_INVALIDATION_RESPONSE: dirty data reach the memory; what was snooped for goes on. -/
def execBackInvalidationResponse (gran line : Nat) (dirty : Option (List Byte)) (s : State) :=
  event (fun s =>
    let pa := gran * 2 ^ 16 + line % 1024 * 64
    let mine := s.links.filter fun l => l.kind == .backInv && l.addr == pa
    if mine.isEmpty then s
    else
      let s := { s with links := s.links.filter fun l => !(l.kind == .backInv && l.addr == pa) }
      let s := match dirty with | some bs => hostGivesBack pa bs s | none => s
      forEach mine (fun l s =>
        let r := l.req
        if r.agent == .host then s
        else if r.isSync then putGot r pa (some []) s
        else
          match lineAt (lineVa (vaOf r.ptr)) (keyOf r.ptr) s with
          | some ln => let (x, s) := serve true r ln s; deliver r x s
          | none => handle r s) s) s

/-- TIME_WRITE (R291). -/
def execTimeWrite (v : W64) (s : State) := event (fun s => { s with time := v }) s

end Sys2Proof.Machine
end

