-- ==== Sys2Proof/Machine/Launch.lean ====
section
/-! DEFINITION. Launches from request to completion: the record's read, validation, queue set-up, the host's verdict, the signal word
(R74, R78 to R84, R95, R97 to R100), and LAUNCH packets of other modules (R55). -/

namespace Sys2Proof.Machine

/-! ## The record (R78, R79) -/

/-- Bytes of the record read so far. -/
def Launch.recBytes (l : Launch) : List Byte := l.raw.drop (vaOf l.record % 64)
/-- A field of the record. -/
def Launch.field (l : Launch) (off n : Nat) : Nat := natOfBytes (sliceBytes l.recBytes off n)
/-- Bytes of the record: its header, and its stage descriptors once their number is known. Which bytes belong to a record whose nstage is above 8
the spec does not say: of such a record the LFE reads the header alone, so code 2 is what it finds, the model's choice (log 98). -/
def Launch.need (l : Launch) : Nat := if l.recBytes.length < 64 then 64 else 64 + (if l.field 2 1 ≤ 8 then 32 * l.field 2 1 else 0)
/-- The descriptor of a stage. -/
def Launch.desc (l : Launch) (i : Nat) : Stage :=
  let o := 64 + 32 * i
  { entry := w64 (l.field o 8), gx := l.field (o + 8) 2, gy := l.field (o + 10) 2, gz := l.field (o + 12) 2, wcode := l.field (o + 14) 1
    teams := l.field (o + 16) 1, vregs := l.field (o + 17) 1, scratch := l.field (o + 18) 1, flags := l.field (o + 19) 1, atiles := l.field (o + 20) 1 }
/-- The record taken apart. -/
def Launch.parse (l : Launch) : Launch :=
  let n := l.field 2 1
  { l with nstage := n, sigptr := w64 (l.field 8 8), seqno := l.field 0x10 8, args := w64 (l.field 0x18 8), qarea := w64 (l.field 0x20 8), lgcap := l.field 0x28 1
           stages := if n ≤ 8 then (List.range n).map l.desc else [] }
/-- Workgroups of a stage. -/
def Stage.size (g : Stage) : Nat := g.gx * g.gy * g.gz
/-- Lanes of its teams. -/
def Stage.width (g : Stage) : Nat := 32 * (g.wcode % 32 + 1)
def Stage.wide (g : Stage) : Bool := g.flags.testBit 0
def Stage.policy (g : Stage) : Nat := g.flags / 2 % 4
/-- Granules one team takes (R105). -/
def Stage.granules (g : Stage) : Nat := (g.vregs * g.width * 4 + 2047) / 2048
/-- Teams of a workgroup on each of its cores (R83). -/
def Stage.perCore (g : Stage) : Nat := if g.wide then (g.teams + 3) / 4 else g.teams
/-- Bytes of a pipeline queue (R89, R95) and the header of queue `i`. -/
def Launch.queueBytes (l : Launch) : Nat := 384 + 576 * 2 ^ l.lgcap
def Launch.queue (l : Launch) (i : Nat) : W64 := ptrAdd l.qarea (i * l.queueBytes : Nat)

/-! ## Validation (R81) -/

/-- A page check of the LFE: the address is mapped and its key is the pointer's. A page of another module is asked for there (`farPages`). -/
def pageOk (p : W64) (s : State) : Bool :=
  match homeSel (vaOf p) s with
  | .none => false
  | .remote _ => true
  | .local h => match (translate h (keyOf p) (vaOf p) s).1 with | .ok _ => true | _ => false
/-- Rights and page of a pointer: R, W, X as bits of `need`. -/
def keyOk (q : Nat) (p : W64) (need : BitVec 3) (s : State) : Bool := pktOf q (keyOf p) s &&& need == need && pageOk p s
/-- Reserved fields of the record are zero. -/
def reservedOk (l : Launch) : Bool :=
  l.field 0 2 == 1 && l.field 3 5 == 0 && decide (l.seqno < 2 ^ 48) && l.field 0x29 23 == 0 && (l.nstage != 1 || (l.qarea == 0 && l.lgcap == 0))
    && (List.range l.stages.length).all fun i =>
      let g := l.stages.getD i {}
      let o := 64 + 32 * i
      decide (g.wcode < 32) && l.field (o + 15) 1 == 0 && decide (g.flags < 16) && decide (g.atiles < 4) && l.field (o + 21) 11 == 0
/-- The pages of the queue area: one address in each 64 KiB, and the last byte. -/
def queuePages (l : Launch) : List W64 :=
  let n := (l.nstage - 1) * l.queueBytes
  if n = 0 then [] else ((List.range (n / 65536 + 1)).map fun i => ptrAdd l.qarea (i * 65536 : Nat)) ++ [ptrAdd l.qarea (n - 1 : Nat)]
/-- Units a partition may use for scratchpad under its limit, whatever is ashed (R59). -/
def scratchLimit (q : Nat) (s : State) : Nat := let m := min 64 (ctlFld (.partLim q) 0 7 s); m - min (ctlFld (.split q) 0 7 s) m
/-- The first check of R81 that fails; 0 when none does. -/
def validate (l : Launch) (s : State) : Nat :=
  let any (f : Stage → Bool) : Bool := l.stages.any f
  if !reservedOk l then 1
  else if l.nstage = 0 ∨ 8 < l.nstage then 2
  else if vaOf l.record % 64 ≠ 0 ∨ vaOf l.sigptr % 8 ≠ 0 ∨ any (fun g => vaOf g.entry % 4 != 0) ∨ vaOf l.qarea % 64 ≠ 0 then 3
  else if any (fun g => g.size == 0) ∨ 2 ^ 32 - 1 < (l.stages.map Stage.size).sum then 4
  else if any (fun g => g.vregs == 0 || decide (64 < g.vregs)) then 5
  else if any (fun g => g.teams == 0 || decide ((if g.wide then 64 else 16) < g.teams)) then 6
  else if any (fun g => decide (512 < g.perCore * g.granules) || decide (64 < g.perCore) || decide (2 < g.atiles) || decide (scratchLimit l.part s < g.scratch)) then 7
  else if any (fun g => g.policy == 3) ∨ (l.stages.drop 1).any (fun g => g.policy == 1) then 8
  else if 1 < l.nstage ∧ (l.lgcap < 4 ∨ 12 < l.lgcap) then 9
  else if !keyOk l.part l.sigptr 2 s ∨ any (fun g => !keyOk l.part g.entry 4 s) ∨ !(queuePages l).all (fun p => keyOk l.part p 3 s) then 10
  else if any Stage.wide ∧ !(List.range 36).any (fun c => wideCluster c s) then 11
  else 0

/-- Read a line of each address that another module homes: that module makes the page check (R81, R155). -/
def farPages (id q : Nat) : List W64 → State → Ans × State
  | [], s => (.ack { req := {} }, s)
  | p :: ps, s =>
    match homeSel (vaOf p) s with
    | .remote _ =>
      (match lfeAccess (lfeReq id q .read .rlx (linePtr p) [{ lane := 0, off := 0, size := 8 }]) s with
      | (.later, s) => (.later, s)
      | (.nack n, s) => (.nack n, s)
      | (_, s) => farPages id q ps s)
    | _ => farPages id q ps s
/-- The addresses whose pages the LFE checks. -/
def Launch.pages (l : Launch) : List W64 := l.sigptr :: l.stages.map Stage.entry ++ queuePages l

/-! ## Outcomes -/

/-- The result of a team's `launch` (R378). -/
def launchResult (ent v : Nat) (s : State) : State :=
  match s.lsu.find? fun e => e.id == ent with
  | some e => if e.dest == .none then settle e.req.team (dropEnt ent s) else fillEnt ent [(0, v)] false s
  | none => s
/-- Answer the packet a remote launch came in (R55). -/
def answerLaunch (key op status : Nat) (s : State) : State :=
  match s.peers.find? fun p => p.1 == key with
  | some (_, p) => sendReply p op status [] { s with peers := s.peers.filter fun x => x.1 != key }
  | none => s
/-- A launch that failed validation starts nothing (R81, R82). -/
def failLaunch (l : Launch) (code : Nat) (s : State) : State :=
  let r := CtlReg.lfeVfail l.part
  let s := ctlSetFld r 16 16 (min 0xFFFF (ctlFld r 16 16 s + 1)) (ctlSetFld r 0 4 code s)
  let s := { s with launches := s.launches.filter fun x => x.id != l.id }
  match l.origin with
  | .qif i seq => failPacket i seq s
  | .team _ _ ent => launchResult ent code s
  | .peer _ key _ => answerLaunch key 0x12 6 s
/-- A launch has passed and its queues stand: its deal begins (R84). -/
def startRunning (l : Launch) (s : State) : State :=
  let s := modLaunch l.id (fun x => { x with phase := .running, dealt := List.replicate x.nstage 0, gone := List.replicate x.nstage 0 }) s
  let s := match l.origin with
    | .qif _ _ => s
    | .team _ _ ent => launchResult ent 0 s
    | .peer _ key _ => answerLaunch key 0x11 0 s
  causeOnce (.dealPass l.part) s

/-! ## Queue set-up (R95) -/

/-- The lines the LFE writes: for each queue its header and its zeroed control words. -/
def setupLines (l : Launch) : List (W64 × List Byte) :=
  (List.range (l.nstage - 1)).flatMap fun i =>
    let h := l.queue i
    let header := bytesOfNat 8 (ptrAdd h 64).toNat ++ [BitVec.ofNat 8 l.lgcap, 2] ++ List.replicate 54 0
    (h, header) :: (List.range 5).map fun k => (ptrAdd h (64 + 64 * k : Nat), List.replicate 64 0)
/-- Write them in order. -/
def writeLines (id q : Nat) : List (W64 × List Byte) → State → Ans × State
  | [], s => (.ack { req := {} }, s)
  | (p, bs) :: ls, s =>
    match lfeAccess (lfeReq id q .write .rlx p ((List.range 8).map fun i => { lane := 0, off := 8 * i, size := 8, data := natOfBytes (sliceBytes bs (8 * i) 8) })) s with
    | (.later, s) => (.later, s)
    | (.nack n, s) => (.nack n, s)
    | (_, s) => writeLines id q ls s
/-- Set the queues up; a launch waits while a line cannot be written yet. What becomes of a launch that has passed validation when a write of its
queues is refused the spec does not say: it fails with code 10, the model's choice (log 97). -/
def setUp (l : Launch) (s : State) : State :=
  match writeLines l.id l.part (setupLines l) (modLaunch l.id (fun x => { x with phase := .setup }) s) with
  | (.later, s) => cause (.recordRead l.id) s
  | (.nack _, s) => failLaunch l 10 s
  | (_, s) => startRunning l s

/-- As many other remote launches of the partition have been accepted as may be outstanding (R54, R55): also when it comes to this one's record,
since others may have been accepted after its packet arrived (log 96). -/
def maxedOut (l : Launch) (s : State) : Bool :=
  match l.origin with
  | .peer .. => decide (ctlFld (.fjLperm l.part) 8 8 s ≤ (s.launches.filter fun x => x.id != l.id && x.part == l.part &&
      (match x.origin, x.phase with | .peer .., .setup | .peer .., .running | .peer .., .signalling | .peer .., .signalled => true | _, _ => false)).length)
  | _ => false
/-- A remote launch beyond the limit is answered with status 3 and forgotten (R55). -/
def turnAway (l : Launch) (s : State) : State :=
  match l.origin with
  | .peer _ key _ => answerLaunch key 0x12 3 { s with launches := s.launches.filter fun x => x.id != l.id }
  | _ => s
/-- A launch passes validation: it takes its age, and its queues are set up (R84). -/
def passLaunch (l : Launch) (s : State) : State :=
  if maxedOut l s then turnAway l s else
  let age := (partOf l.part s).nextAge
  setUp { l with age := age } (modLaunch l.id (fun x => { x with age := age }) (modPart l.part (fun p => { p with nextAge := age + 1 }) s))

/-! ## Reading the record (R74, R80, R84) -/

/-- The validation ring (R74): the entry of a launch under a ticket; a team's launch names this module (log 24). -/
def ringEntry (l : Launch) (ticket : Nat) (s : State) : List Byte :=
  let (src, num) := match l.origin with | .qif i _ => (0, i) | .peer m _ _ => (1, m) | .team .. => (1, ctlFld .modid 0 16 s)
  bytesOfNat 2 ticket ++ [BitVec.ofNat 8 l.part, BitVec.ofNat 8 src] ++ bytesOfNat 2 num ++ [0, 0] ++ bytesOfNat 8 l.record.toNat ++ List.replicate 47 0 ++ [1]
/-- The record has been read: the host's verdict, or the checks of R81. Tickets count from 0 up, modulo 65,536: the model's choice (log 77). -/
def recordDone (l : Launch) (s : State) : State :=
  let l := l.parse
  let s := modLaunch l.id (fun _ => l) s
  if maxedOut l s then turnAway l s
  else if ctlFld .duty 1 1 s = 1 then
    if 64 ≤ (s.launches.filter fun x => match x.phase with | .verdict _ => true | _ => false).length then cause (.recordRead l.id) s
    else
      let t := s.ticket % 65536
      modLaunch l.id (fun x => { x with phase := .verdict t })
        { s with ticket := s.ticket + 1, hostOut := s.hostOut ++ [((ctlRaw .lvalBase s).toNat + 64 * (t % 64), ringEntry l t s)] }
  else
    let c := validate l s
    if c ≠ 0 ∧ c < 11 then failLaunch l c s
    else match farPages l.id l.part l.pages s with
      | (.later, s) => cause (.recordRead l.id) s
      | (.nack _, s) => failLaunch l 10 s
      | (_, s) => if c = 0 then passLaunch l s else failLaunch l c s
/-- Read the lines of the record that are missing, with acquire order at system scope. -/
def readRecord : Nat → Launch → State → State
  | 0, l, s => recordDone l s
  | n + 1, l, s =>
    if l.need ≤ l.recBytes.length then recordDone l s
    else
      let p := ptrAdd (linePtr l.record) (l.raw.length : Nat)
      match lfeAccess (lfeReq l.id l.part .read .acq p ((List.range 8).map fun i => { lane := 0, off := 8 * i, size := 8 })) s with
      | (.data rsp, s) => let l := { l with raw := l.raw ++ sliceBytes rsp.line 0 64 }; readRecord n l (modLaunch l.id (fun _ => l) s)
      | (.nack _, s) => failLaunch l 10 s
      | (_, s) => cause (.recordRead l.id) s
/-- The request comes from the same queue or module as a launch that stands before it and has not gone as far (R55, R84). -/
def launchBehind (l : Launch) (s : State) : Bool :=
  s.launches.any fun x => decide (x.id < l.id) && (match x.origin, l.origin with
    | .qif i _, .qif j _ => i == j && x.phase == .waiting
    | .peer m _ _, .peer n _ _ => m == n && (match x.phase with | .waiting | .reading | .verdict _ | .setup => true | _ => false)
    | _, _ => false)
/-- RECORD_READ: held while 256 launches of the partition are in progress (R84). -/
def execRecordRead (id : Nat) (s : State) :=
  event (fun s =>
    match launchOf id s with
    | none => s
    | some l =>
      match l.phase with
      | .waiting =>
        if s.cond = .fatal then s
        else if 256 ≤ (s.launches.filter fun x => x.part == l.part && x.phase != .waiting).length || launchBehind l s then cause (.recordRead id) s
        else if !(pktOf l.part (keyOf l.record) s).getLsbD 0 then failLaunch l 10 s
        else
          let l := { l with phase := .reading }
          readRecord 8 l (bumpSystem (modLaunch id (fun _ => l) s))
      | .reading => readRecord 8 l s
      | .setup => setUp l s
      | _ => s) s
/-- LVAL_VERDICT (R74): a ticket that is not outstanding is ignored; a rejection is recorded with code 15. -/
def writeVerdict (v : W64) (s : State) : State :=
  match s.launches.find? fun l => l.phase == .verdict (fld v 0 16) with
  | none => s
  | some l => if bit v 16 then passLaunch l s else failLaunch l 15 s
def execLvalVerdict (v : W64) (s : State) := event (writeVerdict v) s

/-! ## LAUNCH packets (R55) -/

/-- LAUNCH_PACKET: the checks of R55 in order. -/
def execLaunchPacket (_port : Nat) (p : Packet) (s : State) :=
  event (fun s =>
    match partOfTenant p.tenant s with
    | none => sendReply p 0x12 7 [] s
    | some q =>
      let lperm := ctlRead (.fjLperm q) s
      let b := p.payload
      if !bit lperm 0 || (partOf q s).resetting then sendReply p 0x12 7 [] s
      else if p.len ≠ 63 ∨ pkKind b ≠ 1 ∨ pkIrq b ∨ pkReserved b then sendReply p 0x12 6 [] s
      else if fld lperm 8 8 ≤ fld lperm 16 8 then sendReply p 0x12 3 [] s
      else if s.cond == .fatal then sendReply p 0x12 4 [] s
      else
        let (id, s) := fresh s
        cause (.recordRead id) { s with peers := s.peers ++ [(id, p)]
                                        launches := s.launches ++ [{ id := id, part := q, record := pkAddr b, origin := .peer p.srcm id p.tag }] }) s
/-- LAUNCH_RESEND: no sooner than 1 µs after the status 3 the packet is sent again. -/
def execLaunchResend (id : Nat) (s : State) :=
  event (fun s =>
    match s.links.find? fun l => l.id == id && l.due != 0 && decide (l.due ≤ s.ck) with
    | some { pkt := some p, .. } => sendPacket p { s with links := updWhere (fun l => l.id == id) (fun l => { l with due := 0 }) s.links }
    | _ => s) s

/-! ## Completion (R99, R100) -/

/-- The launch is over (R99 step 3): its packet completes. -/
def endLaunch (l : Launch) (s : State) : State :=
  let s := { s with launches := s.launches.filter fun x => x.id != l.id }
  match l.origin with
  | .qif i seq => completePacket i seq s
  | _ => s
/-- Write the signal word, eager at system scope (R99 step 2); a refusal raises event 0 once and is retried every 2 µs. -/
def signalWord (again : Instr) (l : Launch) (s : State) : State :=
  let v := l.seqno % 2 ^ 48 + l.errors * 2 ^ 48
  match lfeAccess (lfeReq l.id l.part .write .rel l.sigptr [{ lane := 0, off := vaOf l.sigptr % 64, size := 8, data := v }]) s with
  | (.later, s) => cause again s
  | (.nack _, s) =>
    let s := if l.event0 then s else raiseEvent l.part 0 s
    modLaunch l.id (fun x => { x with event0 := true, wdog := s.ck + 2 * usCk }) s
  | (_, s) => cause again (modLaunch l.id (fun x => { x with phase := .signalled }) s)
/-- The dirty lines of the launch's cores are written back (R99 step 1): whether everything has reached its point of coherence. -/
def drainLaunch (l : Launch) (s : State) : Bool × State :=
  let s := forEach l.cores (fun n s => flushNow n ((coreOf n s).dirtyOf l.part) (drainWrites n l.part s)) s
  let (far, s) := drainRemote l.part s
  (far && l.cores.all (fun n => (unacked n l.part s).isEmpty), s)
/-- LAUNCH_COMPLETE. -/
def execLaunchComplete (id : Nat) (s : State) :=
  event (fun s =>
    match launchOf id s with
    | none => s
    | some l =>
      match l.phase with
      | .signalling =>
        if l.event0 then s
        else (match drainLaunch l s with
          | (true, s) => signalWord (.launchComplete id) l s
          | (false, s) => cause (.launchComplete id) s)
      | .signalled => (match drainRemote l.part s with
          | (true, s) => endLaunch l s
          | (false, s) => cause (.launchComplete id) s)
      | _ => s) s
/-- SIGNAL_RETRY. -/
def execSignalRetry (id : Nat) (s : State) :=
  event (fun s =>
    match launchOf id s with
    | some l => if l.phase == .signalling && l.event0 then signalWord (.launchComplete id) { l with event0 := true } s
                else s
    | none => s) s

end Sys2Proof.Machine
end

