-- ==== Sys2Proof/Machine/Deal.lean ====
section
/-! DEFINITION. Stride scheduling, holder switches and reloads (R61 to R65), and the dispatcher's passes: what is offered, where it fits, what it
claims, how a workgroup starts or is restored (R77, R83 to R87, R101, R105, R135). -/

namespace Sys2Proof.Machine

/-! ## What is on offer (R86, R87) -/

/-- A workgroup on offer: a saved one, or the next of a launch's stage. -/
inductive Offer
  | saved (wg : Nat) | next (launch stage : Nat)
deriving DecidableEq, Repr

/-- A stage of a launch. -/
def Launch.stageOf (l : Launch) (i : Nat) : Stage := l.stages.getD i {}
/-- The next workgroup of a stage is dealable: a later stage waits for its input queue's total (R87). -/
def dealable (l : Launch) (st : Nat) (s : State) : Bool :=
  decide (l.dealt.getD st 0 < (l.stageOf st).size)
    && (st == 0 || decide (l.dealt.getD st 0 < lineField (ptrAdd (l.queue (st - 1)) 0x18) 8 s))
/-- Launches of a partition that are being dealt, oldest first. -/
def dealing (q : Nat) (s : State) : List Launch :=
  (s.launches.filter fun l => l.part == q && l.phase == .running && !l.wdogHalt).mergeSort fun a b => a.age ≤ b.age
/-- The offers of a partition with their shapes, in the order of R86; a discarded run's teams have gone before its workgroup starts again
(R101). -/
def offers (q : Nat) (s : State) : List (Offer × Stage) :=
  let saved := (partOf q s).savedWgs.filterMap fun id =>
    (wgOf id s).bind fun w => (launchOf w.launch s).bind fun l =>
      if w.saved && !l.wdogHalt && !(w.teams.isEmpty && (allTeams s).any fun t => t.wg == w.id && t.status != .gone) then some (l, w) else none
  ((saved.mergeSort fun a b => a.1.age ≤ b.1.age).map fun x => (.saved x.2.id, x.1.stageOf x.2.stage))
    ++ (dealing q s).flatMap fun l => ((List.range l.nstage).filter fun st => dealable l st s).map fun st => (.next l.id st, l.stageOf st)

/-! ## What a core has for a partition (R62, R63, R83) -/

/-- The workgroup has a place in its cores' stores for barrier state: not one that is failed, whose place was freed with its units (R135). -/
def Workgroup.seated (w : Workgroup) : Bool := !w.gran.isEmpty
/-- Workgroups of a core whose units are not to be claimed: the partition's own, and those being saved (R62). -/
def keepers (q n : Nat) (s : State) : List Workgroup := (wgsOn n s).filter fun w => w.part == q || beingSaved w.id s
/-- What keepers hold is taken; what others have standing in the core may be claimed, and the rest is free: also what they have spilled (R62,
R63). -/
def granPool (q n : Nat) (s : State) : List Nat × List (Nat × List Nat) :=
  let kept := (keepers q n s).flatMap fun w => w.granOn n
  let theirs := (claimable q n s).flatMap fun w => (w.granOn n).filter fun g => w.placed n 0 (g / 8)
  ((granAll n s).filter fun g => !kept.contains g && !theirs.contains g,
    ((List.range 64).filter fun b => bankThere 0 b n s && !evacuating 0 b n s).filterMap fun b =>
      match (theirs.filter fun g => g / 8 == b && !kept.contains g).eraseDups with | [] => none | gs => some (b, gs))
/-- Units free for scratchpad, the partition's own data cache among them, and those that a claim would add. -/
def unitPool (q n : Nat) (s : State) : List Nat × List (Nat × List Nat) :=
  let kept := (keepers q n s).flatMap fun w => alGet [] n w.units
  let lines := lineUnits n s
  let theirs := (claimableUnits q n s).map (·.1)
  let busy (u : Nat) : Bool := kept.contains u || (scratchUnits n s).contains u || lines.any fun x => x.1 == u && (x.2.1 || x.2.2 != q)
  (((List.range 64).filter fun u => bankThere 1 u n s && !busy u), theirs.map fun u => (u, [u]))
/-- Free tiles, and those that a claim would add. -/
def tilePool (q n : Nat) (s : State) : List Nat × List (Nat × List Nat) :=
  let kept := (keepers q n s).flatMap fun w => alGet [] n w.tiles
  let theirs := (claimable q n s).flatMap fun w => (alGet [] n w.tiles).filter (w.placed n 2)
  ((tilesAll n s).filter fun t => !kept.contains t && !theirs.contains t,
    ((tilesAll n s).filter fun t => theirs.contains t && !kept.contains t && !((List.range 16).any fun i => evacuating 2 (16 * t + i) n s)).map fun t => (t, [t]))
/-- Everything a pool can give. -/
def poolSize (p : List Nat × List (Nat × List Nat)) : Nat := p.1.length + (p.2.map fun x => x.2.length).sum
/-- Take `need` from a pool: the units claimed, lowest first, and what is then free. -/
def claimFrom (need : Nat) (free : List Nat) : List (Nat × List Nat) → List Nat × List Nat
  | [] => ([], free)
  | (b, gs) :: l =>
    if need ≤ free.length then ([], free)
    else
      let r := claimFrom need (free ++ gs) l
      (b :: r.1, r.2)
/-- What is taken is the lowest-numbered of what is free (R105). -/
def takeFrom (need : Nat) (p : List Nat × List (Nat × List Nat)) : List Nat × List Nat :=
  let r := claimFrom need p.1 p.2
  (r.1, (r.2.mergeSort fun a b => a ≤ b).take need)
/-- A workgroup's share fits on a core, other partitions' units apart (R62, R83). -/
def fitsCore (q n : Nat) (g : Stage) (s : State) : Bool :=
  decide (((teamsOn n s).filter fun t => t.part == q || beingSaved t.wg s).length + g.perCore ≤ 64)
    && decide (((keepers q n s).filter Workgroup.seated).length < 16)
    && decide (g.scratch ≤ unitsFree q n s) && decide (g.scratch ≤ poolSize (unitPool q n s))
    && decide (g.perCore * g.granules ≤ poolSize (granPool q n s)) && decide (g.atiles ≤ poolSize (tilePool q n s))
/-- It would fit there counting the partition's own state alone (R61). -/
def fitsOwn (q n : Nat) (g : Stage) (s : State) : Bool :=
  let own := (wgsOn n s).filter fun w => w.part == q
  decide (((teamsOn n s).filter fun t => t.part == q).length + g.perCore ≤ 64) && decide ((own.filter Workgroup.seated).length < 16)
    && decide (g.scratch ≤ unitsFree q n s)
    && decide (g.perCore * g.granules + (own.flatMap fun w => w.granOn n).length ≤ 8 * (coreOf n s).usable 0)
    && decide (g.atiles + (own.flatMap fun w => alGet [] n w.tiles).length ≤ (coreOf n s).usable 2 / 16)

/-! ## Claims and reloads (R62 to R64) -/

/-- A place in the core's store for barrier state: with sixteen workgroups there, another partition's is spilled (R63). -/
def barrierPlace (q n : Nat) (s : State) : State :=
  if ((wgsOn n s).filter fun w => w.seated && w.placed n 4 0).length < 16 then s
  else
    match (claimable q n s).find? fun w => w.seated && w.placed n 4 0 with
    | some w => modTeams (fun t => t.wg == w.id && t.status == .halted) (fun t => { t with spilled := true })
        (modWg w.id (fun w => { w with out := w.out ++ [(n, 4, 0)] }) s)
    | none => s
/-- A slot for a team: the lowest free, else the lowest of another partition's team that is not being saved (R62). -/
def slotFor (q n : Nat) (s : State) : Nat :=
  let own := ((teamsOn n s).filter fun t => t.part == q || beingSaved t.wg s).map (·.slot)
  let used := own ++ ((teamsOn n s).filter fun t => (wgOf t.wg s).any fun w => w.placed n 3 t.slot).map (·.slot)
  let f := firstFree used 0 64
  if f < 64 then f else firstFree own 0 64
/-- A resident or restored team goes on where it stopped; one that has exited drains, once its handler has seen its records (R64, R118, R135). -/
def Team.goOn (ck : Nat) (t : Team) : Team :=
  if t.dead then { t with status := .killed }
  else if t.exited && !t.handler then { t with haltWait := none }.drain ck
  else { t with status := (match t.haltWait with | some w => .shelfWait w | none => .shelfReady), haltWait := none
                readySince := ck, passed := 0, urgent := none, yielded := false }
/-- The info of PREEMPT_SAVE (R62, R399): µs halted, and whether a unit was claimed meanwhile. -/
def preemptInfo (ck : Nat) (t : Team) : W64 := w64 (min (2 ^ 32 - 1) ((ck - t.haltedAt) / usCk) + nb (t.spilled || t.claimed) * 2 ^ 32)
/-- A halted team resumes; one whose partition had lost the cluster meanwhile takes PREEMPT_SAVE where its partition asks for it (R64). -/
def resumeTeam (id : Nat) (s : State) : State :=
  match teamOf id s with
  | none => s
  | some t =>
    if t.status != .halted then s
    else
      let note := ctlFld (.partCfg t.part) 1 1 s == 1 && t.pre
      modTeam id (fun t => { (t.goOn s.ck) with spilled := false, claimed := false, pre := false, preempt := if note then some (preemptInfo s.ck t) else t.preempt }) s
/-- Units that a reload needs and that may not be claimed yet: in a bank that the Rake is evacuating, or of another partition's workgroup that is
being saved (R62). -/
def unclaimable (q n : Nat) (banks units tiles : List Nat) (s : State) : Bool :=
  banks.any (fun b => evacuating 0 b n s) || units.any (fun u => evacuating 1 u n s) || tiles.any (fun t => (List.range 16).any fun i => evacuating 2 (16 * t + i) n s)
    || ((wgsOn n s).filter fun w => w.part != q && beingSaved w.id s).any fun w =>
      !((w.unitsIn n banks units tiles [] false s).filter fun x => !w.out.contains x).isEmpty
/-- UNIT_RELOAD: the units are claimed back, the scratchpad of the workgroup on all of its cores, and the team resumes if its partition holds the
cluster and its launch is not halted by the watchdog (R64, R72). It waits for units that may not be claimed yet (R62). -/
def execUnitReload (team : Nat) (s : State) :=
  event (fun s =>
    match teamOf team s with
    | none => s
    | some t =>
      if !t.spilled || t.status != .halted || (clusterOf (clusterIx t.core s) s).holder != some t.part
          || ((launchOfTeam t s).bind fun l => launchOf l s).any (·.wdogHalt) then s
      else
        let w := (wgOf t.wg s).getD {}
        let banks := ((w.gran.filter fun g => g.1 == t.num).map fun g => g.2 / 8).eraseDups
        let units (n : Nat) : List Nat := alGet [] n w.units
        if unclaimable t.part t.core banks (units t.core) (alGet [] t.core w.tiles) s || w.cores.any (fun n => unclaimable t.part n [] (units n) [] s) then
          causeOnce (.unitReload team) s
        else
          let s := spill t.part t.core banks (units t.core) (alGet [] t.core w.tiles) [t.slot] (if w.placed t.core 4 0 then s else barrierPlace t.part t.core s)
          let s := forEach w.cores (fun n s => spill t.part n [] (units n) [] [] s) s
          let s := forEach w.cores (fun n s => regain w.id n [] (units n) [] [] s) (regain w.id t.core banks [] (alGet [] t.core w.tiles) [t.slot] s)
          forEach w.cores (fun n s => claimCache n t.part 64 s) (resumeTeam team s)) s

/-! ## Placing a workgroup (R77, R105, R135) -/

/-- Units and tiles of a workgroup on one of its cores. Data-cache units among them are given up (R62, R203). -/
def seatCore (wg q : Nat) (g : Stage) (n : Nat) (s : State) : State :=
  let s := barrierPlace q n s
  let (cu, us) := takeFrom g.scratch (unitPool q n s)
  let (ct, ts) := takeFrom g.atiles (tilePool q n s)
  let own := (lineUnits n s).filter fun x => us.contains x.1 && !x.2.1 && x.2.2 == q
  let s := forEach ((claimableUnits q n s).filter fun u => cu.contains u.1) (claimUnit q n) s
  let s := forEach own (fun _ s => giveUnit n q s) s
  trimPart n q (modWg wg (fun w => { w with units := alSet n us w.units, tiles := alSet n ts w.tiles }) (spill q n [] [] ct [] s))
/-- Granules and a slot for a team. -/
def seatTeam (wg q num n : Nat) (g : Stage) (s : State) : Nat × State :=
  let (cb, gs) := takeFrom g.granules (granPool q n s)
  let slot := slotFor q n s
  (slot, modWg wg (fun w => { w with gran := w.gran ++ gs.map fun x => (num, x) }) (spill q n cb [] [] [slot] s))
/-- The scalar registers a team starts with (R77). -/
def startScalars (l : Launch) (st : Nat) : Vector SReg 64 :=
  Vector.ofFn fun i =>
    if i.val = 1 then { val := l.args }
    else if i.val = 2 then { val := if 1 ≤ st then l.queue (st - 1) else 0 }
    else if i.val = 3 then { val := if st + 1 < l.nstage then l.queue st else 0 }
    else {}
/-- A team at the start of its workgroup (R77). -/
def startTeam (l : Launch) (w : Workgroup) (g : Stage) (id num slot ck : Nat) : Team :=
  { id := id, core := w.coreOfNum num, slot := slot, part := w.part, wg := w.id, num := num, width := g.width, pc := g.entry
    s := startScalars l w.stage, v := List.replicate g.vregs { lanes := List.replicate g.width 0 }
    k := (Vector.replicate 16 (0 : Mask)).set 0 (fullMask g.width), sigOn := g.flags.testBit 3, status := .shelfReady, readySince := ck }
/-- Start the teams of a workgroup that has its cores: each start acquires on its core (R77, R97, R191). -/
def startTeams (l : Launch) (g : Stage) (wg : Nat) (s : State) : State :=
  match wgOf wg s with
  | none => s
  | some w =>
    let s := forEach w.cores (fun n s => bumpVersion false n (seatCore wg w.part g n s)) s
    forEach (List.range w.T) (fun num s =>
      let (id, s) := fresh s
      let (slot, s) := seatTeam wg w.part num (w.coreOfNum num) g s
      modWg wg (fun w => { w with teams := w.teams ++ [id] }) { s with teams := s.teams ++ [startTeam l w g id num slot s.ck] }) s
/-- A workgroup ran on these cores (R99). -/
def ranOn (l : Nat) (cores : List Nat) (s : State) : State := modLaunch l (fun l => { l with cores := (l.cores ++ cores).eraseDups }) s
/-- Deal the next workgroup of a stage. -/
def placeNext (l : Launch) (st : Nat) (cores : List Nat) (s : State) : State :=
  let g := l.stageOf st
  let lin := l.dealt.getD st 0
  let (id, s) := fresh s
  let w : Workgroup :=
    { id := id, launch := l.id, part := l.part, stage := st, x := lin % g.gx, y := lin / g.gx % g.gy, z := lin / g.gx / g.gy, wide := g.wide
      T := g.teams, vregs := g.vregs, width := g.width, cores := cores, tag := firstFree (s.wgs.map (·.tag)) 0 4096, age := id
      share := (if g.wide then 4 else 1) * g.scratch * 32768, atiles := g.atiles }
  let s := modLaunch l.id (fun l => { l with dealt := (List.range l.nstage).map fun i => l.dealt.getD i 0 + if i = st then 1 else 0 }) s
  startTeams l g id (ranOn l.id cores { s with wgs := s.wgs ++ [w] })
/-- Requests, wherever they stand. -/
def mapReqs (f : Req → Req) (s : State) : State :=
  let ins (i : Instr) : Instr := match i with
    | .rd r => .rd (f r) | .wr r => .wr (f r) | .atom r => .atom (f r) | .ember r => .ember (f r)
    | .rdrsp r => .rdrsp { r with req := f r.req } | .ack a => .ack { a with req := f a.req } | .nack n => .nack { n with req := f n.req }
    | i => i
  { s with
    agenda := s.agenda.map ins
    lsu := s.lsu.map fun e => { e with req := f e.req }
    lines := s.lines.map fun l => { l with waiting := l.waiting.map f }
    homes := s.homes.map fun h => (h.1, { h.2 with held := h.2.held.map f, faults := h.2.faults.map fun x => { x with req := f x.req } })
    links := s.links.map fun l => { l with req := f l.req } }
/-- What a restored team has on its way goes to its new core, which takes over what homes have noted of its old one (R135, R158). -/
def moveRequests (id old core part : Nat) (s : State) : State :=
  let op (o : QOp) : QOp := if o.team = id then { o with core := core } else o
  let s := mapReqs (fun r => if r.team = id ∧ r.agent ≠ .ctrl then { r with core := core } else r) s
  let noted (l : List (Nat × Nat × Bool)) : List (Nat × Nat × Bool) :=
    l ++ ((l.filter fun x => x.1 == old && x.2.1 == part).map fun x => (core, x.2)).filter fun x => !l.contains x
  { s with monitors := updWhere (fun m => m.team == id) (fun m => { m with core := core }) s.monitors
           homes := s.homes.map fun h => (h.1, { h.2 with noted := noted h.2.noted })
           qwait := s.qwait.map fun q => { q with op := op q.op, cluster := if q.op.team = id then clusterIx core s else q.cluster }
           agenda := s.agenda.map fun i => match i with | .queueOperation o => .queueOperation (op o) | i => i }
/-- A workgroup leaves the saved ones. -/
def unsave (q wg : Nat) (s : State) : State := modPart q (fun p => { p with savedWgs := p.savedWgs.filter (· != wg) }) s
/-- Restore a saved workgroup (R101, R135): the writes of before have reached memory (`writesOut`), and its new cores' copies are made stale
(R216). -/
def restore (w : Workgroup) (g : Stage) (cores : List Nat) (s : State) : State :=
  let (age, s) := fresh s
  let old := w.oldCore
  let s := forEach cores (fun n s => bumpVersion true n (bumpVersion false n (forEach old (fun o s => let v := (coreOf o s).pts.toList; modCore n (·.mergeVec v) s) s))) s
  let s := modWg w.id (fun w => { w with saved := false, cores := cores, age := age, slots := [], gran := [], units := [], tiles := [], out := [] }) (unsave w.part w.id s)
  let s := ranOn w.launch cores (forEach cores (seatCore w.id w.part g) s)
  forEach w.teams (fun id s =>
    match teamOf id s with
    | none => s
    | some t =>
      if t.status == .gone then s
      else
        let n := { w with cores := cores }.coreOfNum t.num
        let (slot, s) := seatTeam w.id w.part t.num n g s
        let s := modTeam id (fun t => { (t.goOn s.ck) with core := n, slot := slot, spilled := false, claimed := false, pre := false }) (moveRequests id t.core n t.part s)
        tryRetire id s) s
/-- Start a workgroup again whose saved state was discarded (R101, restart). -/
def restart (l : Launch) (w : Workgroup) (g : Stage) (cores : List Nat) (s : State) : State :=
  let (age, s) := fresh s
  let s := modWg w.id (fun w => { w with saved := false, cores := cores, age := age, bars := [], sp := [], spoison := [], acc := [], apoison := [], out := []
                                         teams := [], gran := [], units := [], tiles := [], slots := [] }) (unsave w.part w.id s)
  startTeams l g w.id (ranOn l.id cores s)
/-- Place an offer. -/
def place (o : Offer) (cores : List Nat) (s : State) : State :=
  match o with
  | .next l st => (match launchOf l s with | some l => placeNext l st cores s | none => s)
  | .saved id =>
    match wgOf id s with
    | none => s
    | some w =>
      match launchOf w.launch s with
      | none => s
      | some l => if (l.stageOf w.stage).policy = 1 then restart l w (l.stageOf w.stage) cores s else restore w (l.stageOf w.stage) cores s

/-! ## A pass (R85, R87) -/

/-- The first offer that fits at a set of cores. -/
def firstFit (q : Nat) (wide : Bool) (cores : List Nat) (s : State) : Option Offer :=
  ((offers q s).find? fun o => o.2.wide == wide && cores.all fun n => fitsCore q n o.2 s).map (·.1)
/-- Offer at a core; `used` are the cores used in this pass. -/
def offerAt (q n : Nat) (used : List Nat) (s : State) : List Nat × State :=
  let c := clusterIx n s
  let cs := clusterCores c s
  let done (cores : List Nat) (o : Offer) : List Nat × State :=
    (used ++ cores, modPart q (fun p => { p with pointer := (maxOf cores + 1) % max 1 (ncores s) }) (place o cores s))
  if used.contains n || (clusterOf c s).holder != some q then (used, s)
  else
    match (if cs.length = 4 ∧ cs.head? = some n ∧ !cs.any used.contains then firstFit q true cs s else none) with
    | some o => done cs o
    | none =>
      match firstFit q false [n] s with
      | some o => done [n] o
      | none => (used, s)
/-- When its input queue closes, what is left of a stage retires without running (R87). -/
def vacate (q : Nat) (s : State) : State :=
  forEach (s.launches.filter fun l => l.part == q && l.phase == .running) (fun l s =>
    forEach ((List.range l.nstage).drop 1) (fun st s =>
      let left := (l.stageOf st).size - l.dealt.getD st 0
      if left = 0 ∨ !qClosed (l.queue (st - 1)) s then s
      else countRetired l.id st left
        (modLaunch l.id (fun l => { l with dealt := (List.range l.nstage).map fun i => l.dealt.getD i 0 + if i = st then left else 0 }) s)) s) s
/-- One pass over the cores from the pointer. -/
def runPass (q : Nat) (s : State) : State :=
  let n := ncores s
  let p := (partOf q s).pointer
  ((List.range n).foldl (fun (x : List Nat × State) i => offerAt q ((p + i) % n) x.1 x.2) ([], s)).2

/-! ## Stride scheduling (R61, R62) -/

/-- A partition's stride. -/
def strideOf (q : Nat) (s : State) : Nat := 2 ^ 20 / ctlFld (.partCfg q) 16 16 s
/-- The partition has work for a cluster: a workgroup resident there, or one that would be dealt to it. While the partition's reset is under way
it has none: the model's choice (log 77). -/
def workFor (c q : Nat) (s : State) : Bool :=
  let cs := clusterCores c s
  !(partOf q s).resetting &&
  (cs.any (fun n => (wgsOn n s).any fun w => w.part == q) ||
    (offers q s).any fun o => if o.2.wide then cs.length == 4 && cs.all fun n => fitsOwn q n o.2 s else cs.any fun n => fitsOwn q n o.2 s)
/-- Runnable on a cluster. -/
def runnableOn (c q : Nat) (s : State) : Bool := ctlFld (.partCfg q) 0 1 s == 1 && ctlFld (.partCfg q) 16 16 s != 0 && workFor c q s
/-- Partitions runnable on a cluster. -/
def runnables (c : Nat) (s : State) : List Nat := (List.range 64).filter fun q => runnableOn c q s
/-- Halt a team at its boundary (R62 step 1, R72): its wait goes on. -/
def Team.halt (ck : Nat) (t : Team) : Team :=
  match t.status with
  | .hob | .shelfReady => { t with status := .halted, haltWait := none, haltedAt := ck, urgent := none, passed := 0 }
  | .shelfWait w => { t with status := .halted, haltWait := some w, haltedAt := ck, urgent := none, passed := 0 }
  | _ => t
/-- The partition's teams on a cluster halt. -/
def haltPart (c q : Nat) (s : State) : State :=
  let cs := clusterCores c s
  modTeams (fun t => t.part == q && cs.contains t.core) (fun t => let t := t.halt s.ck; { t with pre := t.pre || t.status == .halted }) s
/-- The partition's halted teams on a cluster resume, those with spilled units after their reload; a launch that its watchdog halted
stays halted (R64, R72), and so does a victim that is being saved (R135). -/
def resumePart (c q : Nat) (s : State) : State :=
  let cs := clusterCores c s
  let ts := (allTeams s).filter fun t => t.part == q && cs.contains t.core && t.status == .halted &&
    !beingSaved t.wg s && !(match (launchOfTeam t s).bind fun l => launchOf l s with | some l => l.wdogHalt | none => false)
  forEach ts (fun t s => if t.spilled then causeOnce (.unitReload t.id) s else resumeTeam t.id s) s
/-- Give a cluster to a partition or to none. -/
def setHolder (c : Nat) (h : Option Nat) (s : State) : State :=
  let old := (clusterOf c s).holder
  if old = h then s
  else
    let s := match old with | some a => haltPart c a s | none => s
    let s := modCluster c (fun x => { x with holder := h }) s
    match h with | some b => causeOnce (.dealPass b) (resumePart c b s) | none => s
/-- The decision of R61. -/
def decideHolder (c : Nat) (s : State) : State :=
  let x := clusterOf c s
  match minBy? (fun q => alGet 0 q x.pass * 64 + q) x.ready with
  | none => setHolder c none s
  | some w =>
    let p := alGet 0 w x.pass
    setHolder c (some w) (modCluster c (fun x => { x with gpass := p, pass := alSet w (p + strideOf w s) x.pass, last := s.ck }) s)
/-- Take note of the partitions that have become runnable (R61). -/
def noteReady (c : Nat) (s : State) : State :=
  let now := runnables c s
  let x := clusterOf c s
  let pass := (now.filter fun q => !x.ready.contains q).foldl (fun ps q => alSet q (max (alGet 0 q ps) (x.gpass - strideOf q s)) ps) x.pass
  modCluster c (fun x => { x with ready := now, pass := pass }) s
/-- Between boundaries a cluster decides only when it has no holder, or its holder has stopped being runnable. -/
def lookCluster (c : Nat) (s : State) : State :=
  let s := noteReady c s
  let x := clusterOf c s
  match x.holder with
  | none => if x.ready.isEmpty then s else decideHolder c s
  | some h => if ctlFld (.partCfg h) 0 1 s == 1 && workFor c h s then s else decideHolder c s
/-- Every cluster with a core. -/
def lookClusters (s : State) : State := forEach ((List.range 36).filter fun c => !(clusterCores c s).isEmpty) lookCluster s
/-- Core cycles of a quantum (R61). -/
def quantumCk (s : State) : Nat := min 1000 (max 5 (ctlFld .schedQuantum 0 10 s)) * usCk
/-- QUANTUM_BOUNDARY. -/
def execQuantumBoundary (c : Nat) (s : State) :=
  event (fun s =>
    let x := clusterOf c s
    if x.holder.isNone || decide (s.ck < x.last + quantumCk s) then s
    else decideHolder c (noteReady c s)) s
/-- What the old cores of a partition's saved workgroups hold dirty of it is written back before any of them is restored (R216): whether all of it
is applied. -/
def writesOut (q : Nat) (s : State) : Bool × State :=
  let old := ((s.wgs.filter fun w => w.saved && w.part == q).flatMap (·.oldCore)).eraseDups
  let s := forEach old (fun n s => flushNow n ((coreOf n s).dirtyOf q) (drainWrites n q s)) s
  (old.all fun n => !unwritten n q s, s)
/-- DEAL_PASS: events that come while one waits or runs make one further pass (R85). A cluster that has no holder decides as soon as a partition is
runnable there, so before the pass; one whose holder has no more work, after it (R61). -/
def execDealPass (q : Nat) (s : State) :=
  event (fun s =>
    let s := lookClusters (restPointer q (vacate q s))
    if (partOf q s).resetting then s
    else match writesOut q s with
      | (false, s) => causeOnce (.dealPass q) s
      | (true, s) => lookClusters (restPointer q (runPass q s))) s

end Sys2Proof.Machine
end

