-- ==== Sys2Proof/Machine/Sync.lean ====
section
/-! DEFINITION. Major 0x37: fences and named barriers (R349 to R354). -/

namespace Sys2Proof.Machine

/-- A pseudo-entry in the team's order for a fence or an arrival; it is carried out as soon as its turn comes. -/
def issueEntry (k : EntKind) (o : Ord) (sc : Scope) (s : State) : Nat × State :=
  let t := s.cur
  let base := baseReq s .query o sc
  let (id, s) := fresh s
  let s := { s with lsu := s.lsu ++ [{ id := id, kind := k, req := { base with id := id }, group := id, pc := t.pc, inh := t.handler }] }
  (id, pumpTeam t.id s)
/-- An entry is still there. -/
def entLives (id : Nat) (s : State) : Bool := s.lsu.any fun e => e.id == id
/-- A fence: the team waits on the shelf until it completes (R349). -/
def fenceBody (seqc : Bool) (o : Ord) (sc : Scope) (s : State) : Eff :=
  let (id, s) := issueEntry (.fence seqc) o sc s
  .done (if entLives id s then modCur (fun t => { t.toShelf (.fence id) with owed := if t.handler then t.owed else some (.fence id) }) s else s)
def execFence (o : Ord) (sc : Scope) (s : State) := word (.fence o sc) (fenceBody false o sc) s
def execFenceSc (sc : Scope) (s : State) := word (.fenceSc sc) (fenceBody true .rlx sc) s

/-- The barrier `b` of the team's workgroup. -/
def teamBar (b : Nat) (s : State) : Barrier := ((wgOf s.cur.wg s).map fun w => w.bar b).getD {}
/-- An arrival of the team at `b` that is still on its way (R354). -/
def pendingArrival (b : Nat) (s : State) : Option Nat :=
  (s.lsu.find? fun e => e.req.team == s.cur.id && (match e.kind with | .barArr b' .. => b' == b | _ => false)).map (·.id)
/-- The phase of the team's latest arrival at `b`. -/
def latestArrival (b : Nat) (s : State) : Option Nat := (s.cur.arrived.find? fun a => a.1 == b).map (·.2)
/-- An arrival (R352): a team whose earlier phase is incomplete waits first. One that has exited, which its handler's word finds, arrives at none
(R295). -/
def arriveBody (n : W64) (b : Nat) (s : State) (k : State → Eff) : Eff :=
  if s.cur.exited then k s else
  match pendingArrival b s with
  | some id => .stay (modCur (·.toShelf (.barEnt id)) s)
  | none =>
    if latestArrival b s = some (teamBar b s).phase then .stay (modCur (·.toShelf (.barArr b)) s)
    else
      let T := ((wgOf s.cur.wg s).map (·.T)).getD 1
      k (issueEntry (.barArr b (barCountArg n T)) .rel .wg s).2
/-- A wait (R352): until the phase of the latest arrival completes; without one, the last completed phase. -/
def waitBody (b : Nat) (d : Reg) (s : State) : Eff :=
  match pendingArrival b s with
  | some id => .stay (modCur (·.toShelf (.barEnt id)) s)
  | none =>
    let bar := teamBar b s
    let wide := ((wgOf s.cur.wg s).map (·.wide)).getD false
    let last := bar.hist.headD (0xFFFF, 0)
    match latestArrival b s with
    | some ph =>
      if ph = bar.phase then .stay (modCur (·.toShelf (.barrier b ph)) s)
      else .done (finishBarWait s.cur.id b wide d ph (alGet 0 ph bar.hist) s)
    | none => .done (finishBarWait s.cur.id b wide d last.1 last.2 s)
/-- The named barrier at which an instruction has to wait before it does anything (R111, R352). -/
def barrierWait (i : Instr) (s : State) : Option Wait :=
  let arrive (b : Nat) : Option Wait :=
    if s.cur.exited then none else
    match pendingArrival b s with
    | some id => some (.barEnt id)
    | none => if latestArrival b s = some (teamBar b s).phase then some (.barArr b) else none
  let await (b : Nat) : Option Wait :=
    match pendingArrival b s, latestArrival b s with
    | some id, _ => some (.barEnt id)
    | none, some ph => if ph = (teamBar b s).phase then some (.barrier b ph) else none
    | none, none => none
  match i with
  | .barArr _ b => arrive b.val
  | .barWait _ b => await b.val
  | .barSync _ _ b => if s.cur.syncAt = some (s.cur.pc, b.val) then await b.val else arrive b.val
  | _ => none
def execBarArr (a : Reg) (b : Fin 64) (s : State) := word (.barArr a b) (fun s => arriveBody (s.cur.gs a) b.val s fun s => .done s) s
def execBarWait (d : Reg) (b : Fin 64) (s : State) := word (.barWait d b) (waitBody b.val d) s
/-- `bar.sync`: its arrival is made once, also when a trap takes the team out of its wait. -/
def execBarSync (d a : Reg) (b : Fin 64) (s : State) :=
  word (.barSync d a b) (fun s =>
    if s.cur.syncAt = some (s.cur.pc, b.val) then waitBody b.val d s
    else arriveBody (s.cur.gs a) b.val s fun s => waitBody b.val d (modCur (fun t => { t with syncAt := some (t.pc, b.val) }) s)) s

end Sys2Proof.Machine
end

