-- ==== Sys2Proof/Machine/Sched.lean ====
section
/-! DEFINITION. What a core does in each ck (R109 to R113), the hang watchdog (R71, R72), and what passes with time: the tick. -/

namespace Sys2Proof.Machine

/-! ## One ck of a core (R109 to R112) -/

/-- Teams of a core whose partition holds the cluster. -/
def cycleTeams (n : Nat) (s : State) : List Team :=
  let h := (clusterOf (clusterIx n s) s).holder
  (allTeams s).filter fun t => t.core == n && h == some t.part
/-- Teams whose wait has cleared become ready (R112). -/
def clearWaits (n : Nat) (s : State) : State :=
  forEach (cycleTeams n s) (fun t s =>
    match t.status with
    | .shelfWait w => if waitOver w t s then modTeam t.id (fun t => { (t.wake s.ck) with owed := if t.owed = some w then none else t.owed }) s else s
    | _ => s) s
/-- Hob teams whose next instruction has to wait leave (R110 step 1, R111). -/
def leaveHob (n : Nat) (s : State) : State :=
  forEach ((cycleTeams n s).filter fun t => t.onHob && decide (t.busy ≤ s.ck)) (fun t s =>
    let s := focus t.id s
    match slotOf s with
    | .fetch => demandFetch s
    | .ins i => (match gate s s.cur i with
      | .wait ss vs => modCur (fun t => t.toShelf (.regs ss vs)) s
      | .go => (match barrierWait i s with | some w => modCur (fun t => t.toShelf w) s | none => s)
      | _ => s)
    | _ => s) s
/-- The order in which ready shelf teams are chosen (R112): urgent ones first, then the older; last the team whose own yield left the vacancy
(R393). -/
def swapBefore (s : State) (left : Option Nat) (a b : Team) : Bool :=
  if (some a.id == left) != (some b.id == left) then some b.id == left
  else match a.urgent, b.urgent with
    | some x, some y => if x = y then decide (teamAge a s ≤ teamAge b s) else decide (x ≤ y)
    | some _, none => true
    | none, some _ => false
    | none, none => decide (teamAge a s ≤ teamAge b s)
/-- A ready shelf team is passed over; the seventh time makes it urgent (R112). -/
def Team.passOver (ck : Nat) (t : Team) : Team :=
  { t with passed := t.passed + 1, urgent := if t.passed + 1 = 7 then some ck else t.urgent }
/-- One swap event, of a vacancy that a team's yield left or not: the first ready team enters, the others are passed over. -/
def swapIn (n : Nat) (left : Option Nat) (s : State) : State :=
  match ((cycleTeams n s).filter fun t => t.status == .shelfReady).mergeSort (swapBefore s left) with
  | [] => s
  | t :: rest =>
    let seq := (coreOf n s).hobSeq + 1
    let s := modTeam t.id (fun t => { t with status := .hob, hobSince := seq, urgent := none, passed := 0, yielded := false, busy := max t.busy (s.ck + 1) }) s
    let s := forEach rest (fun u s => modTeam u.id (Team.passOver s.ck) s) s
    modCore n (fun c => { c with hobSeq := seq, lastSwap := s.ck }) s
/-- Fill the vacant of the eight Hob places (R110 step 2): those that yields left come last, the model's choice (log 90). Later vacancies are no
yield's own (R393). -/
def fillHob (n : Nat) (s : State) : State :=
  let ts := cycleTeams n s
  let gap := 8 - (ts.filter Team.onHob).length
  let left := (ts.filter fun t => t.status == .shelfReady && t.yielded).map fun t => some t.id
  let s := forEach ((List.replicate (gap - left.length) none ++ left).take gap) (swapIn n) s
  if gap = 0 then s else modTeams (fun t => t.core == n) (fun t => { t with yielded := false }) s
/-- The unit an instruction needs has room (R109): the LSU, or an engine context. -/
def unitRoom (t : Team) (i : Instr) (s : State) : Bool :=
  match i with
  | .cpy .. | .cpy2d .. => decide (t.c.inFlight < 16)
  | .mcfg .. | .midx _ | .mloop .. | .mzero _ | .mmovScratchpad .. => decide (t.m.inFlight < 8)
  | .mmovRegister .. => t.m.inFlight == 0
  | .cred _ | .cbcast _ | .cgath _ => decide (t.l.inFlight < 4)
  | .sld .. | .sst .. | .vld .. | .vst .. | .vldb .. | .vstb .. | .satom .. | .vatom .. | .scas .. | .scas2 .. | .vcas .. | .waitc64 .. | .waitc32 ..
  | .tqenq .. | .tqdeq .. | .tqdec .. | .launch .. | .pmap .. => decide ((s.lsu.filter fun e => e.tracked && e.req.core == t.core).length < 1024)
  | _ => true
/-- What a Hob team would issue now: nothing, or whether it is of the vector class and how long it holds its port (R108, R109). A trap at
a boundary and a word that is no instruction go through the scalar unit. -/
def readyFor (t : Team) (s : State) : Option (Bool × Nat) :=
  if !t.onHob || s.ck < t.busy || s.issue.contains t.id then none
  else match slotOf { s with cur := t } with
    | .idle | .fetch => none
    | .async | .reject .. => some (false, 1)
    | .ins i =>
      match gate s t i with
      | .wait .. | .busy => none
      | _ => if unitRoom t i s then some ((useOf t i).vector, costOf t i) else none
/-- The priority that a `hint.sched` gives the consumer of its group; until that stands next it ranks nothing (R109, R273, R275). -/
def Team.priority (t : Team) (s : State) : Nat :=
  if !t.hint.schedv then 0
  else match slotOf { s with cur := t } with
    | .ins i => if isHintWord i then 0 else t.hint.sched.toNat
    | .reject .. => t.hint.sched.toNat
    | _ => 0
/-- The rank of R109: the hinted priority, higher first, then age. -/
def ranksBefore (s : State) (a b : Team) : Bool :=
  if a.priority s = b.priority s then decide (teamAge a s ≤ teamAge b s) else decide (b.priority s < a.priority s)
/-- A shelf team of a core has been ready for 2,048 ck, and no swap event has come in them (R113). -/
def starved (n : Nat) (s : State) : Bool :=
  decide ((coreOf n s).lastSwap + 2048 ≤ s.ck) && (cycleTeams n s).any fun t => t.status == .shelfReady && decide (t.readySince + 2048 ≤ s.ck)
/-- The Hob team that entered first (R113). -/
def firstOnHob (n : Nat) (s : State) : Option Team := minBy? Team.hobSince ((cycleTeams n s).filter Team.onHob)
/-- The highest-ranked ready team of a class. One that has to leave at its next boundary is not taken again (R113). -/
def bestReady (n : Nat) (vec : Bool) (s : State) : Option (Team × Nat) :=
  let leaves := if starved n s then (firstOnHob n s).map (·.id) else none
  let ts := ((cycleTeams n s).filter fun t => some t.id != leaves).filterMap fun t => match readyFor t s with | some (v, c) => if v == vec then some (t, c) else none | none => none
  (ts.mergeSort fun a b => ranksBefore s a.1 b.1).head?
/-- The scalar unit and the four ports each take a team (R110 steps 3 and 4). -/
def pickTeams (n : Nat) (s : State) : State :=
  let s := match bestReady n false s with | some (t, _) => { s with issue := s.issue ++ [t.id] } | none => s
  forEach (List.range 4) (fun p s =>
    if s.ck < (coreOf n s).portBusy.getD p 0 then s
    else match bestReady n true s with
      | some (t, c) => modCore n (fun k => { k with portBusy := k.portBusy.set p (s.ck + c) }) { s with issue := s.issue ++ [t.id] }
      | none => s) s
/-- Issue is gated in this ck: by the die's throttle level in eighths of cycles, or altogether (R27). -/
def issueGated (n : Nat) (s : State) : Bool :=
  s.power.halted || decide (s.ck % 8 < s.power.level.getD (dieOf n s) 0)
/-- CORE_CYCLE (R110). -/
def execCoreCycle (n : Nat) (s : State) :=
  event (fun s =>
    let s := fillHob n (leaveHob n (clearWaits n s))
    if issueGated n s then s else pickTeams n s) s
/-- FORCED_LEAVE (R113): the Hob team that entered first leaves, at its next boundary; one taken in this ck issues first. -/
def execForcedLeave (n : Nat) (s : State) :=
  event (fun s =>
    if !starved n s then s
    else match firstOnHob n s with
      | some t =>
        if s.ck < t.busy || s.issue.contains t.id then s
        else modTeam t.id (fun t => { t with status := .shelfReady, readySince := s.ck, passed := 0, urgent := none, yielded := false }) s
      | none => s) s

/-! ## The watchdog (R71, R72) -/

/-- Teams of a launch. -/
def launchTeams (l : Nat) (s : State) : List Team := (allTeams s).filter fun t => launchOfTeam t s == some l && t.status != .gone
/-- A workgroup of the launch could be dealt now (R71). -/
def couldDeal (l : Launch) (s : State) : Bool :=
  let mine := (offers l.part s).filter fun o => match o.1 with | .next x _ => x == l.id | .saved w => (wgOf w s).any fun w => w.launch == l.id
  mine.any fun o => (List.range 36).any fun c =>
    let cs := clusterCores c s
    (clusterOf c s).holder == some l.part && (if o.2.wide then cs.length == 4 && cs.all fun n => fitsCore l.part n o.2 s else cs.any fun n => fitsCore l.part n o.2 s)
/-- A request of the launch waits under the limit of outstanding requests (R68): an access, an engine's, or the fetch of a team's next
instruction. -/
def throttled (l : Launch) (s : State) : Bool :=
  let mine (t : Team) : Bool := launchOfTeam t s == some l.id
  s.lsu.any (fun e => e.phase == .held && e.memory && (teamOf e.req.team s).any mine && outFull e.req s)
    || (allTeams s).any fun t => mine t &&
      (((t.onHob || t.waitingFor == some .fetch) && !t.fetching && t.nextWord.isNone && outFull (fetchReq t 0) s)
        || [(t.c, Ctx.c), (t.m, .m), (t.l, .l)].any fun x => x.1.ops.any fun o => !o.done &&
          (match o.outAt with | some p => outFull (engReq t x.2 o .read p [] s) s | none => false))
/-- A ck counts for a launch (R71). -/
def wdogCounts (l : Launch) (s : State) : Bool :=
  let cores := (s.wgs.filter fun w => w.launch == l.id && !w.saved).flatMap (·.cores)
  let eligible := cores.any (fun n => (clusterOf (clusterIx n s) s).holder == some l.part) || couldDeal l s
  l.phase == .running && !l.wdogHalt && eligible && !(cores.any fun n => s.power.level.getD (dieOf n s) 0 != 0) && !s.power.halted
    && !throttled l s
/-- The limit of a partition in ck; none: disabled. -/
def wdogLimit (q : Nat) (s : State) : Option Nat := let n := ctlFld (.partWdog q) 0 32 s; if n = 0 then none else some (n * usCk)
/-- A team is to take WATCHDOG at its current instruction: it leaves its wait (R72); one in its handler takes it after `eret` (R384). -/
def Team.wdogHit (ck : Nat) (t : Team) : Team :=
  if t.dead || t.exited then t else
  let t := { t with wdog := true }
  if t.handler then t else t.wake ck
/-- WATCHDOG_EXPIRY. -/
def execWatchdogExpiry (l : Nat) (s : State) :=
  event (fun s =>
    match launchOf l s with
    | none => s
    | some x =>
      if x.phase != .running || (match wdogLimit x.part s with | some n => decide (x.wdog < n) | none => true) then s
      else
        let s := raiseEvent x.part 3 (ctlSetFld (.partWdog x.part) 32 1 1 s)
        let ts := (launchTeams l s).map (·.id)
        if ctlFld .duty 6 1 s = 0 then modLaunch l (fun x => { x with wdog := 0 }) (modTeams (fun t => ts.contains t.id) (Team.wdogHit s.ck) s)
        else modLaunch l (fun x => { x with wdogHalt := true }) (modTeams (fun t => ts.contains t.id) (Team.halt s.ck) s)) s
/-- Launches of a partition that its watchdog has halted. -/
def haltedLaunches (q : Nat) (s : State) : List Nat := (s.launches.filter fun l => l.part == q && l.wdogHalt).map (·.id)
/-- `ctl.part.wdog` cmd 1 (R72): the launches' teams resume, where their partition holds the cluster; those that had lost it meanwhile as R64 has
it. -/
def wdogResumeAll (q : Nat) (s : State) : State :=
  let ls := haltedLaunches q s
  let s := forEach ls (fun l s => modLaunch l (fun l => { l with wdogHalt := false, wdog := 0 }) s) s
  let ts := (ls.flatMap fun l => launchTeams l s).filter fun t => t.status == .halted && !beingSaved t.wg s && (clusterOf (clusterIx t.core s) s).holder == some q
  forEach ts (fun t s => if t.spilled then causeOnce (.unitReload t.id) s else resumeTeam t.id s) s
def execWdogResume (q : Nat) (s : State) := event (fun s => wdogResumeAll q s) s
/-- `ctl.part.wdog` cmd 2 (R72). -/
def wdogKillAll (q : Nat) (s : State) : State :=
  let ls := haltedLaunches q s
  let s := forEach ls (fun l s => modLaunch l (fun l => { l with wdogHalt := false, wdog := 0 }) s) s
  forEach (ls.flatMap fun l => launchTeams l s) (fun t s => killTeam t.id s) s
def execWdogKill (q : Nat) (s : State) := event (fun s => wdogKillAll q s) s

/-! ## Time (R1, R2) -/

/-- Nanoseconds since the time was set move on with the core clock of 1.9 GHz: 10 ns in 19 ck. -/
def nsOf (ck : Nat) : Nat := ck * 10 / 19
/-- The watchdog counters move on; those that reach their limit expire (R71). With limit 0 a counter stands still: the model's choice (log
77). -/
def wdogTick (s : State) : State :=
  forEach s.launches (fun l s =>
    match wdogLimit l.part s with
    | none => s
    | some n =>
      if !wdogCounts l s then s
      else
        let s := modLaunch l.id (fun l => { l with wdog := l.wdog + 1 }) s
        if n ≤ l.wdog + 1 then causeOnce (.watchdogExpiry l.id) s else s) s
/-- Cores with a team resident. -/
def busyCores (s : State) : List Nat := ((allTeams s).filter fun t => t.status != .saved && t.status != .gone).map (·.core) |>.eraseDups
/-- Events of single cores that fall due (R201, R203, R371, R113). -/
def coreTimers (s : State) : State :=
  let all := List.range (ncores s)
  let every (k : Nat) (f : Nat → Instr) (s : State) : State := if s.ck % k = 0 then forEach all (fun n s => causeOnce (f n) s) s else s
  let s := every 256 .ptsTick s
  let s := every sweepAge .ageSweep s
  let s := forEach (all.filter fun n => mxWork n s || !(coreOf n s).resting) (fun n s => causeOnce (.damperStep n) s) s
  let s := forEach ((busyCores s).filter fun n => starved n s) (fun n s => causeOnce (.forcedLeave n) s) s
  forEach (busyCores s) (fun n s => causeOnce (.coreCycle n) s) s
/-- Quanta that end (R61), monitors that re-check (R348), launches that signal again (R99), packets that are sent again (R55). -/
def schedTimers (s : State) : State :=
  let s := forEach ((List.range 36).filter fun c => let x := clusterOf c s; x.holder.isSome && decide (x.last + quantumCk s ≤ s.ck))
    (fun c s => causeOnce (.quantumBoundary c) s) s
  let s := if s.ck % (2 * usCk) = 0 then forEach (s.monitors.filter fun m => !m.slice) (fun m s => causeOnce (.monitorRecheck m.id) s) s else s
  let s := forEach (s.launches.filter fun l => l.phase == .signalling && l.event0 && decide (l.wdog ≤ s.ck)) (fun l s => causeOnce (.signalRetry l.id) s) s
  forEach (s.links.filter fun l => l.due != 0 && decide (l.due ≤ s.ck)) (fun l s => causeOnce (.launchResend l.id) s) s
/-- Ports whose timers run out: pauses, the refresh of our own, a port that has been down for 1 ms; re-sent packets are forgotten after
2 ms (R18, R20). -/
def portTimers (s : State) : State :=
  let s := forEach (List.range 8) (fun p s =>
    let x := portOf p s
    let s := forEach (List.range 4) (fun c s =>
      let u := x.pausedUntil.getD c 0
      let s := if u != 0 && decide (u ≤ s.ck) then causeOnce (.pauseExpiry p c) s else s
      if x.weSent.getD c false && s.ck % usCk = 0 then causeOnce (.pauseRefresh p c) s else s) s
    if x.pend.any fun k => k.1 != 0 && decide (k.1 ≤ s.ck) then causeOnce (.failoverTimeout p) s else s) s
  if s.accepted.any fun a => decide (a.time + 2000 * usCk < s.ck) then causeOnce .dedupExpiry s else s
/-- One ck passes. -/
def tick (s : State) : State :=
  let s := { s with ck := s.ck + 1, time := s.time + w64 (nsOf (s.ck + 1) - nsOf s.ck) }
  portTimers (schedTimers (coreTimers (wdogTick s)))

end Sys2Proof.Machine
end

