-- ==== Sys2Proof/Machine/Part.lean ====
section
/-! DEFINITION. Partition configuration, save areas, reservations and resets (R56, R63, R66, R67, R136). -/

namespace Sys2Proof.Machine

/-! ## Reset (R66) -/

/-- Work of a partition stands on the module. -/
def hasResident (q : Nat) (s : State) : Bool := s.wgs.any (fun w => w.part == q) || s.launches.any fun l => l.part == q
/-- Tell the peers whose launch is not answered yet; the partition's launches are abandoned. -/
def abandonLaunches (q : Nat) (s : State) : State :=
  let ls := s.launches.filter fun l => l.part == q
  let s := forEach ls (fun l s => match l.origin, l.phase with
    | .peer _ key _, .waiting | .peer _ key _, .reading | .peer _ key _, .verdict _ | .peer _ key _, .setup => answerLaunch key 0x12 7 s
    | _, _ => s) s
  let ents := ls.filterMap fun l => match l.origin with | .team _ _ e => some e | _ => none
  { s with launches := s.launches.filter fun l => l.part != q, lsu := s.lsu.filter fun e => !(e.req.part == q && ents.contains e.id) }
/-- Peers of the collectives that a team abandons. -/
def openParts (t : Team) (here : Nat) : List (Nat × Nat) :=
  t.l.ops.flatMap fun o => match o.part with
    | some p => if o.done then [] else (p.mods.filter (· != here)).map fun m => (p.tag, m)
    | none => []
/-- A team of a partition that is being reset: it halts for good, and its engines stop; a copy in the middle of a chunk that waits for no refused
request finishes that chunk. -/
def Team.stopped (t : Team) : Team :=
  match t.status with
  | .gone => t
  | _ => { t with status := .halted, haltWait := none, records := [], wdog := false, preempt := none, atomU := 0, mm := none, owed := none, emu := false, spq := []
                  c := t.c.keepOnly fun o => o.mid && !o.done && o.retry.isNone && !(t.records.any fun r => r.ent == o.id)
                  m := t.m.keepOnly fun _ => false, l := { t.l with ops := [] } }
/-- The partition's fault-buffer entries free (R66 step 3). -/
def dropFaults (q : Nat) (s : State) : State :=
  forEach (List.range 37) (fun h s => forEach ((homeOf h s).faults.filter fun f => f.req.part == q) (fun f s => freeFault h f.slot s) s) s
/-- Every draw on the partition's embers is served and every dirty line of it is written back; its pinned lines leave their places (R66 step 3,
R216). Whether all embers are drawn and all has arrived at other modules. -/
def writeBackPart (q : Nat) (s : State) : Bool × State :=
  let (drawn, s) := drawEvery (fun e => e.part == q) s
  let s := forEach (s.cores.map (·.1)) (fun n s => flushNow n ((coreOf n s).dirtyOf q) (drainWrites n q s)) s
  let (far, s) := flushRemote false q s
  (drawn && far.isEmpty,
    forEach (s.lines.filter fun l => l.present && l.st != .held &&
      ((l.dirty != 0 && (l.part == q || l.writers.contains q)) || (l.part == q && (l.attr == 2 || l.attr == 3)))) leaveSlice s)
/-- What of the partition waits for something that will not come is discarded (R66 step 2): entries not sent, refused or armed, task waits, and
requests held in a home's queue with their entries; a peer's there is answered with status 7. -/
def dropWaits (q : Nat) (s : State) : State :=
  let waits (e : LsuEnt) : Bool := match e.phase with | .held | .fault .. | .retry _ | .monitor => true | _ => false
  let mine (r : Req) : Bool := r.part == q && r.agent != .ctrl
  let held := (s.homes.flatMap fun h => h.2.held).filter mine
  let parked := ((s.qwait.filter fun w => w.op.part == q).map fun w => w.op.id) ++ held.map (·.id)
  let s := { s with homes := s.homes.map fun h => (h.1, { h.2 with held := h.2.held.filter fun r => !mine r }) }
  let s := forEach held (fun r s => match r.agent with | .peer .. => deliver r (.nack { req := r, status := 7 }) s | _ => s) s
  { s with
    lsu := s.lsu.filter fun e => !(e.req.part == q && (waits e || parked.contains e.id))
    qwait := s.qwait.filter fun w => w.op.part != q
    monitors := s.monitors.filter fun m => m.part != q }
/-- Start a reset (R66 steps 1 to 3); a second request during one is ignored. -/
def startReset (q : Nat) (s : State) : State :=
  if (partOf q s).resetting then s
  else
    let here := ctlFld .modid 0 16 s
    let ts := (allTeams s).filter fun t => t.part == q && t.status != .gone
    let s := modPart q (fun p => { p with resetting := true, abandoned := p.abandoned ++ ts.flatMap fun t => openParts t here }) (ctlSetFld (.partCfg q) 2 1 1 s)
    let s := dropWaits q (abandonLaunches q s)
    let s := { s with
      twaits := s.twaits.filter fun w => !(ts.any fun t => t.id == w.team || t.id == w.target)
      launches := s.launches.filter fun l => l.part != q }
    let s := modTeams (fun t => t.part == q) Team.stopped s
    cause (.partitionResetComplete q) (lookClusters (writeBackPart q (dropFaults q s)).2)
/-- Replies, draws, write-backs or a chunk of a copy of the partition are outstanding, or the Rake works on one of its cores (R66, R133). -/
def resetWaits (q : Nat) (s : State) : Bool :=
  s.lsu.any (fun e => e.req.part == q) || s.links.any (fun l => l.req.part == q && l.kind != .backInv) || s.draws.any (fun d => d.part == q)
    || (allTeams s).any (fun t => t.part == q && t.c.inFlight != 0)
    || s.cores.any fun c => !(unacked c.1 q s).isEmpty || (match c.2.evac with | some e => !e.flipped && s.wgs.any fun w => w.part == q && w.cores.contains c.1 | none => false)
/-- PARTITION_RESET_COMPLETE: steps 3 to 6 of R66, once nothing is outstanding. What core-side units held is gone with the workgroups, and whoever
claims them next finds zero. -/
def execPartitionResetComplete (q : Nat) (s : State) :=
  event (fun s =>
    if !(partOf q s).resetting then s
    else
      let (out, s) := writeBackPart q (dropWaits q (dropFaults q s))
      if !out || resetWaits q s then cause (.partitionResetComplete q) s
      else
        let gone (t : Team) : Bool := t.part == q && t.id != 0
        let s := { s with
          embers := s.embers.filter fun e => e.part != q
          teams := s.teams.filter fun t => !gone t
          cur := if gone s.cur then {} else s.cur
          wgs := s.wgs.filter fun w => w.part != q
          launches := s.launches.filter fun l => l.part != q
          cores := s.cores.map fun (c : Nat × Core) => (c.1, { c.2 with dl := c.2.dl.filter fun d => d.part != q }) }
        let s := forEach ((List.range 1024).filter fun i => ctlFld (.qifCfg i) 4 6 s == q) (fun i s =>
          modQif i (fun x => { x with next := 0, done := 0, held := [], taken := [] }) s) s
        let s := forEach (List.range 16) (fun e s => ctlSetFld (.irqMap q e) 16 1 0 s) s
        let s := ctlSetFld (.hotPtr q) 24 24 (ctlFld (.hotPtr q) 0 24 s) s
        let s := modPart q (fun p => { p with resetting := false, pointer := 0, savedWgs := [] }) (ctlSetFld (.partCfg q) 2 1 0 s)
        lookClusters (raiseEvent q 6 s)) s

/-! ## ctl.part.cfg, ctl.part.qos (R56, R67) -/

/-- Sum of a field of `ctl.part.qos` over the enabled partitions but one. -/
def qosSum (q lo n : Nat) (s : State) : Nat :=
  (((List.range 64).filter fun p => p != q && ctlFld (.partCfg p) 0 1 s == 1).map fun p => ctlFld (.partQos p) lo n s).sum
/-- The reservations of a value of `ctl.part.qos[q]`, with those of the enabled partitions, stay within their tables. -/
def qosFits (q : Nat) (v : W64) (s : State) : Bool :=
  decide ((qosSum q 32 8 s + fld v 32 8) * 64 ≤ 8192) && decide ((qosSum q 40 8 s + fld v 40 8) * 32 ≤ 4096) && decide (qosSum q 48 9 s + fld v 48 9 ≤ 256)
/-- A write to `ctl.part.cfg[q]` (R56). -/
def writePartCfg (q : Nat) (v : W64) (s : State) : State :=
  let r := CtlReg.partCfg q
  let was := ctlFld r 0 1 s == 1
  let okSave := ctlFld (.partSave q) 0 1 s == 1
  let okQos := qosFits q (ctlRaw (.partQos q) s) s
  let en := bit v 0 && (was || (okSave && okQos))
  let s := if bit v 0 && !was && !okSave then ctlSetFld .partCfgerr 0 1 1 s else s
  let s := if bit v 0 && !was && !okQos then ctlSetFld .partCfgerr 3 1 1 s else s
  let s := ctlSetFld r 16 16 (fld v 16 16) (ctlSetFld r 1 1 (fld v 1 1) (ctlSetFld r 0 1 (nb en) s))
  let s := if bit v 2 || (was && !bit v 0 && hasResident q s) then startReset q s else s
  lookClusters s
def execPartEnable (q : Nat) (v : W64) (s : State) := event (writePartCfg q v) s
def execPartReset (q : Nat) (v : W64) (s : State) := event (writePartCfg q v) s
/-- A write to `ctl.part.qos[q]`: cores noted for a wake may find an entry now (R67, R158). -/
def writePartQos (q : Nat) (v : W64) (s : State) : State :=
  let v := ctlMerge (.partQos q) (ctlRaw (.partQos q) s) v
  if ctlFld (.partCfg q) 0 1 s = 1 ∧ !qosFits q v s then ctlSetFld .partCfgerr 3 1 1 s else forEach (List.range 37) wakeNoted (ctlPut (.partQos q) v s)
def execPartQosWrite (q : Nat) (v : W64) (s : State) := event (writePartQos q v) s

/-! ## Save areas (R63, R136) -/

/-- Frames of a partition's save area and capacity save area: first frame and count, where valid. -/
def areasOf (q : Nat) (s : State) : List (Nat × Nat) :=
  (if ctlFld (.partSave q) 0 1 s = 1 then [(ctlFld (.partSave q) 16 32 s, ncores s * 64)] else [])
    ++ (if ctlFld (.partCsave q) 0 1 s = 1 then [(ctlFld (.partCsave q) 16 32 s, ctlFld (.partCsave q) 48 8 s * 64)] else [])
/-- A range of frames is mapped, or meets another partition's area. Of frames at or beyond 384 GiB, and of an area made valid while `ctl.rmap.base` is
not, the spec names no refusal: frames without a reverse-map entry count as free, the model's choice (log 89). -/
def areaTaken (q f n : Nat) (s : State) : Bool :=
  ((List.range n).any fun i => match rmapEntry ((f + i) * 2 ^ 16) s with | some e => bit e 0 | none => false)
    || (List.range 64).any fun p => p != q && (areasOf p s).any fun a => decide (a.1 < f + n) && decide (f < a.1 + a.2)
/-- A write to one of the two registers: `frames` is the length of an area its value names. -/
def writeSave (r : CtlReg) (q : Nat) (frames : W64 → Nat) (v : W64) (s : State) : State :=
  if ctlFld (.partCfg q) 0 1 s = 1 then s
  else
    let old := ctlRaw r s
    let v := ctlMerge r old v
    let s := if bit old 0 then reserveFrames (fld old 16 32) (frames old) false s else s
    if bit v 0 && areaTaken q (fld v 16 32) (frames v) s then ctlPut r (v &&& ~~~1) (ctlSetFld .partCfgerr 2 1 1 s)
    else
      let s := ctlPut r v s
      if bit v 0 then reserveFrames (fld v 16 32) (frames v) true s else s
def writePartSave (q : Nat) (v : W64) (s : State) : State := writeSave (.partSave q) q (fun _ => ncores s * 64) v s
def writePartCsave (q : Nat) (v : W64) (s : State) : State := writeSave (.partCsave q) q (fun v => fld v 48 8 * 64) v s
def execPartSaveWrite (q : Nat) (v : W64) (s : State) := event (writePartSave q v) s
def execPartCsaveWrite (q : Nat) (v : W64) (s : State) := event (writePartCsave q v) s

/-! ## Other resets (R66) -/

/-- A write to `ctl.qif.rst[i]`. -/
def writeQifRst (i : Nat) (v : W64) (s : State) : State := if bit v 0 then startReset (ctlFld (.qifCfg i) 4 6 s) s else s
def execQifReset (i : Nat) (v : W64) (s : State) := event (writeQifRst i v) s
/-- FUNCTION_LEVEL_RESET: every partition with an enabled QIF on the function is reset, and its MSI-X table is cleared. -/
def execFunctionLevelReset (pf : Nat) (s : State) :=
  event (fun s =>
    let qs := (((List.range 1024).filter fun i => ctlFld (.qifCfg i) 3 1 s == 1 && ctlFld (.qifCfg i) 0 3 s == pf).map fun i => ctlFld (.qifCfg i) 4 6 s).eraseDups
    forEach qs startReset { s with msixTab := s.msixTab.filter fun x => x.1.1 != pf, msixPend := s.msixPend.filter fun x => x.1 != pf }) s

end Sys2Proof.Machine
end

