-- ==== Sys2Proof/Machine/Rake.lean ====
section
/-! DEFINITION. Error counts, ashing and the Rake (R126 to R133, R152), and OVER_CAPACITY (R101, R102, R134 to R137). -/

namespace Sys2Proof.Machine

/-! ## Banks and what they hold (R126, R130) -/

/-- Replace a bank map. -/
def Core.putBmap (c : Core) (k : Nat) (m : BankMap) : Core :=
  match k with | 0 => { c with vmap := m } | 1 => { c with smap := m } | _ => { c with amap := m }
/-- The logical bank that a physical bank holds. -/
def Core.logicalOf (c : Core) (k b : Nat) : Option Nat :=
  (List.range (bankCounts k).1).find? fun l => !(c.bmap k).ceased.contains l && (c.bmap k).phys l == b
/-- 64-byte chunks of a bank. -/
def bankChunks (k : Nat) : Nat := if k = 1 then 512 else 256
/-- A workgroup has granules, units or tiles of a logical bank of a core. -/
def Workgroup.holdsBank (w : Workgroup) (n k l : Nat) : Bool :=
  match k with
  | 0 => w.gran.any fun g => w.coreOfNum g.1 == n && g.2 / 8 == l
  | 1 => (alGet [] n w.units).contains l
  | _ => (alGet [] n w.tiles).contains (l / 16)
/-- Workgroups with state in a logical bank. -/
def holders (n k l : Nat) (s : State) : List Workgroup := s.wgs.filter fun w => !w.saved && w.holdsBank n k l
/-- A logical bank holds nothing of a workgroup beyond those listed, and, a core SRAM unit, no pinned and no data-cache lines. -/
def bankFree (n k l : Nat) (without : List Nat) (s : State) : Bool :=
  ((holders n k l s).filter fun w => !without.contains w.id).isEmpty && (k != 1 || !(lineUnits n s).any fun x => x.1 == l)
/-- Physical banks other than `b` with a logical bank that may be dropped, lowest first. -/
def otherBanks (n k b : Nat) (s : State) : List (Nat × Nat) :=
  let c := coreOf n s
  ((List.range (bankCounts k).2).filter fun p => p != b && !(c.bmap k).ashed.contains p).filterMap fun p => (c.logicalOf k p).map fun l => (p, l)
/-- The destination of choices 2 and 3 of R130: the lowest physical bank that holds nothing; failing that, of core SRAM, the lowest unit of data
cache, with its partition. -/
def emptyBank (n k b : Nat) (without : List Nat) (s : State) : Option (Nat × Option Nat) :=
  match (otherBanks n k b s).find? fun x => bankFree n k x.2 without s with
  | some x => some (x.1, none)
  | none =>
    if k = 1 then
      ((otherBanks n k b s).filter fun x => ((holders n k x.2 s).filter fun w => !without.contains w.id).isEmpty).findSome? fun x =>
        match (lineUnits n s).find? fun u => u.1 == x.2 with
        | some (_, false, q) => some (x.1, some q)
        | _ => none
    else none

/-! ## Capacity (R127, R101) -/

/-- Some core, or wide cluster, could hold a workgroup of this shape if it were empty. -/
def couldHold (q : Nat) (g : Stage) (s : State) : Bool :=
  let fits (n : Nat) : Bool :=
    decide (g.scratch ≤ sramLimit q n s - cminOf q n s) && decide (g.perCore * g.granules ≤ 8 * (coreOf n s).usable 0) && decide (g.atiles ≤ (coreOf n s).usable 2 / 16)
  if g.wide then (List.range 36).any fun c => wideCluster c s && (clusterCores c s).all fits else (List.range (ncores s)).any fits
/-- A team whose saved state is discarded: what it has on its way completes, and nothing more comes of it. -/
def discardTeam (id : Nat) (s : State) : State :=
  match teamOf id s with
  | none => s
  | some t =>
    if t.status == .gone then s
    else
      let ents := t.records.filter fun r => r.kind != 4
      let s := forEach t.records (fun r s => freeFault r.home r.slot s) s
      let s := withdraw id { s with lsu := s.lsu.filter fun e => !(e.req.team == id && ((ents.any fun r => r.ent == e.id) || (match e.kind with | .fence _ | .barArr .. => true | _ => false))) }
      let s := modTeam id (fun t => { t with
        dead := true, status := .killed, handler := false, records := [], mm := none, owed := none, emu := false, wdog := false, preempt := none, atomU := 0
        haltWait := none, pre := false, spq := [], c := t.stopCopies.c, m := t.stopCopies.m }) s
      tryRetire id (cause (.registerFill { team := id, dest := .none }) s)
/-- A saved workgroup fails (R101): its saved state is discarded, its waits are withdrawn, the error count gains one, and it counts as retired
when what it has on its way is complete. -/
def failSaved (w : Workgroup) (s : State) : State :=
  let s := modWg w.id (fun w => { w with saved := false, slots := [] }) (unsave w.part w.id s)
  retireWorkgroup w.id (forEach w.teams discardTeam (addErrors w.launch 1 s))
/-- Pinned lines leave a core: those of a partition beyond a number of units; the partition learns of it (R152). -/
def unpin (n q units : Nat) (s : State) : State :=
  let mine := pinnedLines 2 q n s
  if mine.length ≤ units * 512 then s else ctlSetFld .partCfgerr 1 1 1 (forEach (mine.drop (units * 512)) leaveSlice s)
/-- What is pinned in a core beyond its partition's limit there, or beyond what the core has, leaves (R152). -/
def unpinOver (n : Nat) (s : State) : State :=
  forEach (List.range 64) (fun q s =>
    let room := sramLimit q n s - ((unitsHeld n s).filter fun u => u.1 == q).length
    unpin n q (min room (pinnedUnits q n s - (sramUsed n s - (coreOf n s).usable 1))) s) s
/-- A core's usable count has fallen: event 2 for every enabled partition, what can no longer be held fails, and passes follow. -/
def capacityFell (n k : Nat) (s : State) : State :=
  let s := if k = 1 then unpinOver n (fitSram n 64 (forEach (List.range 64) (trimPart n) s)) else s
  let on := (List.range 64).filter fun q => ctlFld (.partCfg q) 0 1 s == 1
  let s := forEach on (fun q s => raiseEvent q 2 s) s
  let s := forEach (s.wgs.filter (·.saved)) (fun w s =>
    match launchOf w.launch s with
    | some l => if couldHold w.part (l.stageOf w.stage) s then s else failSaved w s
    | none => s) s
  forEach on (fun q s => causeOnce (.dealPass q) s) s

/-! ## Evacuations (R130, R134) -/

/-- The victims of OVER_CAPACITY: the youngest workgroup with state in the bank, and the next, until the bank holds nothing else or another
bank is empty (R134). -/
def chooseVictims (n k b l : Nat) (s : State) : Nat → List Nat → List Nat
  | 0, vs => vs
  | fuel + 1, vs =>
    if ((holders n k l s).filter fun w => !vs.contains w.id).isEmpty || (!vs.isEmpty && (emptyBank n k b vs s).isSome) then vs
    else match minBy? (fun w => 2 ^ 64 - w.age) ((holders n k l s).filter fun w => !vs.contains w.id) with
      | some w => chooseVictims n k b l s fuel (vs ++ [w.id])
      | none => vs
/-- The evacuation goes on with nothing left to save: it copies to its destination, or it has nothing to copy. -/
def goEvac (n : Nat) (e : Evac) (s : State) : State :=
  let s := modCore n (fun c => { c with evac := some e }) s
  if e.next < e.total then cause (.rakeChunkCopy n false) s else cause (.mapFlip n) s
/-- The bank's logical bank ceases with nothing copied. -/
def ceaseBank (n : Nat) (e : Evac) (s : State) : State := goEvac n { e with dest := e.bank, drop := false, next := 0, total := 0 } s
/-- The bank's contents go to a destination whose own logical bank is dropped; a data-cache unit there is given up first (R130). -/
def moveBank (n : Nat) (e : Evac) (d : Nat × Option Nat) (s : State) : State :=
  goEvac n { e with dest := d.1, drop := true, next := 0, total := bankChunks e.kind } (match d.2 with | some q => giveUnit n q s | none => s)
/-- OVER_CAPACITY: victims are chosen, and the bank waits until they are saved (R134). -/
def overCapacity (n : Nat) (e : Evac) (s : State) : State :=
  let vs := chooseVictims n e.kind e.bank e.logical s s.wgs.length []
  causeAll (vs.map .workgroupSave) (modCore n (fun c => { c with evac := some { e with victims := vs } }) s)
/-- Where what remains of a bank goes: nothing is copied from a bank that holds nothing (R130); victims are chosen again where the room is
not there (R134). -/
def settleEvac (n : Nat) (e : Evac) (s : State) : State :=
  if (holders n e.kind e.logical s).isEmpty then ceaseBank n e s
  else match emptyBank n e.kind e.bank [] s with
    | some d => moveBank n e d s
    | none => overCapacity n e s
/-- Ash a bank (R130). A core SRAM unit of data cache is given up, never copied; pinned lines move as scratchpad does, or leave (R152). -/
def ashBank (n k b : Nat) (s : State) : State :=
  let c := coreOf n s
  let out (m : BankMap) : BankMap := { m with ashed := m.ashed ++ [b] }
  match c.logicalOf k b with
  | none => modCore n (fun c => c.putBmap k (out (c.bmap k))) s
  | some l =>
    let use := if k = 1 then ((lineUnits n s).find? fun u => u.1 == l).map (·.2) else none
    let s := match use with | some (false, q) => giveUnit n q s | _ => s
    let pinned := match use with | some (true, q) => some q | _ => none
    let spare := (c.spares k).head?
    if (holders n k l s).isEmpty && pinned.isNone then
      match spare with
      | some p => modCore n (fun c => c.putBmap k { out (c.bmap k) with map := alSet l p (c.bmap k).map }) s
      | none => capacityFell n k (modCore n (fun c => c.putBmap k { out (c.bmap k) with ceased := (c.bmap k).ceased ++ [l] }) s)
    else
      let e : Evac := { kind := k, bank := b, logical := l, dest := b, next := 0, total := bankChunks k }
      match spare, emptyBank n k b [] s, pinned with
      | some p, _, _ => goEvac n { e with dest := p } s
      | none, some d, _ => moveBank n e d s
      | none, none, some q => ceaseBank n e (unpin n q (pinnedUnits q n s - 1) s)
      | none, none, none => overCapacity n e s
/-- Carry out the orders of a core one at a time (R129). -/
def runRake (n : Nat) : Nat → State → State
  | 0, s => s
  | fuel + 1, s =>
    let c := coreOf n s
    match c.evac, c.rakeQ with
    | none, (k, b) :: rest => runRake n fuel (ashBank n k b (modCore n (fun c => { c with rakeQ := rest }) s))
    | _, _ => s
/-- Order a bank to be ashed, which clears its pending mark; an order for one that is ashed or queued already is ignored. -/
def orderAsh (n k b : Nat) (s : State) : State :=
  let c := coreOf n s
  let known := (c.bmap k).ashed.contains b || c.rakeQ.contains (k, b) || (match c.evac with | some e => e.kind == k && e.bank == b | none => false)
  if known then s
  else runRake n 256 (modCore n (fun c => { c with pending := c.pending.filter (· != (k, b)), rakeQ := c.rakeQ ++ [(k, b)] }) s)

/-! ## Orders and crossings (R128, R129) -/

/-- The ck at which a bank's errors came that still count, with `errs` more: those of the last `win` ms, the newest `thr` at most (R128). -/
def countErrors (now thr win errs : Nat) (old : List Nat) : List Nat :=
  (List.replicate (min errs thr) now ++ old.filter fun t => decide (now ≤ t + win * 1000 * usCk)).take thr
/-- Storage of a team on a core whose read found an error that cannot be corrected: a register becomes full and poisoned (R117), an error in
trap or scalar state kills the team (R123). -/
def storeError (n : Nat) (e : StoreError) (s : State) : State :=
  let on (t : Nat) (f : Team → Team) : State := modTeams (fun x => x.id == t && x.core == n && x.status != .gone && x.status != .saved) f s
  match e with
  | .none => s
  | .s t r => on t fun x => x.setS r { x.sreg r with full := true, poison := true }
  | .v t r => on t fun x => x.setV r { x.vreg r with full := true, poison := true }
  | .state t => if (teamOf t s).any fun x => x.core == n && x.status != .saved then killTeam t s else s
/-- BANK_CROSSING: a bank reports correctable errors, or a read of it finds one that cannot be corrected; a crossing ashes it, or marks it
pending. -/
def execBankCrossing (n kind bank : Nat) (r : EccReport) (s : State) :=
  event (fun s =>
    let thr := ctlFld .bankThr 0 16 s
    let mode := ctlFld .duty 2 1 s
    let s := storeError n r.bad s
    if ncores s ≤ n ∨ 2 < kind ∨ (bankCounts kind).2 ≤ bank ∨ thr = 0 then s
    else
      let c := coreOf n s
      let ts := countErrors s.ck thr (max 1 (ctlFld .bankThr 16 16 s)) r.errs (alGet [] (kind, bank) c.errs)
      let rest := c.errs.filter fun e => e.1 != (kind, bank)
      if ts.length < thr then modCore n (fun c => { c with errs := rest ++ [((kind, bank), ts)] }) s
      else
        let s := modCore n (fun c => { c with errs := rest }) s
        if mode = 0 then orderAsh n kind bank s
        else if (c.bmap kind).ashed.contains bank || c.pending.contains (kind, bank) then s
        else modCore n (fun c => { c with pending := c.pending ++ [(kind, bank)] }) s) s
/-- A write to `ctl.bank.cmd` (R129). -/
def writeBankCmd (v : W64) (s : State) : State :=
  let n := fld v 0 8
  let k := fld v 8 2
  let b := fld v 10 7
  if ncores s ≤ n ∨ k = 3 ∨ (bankCounts k).2 ≤ b then s else orderAsh n k b s
def execBankAsh (v : W64) (s : State) := event (writeBankCmd v) s

/-! ## Copying and flipping (R131, R132) -/

/-- What overlaps chunk `c` of a logical bank is poisoned in the bank that the Rake is filling, until it is written again (R131, R132): registers,
vN taking bytes 4WN up of the team's granules in order; bytes of a share; elements of a tile, its banks in order (log 45). -/
def markBad (n k l c : Nat) (s : State) : State :=
  forEach ((holders n k l s).filter fun w => w.placed n k (if k = 2 then l / 16 else l)) (fun w s =>
    let ci := w.cores.findIdx (· == n)
    if k = 0 then
      forEach (w.gran.filter fun g => w.coreOfNum g.1 == n && g.2 == 8 * l + c / 32) (fun g s =>
        let pos := ((w.gran.filter fun x => x.1 == g.1).map (·.2)).findIdx (· == g.2)
        let off := 2048 * pos + 64 * (c % 32)
        modTeams (fun t => t.wg == w.id && t.num == g.1) (fun t =>
          { t with vbad := t.vbad ++ (List.range t.v.length).filter fun i => decide (off < 4 * t.width * (i + 1)) && decide (4 * t.width * i < off + 64) }) s) s
    else if k = 1 then
      let us := alGet [] n w.units
      let base := (ci * us.length + us.findIdx (· == l)) * 32768 + 64 * c
      modWg w.id (fun w => { w with spbad := w.spbad ++ (List.range 64).map fun i => base + i }) s
    else
      let base := (2 * ci + (alGet [] n w.tiles).findIdx (· == l / 16)) * 65536 + l % 16 * 4096 + 16 * c
      modWg w.id (fun w => { w with abad := w.abad ++ (List.range 16).map fun i => base + i }) s) s
/-- The pinned line at chunk `c` of a core SRAM unit is poisoned until it is written again (R132, R152); the units with a partition's pinned lines hold
them in order (log 78). -/
def poisonPinned (n l c : Nat) (s : State) : State :=
  let units := lineUnits n s
  match units.find? fun x => x.1 == l with
  | some (_, true, q) =>
    let before := ((units.takeWhile fun x => x.1 != l).filter fun x => x.2 == (true, q)).length
    (match (pinnedLines 2 q n s)[512 * before + c]? with
    | some ln => setLine { ln with poison := 2 ^ 64 - 1 } s
    | none => s)
  | _ => s
/-- A team's full registers that are still poisoned in the new bank are poisoned. -/
def Team.spreadBad (t : Team) : Team :=
  { (t.vbad.foldl (fun t i =>
      let r : Reg := ⟨i % 64, Nat.mod_lt _ (by decide)⟩
      if (t.vreg r).full then t.setV r { t.vreg r with poison := true } else t) t) with vbad := [] }
/-- The map has flipped: what is still poisoned in the new bank of a storage of the core is poisoned (R132). -/
def spreadBad (n k : Nat) (s : State) : State :=
  if k = 0 then
    modTeams (fun t => t.core == n) Team.spreadBad s
  else
    { s with wgs := s.wgs.map fun w =>
        if !w.cores.contains n then w
        else
          let ci := w.cores.findIdx (· == n)
          let per := (alGet [] n w.units).length * 32768
          let here (b : Nat) : Bool := decide (ci * per ≤ b) && decide (b < (ci + 1) * per)
          let mine (e : Nat) : Bool := e / 65536 / 2 == ci
          if k = 1 then { w with spoison := w.spoison ++ w.spbad.filter here, spbad := w.spbad.filter fun b => !here b }
          else { w with apoison := ((w.abad.filter mine).map (· / 65536) ++ w.apoison).eraseDups, abad := w.abad.filter fun e => !mine e } }
/-- RAKE_CHUNK_COPY: the next chunk; one that reads with an uncorrectable error is poisoned in the new bank, a pinned line too (R132, R152). -/
def execRakeChunkCopy (n : Nat) (bad : Bool) (s : State) :=
  event (fun s =>
    match (coreOf n s).evac with
    | none => s
    | some e =>
      if e.flipped || !e.victims.isEmpty || decide (e.total ≤ e.next) then s
      else goEvac n { e with next := e.next + 1 } (if bad then markBad n e.kind e.logical e.next (if e.kind = 1 then poisonPinned n e.logical e.next s else s) else s)) s
/-- MAP_FLIP. -/
def execMapFlip (n : Nat) (s : State) :=
  event (fun s =>
    match (coreOf n s).evac with
    | none => s
    | some e =>
      if e.flipped || !e.victims.isEmpty || decide (e.next < e.total) then s
      else
        let s := spreadBad n e.kind s
        let dropped := if e.dest = e.bank then some e.logical else if e.drop then (coreOf n s).logicalOf e.kind e.dest else none
        let s := modCore n (fun c =>
          let m := c.bmap e.kind
          let m := { m with ashed := m.ashed ++ [e.bank], ceased := m.ceased ++ dropped.toList, map := if e.dest = e.bank then m.map else alSet e.logical e.dest m.map }
          { c.putBmap e.kind m with evac := some { e with flipped := true }, old := c.old ++ [(e.kind, e.bank)] }) s
        cause (.oldBankRelease n) (if dropped.isSome then capacityFell n e.kind s else s)) s
/-- OLD_BANK_RELEASE: reads issued before the flip are complete; the next order of the core follows. -/
def execOldBankRelease (n : Nat) (s : State) :=
  event (fun s =>
    match (coreOf n s).evac with
    | none => s
    | some e => if e.flipped then runRake n 256 (modCore n (fun c => { c with evac := none, old := c.old.filter (· != (e.kind, e.bank)) }) s) else s) s

/-! ## OVER_CAPACITY (R101, R102, R134 to R137) -/

/-- A team of a victim is written out, from the bank it stands in: its wait goes with it. -/
def Team.saveOut (t : Team) : Team :=
  let t := { t with vbad := [] }
  match t.status with
  | .gone => t
  | .shelfWait w => { t with status := .saved, haltWait := some w, urgent := none, passed := 0, ilines := [], ahead := [] }
  | .halted => { t with status := .saved, ilines := [], ahead := [] }
  | _ => { t with status := .saved, haltWait := none, urgent := none, passed := 0, ilines := [], ahead := [] }
/-- Free slots of a partition's capacity save area (R136). -/
def freeSlots (q : Nat) (s : State) : List Nat :=
  if ctlFld (.partCsave q) 0 1 s = 0 then []
  else
    let used := (s.wgs.filter fun w => w.part == q && w.saved).flatMap (·.slots)
    (List.range (ctlFld (.partCsave q) 48 8 s)).filter fun i => !used.contains i
/-- What a victim held is free (R135 step 4). -/
def freeUnits (wg : Nat) (s : State) : State := modWg wg (fun w => { w with gran := [], units := [], tiles := [], spbad := [], abad := [], out := [] }) s
/-- Take a victim out under its policy (R101, R135). A save image stays in the teams and the workgroup; its slot's bytes in memory keep theirs
(log 82). -/
def takeOut (w : Workgroup) (s : State) : State :=
  let ended := w.teams.all fun id => match teamOf id s with | some t => (match t.status with | .draining | .killed | .gone => true | _ => false) | none => true
  let pol := match launchOf w.launch s with | some l => (l.stageOf w.stage).policy | none => 2
  let need := if w.wide then 4 else 1
  let slots := (freeSlots w.part s).take need
  let possible := match launchOf w.launch s with | some l => couldHold w.part (l.stageOf w.stage) s | none => false
  let pol := if (pol = 0 ∧ slots.length < need) ∨ !possible then 2 else pol
  if ended then freeUnits w.id s
  else
    let s := raiseEvent w.part 2 s
    match pol with
    | 0 =>
      let s := modTeams (fun t => t.wg == w.id && t.id != 0) Team.saveOut s
      modPart w.part (fun p => { p with savedWgs := p.savedWgs ++ [w.id] })
        (freeUnits w.id (modWg w.id (fun w => { w with saved := true, oldCore := w.cores, slots := slots }) s))
    | 1 =>
      let s := modPart w.part (fun p => { p with savedWgs := p.savedWgs ++ [w.id] }) (freeUnits w.id (modWg w.id (fun w => { w with saved := true, oldCore := w.cores }) s))
      modWg w.id (fun w => { w with teams := [] }) (forEach w.teams discardTeam s)
    | _ => forEach w.teams discardTeam (addErrors w.launch 1 (freeUnits w.id s))
/-- A copy of the workgroup is in the middle of a chunk, which it finishes before it pauses (R135 step 1). -/
def chunkOpen (wg : Nat) (s : State) : Bool :=
  (allTeams s).any fun t => t.wg == wg && t.c.ops.any fun o => o.mid && !o.done && o.retry.isNone && !(t.records.any fun r => r.ent == o.id)
/-- WORKGROUP_SAVE: the victim's teams have halted; once its copies stand at a chunk's end it is out, and the evacuation that waited for it goes
on. -/
def execWorkgroupSave (wg : Nat) (s : State) :=
  event (fun s =>
    if !beingSaved wg s then s
    else
      let s := modTeams (fun t => t.wg == wg && t.id != 0) (Team.halt s.ck) s
      if chunkOpen wg s then cause (.workgroupSave wg) s else
      let s := match wgOf wg s with | some w => takeOut w s | none => s
      let cs := (s.cores.filter fun c => match c.2.evac with | some e => e.victims.contains wg | none => false).map (·.1)
      forEach cs (fun n s =>
        match (coreOf n s).evac with
        | none => s
        | some e =>
          let e := { e with victims := e.victims.filter (· != wg) }
          if e.victims.isEmpty then settleEvac n e s else modCore n (fun c => { c with evac := some e }) s) s) s

end Sys2Proof.Machine
end

