-- ==== Sys2Proof/Machine/Link.lean ====
section
/-! DEFINITION. Fjonlink ports: flits, naks, retraining, failover, pause, and what a module does with the packets that arrive (R15 to R24);
the failure of a Flue link (R12). -/

namespace Sys2Proof.Machine

/-! ## Packets as they arrive (R18, R21 to R24) -/

/-- Reserved bytes of a chunk's trailer are zero (R25). -/
def trailerOk (p : Packet) : Bool := (p.payload.drop (p.payload.length - 7)).all (· == 0)
/-- The packet is one that R22 lets the receiver act on. -/
def packetOk (p : Packet) : Bool :=
  opClass p.op == some p.tc && p.rsv == 0 && p.agent / 2 ^ 6 % 2 ^ 6 == 0
    && (match opPayload p.op p.sub with | none => p.len == 0 | some (lo, hi) => decide (lo ≤ p.len + 1) && decide (p.len + 1 ≤ hi))
    && (p.op != 0x30 || trailerOk p)
/-- A packet that is not acted on is counted at its port; a TC0 request is answered with status 6 (R22). -/
def badPacket (n : Nat) (p : Packet) (s : State) : State :=
  let s := ctlSetFld (.fjBad n) 0 32 (min 0xFFFF_FFFF (ctlFld (.fjBad n) 0 32 s + 1)) s
  if p.tc = 0 then sendPacket (replyPacket p 0x12 6 [] s) s else s
/-- Two packets have the srcm, agent, tag and op that R18 compares. -/
def samePacket (a b : Packet) : Bool := a.srcm == b.srcm && a.agent == b.agent && a.tag == b.tag && a.op == b.op
/-- The order and scope that a header's codes mean (R21). -/
def ordOfNum : Nat → Ord | 0 => .rlx | 1 => .acq | 2 => .rel | _ => .ar
def scopeOfNum : Nat → Scope | 0 => .wg | 1 => .die | 2 => .dev | _ => .sys
/-- The agent of a peer's request: its agent field says whether a core made it (R21, R181). -/
def peerAgent (p : Packet) : Agent := .peer p.srcm (p.agent / 2 ^ 12 % 4 == 0)
/-- The request of a peer's RD, WR or ATOM for a partition here; none: its bytes leave the line or its function is unassigned. An RD names no
length: the whole 64-byte line is returned, the model's choice (log 11). -/
def peerReq (id q : Nat) (p : Packet) : Option Req :=
  let off := p.va % 64
  let r : Req := { id := id, agent := peerAgent p, core := 255, part := q, ptr := mkPtr (BitVec.ofNat 8 p.key) p.va, ord := ordOfNum p.ord, scope := scopeOfNum p.scope }
  let n := p.sub / 2 ^ 8 % 2 ^ 7
  let fits (n : Nat) : Bool := decide (off + n ≤ 64)
  if p.op = 0x01 then some { r with op := .read }
  else if p.op = 0x02 then
    if fits (p.len + 1) then
      some { r with op := .write, items := (List.range (p.len + 1)).map fun i => { lane := 0, off := off + i, size := 1, data := (p.payload.getD i 0).toNat } }
    else none
  else if p.sub % 2 ^ 8 = 0x10 then
    if n = 16 ∧ off % 16 = 0 then
      some { r with op := .cas, items := [{ lane := 0, off := off, size := 16, data := natOfBytes (sliceBytes p.payload 0 16), data2 := natOfBytes (sliceBytes p.payload 16 16) }] }
    else none
  else if p.sub % 2 ^ 8 = 0x11 then
    if n = 4 ∧ off % n = 0 then
      some { r with op := .cas, items := [{ lane := 0, off := off, size := n, data := p.aux % 2 ^ 32, data2 := p.aux / 2 ^ 32 }] }
    else none
  else match atomOfNum (p.sub % 2 ^ 8) with
    | some f => if (n = 2 ∨ n = 4 ∨ n = 8) ∧ off % n = 0 then some { r with op := .atom f, items := [{ lane := 0, off := off, size := n, data := p.aux }] } else none
    | none => none
/-- A fault entry that holds the same request of the same module is that of its first attempt: the replay frees it (R155, R157, log 29). -/
def dropPeerFault (r : Req) (s : State) : State :=
  forEach (List.range 37) (fun h s =>
    forEach ((homeOf h s).faults.filter fun f => f.req.agent == r.agent && f.req.ptr == r.ptr && f.req.op == r.op && f.req.items == r.items)
      (fun f s => freeFault h f.slot { s with peers := s.peers.filter fun x => x.1 != f.req.id }) s) s
/-- RD, WR or ATOM of a peer: served in the partition its tenant names, or refused (R23). -/
def peerAccess (p : Packet) (s : State) : State :=
  if !tenantHere p.tenant s then sendReply p 0x12 7 [] s
  else
    let (id, s) := fresh s
    match peerReq id ((partOfTenant p.tenant s).getD 0) p with
    | none => sendReply p 0x12 6 [] s
    | some r => let s := dropPeerFault r s; handle r { s with peers := s.peers ++ [(id, p)] }
/-- The ember that the record of an EMBER packet describes (R210). -/
def peerEmber (q : Nat) (p : Packet) : Ember :=
  let f (lo n : Nat) : Nat := natOfBytes (sliceBytes p.payload lo n)
  let sc := f 41 1 / 2 ^ 6 % 4
  { sig := BitVec.ofNat 256 (f 0 32), line := mkPtr (BitVec.ofNat 8 p.key) (lineVa p.va), core := peerCore p.srcm p.agent, part := q
    scope := if sc = 0 then .wg else if sc = 1 then .die else .dev, wgtag := f 42 2 % 2 ^ 12, rseq := w32 (f 44 4) }
/-- WBACK and EMBER of a peer (R22): the bytes their mask names are written, an EMBER's record is kept, and an ACK answers (R212, R214, log 30). -/
def peerWrite (p : Packet) (s : State) : State :=
  if !tenantHere p.tenant s then s
  else
    let q := (partOfTenant p.tenant s).getD 0
    let bytes := (List.range 64).filter p.aux.testBit
    let at_ (i k : Nat) : Byte := if p.op = 0x22 then p.payload.getD i 0 else p.payload.getD (64 + k) 0
    let (id, s) := fresh s
    handle { id := id, agent := peerAgent p, core := 255, part := q, op := .write, ord := ordOfNum p.ord, scope := scopeOfNum p.scope, eager := p.op == 0x22
             ember := if p.op = 0x24 then some (peerEmber q p) else none
             ptr := mkPtr (BitVec.ofNat 8 p.key) (lineVa p.va), items := bytes.zipIdx.map fun x => { lane := 0, off := x.1, size := 1, data := (at_ x.1 x.2).toNat } }
      { s with peers := s.peers ++ [(id, p)] }
/-- The later of every core's times, as the bytes of a vector (R22): a DRAW names no core (R21), so its answer covers each of them (log 30). -/
def ptsBytes (s : State) : List Byte := (List.range 4).flatMap fun e => bytesOfNat 4 (dieTime e s).toNat
/-- DRAW of a peer: this module keeps no ember at another module's home (R197, R212), so no line qualifies and DRAWACK follows at once (R214). -/
def peerDraw (p : Packet) (s : State) : State := sendPacket (replyPacket p 0x21 0 (ptsBytes s) s) s
/-- The vector of four times that bytes are (R22). -/
def vectorOf (bs : List Byte) : List W32 := (List.range 4).map fun e => w32 (natOfBytes (sliceBytes bs (4 * e) 4))
/-- DRAWACK of a peer: the draw it answers is over, and its vector goes into the ember (R214 step 5). -/
def peerDrawack (p : Packet) (s : State) : State :=
  match s.draws.find? fun d => d.line == mkPtr (BitVec.ofNat 8 p.key) (lineVa p.va) && 2 ^ 10 ≤ d.core && (d.core - 2 ^ 10) / 2 ^ 16 == p.srcm with
  | some d => cause (.drawack { line := d.line, core := d.core, part := d.part, rseq := d.rseq, vclock := vectorOf p.payload }) s
  | none => s
/-- The reply that carries read data (R22): the values of the items and, where 48 bytes follow, a drawn ember's signature and vclock, whose
times are the other module's; clean copies then lose their use here (log 30). -/
def peerData (r : Req) (bs : List Byte) : Rsp :=
    let n := if r.isRmw then (r.items.headD default).size else 64
    let tail := bs.drop n
    let vals := if r.isRmw then r.items.map fun _ => natOfBytes (bs.take n) else r.items.map (itemValue bs)
    let acq := if !r.acquires then AcqAns.notAcquire else if tail.length = 48 then .drawn (BitVec.ofNat 256 (natOfBytes (tail.take 32))) [] true else .bump 0
    { req := r, vals := vals, line := sliceBytes bs 0 64, acq := acq }
/-- The stamps, record and mark of a line follow a team's access that was performed at another module (R181, R197). -/
def remoteDone (l : LinkReq) (wrote : Bool) (s : State) : W32 × State :=
  match l.req.agent with | .team => farDone l.req wrote s | _ => (0, s)
/-- Read data, or an old value, for a link request. -/
def peerRead (l : LinkReq) (p : Packet) (s : State) : State :=
  let rsp := peerData l.req p.payload
  match l.guess with
  | none =>
    let s := match l.req.op with
      | .monitor c => if condHolds c (rsp.vals.headD 0) (l.req.items.headD default).data then s else ensureMonitor l.req s
      | _ => s
    let (w, s) := remoteDone l l.req.isRmw s
    answerLink l (.rdrsp { rsp with wts := w }) s
  | some g =>
    let old := natOfBytes (p.payload.take 16)
    let (_, vals, wrote) := blockStep l.req.op l.req.items old
    if old = g ∨ !wrote then
      let (w, s) := remoteDone l wrote s
      answerLink l (.rdrsp { rsp with vals := vals, wts := w, acq := if l.req.acquires then .bump 0 else .notAcquire }) s
    else
      sendCarrier l.addr p.srcm l.req (blockCas (packetBase l.req) (lineVa (vaOf l.req.ptr)) l.req.op l.req.items old)
        { s with links := s.links.filter fun x => x.id != l.id }
/-- A negative reply of another module's home (R155 to R159). The record of a refused request bears home 255 (R141, R156). The packet has no field for
the level of an absent entry, the slot, and whether that module's host holds the entry: each is a free value (log 76). A host-held request stays
outstanding: the answer to its replay will find it (R159). -/
def peerNack (l : LinkReq) (p : Packet) (s : State) : State :=
  if 1 < p.status then
    refuseLinkWith l { req := l.req, status := p.status, level := if p.status = 2 then 7 else 0, home := 255 } s
  else
    let (v, s) := choose s
    let (b, s) := choose s
    let (held, s) := toss s
    let n : NackMsg := { req := l.req, status := 1, level := v % 5, home := 255, slot := b % 256, hostHeld := held, who := l.addr }
    if held then cause (.nack n) s else refuseLinkWith l n s
/-- A reply finds the request it answers by module and tag (R21, R24). One answered RETRY is sent again each microsecond: R22 has no packet by
which that home could wake this module, so the model asks again (R158, log 29). -/
def peerReply (p : Packet) (s : State) : State :=
  let mine (l : LinkReq) : Bool := l.sentAs p.srcm p.tag
  match s.links.find? mine with
  | none => s
  | some l =>
    if p.op = 0x12 then
      if p.status = 3 then { s with links := updWhere mine (fun l => { l with due := s.ck + usCk }) s.links }
      else match l.kind with
        | .qnLaunch _ => answerLink l (.nack { req := l.req, status := p.status }) s
        | _ =>
          if 8 ≤ p.status then
            answerLink l (.rdrsp { req := l.req, wts := (lineAt (lineVa (vaOf l.req.ptr)) (keyOf l.req.ptr) s).elim 0 (·.wts), mismatch := some (p.status % 4) }) s
          else peerNack l p s
    else match l.kind with
      | .qnLaunch _ => launchResult l.req.id 0 { s with links := s.links.filter fun x => x.id != l.id }
      | _ =>
        if p.op = 0x11 then
          let (w, s) := remoteDone l true s
          answerLink l (.ack { req := l.req, wts := w, acq := if l.req.acquires then .bump 0 else .notAcquire }) s
        else peerRead l p s
/-- A CHUNK as its event (R25); one whose length and count disagree, or of an unassigned kind, has kind 3, which no part accepts. -/
def chunkOf (p : Packet) : ChunkMsg :=
  let body := p.payload.take (p.len + 1)
  let tail := p.payload.drop (p.payload.length - 32)
  let f (lo n : Nat) : Nat := natOfBytes (sliceBytes tail lo n)
  let kind := if f 24 1 < 2 ∧ body.length = 8 * f 18 2 then f 24 1 else 3
  { tag := p.va % 2 ^ 32, tenant := p.tenant, srcm := p.srcm, rank := 0, x := (List.range (body.length / 8)).map fun i => w64 (natOfBytes (sliceBytes body (8 * i) 8))
    c1 := w64 (f 0 8), c2 := w64 (f 8 8), w := BitVec.ofNat 16 (f 16 2), count := f 18 2, chunk := f 20 4, kind := kind, ptag := p.tag }
/-- Act on a packet (R22). A MONFILL fills nothing: this module arms no monitor at another's slices (R348). -/
def actPacket (n : Nat) (p : Packet) (s : State) : State :=
  match p.op with
  | 0x01 | 0x02 | 0x03 => peerAccess p s
  | 0x04 => cause (.launchPacket n p) s
  | 0x10 | 0x11 | 0x12 => peerReply p s
  | 0x20 => peerDraw p s
  | 0x21 => peerDrawack p s
  | 0x22 | 0x24 => peerWrite p s
  | 0x30 => cause (.chunk (chunkOf p)) s
  | 0x31 => cause (.chunkack (p.va % 2 ^ 32) p.tenant p.srcm (p.va / 2 ^ 32) p.status) s
  | _ => s
/-- A packet is taken out of a class buffer (R18, R22): one for another module goes nowhere, a re-sent copy is not acted on twice. -/
def takeIn (n : Nat) (p : Packet) (s : State) : State :=
  if p.dst ≠ ctlFld .modid 0 16 s then s
  else if !packetOk p then badPacket n p s
  else match (if p.rs then s.accepted.find? fun a => samePacket a.pkt p else none) with
    | some { reply := some r, .. } => sendPacket r s
    | some _ => s
    | none => actPacket n p { s with accepted := (s.accepted.filter fun a => !samePacket a.pkt p) ++ [{ pkt := p, time := s.ck }] }

/-! ## Class buffers (R20) -/

/-- The first whole packet of a class buffer and what follows it. -/
def nextPacket (bs : List Byte) : Option (Packet × List Byte) :=
  if bs.length < 32 ∨ bs.length < packetSize bs then none else some (packetOf bs, bs.drop (packetSize bs))
/-- A class buffer without the zeros that fill a flit after its last packet (R15, log 11). -/
def unpad : Nat → List Byte → List Byte
  | 0, bs => bs
  | fuel + 1, bs =>
    if bs.length < 244 && bs.all (· == 0) then []
    else match nextPacket bs with | some (_, rest) => bs.take (bs.length - rest.length) ++ unpad fuel rest | none => bs
/-- Replies wait for space: the handling of requests waits for them. -/
def repliesWait (s : State) : Bool := s.ports.any fun x => x.2.pend.any fun k => k.2.tc == 1
/-- Handle the packets of a class that may be handled. -/
def drainClass (n c : Nat) : Nat → State → State
  | 0, s => s
  | fuel + 1, s =>
    if c = 0 && repliesWait s then s
    else match nextPacket ((portOf n s).rx.getD c []) with
      | none => s
      | some (p, rest) => drainClass n c fuel (takeIn n p (modPort n (fun x => { x with rx := x.rx.set c rest }) s))
/-- Occupancy of a class buffer of 64 KiB, in bytes. -/
def occupied (n c : Nat) (s : State) : Nat := ((portOf n s).rx.getD c []).length
/-- The time field of the pauses this module sends, in units of 64 ns: 2,048 ns, which each refresh renews (R20, log 11). -/
def pauseTime : Nat := 32
/-- A port sends a pause flit for a class: mask in the first byte of its body, time in the two after it (R20, log 11). -/
def Port.sendPause (x : Port) (c time : Nat) : Port := x.control 1 (bytesOfNat 1 (2 ^ c) ++ bytesOfNat 2 time)
/-- Above 75 % the port pauses a class and says so; below 50 % it ends the pause with time 0. A port that is down or training sends nothing (R18). -/
def pauseAsNeeded (n : Nat) (s : State) : State :=
  if !(portOf n s).up || (portOf n s).training then s else
  modPort n (fun x => (List.range 4).foldl (fun x c =>
    let b := (x.rx.getD c []).length
    let was := x.weSent.getD c false
    if 49152 < b ∧ !was then { x with weSent := x.weSent.set c true }.sendPause c pauseTime
    else if b < 32768 ∧ was then { x with weSent := x.weSent.set c false }.sendPause c 0
    else x) x) s
/-- Handle what every port holds: replies first, then coherence, chunks, requests. -/
def drainPorts (s : State) : State :=
  forEach (List.range 8) (fun n s => pauseAsNeeded n (forEach [1, 2, 3, 0] (fun c s => drainClass n c (occupied n c s / 32 + 1) s) s)) s
/-- Frame what ports hold back, and handle what waited for it. -/
def goOnPorts (s : State) : State := drainPorts (forEach (List.range 8) pumpPort s)

/-! ## Flits (R15, R16, R20) -/

/-- Flits up to the acknowledged one leave the retry buffer, and the packets that they end. -/
def Port.acked (x : Port) (ack : Nat) : Port :=
  if x.retry.any fun f => f.seq == ack then
    let left := (x.retry.dropWhile fun f => f.seq != ack).drop 1
    { x with retry := left, queue := x.queue.filter fun k => left.any fun f => f.seq == k.2.1 }
  else x
/-- A flit that could not be read is counted where its codewords failed (R19). -/
def countFec (n : Nat) (f : Flit) (s : State) : State :=
  if f.fec then ctlSetFld (.fjErr n) 32 32 (min 0xFFFF_FFFF (ctlFld (.fjErr n) 32 32 s + 1)) s else s
/-- A flit is discarded: a nak flit names the expected seq (R16). -/
def sendNak (n : Nat) (s : State) : State := modPort n (fun x => x.control 2 (bytesOfNat 2 x.expect)) s
/-- A flit arrives at a port that passes data: one that cannot be read is discarded with a nak (R16), else its ack counts and it is acted on. -/
def flitIn (n : Nat) (f : Flit) (k : State → State) (s : State) : State :=
  let x := portOf n s
  if 8 ≤ n || !x.up || x.training then s
  else if !goodFlit f then sendNak n (countFec n f s)
  else k (modPort n (Port.acked · f.ack) s)
/-- DATA_FLIT: a data flit whose seq is not the expected one is discarded and a nak names the expected seq; so is one for which the class
buffer has no room (log 11). An idle flit brings its ack only; a retrain flit begins a retrain. -/
def execDataFlit (n : Nat) (f : Flit) (s : State) :=
  event (flitIn n f fun s =>
    if f.ty = 3 then goOnPorts s
    else if f.ty = 4 then modPort n (fun x => { x with training := true, naks := 0 }) s
    else if f.ty ≠ 0 then s
    else if f.seq ≠ (portOf n s).expect ∨ 65536 < occupied n f.tc s + f.body.length then sendNak n s
    else
      goOnPorts (modPort n (fun x =>
        let rx := x.rx.getD f.tc [] ++ f.body
        { x with expect := (x.expect + 1) % 4096, rx := x.rx.set f.tc (unpad (rx.length / 32 + 1) rx) }) s)) s
/-- The sequence number a nak flit's body names (log 11). -/
def nakOf (f : Flit) : Nat := natOfBytes (f.body.take 2) % 4096
/-- The flits of the retry buffer from one on are sent again (R16). -/
def Port.replay (x : Port) (seq : Nat) : Port := { x with out := x.out ++ x.retry.dropWhile fun f => f.seq != seq }
/-- NAK_FLIT: the sender replays from the named flit; eight consecutive naks of one seq start a retrain. -/
def execNakFlit (n : Nat) (f : Flit) (s : State) :=
  event (flitIn n f fun s =>
    let x := portOf n s
    let seq := nakOf f
    let k := if x.naks ≠ 0 ∧ x.nakSeq = seq then x.naks + 1 else 1
    let s := if x.retry.any fun f => f.seq == seq then
        modPort n (·.replay seq) (ctlSetFld (.fjErr n) 0 32 (min 0xFFFF_FFFF (ctlFld (.fjErr n) 0 32 s + 1)) s) else s
    modPort n (fun x => { (if 8 ≤ k then x.control 4 [] else x) with nakSeq := seq, naks := if 8 ≤ k then 0 else k, training := decide (8 ≤ k) }) s) s
/-- Duration of a pause time, in units of 64 ns, as ck (R1, R20). -/
def pauseCk (t : Nat) : Nat := (t * 1216 + 9) / 10
/-- Class mask and time of a pause flit's body (log 11). -/
def pauseMask (f : Flit) : BitVec 4 := (f.body.getD 0 0).setWidth 4
def pauseOf (f : Flit) : Nat := natOfBytes (sliceBytes f.body 1 2)
/-- PAUSE_FLIT: the named classes stop for the time, or go on where it is 0. -/
def execPauseFlit (n : Nat) (h : FlitHead) (body : List Byte) (s : State) :=
  let f : Flit := { h with body := body }
  event (flitIn n f fun s =>
    let until_ := if pauseOf f = 0 then 0 else s.ck + pauseCk (pauseOf f)
    goOnPorts (modPort n (fun x => { x with pausedUntil := (List.range 4).map fun c => if (pauseMask f).getLsbD c then until_ else x.pausedUntil.getD c 0 }) s)) s
/-- PAUSE_EXPIRY: the time has run out. -/
def execPauseExpiry (n c : Nat) (s : State) :=
  event (fun s =>
    let u := (portOf n s).pausedUntil.getD c 0
    if u = 0 ∨ s.ck < u then s else goOnPorts (modPort n (fun x => { x with pausedUntil := x.pausedUntil.set c 0 }) s)) s
/-- PAUSE_REFRESH: the pause is sent again while the buffer is above half full, and ended with time 0 once it is below; at exactly half R20 has
neither sent. -/
def execPauseRefresh (n c : Nat) (s : State) :=
  event (fun s =>
    let x := portOf n s
    if !x.up || x.training || !x.weSent.getD c false then s
    else if occupied n c s < 32768 then modPort n (fun x => { x with weSent := x.weSent.set c false }.sendPause c 0) s
    else if occupied n c s = 32768 then s
    else modPort n (fun x => x.sendPause c pauseTime) s) s

/-! ## Ports that fail (R16 to R19) -/

/-- The whole packets at the head of a class buffer. -/
def wholePart (bs : List Byte) : Nat → List Byte
  | 0 => []
  | fuel + 1 => match nextPacket bs with | some (_, rest) => bs.take (bs.length - rest.length) ++ wholePart rest fuel | none => []
/-- Route a packet of a failed port again; it is framed with rs = 1, ahead of what has not been sent before (R18). -/
def reroute (due : Nat) (p : Packet) (s : State) : State :=
  match routePort p.dst s with
  | none => unreachable p s
  | some n => modPort n (fun x => { x with pend := (x.pend.filter fun k => k.1 != 0) ++ [(due, { p with rs := true })] ++ x.pend.filter fun k => k.1 == 0 }) s
/-- The port goes down (R16, R18): vector 2 of PF0; its packets are routed again. -/
def portDown (n : Nat) (s : State) : State :=
  let x := portOf n s
  let s := ctlSetFld (.fjStat n) 2 1 1 s
  let s := modPort n (fun x => { x with up := false, training := false, retry := [], queue := [], pend := [], naks := 0, fails := 0, weSent := [false, false, false, false],
                                        rx := x.rx.map fun b => wholePart b (b.length / 32 + 1) }) s
  let s := sendMsix 0 2 s
  let s := forEach x.queue (fun k s => reroute (s.ck + 1000 * usCk) k.2.2 s) s
  let s := forEach (x.pend.filter fun k => k.1 != 0) (fun k s => reroute k.1 k.2 s) s
  goOnPorts (forEach (x.pend.filter fun k => k.1 == 0) (fun k s => sendPacket k.2 s) s)
/-- RETRAIN_COMPLETE: a port that trains is up, and what its retry buffer still holds is sent again (R16; that no nak need ask for it after a retrain is
the model's choice, log 11); three failures in a row take it down. The first training after reset counts too. -/
def execRetrainComplete (n : Nat) (ok : Bool) (s : State) :=
  event (fun s =>
    let x := portOf n s
    if 8 ≤ n || !(x.training || (!x.up && ctlFld (.fjStat n) 2 1 s == 0)) then s
    else if ok then goOnPorts (modPort n (fun x => { x with up := true, training := false, fails := 0, naks := 0, out := x.out ++ x.retry }) s)
    else if 3 ≤ x.fails + 1 then portDown n s
    else modPort n (fun x => { x with fails := x.fails + 1 }) s) s
/-- FAILOVER_TIMEOUT: re-routed packets still unsent 1 ms after the down bit set are answered here with status 5. -/
def execFailoverTimeout (n : Nat) (s : State) :=
  event (fun s =>
    let late (k : Nat × Packet) : Bool := k.1 != 0 && decide (k.1 ≤ s.ck)
    let out := (portOf n s).pend.filter late
    forEach out (fun k s => unreachable k.2 s) (modPort n (fun x => { x with pend := x.pend.filter fun k => !late k }) s)) s
/-- DEDUP_EXPIRY: packets accepted more than 2 ms ago are forgotten. -/
def execDedupExpiry (s : State) := event (fun s => { s with accepted := s.accepted.filter fun a => decide (s.ck ≤ a.time + 2000 * usCk) }) s
/-- A write to `ctl.fj.stat[p]`: 1 to a set down bit clears it and starts a retrain with seq and ack at 0 (R18). -/
def writeFjStat (n : Nat) (v : W64) (s : State) : State :=
  if 8 ≤ n || !bit v 2 || ctlFld (.fjStat n) 2 1 s == 0 then s
  else
    modPort n (fun x => { x with up := false, training := true, expect := 0, sent := 0, retry := [], queue := [], naks := 0, fails := 2 }) (ctlSetFld (.fjStat n) 2 1 0 s)
def execPortRetrain (n : Nat) (v : W64) (s : State) := event (writeFjStat n v) s

/-! ## The Flue (R12) -/

/-- Requests that stand on the way: caused, waiting at a line, or held at a home. -/
def onTheWay (s : State) : List Req :=
  (s.agenda.filterMap fun i => match i with | .rd r | .wr r | .atom r | .ember r => some r | .wback w => some w.req | _ => none) ++ s.lines.flatMap (·.waiting) ++ s.homes.flatMap fun h => h.2.held
/-- Every request that needs a failed link completes with a poisoned reply: those on the way, those sent, and those outstanding at the host
or at another module, the host's and the peers' among them; an agent that tries again finds the link failed. -/
def poisonCut (s : State) : State :=
  let cut := (onTheWay s).filter fun r => flueCut r s && !r.isSync
  let far := s.links.filter fun l => match l.kind with
    | .qnLaunch _ => (fluePath (dieOf l.req.core s) (portDie l.addr s)).any s.flueDown.contains
    | .backInv => l.req.agent != .host && (fluePath (vaOf l.req.ptr / 2 ^ 14 % 4) 4).any s.flueDown.contains
    | _ => flueCut l.req s
  let sent := (s.lsu.filter fun e => e.phase == .sent && flueCut e.req s
    && !(cut.any fun r => r.id == e.id && r.agent == e.req.agent) && !(far.any fun l => l.req.id == e.id && l.req.agent == e.req.agent)).map (·.req)
  let off (r : Req) : Bool := cut.contains r
  let s := { s with
    agenda := s.agenda.filter fun i => match i with | .rd r | .wr r | .atom r | .ember r => !off r | .wback w => !off w.req | _ => true
    lines := s.lines.map fun l => { l with waiting := l.waiting.filter fun r => !off r }
    homes := s.homes.map fun h => (h.1, { h.2 with held := h.2.held.filter fun r => !off r }) }
  let s := forEach (cut ++ sent) (fun r s => deliver r (.nack { req := r, status := 4 }) s) s
  forEach far (fun l s => match l.kind with
    | .remote _ | .qnLaunch _ => refuseLink l 4 s
    | _ =>
      let s := { s with links := s.links.filter fun x => x.id != l.id }
      if l.kind == .own || l.req.isSync then
        match lineAt (lineVa (vaOf l.req.ptr)) (keyOf l.req.ptr) s with
        | some ln => if ln.st == .held then setLine { ln with st := .shared, present := false } s else s
        | none => s
      else deliver l.req (.nack { req := l.req, status := 4 }) s) s
/-- FLUE_LINK_FAILURE: the module is fatal until it is reset. -/
def execFlueLinkFailure (l : Nat) (s : State) :=
  event (fun s => if 10 ≤ l then s else poisonCut (raiseFatal { s with cond := .fatal, flueDown := s.flueDown ++ [l] })) s

end Sys2Proof.Machine
end

