-- ==== Sys2Proof/Machine/Masks.lean ====
section
/-! DEFINITION. Major 0x15, masks and flag sets (R298 to R303). -/

namespace Sys2Proof.Machine

/-- A write of a mask register under its enclosing mask: the check byte is 0x5A when it is a subset (R120). -/
def escapes (m enclosing : Mask) : Bool := m &&& ~~~enclosing != 0
/-- A mask result whose enclosing mask is the whole team: lanes at and above W are never set (R298). -/
def maskOp (i : Instr) (d : KReg) (f : Team → Mask) : State → Host.Outcome State Fault Refusal :=
  word i fun s => .done (modCur (fun t => t.sk d (f t &&& fullMask t.width)) s)
/-- A scalar result of a mask instruction. -/
def maskToScalar (i : Instr) (d : Reg) (f : Team → W64) : State → Host.Outcome State Fault Refusal :=
  word i fun s => .done (modCur (fun t => t.ss d (f t)) s)

def execKmov (d : KReg) (a : KF) (s : State) := maskOp (.kmov d a) d (fun t => t.gkf a) s
def execKand (d : KReg) (a b : KF) (s : State) := maskOp (.kand d a b) d (fun t => t.gkf a &&& t.gkf b) s
def execKor (d : KReg) (a b : KF) (s : State) := maskOp (.kor d a b) d (fun t => t.gkf a ||| t.gkf b) s
def execKxor (d : KReg) (a b : KF) (s : State) := maskOp (.kxor d a b) d (fun t => t.gkf a ^^^ t.gkf b) s
def execKandn (d : KReg) (a b : KF) (s : State) := maskOp (.kandn d a b) d (fun t => t.gkf a &&& ~~~t.gkf b) s
def execKnot (d : KReg) (a : KF) (s : State) := maskOp (.knot d a) d (fun t => ~~~t.gkf a) s
def execKpopc (d : Reg) (a : KF) (s : State) := maskToScalar (.kpopc d a) d (fun t => w64 (popCount (t.gkf a).toNat 1024)) s
/-- Lowest set lane, all ones when none is set (R300). -/
def execKffs (d : Reg) (a : KF) (s : State) :=
  maskToScalar (.kffs d a) d (fun t => if t.gkf a = 0 then BitVec.allOnes 64 else w64 (trailZeros (t.gkf a).toNat 1024)) s
/-- Word i, 0 beyond the team's words (R300). -/
def execKwrd (d : Reg) (a : KF) (b : Reg) (tb : Bool) (s : State) :=
  maskToScalar (.kwrd d a b tb) d (fun t =>
    let i := (t.gs b).toNat
    if i < t.width / 32 then (maskWord (t.gkf a) i).setWidth 64 else 0) s
def execKwwr (d : KReg) (a b : Reg) (ta tb : Bool) (s : State) :=
  maskOp (.kwwr d a b ta tb) d (fun t =>
    let i := (t.gs b).toNat
    if i < t.width / 32 then setMaskWord (t.gk d) i ((t.gs a).setWidth 32) else t.gk d) s
/-- `kif kN, kC` (R301): the condition is read before kN is written. -/
def execKif (d a : KReg) (s : State) :=
  word (.kif d a) (fun s =>
    let old := s.cur.gk 0
    let c := s.cur.gk a
    .done (modCur (fun t => (t.sk d old).sk 0 (old &&& c)) s)) s
/-- `kelse kN` (R301): both masks are checked against the old kN. -/
def execKelse (d : KReg) (s : State) :=
  word (.kelse d) (fun s =>
    let t0 := s.cur.gk 0
    let sv := s.cur.gk d
    .done (modCur (fun t => (t.sk 0 (sv &&& ~~~t0)).sk d t0) s) (escapes t0 sv)) s
/-- `kjoin kN` (R301). -/
def execKjoin (a : KReg) (s : State) :=
  word (.kjoin a) (fun s => .done (modCur (fun t => t.sk 0 (t.gk 0 ||| t.gk a)) s)) s
def execKvoteAny (d : Reg) (a : KF) (s : State) := maskToScalar (.kvoteAny d a) d (fun t => w64 (nb (t.gkf a &&& t.gk 0 != 0))) s
def execKvoteAll (d : Reg) (a : KF) (s : State) := maskToScalar (.kvoteAll d a) d (fun t => w64 (nb (t.gkf a &&& t.gk 0 == t.gk 0))) s
def execKflag (d : KReg) (a : Fin 5) (s : State) := maskOp (.kflag d a) d (fun t => t.flags.get a &&& t.gk 0) s
/-- Word i of the flag set under word i of k0, and the flag set's summary word (R303). -/
def execFlrd (d : Reg) (a : Fin 5) (b : Reg) (tb : Bool) (s : State) :=
  maskToScalar (.flrd d a b tb) d (fun t =>
    let i := (t.gs b).toNat
    let lo := if i < t.width / 32 then (maskWord (t.flags.get a) i &&& maskWord (t.gk 0) i).toNat else 0
    w64 (lo + (maskSummary t.width (t.flags.get a)).toNat * 2 ^ 32)) s
/-- Clear active lanes of one flag set, or of all five (R303). -/
def clearFlags (f : Flags) (k0 : Mask) : Option (Fin 5) → Flags
  | some a => f.put a (f.get a &&& ~~~k0)
  | none => { nv := f.nv &&& ~~~k0, dz := f.dz &&& ~~~k0, of := f.of &&& ~~~k0, uf := f.uf &&& ~~~k0, nx := f.nx &&& ~~~k0 }
def execFlclr (a : Option (Fin 5)) (s : State) :=
  word (.flclr a) (fun s => .done (modCur (fun t => { t with flags := clearFlags t.flags (t.gk 0) a }) s)) s

end Sys2Proof.Machine
end

