-- ==== Sys2Proof/Machine/Mem.lean ====
section
/-! DEFINITION. Majors 0x2C to 0x36: loads, stores, scratchpad, atomics, condition monitors (R330 to R348). -/

namespace Sys2Proof.Machine

/-! ## Accesses of each form (R330, R338, R339) -/

/-- Element width in bytes. -/
def szBytes : Sz → Nat | .b8 => 1 | .b16 => 2 | .b32 => 4 | .b64 => 8
/-- Width in bytes of an atomic's location: 8 for the 64-bit scalar forms (R343). -/
def atomBytes (scalar : Bool) : AtomOp → Nat
  | .faddF32 | .addB32 | .xchgB32 => 4
  | .faddF16 | .faddBf16 => 2
  | _ => if scalar then 8 else 4
/-- Data of a lane at a width. -/
def Team.laneData (t : Team) (d : Reg) (z : Sz) (l : Nat) : Nat := if z == .b64 then (t.lane64 d l).toNat else (t.lane d l).toNat
/-- Accesses of `vld` and `vst` (R338). -/
def vecAccs (t : Team) (d a b : Reg) (z : Sz) : List Acc :=
  t.active.map fun l => { lane := l, ptr := t.lanePtr a b l, size := szBytes z, data := t.laneData d z l }
/-- Accesses of a block (R339): the base is checked by its lanes, each 4 bytes. -/
def blockAccs (t : Team) (d a b : Reg) : List Acc :=
  t.active.map fun l => { lane := l, ptr := t.scalarPtr a b + w64 (4 * l), size := 4, data := (t.lane d l).toNat }
/-- The access of `sld` and `sst` (R337). -/
def scalarAcc (t : Team) (d a b : Reg) (z : Sz) : List Acc :=
  [{ lane := 0, ptr := t.scalarPtr a b, size := szBytes z, data := (t.gs d).toNat }]
/-- Destination of a vector load. -/
def vecDest (d : Reg) (z : Sz) : Dest := if d = 0 then .none else if z == .b64 then .vPair d else .v d

/-! ## Global loads and stores -/

def execSld (d a b : Reg) (ta tb : Bool) (z : Sz) (o : Ord) (sc : Scope) (s : State) :=
  word (.sld d a b ta tb z o sc) (fun s => issueAccess (.sld d a b ta tb z o sc) false .load .read 1 (.s d) o sc (scalarAcc s.cur d a b z) s) s
def execSst (d a b : Reg) (ta tb : Bool) (z : Sz) (o : Ord) (sc : Scope) (s : State) :=
  word (.sst d a b ta tb z o sc) (fun s => issueAccess (.sst d a b ta tb z o sc) false .store .write 2 .none o sc (scalarAcc s.cur d a b z) s) s
def execVld (d a b : Reg) (ta tb : Bool) (z : Sz) (o : Ord) (sc : Scope) (s : State) :=
  word (.vld d a b ta tb z o sc) (fun s => issueAccess (.vld d a b ta tb z o sc) true .load .read 1 (vecDest d z) o sc (vecAccs s.cur d a b z) s) s
def execVst (d a b : Reg) (ta tb : Bool) (z : Sz) (o : Ord) (sc : Scope) (s : State) :=
  word (.vst d a b ta tb z o sc) (fun s => issueAccess (.vst d a b ta tb z o sc) true .store .write 2 .none o sc (vecAccs s.cur d a b z) s) s
def execVldb (d a b : Reg) (ta tb : Bool) (o : Ord) (sc : Scope) (s : State) :=
  word (.vldb d a b ta tb o sc) (fun s => issueAccess (.vldb d a b ta tb o sc) true .load .read 1 (.v d) o sc (blockAccs s.cur d a b) s) s
def execVstb (d a b : Reg) (ta tb : Bool) (o : Ord) (sc : Scope) (s : State) :=
  word (.vstb d a b ta tb o sc) (fun s => issueAccess (.vstb d a b ta tb o sc) true .store .write 2 .none o sc (blockAccs s.cur d a b) s) s

/-! ## Scratchpad (R341, R342) -/

/-- A scratchpad access of the team in focus may not be performed yet: others of the team wait before it, or an acquire holds it (R114, R168). -/
def spWaits (o : Ord) (store : Bool) (s : State) : Bool :=
  let t := s.cur
  (t.spq.any fun b => !t.handler || b.inh) || spHolds t none t.handler store o s
def spRelease (w : Workgroup) (s : State) : Bool × State := spReleaseOf s.cur w s
/-- The access waits at the core, and the team issues on (R334). -/
def spHold (o : Ord) (store : Bool) (d : Reg) (pair : Bool) (accs : List Acc) (s : State) : State :=
  if accs.isEmpty then s
  else
    let (id, s) := fresh s
    modCur (fun t => { t with spq := t.spq ++ [{ id := id, store := store, ord := o, dst := d, pair := pair, inh := t.handler, accs := accs }] }) s
/-- The tests before a scratchpad access, then its effect on the workgroup's share. -/
def spAccess (o : Ord) (store : Bool) (d : Reg) (pair : Bool) (accs : List Acc) (f : Workgroup → State → State) (s : State) : Eff :=
  let t := s.cur
  let w := (wgOf t.wg s).getD {}
  let mis := accs.filter fun a => a.ptr.toNat % a.size != 0
  let out := accs.filter fun a => decide (w.share < a.ptr.toNat + a.size)
  if !mis.isEmpty then .trap 0x05 (maskOfLanes (mis.map (·.lane))) 0
  else if !out.isEmpty then .trap 0x09 (maskOfLanes (out.map (·.lane))) (w64 (2 ^ 63))
  else if spWaits o store s then .done (spHold o store d pair accs s)
  else if store && (o == .rel || o == .ar) then (match spRelease w s with | (true, s) => .done (f w s) | (false, s) => .stay s)
  else if !store && (o == .acq || o == .ar) && w.wide then .done (bumpVersion true t.core (f w s))
  else .done (f w s)
/-- A scratchpad load: interlocked (R341). -/
def spLoad (d : Reg) (pair : Bool) (accs : List Acc) (w : Workgroup) (s : State) : State := if accs.isEmpty then s else modCur (Team.spFill d pair accs w) s
def execXld (d a b : Reg) (ta tb : Bool) (z : Sz) (o : Ord) (sc : Scope) (s : State) :=
  word (.xld d a b ta tb z o sc) (fun s => spAccess o false d (z == .b64) (vecAccs s.cur d a b z) (spLoad d (z == .b64) (vecAccs s.cur d a b z)) s) s
def execXst (d a b : Reg) (ta tb : Bool) (z : Sz) (o : Ord) (sc : Scope) (s : State) :=
  word (.xst d a b ta tb z o sc) (fun s => spAccess o true d (z == .b64) (vecAccs s.cur d a b z) (spStore (vecAccs s.cur d a b z)) s) s
def execXldb (d a b : Reg) (ta tb : Bool) (o : Ord) (sc : Scope) (s : State) :=
  word (.xldb d a b ta tb o sc) (fun s => spAccess o false d false (blockAccs s.cur d a b) (spLoad d false (blockAccs s.cur d a b)) s) s
def execXstb (d a b : Reg) (ta tb : Bool) (o : Ord) (sc : Scope) (s : State) :=
  word (.xstb d a b ta tb o sc) (fun s => spAccess o true d false (blockAccs s.cur d a b) (spStore (blockAccs s.cur d a b)) s) s

/-! ## Atomics (R343 to R345) -/

def execSatom (p : AtomOp) (d a b : Reg) (o : Ord) (sc : Scope) (s : State) :=
  word (.satom p d a b o sc) (fun s => issueAccess (.satom p d a b o sc) false .atomic (.atom p) 3 (.s d) o sc
    [{ lane := 0, ptr := s.cur.gs a + offOf s.cur, size := atomBytes true p, data := (s.cur.gs b).toNat }] s) s
/-- The pointer of a lane of a pair of pointer registers (R330). -/
def Team.pairPtr (t : Team) (a : Reg) (l : Nat) : W64 := t.lane64 a l + offOf t
def execVatom (p : AtomOp) (d a b : Reg) (o : Ord) (sc : Scope) (s : State) :=
  word (.vatom p d a b o sc) (fun s => issueAccess (.vatom p d a b o sc) true .atomic (.atom p) 3 (.v d) o sc
    (s.cur.active.map fun l => { lane := l, ptr := s.cur.pairPtr a l, size := atomBytes false p, data := (s.cur.lane b l).toNat }) s) s
def execScas (w : Bool) (d a b : Reg) (o : Ord) (sc : Scope) (s : State) :=
  word (.scas w d a b o sc) (fun s => issueAccess (.scas w d a b o sc) false .atomic .cas 3 (.s d) o sc
    [{ lane := 0, ptr := s.cur.gs a + offOf s.cur, size := if w then 8 else 4, data := (s.cur.gs d).toNat, data2 := (s.cur.gs b).toNat }] s) s
/-- The 128 bits of a scalar pair, low half in the even register (R345). -/
def Team.pairVal (t : Team) (r : Reg) : Nat := (t.gs r).toNat + (t.gs (regNext r)).toNat * 2 ^ 64
def execScas2 (d a b : Reg) (o : Ord) (sc : Scope) (s : State) :=
  word (.scas2 d a b o sc) (fun s => issueAccess (.scas2 d a b o sc) false .atomic .cas 3 (.sPair d) o sc
    [{ lane := 0, ptr := s.cur.gs a + offOf s.cur, size := 16, data := s.cur.pairVal d, data2 := s.cur.pairVal b }] s) s
def execVcas (d a b : Reg) (o : Ord) (sc : Scope) (s : State) :=
  word (.vcas d a b o sc) (fun s => issueAccess (.vcas d a b o sc) true .atomic .cas 3 (.v d) o sc
    (s.cur.active.map fun l => { lane := l, ptr := s.cur.pairPtr a l, size := 4, data := (s.cur.lane d l).toNat, data2 := (s.cur.lane b l).toNat }) s) s

/-! ## Condition monitors (R347) -/

/-- `waitc`: its arming read; a `.rel` field acts as `.rlx`. -/
def waitcBody (i : Instr) (c : WCond) (w : Nat) (d a b : Reg) (o : Ord) (sc : Scope) (s : State) : Eff :=
  issueAccess i false .waitc (.monitor c) 1 (.s d) o sc
    [{ lane := 0, ptr := s.cur.gs a + offOf s.cur, size := w, data := (s.cur.gs b).toNat % 2 ^ (8 * w) }] s
def execWaitc64 (c : WCond) (d a b : Reg) (o : Ord) (sc : Scope) (s : State) :=
  word (.waitc64 c d a b o sc) (waitcBody (.waitc64 c d a b o sc) c 8 d a b o sc) s
def execWaitc32 (c : WCond) (d a b : Reg) (o : Ord) (sc : Scope) (s : State) :=
  word (.waitc32 c d a b o sc) (waitcBody (.waitc32 c d a b o sc) c 4 d a b o sc) s

end Sys2Proof.Machine
end

