-- ==== Sys2Proof/Machine/Power.lean ====
section
/-! DEFINITION. Power and temperature (R26 to R28), secure boot, measurements and attestation (R29 to R31), module reset. -/

namespace Sys2Proof.Machine

/-! ## Throttling (R27, R28) -/

/-- The power cap in W (R26). -/
def powerCap (s : State) : Nat := min 2000 (max 800 (ctlFld .pwrCap 0 12 s))
/-- Temperatures that halt issue and that remove power. -/
def haltTemp : Nat := 105
def offTemp : Nat := 110
/-- What the controller does at a die's temperature: from 105 °C all issue halts and the thermal interrupt is raised, from 110 °C the
module has no power. -/
def heed (temp : Nat) (s : State) : State :=
  if offTemp ≤ temp then { s with cond := .unpowered }
  else if haltTemp ≤ temp ∧ s.power.halted = false then sendMsix 0 1 { s with power := { s.power with halted := true, sticky := true } }
  else s
/-- A die's reading is noted. -/
def noteTemp (d temp : Nat) (s : State) : State := { s with power := { s.power with temps := s.power.temps.set d temp } }
/-- Core cycles of a step of the controller: 10 µs. -/
def stepCk : Nat := 10 * usCk
/-- The controller has moved a die's level less than 10 µs ago. -/
def steppedLately (d : Nat) (s : State) : Bool := s.power.last.any fun x => x.1 == d && decide (s.ck < x.2 + stepCk)
/-- THROTTLE_STEP: one step up while a cause stands, one down when none does, every 10 µs. An I/O die has no core to gate. -/
def execThrottleStep (d : Nat) (r : DieReading) (s : State) :=
  event (fun s =>
    if 4 ≤ d || steppedLately d s then heed r.temp (noteTemp d r.temp s)
    else
      let p := decide (powerCap s * 1000 < 4 * r.powerMw + r.ioPowerMw)
      let t := decide (95 < r.temp)
      let lv := s.power.level.getD d 0
      let s := noteTemp d r.temp { s with power := { s.power with
        level := s.power.level.set d (if p || t then min 7 (lv + 1) else lv - 1), why := s.power.why.set d (nb p + nb t * 2)
        last := alSet d s.ck s.power.last } }
      heed r.temp s) s
/-- THERMAL_HALT. -/
def execThermalHalt (d temp : Nat) (s : State) := event (fun s => if decide (temp < haltTemp) then s else heed temp (noteTemp d temp s)) s
/-- POWER_REMOVAL. -/
def execPowerRemoval (d temp : Nat) (s : State) := event (fun s => if decide (temp < offTemp) then s else heed temp (noteTemp d temp s)) s
/-- A write to `ctl.therm`: 1 to halted clears it; issue goes on where no sensor stands at 105 °C (log 27). -/
def writeTherm (v : W64) (s : State) : State :=
  if bit v 6 then { s with power := { s.power with sticky := false, halted := s.power.halted && decide (haltTemp ≤ maxOf s.power.temps) } } else s

/-! ## Boot and measurements (R29, R30) -/

/-- A digest's bytes, as the registers hold it (log 7). -/
def digestBytes (d : BitVec 256) : List Byte := bytesOfNat 32 d.toNat
/-- Extend a measurement register. -/
def extendMeas (i : Nat) (image : List Byte) (ms : List (BitVec 256)) : List (BitVec 256) :=
  ms.set i (Config.sm3 (digestBytes (ms.getD i 0) ++ digestBytes (Config.sm3 image)))
/-- The image passes the boot ROM's checks (R29). -/
def imageOk (m : Image) : Bool :=
  Config.sm3 m.rootKey == Config.fusedKeyDigest && Config.sm2Verify m.rootKey (Config.sm3 m.bytes) m.signature && decide (Config.fusedVersion.toNat ≤ m.version.toNat)
/-- The images before the first that fails, in order. -/
def bootable (ms : List Image) : List Image := ms.takeWhile imageOk
/-- The module after reset and boot: every register at its reset value, the fuses as they are, the images that ran measured; recovery
mode where one failed. What has left the module stands. -/
def rebooted (images : List Image) (s : State) : State :=
  let ok := bootable images
  let ms := extendMeas 3 Config.fuseBytes (List.replicate 8 0)
  let meas := ok.zipIdx.foldl (fun ms x => extendMeas x.2 x.1.bytes ms) ms
  { State.reset with
    ctl := (List.range 4).map fun d => (CtlReg.harvest d, ctlRaw (.harvest d) s)
    cond := if ok.length = images.length then .running else .recovery
    meas := meas, fw := (List.range 3).map fun i => ((ok[i]?).map (·.version)).getD 0
    free := s.free, hostOut := s.hostOut, msixSent := s.msixSent, reports := s.reports }
/-- MODULE_RESET. -/
def execModuleReset (boot device home : Image) (s : State) : Host.Outcome State Fault Refusal := .next (rebooted [boot, device, home] s)
/-- MEAS_EXTEND: the host extends meas[4] to meas[7]. -/
def execMeasExtend (i : Nat) (image : List Byte) (s : State) :=
  event (fun s => if 4 ≤ i ∧ i < 8 then { s with meas := extendMeas i image s.meas } else s) s

/-! ## Attestation (R31) -/

/-- Bytes 0x000 to 0x1BF of the report. The tenant table is hashed as 64 entries of 8 little-endian bytes in order of q: the model's choice
(log 77). -/
def reportBody (nonce : BitVec 256) (s : State) : List Byte :=
  bytesOfNat 4 0x4158_4E36 ++ bytesOfNat 2 1 ++ bytesOfNat 2 (nb Config.debugEnabled + nb (s.cond == .recovery) * 2) ++ bytesOfNat 16 Config.serial.toNat
    ++ bytesOfNat 8 Config.fusedVersion.toNat ++ digestBytes nonce ++ bytesOfNat 8 Config.romVersion.toNat ++ (List.range 3).flatMap (fun i => bytesOfNat 8 (s.fw.getD i 0).toNat)
    ++ (List.range 8).flatMap (fun i => digestBytes (s.meas.getD i 0)) ++ (List.range 4).flatMap (fun d => bytesOfNat 8 (ctlRaw (.harvest d) s).toNat)
    ++ digestBytes (Config.sm3 ((List.range 64).flatMap fun q => bytesOfNat 8 (ctlRaw (.fjTenant q) s).toNat)) ++ List.replicate 32 0
/-- The 512-byte report. -/
def attestation (nonce : BitVec 256) (s : State) : List Byte :=
  let body := reportBody nonce s
  let (r, x) := Config.sm2Sign (Config.sm3 body)
  body ++ digestBytes r ++ digestBytes x
/-- ATTESTATION_REPORT; the management function's recovery interface answers it too. -/
def execAttestationReport (nonce : BitVec 256) (s : State) : Host.Outcome State Fault Refusal := .next { s with reports := s.reports ++ [attestation nonce s] }

end Sys2Proof.Machine
end

