-- ==== Sys2Proof/Machine/Regs.lean ====
section
/-! DEFINITION. Writes of the host management function to control registers (R4, R5, R33). -/

namespace Sys2Proof.Machine

/-- Registers that no write of the host reaches: those that are RO, that belong to a team, or that only their partition writes. -/
def hostReadOnly : CtlReg → Bool
  | .harvest _ | .ncores | .coremap _ | .feat _ | .cap _ | .bankPend _ | .homeFlt _ _ _ | .emuPend _ => true
  | .split _ | .sigpol _ | .lfeVfail _ | .msixPba _ _ => true
  | .mflag | .lflag | .efault _ | .efbatch _ => true
  | .trCause | .trIpc | .trPc | .trWord | .trInfo | .trSig | .trImm | .trHint | .trS _ | .trK0 _ => true
  | _ => false
/-- A partition's lines keep to its limits in every core and slice (R59, R60). -/
def trimAll (q : Nat) (s : State) : State :=
  forEach (List.range 64) (fun sl s => evictSlice q sl s) (forEach (s.cores.map (·.1)) (fun n s => trimPart n q s) s)
/-- A write under the access types of a register, and what follows it (R4, R58). -/
def writePlain (r : CtlReg) (v : W64) (s : State) : State :=
  let s := ctlPut r (ctlMerge r (ctlRaw r s) v) s
  match r with
  | .partLim q => lookClusters (causeOnce (.dealPass q) (trimAll q s))
  | _ => s
/-- A write of the host to any control register, or of a physical function's driver to its MSI-X table in BAR0 (R33). -/
def hostWrite (r : CtlReg) (v : W64) (s : State) : State :=
  match r with
  | .therm => writeTherm v s
  | .pwrCap => ctlPut .pwrCap (w64 (min 2000 (max 800 (fld v 0 12)))) s
  | .fjStat p => writeFjStat p v s
  | .qifCfg i => writeQifCfg i v s
  | .qifSt i => if bit v 20 then modQif i (fun x => { x with err := false, ecode := 0 }) s else s
  | .qifRst i => writeQifRst i v s
  | .irqMap q e => writeIrqMap q e v s
  | .biasCmd => biasWrite v s
  | .partCfg q => writePartCfg q v s
  | .partSave q => writePartSave q v s
  | .partCsave q => writePartCsave q v s
  | .partQos q => writePartQos q v s
  | .partWdog q =>
    let s := writePlain r v s
    if fld v 33 2 = 1 then wdogResumeAll q s else if fld v 33 2 = 2 then wdogKillAll q s else s
  | .lvalVerdict => writeVerdict v s
  | .bankCmd => writeBankCmd v s
  | .ptErr => if bit v 0 then ctlPut .ptErr 0 s else s
  | .ptCmd => ptWrite v s
  | .homeOvf h => clearHomeOvf h v s
  | .homeFcmd h => fcmd h v s
  | .hotBase q => writeHotBase q v s
  | .time => { s with time := v }
  | .msix pf v' w => writeMsix pf v' w v s
  | .emuReg q n => withEmulated q (fun t s => modTeam t.id (emuPut n v) s) s
  | .emuCmd q => if fld v 0 2 = 1 then emuReturn q s else if fld v 0 2 = 2 then emuKillNow q s else s
  | r => if hostReadOnly r then s else writePlain r v s
/-- REGISTER_WRITE. -/
def execRegisterWrite (r : CtlReg) (v : W64) (s : State) := event (hostWrite r v) s

end Sys2Proof.Machine
end

