-- ==== Sys2Proof/Machine/VecFloat.lean ====
section
/-! DEFINITION. Majors 0x20 to 0x23: floating-point vector instructions (R316 to R324). -/

namespace Sys2Proof.Machine

/-- The element pattern of a lane at a format's width (R304). -/
def Team.elem (t : Team) (p : FFmt) (r : Reg) (l : Nat) : Nat := (t.lane r l).toNat % 2 ^ (fmtOf p).bits
/-- `in(x)` of a lane (R316). -/
def Team.elemIn (t : Team) (p : FFmt) (r : Reg) (l : Nat) : Val := (fmtOf p).readIn t.ftz (t.elem p r l)
/-- Two operands read under ftz, one rounding (R317). -/
def fp2 (i : Instr) (p : FFmt) (d a b : Reg) (g : Fmt → RMode → Bool → Val → Val → Nat × FX) : State → Host.Outcome State Fault Refusal :=
  fpOp i d fun t l => g (fmtOf p) t.rmode t.ftz (t.elemIn p a l) (t.elemIn p b l)
/-- One operand read under ftz (R322). -/
def fp1 (i : Instr) (p : FFmt) (d a : Reg) (g : Fmt → RMode → Bool → Val → Nat × FX) : State → Host.Outcome State Fault Refusal :=
  fpOp i d fun t l => g (fmtOf p) t.rmode t.ftz (t.elemIn p a l)

def execVfadd (p : FFmt) (d a b : Reg) (ta tb : Bool) (s : State) := fp2 (.vfadd p d a b ta tb) p d a b Fmt.add s
def execVfsub (p : FFmt) (d a b : Reg) (ta tb : Bool) (s : State) :=
  fp2 (.vfsub p d a b ta tb) p d a b (fun f rm z x y => f.add rm z x y.neg) s
def execVfmul (p : FFmt) (d a b : Reg) (ta tb : Bool) (s : State) := fp2 (.vfmul p d a b ta tb) p d a b Fmt.mul s
def execVffma (p : FFmt) (d a b : Reg) (ta tb : Bool) (s : State) :=
  fpOp (.vffma p d a b ta tb) d (fun t l => (fmtOf p).fma t.rmode t.ftz (t.elemIn p a l) (t.elemIn p b l) (t.elemIn p d l)) s
def execVfmin (p : FFmt) (d a b : Reg) (ta tb : Bool) (s : State) :=
  fpOp (.vfmin p d a b ta tb) d (fun t l => (fmtOf p).minmax false (t.elem p a l) (t.elem p b l)) s
def execVfmax (p : FFmt) (d a b : Reg) (ta tb : Bool) (s : State) :=
  fpOp (.vfmax p d a b ta tb) d (fun t l => (fmtOf p).minmax true (t.elem p a l) (t.elem p b l)) s
/-- A's bits with another sign (R319). -/
def withSign (f : Fmt) (x : Nat) (neg : Bool) : Nat := f.signed neg (x % 2 ^ (f.F + f.E))
/-- Sign bit of a pattern. -/
def signOf (f : Fmt) (x : Nat) : Bool := x.testBit (f.F + f.E)
def execVfsgn (p : FFmt) (d a b : Reg) (ta tb : Bool) (s : State) :=
  fpOp (.vfsgn p d a b ta tb) d (fun t l => (withSign (fmtOf p) (t.elem p a l) (signOf (fmtOf p) (t.elem p b l)), {})) s
def execVfsgnNeg (p : FFmt) (d a b : Reg) (ta tb : Bool) (s : State) :=
  fpOp (.vfsgnNeg p d a b ta tb) d (fun t l => (withSign (fmtOf p) (t.elem p a l) (!signOf (fmtOf p) (t.elem p b l)), {})) s
def execVfsgnXor (p : FFmt) (d a b : Reg) (ta tb : Bool) (s : State) :=
  fpOp (.vfsgnXor p d a b ta tb) d (fun t l =>
    (withSign (fmtOf p) (t.elem p a l) (signOf (fmtOf p) (t.elem p a l) != signOf (fmtOf p) (t.elem p b l)), {})) s
def execVfclass (p : FFmt) (d a : Reg) (ta : Bool) (s : State) :=
  fpOp (.vfclass p d a ta) d (fun t l => ((fmtOf p).classify (t.elem p a l), {})) s
def execVfround (p : FFmt) (d a : Reg) (ta : Bool) (s : State) :=
  fpOp (.vfround p d a ta) d (fun t l => (fmtOf p).roundInt t.rmode t.ftz (t.elem p a l)) s
def execVfrcp (p : FFmt) (d a : Reg) (ta : Bool) (s : State) := fp1 (.vfrcp p d a ta) p d a Fmt.rcp s
def execVfrsqrt (p : FFmt) (d a : Reg) (ta : Bool) (s : State) := fp1 (.vfrsqrt p d a ta) p d a Fmt.rsqrt s
def execVfsqrt (p : FFmt) (d a : Reg) (ta : Bool) (s : State) := fp1 (.vfsqrt p d a ta) p d a Fmt.sqrt s
def execVfdiv (p : FFmt) (d a b : Reg) (ta tb : Bool) (s : State) := fp2 (.vfdiv p d a b ta tb) p d a b Fmt.div s
def execVfexp2 (p : FFmt) (d a : Reg) (ta : Bool) (s : State) := fp1 (.vfexp2 p d a ta) p d a Fmt.exp2 s
def execVflog2 (p : FFmt) (d a : Reg) (ta : Bool) (s : State) := fp1 (.vflog2 p d a ta) p d a Fmt.log2 s
def execVfsinp (p : FFmt) (d a : Reg) (ta : Bool) (s : State) := fp1 (.vfsinp p d a ta) p d a Fmt.sinp s
def execVfcosp (p : FFmt) (d a : Reg) (ta : Bool) (s : State) := fp1 (.vfcosp p d a ta) p d a Fmt.cosp s
/-- A comparison writes kD as R312 gives and raises nv (R323). -/
def execVfcmp (c : FCmp) (p : FFmt) (d : KReg) (a b : Reg) (ta tb : Bool) (s : State) :=
  word (.vfcmp c p d a b ta tb) (fun s => .done (modCur (fun t =>
    let r := (List.range t.width).map fun l => if t.act l then some ((fmtOf p).cmp c (t.elem p a l) (t.elem p b l)) else none
    (t.putCmp d fun l => match r.getD l none with | some x => x.1 | none => false).raise (r.map fun x => x.map (·.2))) s)) s
/-- A conversion to an integer ignores ftz (R224). -/
def cvtFtz (dst : FType) (ftz : Bool) : Bool := ftz && dst != .i32 && dst != .n32
/-- A conversion (R324): the input is read, and the result delivered, under the rules of R224 and R229. -/
def execVfcvt (dst src : FType) (d a : Reg) (ta : Bool) (s : State) :=
  fpOp (.vfcvt dst src d a ta) d (fun t l =>
    ftypeWrite dst t.rmode t.ftz t.sat (ftypeRead src (cvtFtz dst t.ftz) (t.lane a l).toNat)) s

end Sys2Proof.Machine
end

