-- ==== Sys2Proof/Machine/Dispatch.lean ====
section
/-! DEFINITION. The dispatcher: one arm per constructor of `Instr`, each a direct call of that instruction's meaning. -/

namespace Sys2Proof.Machine

def exec (i : Instr) (s : State) : Host.Outcome State Fault Refusal :=
  match i with
  | .sadd d a b ta tb => Sys2Proof.Machine.execSadd d a b ta tb s
  | .ssub d a b ta tb => Sys2Proof.Machine.execSsub d a b ta tb s
  | .smul d a b ta tb => Sys2Proof.Machine.execSmul d a b ta tb s
  | .smulhI64 d a b ta tb => Sys2Proof.Machine.execSmulhI64 d a b ta tb s
  | .smulhN64 d a b ta tb => Sys2Proof.Machine.execSmulhN64 d a b ta tb s
  | .sdivI64 d a b ta tb => Sys2Proof.Machine.execSdivI64 d a b ta tb s
  | .sdivN64 d a b ta tb => Sys2Proof.Machine.execSdivN64 d a b ta tb s
  | .sremI64 d a b ta tb => Sys2Proof.Machine.execSremI64 d a b ta tb s
  | .sremN64 d a b ta tb => Sys2Proof.Machine.execSremN64 d a b ta tb s
  | .sand d a b ta tb => Sys2Proof.Machine.execSand d a b ta tb s
  | .sor d a b ta tb => Sys2Proof.Machine.execSor d a b ta tb s
  | .sxor d a b ta tb => Sys2Proof.Machine.execSxor d a b ta tb s
  | .sandn d a b ta tb => Sys2Proof.Machine.execSandn d a b ta tb s
  | .sshl d a b ta tb => Sys2Proof.Machine.execSshl d a b ta tb s
  | .sshr d a b ta tb => Sys2Proof.Machine.execSshr d a b ta tb s
  | .ssra d a b ta tb => Sys2Proof.Machine.execSsra d a b ta tb s
  | .sminI64 d a b ta tb => Sys2Proof.Machine.execSminI64 d a b ta tb s
  | .sminN64 d a b ta tb => Sys2Proof.Machine.execSminN64 d a b ta tb s
  | .smaxI64 d a b ta tb => Sys2Proof.Machine.execSmaxI64 d a b ta tb s
  | .smaxN64 d a b ta tb => Sys2Proof.Machine.execSmaxN64 d a b ta tb s
  | .sclz d a ta => Sys2Proof.Machine.execSclz d a ta s
  | .sctz d a ta => Sys2Proof.Machine.execSctz d a ta s
  | .spopc d a ta => Sys2Proof.Machine.execSpopc d a ta s
  | .smov d a ta => Sys2Proof.Machine.execSmov d a ta s
  | .ssel d a b ta tb => Sys2Proof.Machine.execSsel d a b ta tb s
  | .sbfxI64 d a b ta tb => Sys2Proof.Machine.execSbfxI64 d a b ta tb s
  | .sbfxN64 d a b ta tb => Sys2Proof.Machine.execSbfxN64 d a b ta tb s
  | .sbfi d a b ta tb => Sys2Proof.Machine.execSbfi d a b ta tb s
  | .scmp c d a b ta tb => Sys2Proof.Machine.execScmp c d a b ta tb s
  | .saddi d a ta im => Sys2Proof.Machine.execSaddi d a ta im s
  | .sandi d a ta im => Sys2Proof.Machine.execSandi d a ta im s
  | .sori d a ta im => Sys2Proof.Machine.execSori d a ta im s
  | .sxori d a ta im => Sys2Proof.Machine.execSxori d a ta im s
  | .sshli d a ta c => Sys2Proof.Machine.execSshli d a ta c s
  | .sshri d a ta c => Sys2Proof.Machine.execSshri d a ta c s
  | .ssrai d a ta c => Sys2Proof.Machine.execSsrai d a ta c s
  | .smovi d im => Sys2Proof.Machine.execSmovi d im s
  | .smovSpecial d x => Sys2Proof.Machine.execSmovSpecial d x s
  | .vadd w d a b ta tb => Sys2Proof.Machine.execVadd w d a b ta tb s
  | .vsub w d a b ta tb => Sys2Proof.Machine.execVsub w d a b ta tb s
  | .vmul w d a b ta tb => Sys2Proof.Machine.execVmul w d a b ta tb s
  | .vmulhI w d a b ta tb => Sys2Proof.Machine.execVmulhI w d a b ta tb s
  | .vmulhN w d a b ta tb => Sys2Proof.Machine.execVmulhN w d a b ta tb s
  | .vmad w d a b ta tb => Sys2Proof.Machine.execVmad w d a b ta tb s
  | .vand w d a b ta tb => Sys2Proof.Machine.execVand w d a b ta tb s
  | .vor w d a b ta tb => Sys2Proof.Machine.execVor w d a b ta tb s
  | .vxor w d a b ta tb => Sys2Proof.Machine.execVxor w d a b ta tb s
  | .vandn w d a b ta tb => Sys2Proof.Machine.execVandn w d a b ta tb s
  | .vshl w d a b ta tb => Sys2Proof.Machine.execVshl w d a b ta tb s
  | .vshr w d a b ta tb => Sys2Proof.Machine.execVshr w d a b ta tb s
  | .vsra w d a b ta tb => Sys2Proof.Machine.execVsra w d a b ta tb s
  | .vminI w d a b ta tb => Sys2Proof.Machine.execVminI w d a b ta tb s
  | .vminN w d a b ta tb => Sys2Proof.Machine.execVminN w d a b ta tb s
  | .vmaxI w d a b ta tb => Sys2Proof.Machine.execVmaxI w d a b ta tb s
  | .vmaxN w d a b ta tb => Sys2Proof.Machine.execVmaxN w d a b ta tb s
  | .vabs w d a ta => Sys2Proof.Machine.execVabs w d a ta s
  | .vclz w d a ta => Sys2Proof.Machine.execVclz w d a ta s
  | .vpopc w d a ta => Sys2Proof.Machine.execVpopc w d a ta s
  | .vmov w d a ta => Sys2Proof.Machine.execVmov w d a ta s
  | .vsel w d a b ta tb => Sys2Proof.Machine.execVsel w d a b ta tb s
  | .vcmp c w d a b ta tb => Sys2Proof.Machine.execVcmp c w d a b ta tb s
  | .vaddi d a ta im => Sys2Proof.Machine.execVaddi d a ta im s
  | .vcvt dst src d a ta => Sys2Proof.Machine.execVcvt dst src d a ta s
  | .vbcastB32 d a ta => Sys2Proof.Machine.execVbcastB32 d a ta s
  | .vlane d => Sys2Proof.Machine.execVlane d s
  | .vpackB16 d a b ta tb => Sys2Proof.Machine.execVpackB16 d a b ta tb s
  | .vpackB8 d a b ta tb => Sys2Proof.Machine.execVpackB8 d a b ta tb s
  | .vunpackB16 d a b ta tb => Sys2Proof.Machine.execVunpackB16 d a b ta tb s
  | .vunpackB8 d a b ta tb => Sys2Proof.Machine.execVunpackB8 d a b ta tb s
  | .vbcastB64 d a ta => Sys2Proof.Machine.execVbcastB64 d a ta s
  | .kmov d a => Sys2Proof.Machine.execKmov d a s
  | .kand d a b => Sys2Proof.Machine.execKand d a b s
  | .kor d a b => Sys2Proof.Machine.execKor d a b s
  | .kxor d a b => Sys2Proof.Machine.execKxor d a b s
  | .kandn d a b => Sys2Proof.Machine.execKandn d a b s
  | .knot d a => Sys2Proof.Machine.execKnot d a s
  | .kpopc d a => Sys2Proof.Machine.execKpopc d a s
  | .kffs d a => Sys2Proof.Machine.execKffs d a s
  | .kwrd d a b tb => Sys2Proof.Machine.execKwrd d a b tb s
  | .kwwr d a b ta tb => Sys2Proof.Machine.execKwwr d a b ta tb s
  | .kif d a => Sys2Proof.Machine.execKif d a s
  | .kelse d => Sys2Proof.Machine.execKelse d s
  | .kjoin a => Sys2Proof.Machine.execKjoin a s
  | .kvoteAny d a => Sys2Proof.Machine.execKvoteAny d a s
  | .kvoteAll d a => Sys2Proof.Machine.execKvoteAll d a s
  | .kflag d a => Sys2Proof.Machine.execKflag d a s
  | .flrd d a b tb => Sys2Proof.Machine.execFlrd d a b tb s
  | .flclr a => Sys2Proof.Machine.execFlclr a s
  | .vperm d a b ta tb => Sys2Proof.Machine.execVperm d a b ta tb s
  | .vshflUp d a b ta tb => Sys2Proof.Machine.execVshflUp d a b ta tb s
  | .vshflDn d a b ta tb => Sys2Proof.Machine.execVshflDn d a b ta tb s
  | .vshflXor d a b ta tb => Sys2Proof.Machine.execVshflXor d a b ta tb s
  | .vext d a b ta tb => Sys2Proof.Machine.execVext d a b ta tb s
  | .vins d a b ta tb => Sys2Proof.Machine.execVins d a b ta tb s
  | .vred o w d a ta => Sys2Proof.Machine.execVred o w d a ta s
  | .vscan o w ex d a ta => Sys2Proof.Machine.execVscan o w ex d a ta s
  | .vfadd p d a b ta tb => Sys2Proof.Machine.execVfadd p d a b ta tb s
  | .vfsub p d a b ta tb => Sys2Proof.Machine.execVfsub p d a b ta tb s
  | .vfmul p d a b ta tb => Sys2Proof.Machine.execVfmul p d a b ta tb s
  | .vffma p d a b ta tb => Sys2Proof.Machine.execVffma p d a b ta tb s
  | .vfmin p d a b ta tb => Sys2Proof.Machine.execVfmin p d a b ta tb s
  | .vfmax p d a b ta tb => Sys2Proof.Machine.execVfmax p d a b ta tb s
  | .vfsgn p d a b ta tb => Sys2Proof.Machine.execVfsgn p d a b ta tb s
  | .vfsgnNeg p d a b ta tb => Sys2Proof.Machine.execVfsgnNeg p d a b ta tb s
  | .vfsgnXor p d a b ta tb => Sys2Proof.Machine.execVfsgnXor p d a b ta tb s
  | .vfclass p d a ta => Sys2Proof.Machine.execVfclass p d a ta s
  | .vfround p d a ta => Sys2Proof.Machine.execVfround p d a ta s
  | .vfrcp p d a ta => Sys2Proof.Machine.execVfrcp p d a ta s
  | .vfrsqrt p d a ta => Sys2Proof.Machine.execVfrsqrt p d a ta s
  | .vfsqrt p d a ta => Sys2Proof.Machine.execVfsqrt p d a ta s
  | .vfdiv p d a b ta tb => Sys2Proof.Machine.execVfdiv p d a b ta tb s
  | .vfexp2 p d a ta => Sys2Proof.Machine.execVfexp2 p d a ta s
  | .vflog2 p d a ta => Sys2Proof.Machine.execVflog2 p d a ta s
  | .vfsinp p d a ta => Sys2Proof.Machine.execVfsinp p d a ta s
  | .vfcosp p d a ta => Sys2Proof.Machine.execVfcosp p d a ta s
  | .vfcmp c p d a b ta tb => Sys2Proof.Machine.execVfcmp c p d a b ta tb s
  | .vfcvt dst src d a ta => Sys2Proof.Machine.execVfcvt dst src d a ta s
  | .sld d a b ta tb z o sc => Sys2Proof.Machine.execSld d a b ta tb z o sc s
  | .sst d a b ta tb z o sc => Sys2Proof.Machine.execSst d a b ta tb z o sc s
  | .vld d a b ta tb z o sc => Sys2Proof.Machine.execVld d a b ta tb z o sc s
  | .vst d a b ta tb z o sc => Sys2Proof.Machine.execVst d a b ta tb z o sc s
  | .vldb d a b ta tb o sc => Sys2Proof.Machine.execVldb d a b ta tb o sc s
  | .vstb d a b ta tb o sc => Sys2Proof.Machine.execVstb d a b ta tb o sc s
  | .xld d a b ta tb z o sc => Sys2Proof.Machine.execXld d a b ta tb z o sc s
  | .xst d a b ta tb z o sc => Sys2Proof.Machine.execXst d a b ta tb z o sc s
  | .xldb d a b ta tb o sc => Sys2Proof.Machine.execXldb d a b ta tb o sc s
  | .xstb d a b ta tb o sc => Sys2Proof.Machine.execXstb d a b ta tb o sc s
  | .satom p d a b o sc => Sys2Proof.Machine.execSatom p d a b o sc s
  | .vatom p d a b o sc => Sys2Proof.Machine.execVatom p d a b o sc s
  | .scas w d a b o sc => Sys2Proof.Machine.execScas w d a b o sc s
  | .scas2 d a b o sc => Sys2Proof.Machine.execScas2 d a b o sc s
  | .vcas d a b o sc => Sys2Proof.Machine.execVcas d a b o sc s
  | .waitc64 c d a b o sc => Sys2Proof.Machine.execWaitc64 c d a b o sc s
  | .waitc32 c d a b o sc => Sys2Proof.Machine.execWaitc32 c d a b o sc s
  | .fence o sc => Sys2Proof.Machine.execFence o sc s
  | .fenceSc sc => Sys2Proof.Machine.execFenceSc sc s
  | .barArr a b => Sys2Proof.Machine.execBarArr a b s
  | .barWait d b => Sys2Proof.Machine.execBarWait d b s
  | .barSync d a b => Sys2Proof.Machine.execBarSync d a b s
  | .cpy d a b l => Sys2Proof.Machine.execCpy d a b l s
  | .cpy2d d a b l => Sys2Proof.Machine.execCpy2d d a b l s
  | .mcfg a b => Sys2Proof.Machine.execMcfg a b s
  | .midx a => Sys2Proof.Machine.execMidx a s
  | .mloop d a b adv sel => Sys2Proof.Machine.execMloop d a b adv sel s
  | .mzero t => Sys2Proof.Machine.execMzero t s
  | .mmovRegister d a => Sys2Proof.Machine.execMmovRegister d a s
  | .mmovScratchpad d a b => Sys2Proof.Machine.execMmovScratchpad d a b s
  | .mburst a => Sys2Proof.Machine.execMburst a s
  | .cred a => Sys2Proof.Machine.execCred a s
  | .cbcast a => Sys2Proof.Machine.execCbcast a s
  | .cgath a => Sys2Proof.Machine.execCgath a s
  | .efence x d => Sys2Proof.Machine.execEfence x d s
  | .ewait x d a => Sys2Proof.Machine.execEwait x d a s
  | .tlrd x d a => Sys2Proof.Machine.execTlrd x d a s
  | .tlwait x d a b => Sys2Proof.Machine.execTlwait x d a b s
  | .tqenq d a b => Sys2Proof.Machine.execTqenq d a b s
  | .tqdeq d a => Sys2Proof.Machine.execTqdeq d a s
  | .tqdec d a => Sys2Proof.Machine.execTqdec d a s
  | .launch d a b => Sys2Proof.Machine.execLaunch d a b s
  | .trap n => Sys2Proof.Machine.execTrap n s
  | .eret => Sys2Proof.Machine.execEret s
  | .ctlrd d => Sys2Proof.Machine.execCtlrd d s
  | .ctlwr a => Sys2Proof.Machine.execCtlwr a s
  | .sigchk => Sys2Proof.Machine.execSigchk s
  | .sigrd d => Sys2Proof.Machine.execSigrd d s
  | .capq d a => Sys2Proof.Machine.execCapq d a s
  | .yield => Sys2Proof.Machine.execYield s
  | .fltinfo d a => Sys2Proof.Machine.execFltinfo d a s
  | .replay a b => Sys2Proof.Machine.execReplay a b s
  | .replayDiscard a b => Sys2Proof.Machine.execReplayDiscard a b s
  | .pmap d a b => Sys2Proof.Machine.execPmap d a b s
  | .pkload d a b => Sys2Proof.Machine.execPkload d a b s
  | .brScalar c a im => Sys2Proof.Machine.execBrScalar c a im s
  | .brMask c k im => Sys2Proof.Machine.execBrMask c k im s
  | .jmp im => Sys2Proof.Machine.execJmp im s
  | .call a im => Sys2Proof.Machine.execCall a im s
  | .jr a im => Sys2Proof.Machine.execJr a im s
  | .exit => Sys2Proof.Machine.execExit s
  | .nop => Sys2Proof.Machine.execNop s
  | .hintImm p => Sys2Proof.Machine.execHintImm p s
  | .hintOff o => Sys2Proof.Machine.execHintOff o s
  | .hintMod bx sat ftz rm => Sys2Proof.Machine.execHintMod bx sat ftz rm s
  | .hintSched p => Sys2Proof.Machine.execHintSched p s
  | .extensionWord g b => Sys2Proof.Machine.execExtensionWord g b s
  | .requestNop im seq => Sys2Proof.Machine.execRequestNop im seq s
  | .requestLaunch im seq => Sys2Proof.Machine.execRequestLaunch im seq s
  | .requestWait im seq => Sys2Proof.Machine.execRequestWait im seq s
  | .requestWrite im seq => Sys2Proof.Machine.execRequestWrite im seq s
  | .recordRead l => Sys2Proof.Machine.execRecordRead l s
  | .dealPass q => Sys2Proof.Machine.execDealPass q s
  | .launchComplete l => Sys2Proof.Machine.execLaunchComplete l s
  | .signalRetry l => Sys2Proof.Machine.execSignalRetry l s
  | .launchPacket port p => Sys2Proof.Machine.execLaunchPacket port p s
  | .launchResend id => Sys2Proof.Machine.execLaunchResend id s
  | .partitionResetComplete q => Sys2Proof.Machine.execPartitionResetComplete q s
  | .quantumBoundary c => Sys2Proof.Machine.execQuantumBoundary c s
  | .unitReload team => Sys2Proof.Machine.execUnitReload team s
  | .watchdogExpiry l => Sys2Proof.Machine.execWatchdogExpiry l s
  | .coreCycle n => Sys2Proof.Machine.execCoreCycle n s
  | .forcedLeave n => Sys2Proof.Machine.execForcedLeave n s
  | .trapEntry team => Sys2Proof.Machine.execTrapEntry team s
  | .registerFill f => Sys2Proof.Machine.execRegisterFill f s
  | .rakeChunkCopy n bad => Sys2Proof.Machine.execRakeChunkCopy n bad s
  | .mapFlip n => Sys2Proof.Machine.execMapFlip n s
  | .oldBankRelease n => Sys2Proof.Machine.execOldBankRelease n s
  | .workgroupSave wg => Sys2Proof.Machine.execWorkgroupSave wg s
  | .rd r => Sys2Proof.Machine.execRd r s
  | .rdrsp r => Sys2Proof.Machine.execRdrsp r s
  | .wr r => Sys2Proof.Machine.execWr r s
  | .atom r => Sys2Proof.Machine.execAtom r s
  | .ack a => Sys2Proof.Machine.execAck a s
  | .nack n => Sys2Proof.Machine.execNack n s
  | .ember r => Sys2Proof.Machine.execEmber r s
  | .draw d => Sys2Proof.Machine.execDraw d s
  | .wback w => Sys2Proof.Machine.execWback w s
  | .drawack d => Sys2Proof.Machine.execDrawack d s
  | .monfill m => Sys2Proof.Machine.execMonfill m s
  | .queueOperation o => Sys2Proof.Machine.execQueueOperation o s
  | .ptsTick n => Sys2Proof.Machine.execPtsTick n s
  | .ageSweep n => Sys2Proof.Machine.execAgeSweep n s
  | .monitorRecheck id => Sys2Proof.Machine.execMonitorRecheck id s
  | .wake h => Sys2Proof.Machine.execWake h s
  | .mappingOpComplete => Sys2Proof.Machine.execMappingOpComplete s
  | .instructionFetch f => Sys2Proof.Machine.execInstructionFetch f s
  | .pauseExpiry p cls => Sys2Proof.Machine.execPauseExpiry p cls s
  | .pauseRefresh p cls => Sys2Proof.Machine.execPauseRefresh p cls s
  | .failoverTimeout p => Sys2Proof.Machine.execFailoverTimeout p s
  | .dedupExpiry => Sys2Proof.Machine.execDedupExpiry s
  | .chunk c => Sys2Proof.Machine.execChunk c s
  | .chunkack tag tenant srcm chunk status => Sys2Proof.Machine.execChunkack tag tenant srcm chunk status s
  | .copyChunk team => Sys2Proof.Machine.execCopyChunk team s
  | .matrixStep n => Sys2Proof.Machine.execMatrixStep n s
  | .damperStep n => Sys2Proof.Machine.execDamperStep n s
  | .biasFlipDone => Sys2Proof.Machine.execBiasFlipDone s
  | .notifyPush w => Sys2Proof.Machine.execNotifyPush w s
  | .notifyStatusRead pf slot off len r => Sys2Proof.Machine.execNotifyStatusRead pf slot off len r s
  | .qifConfigWrite im v => Sys2Proof.Machine.execQifConfigWrite im v s
  | .qifReset im v => Sys2Proof.Machine.execQifReset im v s
  | .irqMapWrite q e v => Sys2Proof.Machine.execIrqMapWrite q e v s
  | .lvalVerdict v => Sys2Proof.Machine.execLvalVerdict v s
  | .partEnable q v => Sys2Proof.Machine.execPartEnable q v s
  | .partReset q v => Sys2Proof.Machine.execPartReset q v s
  | .functionLevelReset pf => Sys2Proof.Machine.execFunctionLevelReset pf s
  | .partSaveWrite q v => Sys2Proof.Machine.execPartSaveWrite q v s
  | .partCsaveWrite q v => Sys2Proof.Machine.execPartCsaveWrite q v s
  | .partQosWrite q v => Sys2Proof.Machine.execPartQosWrite q v s
  | .wdogResume q => Sys2Proof.Machine.execWdogResume q s
  | .wdogKill q => Sys2Proof.Machine.execWdogKill q s
  | .bankCrossing n kind bank r => Sys2Proof.Machine.execBankCrossing n kind bank r s
  | .bankAsh v => Sys2Proof.Machine.execBankAsh v s
  | .homeOvfClear h v => Sys2Proof.Machine.execHomeOvfClear h v s
  | .fcmdReplay h v => Sys2Proof.Machine.execFcmdReplay h v s
  | .fcmdDiscard h v => Sys2Proof.Machine.execFcmdDiscard h v s
  | .ptUnmap v => Sys2Proof.Machine.execPtUnmap v s
  | .ptSplit v => Sys2Proof.Machine.execPtSplit v s
  | .ptMove v => Sys2Proof.Machine.execPtMove v s
  | .ptReattribute v => Sys2Proof.Machine.execPtReattribute v s
  | .hotBaseWrite q v => Sys2Proof.Machine.execHotBaseWrite q v s
  | .dataFlit p f => Sys2Proof.Machine.execDataFlit p f s
  | .nakFlit p f => Sys2Proof.Machine.execNakFlit p f s
  | .pauseFlit p h body => Sys2Proof.Machine.execPauseFlit p h body s
  | .retrainComplete p ok => Sys2Proof.Machine.execRetrainComplete p ok s
  | .portRetrain p v => Sys2Proof.Machine.execPortRetrain p v s
  | .flueLinkFailure l => Sys2Proof.Machine.execFlueLinkFailure l s
  | .throttleStep d r => Sys2Proof.Machine.execThrottleStep d r s
  | .thermalHalt d temp => Sys2Proof.Machine.execThermalHalt d temp s
  | .powerRemoval d temp => Sys2Proof.Machine.execPowerRemoval d temp s
  | .moduleReset boot device home => Sys2Proof.Machine.execModuleReset boot device home s
  | .attestationReport nonce => Sys2Proof.Machine.execAttestationReport nonce s
  | .measExtend im image => Sys2Proof.Machine.execMeasExtend im image s
  | .biasToHost v => Sys2Proof.Machine.execBiasToHost v s
  | .biasToDevice v => Sys2Proof.Machine.execBiasToDevice v s
  | .hostMemoryAccess a => Sys2Proof.Machine.execHostMemoryAccess a s
  | .atsInvalidation pasid base pages => Sys2Proof.Machine.execAtsInvalidation pasid base pages s
  | .pcieCompletion id k => Sys2Proof.Machine.execPcieCompletion id k s
  | .timeWrite v => Sys2Proof.Machine.execTimeWrite v s
  | .emuEret q => Sys2Proof.Machine.execEmuEret q s
  | .emuKill q => Sys2Proof.Machine.execEmuKill q s
  | .emuRegWrite q n v => Sys2Proof.Machine.execEmuRegWrite q n v s
  | .registerWrite r v => Sys2Proof.Machine.execRegisterWrite r v s
  | .backInvalidationResponse gran line dirty => Sys2Proof.Machine.execBackInvalidationResponse gran line dirty s
  | .cxlCacheResponse ptr bytes => Sys2Proof.Machine.execCxlCacheResponse ptr bytes s

end Sys2Proof.Machine
end

