-- ==== Sys2Proof/Machine/Step.lean ====
section
/-! DEFINITION. One step of the module. A team that a core cycle picked issues one instruction; otherwise one caused event takes
place, or one ck passes. -/

namespace Sys2Proof.Machine

/-- The team in focus at its issue slot. -/
def issueSlot (s : State) : Host.Outcome State Fault Refusal :=
  match slotOf s with
  | .idle => .next s
  | .async => exec (.trapEntry s.cur.id) s
  | .fetch => .next (demandFetch s)
  | .reject .badHint w => .next (badHintWord w s)
  | .reject _ w => .next (illegalWord w s)
  | .ins i => exec i s

/-- One step (R69, R110, log 6). -/
def step (s : State) : Host.Outcome State Fault Refusal :=
  match s.cond with
  | .unpowered => .fault .unpowered
  | _ =>
    match s.issue with
    | id :: rest => issueSlot (focus id { s with issue := rest })
    | [] =>
      match enabledFrom s [] [] s.agenda with
      | [] => .next (tick s)
      | e :: es =>
        let (n, s) := choose s
        match (e :: es)[n % (es.length + 2)]? with
        | some x =>
          let ((i, rest), s) := arbitrate (e :: es) x s
          exec i { s with agenda := rest }
        | none => .next (tick s)

/-- `s` with a word placed where the next step fetches it: in the focus team's line buffer at its pc, the team picked to issue (log 9). -/
def State.withFetchWord (s : State) (nbits w : Nat) : State :=
  let t := runnable s.cur
  { s with cond := .running, cur := { t with ilines := [(linePtr t.pc, lineWith t.pc (w % 2 ^ nbits))] }, issue := [t.id] }

end Sys2Proof.Machine
end

