-- ==== Sys2Proof/Safety.lean ====
section
/-! DEFINITION. What counts as a safe run, and the terms in which claims are stated: when a word passes the tests of R266, and
how a state that an instruction leaves is described. -/

namespace Sys2Proof.Safety
open Sys2Proof.Machine

/-- `n` steps from a state end in a state: no fault, no refusal. -/
def runsFor : Nat → State → Prop
  | 0, _ => True
  | n + 1, s => ∃ t, step s = .next t ∧ runsFor n t

/-- The team in focus passes the tests of R266 at `i`: the group before it is accepted and every register it names exists (R265),
every source is full and clean, every destination full (R115 to R117). -/
def ready (i : Instr) (s : State) : Bool :=
  (illegalAt s s.cur i (useOf s.cur i)).isNone
    && (useOf s.cur i).src.all (fun x => s.cur.isFull x.1 && !s.cur.isPoisoned x.1)
    && (useOf s.cur i).dst.all s.cur.isFull && !s.cur.interlocked (useOf s.cur i)
/-- The module is not in recovery mode, so that it answers events (R29). -/
def awake (s : State) : Bool := s.cond != .recovery
/-- The state after `i` has issued in state `s` with its effect `t` and control passing to `pc`. -/
def issuedTo (i : Instr) (pc : W64) (s t : State) : Host.Outcome State Fault Refusal := .next (retire s.cur i false pc t)
/-- The state after `i` has issued in state `s` with its effect `t`: control passes to the next word. -/
def issued (i : Instr) (s t : State) : Host.Outcome State Fault Refusal := issuedTo i (s.cur.pc + 4) s t
/-- `s` with a value in scalar register `d` of the team in focus. -/
def withScalar (d : Reg) (v : W64) (s : State) : State := { s with cur := s.cur.ss d v }
/-- The lanes of the team in focus that are active (R107). -/
def someActive (s : State) : Bool := decide (s.cur.gk 0 ≠ 0)
/-- `s` with 32-bit results in the active lanes of vector register `d`; every other lane keeps its value (R304). -/
def withLanes (d : Reg) (f : Nat → W32) (s : State) : State :=
  if someActive s then { s with cur := s.cur.sv d fun l => if s.cur.act l then some (f l) else none } else s
/-- `s` with 64-bit results in the active lanes of the pair `d`. -/
def withLanes64 (d : Reg) (f : Nat → W64) (s : State) : State :=
  if someActive s then { s with cur := s.cur.sv64 d fun l => if s.cur.act l then some (f l) else none } else s
/-- The flag sets with the flags that the active lanes raise ORed in (R226). -/
def raised (t : Team) (g : Nat → FX) : Flags :=
  let m (q : FX → Bool) : Mask := maskOf t.width fun l => t.act l && q (g l)
  { nv := t.flags.nv ||| m FX.nv, dz := t.flags.dz ||| m FX.dz, of := t.flags.of ||| m FX.of, uf := t.flags.uf ||| m FX.uf, nx := t.flags.nx ||| m FX.nx }
/-- `s` with floating-point results and their flags in the active lanes; with none active, `s`. -/
def withFloats (d : Reg) (g : Nat → Nat × FX) (s : State) : State :=
  let u := s.cur.sv d fun l => if s.cur.act l then some (BitVec.ofNat 32 (g l).1) else none
  if someActive s then { s with cur := { u with flags := raised s.cur fun l => (g l).2 } } else s
/-- `s` with a value in mask register `d`, lanes at and above the team's width 0 (R298). -/
def withMask (d : KReg) (m : Mask) (s : State) : State := { s with cur := s.cur.sk d (m &&& fullMask s.cur.width) }
/-- What R331, R332 and R338 say of a global access of `i` to the locations `accs`, with the rights `need` (bit 0 read, bit 1 write): a
misaligned location traps first, then a key without the rights; otherwise the instruction issues once the core's load-store unit has room
for its first pass, and leaves `sent`. The trap's lanes are the offending ones for a vector instruction, all for a scalar one. -/
def accesses (i : Instr) (vec : Bool) (need : BitVec 3) (accs : List Acc) (s sent : State) : Prop :=
  let lanes (l : List Acc) : Mask := if vec then maskOfLanes (l.map (·.lane)) else fullMask s.cur.width
  let mis := accs.filter fun a => decide (vaOf a.ptr % a.size ≠ 0)
  let bad := accs.filter fun a => decide (pktOf s.cur.part (keyOf a.ptr) s &&& need ≠ need)
  let room : Prop := (s.lsu.filter fun e => e.tracked && e.req.core == s.cur.core).length + (byLine (accs.filter fun a => a.lane / 32 == (accs.headD default).lane / 32)).length ≤ 1024
  ready i s = true →
    (mis ≠ [] → exec i s = .next (trapAt i 0x05 (lanes mis) 0 s))
    ∧ (mis = [] → bad ≠ [] → exec i s = .next (trapAt i 0x09 (lanes bad) (w64 (2 ^ 63)) s))
    ∧ (mis = [] → bad = [] → accs = [] → exec i s = issued i s s)
    ∧ (mis = [] → bad = [] → accs ≠ [] → room → exec i s = issued i s sent)
/-- A wait of the team in focus at barrier `b` ends: no arrival of it is on its way, and the phase it arrived in has completed (R352). -/
def waitEnds (b : Nat) (s : State) : Prop := pendingArrival b s = none ∧ latestArrival b s ≠ some (teamBar b s).phase
/-- The state in which it ends: the result of the phase of the latest arrival, or of the last completed phase (none yet: phase 65,535,
count 0) (R352, R353). -/
def waitResult (b : Nat) (d : Reg) (s : State) : State :=
  let bar := teamBar b s
  let wide := ((wgOf s.cur.wg s).map (·.wide)).getD false
  match latestArrival b s with
  | some ph => finishBarWait s.cur.id b wide d ph (alGet 0 ph bar.hist) s
  | none => finishBarWait s.cur.id b wide d (bar.hist.headD (0xFFFF, 0)).1 (bar.hist.headD (0xFFFF, 0)).2 s
/-- A step of the module that a module in recovery mode answers by doing nothing to itself: any but a reset; no word of a program (R29). -/
def quiet (i : Instr) : Bool :=
  match i with
  | .moduleReset .. => false
  | i => (encode i).isNone
/-- The module is in recovery mode, no team stands at an issue slot, and what has been caused is quiet. -/
def dormant (s : State) : Prop := s.cond = .recovery ∧ s.issue = [] ∧ ∀ i ∈ s.agenda, quiet i = true

end Sys2Proof.Safety
end

