-- ==== Sys2Proof/Certificates/Slice0/Obligations.lean ====
section
/-! DEFINITION. The statements for the provers: each `Obligations.<Name>` is a proposition about the model. -/

open Sys2Proof Sys2Proof.Machine Sys2Proof.Safety

/-! ## Scalar registers -/

/-- R287, R288: the results of major 0x01. Each instruction that passes the tests of R266 issues and leaves its result in sD. -/
def Obligations.ScalarResults : Prop :=
  ∀ (s : State) (d a b : Reg) (ta tb : Bool),
    let x := s.cur.gs a
    let y := s.cur.gs b
    let old := s.cur.gs d
    let lo := y.toNat % 64
    let n := min (y.toNat / 256 % 128) (64 - lo)
    let f := x.toNat / 2 ^ lo % 2 ^ n
    let puts (i : Instr) (v : W64) : Prop := ready i s = true → exec i s = issued i s (withScalar d v s)
    puts (.sadd d a b ta tb) (x + y)
    ∧ puts (.ssub d a b ta tb) (x - y)
    ∧ puts (.smul d a b ta tb) (x * y)
    ∧ puts (.smulhI64 d a b ta tb) (BitVec.ofInt 64 (x.toInt * y.toInt / 2 ^ 64))
    ∧ puts (.smulhN64 d a b ta tb) (BitVec.ofNat 64 (x.toNat * y.toNat / 2 ^ 64))
    ∧ puts (.sdivI64 d a b ta tb) (if y = 0 then BitVec.allOnes 64 else BitVec.ofInt 64 (x.toInt.tdiv y.toInt))
    ∧ puts (.sdivN64 d a b ta tb) (if y = 0 then BitVec.allOnes 64 else BitVec.ofNat 64 (x.toNat / y.toNat))
    ∧ puts (.sremI64 d a b ta tb) (if y = 0 then x else BitVec.ofInt 64 (x.toInt.tmod y.toInt))
    ∧ puts (.sremN64 d a b ta tb) (if y = 0 then x else BitVec.ofNat 64 (x.toNat % y.toNat))
    ∧ puts (.sand d a b ta tb) (x &&& y)
    ∧ puts (.sor d a b ta tb) (x ||| y)
    ∧ puts (.sxor d a b ta tb) (x ^^^ y)
    ∧ puts (.sandn d a b ta tb) (x &&& ~~~y)
    ∧ puts (.sshl d a b ta tb) (x <<< lo)
    ∧ puts (.sshr d a b ta tb) (x >>> lo)
    ∧ puts (.ssra d a b ta tb) (x.sshiftRight lo)
    ∧ puts (.sminI64 d a b ta tb) (if x.toInt ≤ y.toInt then x else y)
    ∧ puts (.sminN64 d a b ta tb) (if x.toNat ≤ y.toNat then x else y)
    ∧ puts (.smaxI64 d a b ta tb) (if x.toInt ≤ y.toInt then y else x)
    ∧ puts (.smaxN64 d a b ta tb) (if x.toNat ≤ y.toNat then y else x)
    ∧ puts (.sclz d a ta) (BitVec.ofNat 64 (((List.range 64).takeWhile fun i => !x.getMsbD i).length))
    ∧ puts (.sctz d a ta) (BitVec.ofNat 64 (((List.range 64).takeWhile fun i => !x.getLsbD i).length))
    ∧ puts (.spopc d a ta) (BitVec.ofNat 64 (((List.range 64).filter fun i => x.getLsbD i).length))
    ∧ puts (.smov d a ta) x
    ∧ puts (.ssel d a b ta tb) (if old = 0 then y else x)
    ∧ puts (.sbfxN64 d a b ta tb) (BitVec.ofNat 64 f)
    ∧ puts (.sbfxI64 d a b ta tb) (BitVec.ofInt 64 (if 2 * f < 2 ^ n then (f : Int) else f - 2 ^ n))
    ∧ puts (.sbfi d a b ta tb)
        (BitVec.ofNat 64 (old.toNat % 2 ^ lo + x.toNat % 2 ^ n * 2 ^ lo + old.toNat / 2 ^ (lo + n) * 2 ^ (lo + n)))
    ∧ puts (.scmp .eq d a b ta tb) (if x = y then 1 else 0)
    ∧ puts (.scmp .ne d a b ta tb) (if x = y then 0 else 1)
    ∧ puts (.scmp .ltI d a b ta tb) (if x.toInt < y.toInt then 1 else 0)
    ∧ puts (.scmp .geI d a b ta tb) (if x.toInt < y.toInt then 0 else 1)
    ∧ puts (.scmp .ltN d a b ta tb) (if x.toNat < y.toNat then 1 else 0)
    ∧ puts (.scmp .geN d a b ta tb) (if x.toNat < y.toNat then 0 else 1)

/-- R249, R289, R290: the immediate forms of majors 0x02 to 0x09 and the special values of major 0x0A. The immediate is the
field, sign-extended, or the latch's under a `hint.imm` group (R270). -/
def Obligations.ScalarImmediateResults : Prop :=
  ∀ (s : State) (d a : Reg) (ta : Bool) (i : BitVec 13) (c : Fin 64),
    let x := s.cur.gs a
    let imm := if s.cur.hint.nimm = 0 then i.signExtend 64 else s.cur.hint.imm
    let w := (wgOf s.cur.wg s).getD {}
    let g := ((launchOf w.launch s).map fun l => l.stages.getD w.stage {}).getD {}
    let puts (i : Instr) (v : W64) : Prop := ready i s = true → exec i s = issued i s (withScalar d v s)
    puts (.saddi d a ta i) (x + imm)
    ∧ puts (.sandi d a ta i) (x &&& imm)
    ∧ puts (.sori d a ta i) (x ||| imm)
    ∧ puts (.sxori d a ta i) (x ^^^ imm)
    ∧ puts (.sshli d a ta c) (x <<< c.val)
    ∧ puts (.sshri d a ta c) (x >>> c.val)
    ∧ puts (.ssrai d a ta c) (x.sshiftRight c.val)
    ∧ puts (.smovi d i) imm
    ∧ puts (.smovSpecial d .team) (w64 s.cur.num)
    ∧ puts (.smovSpecial d .wg) (w64 (w.x + w.y * 2 ^ 16 + w.z * 2 ^ 32))
    ∧ puts (.smovSpecial d .wgdim) (w64 (w.T + if w.wide then 128 else 0))
    ∧ puts (.smovSpecial d .grid) (w64 (g.gx + g.gy * 2 ^ 16 + g.gz * 2 ^ 32))
    ∧ puts (.smovSpecial d .stage) (w64 w.stage)
    ∧ puts (.smovSpecial d .core) (w64 s.cur.core)
    ∧ puts (.smovSpecial d .die) (w64 (dieOf s.cur.core s))
    ∧ puts (.smovSpecial d .width) (w64 s.cur.width)
    ∧ puts (.smovSpecial d .time) s.time

/-! ## Vector registers -/

/-- R311, R312: the results of majors 0x10 and 0x11 in the active lanes, at widths 32 and 64. -/
def Obligations.VectorIntegerResults : Prop :=
  ∀ (s : State) (d a b : Reg) (ta tb : Bool),
    let t := s.cur
    let x (l : Nat) := t.lane a l
    let y (l : Nat) := t.lane b l
    let z (l : Nat) := t.lane d l
    let x' (l : Nat) := t.lane64 a l
    let y' (l : Nat) := t.lane64 b l
    let z' (l : Nat) := t.lane64 d l
    let puts (i : Bool → Instr) (f : Nat → W32) (g : Nat → W64) : Prop :=
      (ready (i false) s = true → exec (i false) s = issued (i false) s (withLanes d f s))
      ∧ (ready (i true) s = true → exec (i true) s = issued (i true) s (withLanes64 d g s))
    puts (.vadd · d a b ta tb) (fun l => x l + y l) (fun l => x' l + y' l)
    ∧ puts (.vsub · d a b ta tb) (fun l => x l - y l) (fun l => x' l - y' l)
    ∧ puts (.vmul · d a b ta tb) (fun l => x l * y l) (fun l => x' l * y' l)
    ∧ puts (.vmulhI · d a b ta tb) (fun l => BitVec.ofInt 32 ((x l).toInt * (y l).toInt / 2 ^ 32))
        (fun l => BitVec.ofInt 64 ((x' l).toInt * (y' l).toInt / 2 ^ 64))
    ∧ puts (.vmulhN · d a b ta tb) (fun l => BitVec.ofNat 32 ((x l).toNat * (y l).toNat / 2 ^ 32))
        (fun l => BitVec.ofNat 64 ((x' l).toNat * (y' l).toNat / 2 ^ 64))
    ∧ puts (.vmad · d a b ta tb) (fun l => x l * y l + z l) (fun l => x' l * y' l + z' l)
    ∧ puts (.vand · d a b ta tb) (fun l => x l &&& y l) (fun l => x' l &&& y' l)
    ∧ puts (.vor · d a b ta tb) (fun l => x l ||| y l) (fun l => x' l ||| y' l)
    ∧ puts (.vxor · d a b ta tb) (fun l => x l ^^^ y l) (fun l => x' l ^^^ y' l)
    ∧ puts (.vandn · d a b ta tb) (fun l => x l &&& ~~~y l) (fun l => x' l &&& ~~~y' l)
    ∧ puts (.vshl · d a b ta tb) (fun l => x l <<< ((y l).toNat % 32)) (fun l => x' l <<< ((y' l).toNat % 64))
    ∧ puts (.vshr · d a b ta tb) (fun l => x l >>> ((y l).toNat % 32)) (fun l => x' l >>> ((y' l).toNat % 64))
    ∧ puts (.vsra · d a b ta tb) (fun l => (x l).sshiftRight ((y l).toNat % 32))
        (fun l => (x' l).sshiftRight ((y' l).toNat % 64))
    ∧ puts (.vminI · d a b ta tb) (fun l => if (x l).toInt ≤ (y l).toInt then x l else y l)
        (fun l => if (x' l).toInt ≤ (y' l).toInt then x' l else y' l)
    ∧ puts (.vminN · d a b ta tb) (fun l => if (x l).toNat ≤ (y l).toNat then x l else y l)
        (fun l => if (x' l).toNat ≤ (y' l).toNat then x' l else y' l)
    ∧ puts (.vmaxI · d a b ta tb) (fun l => if (x l).toInt ≤ (y l).toInt then y l else x l)
        (fun l => if (x' l).toInt ≤ (y' l).toInt then y' l else x' l)
    ∧ puts (.vmaxN · d a b ta tb) (fun l => if (x l).toNat ≤ (y l).toNat then y l else x l)
        (fun l => if (x' l).toNat ≤ (y' l).toNat then y' l else x' l)
    ∧ puts (.vabs · d a ta) (fun l => if (x l).toInt < 0 then -x l else x l) (fun l => if (x' l).toInt < 0 then -x' l else x' l)
    ∧ puts (.vclz · d a ta) (fun l => BitVec.ofNat 32 (((List.range 32).takeWhile fun i => !(x l).getMsbD i).length))
        (fun l => BitVec.ofNat 64 (((List.range 64).takeWhile fun i => !(x' l).getMsbD i).length))
    ∧ puts (.vpopc · d a ta) (fun l => BitVec.ofNat 32 (((List.range 32).filter fun i => (x l).getLsbD i).length))
        (fun l => BitVec.ofNat 64 (((List.range 64).filter fun i => (x' l).getLsbD i).length))
    ∧ puts (.vmov · d a ta) x x'
    ∧ puts (.vsel · d a b ta tb) (fun l => if z l = 0 then y l else x l) (fun l => if z' l = 0 then y' l else x' l)

/-- R313 to R315: the immediate add, integer conversions, broadcasts, the lane index and packing, in the active lanes.
R315: what an integer conversion delivers: the source's exact value when the destination holds it, else its value modulo
the width, or with sat the nearer end of the range. -/
def Obligations.VectorMoveResults : Prop :=
  (∀ (s : State) (d a b : Reg) (ta tb : Bool) (i : BitVec 13) (dst src : IType),
    let t := s.cur
    let imm := if t.hint.nimm = 0 then i.signExtend 64 else t.hint.imm
    let conv (l : Nat) : W64 :=
      itypeWrite dst (t.hint.modv && t.hint.sat) (itypeRead src (if src.wide then t.lane64 a l else (t.lane a l).setWidth 64))
    let puts (i : Instr) (f : Nat → W32) : Prop := ready i s = true → exec i s = issued i s (withLanes d f s)
    let puts64 (i : Instr) (f : Nat → W64) : Prop := ready i s = true → exec i s = issued i s (withLanes64 d f s)
    puts (.vaddi d a ta i) (fun l => t.lane a l + imm.setWidth 32)
    ∧ (dst.wide = false → puts (.vcvt dst src d a ta) fun l => (conv l).setWidth 32)
    ∧ (dst.wide = true → puts64 (.vcvt dst src d a ta) conv)
    ∧ puts (.vbcastB32 d a ta) (fun _ => (t.gs a).setWidth 32)
    ∧ puts64 (.vbcastB64 d a ta) (fun _ => t.gs a)
    ∧ puts (.vlane d) (fun l => BitVec.ofNat 32 l)
    ∧ puts (.vpackB16 d a b ta tb) (fun l => (t.lane b l).setWidth 16 ++ (t.lane a l).setWidth 16)
    ∧ puts (.vpackB8 d a b ta tb)
        (fun l => (t.lane b l).setWidth 8 ++ ((t.lane a l).setWidth 8 ++ (t.lane d l >>> 16).setWidth 16))
    ∧ puts (.vunpackB16 d a b ta tb) (fun l => (t.lane a l >>> (16 * ((t.gs b).toNat % 2))) &&& 0xFFFF)
    ∧ puts (.vunpackB8 d a b ta tb) (fun l => (t.lane a l >>> (8 * ((t.gs b).toNat % 4))) &&& 0xFF))
  ∧ ∀ (dst src : IType) (sat : Bool) (v : W64),
    let n := (itypeInfo dst).1
    let x := itypeRead src v
    let lo := (itypeRange dst).1
    let hi := (itypeRange dst).2
    let r := itypeRead dst (itypeWrite dst sat x)
    (lo ≤ x ∧ x ≤ hi → r = x)
    ∧ (sat = true → x < lo → r = lo)
    ∧ (sat = true → hi < x → r = hi)
    ∧ (sat = false → (r - x) % 2 ^ n = 0 ∧ lo ≤ r ∧ r ≤ hi)

/-- R312: a comparison writes every word of kD when k0 is not empty (bit l only for an active lane where it holds) and nothing
otherwise.
R323: a floating-point comparison writes kD as R312 gives, and ORs invalid into nv in the active lanes that raise it. -/
def Obligations.VectorCompareResults : Prop :=
  (∀ (s : State) (c : Cmp) (w : Bool) (d : KReg) (a b : Reg) (ta tb : Bool),
    let t := s.cur
    let holds (n : Nat) (x y : BitVec n) : Bool :=
      match c with
      | .eq => decide (x = y) | .ne => decide (x ≠ y) | .ltI => decide (x.toInt < y.toInt) | .geI => decide (y.toInt ≤ x.toInt)
      | .ltN => decide (x.toNat < y.toNat) | .geN => decide (y.toNat ≤ x.toNat)
    let m := maskOf t.width fun l => t.act l && (if w then holds 64 (t.lane64 a l) (t.lane64 b l) else holds 32 (t.lane a l) (t.lane b l))
    let i := Instr.vcmp c w d a b ta tb
    ready i s = true → exec i s = issued i s (if someActive s then { s with cur := t.sk d m } else s))
  ∧ ∀ (s : State) (c : FCmp) (p : FFmt) (d : KReg) (a b : Reg) (ta tb : Bool),
    let t := s.cur
    let f := fmtOf p
    let r (l : Nat) := f.cmp c ((t.lane a l).toNat % 2 ^ f.bits) ((t.lane b l).toNat % 2 ^ f.bits)
    let m := maskOf t.width fun l => t.act l && (r l).1
    let i := Instr.vfcmp c p d a b ta tb
    let nv := t.flags.nv ||| maskOf t.width fun l => t.act l && (r l).2.nv
    ready i s = true →
      let u := if someActive s then t.sk d m else t
      exec i s = issued i s { s with cur := { u with flags := { t.flags with nv := nv } } }

/-- R317 to R322, R324: a floating-point instruction delivers, in each active lane, its function of the elements read there, and
ORs the flags raised in the active lanes into the flag sets (R226); with no lane active it writes nothing. -/
def Obligations.VectorFloatResults : Prop :=
  ∀ (s : State) (p : FFmt) (dst src : FType) (d a b : Reg) (ta tb : Bool),
    let t := s.cur
    let f := fmtOf p
    let x (l : Nat) := f.readIn t.ftz ((t.lane a l).toNat % 2 ^ f.bits)
    let y (l : Nat) := f.readIn t.ftz ((t.lane b l).toNat % 2 ^ f.bits)
    let z (l : Nat) := f.readIn t.ftz ((t.lane d l).toNat % 2 ^ f.bits)
    let xb (l : Nat) := (t.lane a l).toNat % 2 ^ f.bits
    let yb (l : Nat) := (t.lane b l).toNat % 2 ^ f.bits
    let m := t.rmode
    let puts (i : Instr) (g : Nat → Nat × FX) : Prop := ready i s = true → exec i s = issued i s (withFloats d g s)
    puts (.vfadd p d a b ta tb) (fun l => f.add m t.ftz (x l) (y l))
    ∧ puts (.vfsub p d a b ta tb) (fun l => f.add m t.ftz (x l) (y l).neg)
    ∧ puts (.vfmul p d a b ta tb) (fun l => f.mul m t.ftz (x l) (y l))
    ∧ puts (.vffma p d a b ta tb) (fun l => f.fma m t.ftz (x l) (y l) (z l))
    ∧ puts (.vfmin p d a b ta tb) (fun l => f.minmax false (xb l) (yb l))
    ∧ puts (.vfmax p d a b ta tb) (fun l => f.minmax true (xb l) (yb l))
    ∧ puts (.vfsgn p d a b ta tb) (fun l => (withSign f (xb l) (signOf f (yb l)), {}))
    ∧ puts (.vfsgnNeg p d a b ta tb) (fun l => (withSign f (xb l) (!signOf f (yb l)), {}))
    ∧ puts (.vfsgnXor p d a b ta tb) (fun l => (withSign f (xb l) (signOf f (xb l) != signOf f (yb l)), {}))
    ∧ puts (.vfclass p d a ta) (fun l => (f.classify (xb l), {}))
    ∧ puts (.vfround p d a ta) (fun l => f.roundInt m t.ftz (xb l))
    ∧ puts (.vfrcp p d a ta) (fun l => f.rcp m t.ftz (x l))
    ∧ puts (.vfrsqrt p d a ta) (fun l => f.rsqrt m t.ftz (x l))
    ∧ puts (.vfsqrt p d a ta) (fun l => f.sqrt m t.ftz (x l))
    ∧ puts (.vfdiv p d a b ta tb) (fun l => f.div m t.ftz (x l) (y l))
    ∧ puts (.vfexp2 p d a ta) (fun l => f.exp2 m t.ftz (x l))
    ∧ puts (.vflog2 p d a ta) (fun l => f.log2 m t.ftz (x l))
    ∧ puts (.vfsinp p d a ta) (fun l => f.sinp m t.ftz (x l))
    ∧ puts (.vfcosp p d a ta) (fun l => f.cosp m t.ftz (x l))
    ∧ puts (.vfcvt dst src d a ta)
        (fun l => ftypeWrite dst m t.ftz t.sat (ftypeRead src (t.ftz && dst != .i32 && dst != .n32) (t.lane a l).toNat))

/-! ## Masks, flag sets, cross-lane instructions -/

/-- R299 to R303: the results of major 0x15. A mask result has no lane at or above the team's width.
R301, R120: `kif` saves k0 in kN and narrows it by kC, `kelse` swaps to the lanes of kN outside k0, `kjoin` adds kN to k0;
`kelse` escapes its enclosing mask (and feeds 0xA5) exactly when k0 held a lane outside kN. -/
def Obligations.MaskResults : Prop :=
  (∀ (s : State) (d : Reg) (kd : KReg) (x y : KF) (a b : Reg) (f : Fin 5) (ta tb : Bool),
    let t := s.cur
    let n := (t.gs b).toNat
    let puts (i : Instr) (m : Mask) : Prop := ready i s = true → exec i s = issued i s (withMask kd m s)
    let scalar (i : Instr) (v : W64) : Prop := ready i s = true → exec i s = issued i s (withScalar d v s)
    puts (.kmov kd x) (t.gkf x)
    ∧ puts (.kand kd x y) (t.gkf x &&& t.gkf y)
    ∧ puts (.kor kd x y) (t.gkf x ||| t.gkf y)
    ∧ puts (.kxor kd x y) (t.gkf x ^^^ t.gkf y)
    ∧ puts (.kandn kd x y) (t.gkf x &&& ~~~t.gkf y)
    ∧ puts (.knot kd x) (~~~t.gkf x)
    ∧ puts (.kwwr kd a b ta tb) (if n < t.width / 32 then setMaskWord (t.gk kd) n ((t.gs a).setWidth 32) else t.gk kd)
    ∧ puts (.kflag kd f) (t.flags.get f &&& t.gk 0)
    ∧ scalar (.kpopc d x) (BitVec.ofNat 64 (((List.range 1024).filter fun l => (t.gkf x).getLsbD l).length))
    ∧ scalar (.kffs d x) (if t.gkf x = 0 then BitVec.allOnes 64
        else BitVec.ofNat 64 (((List.range 1024).takeWhile fun l => !(t.gkf x).getLsbD l).length))
    ∧ scalar (.kwrd d x b tb) (if n < t.width / 32 then (maskWord (t.gkf x) n).setWidth 64 else 0)
    ∧ scalar (.kvoteAny d x) (if t.gkf x &&& t.gk 0 = 0 then 0 else 1)
    ∧ scalar (.kvoteAll d x) (if t.gkf x &&& t.gk 0 = t.gk 0 then 1 else 0)
    ∧ scalar (.flrd d f b tb) (w64 ((if n < t.width / 32 then (maskWord (t.flags.get f) n &&& maskWord (t.gk 0) n).toNat else 0)
        + (maskSummary t.width (t.flags.get f)).toNat * 2 ^ 32))
    ∧ (ready (.flclr (some f)) s = true → exec (.flclr (some f)) s
        = issued (.flclr (some f)) s { s with cur := { t with flags := t.flags.put f (t.flags.get f &&& ~~~t.gk 0) } })
    ∧ (ready (.flclr none) s = true → exec (.flclr none) s
        = issued (.flclr none) s { s with cur := { t with flags :=
            { nv := t.flags.nv &&& ~~~t.gk 0, dz := t.flags.dz &&& ~~~t.gk 0, of := t.flags.of &&& ~~~t.gk 0
              uf := t.flags.uf &&& ~~~t.gk 0, nx := t.flags.nx &&& ~~~t.gk 0 } } }))
  ∧ ∀ (s : State) (n c : KReg),
    let t := s.cur
    (n ≠ 0 → ready (.kif n c) s = true → ∃ u, exec (.kif n c) s = issued (.kif n c) s { s with cur := u }
        ∧ u.gk n = t.gk 0 ∧ u.gk 0 = t.gk 0 &&& t.gk c ∧ (∀ j, j ≠ 0 → j ≠ n → u.gk j = t.gk j) ∧ { u with k := t.k } = t)
    ∧ (n ≠ 0 → ready (.kelse n) s = true → ∃ u,
        exec (.kelse n) s = .next (retire t (.kelse n) (decide (t.gk 0 &&& ~~~t.gk n ≠ 0)) (t.pc + 4) { s with cur := u })
        ∧ u.gk n = t.gk 0 ∧ u.gk 0 = t.gk n &&& ~~~t.gk 0 ∧ (∀ j, j ≠ 0 → j ≠ n → u.gk j = t.gk j) ∧ { u with k := t.k } = t)
    ∧ (ready (.kjoin n) s = true → ∃ u, exec (.kjoin n) s = issued (.kjoin n) s { s with cur := u }
        ∧ u.gk 0 = t.gk 0 ||| t.gk n ∧ (∀ j, j ≠ 0 → u.gk j = t.gk j) ∧ { u with k := t.k } = t)

/-- R326 to R328: permutes, shuffles, and one lane moved to or from a scalar.
R329: a reduction delivers the chain over the active lanes in ascending order, from the operation's identity; a scan delivers in
each active lane the accumulator after (or, with .ex, before) its step; both raise the flags of their steps. -/
def Obligations.LaneResults : Prop :=
  (∀ (s : State) (d a b : Reg) (ta tb : Bool),
    let t := s.cur
    let n := (t.gs b).toNat
    let puts (i : Instr) (f : Nat → W32) : Prop := ready i s = true → exec i s = issued i s (withLanes d f s)
    puts (.vperm d a b ta tb) (fun l => if (t.lane b l).toNat < t.width then t.lane a (t.lane b l).toNat else 0)
    ∧ puts (.vshflUp d a b ta tb) (fun l => if n ≤ l ∧ l - n < t.width then t.lane a (l - n) else t.lane a l)
    ∧ puts (.vshflDn d a b ta tb) (fun l => if l + n < t.width then t.lane a (l + n) else t.lane a l)
    ∧ puts (.vshflXor d a b ta tb) (fun l => if l ^^^ n < t.width then t.lane a (l ^^^ n) else t.lane a l)
    ∧ (ready (.vext d a b ta tb) s = true → exec (.vext d a b ta tb) s
        = issued (.vext d a b ta tb) s (withScalar d (if n < t.width then (t.lane a n).setWidth 64 else 0) s))
    ∧ (ready (.vins d a b ta tb) s = true → exec (.vins d a b ta tb) s = issued (.vins d a b ta tb) s
        (if n < t.width ∧ t.act n = true then { s with cur := t.sv d fun l => if l = n then some ((t.gs a).setWidth 32) else none } else s)))
  ∧ ∀ (s : State) (o : RedOp) (w ex : Bool) (d a : Reg) (ta : Bool),
    let t := s.cur
    let n := if w then 64 else 32
    let el (l : Nat) : Nat := if w then (t.lane64 a l).toNat else (t.lane a l).toNat
    let before (l : Nat) : Nat := ((List.range l).filter t.act).foldl (fun acc j => (redStep o n acc (el j)).1) (redIdentity o n)
    let after (l : Nat) : Nat := (redStep o n (before l) (el l)).1
    let flags := raised t fun l => (redStep o n (before l) (el l)).2
    (ready (.vred o w d a ta) s = true → exec (.vred o w d a ta) s
        = issued (.vred o w d a ta) s { s with cur := { t.ss d (redExtend o w (before t.width)) with flags := flags } })
    ∧ (ready (.vscan o w ex d a ta) s = true → exec (.vscan o w ex d a ta) s = issued (.vscan o w ex d a ta) s
        (let out (l : Nat) : Nat := if ex then before l else after l
         let u := if w then t.sv64 d (fun l => if t.act l then some (w64 (out l)) else none)
                  else t.sv d (fun l => if t.act l then some (w32 (out l)) else none)
         if someActive s then { s with cur := { u with flags := flags } } else s))

/-! ## Control flow and hints -/

/-- R292 to R294, R296: branches, jumps, calls and `nop`. A transfer of control drops the instruction line at hand.
R118, R295: `exit` withdraws the team's monitors and dequeue waits, leaves its handler and drains; its siblings' barriers are looked
at again, and it retires once nothing is outstanding. -/
def Obligations.ControlFlowResults : Prop :=
  (∀ (s : State) (c : BrCond) (m : BrMask) (a : Reg) (k : KReg) (i : BitVec 16),
    let t := s.cur
    let rel := t.pc + 4 * i.signExtend 64
    let goes (i : Instr) (pc : W64) (u : State) := issuedTo i pc s { u with cur := { u.cur with ilines := [], ahead := [] } }
    let x := (t.gs a).toInt
    let w := fullMask t.width
    let taken : Prop := match c with
      | .z => x = 0 | .nz => x ≠ 0 | .lt => x < 0 | .ge => 0 ≤ x | .gt => 0 < x | .le => x ≤ 0
    let kTaken : Prop := match m with
      | .kany => t.gk k ≠ 0 | .knone => t.gk k = 0 | .kall => t.gk k &&& w = w | .knall => t.gk k &&& w ≠ w
    (ready (.brScalar c a i) s = true → (taken → exec (.brScalar c a i) s = goes (.brScalar c a i) rel s)
        ∧ (¬taken → exec (.brScalar c a i) s = issued (.brScalar c a i) s s))
    ∧ (ready (.brMask m k i) s = true → (kTaken → exec (.brMask m k i) s = goes (.brMask m k i) rel s)
        ∧ (¬kTaken → exec (.brMask m k i) s = issued (.brMask m k i) s s))
    ∧ (ready (.jmp i) s = true → exec (.jmp i) s = goes (.jmp i) rel s)
    ∧ (ready (.call a i) s = true → exec (.call a i) s = goes (.call a i) rel (withScalar a (t.pc + 4) s))
    ∧ (ready (.jr a i) s = true →
        let target := t.gs a + 4 * i.signExtend 64
        (target.toNat % 4 = 0 → exec (.jr a i) s = goes (.jr a i) target s)
        ∧ (target.toNat % 4 ≠ 0 → exec (.jr a i) s = .next (trapAt (.jr a i) 0x05 w 0 s)))
    ∧ (ready .nop s = true → exec .nop s = issued .nop s s))
  ∧ ∀ s : State, ready .exit s = true → awake s = true →
    let u := withdraw s.cur.id s
    let left : Team := { u.cur with exited := true, handler := false, tr := {}, reexec := none }
    exec .exit s = .next (tryRetire s.cur.id
      (retire s.cur .exit false (s.cur.pc + 4) (barRecheck s.cur.wg { u with cur := left.drain s.ck })))

/-- R269 to R273: each hint issues, changes only the latch, and is fed; the first of a group takes the snap of sig. A second
`hint.off`, `hint.mod` or `hint.sched`, a `hint.imm` apart from its run, or a fourth, makes the group malformed. -/
def Obligations.HintResults : Prop :=
  ∀ (s : State) (p : BitVec 23) (bx rm : BitVec 2) (sat ftz : Bool) (n : BitVec 3),
    let h := s.cur.hint
    let first := h.nimm = 0 ∧ h.offv = false ∧ h.modv = false ∧ h.schedv = false ∧ h.bad = false
    let g : Hint := if first then { snap := s.cur.sig } else h
    let latches (i : Instr) (x : Hint) : Prop := exec i s = issued i s { s with cur := { s.cur with hint := x } }
    let bad : Hint := { g with bad := true, lastImm := false }
    latches (.hintImm p) (if g.nimm = 0 then { g with imm := p.signExtend 64, nimm := 1, lastImm := true }
      else if g.lastImm = true ∧ g.nimm < 3 then { g with imm := g.imm * 2 ^ 23 + p.setWidth 64, nimm := g.nimm + 1 } else bad)
    ∧ latches (.hintOff p) (if g.offv then bad else { g with off := p, offv := true, lastImm := false })
    ∧ latches (.hintMod bx sat ftz rm)
        (if g.modv then bad else { g with bx := bx, sat := sat, ftz := ftz, rm := rm, modv := true, lastImm := false })
    ∧ latches (.hintSched n) (if g.schedv then bad else { g with sched := n, schedv := true, lastImm := false })

/-! ## Memory -/

/-- R330 to R332, R337 to R339: the locations of loads and stores, the tests before any effect (MISALIGNED 0x05, PROT_KEY 0x09), and the
requests that go to the load-store unit. -/
def Obligations.GlobalAccesses : Prop :=
  ∀ (s : State) (d a b : Reg) (ta tb : Bool) (z : Sz) (o : Ord) (sc : Scope),
    let t := s.cur
    let off : W64 := if t.hint.offv then t.hint.off.signExtend 64 else 0
    let n : Nat := match z with | .b8 => 1 | .b16 => 2 | .b32 => 4 | .b64 => 8
    let lanes := (List.range t.width).filter t.act
    let one : List Acc := [{ lane := 0, ptr := t.gs a + t.gs b + off, size := n, data := (t.gs d).toNat }]
    let each : List Acc := lanes.map fun l =>
      { lane := l, ptr := t.gs a + (t.lane b l).signExtend 64 + off, size := n
        data := if z = .b64 then (t.lane64 d l).toNat else (t.lane d l).toNat }
    let block : List Acc := lanes.map fun l =>
      { lane := l, ptr := t.gs a + t.gs b + off + BitVec.ofNat 64 (4 * l), size := 4, data := (t.lane d l).toNat }
    let dst : Dest := if d = 0 then .none else if z = .b64 then .vPair d else .v d
    let i1 := Instr.sld d a b ta tb z o sc
    let i2 := Instr.sst d a b ta tb z o sc
    let i3 := Instr.vld d a b ta tb z o sc
    let i4 := Instr.vst d a b ta tb z o sc
    let i5 := Instr.vldb d a b ta tb o sc
    let i6 := Instr.vstb d a b ta tb o sc
    accesses i1 false 1 one s (sendAccess i1 false .load .read (.s d) o sc one s)
    ∧ accesses i2 false 2 one s (sendAccess i2 false .store .write .none o sc one s)
    ∧ accesses i3 true 1 each s (sendAccess i3 true .load .read dst o sc each s)
    ∧ accesses i4 true 2 each s (sendAccess i4 true .store .write .none o sc each s)
    ∧ accesses i5 true 1 block s (sendAccess i5 true .load .read (.v d) o sc block s)
    ∧ accesses i6 true 2 block s (sendAccess i6 true .store .write .none o sc block s)

/-- R330, R343 to R347: the locations of atomics, compare-and-swaps and condition monitors, with their operands, under the tests of
R331 and R332. -/
def Obligations.AtomicAccesses : Prop :=
  ∀ (s : State) (p : AtomOp) (c : WCond) (d a b : Reg) (o : Ord) (sc : Scope),
    let t := s.cur
    let off : W64 := if t.hint.offv then t.hint.off.signExtend 64 else 0
    let bytes (wide : Nat) : Nat := match p with
      | .faddF32 | .addB32 | .xchgB32 => 4 | .faddF16 | .faddBf16 => 2 | _ => wide
    let pair (r : Reg) : Nat := (t.gs r).toNat + (t.gs (regNext r)).toNat * 2 ^ 64
    let one (n x y : Nat) : List Acc := [{ lane := 0, ptr := t.gs a + off, size := n, data := x, data2 := y }]
    let each (n : Nat) (x y : Nat → Nat) : List Acc :=
      ((List.range t.width).filter t.act).map fun l => { lane := l, ptr := t.lane64 a l + off, size := n, data := x l, data2 := y l }
    let sends (i : Instr) (vec : Bool) (op : ReqOp) (dst : Dest) (accs : List Acc) : Prop :=
      accesses i vec 3 accs s (sendAccess i vec .atomic op dst o sc accs s)
    let waits (i : Instr) (accs : List Acc) : Prop := accesses i false 1 accs s (sendAccess i false .waitc (.monitor c) (.s d) o sc accs s)
    sends (.satom p d a b o sc) false (.atom p) (.s d) (one (bytes 8) (t.gs b).toNat 0)
    ∧ sends (.vatom p d a b o sc) true (.atom p) (.v d) (each (bytes 4) (fun l => (t.lane b l).toNat) fun _ => 0)
    ∧ sends (.scas true d a b o sc) false .cas (.s d) (one 8 (t.gs d).toNat (t.gs b).toNat)
    ∧ sends (.scas false d a b o sc) false .cas (.s d) (one 4 (t.gs d).toNat (t.gs b).toNat)
    ∧ sends (.scas2 d a b o sc) false .cas (.sPair d) (one 16 (pair d) (pair b))
    ∧ sends (.vcas d a b o sc) true .cas (.v d) (each 4 (fun l => (t.lane d l).toNat) fun l => (t.lane b l).toNat)
    ∧ waits (.waitc64 c d a b o sc) (one 8 (t.gs b).toNat 0)
    ∧ waits (.waitc32 c d a b o sc) (one 4 ((t.gs b).toNat % 2 ^ 32) 0)

/-- R167, R341, R342: scratchpad stores write the data of the active lanes in ascending lane order, little-endian, at their offsets in the
workgroup's share; loads bring the bytes there into the active lanes at once. A misaligned lane traps MISALIGNED, a lane past the end
of the share PROT_KEY.
R185, R211: in a wide workgroup a release first sends the partition's dirty lines of the core to the slices, and waits while some is not
there; an acquire makes the core's clean copies unusable.
R334: an access behind an acquire that is not performed, a release behind anything of the team that is not, or one behind another that waits,
waits at the core, and the team issues on. -/
def Obligations.ScratchpadAccesses : Prop :=
  ∀ (s : State) (d a b : Reg) (ta tb : Bool) (z : Sz) (o : Ord) (sc : Scope),
    let t := s.cur
    let w := (wgOf t.wg s).getD {}
    let off : W64 := if t.hint.offv then t.hint.off.signExtend 64 else 0
    let n : Nat := match z with | .b8 => 1 | .b16 => 2 | .b32 => 4 | .b64 => 8
    let lanes := (List.range t.width).filter t.act
    let each (l : Nat) : Nat := (t.gs a + (t.lane b l).signExtend 64 + off).toNat
    let block (l : Nat) : Nat := (t.gs a + t.gs b + off + BitVec.ofNat 64 (4 * l)).toNat
    let data (l : Nat) : Nat := if z = .b64 then (t.lane64 d l).toNat else (t.lane d l).toNat
    let releases (store : Bool) : Prop := w.wide = true ∧ store = true ∧ (o = .rel ∨ o = .ar)
    let acquires (store : Bool) : Prop := w.wide = true ∧ store = false ∧ (o = .acq ∨ o = .ar)
    let held (store pair : Bool) (accs : List Acc) : State :=
      if lanes = [] then s
      else { s with nextId := s.nextId + 1
                    cur := { t with spq := t.spq ++ [{ id := s.nextId, store := store, ord := o, dst := d, pair := pair, inh := t.handler, accs := accs }] } }
    let eachAccs : List Acc := lanes.map fun l =>
      { lane := l, ptr := t.gs a + (t.lane b l).signExtend 64 + off, size := n, data := data l }
    let blockAccs : List Acc := lanes.map fun l =>
      { lane := l, ptr := t.gs a + t.gs b + off + BitVec.ofNat 64 (4 * l), size := 4, data := (t.lane d l).toNat }
    let tested (i : Instr) (at' : Nat → Nat) (n : Nat) (store : Bool) (waiting : State) (u : State → State) : Prop :=
      let mis := lanes.filter fun l => decide (at' l % n ≠ 0)
      let out := lanes.filter fun l => decide (w.share < at' l + n)
      ready i s = true →
        (mis ≠ [] → exec i s = .next (trapAt i 0x05 (maskOfLanes mis) 0 s))
        ∧ (mis = [] → out ≠ [] → exec i s = .next (trapAt i 0x09 (maskOfLanes out) (w64 (2 ^ 63)) s))
        ∧ (mis = [] → out = [] → spWaits o store s = true → exec i s = issued i s waiting)
        ∧ (mis = [] → out = [] → spWaits o store s = false → ¬releases store → ¬acquires store → exec i s = issued i s (u s))
        ∧ (mis = [] → out = [] → spWaits o store s = false → acquires store →
            exec i s = issued i s (bumpVersion true t.core (u s)))
        ∧ (mis = [] → out = [] → spWaits o store s = false → releases store →
            ((spRelease w s).1 = true → exec i s = issued i s (u (spRelease w s).2))
            ∧ ((spRelease w s).1 = false → exec i s = .next (spRelease w s).2))
    let stored (at' : Nat → Nat) (n : Nat) (x : Nat → Nat) (s : State) : State :=
      modWg w.id (fun w => lanes.foldl (fun w l => w.spPut (at' l) (bytesOfNat n (x l))) w) s
    let clean (at' : Nat → Nat) (n : Nat) : Prop := ∀ l ∈ lanes, ∀ i, i < n → w.spoison.contains (at' l + i) = false
    let value (at' : Nat → Nat) (n l : Nat) : W64 := w64 (natOfBytes (w.spBytes (at' l) n))
    let loaded (pair : Bool) (v : Nat → W64) (s : State) : State :=
      if lanes = [] then s
      else if pair then { s with cur := t.sv64 d fun l => if t.act l then some (v l) else none }
      else { s with cur := t.sv d fun l => if t.act l then some ((v l).setWidth 32) else none }
    let wide : Bool := decide (z = .b64)
    tested (.xst d a b ta tb z o sc) each n true (held true wide eachAccs) (stored each n data)
    ∧ tested (.xstb d a b ta tb o sc) block 4 true (held true false blockAccs) (stored block 4 fun l => (t.lane d l).toNat)
    ∧ (clean each n → tested (.xld d a b ta tb z o sc) each n false (held false wide eachAccs) (loaded wide (value each n)))
    ∧ (clean block 4 → tested (.xldb d a b ta tb o sc) block 4 false (held false false blockAccs) (loaded false (value block 4)))

/-! ## Fences and barriers -/

/-- R349 to R353: a fence and an arrival enter the team's order; a team waits on the shelf for a fence that is still there; a wait ends
with the phase of the team's latest arrival, or at once with the last completed phase, and delivers the result word.
R353: the result word of a barrier wait: SIBLING_ABANDON 0x12 in [7:0] or 0, the phase in [31:16], the count in [38:32]; the
wait clears the abandon mark and the team's arrival.
R295: a team that has exited, whose handler runs, arrives at no barrier. -/
def Obligations.FencesAndBarriers : Prop :=
  (∀ (s : State) (d a : Reg) (b : Fin 64) (o : Ord) (sc : Scope),
    let t := s.cur
    let fenced (i : Instr) (k : EntKind) (o : Ord) : Prop :=
      let e := issueEntry k o sc s
      let wait : Wait := .fence e.1
      ready i s = true → exec i s = issued i s
        (if entLives e.1 e.2 then
          { e.2 with cur := { e.2.cur.toShelf wait with owed := if e.2.cur.handler then e.2.cur.owed else some wait } }
         else e.2)
    let w := wgOf t.wg s
    let bar := ((w.map fun w => w.bar b.val).getD {})
    let T := (w.map (·.T)).getD 1
    let n := (t.gs a).toNat % 128
    let free : Prop := t.exited = true ∨ (pendingArrival b.val s = none ∧ latestArrival b.val s ≠ some bar.phase)
    let arrived : State := if t.exited then s else (issueEntry (.barArr b.val (if n = 0 ∨ T < n then T else n)) .rel .wg s).2
    let marked : State := { arrived with cur := { arrived.cur with syncAt := some (arrived.cur.pc, b.val) } }
    fenced (.fence o sc) (.fence false) o
    ∧ fenced (.fenceSc sc) (.fence true) .rlx
    ∧ (ready (.barArr a b) s = true → free → exec (.barArr a b) s = issued (.barArr a b) s arrived)
    ∧ (ready (.barWait d b) s = true → waitEnds b.val s → exec (.barWait d b) s = issued (.barWait d b) s (waitResult b.val d s))
    ∧ (ready (.barSync d a b) s = true → t.syncAt ≠ some (t.pc, b.val) → free → waitEnds b.val marked →
        exec (.barSync d a b) s = issued (.barSync d a b) s (waitResult b.val d marked))
    ∧ (ready (.barSync d a b) s = true → t.syncAt = some (t.pc, b.val) → waitEnds b.val s →
        exec (.barSync d a b) s = issued (.barSync d a b) s (waitResult b.val d s)))
  ∧ ∀ (s : State) (d : Reg) (b phase count : Nat),
    let code : Nat := if s.cur.abandon then 0x12 else 0
    let word : W64 := BitVec.ofNat 64 (code + phase % 2 ^ 16 * 2 ^ 16 + count % 128 * 2 ^ 32)
    finishBarWait s.cur.id b false d phase count s
      = withScalar d word { s with cur := { s.cur with abandon := false, syncAt := none, arrived := s.cur.arrived.filter fun x => x.1 != b } }

/-! ## Engines -/

/-- R139, R357, R361 to R363: a copy whose global pointers have the rights is queued on the C context, at most 16 in flight; its token
register becomes empty. The engine reads the length word, the strides and the spaces at issue. Without the rights it traps PROT_KEY. -/
def Obligations.CopyIssue : Prop :=
  ∀ (s : State) (d a b l : Reg),
    let t := s.cur
    let x := (t.gs l).toNat
    let y := (t.gs (regNext l)).toNat
    let allowed (dsp ssp : Nat) : Prop :=
      (dsp = 0 → pktOf t.part (keyOf (t.gs a)) s &&& 2 = 2) ∧ (ssp = 0 → pktOf t.part (keyOf (t.gs b)) s &&& 1 = 1)
    let empty : State := { s with cur := if d = 0 then t else t.setS d { t.sreg d with full := false, poison := false } }
    let queued (op : EOp) : State := causeOnce (.copyChunk t.id) (issueOp 0 op empty)
    let copies (i : Instr) (dsp ssp : Nat) (op : EOp) : Prop :=
      ready i s = true →
        (allowed dsp ssp → t.c.inFlight < 16 → exec i s = issued i s (queued op))
        ∧ (¬allowed dsp ssp → exec i s = .next (trapAt i 0x09 (fullMask t.width) (w64 (2 ^ 63)) s))
    copies (.cpy d a b l) (x / 2 ^ 32 % 4) (x / 2 ^ 34 % 4)
      (.copy (t.gs a) (t.gs b) 1 (x % 2 ^ 32) 0 0 (x / 2 ^ 32 % 4) (x / 2 ^ 34 % 4) d (x / 2 ^ 36 != 0))
    ∧ copies (.cpy2d d a b l) (x / 2 ^ 48 % 4) (x / 2 ^ 50 % 4)
      (.copy (t.gs a) (t.gs b) (x / 2 ^ 24 % 2 ^ 24) (x % 2 ^ 24) (y % 2 ^ 32) (y / 2 ^ 32) (x / 2 ^ 48 % 4) (x / 2 ^ 50 % 4) d (x / 2 ^ 52 != 0))

/-- R357, R364 to R369, R371: with fewer than 8 operations in flight on the M context, `mcfg`, `midx`, `mloop`, `mzero` and the scratchpad
form of `mmov` are queued with what they read at issue, and the matrix engine looks at its contexts; `mcfg` sets the shape latch;
`mburst` sets the Damper's hold count.
R370: the register form of `mmov` is performed at issue once the M context is empty: column `i` of the block goes to the low lanes of
register d + i, 8-bit results as bytes of their own element, the conversion's flags to `mflag`; before any effect it traps
ENGINE_FAULT with cause 0x01 (a bad move word), 0x04 (no such tile) or 0x05 (no configuration). -/
def Obligations.MatrixIssue : Prop :=
  (∀ (s : State) (d a b : Reg) (adv : Bool) (sel : Fin 4) (tile : Bool),
    let t := s.cur
    let n := (128 + t.width - 1) / t.width
    let row (r : Nat) : List W32 := (List.range t.width).map fun l => t.lane ⟨r % 64, Nat.mod_lt _ (by decide)⟩ l
    let queued (op : EOp) : State := causeOnce (.matrixStep t.core) (issueOp 1 op s)
    let queues (i : Instr) (op : EOp) : Prop := ready i s = true → t.m.inFlight < 8 → exec i s = issued i s (queued op)
    let x := (t.gs a).toNat
    let shaped (u : State) : State := { u with cur := { u.cur with shape := (x % 2 ^ 8, x / 2 ^ 8 % 2 ^ 10, x / 2 ^ 18 % 2 ^ 3) } }
    let scale := scaleRegs t (t.gs d) adv (t.msel sel)
    let loop : EOp := .mloop (t.gs d) (t.gs a) (t.gs b) adv (t.msel sel) scale.1 scale.2
    let key : Prop := pktOf t.part (keyOf (t.gs b)) s &&& 1 = 1
    (ready (.mcfg a b) s = true → t.m.inFlight < 8 →
      exec (.mcfg a b) s = issued (.mcfg a b) s (shaped (queued (.mcfg (t.gs a) (t.gs b)))))
    ∧ queues (.midx a) (.midx (((List.range n).flatMap fun i => row (a.val + i)).take 128))
    ∧ (loopGlobal t = false ∨ key → queues (.mloop d a b adv sel) loop)
    ∧ (ready (.mloop d a b adv sel) s = true → loopGlobal t = true → ¬key →
        exec (.mloop d a b adv sel) s = .next (trapAt (.mloop d a b adv sel) 0x09 (fullMask t.width) (w64 (2 ^ 63)) s))
    ∧ queues (.mzero tile) (.mzero (if tile then 1 else 0))
    ∧ queues (.mmovScratchpad d a b) (.mmov (t.gs d) (t.gs a) (t.gs b))
    ∧ (ready (.mburst a) s = true → exec (.mburst a) s
        = issued (.mburst a) s (modCore t.core (fun c =>
            { c with hold := some (x % 2 ^ 32), ramp := if c.idle = 0 then c.ramp else 0, idle := 0 }) s)))
  ∧ ∀ (s : State) (d a : Reg),
    let t := s.cur
    let i := Instr.mmovRegister d a
    let m := moveOf (t.gs a)
    let w := (wgOf t.wg s).getD {}
    let rows := min t.width (128 - m.row0)
    let out (u : Team) (r : Reg) (x : Nat → W32) : Team := u.sv r fun l => if l < rows then some (x l) else none
    let traps (c : Nat) : Prop := exec i s = .next (trapAt i 0x0C (fullMask t.width) (w64 (1 + c * 2 ^ 8 + 2 ^ 16)) s)
    ready i s = true → t.m.inFlight = 0 →
      (moveOk (t.gs a) = false → traps 0x01)
      ∧ (moveOk (t.gs a) = true → w.atiles ≤ m.tile → traps 0x04)
      ∧ (moveOk (t.gs a) = true → m.tile < w.atiles → t.mcfg = none → traps 0x05)
      ∧ (∀ c, moveOk (t.gs a) = true → m.tile < w.atiles → t.mcfg = some c → w.apoison.contains (tileKey t w m.tile) = false →
          let block := moveBlock t w m c.sat rows
          let u := (List.range m.cnt).foldl (fun u j =>
            out u ⟨(d.val + j) % 64, Nat.mod_lt _ (by decide)⟩ fun l => laneElem m.cvt (block.1 l j)) t
          exec i s = issued i s (orMflag t.id block.2 { s with cur := u }))

/-- R357, R373: a part of a collective whose descriptor pointer may be read is queued on the L context, at most four in flight, and its
engine step is caused; without the right it traps PROT_KEY. -/
def Obligations.CollectiveIssue : Prop :=
  ∀ (s : State) (a : Reg),
    let t := s.cur
    let key : Prop := pktOf t.part (keyOf (t.gs a)) s &&& 1 = 1
    let queued (kind : Nat) : State :=
      let u := issueOp 2 (.coll kind (t.gs a)) s
      match u.cur.l.ops.getLast? with
      | some o => { u with agenda := u.agenda ++ [ownStep t.id o.id t.part] }
      | none => u
    let parts (i : Instr) (kind : Nat) : Prop :=
      ready i s = true →
        (key → t.l.inFlight < 4 → exec i s = issued i s (queued kind))
        ∧ (¬key → exec i s = .next (trapAt i 0x09 (fullMask t.width) (w64 (2 ^ 63)) s))
    parts (.cred a) 0 ∧ parts (.cbcast a) 1 ∧ parts (.cgath a) 2

/-- R356, R359, R360, R372: `efence` closes the open batch and delivers its number; `ewait` closes it and waits for a number; both trap
ENGINE_FAULT on a context that has failed. `tlrd` and `tlwait` look at the context of the sibling with the number named, or
deliver bit 63 alone when there is none. -/
def Obligations.TimelineResults : Prop :=
  ∀ (s : State) (x : Ctx) (d a b : Reg),
    let t := s.cur
    let c : Fin 3 := match x with | .c => 0 | .m => 1 | .l => 2
    let e := t.ectx c
    let faulted := e.efault.getLsbD 8
    let n := (t.gs a).toNat
    let sibling (m : Nat) : Option Team := (allTeams s).find? fun u => u.wg == t.wg && u.num == m && u.id != 0
    let empty (u : Team) : Team := if d = 0 then u else u.setS d { u.sreg d with full := false, poison := false }
    let traps (i : Instr) : Prop := exec i s = .next (trapAt i 0x0C (fullMask t.width) (w64 c.val) s)
    let waiting (u : State) (target : Nat) : State :=
      advance target c { u with twaits := u.twaits ++ [{ team := t.id, dest := d, inh := t.handler, target := target, ctx := c, n := n }] }
    (ready (.efence x d) s = true →
      (faulted = true → traps (.efence x d))
      ∧ (faulted = false → exec (.efence x d) s
          = issued (.efence x d) s (advance t.id c (withScalar d (w64 e.close.last) { s with cur := t.putEctx c e.close }))))
    ∧ (ready (.ewait x d a) s = true →
      (faulted = true → traps (.ewait x d a))
      ∧ (faulted = false → n ≤ e.close.last → exec (.ewait x d a) s
          = issued (.ewait x d a) s (waiting { s with cur := empty (t.putEctx c e.close) } t.id))
      ∧ (faulted = false → e.close.last < n → d ≠ 0 → exec (.ewait x d a) s = issued (.ewait x d a) s
          { s with cur := empty (t.putEctx c e.close)
                   agenda := s.agenda ++ [.registerFill { team := t.id, dest := .s d, vals := [(0, e.close.timeline + 2 ^ 63)], inh := t.handler, ctx := some (t.id, c) }] }))
    ∧ (ready (.tlrd x d a) s = true →
      (sibling (n % 64) = none → exec (.tlrd x d a) s = issued (.tlrd x d a) s (withScalar d (w64 (2 ^ 63)) s))
      ∧ (∀ u, sibling (n % 64) = some u →
          let f := u.ectx c
          let marked := f.marked f.timeline
          let read (v : State) := issued (.tlrd x d a) s (withScalar d (w64 (f.deliver f.timeline)) v)
          (marked = true → exec (.tlrd x d a) s = read s)
          ∧ (marked = false → u.core = t.core → exec (.tlrd x d a) s = read (observe t.core c s))
          ∧ (marked = false → u.core ≠ t.core → (publish u s).1 = true →
              exec (.tlrd x d a) s = read (observe t.core c (publish u s).2))
          ∧ (marked = false → u.core ≠ t.core → (publish u s).1 = false → exec (.tlrd x d a) s = .next (publish u s).2)))
    ∧ (ready (.tlwait x d a b) s = true →
      let m := (t.gs b).toNat % 64
      (sibling m = none → exec (.tlwait x d a b) s = issued (.tlwait x d a b) s (withScalar d (w64 (2 ^ 63)) s))
      ∧ (∀ u, sibling m = some u → exec (.tlwait x d a b) s
          = issued (.tlwait x d a b) s (waiting { s with cur := empty t } u.id)))

/-! ## Queues and launches of a team -/

/-- R90 to R93, R97, R139, R378: `tqenq`, `tqdeq`, `tqdec` need R and W on their object's key and enter the team's order with the operation;
`launch` enters it with the record's address, for this module when rb names s0, else for the module in sB[15:0]. -/
def Obligations.QueueIssue : Prop :=
  ∀ (s : State) (d a b : Reg),
    let t := s.cur
    let off : W64 := if t.hint.offv then t.hint.off.signExtend 64 else 0
    let p := t.gs a + off
    let rights : Prop := pktOf t.part (keyOf p) s &&& 3 = 3
    let room : Prop := (s.lsu.filter fun e => e.tracked && e.req.core == t.core).length + 1 ≤ 1024
    let at' (p : W64) : List Acc := [{ lane := 0, ptr := p, size := 1 }]
    let operates (i : Instr) (k : QKind) (dst : Dest) (o : Ord) : Prop :=
      ready i s = true →
        (rights → room → exec i s = issued i s (sendAccess i false (.queue k) .query dst o .dev (at' p) s))
        ∧ (¬rights → exec i s = .next (trapAt i 0x09 (fullMask t.width) (w64 (2 ^ 63)) s))
    let here := (ctlRaw .modid s).toNat % 2 ^ 16
    let module := if b = 0 then here else (t.gs b).toNat % 2 ^ 16
    operates (.tqenq d a b) (.enq (t.gs b) (t.gs (regNext b))) (.s d) .rel
    ∧ operates (.tqdeq d a) .deq (.sPair d) .acq
    ∧ operates (.tqdec d a) .dec (.s d) .ar
    ∧ (ready (.launch d a b) s = true → room → exec (.launch d a b) s = issued (.launch d a b) s
        (sendAccess (.launch d a b) false (.launch p module) .query (.s d) .rel (if module = here then .dev else .sys) (at' 0) s))

/-! ## System instructions -/

/-- R389 to R394, R397: the results of the system instructions that read and write control registers, the signature, capacities, a fault
record, and keys. -/
def Obligations.SystemResults : Prop :=
  ∀ (s : State) (d a b : Reg),
    let t := s.cur
    let reg := ctlNumber t.part t.hint.imm.toNat
    let x := (t.gs a).toNat
    let core := if x % 2 ^ 8 = 0xFF then t.core else x % 2 ^ 8
    let kind := x / 2 ^ 8 % 2 ^ 2
    let c := coreOf core s
    let free : Nat := match kind with
      | 0 => 8 * c.usable 0 - (granHeld core s).eraseDups.length
      | 1 => unitsFree t.part core s
      | _ => c.usable 2 / 16 - (tilesHeld core s).eraseDups.length
    let capacity : W64 := if ncores s ≤ core ∨ kind = 3 then 0
      else w64 (c.usable kind + (c.spares kind).length * 2 ^ 8 + free * 2 ^ 16 + (if c.raking then 1 else 0) * 2 ^ 32)
    let record : List Byte := (((t.records.filter fun r => !r.hostHeld)[x % 2 ^ 10]?).map FaultRec.bytes).getD (List.replicate 32 0)
    let word (i : Nat) : W64 := w64 (natOfBytes (sliceBytes record (8 * i) 8))
    let key := x % 2 ^ 8
    let grant := (ctlRaw (.partKgrant t.part (key / 16)) s).toNat / 2 ^ (4 * (key % 16)) % 2 ^ 3
    let rights : BitVec 3 := BitVec.ofNat 3 ((t.gs b).toNat % 2 ^ 3) &&& BitVec.ofNat 3 grant
    let loaded : State := { s with pkt := alSet (t.part, key) rights s.pkt }
    (ready (.ctlrd d) s = true → exec (.ctlrd d) s = issued (.ctlrd d) s (withScalar d ((reg.map fun r => ctlRead r s).getD 0) s))
    ∧ (ready (.ctlwr a) s = true → ∀ r, reg = some r →
        ((t.ctlGet r).isSome = true → exec (.ctlwr a) s = issued (.ctlwr a) s { s with cur := (t.ctlSet r (t.gs a)).keepSet s.ck })
        ∧ ((t.ctlGet r).isSome = false → exec (.ctlwr a) s = issued (.ctlwr a) s (putReg t.part r (t.gs a) s)))
    ∧ (ready (.sigrd d) s = true → exec (.sigrd d) s
        = issued (.sigrd d) s (withScalar d (if t.handler then t.tr.sig.setWidth 64 else t.sig.setWidth 64) s))
    ∧ (ready (.capq d a) s = true → exec (.capq d a) s = issued (.capq d a) s (withScalar d capacity s))
    ∧ (ready .yield s = true → exec .yield s = issued .yield s
        { s with cur := { t with status := .shelfReady, readySince := s.ck, passed := 0, urgent := none, yielded := true } })
    ∧ (ready (.fltinfo d a) s = true → exec (.fltinfo d a) s = issued (.fltinfo d a) s
        (withScalar (regNext (regNext (regNext d))) (word 3) (withScalar (regNext (regNext d)) (word 2)
          (withScalar (regNext d) (word 1) (withScalar d (word 0) s)))))
    ∧ (ready (.pkload d a b) s = true → exec (.pkload d a b) s = issued (.pkload d a b) s
        (if d = 0 then loaded
         else { loaded with cur := t.setS d { t.sreg d with full := false, poison := false }
                            agenda := s.agenda ++ [.registerFill { team := t.id, dest := .s d, vals := [(0, rights.toNat)], inh := true }] }))

/-- R157, R395, R396: `replay` and `replay.discard` act on records i to i + c − 1 of the team (c = 0: every record from i on), in the order
their requests were issued; `pmap` joins the queue of the module's one mapping operation and its destination becomes empty. -/
def Obligations.RecordAndMapCommands : Prop :=
  ∀ (s : State) (d a b : Reg),
    let t := s.cur
    let from' := (t.records.filter fun r => !r.hostHeld).drop ((t.gs a).toNat % 2 ^ 10)
    let c := (t.gs b).toNat % 2 ^ 10
    let named := (if c = 0 then from' else from'.take c).mergeSort fun x y => x.ent ≤ y.ent
    let id := s.nextId
    let dst : Dest := if d = 0 then .none else .s d
    let entry : LsuEnt :=
      { id := id, kind := .pmap (t.gs a) (t.gs b), group := id, pc := t.pc, inh := true, phase := .sent, dest := dst
        req := { baseReq { s with nextId := id + 1 } .query .rlx .dev with id := id, ptr := t.gs a } }
    let queued : State := { s with nextId := id + 1, lsu := s.lsu ++ [entry], mapq := s.mapq ++ [id], cur := t.markEmpty dst }
    (ready (.replay a b) s = true → exec (.replay a b) s
      = issued (.replay a b) s (named.foldl (fun u r => replayRec t.id r u) s))
    ∧ (ready (.replayDiscard a b) s = true → exec (.replayDiscard a b) s
      = issued (.replayDiscard a b) s (named.foldl (fun u r => discardRec t.id r u) s))
    ∧ (ready (.pmap d a b) s = true → (s.lsu.filter fun e => e.tracked && e.req.core == t.core).length < 1024 → exec (.pmap d a b) s
      = issued (.pmap d a b) s (causeOnce .mappingOpComplete queued))

/-! ## Taking an exception and returning from one -/

/-- R380 to R382, R384: a trap of a team in normal state whose partition has a handler vector enters the handler. It saves the resume
address, k0, sig, the latch and s48 to s63, sets s60 to s63 full and clean, makes an empty live s48 to s59 zero, and sets k0 and the
pc. Everything outside the team's trap state, the causes at this instruction that it holds, s48 to s63, k0, latch, pc, line buffer and issue slot
stays as it was.
R123, R380, R384: a trap of a team in handler state, or of one whose partition has no handler vector, kills the team. -/
def Obligations.TrapEntry : Prop :=
  (∀ (s : State) (x : Trap),
    let t := s.cur
    let vector := ctlRaw (.partHvec t.part) s
    let base := vector.toNat / 2 ^ 11 * 2 ^ 11
    t.handler = false → vector.getLsbD 0 = true →
      let u := takeTrap x s
      let v := u.cur
      v.handler = true ∧ v.hint = {} ∧ v.gk 0 = x.lanes ∧ v.pc = BitVec.ofNat 64 (base + 64 * x.cause.toNat)
      ∧ v.tr.cause = x.cause ∧ v.tr.ipc = x.ipc ∧ v.tr.pc = x.resume ∧ v.tr.word = x.word ∧ v.tr.info = x.info
      ∧ v.tr.sig = t.sig ∧ v.tr.hint = x.hint ∧ v.tr.k0 = t.gk 0 ∧ v.tr.entry = x.lanes ∧ v.tr.mm = t.mm ∧ v.tr.sync = t.syncAt
      ∧ v.mm = none ∧ v.syncAt = none ∧ v.ilines = [] ∧ v.ahead = [] ∧ v.fetching = false
      ∧ (∀ i : Fin 16, v.tr.s[i.val] = t.s[48 + i.val])
      ∧ (∀ r : Reg, r.val < 48 → v.s[r.val] = t.s[r.val])
      ∧ (∀ r : Reg, 48 ≤ r.val → r.val < 60 → v.s[r.val] = if t.s[r.val].full then t.s[r.val] else { val := 0 })
      ∧ v.s[60] = { val := x.cause.setWidth 64 } ∧ v.s[61] = { val := x.ipc } ∧ v.s[62] = { val := x.word.setWidth 64 }
      ∧ v.s[63] = { val := ctlRaw (.partHdata t.part) s }
      ∧ (∀ k : KReg, k ≠ 0 → v.gk k = t.gk k)
      ∧ { t with handler := true, tr := v.tr, mm := none, syncAt := none, hint := {}, s := v.s, k := v.k, pc := v.pc, busy := s.ck
                 ilines := [], ahead := [], fetching := false, fetchBad := false } = v
      ∧ { u with cur := t } = s)
  ∧ ∀ (s : State) (x : Trap),
    s.cur.handler = true ∨ (ctlRaw (.partHvec s.cur.part) s).getLsbD 0 = false → takeTrap x s = killTeam s.cur.id s

/-- R386: `eret` of a team that has not exited and owes no wait restores k0, sig, the latch, s48 to s63 and the pc, and returns to
normal state; for cause 0x03 the latch is empty; for cause 0x0B with an unchanged resume address the instruction at ipc runs once under the
mask the handler was entered with before the saved k0 governs. -/
def Obligations.ReturnFromTrap : Prop :=
  ∀ s : State,
    let t := s.cur
    let pc : W64 := BitVec.ofNat 64 (t.tr.pc.toNat / 4 * 4)
    ready .eret s = true → awake s = true → t.handler = true → t.status = .hob → t.exited = false → t.owed = none →
      ∃ u, exec .eret s = .next u
        ∧ u.cur.handler = false ∧ u.cur.pc = pc ∧ u.cur.sig = t.tr.sig
        ∧ u.cur.hint = (if t.tr.cause = 0x03 then {} else t.tr.hint)
        ∧ (∀ i : Fin 16, u.cur.s[48 + i.val] = t.tr.s[i.val]) ∧ (∀ r : Reg, r.val < 48 → u.cur.s[r.val] = t.s[r.val])
        ∧ (t.tr.cause ≠ 0x0B ∨ pc ≠ t.tr.ipc → u.cur.gk 0 = t.tr.k0)
        ∧ (t.tr.cause = 0x0B → pc = t.tr.ipc → u.cur.gk 0 = t.tr.entry ∧ u.cur.reexec = some t.tr.k0)
        ∧ (∀ k : KReg, k ≠ 0 → u.cur.gk k = t.gk k) ∧ u.cur.v = t.v ∧ u.cur.flags = t.flags ∧ u.cur.status = .hob
        ∧ u.mem = s.mem ∧ u.ctl = s.ctl ∧ u.teams = s.teams ∧ u.agenda = s.agenda ∧ u.lsu = s.lsu ∧ u.wgs = s.wgs

/-- R267, R388, R391, R122: `trap n` enters handler code 0x1C behind itself; `sigchk` compares snap with imm and resets sig, or on a
mismatch traps SIGNATURE behind itself or kills; an extension word of an absent group traps EXT_EMULATE behind itself with the group before
it saved, waits for the host's emulation when `ctl.duty` says so, and kills in handler state. -/
def Obligations.TrapInstructions : Prop :=
  ∀ (s : State) (n : BitVec 12) (g : BitVec 8) (b : BitVec 18),
    let t := s.cur
    let enters (i : Instr) (cause : Byte) (info : W64) (h : Hint) (u : State) : Prop :=
      exec i s = .next (takeTrap { cause := cause, lanes := fullMask t.width, ipc := t.pc, resume := t.pc + 4, word := w32 (encodeWord i)
                                   info := info, hint := h } u)
    let fed (i : Instr) : State := feedWatchdog i { s with cur := { t with sig := fedSig t i false, hint := {} } }
    let want : W32 := t.hint.imm.setWidth 32
    let reset : State := { s with cur := { t with sig := 0xFFFF_FFFF } }
    let mismatch : Prop := t.sigOn = true ∧ t.hint.snap ≠ want
    let policy := (ctlRaw (.sigpol t.part) s).toNat % 2
    let ext := Instr.extensionWord g b
    (ready (.trap n) s = true → enters (.trap n) 0x1C (n.setWidth 64) {} (fed (.trap n)))
    ∧ (ready .sigchk s = true →
        (t.handler = true → exec .sigchk s = issued .sigchk s s)
        ∧ (t.handler = false → ¬mismatch → exec .sigchk s = issued .sigchk s reset)
        ∧ (t.handler = false → mismatch → policy = 1 → exec .sigchk s = .next (killTeam t.id s))
        ∧ (t.handler = false → mismatch → policy = 0 →
            enters .sigchk 0x04 (w64 (t.hint.snap.toNat + want.toNat * 2 ^ 32)) {} (feedWatchdog .sigchk reset)))
    ∧ (ready ext s = true →
        (t.handler = true → exec ext s = .next (killTeam t.id s))
        ∧ (t.handler = false → (ctlRaw .duty s).getLsbD 5 = false → enters ext 0x03 0 t.hint (fed ext))
        ∧ (t.handler = false → (ctlRaw .duty s).getLsbD 5 = true → ∃ u, exec ext s = .next u
            ∧ u.cur.handler = true ∧ u.cur.emu = true ∧ u.cur.status = .shelfWait .host
            ∧ u.cur.tr.cause = 0x03 ∧ u.cur.tr.pc = t.pc + 4 ∧ u.cur.tr.ipc = t.pc ∧ u.cur.tr.word = w32 (encodeWord ext)))

/-! ## Decoding and stepping -/

/-- R250 to R275: every well-formed instruction's word, with every operand at every value, lies below 2^32 and decodes to that
instruction; every word that decodes is the word of exactly the well-formed instruction it decodes to, so that no bit of it is dropped. -/
def Obligations.DecodeIsExact : Prop :=
  (∀ (i : Instr) (w : Nat), i.wf = true → encode i = some w → w < 2 ^ 32 ∧ decode w = .ok i)
  ∧ (∀ (i : Instr) (w : Nat), w < 2 ^ 32 → decode w = .ok i → i.wf = true ∧ encode i = some w)

/-- Words of the manual's examples and encoding tables, written out from their fields (R250, R253, R257, R260 to R264, R269). -/
def Obligations.DecodedWords : Prop :=
  decode 0xB0414636 = .ok (.sld 4 5 6 false false .b64 .acq .dev) ∧ decode 0xD041460E = .ok (.satom .add 4 5 6 .ar .dev)
  ∧ decode 0x8C614018 = .ok (.vfcvt .e4m3 .f32 6 5 false) ∧ decode 0xE0910506 = .ok (.cpy 9 4 5 6)
  ∧ decode 0x27000000 = .ok (.smovi 48 0) ∧ decode 0xF6800160 = .ok (.jmp 0x160)
  ∧ decode 0xDC310540 = .ok (.barSync 3 4 5) ∧ decode 0xF0000002 = .ok .eret ∧ decode 0 = .error .major

/-- R110, R161, R252, R265, R269: a step of a picked team that holds a Hob place and has nothing pending, at a word its instruction line
holds: the word's instruction is carried out; a word that is none traps ILLEGAL at itself, and a hint of a reserved form issues as a hint. -/
def Obligations.StepRunsDecoded : Prop :=
  ∀ (s : State) (id : Nat) (rest : List Nat) (line : W64 × List Byte) (i : Instr),
    let u := focus id { s with issue := rest }
    let t := u.cur
    let w := natOfBytes (sliceBytes line.2 (vaOf t.pc % 64 / 4 * 4) 4)
    s.cond ≠ .unpowered → s.issue = id :: rest → t.status = .hob → t.emu = false → t.mismatched = false →
    (t.handler = true ∨ (t.pendingCause = none ∧ t.exited = false)) →
    t.ilines.find? (fun l => l.1 == linePtr t.pc && !l.2.isEmpty) = some line →
      (decode w = .ok i → step s = exec i u)
      ∧ (decode w = .error .badHint → step s = .next (badHintWord w u))
      ∧ (∀ r, decode w = .error r → r ≠ .badHint → step s = .next
          (takeTrap { cause := 0x01, lanes := fullMask t.width, ipc := t.pc, resume := t.pc, word := w32 w, hint := t.hint } u))

/-- R2, R44, R217: a step with no team picked is one of the caused events that may come next, chosen by the free value, or one ck; the
module stops only without power.
R67, R69: a request that is queued at a slice or a home gives way to the one that its arbiter serves next; any other event takes place
itself. -/
def Obligations.StepTakesEvent : Prop :=
  ∀ s : State,
    let u : State := { s with free := s.free + 1 }
    let next := enabledFrom s [] [] s.agenda
    let n := Config.pick s.free % (next.length + 1)
    (s.cond = .unpowered → step s = .fault .unpowered)
    ∧ (s.cond ≠ .unpowered → s.issue = [] → next = [] → step s = .next (tick s))
    ∧ (s.cond ≠ .unpowered → s.issue = [] → next ≠ [] → ∀ e, next[n]? = some e →
        let x := arbitrate next e u
        step s = exec x.1.1 { x.2 with agenda := x.1.2 } ∧ (queuedAt u e.1 = none → step s = exec e.1 { u with agenda := e.2 }))
    ∧ (s.cond ≠ .unpowered → s.issue = [] → next ≠ [] → next[n]? = none → step s = .next (tick u))
    ∧ (∀ i, ∃ t, exec i s = .next t)

/-- R266: the tests before any effect, in their order, at `sadd` (two scalar sources), at `vst` (a scalar source, a vector source and the data) and at
an extension word: ILLEGAL, EXT_EMULATE, EMPTY_OPERAND for a source with its trap bit, the wait on the shelf for a register that is not full
(R115, R116) or on the Hob for one that a scratchpad load has yet to write, the kill for a poisoned source, then for the lanes that meet them
MISALIGNED and PROT_KEY. None of them issues the instruction.
R120, R121, R107, R386, R71: what issuing a word does besides its effect: sig is fed, the latch is consumed unless the word is a hint,
the pc moves on, the unit is held for the passes, and the launch's watchdog count returns to 0. Nothing else changes. -/
def Obligations.IssuingWords : Prop :=
  (∀ (s : State) (d a b : Reg) (ta tb : Bool),
    let t := s.cur
    let i := Instr.sadd d a b ta tb
    let full (r : Reg) : Bool := (t.sreg r).full
    let poison (r : Reg) : Bool := (t.sreg r).poison
    let group : Prop := t.hint.bad = true ∨ t.hint.nimm ≠ 0 ∨ t.hint.offv = true ∨ t.hint.modv = true
    let legal : Prop := ¬group
    let trap (c : Byte) (info : W64) : Prop := exec i s = .next (trapAt i c (fullMask t.width) info s)
    (group → trap 0x01 1)
    ∧ (legal → ta = true → full a = false → trap 0x02 0)
    ∧ (legal → (ta = true → full a = true) → tb = true → full b = false → trap 0x02 1)
    ∧ (legal → (ta = true → full a = true) → (tb = true → full b = true) → (full a && full b && full d) = false →
        ∃ ss vs, exec i s = .next { s with cur := t.toShelf (.regs ss vs) } ∧ ∀ r, r ∈ ss ↔ (r = a ∨ r = b ∨ r = d) ∧ full r = false)
    ∧ (legal → full a = true → full b = true → full d = true → (poison a || poison b) = true → exec i s = .next (killTeam t.id s))
    ∧ (legal → full a = true → full b = true → full d = true → (poison a || poison b) = false →
        exec i s = issued i s (withScalar d (t.gs a + t.gs b) s)))
  ∧ (∀ (s : State) (d a b : Reg) (ta tb : Bool) (z : Sz) (o : Ord) (sc : Scope), z ≠ .b64 →
    let t := s.cur
    let i := Instr.vst d a b ta tb z o sc
    let n : Nat := match z with | .b8 => 1 | .b16 => 2 | _ => 4
    let empty (x : RegName) : Prop := t.isFull x = false
    let group : Prop := t.hint.bad = true ∨ t.hint.nimm ≠ 0 ∨ t.hint.modv = true
    let absent : Prop := t.v.length ≤ b.val ∨ t.v.length ≤ d.val
    let legal : Prop := ¬group ∧ ¬absent
    let trapped : Prop := ta = true ∧ empty (.s a) ∨ tb = true ∧ empty (.v b)
    let full : Prop := ¬empty (.s a) ∧ ¬empty (.v b) ∧ ¬empty (.v d)
    let poison : Prop := (t.sreg a).poison = true ∨ (t.vreg b).poison = true ∨ (t.vreg d).poison = true
    let hob : Bool := t.pending (.v b) || t.pending (.v d)
    let off : W64 := if t.hint.offv then t.hint.off.signExtend 64 else 0
    let ptr (l : Nat) : W64 := t.gs a + (t.lane b l).signExtend 64 + off
    let lanes := (List.range t.width).filter t.act
    let mis := lanes.filter fun l => decide (vaOf (ptr l) % n ≠ 0)
    let bad := lanes.filter fun l => decide (pktOf t.part (keyOf (ptr l)) s &&& 2 ≠ 2)
    let trap (c : Byte) (m : Mask) (info : W64) : Prop := exec i s = .next (trapAt i c m info s)
    (group → trap 0x01 (fullMask t.width) 1)
    ∧ (¬group → absent → trap 0x01 (fullMask t.width) 0)
    ∧ (legal → ta = true → empty (.s a) → trap 0x02 (fullMask t.width) 0)
    ∧ (legal → (ta = true → ¬empty (.s a)) → tb = true → empty (.v b) → trap 0x02 (fullMask t.width) 1)
    ∧ (legal → ¬trapped → ¬full →
        ∃ ss vs, exec i s = .next { s with cur := t.toShelf (.regs ss vs) } ∧ (∀ r, r ∈ ss ↔ r = a ∧ empty (.s r))
          ∧ ∀ r, r ∈ vs ↔ (r = b ∨ r = d) ∧ empty (.v r))
    ∧ (legal → full → hob = true → exec i s = .next s)
    ∧ (legal → full → hob = false → poison → exec i s = .next (killTeam t.id s))
    ∧ (legal → full → hob = false → ¬poison →
        (mis ≠ [] → trap 0x05 (maskOfLanes mis) 0) ∧ (mis = [] → bad ≠ [] → trap 0x09 (maskOfLanes bad) (w64 (2 ^ 63)))))
  ∧ (∀ (s : State) (g : BitVec 8) (b : BitVec 18), g ≠ 0 → bit (ctlRaw (.feat (g.toNat / 64)) s) (g.toNat % 64) = false → s.cur.handler = false →
    (ctlRaw .duty s).getLsbD 5 = false →
      let i := Instr.extensionWord g b
      let t := s.cur
      exec i s = .next (takeTrap { cause := 0x03, lanes := fullMask t.width, ipc := t.pc, resume := t.pc + 4, word := w32 (encodeWord i), info := 0, hint := t.hint }
        (feedWatchdog i { s with cur := { t with sig := fedSig t i false, hint := {} } })))
  ∧ ∀ (s : State) (i : Instr) (pc : W64),
    let t := s.cur
    ∃ u, issuedTo i pc s s = .next u
      ∧ u.cur.pc = pc ∧ u.cur.sig = fedSig t i false ∧ u.cur.busy = s.ck + costOf t i
      ∧ u.cur.hint = (if isHintWord i then t.hint else {})
      ∧ u.cur.gk 0 = (if t.handler then t.gk 0 else t.reexec.getD (t.gk 0))
      ∧ u.cur.reexec = (if t.handler then t.reexec else none)
      ∧ { u.cur with pc := t.pc, sig := t.sig, busy := t.busy, hint := t.hint, k := t.k, reexec := t.reexec } = t
      ∧ (∀ k : KReg, k ≠ 0 → u.cur.gk k = t.gk k)
      ∧ { u with cur := t, launches := s.launches } = s
      ∧ (∀ l ∈ u.launches, l ∈ s.launches ∨ ∃ l' ∈ s.launches, l = { l' with wdog := 0 })

/-- R116, R103: an instruction that writes one scalar register, when it issues, leaves every other register of every kind, the flag
sets, the masks, the other teams, all of memory, the control registers, and the load-store unit as they were; s0 stays zero. -/
def Obligations.ScalarFrame : Prop :=
  ∀ (s u : State) (i : Instr) (d a b : Reg) (ta tb : Bool) (imm : BitVec 13) (c : Fin 64) (p : Cmp) (x : Special),
    i ∈ [.sadd d a b ta tb, .ssub d a b ta tb, .smul d a b ta tb, .smulhI64 d a b ta tb, .smulhN64 d a b ta tb, .sdivI64 d a b ta tb,
      .sdivN64 d a b ta tb, .sremI64 d a b ta tb, .sremN64 d a b ta tb, .sand d a b ta tb, .sor d a b ta tb, .sxor d a b ta tb,
      .sandn d a b ta tb, .sshl d a b ta tb, .sshr d a b ta tb, .ssra d a b ta tb, .sminI64 d a b ta tb, .sminN64 d a b ta tb,
      .smaxI64 d a b ta tb, .smaxN64 d a b ta tb, .sclz d a ta, .sctz d a ta, .spopc d a ta, .smov d a ta, .ssel d a b ta tb,
      .sbfxI64 d a b ta tb, .sbfxN64 d a b ta tb, .sbfi d a b ta tb, .scmp p d a b ta tb, .saddi d a ta imm, .sandi d a ta imm,
      .sori d a ta imm, .sxori d a ta imm, .sshli d a ta c, .sshri d a ta c, .ssrai d a ta c, .smovi d imm, .smovSpecial d x] →
    ready i s = true → exec i s = .next u →
      (∀ r, r ≠ d → u.cur.sreg r = s.cur.sreg r) ∧ u.cur.gs 0 = 0 ∧ u.cur.v = s.cur.v ∧ u.cur.flags = s.cur.flags
      ∧ (∀ k : KReg, k ≠ 0 → u.cur.gk k = s.cur.gk k) ∧ u.cur.tr = s.cur.tr ∧ u.cur.handler = s.cur.handler ∧ u.cur.records = s.cur.records
      ∧ u.teams = s.teams ∧ u.ctl = s.ctl ∧ u.pkt = s.pkt ∧ u.lsu = s.lsu ∧ u.lines = s.lines ∧ u.wgs = s.wgs ∧ u.cores = s.cores
      ∧ u.agenda = s.agenda ∧ ∀ a', u.mem.read a' = s.mem.read a'

/-- R103, R107, R304, R312: a vector instruction of majors 0x10 to 0x14, when it issues, leaves the inactive lanes of its destination (a
pair at 64 bits), every other vector and scalar register, the masks, the flag sets, the other teams, all of memory and the control registers. -/
def Obligations.VectorFrame : Prop :=
  ∀ (s u : State) (i : Instr) (w : Bool) (d a b : Reg) (ta tb : Bool) (imm : BitVec 13),
    i ∈ [.vadd w d a b ta tb, .vsub w d a b ta tb, .vmul w d a b ta tb, .vmulhI w d a b ta tb, .vmulhN w d a b ta tb, .vmad w d a b ta tb,
      .vand w d a b ta tb, .vor w d a b ta tb, .vxor w d a b ta tb, .vandn w d a b ta tb, .vshl w d a b ta tb, .vshr w d a b ta tb,
      .vsra w d a b ta tb, .vminI w d a b ta tb, .vminN w d a b ta tb, .vmaxI w d a b ta tb, .vmaxN w d a b ta tb, .vabs w d a ta,
      .vclz w d a ta, .vpopc w d a ta, .vmov w d a ta, .vsel w d a b ta tb, .vaddi d a ta imm, .vbcastB32 d a ta, .vlane d,
      .vpackB16 d a b ta tb, .vpackB8 d a b ta tb, .vunpackB16 d a b ta tb, .vunpackB8 d a b ta tb, .vbcastB64 d a ta] →
    ready i s = true → exec i s = .next u →
      (∀ r, r ≠ d → r ≠ regNext d → u.cur.vreg r = s.cur.vreg r)
      ∧ (∀ r l, l < s.cur.width → s.cur.act l = false → u.cur.lane r l = s.cur.lane r l)
      ∧ u.cur.s = s.cur.s ∧ u.cur.flags = s.cur.flags ∧ (∀ k : KReg, k ≠ 0 → u.cur.gk k = s.cur.gk k)
      ∧ u.cur.tr = s.cur.tr ∧ u.cur.records = s.cur.records ∧ u.teams = s.teams ∧ u.ctl = s.ctl ∧ u.lsu = s.lsu ∧ u.lines = s.lines
      ∧ u.wgs = s.wgs ∧ u.cores = s.cores ∧ u.agenda = s.agenda ∧ ∀ a', u.mem.read a' = s.mem.read a'

/-! ## Memory and reset -/

/-- R3, R143: a store to memory changes exactly the bytes stored, little-endian, and a read brings back what was stored. -/
def Obligations.MemoryReadsBack : Prop :=
  ∀ (m : Memory) (a : Nat) (bs : List Byte) (b n v : Nat),
    m.wf = true →
      (m.writeN a bs).wf = true
      ∧ (m.writeN a bs).read b = (if a ≤ b ∧ b < a + bs.length then bs.getD (b - a) 0 else m.read b)
      ∧ (m.writeNat a n v).readNat a n = v % 2 ^ (8 * n)

/-- R3, R13, R26, R29, R67, R103: what reset leaves: no team resident, nothing outstanding, memory empty, the registers at the reset values
the rules give, the scalar registers of a team zero, full and clean, sig at its start. That the site fuses enable every site and that
the module runs are the model's choices (logs 1 and 2). -/
def Obligations.ResetState : Prop :=
  let s := State.reset
  s.teams = [] ∧ s.issue = [] ∧ s.agenda = [] ∧ s.mem = [] ∧ s.mem.wf = true ∧ s.lsu = [] ∧ s.lines = [] ∧ s.launches = [] ∧ s.wgs = []
  ∧ s.qifs = [] ∧ s.cond = .running ∧ s.time = 0 ∧ s.hostOut = [] ∧ s.msixSent = [] ∧ s.fw = [0, 0, 0] ∧ s.meas = List.replicate 8 0
  ∧ s.power.halted = false ∧ s.power.level = [0, 0, 0, 0]
  ∧ (∀ d, d < 4 → ctlRaw (.harvest d) s = 0xF_FFFF_FFFF) ∧ ctlRaw .pwrCap s = 2000 ∧ ctlRaw .schedQuantum s = 50
  ∧ (∀ q, ctlRaw (.partCfg q) s = 0 ∧ ctlRaw (.partHvec q) s = 0 ∧ ctlRaw (.partWdog q) s = 0 ∧ ctlRaw (.partQos q) s = 0x101)
  ∧ (∀ q k, pktOf q k s = 0) ∧ (∀ n, (coreOf n s).vw = 0 ∧ (coreOf n s).vd = 0 ∧ (coreOf n s).damper = 1 ∧ (coreOf n s).dl = [])
  ∧ (∀ r, (({} : Team).sreg r) = { val := 0, full := true, poison := false }) ∧ ({} : Team).sig = 0xFFFF_FFFF

/-! ## Recovery -/

/-- R29: a module in recovery mode, with no team at its issue slot and only steps of the module but reset caused, stays so in every step:
no step changes its memory, its registers, its lines, its keys, its firmware versions or its measurements, or sends anything to the host. -/
def Obligations.RecoveryHolds : Prop :=
  ∀ s s' : State, dormant s → step s = .next s' →
    dormant s' ∧ s'.mem = s.mem ∧ s'.ctl = s.ctl ∧ s'.pkt = s.pkt ∧ s'.cur = s.cur ∧ s'.teams = s.teams ∧ s'.lines = s.lines ∧ s'.cores = s.cores
    ∧ s'.fw = s.fw ∧ s'.meas = s.meas ∧ s'.hostOut = s.hostOut ∧ s'.msixSent = s.msixSent ∧ s'.cxlMem = s.cxlMem ∧ s'.ports = s.ports

/-- R29, R30: a reset whose images do not all verify leaves recovery mode, and exactly the images before the first that failed are measured
and give their versions; a reset whose images all verify leaves the module running. -/
def Obligations.ResetVerifies : Prop :=
  ∀ (s : State) (boot device home : Image),
    let good (m : Image) : Prop := Config.sm3 m.rootKey = Config.fusedKeyDigest
      ∧ Config.sm2Verify m.rootKey (Config.sm3 m.bytes) m.signature = true ∧ Config.fusedVersion.toNat ≤ m.version.toNat
    ∃ u, exec (.moduleReset boot device home) s = .next u
      ∧ u.mem = [] ∧ u.teams = [] ∧ u.launches = [] ∧ u.agenda = [] ∧ (∀ d, d < 4 → ctlRaw (.harvest d) u = ctlRaw (.harvest d) s)
      ∧ (good boot → good device → good home → u.cond = .running ∧ u.fw = [boot.version, device.version, home.version])
      ∧ (¬(good boot ∧ good device ∧ good home) → dormant u)
      ∧ (¬good boot → u.fw = [0, 0, 0] ∧ ∀ i, i < 8 → i ≠ 3 → u.meas.getD i 1 = 0)
      ∧ (good boot → ¬good device → u.fw = [boot.version, 0, 0])
      ∧ (good boot → good device → ¬good home → u.fw = [boot.version, device.version, 0])

/-! ## The host's requests -/

/-- R37, R41 to R43: a push to a page without an enabled QIF changes nothing; one to an enabled QIF is rejected with 8, 7, 6 or 3 in that
order, and else, when it is the next in sequence, is taken in order and what may start is started. A push without the Relaxed Ordering
attribute waits for its requester's earlier posted writes, and behind what waits so already; one that waits keeps its place.
R41, R44: a rejection sets err and keeps the first cause until err is cleared, counts to 65,535, and raises event 1 of the QIF's
partition. -/
def Obligations.NotifyPushes : Prop :=
  (∀ (s : State) (w : NotifyWrite) (i : Nat),
    let cfg := ctlRaw (.qifCfg i) s
    let q := cfg.toNat / 2 ^ 4 % 2 ^ 6
    let x := qifOf i s
    let n := pkSeq w.bytes
    let shaped : Prop := w.off = 0 ∧ w.bytes.length = 64 ∧ w.allEnables = true
    let allowed : Prop :=
      (w.rid = Config.hostRid ∨ cfg.getLsbD 35 = true ∧ w.rid = cfg.toNat / 2 ^ 36 % 2 ^ 16) ∧ (partOf q s).resetting = false
    let inWindow : Prop := (n + 65536 - x.done) % 65536 < 64
    let near : Prop := (n + 65536 - x.next) % 65536 ≤ 7 ∧ ∀ h ∈ x.held, h.seq ≠ n
    let rejected (c : Nat) : Prop := exec (.notifyPush w) s = .next (rejectPacket i q c s)
    let counted (x : Qif) : Qif := { x with count := x.count + 1 }
    let taken (y : Qif) : Qif := { y with next := (n + 1) % 65536, done := (n + 1) % 65536
                                          taken := y.taken ++ [takePacket cfg { seq := n, num := x.count, bytes := w.bytes }] }
    let writes := postedWaits w.rid s
    let queued := s.agenda.any (waitsFor w.rid)
    let clear : Prop := w.ro = true ∨ writes = false ∧ (w.waited = true ∨ queued = false)
    let later : Instr := .notifyPush { w with waited := true }
    awake s = true →
      (w.ro = false → w.waited = true → writes = true → exec (.notifyPush w) s = .next { s with agenda := later :: s.agenda })
      ∧ (w.ro = false → w.waited = false → writes = true ∨ queued = true →
          exec (.notifyPush w) s = .next { s with agenda := s.agenda ++ [later] })
      ∧ (clear → qifAt w.pf w.slot s = none → exec (.notifyPush w) s = .next s)
      ∧ (clear → qifAt w.pf w.slot s = some i → s.cond ≠ .fatal → w.off < 0x40 →
          (¬shaped → rejected 8)
          ∧ (shaped → ¬allowed → rejected 7)
          ∧ (shaped → allowed → ¬inWindow → rejected 6)
          ∧ (shaped → allowed → inWindow → ¬near → rejected 3)
          ∧ (shaped → allowed → inWindow → n = x.next → x.held = [] → pkCode w.bytes (cfg.toNat / 2 ^ 31 % 2 ^ 4) = none →
              exec (.notifyPush w) s = .next (pumpQif i (modQif i taken (modQif i counted s))))))
  ∧ ∀ (s : State) (i q c : Nat),
    let x := qifOf i s
    let u := rejectPacket i q c s
    qifOf i u = { x with err := true, ecode := if x.err then x.ecode else c, rejected := min 65535 (x.rejected + 1) }
    ∧ ∃ v : State, u = raiseEvent q 1 v ∧ { v with qifs := s.qifs } = s

/-- R40: a NOP completes at once; a LAUNCH makes a launch of the owner and has its record read; a WRITE that is aligned and has W makes its
eager release and completes once it has arrived, a WAIT whose location is at least its value completes; else they fail with code 5. -/
def Obligations.RequestPackets : Prop :=
  ∀ (s : State) (i num : Nat) (p : QPkt),
    let a := pkAddr p.bytes
    let rights := pktOf p.part (keyOf a) s
    let fails (e : Instr) : Prop := exec e s = .next (failPacket i num s)
    let item : Item := { lane := 0, off := vaOf a % 64, size := 8, data := pkValue p.bytes }
    let write (id : Nat) : Req := { id := id, agent := .lfe, core := 255, part := p.part, op := .write, ptr := a, items := [item], ord := .rel, scope := .sys }
    let read (id : Nat) : Req := { id := id, agent := .lfe, core := 255, part := p.part, op := .monitor .ge, ptr := a, items := [item], ord := .acq, scope := .sys }
    let note (f : QPkt → QPkt) (u : State) : State :=
      modQif i (fun x => { x with taken := x.taken.map fun q => if q.num = num then f q else q }) u
    let agent (u : State) : Nat × State :=
      if p.mon = 0 then (u.nextId, note (fun q => { q with mon := u.nextId }) { u with nextId := u.nextId + 1 }) else (p.mon, u)
    let launch : Launch := { id := s.nextId, part := p.part, record := a, origin := .qif i num }
    awake s = true → packetOfQif i num s = some p →
      exec (.requestNop i num) s = .next (completePacket i num s)
      ∧ exec (.requestLaunch i num) s
          = .next { s with nextId := s.nextId + 1, launches := s.launches ++ [launch], agenda := s.agenda ++ [.recordRead s.nextId] }
      ∧ (p.state ≠ 2 → vaOf a % 8 ≠ 0 ∨ rights.getLsbD 1 = false → fails (.requestWrite i num))
      ∧ (p.state ≠ 2 → vaOf a % 8 = 0 → rights.getLsbD 1 = true → ∀ m u, lfeAccess (write (agent s).1) (agent s).2 = (.ack m, u) →
          exec (.requestWrite i num) s = .next (cause (.requestWrite i num) (note (fun q => { q with state := 2 }) u)))
      ∧ (p.state = 2 → ∀ u, drainRemote p.part s = (true, u) → exec (.requestWrite i num) s = .next (completePacket i num u))
      ∧ (vaOf a % 8 ≠ 0 ∨ rights.getLsbD 0 = false → fails (.requestWait i num))
      ∧ (vaOf a % 8 = 0 → rights.getLsbD 0 = true → p.mon = 0 →
          let armed := agent (bumpSystem s)
          let clear : State := { armed.2 with monitors := armed.2.monitors.filter fun m => m.id != armed.1 }
          ∀ r u, lfeAccess (read armed.1) clear = (.data r, u) → pkValue p.bytes ≤ r.vals.headD 0 →
            exec (.requestWait i num) s = .next (completePacket i num u))

/-- R36 to R38, R44, R46, R291: the status word answers a read at offset 0x40 and zeros any other, after the requester's earlier posted
writes; an enabled QIF starts at sequence 0, and one that is enabled already goes on under the new fields (log 77); a
configuration whose page or vectors are taken sets `ctl.qif.cfgerr` and enables nothing; a pending event of an enabled, unmasked entry of the
map is sent; the time register takes what the host writes. -/
def Obligations.HostTables : Prop :=
  ∀ (s : State) (pf slot off n rid i q e : Nat) (waited : Bool) (v : W64),
    let old := ctlRaw (.qifCfg i) s
    let new := ctlMerge (.qifCfg i) old v
    let page (x : W64) : Nat × Nat := (x.toNat % 2 ^ 3, x.toNat / 2 ^ 10 % 2 ^ 10)
    let taken : Prop := ∃ j, j < 1024 ∧ j ≠ i ∧ (ctlRaw (.qifCfg j) s).getLsbD 3 = true ∧ page (ctlRaw (.qifCfg j) s) = page new
    let good : Prop := ¬taken ∧ windowOk new = true
    let status : Nat := (qifAt pf slot s).elim 0 fun i => (ctlRead (.qifSt i) s).toNat
    let map := ctlMerge (.irqMap q e) (ctlRaw (.irqMap q e) s) v
    let vector := map.toNat % 2 ^ 11
    let target := map.toNat / 2 ^ 11 % 2 ^ 3
    let writes := postedWaits rid s
    let queued := s.agenda.any (waitsFor rid)
    let later : Instr := .notifyStatusRead pf slot off n { rid := rid, waited := true }
    awake s = true →
      (writes = false → waited = true ∨ queued = false → exec (.notifyStatusRead pf slot off n { rid := rid, waited := waited }) s = .next { s with hostOut := s.hostOut ++ [(2 * 2 ^ 64 + rid,
          (List.range n).map fun k => if 0x40 ≤ off + k ∧ off + k < 0x48 then (bytesOfNat 8 status).getD (off + k - 0x40) 0 else 0)] })
      ∧ (waited = true → writes = true →
          exec (.notifyStatusRead pf slot off n { rid := rid, waited := waited }) s = .next { s with agenda := later :: s.agenda })
      ∧ (waited = false → writes = true ∨ queued = true →
          exec (.notifyStatusRead pf slot off n { rid := rid, waited := waited }) s = .next { s with agenda := s.agenda ++ [later] })
      ∧ (new.getLsbD 3 = true → old.getLsbD 3 = false → good →
          exec (.qifConfigWrite i v) s = .next (modQif i (fun x => { x with next := 0, done := 0 }) (ctlPut (.qifCfg i) new s)))
      ∧ (new.getLsbD 3 = true → old.getLsbD 3 = true → good → exec (.qifConfigWrite i v) s = .next (ctlPut (.qifCfg i) new s))
      ∧ (new.getLsbD 3 = true → ¬good →
          exec (.qifConfigWrite i v) s = .next (modQif i (fun x => { x with held := [] })
            (ctlPut (.qifCfg i) (new &&& ~~~8) (ctlSetFld .qifCfgerr 0 1 1 s))))
      ∧ (new.getLsbD 3 = false →
          exec (.qifConfigWrite i v) s = .next (modQif i (fun x => { x with held := [] }) (ctlPut (.qifCfg i) new s)))
      ∧ (vector = 0 ∨ target = 0 ∧ vector ≤ 3 → map.getLsbD 16 = false →
          exec (.irqMapWrite q e v) s = .next (ctlPut (.irqMap q e) (map &&& ~~~0x4000) s))
      ∧ (vector ≠ 0 → (target = 0 → 3 < vector) →
          (map.getLsbD 16 = true → map.getLsbD 14 = true → map.getLsbD 15 = false → exec (.irqMapWrite q e v) s
            = .next (sendMsix target vector (ctlSetFld (.irqMap q e) 16 1 0 (ctlPut (.irqMap q e) map s))))
          ∧ (map.getLsbD 16 = false → exec (.irqMapWrite q e v) s = .next (ctlPut (.irqMap q e) map s)))
      ∧ exec (.timeWrite v) s = .next { s with time := v }

/-! ## The host's memory, bias and monitors -/
/-- R47 to R53: an access of the host to device memory that touches one line used by nobody reads or writes the bytes of that place; a
completion ends its request and delivers what it brings; an owned line is held and serves who waited; an ATS invalidation removes the
pages it names.
R50 to R52: go starts a flip of the named granule, and during a flip, or for a granule already in that bias, only sets err; a flip to
the host with nothing outstanding and no copy in a chunk there clears the granule's lines and sets the bias, one to the device first snoops each of its 1,024 lines;
at the end go is 0, done 1, and what was held goes on; while a write-back or a draw there is under way, or an ember there is not drawn, the
flip waits and draws. A back-invalidation's dirty bytes reach memory, or, where a line of the place is known, are written as that line's. -/
def Obligations.HostMemory : Prop :=
  (∀ (s : State) (rid off n id : Nat) (bs : List Byte) (l : LinkReq) (pasid base pages : Nat) (line : SLine),
    let pa := off / 64 * 64
    let idle : Prop := s.biasOp = none ∧ s.flueDown = [] ∧ (∀ x ∈ s.lines, x.place ≠ .hbm pa)
    let rest : State := { s with links := s.links.filter fun x => x.id != id }
    let r := l.req
    let found : Prop := s.links.find? (fun l => l.id == id) = some l
    let value (i : Item) : Nat := natOfBytes (sliceBytes bs i.off i.size)
    let acq : AcqAns := if r.acquires then .bump 0 else .notAcquire
    let completes (k : PcieKind) (u : State) : Prop := exec (.pcieCompletion id k) s = .next (finishInvals u)
    let named (a : Nat × Nat × Nat × Bool) : Prop := a.1 = pasid ∧ base / 4096 ≤ a.2.1 ∧ a.2.1 < base / 4096 + pages
    let own : Req := l.req
    awake s = true →
      (idle → off < hbmEnd → 0 < n → off % 64 + n ≤ 64 → exec (.hostMemoryAccess { rid := rid, off := off, size := n, write := none }) s
          = .next { s with hostOut := s.hostOut ++ [(2 * 2 ^ 64 + rid, s.mem.readN off n)] })
      ∧ (idle → off < hbmEnd → 0 < bs.length → off % 64 + bs.length ≤ 64 → s.mem.wf = true →
          ∃ m : Memory, exec (.hostMemoryAccess { rid := rid, off := off, size := n, write := some bs }) s
              = .next { s with mem := m, hostOut := s.hostOut ++ [(3 * 2 ^ 64 + rid, [])] }
            ∧ ∀ a, m.read a = if off ≤ a ∧ a < off + bs.length then bs.getD (a - off) 0 else s.mem.read a)
      ∧ (found → l.kind = .hostRead → r.isSync = false → (∀ c, r.op ≠ .monitor c) →
          let w := farDone r false rest
          completes (.data bs) (deliver r (.data { req := r, vals := r.items.map value, line := bs, wts := w.1, acq := acq }) w.2))
      ∧ (found → l.kind = .hostWrite → r.isSync = false →
          let w := farDone r true rest
          completes (.data bs) (deliver r (.ack { req := r, wts := w.1, acq := acq }) w.2))
      ∧ (found → l.kind = .hostRead ∨ l.kind = .hostWrite ∨ l.kind = .ats → r.isSync = false →
          completes .ca (deliver r (.nack { req := r, status := 4 }) rest) ∧ completes .ur (deliver r (.nack { req := r, status := 4 }) rest))
      ∧ (found → l.kind = .hostAtomic → completes .ur (deliver r (.nack { req := r, status := 9 }) rest))
      ∧ (s.links.find? (fun l => l.kind == .own && linePtr l.req.ptr == linePtr own.ptr) = some l →
          lineAt (lineVa (vaOf own.ptr)) (keyOf own.ptr) s = some line →
          let va := lineVa (vaOf own.ptr)
          exec (.cxlCacheResponse own.ptr bs) s = .next (finishInvals (evictAt va (keyOf own.ptr) (serveWaiting va (keyOf own.ptr)
            (setLine { line with data := line.fresh (sliceBytes bs 0 64), present := true, filled := s.ck, used := s.ck, st := .shared }
              { s with links := s.links.filter fun x => x.id != l.id })))))
      ∧ (∃ u, exec (.atsInvalidation pasid base pages) s = .next u
          ∧ (∀ a, a ∈ u.atc ↔ a ∈ s.atc ∧ ¬named a)
          ∧ (s.invals = [] → (∀ x ∈ s.links, x.kind ≠ .own) → u.hostOut = s.hostOut ++ [(4 * 2 ^ 64 + pasid, bytesOfNat 8 base)] ∧ u.invals = [])))
  ∧ ∀ (s : State) (v : W64) (g line : Nat) (bs : List Byte) (b : Bool) (ln : SLine),
    let old := ctlRaw .biasCmd s
    let toHost := v.getLsbD 1
    let granule := v.toNat / 2 ^ 16 % 2 ^ 23
    let held := s.biasHost.contains granule
    let flags := old.toNat / 2 ^ 2 % 2 ^ 2
    let cleared := v.toNat / 2 ^ 2 % 2 ^ 2
    let started : State := ctlPut .biasCmd (w64 (1 + (if toHost then 2 else 0) + (flags - (flags &&& cleared)) * 4 + granule * 2 ^ 16)) s
    let writes (u : State) : Prop := exec (.biasToHost v) s = .next u ∧ exec (.biasToDevice v) s = .next u
    let chunksApart : Prop := ∀ t ∈ allTeams s, ∀ o ∈ t.c.ops, o.mid = true → flipTouches o s = false
    let pa := g * 2 ^ 16 + line % 1024 * 64
    let done (u : State) : State := releaseHeld (sendMsix 0 3 (ctlSetFld .biasCmd 2 1 1 (ctlSetFld .biasCmd 0 1 0 { u with biasOp := none })))
    awake s = true →
      (v.getLsbD 0 = true → old.getLsbD 0 = true ∨ held = toHost → writes (ctlSetFld .biasCmd 3 1 1 s))
      ∧ (v.getLsbD 0 = true → old.getLsbD 0 = false → held ≠ toHost → s.mapop = none →
          writes (cause .biasFlipDone { started with biasOp := some (toHost, granule, 0) }))
      ∧ (s.biasOp = some (true, g, 0) → areaReady (granuleArea g s) s = true → chunksApart →
          exec .biasFlipDone s = .next (done { clearArea (granuleArea g s) s with biasHost := s.biasHost ++ [g] }))
      ∧ (s.biasOp = some (false, g, 0) → areaReady (granuleArea g s) s = true → chunksApart →
          ∃ u, exec .biasFlipDone s = .next u ∧ u.biasOp = some (false, g, 2) ∧ u.agenda = s.agenda ++ [.biasFlipDone]
            ∧ ∀ i, i < 1024 → ∃ l ∈ u.links, l.kind = .backInv ∧ l.addr = g * 2 ^ 16 + 64 * i)
      ∧ (s.biasOp = some (false, g, 2) → (∀ l ∈ s.links, l.kind ≠ .backInv) →
          exec .biasFlipDone s = .next (done (rearmMonitors (granuleArea g s) { s with biasHost := s.biasHost.filter (· != g) })))
      ∧ (s.biasOp = some (b, g, 0) → areaReady (granuleArea g s) s = false → exec .biasFlipDone s = .next (cause .biasFlipDone (drawArea (granuleArea g s) s)))
      ∧ (s.links.filter (fun l => l.kind == .backInv && l.addr == pa) ≠ [] → (∀ l ∈ s.links, l.kind = .backInv → l.req.agent = .host) →
          let answered := s.links.filter fun l => !(l.kind == .backInv && l.addr == pa)
          exec (.backInvalidationResponse g line none) s = .next { s with links := answered }
          ∧ (s.lines.find? (fun l => l.place == .hbm pa) = none → exec (.backInvalidationResponse g line (some bs)) s
              = .next { s with links := answered, mem := s.mem.writeN pa (sliceBytes bs 0 64) })
          ∧ (s.lines.find? (fun l => l.place == .hbm pa) = some ln → exec (.backInvalidationResponse g line (some bs)) s
              = .next (perform { agent := .host, core := 255, op := .write, scope := .sys, ptr := ln.ptr
                                 items := (sliceBytes bs 0 64).zipIdx.map fun x => { lane := 0, off := x.2, size := 1, data := x.1.toNat } }
                  ln .notAcquire { s with links := answered }).2))

/-- R190, R295, R347, R348, R350: the fill of a monitor that does not acquire is a read of the line's last write and answers its entry with the
observed value; where that write is marked, the line first enters the team's list of eight, or, with the list full, the line's embers are
asked at once. The fill of one that does acquire first asks the line's embers. A fill that comes before the answer to the arming read is kept
for it, and one for an entry its team has withdrawn frees the entry. A WAIT packet's monitor, once its system acquire is
served, completes the packet; a monitor out of its slice's table arms again. -/
def Obligations.Monitors : Prop :=
  ∀ (s : State) (m : MonMsg) (e : LsuEnt) (w : Monitor) (i : Nat) (p : QPkt),
    let found : Prop := s.lsu.find? (fun e => e.id == m.id) = some e
    let entry : Prop := found ∧ e.gone = false ∧ e.phase = .monitor
    let acquires : Prop := (e.req.ord = .acq ∨ e.req.ord = .ar) ∧ e.req.op ≠ .write
    let list := ((teamOf e.req.team s).map (·.emberList)).getD []
    let line := linePtr e.req.ptr
    let asks (sc : Scope) : State :=
      sendReq .rd { e.req with op := .query, scope := sc, eager := false } e.id (modEnt e.id (fun e => { e with value := some [(0, m.value)] }) s)
    let answers (u : State) : State := settle e.req.team (answerItems e.id e.req.items [(0, m.value)] false u)
    let packet : Prop := s.lsu.find? (fun e => e.id == m.id) = none
      ∧ ((s.qifs.flatMap fun x => x.2.taken.map fun p => (x.1, p)).find? fun y => y.2.mon == m.id && y.2.state != 0) = some (i, p)
    let acquire : Req := lfeReq m.id p.part .query .acq (pkAddr p.bytes) []
    let mine : Prop := s.monitors.find? (fun x => x.id == m.id) = some w ∧ w.lfe = none ∧ s.lsu.find? (fun x => x.id == w.ent) = some e
    let off : State := { s with monitors := s.monitors.filter fun x => x.id != m.id }
    awake s = true →
      (entry → ¬acquires → m.mark = false ∨ e.req.acquires = true ∨ list.contains line = true → exec (.monfill m) s = .next (answers (readWrite e.req s)))
      ∧ (entry → ¬acquires → e.req.acquires = false → m.mark = true → list.contains line = false → list.length < 8 →
          exec (.monfill m) s = .next (answers (listEmber e.req.team line (readWrite e.req s))))
      ∧ (entry → acquires → exec (.monfill m) s = .next (settle e.req.team (asks e.req.scope)))
      ∧ (found → e.gone = false → e.phase = .sent → exec (.monfill m) s = .next (modEnt e.id (fun e => { e with early := some m }) s))
      ∧ (found → e.gone = true → exec (.monfill m) s = .next (settle e.req.team (dropEnt e.id s)))
      ∧ (packet → ∀ a u, lfeAccess acquire s = (a, u) →
          (a = .later → exec (.monfill m) s = .next (cause (.monfill m) u))
          ∧ (a ≠ .later → exec (.monfill m) s = .next (completePacket i p.num (bumpSystem u))))
      ∧ (mine → e.gone = false → e.phase = .monitor →
          (w.slice = false → exec (.monitorRecheck m.id) s = .next (sendReq reqEvent e.req e.id off))
          ∧ (w.slice = true → exec (.monitorRecheck m.id) s = .next s))
      ∧ (mine → e.gone = true → e.phase = .monitor → exec (.monitorRecheck m.id) s = .next (settle e.req.team (dropEnt e.id off)))

/-! ## Launches -/
/-- R74, R80, R81, R84: a record is not read while 256 launches of its partition are in progress; without the read right the launch fails
with code 10; with it it goes on at the first line, its reads acquiring at system scope. The host's verdict on an outstanding ticket sets
the launch up or fails it with code 15, one on any other ticket changes nothing. A failure records its code and count. A peer's launch that
passes while the bound of its partition is already running is answered RETRY instead (the model's choice of when the bound is looked at
again: log 96).
R55: the checks of a LAUNCH packet in order, each answered NACK with its status; one that passes becomes a launch of the partition its
tenant names. A packet answered RETRY is sent again once its time has come. -/
def Obligations.LaunchStarts : Prop :=
  (∀ (s : State) (id : Nat) (l : Launch) (v : W64) (c m key tag : Nat),
    let busy := (s.launches.filter fun x => x.part == l.part && x.phase != .waiting).length
    let reading : Launch := { l with phase := .reading }
    let fail := ctlRaw (.lfeVfail l.part) s
    let out : State := { s with launches := s.launches.filter fun x => x.id != l.id }
    let from_ (x : Launch) : Bool := (match x.origin with | .peer .. => true | _ => false)
    let up (x : Launch) : Bool := (match x.phase with | .setup => true | .running => true | .signalling => true | .signalled => true | _ => false)
    let running := (s.launches.filter fun x => x.id != l.id && x.part == l.part && (from_ x && up x)).length
    awake s = true →
      (launchOf id s = some l → l.phase = .waiting → s.cond ≠ .fatal →
        (256 ≤ busy → exec (.recordRead id) s = .next (cause (.recordRead id) s))
        ∧ (busy < 256 → launchBehind l s = false → (pktOf l.part (keyOf l.record) s).getLsbD 0 = false →
            exec (.recordRead id) s = .next (failLaunch l 10 s))
        ∧ (busy < 256 → launchBehind l s = false → (pktOf l.part (keyOf l.record) s).getLsbD 0 = true →
            exec (.recordRead id) s = .next (readRecord 8 reading (bumpSystem (modLaunch id (fun _ => reading) s)))))
      ∧ (s.launches.find? (fun l => l.phase == .verdict (v.toNat % 2 ^ 16)) = some l →
          exec (.lvalVerdict v) s = .next (if v.getLsbD 16 then passLaunch l s else failLaunch l 15 s))
      ∧ ((∀ l ∈ s.launches, l.phase ≠ .verdict (v.toNat % 2 ^ 16)) → exec (.lvalVerdict v) s = .next s)
      ∧ (l.origin = .peer m key tag → (ctlRaw (.fjLperm l.part) s).toNat / 2 ^ 8 % 2 ^ 8 ≤ running → passLaunch l s = answerLaunch key 0x12 3 out)
      ∧ (∀ i seq, l.origin = .qif i seq → c < 16 → ∃ u : State, failLaunch l c s = failPacket i seq u ∧ { u with ctl := s.ctl } = out
          ∧ (ctlRaw (.lfeVfail l.part) u).toNat % 2 ^ 4 = c
          ∧ (ctlRaw (.lfeVfail l.part) u).toNat / 2 ^ 16 % 2 ^ 16 = min 65535 (fail.toNat / 2 ^ 16 % 2 ^ 16 + 1)))
  ∧ ∀ (s : State) (port q : Nat) (p : Packet),
    let lperm := ctlRead (.fjLperm q) s
    let b := p.payload
    let refused (status : Nat) : Prop := exec (.launchPacket port p) s = .next (sendReply p 0x12 status [] s)
    let admitted : Prop := lperm.getLsbD 0 = true ∧ (partOf q s).resetting = false
    let formed : Prop := p.len = 63 ∧ pkKind b = 1 ∧ pkIrq b = false ∧ pkReserved b = false
    let room : Prop := lperm.toNat / 2 ^ 16 % 2 ^ 8 < lperm.toNat / 2 ^ 8 % 2 ^ 8
    let launch : Launch := { id := s.nextId, part := q, record := pkAddr b, origin := .peer p.srcm s.nextId p.tag }
    awake s = true →
      (partOfTenant p.tenant s = none → refused 7)
      ∧ (partOfTenant p.tenant s = some q →
          (¬admitted → refused 7) ∧ (admitted → ¬formed → refused 6) ∧ (admitted → formed → ¬room → refused 3)
          ∧ (admitted → formed → room → s.cond = .fatal → refused 4)
          ∧ (admitted → formed → room → s.cond ≠ .fatal → exec (.launchPacket port p) s
              = .next { s with nextId := s.nextId + 1, peers := s.peers ++ [(s.nextId, p)], launches := s.launches ++ [launch],
                               agenda := s.agenda ++ [.recordRead s.nextId] }))
      ∧ (∀ id l, s.links.find? (fun l => l.id == id && l.due != 0 && decide (l.due ≤ s.ck)) = some l → l.pkt = some p →
          exec (.launchResend id) s
            = .next (sendPacket p { s with links := updWhere (fun l => l.id == id) (fun l => { l with due := 0 }) s.links }))

/-- R99, R100: a launch that has drained writes its signal word (seqno in [47:0], the error count above), eager at system scope; when the
write has gone it waits only for bytes sent to other modules, and then is over and completes its packet. A signal write that was refused
is made again. -/
def Obligations.LaunchCompletes : Prop :=
  ∀ (s : State) (l : Launch) (i seq : Nat),
    let word := l.seqno % 2 ^ 48 + l.errors * 2 ^ 48
    let write : Req := { id := l.id, agent := .lfe, core := 255, part := l.part, op := .write, ptr := l.sigptr, ord := .rel, scope := .sys
                         items := [{ lane := 0, off := vaOf l.sigptr % 64, size := 8, data := word }] }
    let written (u : State) : State := cause (.launchComplete l.id) (modLaunch l.id (fun x => { x with phase := .signalled }) u)
    let noted (u : State) : State := if l.event0 then u else raiseEvent l.part 0 u
    let refused (u : State) : State := modLaunch l.id (fun x => { x with event0 := true, wdog := (noted u).ck + 3800 }) (noted u)
    let over' (u : State) : State := completePacket i seq { u with launches := u.launches.filter fun x => x.id != l.id }
    awake s = true → launchOf l.id s = some l →
      (l.phase = .signalling → l.event0 = false → ∀ u v, drainLaunch l s = (true, u) →
        (∀ a, lfeAccess write u = (.ack a, v) → exec (.launchComplete l.id) s = .next (written v))
        ∧ (∀ n, lfeAccess write u = (.nack n, v) → exec (.launchComplete l.id) s = .next (refused v)))
      ∧ (l.phase = .signalling → l.event0 = true → ∀ a v, lfeAccess write s = (.ack a, v) → exec (.signalRetry l.id) s = .next (written v))
      ∧ (l.phase = .signalled → l.origin = .qif i seq → ∀ u, drainRemote l.part s = (true, u) →
          exec (.launchComplete l.id) s = .next (over' u))

/-! ## Partitions -/
/-- R56, R63, R66, R67, R136: enabling a partition needs a valid save area and reservations that fit, else `ctl.part.cfgerr` says which
fails; the reset bit starts a reset, once; the save areas change only while it is disabled, and a reservation that does not fit is refused
while it is enabled, one that does lets cores wake that wait for an entry. -/
def Obligations.PartitionRegisters : Prop :=
  ∀ (s : State) (q i : Nat) (v : W64),
    let cfg := ctlRaw (.partCfg q) s
    let fits (x : W64) : Prop := qosFits q x s = true
    let saved : Prop := (ctlRaw (.partSave q) s).toNat % 2 = 1
    let store (on : Nat) (u : State) : State :=
      ctlSetFld (.partCfg q) 16 16 (v.toNat / 2 ^ 16 % 2 ^ 16) (ctlSetFld (.partCfg q) 1 1 (v.toNat / 2 % 2) (ctlSetFld (.partCfg q) 0 1 on u))
    let err (b : Nat) (u : State) : State := ctlSetFld .partCfgerr b 1 1 u
    let writes (u : State) : Prop := exec (.partEnable q v) s = .next (lookClusters u) ∧ exec (.partReset q v) s = .next (lookClusters u)
    let qos := ctlMerge (.partQos q) (ctlRaw (.partQos q) s) v
    let owner := (ctlRaw (.qifCfg i) s).toNat / 2 ^ 4 % 2 ^ 6
    let save (r : CtlReg) : W64 := ctlMerge r (ctlRaw r s) v
    let off (r : CtlReg) : Prop := cfg.toNat % 2 = 0 ∧ (ctlRaw r s).getLsbD 0 = false
    let frame (x : W64) : Nat := x.toNat / 2 ^ 16 % 2 ^ 32
    let savesTo (e : Instr) (r : CtlReg) (frames : Nat) : Prop :=
      (cfg.toNat % 2 = 1 → exec e s = .next s)
      ∧ (off r → (save r).getLsbD 0 = true → areaTaken q (frame (save r)) frames s = true →
          exec e s = .next (ctlPut r (save r &&& ~~~1) (err 2 s)))
      ∧ (off r → (save r).getLsbD 0 = true → areaTaken q (frame (save r)) frames s = false →
          exec e s = .next (reserveFrames (frame (save r)) frames true (ctlPut r (save r) s)))
    awake s = true →
      (cfg.toNat % 2 = 0 → v.getLsbD 0 = true → v.getLsbD 2 = false →
        (saved → fits (ctlRaw (.partQos q) s) → writes (store 1 s))
        ∧ (¬saved → fits (ctlRaw (.partQos q) s) → writes (store 0 (err 0 s)))
        ∧ (saved → ¬fits (ctlRaw (.partQos q) s) → writes (store 0 (err 3 s))))
      ∧ (cfg.toNat % 2 = 1 → v.getLsbD 0 = true → v.getLsbD 2 = true → writes (startReset q (store 1 s)))
      ∧ (cfg.toNat % 2 = 1 → v.getLsbD 0 = false → v.getLsbD 2 = false → writes (if hasResident q s then startReset q (store 0 s) else store 0 s))
      ∧ (cfg.toNat % 2 = 1 → ¬fits qos → exec (.partQosWrite q v) s = .next (err 3 s))
      ∧ (cfg.toNat % 2 = 0 ∨ fits qos → exec (.partQosWrite q v) s
          = .next ((List.range 37).foldl (fun u h => wakeNoted h u) (ctlPut (.partQos q) qos s)))
      ∧ savesTo (.partSaveWrite q v) (.partSave q) (ncores s * 64)
      ∧ savesTo (.partCsaveWrite q v) (.partCsave q) ((save (.partCsave q)).toNat / 2 ^ 48 % 2 ^ 8 * 64)
      ∧ exec (.qifReset i v) s = .next (if v.getLsbD 0 then startReset owner s else s)

/-- R66: a second reset during one does nothing; one that starts sets the status bit, abandons the partition's launches, stops its teams for
good with no records and no engine operations but a copy's in the middle of a chunk, and removes its waiting requests, queue waits and monitors, before its
dirty bytes are written back. A function-level reset clears the function's MSI-X table and starts a reset of the partition of each enabled interface of
that function.
R66 steps 3 to 6: once nothing of the partition is outstanding, the reset leaves none of its teams, workgroups, launches, embers or
cache lines; its interfaces start again at sequence 0, its pending events and status bit are clear, the hotness tail takes the head, and
event 6 is raised. -/
def Obligations.PartitionResets : Prop :=
  (∀ (s : State) (q : Nat),
    let stopped (t : Team) : Prop := t.status = .gone ∨ (t.status = .halted ∧ t.records = [] ∧ t.spq = [] ∧ (∀ o ∈ t.c.ops, o.mid = true ∧ o.done = false) ∧ t.m.ops = [] ∧ t.l.ops = [])
    let cleared : State := { s with msixTab := s.msixTab.filter fun x => x.1.1 != q, msixPend := s.msixPend.filter fun x => x.1 != q }
    let owned (i p : Nat) : Prop := i < 1024 ∧ (ctlRaw (.qifCfg i) s).getLsbD 3 = true ∧ (ctlRaw (.qifCfg i) s).toNat % 2 ^ 3 = q
      ∧ (ctlRaw (.qifCfg i) s).toNat / 2 ^ 4 % 2 ^ 6 = p
    ((partOf q s).resetting = true → startReset q s = s)
    ∧ ((partOf q s).resetting = false → ∃ b w,
        startReset q s = cause (.partitionResetComplete q) (lookClusters (writeBackPart q (dropFaults q w)).2)
        ∧ (partOf q b).resetting = true ∧ (ctlRaw (.partCfg q) b).toNat / 2 ^ 2 % 2 = 1 ∧ b.mem = s.mem ∧ b.teams = s.teams
        ∧ w.ctl = (dropWaits q (abandonLaunches q b)).ctl ∧ w.parts = (dropWaits q (abandonLaunches q b)).parts
        ∧ (∀ l ∈ w.launches, l.part ≠ q) ∧ (∀ m ∈ w.monitors, m.part ≠ q) ∧ (∀ x ∈ w.qwait, x.op.part ≠ q)
        ∧ (∀ t ∈ w.teams, t.part = q → stopped t) ∧ (w.cur.part = q → stopped w.cur)
        ∧ (∀ e ∈ w.lsu, e.req.part = q → e.phase ≠ .held ∧ e.phase ≠ .monitor ∧ ∀ h, e.phase ≠ .retry h))
    ∧ (awake s = true → ∃ ps : List Nat, (∀ p, p ∈ ps ↔ ∃ i, owned i p) ∧ ps.Nodup
        ∧ exec (.functionLevelReset q) s = .next (ps.foldl (fun u p => startReset p u) cleared)))
  ∧ ∀ (s : State) (q : Nat),
    let x := writeBackPart q (dropWaits q (dropFaults q s))
    let v := x.2
    awake s = true →
      ((partOf q s).resetting = false → exec (.partitionResetComplete q) s = .next s)
      ∧ ((partOf q s).resetting = true → x.1 = false ∨ resetWaits q v = true →
          exec (.partitionResetComplete q) s = .next (cause (.partitionResetComplete q) v))
      ∧ ((partOf q s).resetting = true → x.1 = true → resetWaits q v = false → ∃ u,
          exec (.partitionResetComplete q) s = .next (lookClusters (raiseEvent q 6 u))
          ∧ (∀ t ∈ u.teams, t.part = q → t.id = 0) ∧ (u.cur.id ≠ 0 → u.cur.part ≠ q) ∧ (∀ w ∈ u.wgs, w.part ≠ q)
          ∧ (∀ l ∈ u.launches, l.part ≠ q) ∧ (∀ e ∈ u.embers, e.part ≠ q) ∧ (∀ c ∈ u.cores, ∀ d ∈ c.2.dl, d.part ≠ q)
          ∧ (∀ i, i < 1024 → (ctlRaw (.qifCfg i) v).toNat / 2 ^ 4 % 2 ^ 6 = q →
              (qifOf i u).next = 0 ∧ (qifOf i u).done = 0 ∧ (qifOf i u).held = [] ∧ (qifOf i u).taken = [])
          ∧ (∀ e, e < 16 → (ctlRaw (.irqMap q e) u).toNat / 2 ^ 16 % 2 = 0)
          ∧ (ctlRaw (.hotPtr q) u).toNat / 2 ^ 24 % 2 ^ 24 = (ctlRaw (.hotPtr q) v).toNat % 2 ^ 24
          ∧ (ctlRaw (.partCfg q) u).toNat / 2 ^ 2 % 2 = 0 ∧ (partOf q u).resetting = false ∧ (partOf q u).pointer = 0 ∧ (partOf q u).savedWgs = []
          ∧ u.mem = v.mem)

/-! ## Scheduling -/
/-- R61, R62, R64, R85: at a quantum boundary the runnable partition with the lowest pass wins, the lower number on ties, and its pass grows
by its stride; with none runnable the cluster has no holder. A pass first lets the clusters decide and, where a saved workgroup's old core still
has writes of the partition to send, is made again; for a partition being reset it deals nothing. A spilled team claims its units back once none of them is being evacuated or
saved, and its workgroup's scratchpad on every core of it, unless its watchdog holds it. A halted team resumes into its wait, with
PREEMPT_SAVE pending under pnote where it was halted for another partition. -/
def Obligations.StrideScheduling : Prop :=
  ∀ (s : State) (c q team : Nat) (t : Team),
    let x := clusterOf c s
    let quantum := min 1000 (max 5 ((ctlRaw .schedQuantum s).toNat % 2 ^ 10)) * 1900
    let ended : Prop := x.holder.isSome = true ∧ x.last + quantum ≤ s.ck
    let u := noteReady c s
    let pass (p : Nat) : Nat := alGet 0 p (clusterOf c u).pass
    let wins (w : Nat) : Prop := w ∈ runnables c s ∧ ∀ p ∈ runnables c s, pass w < pass p ∨ pass w = pass p ∧ w ≤ p
    let stride (w : Nat) : Nat := 2 ^ 20 / ((ctlRaw (.partCfg w) s).toNat / 2 ^ 16 % 2 ^ 16)
    let looked : State := lookClusters (restPointer q (vacate q s))
    let written := writesOut q looked
    let note := (ctlRaw (.partCfg t.part) s).toNat / 2 % 2 = 1 ∧ t.pre = true
    let w := (wgOf t.wg s).getD {}
    let banks := ((w.gran.filter fun g => g.1 == t.num).map fun g => g.2 / 8).eraseDups
    awake s = true →
      (¬ended → exec (.quantumBoundary c) s = .next s)
      ∧ (ended → runnables c s = [] → exec (.quantumBoundary c) s = .next (setHolder c none u))
      ∧ (ended → ∀ w, wins w → exec (.quantumBoundary c) s
          = .next (setHolder c (some w) (modCluster c (fun x => { x with gpass := pass w, pass := alSet w (pass w + stride w) x.pass, last := s.ck }) u)))
      ∧ (∀ h v, (clusterOf c (setHolder c h v)).holder = h)
      ∧ ((partOf q looked).resetting = true → exec (.dealPass q) s = .next looked)
      ∧ ((partOf q looked).resetting = false → written.1 = false → exec (.dealPass q) s = .next (causeOnce (.dealPass q) written.2))
      ∧ ((partOf q looked).resetting = false → written.1 = true → exec (.dealPass q) s = .next (lookClusters (restPointer q (runPass q written.2))))
      ∧ (teamOf team s = some t → t.spilled = true → t.status = .halted → (clusterOf (clusterIx t.core s) s).holder = some t.part →
          let held := ((launchOfTeam t s).bind fun l => launchOf l s).any (·.wdogHalt)
          let units (n : Nat) := alGet [] n w.units
          let tiles := alGet [] t.core w.tiles
          let blocked : Prop := unclaimable t.part t.core banks (units t.core) tiles s = true ∨ ∃ n ∈ w.cores, unclaimable t.part n [] (units n) [] s = true
          let room := if w.placed t.core 4 0 then s else barrierPlace t.part t.core s
          let claimed := w.cores.foldl (fun u n => spill t.part n [] (units n) [] [] u) (spill t.part t.core banks (units t.core) tiles [t.slot] room)
          let back := w.cores.foldl (fun u n => regain w.id n [] (units n) [] [] u) (regain w.id t.core banks [] tiles [t.slot] claimed)
          (held = true → exec (.unitReload team) s = .next s)
          ∧ (held = false → blocked → exec (.unitReload team) s = .next (causeOnce (.unitReload team) s))
          ∧ (held = false → ¬blocked → exec (.unitReload team) s
              = .next (w.cores.foldl (fun u n => claimCache n t.part 64 u) (resumeTeam team back))))
      ∧ (teamOf team s = some t → t.status = .halted → t.dead = false → t.exited = false → ∃ t', teamOf team (resumeTeam team s) = some t'
          ∧ t'.spilled = false ∧ t'.pre = false ∧ t'.status = (match t.haltWait with | some w => Status.shelfWait w | none => .shelfReady)
          ∧ t'.preempt = (if note then some (preemptInfo s.ck t) else t.preempt) ∧ t'.pc = t.pc ∧ t'.s = t.s ∧ t'.v = t.v ∧ t'.k = t.k)

/-- R27, R62, R110, R113, R371, R380, R385: a core's cycle lets teams whose wait is over and teams that must wait leave first, fills the
Hob, then picks unless issue is gated; a forced leave puts the team that entered first on the shelf at its boundary, before it issues again; an asynchronous
cause enters the handler of a team on the Hob. The Damper rises by one every 64 ck of work, or of an `mburst`'s rise or hold, up to 8, where
the hold runs out ck by ck, and falls by one every 64 ck after 2,048 idle ck in a row, down to 1. That a rise starts anew after a break is the
model's choice (log 92). -/
def Obligations.CoreCycles : Prop :=
  ∀ (s : State) (n id : Nat) (t : Team),
    let looked := fillHob n (leaveHob n (clearWaits n s))
    let starved : Prop := (∃ t ∈ cycleTeams n s, t.status = .shelfReady ∧ t.readySince + 2048 ≤ s.ck) ∧ (coreOf n s).lastSwap + 2048 ≤ s.ck
    let first := minBy? Team.hobSince ((cycleTeams n s).filter Team.onHob)
    awake s = true →
      (looked.power.halted = true → exec (.coreCycle n) s = .next looked)
      ∧ (looked.power.halted = false → looked.power.level.getD (dieOf n looked) 0 = 0 → exec (.coreCycle n) s = .next (pickTeams n looked))
      ∧ (¬starved → exec (.forcedLeave n) s = .next s)
      ∧ (starved → first = some t → s.ck < t.busy ∨ t.id ∈ s.issue → exec (.forcedLeave n) s = .next s)
      ∧ (starved → first = some t → t.busy ≤ s.ck → t.id ∉ s.issue → exec (.forcedLeave n) s
          = .next (modTeam t.id (fun t => { t with status := .shelfReady, readySince := s.ck, passed := 0, urgent := none, yielded := false }) s))
      ∧ ((focus id s).cur.id = id → (focus id s).cur.onHob = true → (focus id s).cur.emu = false →
          exec (.trapEntry id) s = .next (trapEnter (focus id s)))
      ∧ exec (.damperStep n) s = .next (modCore n (Core.damperTick (mxWork n s)) s)
      ∧ ∀ (c : Core) (work : Bool) (h : Nat),
          let rising := if c.idle = 0 then c.ramp + 1 else 1
          (work = true ∨ c.hold.isSome = true → c.damper < 8 →
            (rising = 64 → c.damperTick work = { c with damper := c.damper + 1, ramp := 0, idle := 0 })
            ∧ (rising ≠ 64 → c.damperTick work = { c with ramp := rising, idle := 0 }))
          ∧ (c.damper = 8 → c.hold = some (h + 1) → c.damperTick work = { c with ramp := 0, idle := 0, hold := some h })
          ∧ (c.damper = 8 → c.hold = some 0 → c.damperTick work = { c with hold := none }.damperTick work)
          ∧ (c.damper = 8 → c.hold = none → c.damperTick true = { c with ramp := 0, idle := 0 })
          ∧ (c.hold = none → c.idle < 2048 → c.damperTick false = { c with idle := c.idle + 1, ramp := 0 })
          ∧ (c.hold = none → 2048 ≤ c.idle → c.ramp + 1 ≠ 64 → c.damperTick false = { c with ramp := c.ramp + 1 })
          ∧ (c.hold = none → 2048 ≤ c.idle → c.ramp + 1 = 64 → c.damperTick false = { c with damper := max 1 (c.damper - 1), ramp := 0 })

/-- R71, R72, R398: a launch whose count has reached its partition's limit sets fired and raises event 3; in hardware mode each of its teams
is to take WATCHDOG and the count restarts, in host-assisted mode they halt and the launch stops counting, until the host resumes them
with the count at zero or kills them. -/
def Obligations.HangWatchdog : Prop :=
  ∀ (s : State) (l q limit : Nat) (x : Launch),
    let fired : State := raiseEvent x.part 3 (ctlSetFld (.partWdog x.part) 32 1 1 s)
    let mine := (launchTeams l fired).map (·.id)
    let set (f : Launch → Launch) (g : Team → Team) : State := modLaunch l f (modTeams (fun t => mine.contains t.id) g fired)
    let host : Prop := (ctlRaw .duty fired).toNat / 2 ^ 6 % 2 = 1
    let halted := (s.launches.filter fun l => l.part == q && l.wdogHalt).map (·.id)
    let counting : State := halted.foldl (fun u l => modLaunch l (fun x => { x with wdogHalt := false, wdog := 0 }) u) s
    awake s = true →
      (launchOf l s = some x → x.phase = .running → limit = (ctlRaw (.partWdog x.part) s).toNat % 2 ^ 32 * 1900 →
        (limit = 0 ∨ x.wdog < limit → exec (.watchdogExpiry l) s = .next s)
        ∧ (limit ≠ 0 → limit ≤ x.wdog → ¬host → exec (.watchdogExpiry l) s = .next (set (fun x => { x with wdog := 0 }) (Team.wdogHit fired.ck)))
        ∧ (limit ≠ 0 → limit ≤ x.wdog → host →
            exec (.watchdogExpiry l) s = .next (set (fun x => { x with wdogHalt := true }) (Team.halt fired.ck))))
      ∧ (halted = [] → exec (.wdogResume q) s = .next s ∧ exec (.wdogKill q) s = .next s)
      ∧ exec (.wdogKill q) s = .next (((halted.flatMap fun l => launchTeams l counting).map (·.id)).foldl (fun u id => killTeam id u) counting)
      ∧ (∀ t : Team, halted = [l] → launchTeams l counting = [t] → t.status = .halted → t.spilled = false → beingSaved t.wg counting = false →
          (clusterOf (clusterIx t.core counting) counting).holder = some q → exec (.wdogResume q) s = .next (resumeTeam t.id counting))
      ∧ (∀ t : Team, t.dead = false → t.exited = false →
          (Team.wdogHit s.ck t).wdog = true ∧ (t.handler = false → ∀ w, t.status = .shelfWait w → (Team.wdogHit s.ck t).status = .shelfReady))

/-! ## Queues, engines and the Rake -/
/-- R90 to R94: at its home slice a decrement of a count above 1 returns the old count and stores one less, one of a count of 0 returns 0
and counts an error; a dequeue of an empty queue gets the end record when the queue is closed and else waits; an enqueue that is done
leaves what it leaves. A malformed header or a misaligned dependency object is answered NACK 6, a line that is not to be had is asked for
again. -/
def Obligations.QueueOperations : Prop :=
  ∀ (s v : State) (o : QOp) (e : LsuEnt) (bs : List Byte) (n : Nat),
    let h := o.ptr
    let count := lineField (ptrAdd h 0x10) 4 v
    let waiters := lineField (ptrAdd h 0x14) 4 v
    let found : Prop := s.lsu.find? (fun e => e.id == o.id) = some e ∧ s.qwait.find? (fun q => q.op.id == o.id && q.op.kind == .deq) = none
    let ends (u : State) : Prop := exec (.queueOperation o) s = .next (endAsk o.id u)
    awake s = true → found →
      (o.kind = .dec → vaOf h % 16 ≠ 0 → ends (cause (.nack { req := e.req, status := 6 }) s))
      ∧ (o.kind = .dec → vaOf h % 16 = 0 → obtain o h s = .ok bs v →
          (lineField h 4 v = n + 2 → ends (deliverQueue o [(0, n + 2)] (putField o h 4 (n + 1) v)))
          ∧ (lineField h 4 v = 0 → ends (deliverQueue o [(0, 0)] (teamError o.team v))))
      ∧ (o.kind = .deq → obtain o h s = .ok bs v → headerOk h v = true → count = 0 →
          (qClosed h v = true → ends (deliverQueue o [(0, 2 ^ 64 - 1), (1, 2 ^ 64 - 1)] v))
          ∧ (qClosed h v = false → withdrawn o.team v = false → ends (putField o (ptrAdd h 0x14) 4 (waiters + 1)
              { v with qwait := v.qwait ++ [{ op := o, cluster := clusterIx o.core v }] })))
      ∧ (∀ a b u, o.kind = .enq a b → enqueue o a b s = .done u → ends u)
      ∧ (∀ a b, o.kind = .enq a b ∨ o.kind = .deq → obtain o h s = .ok bs v → headerOk h v = false →
          ends (cause (.nack { req := e.req, status := 6 }) v))
      ∧ (o.kind ≠ .dec → obtain o h s = .later v → exec (.queueOperation o) s = .next (cause (.queueOperation o) v))

/-- R114, R117, R357, R363, R365: a fill makes its register full with the value it brings, poisoned if it is, and a team that drains
discards it; a copy's engine takes one chunk of an operation that may go on, a copy of no bytes is done, a bad length word fails with cause
0x01; the matrix engine carries out the next operation of the oldest team, and an `mcfg` sets its configuration. -/
def Obligations.EngineSteps : Prop :=
  ∀ (s : State) (team core v : Nat) (poison : Bool) (r : Reg) (t : Team) (o : EngOp) (dst src x y : W64) (rows rowb ds ss : Nat) (d : Reg) (bad : Bool)
    (c : MCfg),
    let fill : Fill := { team := team, dest := .s r, vals := [(0, v)], poison := poison }
    let live : Prop := t.status ≠ .draining ∧ t.status ≠ .killed ∧ t.status ≠ .gone
    let named : Prop := teamOf team s = some t ∧ ∀ u ∈ s.teams, u.id = team → u = t
    let again (u : State) : State :=
      let u := ([0, 1, 2] : List (Fin 3)).foldl (fun u x => advance team x u) u
      let u := modTeam team (fun t => if t.dead || (partOf t.part u).resetting then t.stopCopies else t) u
      match teamOf team u with
      | some t => if t.c.inFlight = 0 then tryRetire team u else causeOnce (.copyChunk team) u
      | none => u
    let ready := copiesReady t s
    let next : State := { s with free := s.free + 1 }
    let more (u : State) : State := if (allTeams u).any (fun t => t.core == core && t.m.inFlight != 0) then causeOnce (.matrixStep core) u else u
    let oldest := minBy? (fun t => teamAge t s) (((allTeams s).filter fun t => t.core == core && t.m.inFlight != 0).filter fun t => (nextM t s).isSome)
    awake s = true →
      (named → live → t.handler = false → r.val < 48 → exec (.registerFill fill) s
          = .next (settle team (modTeam team (fun t => t.setS r { val := w64 v, full := true, poison := (t.sreg r).poison || poison }) s)))
      ∧ (named → ¬live → exec (.registerFill fill) s = .next (settle team s))
      ∧ (teamOf team s = some t → ready = [o] → exec (.copyChunk team) s = .next (again (copyStep t o next)))
      ∧ (teamOf team s = some t → ready = [] → exec (.copyChunk team) s = .next (again s))
      ∧ (o.op = .copy dst src rows rowb ds ss 0 0 d false → rows = 0 ∨ rowb = 0 → copyStep t o s = finishOp t.id 0 o.id s)
      ∧ (o.op = .copy dst src rows rowb ds ss 0 0 d bad → bad = true → copyStep t o s = failOp t.id 0 o 0x01 0 s)
      ∧ ((coreOf core s).mxBusy ≤ s.ck → oldest = some t → nextM t s = some o → exec (.matrixStep core) s = .next (more (matrixOp t o s)))
      ∧ ((coreOf core s).mxBusy ≤ s.ck → oldest = none → exec (.matrixStep core) s = .next (more s))
      ∧ (s.ck < (coreOf core s).mxBusy → exec (.matrixStep core) s = .next (more s))
      ∧ (o.op = .mcfg x y → cfgOf x y = some c → matrixOp t o s = finishOp t.id 1 o.id (modTeam t.id (fun t => { t with mcfg := some c }) s))
      ∧ (o.op = .mcfg x y → cfgOf x y = none → matrixOp t o s = failOp t.id 1 o 0x01 0 (modTeam t.id (fun t => { t with mcfg := none }) s))

/-- R117, R127 to R135: a bank whose errors within its window stay under the threshold is counted, one that crosses it is ashed, or in
host-assisted mode pending; a register whose read finds an error is full and poisoned; the Rake copies the next chunk, noting what it could not
read; the flip ashes the bank and moves its logical bank to the destination, poisoning what was noted and not written since; then the old bank
is released and the next order follows. A victim is saved once its copies stand at a chunk's end. -/
def Obligations.RakeSteps : Prop :=
  ∀ (s : State) (n kind bank errs : Nat) (bad : Bool) (e : Evac) (v : W64) (found : StoreError),
    let c := coreOf n s
    let threshold := (ctlRaw .bankThr s).toNat % 2 ^ 16
    let window := max 1 ((ctlRaw .bankThr s).toNat / 2 ^ 16 % 2 ^ 16) * 1900000
    let recent := (List.replicate (min errs threshold) s.ck ++ (alGet [] (kind, bank) c.errs).filter fun t => decide (s.ck ≤ t + window)).take threshold
    let counted (l : List ((Nat × Nat) × List Nat)) : State := modCore n (fun c => { c with errs := l }) s
    let rest := c.errs.filter fun e => e.1 != (kind, bank)
    let real : Prop := n < ncores s ∧ kind ≤ 2 ∧ bank < (bankCounts kind).2 ∧ threshold ≠ 0
    let duty := (ctlRaw .duty s).toNat / 2 ^ 2 % 2
    let known : Bool := (c.bmap kind).ashed.contains bank || c.pending.contains (kind, bank)
    let crosses (u : State) : Prop := exec (.bankCrossing n kind bank { errs := errs }) s = .next u
    let k := v.toNat / 2 ^ 8 % 2 ^ 2
    let b := v.toNat / 2 ^ 10 % 2 ^ 7
    let moved (u : State) : Prop :=
      let m := (coreOf n u).bmap e.kind
      m.ashed = (c.bmap e.kind).ashed ++ [e.bank] ∧ m.phys e.logical = e.dest ∧ m.ceased = (c.bmap e.kind).ceased
      ∧ (coreOf n u).evac = some { e with flipped := true } ∧ (coreOf n u).old = c.old ++ [(e.kind, e.bank)]
    awake s = true →
      (real → recent.length < threshold → crosses (counted (rest ++ [((kind, bank), recent)])))
      ∧ (real → threshold ≤ recent.length → duty = 0 → crosses (orderAsh n kind bank (counted rest)))
      ∧ (real → threshold ≤ recent.length → duty = 1 → known = true → crosses (counted rest))
      ∧ (real → threshold ≤ recent.length → duty = 1 → known = false →
          crosses (modCore n (fun c => { c with pending := c.pending ++ [(kind, bank)] }) (counted rest)))
      ∧ (threshold = 0 → exec (.bankCrossing n kind bank { errs := errs, bad := found }) s = .next (storeError n found s)
          ∧ (∀ t r x, found = .s t r → x.id = t → x.core = n → x.status = .hob → s.teams = [x] →
              (storeError n found s).teams = [x.setS r { x.sreg r with full := true, poison := true }]))
      ∧ (v.toNat % 2 ^ 8 < ncores s → k ≠ 3 → b < (bankCounts k).2 → exec (.bankAsh v) s = .next (orderAsh (v.toNat % 2 ^ 8) k b s))
      ∧ (c.evac = some e → e.flipped = false → e.victims = [] → e.next < e.total → exec (.rakeChunkCopy n bad) s
          = .next (goEvac n { e with next := e.next + 1 } (if bad then markBad n e.kind e.logical e.next (if e.kind = 1 then poisonPinned n e.logical e.next s else s) else s)))
      ∧ (c.evac = some e → e.flipped = false → e.victims = [] → e.total ≤ e.next → e.dest ≠ e.bank → e.drop = false →
          ∃ u, exec (.mapFlip n) s = .next (cause (.oldBankRelease n) u) ∧ moved u ∧ u.mem = s.mem
            ∧ u.wgs = (spreadBad n e.kind s).wgs ∧ u.teams = (spreadBad n e.kind s).teams
            ∧ (e.kind = 0 → (∀ t ∈ s.teams, t.vbad = []) → u.wgs = s.wgs ∧ u.teams = s.teams))
      ∧ (c.evac = some e → e.flipped = true → exec (.oldBankRelease n) s
          = .next (runRake n 256 (modCore n (fun c => { c with evac := none, old := c.old.filter (· != (e.kind, e.bank)) }) s)))
      ∧ (∀ w wg, beingSaved wg s = true →
          let halted := modTeams (fun t => t.wg == wg && t.id != 0) (Team.halt s.ck) s
          let u := takeOut w halted
          let waits (x : Nat × Core) : Bool := match x.2.evac with | some e => e.victims.contains wg | none => false
          (chunkOpen wg halted = true → exec (.workgroupSave wg) s = .next (cause (.workgroupSave wg) halted))
          ∧ (chunkOpen wg halted = false → wgOf wg halted = some w → (u.cores.filter waits).map (·.1) = [n] → (coreOf n u).evac = some e → e.victims = [wg] →
              exec (.workgroupSave wg) s = .next (settleEvac n { e with victims := [] } u)))

/-! ## Requests and replies -/
/-- R167, R182, R201, R204, R343 to R345: a core's relaxed request at a line its slice holds, of a page in this module's memory. A read brings
the bytes and a lease and moves the read time; a write stores its bytes in lane order and moves both times past every lease; an atomic
or compare-and-swap returns the old values and stores the new. Every byte of memory that no item names stays. -/
def Obligations.LineAccesses : Prop :=
  ∀ (s : State) (r : Req) (ln : SLine) (h pa : Nat) (e : LsuEnt),
    let ran := runItems r.op (s.mem.readN pa 64) r.items
    let die := ln.va / 2 ^ 14 % 4
    let plain : Prop := r.agent = .team ∧ r.ord = .rlx ∧ r.eager = false ∧ r.ember = none ∧ s.flueDown = [] ∧ s.mapop = none ∧ s.biasOp = none
      ∧ s.biasHost = [] ∧ reqHome r s = .local h ∧ lineAt (lineVa (vaOf r.ptr)) (keyOf r.ptr) s = some ln
      ∧ ln.present = true ∧ ln.attr = 0 ∧ ln.ar = false ∧ ln.poison = 0 ∧ ln.st = .shared ∧ ln.place = .hbm pa ∧ emberAt ln.ptr s = none
    let lease := serMax (serMax ln.rts ln.wts) (r.pts.getD die 0 + 64)
    let time := serMax (r.pts.getD die ln.rts) (ln.rts + 1)
    let touched (a : Nat) : Prop := ∃ i ∈ r.items, pa + i.off ≤ a ∧ a < pa + i.off + i.size
    let stores (u : State) (reply : W32 → Instr) : Prop :=
      ∃ l m, u = cause (reply l.wts) (setLine l { s with mem := m }) ∧ l.va = ln.va ∧ l.key = ln.key ∧ l.wts = time ∧ l.rts = time ∧ l.record = 0
        ∧ m.wf = true ∧ (∀ a, m.read a = if pa ≤ a ∧ a < pa + 64 then ran.1.getD (a - pa) 0 else s.mem.read a)
        ∧ ∀ a, ¬touched a → m.read a = s.mem.read a
    let writable : Prop := ran.2.2 ≠ 0 ∧ ran.2.2.testBit 9 = false ∧ s.monitors = [] ∧ s.mem.wf = true ∧ ∀ i ∈ r.items, i.off + i.size ≤ 64
    let alone : Prop := s.lsu.find? (fun e => e.id == r.id) = some e ∧ ∀ x ∈ s.lsu, x.group = e.group → x.id ≤ r.id
    awake s = true → plain →
      (r.op = .read → exec (.rd r) s = .next (cause
          (.rdrsp { req := r, vals := r.items.map (itemValue (s.mem.readN pa 64)), line := s.mem.readN pa 64, wts := ln.wts, lease := some lease })
          (setLine { ln with rts := lease, used := s.ck, leases := alSet r.core lease ln.leases } s)))
      ∧ (r.op = .write → writable → ∃ u, exec (.wr r) s = .next u ∧ stores u fun t => .ack { req := r, wts := t })
      ∧ (r.isRmw = true → writable → alone → ∃ u, exec (.atom r) s = .next u ∧ stores u fun t => .rdrsp { req := r, vals := ran.2.1, wts := t })
      ∧ (r.op = .cas → ran.2.2 = 0 → alone → ∃ l, exec (.atom r) s
          = .next (cause (.rdrsp { req := r, vals := ran.2.1, wts := ln.wts }) (setLine l s)) ∧ l.wts = ln.wts ∧ l.rts = ln.rts ∧ l.record = ln.record)

/-- R201, R213, R24, R155 to R158: a reply at its core merges its time, and answers its entry: an acknowledgement ends the items, an atomic's
data are the old values, a mismatch is noted, a NACK 3 waits for the home's wake, one of 4 fails the request, one of 1 or 2 makes a
record. Then the team's order moves on, and every entry that was held is tried. -/
def Obligations.CoreReplies : Prop :=
  ∀ (s : State) (r : Req) (e : LsuEnt) (w : W32) (vals : List Nat) (found : Nat) (n : NackMsg),
    let known := lineAt (lineVa (vaOf r.ptr)) (keyOf r.ptr) s
    let merged : State := match known with | some l => modCore r.core (fun c => c.mergePts (l.die s) w) s | none => s
    let after (u : State) : State := pumpAll (settle r.team u)
    let entry (u : State) : Prop := u.lsu.find? (fun e => e.id == r.id) = some e ∧ passesOf r u = [e] ∧ e.hostHeld = false
    let mine := r.items.filter e.req.items.contains
    let refused (status : Nat) : NackMsg := { n with req := r, status := status }
    awake s = true → r.agent = .team →
      (entry merged → e.phase = .sent → exec (.ack { req := r, wts := w }) s = .next (after (answerItems e.id mine [] false merged)))
      ∧ (entry merged → r.isRmw = true → r.walloc = false → exec (.rdrsp { req := r, vals := vals, wts := w }) s
          = .next (after (answerItems e.id mine (((r.items.zip vals).filter fun x => e.req.items.contains x.1).map fun x => (x.1.lane, x.2)) false merged)))
      ∧ (entry merged → r.op = .read → r.walloc = false → exec (.rdrsp { req := r, vals := vals, wts := w }) s
          = .next (after (readReply e { req := r, vals := vals, wts := w } merged)))
      ∧ (entry merged → r.op ≠ .query → exec (.rdrsp { req := r, vals := vals, wts := w, mismatch := some found }) s
          = .next (after (mismatchReply e { req := r, vals := vals, wts := w, mismatch := some found } found merged)))
      ∧ (entry s → r.op ≠ .query →
          exec (.nack (refused 3)) s = .next (after (modEnt e.id (fun e => { e with phase := .retry n.home }) s))
          ∧ ((∀ rec m, e.kind ≠ .launch rec m) → exec (.nack (refused 4)) s = .next (after (failEnt e s)))
          ∧ exec (.nack (refused 1)) s = .next (after (faultReply { e with req := { e.req with pts := r.pts } } (refused 1) s))
          ∧ exec (.nack (refused 2)) s = .next (after (faultReply { e with req := { e.req with pts := r.pts } } (refused 2) s))
          ∧ exec (.nack (refused 9)) s = .next (after (refusedAtomic e mine s)))
      ∧ (∀ t, teamOf e.req.team s = some t → t.dead = false → e.gone = false → e.inh = false → ∃ t' rec, teamOf e.req.team (faultReply e (refused 2) s) = some t'
          ∧ t'.records = t.records ++ [rec] ∧ rec.cause = 9 ∧ rec.ptr = r.ptr ∧ rec.pc = e.pc ∧ rec.home = n.home ∧ rec.slot = n.slot ∧ t'.pc = t.pc)

/-! ## Coherence and mapping -/
/-- R209 to R216: a lazy release at a line without an ember stores its bytes, leaves an undrawn ember with the core's signature, and sets the
scope record; a draw writes back what the release sequence covers and is answered with the core's vector; each write-back is applied and
its time merged; the answer marks the ember drawn and serves the line, unless the line's bytes are still on their way. -/
def Obligations.EmbersAndDraws : Prop :=
  ∀ (s : State) (r : Req) (ln : SLine) (x : Ember) (h pa : Nat) (d : DrawMsg) (l : DLine) (w : WbackMsg),
    let ran := runItems .write (s.mem.readN pa 64) r.items
    let die := ln.va / 2 ^ 14 % 4
    let time := serMax (r.pts.getD die ln.rts) (ln.rts + 1)
    let code := if r.scope = .dev then 2 else if r.scope = .sys then 3 else 0
    let lazy : Prop := r.agent = .team ∧ r.op = .write ∧ r.ord = .rel ∧ r.eager = false ∧ r.ember = some x ∧ s.flueDown = [] ∧ s.mapop = none
      ∧ s.biasOp = none ∧ s.biasHost = [] ∧ reqHome r s = .local h ∧ lineAt (lineVa (vaOf r.ptr)) (keyOf r.ptr) s = some ln
      ∧ ln.present = true ∧ ln.attr = 0 ∧ ln.st = .shared ∧ ln.place = .hbm pa ∧ s.embers = [] ∧ s.monitors = []
      ∧ emberRoom r.part ln s = some s ∧ ran.2.2 ≠ 0 ∧ ran.2.2.testBit 9 = false
    let c := coreOf d.core s
    let vector : List W32 := c.pts.toList
    let id := s.nextId
    let back : Req := { id := id, agent := .ctrl, core := d.core, part := l.part, op := .write, ptr := mkPtr l.key l.va, items := l.items, pts := vector, launches := l.launches
                        depoch := l.depoch, home := some (homeSel l.va s) }
    let applied := applyWriteBack w.req s
    let answered : State := { s with draws := s.draws.filter fun y => y.line != d.line
                                     embers := updWhere (fun e => e.line == d.line) (fun e =>
                                       { e with vclock := d.vclock.mapIdx (fun i p => if e.joined then serMax p (e.vclock.getD i p) else p), drawing := false, drawn := true }) s.embers }
    awake s = true →
      (lazy → ∃ u k, exec (.ember r) s = .next (cause (.ack { req := r, wts := time }) u)
        ∧ u.embers = [{ x with line := ln.ptr, vclock := r.pts.mapIdx fun i p => if i = die then serMax p time else p, drawing := false, drawn := false }]
        ∧ lineAt (lineVa (vaOf r.ptr)) (keyOf r.ptr) u = some k ∧ k.wts = time ∧ k.rts = time ∧ k.record = code ∧ u.mem = s.mem.writeN pa ran.1)
      ∧ (d.core < 2 ^ 10 → unapplied d.core d.part d.rseq s = [] → c.dirtySet d.part d.rseq = [] → flushRemote true d.part s = ([], s) →
          exec (.draw d) s = .next (cause (.drawack { d with vclock := vector }) s))
      ∧ (d.core < 2 ^ 10 → unapplied d.core d.part d.rseq s = [] → c.dirtySet d.part d.rseq = [l] → exec (.draw d) s = .next
          (let u := cause (.wback { draw := d, req := back }) (cleanDLine d.core l.va l.key { s with nextId := id + 1 })
           { u with draws := updWhere (fun y => y.line == d.line) (fun y => { y with pending := [id] }) u.draws }))
      ∧ (writeBackCut w.req s = false → writableAt (lineVa (vaOf w.req.ptr)) (keyOf w.req.ptr) s = true → exec (.wback w) s = .next (drawAcked w.req.id (acked w.req.id
          (modCore w.draw.core (fun c => c.mergePts (replyDie w.req applied.2) applied.1) applied.2))))
      ∧ (fetching d.line answered = false → exec (.drawack d) s = .next (serveWaiting (lineVa (vaOf d.line)) (keyOf d.line) answered))
      ∧ (fetching d.line answered = true → exec (.drawack d) s = .next answered)
      ∧ (∀ va, bloomHit (bloomOf [l]) va = true ↔ (bloomBits va).1 ∈ [(bloomBits l.va).1, (bloomBits l.va).2] ∧
          (bloomBits va).2 ∈ [(bloomBits l.va).1, (bloomBits l.va).2])

/-- R158, R159, R161, R198 to R203: every 256 ck a core's vector moves on by one and clean lines 2^30 behind go; a line dirty for half of
64 µs is written back; a woken home lets the requests it noted go on; the host's clear of an overflow bit wakes the noted cores; a
fetched line comes to the team that waits for it; the host's command replays or discards the fault entry it names. -/
def Obligations.CoreTimersAndWakes : Prop :=
  ∀ (s : State) (n h : Nat) (d : DLine) (f : FetchRsp) (t : Team) (v : W64) (x : FaultEnt) (e : LsuEnt) (b : Bool),
    let moved (c : Core) : Core := { c with pts := c.pts.map (· + 1) }
    let old (d : DLine) : Bool := d.dmask != 0 && decide (d.since + 60800 ≤ s.ck)
    let far : Prop := ∀ l ∈ s.lines, l.far = false
    let id := s.nextId
    let back : Req := { id := id, agent := .ctrl, core := n, part := d.part, op := .write, ptr := mkPtr d.key d.va, items := d.items, pts := (coreOf n s).pts.toList
                        launches := d.launches, depoch := d.depoch, home := some (homeSel d.va s) }
    let noted := (homeOf h s).noted
    let open' : State := modHome h (fun x => { x with ovf := x.ovf - (x.ovf &&& v.toNat) }) s
    let waiting : Prop := teamOf f.team s = some t ∧ t.fetching = true ∧ linePtr t.pc = f.ptr ∧ f.spec = 0
    let entry : Prop := (homeOf h s).faults.find? (fun f => f.slot == v.toNat % 2 ^ 8) = some x
    let cmd (u : State) : Prop := exec (.fcmdReplay h v) s = .next u ∧ exec (.fcmdDiscard h v) s = .next u
    awake s = true →
      exec (.ptsTick n) s = .next
          (let u := modCore n (fun c => { moved c with dl := c.dl.filter fun d => d.dmask != 0 || !trails (moved c) d }) s
           { u with lines := u.lines.map fun l => if l.die u = dieOf n u then l.aged ((coreOf n u).pts.toList.getD (dieOf n u) 0) else l })
      ∧ (far → (coreOf n s).dl.filter old = [] → exec (.ageSweep n) s = .next s)
      ∧ (far → (coreOf n s).dl.filter old = [d] → exec (.ageSweep n) s
          = .next (cause (.wr back) (cleanDLine n d.va d.key { s with nextId := id + 1 })))
      ∧ (noted = [] → ∃ u, exec (.wake h) s = .next u ∧ u.lsu = s.lsu ∧ u.agenda = s.agenda ∧ u.mem = s.mem)
      ∧ (noted = [(e.req.core, e.req.part, b)] → s.lsu = [e] → e.phase = .retry h → faultRoom e.req.part h s = true →
          b = false ∨ (homeOf h s).ovf.testBit e.req.part = false →
          let mine (t : Team) : Bool := t.core == e.req.core && t.part == e.req.part
          let woken : State := modTeams mine (fun t => { t with c := t.c.awake h, m := t.m.awake h, l := t.l.awake h }) (modHome h (fun x => { x with noted := [] }) s)
          let tried : State := tryEnt e.id { woken with lsu := [{ e with phase := .held }] }
          exec (.wake h) s = .next (((allTeams tried).filter mine).foldl (fun u t => refetch h t u) tried))
      ∧ (noted = [] → exec (.homeOvfClear h v) s = .next open')
      ∧ (noted ≠ [] → exec (.homeOvfClear h v) s = .next (cause (.wake h) open'))
      ∧ (waiting → f.status = 0 → exec (.instructionFetch f) s
          = .next (fetchAhead t.id f.ptr (modTeam t.id (fun t => { t with ilines := [(f.ptr, f.bytes)], fetching := false, fetchBad := false }.wake s.ck) s)))
      ∧ (teamOf f.team s = some t → f.spec ≠ 0 → exec (.instructionFetch f) s = .next (modTeam t.id (aheadArrives f) s))
      ∧ (waiting → f.status = 4 → t.entryFetch f = false → exec (.instructionFetch f) s = .next (killTeam t.id s))
      ∧ (waiting → f.status = 3 → t.entryFetch f = false → exec (.instructionFetch f) s = .next (modTeam t.id (fun t => { t with fetchBad := true }) s))
      ∧ (waiting → f.status = 2 → t.entryFetch f = false → exec (.instructionFetch f) s = .next (fetchFault f t s))
      ∧ (entry → v.toNat / 2 ^ 8 % 2 ^ 2 = 1 → cmd (engineAgain x.req.team x.req.id (replayEntry h x s)))
      ∧ (entry → v.toNat / 2 ^ 8 % 2 ^ 2 = 2 → cmd (discardFault h x s))
      ∧ (entry → v.toNat / 2 ^ 8 % 2 ^ 2 = 0 ∨ v.toNat / 2 ^ 8 % 2 ^ 2 = 3 → cmd s)

/-- R148, R150, R154, R160, R164, R396: a write of `ctl.pt.cmd` while go reads 1 sets err, else go starts the operation it names; an
operation over a page with nothing outstanding is carried out or refused, go falls, done or err rises, and held requests go on; until then, or
while a bias flip of the page goes before it, it waits, and one that clears the page draws its embers; with none
the first waiting `pmap` runs. An unmapping clears the page's lines and its translations. -/
def Obligations.MappingOperations : Prop :=
  ∀ (s : State) (v : W64) (m : MapOp) (id q : Nat) (rest : List Nat),
    let old := ctlRaw .ptCmd s
    let flags := old.toNat / 2 ^ 4 % 2 ^ 2
    let cleared := v.toNat / 2 ^ 4 % 2 ^ 2
    let op : MapOp := { op := v.toNat / 2 % 2 ^ 3, size := v.toNat / 2 ^ 6 % 2 ^ 2, va := v.toNat / 2 ^ 16 % 2 ^ 40 * 2 ^ 16, arg := ctlRaw .ptArg s }
    let word : W64 := w64 (1 + op.op * 2 + (flags - (flags &&& cleared)) * 2 ^ 4 + op.size * 2 ^ 6 + v.toNat / 2 ^ 16 % 2 ^ 40 * 2 ^ 16)
    let writes (u : State) : Prop := exec (.ptUnmap v) s = .next u ∧ exec (.ptSplit v) s = .next u ∧ exec (.ptMove v) s = .next u
      ∧ exec (.ptReattribute v) s = .next u
    let ended (bitNo : Nat) (u : State) : State :=
      let v : State := ctlSetFld .ptCmd 0 1 0 { u with mapop := none }
      let u := releaseHeld (if m.fw then v else ctlSetFld .ptCmd bitNo 1 1 v)
      if u.mapq.isEmpty then u else causeOnce .mappingOpComplete u
    let idle : Prop := s.mapop = some m ∧ areaReady (pageArea m.size m.va) s = true ∧ s.biasOp = none
    let base := ctlRaw (.hotBase q) s
    let ring := ctlMerge (.hotBase q) base v
    let restarted (u : State) : State := (List.range 37).foldl (fun u h => modHome h (fun x => { x with counts := x.counts.filter fun c => c.1 != q }) u) u
    awake s = true →
      (v.getLsbD 0 = true → old.getLsbD 0 = true → writes (ctlSetFld .ptCmd 5 1 1 s))
      ∧ (v.getLsbD 0 = true → old.getLsbD 0 = false → writes (causeOnce .mappingOpComplete { ctlPut .ptCmd word s with mapop := some op }))
      ∧ (idle → ∀ u, hostMapOp m s = some u → u.biasOp = none → exec .mappingOpComplete s = .next (ended 4 u))
      ∧ (s.mapop = some m → mapReady m s = false ∨ flipFirst m s = true → exec .mappingOpComplete s
          = .next (cause .mappingOpComplete (if m.clears then drawArea (pageArea m.size m.va) s else s)))
      ∧ (idle → hostMapOp m s = none → exec .mappingOpComplete s = .next (ended 5 s))
      ∧ (s.mapop = none → s.mapq = id :: rest → exec .mappingOpComplete s
          = .next (let u := runPmap id { s with mapq := rest }; if rest = [] then u else causeOnce .mappingOpComplete u))
      ∧ (m.op = 1 → ∃ u, hostMapOp m s = some u ∧ ∀ h, h < 37 → ∀ e ∈ (homeOf h u).htb,
          e.base / pageBytes (max e.size m.size) ≠ m.va / pageBytes (max e.size m.size))
      ∧ (base.getLsbD 0 = false → v.getLsbD 0 = false → exec (.hotBaseWrite q v) s = .next (ctlPut (.hotBase q) ring s))
      ∧ (base.getLsbD 0 = false → v.getLsbD 0 = true → exec (.hotBaseWrite q v) s = .next (restarted
          (reserveFrames (v.toNat / 2 ^ 16 % 2 ^ 32) (ringFrames v) true (ctlPut (.hotBase q) ring s))))

/-! ## Links, power and the host's commands -/
/-- R15, R16, R18 to R20: a flit that is in order, intact and has room is taken, and its ack frees what it names; any other is discarded and a nak
sent; a nak of a flit that the retry buffer holds is counted and sends that flit and those after it again; the eighth nak of one number in a row
starts a retrain; a pause stops its classes for its time and ends with it, and is sent again above half full, ended below, and left at
half, by a port that is up; a port that has been retrained comes up, and sends what it still holds again (that no nak need ask for it is the model's choice, log 11); late re-routed packets are answered here; packets accepted more than 2 ms ago are forgotten. -/
def Obligations.PortEvents : Prop :=
  ∀ (s : State) (n c : Nat) (f : Flit) (v : W64),
    let x := portOf n s
    let ready : Prop := n < 8 ∧ x.up = true ∧ x.training = false
    let good : Prop := goodFlit f = true
    let inSeq : Prop := f.seq = x.expect ∧ (x.rx.getD f.tc []).length + f.body.length ≤ 65536
    let base : State := modPort n (fun x => x.acked f.ack) s
    let mine (g : Port → Port) : State := modPort n g base
    let put (g : Port → Port) : State := modPort n g s
    let seq := nakOf f
    let y := portOf n base
    let errors := min (2 ^ 32 - 1) ((ctlRaw (.fjErr n) base).toNat % 2 ^ 32 + 1)
    let replayed : State := modPort n (fun x => { x with out := x.out ++ x.retry.dropWhile fun g => g.seq != seq }) (ctlSetFld (.fjErr n) 0 32 errors base)
    let full := (x.rx.getD c []).length
    let until' (x : Port) (c : Nat) : Nat :=
      if (pauseMask f).getLsbD c then (if pauseOf f = 0 then 0 else s.ck + (pauseOf f * 1216 + 9) / 10) else x.pausedUntil.getD c 0
    let late (k : Nat × Packet) : Bool := k.1 != 0 && decide (k.1 ≤ s.ck)
    let again (x : Port) : Port := { x with up := false, training := true, expect := 0, sent := 0, retry := [], queue := [], naks := 0, fails := 2 }
    let down : Prop := (ctlRaw (.fjStat n) s).toNat / 2 ^ 2 % 2 = 1
    awake s = true →
      (ready → good → f.ty = 0 → inSeq → exec (.dataFlit n f) s
          = .next (goOnPorts (mine fun x =>
              let rx := x.rx.getD f.tc [] ++ f.body
              { x with expect := (x.expect + 1) % 4096, rx := x.rx.set f.tc (unpad (rx.length / 32 + 1) rx) })))
      ∧ (ready → ¬good → exec (.dataFlit n f) s = .next (sendNak n (countFec n f s)) ∧ exec (.nakFlit n f) s = .next (sendNak n (countFec n f s))
          ∧ exec (.pauseFlit n f.toFlitHead f.body) s = .next (sendNak n (countFec n f s)))
      ∧ (ready → good → f.ty = 0 → ¬inSeq → exec (.dataFlit n f) s = .next (sendNak n base))
      ∧ (ready → good → f.ty = 3 → exec (.dataFlit n f) s = .next (goOnPorts base))
      ∧ (ready → good → f.ty = 4 → exec (.dataFlit n f) s = .next (mine fun x => { x with training := true, naks := 0 }))
      ∧ (ready → good → (∃ g ∈ y.retry, g.seq = seq) → y.naks = 0 ∨ y.nakSeq ≠ seq →
          exec (.nakFlit n f) s = .next (modPort n (fun x => { x with nakSeq := seq, naks := 1, training := false }) replayed))
      ∧ (ready → good → (∃ g ∈ y.retry, g.seq = seq) → y.nakSeq = seq → 0 < y.naks → y.naks < 7 →
          exec (.nakFlit n f) s = .next (modPort n (fun x => { x with nakSeq := seq, naks := y.naks + 1, training := false }) replayed))
      ∧ (ready → good → (∀ g ∈ y.retry, g.seq ≠ seq) → y.naks = 0 ∨ y.nakSeq ≠ seq →
          exec (.nakFlit n f) s = .next (mine fun x => { x with nakSeq := seq, naks := 1, training := false }))
      ∧ (ready → good → (∀ g ∈ y.retry, g.seq ≠ seq) → y.nakSeq = seq → 0 < y.naks → y.naks < 7 →
          exec (.nakFlit n f) s = .next (mine fun x => { x with nakSeq := seq, naks := y.naks + 1, training := false }))
      ∧ (ready → good → (∀ g ∈ y.retry, g.seq ≠ seq) → y.nakSeq = seq → y.naks = 7 →
          exec (.nakFlit n f) s = .next (mine fun x => { x.control 4 [] with nakSeq := seq, naks := 0, training := true }))
      ∧ (ready → good → exec (.pauseFlit n f.toFlitHead f.body) s = .next (goOnPorts (mine fun x => { x with pausedUntil := (List.range 4).map (until' x) })))
      ∧ (x.pausedUntil.getD c 0 ≠ 0 → x.pausedUntil.getD c 0 ≤ s.ck →
          exec (.pauseExpiry n c) s = .next (goOnPorts (put fun x => { x with pausedUntil := x.pausedUntil.set c 0 })))
      ∧ (s.ck < x.pausedUntil.getD c 0 → exec (.pauseExpiry n c) s = .next s)
      ∧ (x.up = true → x.training = false → x.weSent.getD c false = true →
          (full < 32768 → exec (.pauseRefresh n c) s = .next (put fun x => { x with weSent := x.weSent.set c false }.sendPause c 0))
          ∧ (full = 32768 → exec (.pauseRefresh n c) s = .next s)
          ∧ (32768 < full → exec (.pauseRefresh n c) s = .next (put fun x => x.sendPause c pauseTime)))
      ∧ (x.up = false ∨ x.training = true ∨ x.weSent.getD c false = false → exec (.pauseRefresh n c) s = .next s)
      ∧ (n < 8 → x.training = true →
          exec (.retrainComplete n true) s = .next (goOnPorts (put fun x => { x with up := true, training := false, fails := 0, naks := 0, out := x.out ++ x.retry }))
          ∧ (x.fails < 2 → exec (.retrainComplete n false) s = .next (put fun x => { x with fails := x.fails + 1 }))
          ∧ (x.fails = 2 → exec (.retrainComplete n false) s = .next (portDown n s)))
      ∧ ((∀ k ∈ x.pend, late k = false) → ∃ u, exec (.failoverTimeout n) s = .next u ∧ portOf n u = x ∧ u.agenda = s.agenda)
      ∧ (∀ k, x.pend = [k] → late k = true → exec (.failoverTimeout n) s = .next (unreachable k.2 (put fun x => { x with pend := [] })))
      ∧ exec .dedupExpiry s = .next { s with accepted := s.accepted.filter fun a => decide (s.ck ≤ a.time + 3800000) }
      ∧ (n < 8 → v.getLsbD 2 = true → down → exec (.portRetrain n v) s = .next (modPort n again (ctlSetFld (.fjStat n) 2 1 0 s)))
      ∧ (v.getLsbD 2 = false ∨ ¬down → exec (.portRetrain n v) s = .next s)

/-- R12, R23 to R25, R66, R245, R375: a chunk of a peer's part is refused with 7 without a partition for its tenant, else waits for its part,
and else is checked: 6 when it does not fit its part, 4 when its checksum fails, else it is kept and acknowledged, or, of a broadcast that goes on
to a next part (log 49), kept with its tag: the next part's acknowledgement goes back, negative or not. An acknowledgement is
noted once per chunk and rank, a negative one fails the part. A Flue link's failure makes the module fatal and interrupts every function. -/
def Obligations.ChunksAndFlue : Prop :=
  ∀ (s : State) (c : ChunkMsg) (o : EngOp) (p : CollPart) (t : Team) (team tag tenant srcm chunk status l : Nat),
    let peer : Prop := c.kind ≠ 2
    let found : Prop := tenantHere c.tenant s = true ∧ partFor c.tag c.tenant s = some (team, o) ∧ o.part = some p ∧ teamOf team s = some t
    let rank := p.mods.findIdx fun m => m == c.srcm
    let fits : Prop := c.kind = o.chunkKind ∧ c.w = p.w ∧ c.count = p.unitsOf o.chunkKind c.chunk ∧ rank < p.mods.length ∧ (o.collKind = 1 → prevInChain p = some c.srcm)
    let from' := if o.collKind = 1 then p.root else rank
    let onward := if o.collKind = 1 then nextInChain p else none
    let acks (status : Nat) (u : State) : State := sendChunkAck c.tag c.tenant c.srcm c.chunk status c.ptag u
    let kept (u : State) : State := modPartOf team o.id (fun p => { p with got := p.got ++ [(c.chunk, from', c.x, c.c1, c.c2)] }) u
    let back : State := match o.part.bind fun p => if o.collKind = 1 then prevInChain p else none with
      | some m => sendChunkAck tag tenant m chunk status (alGet 0 chunk ((o.part.map (·.ptags)).getD [])) s
      | none => s
    let abandoned (q : Nat) : Bool := ctlFld (.fjTenant q) 16 1 s == 1 && ctlFld (.fjTenant q) 0 16 s == c.tenant && (partOf q s).abandoned.contains (c.tag, c.srcm)
    awake s = true →
      (c.kind = 2 → exec (.chunk c) s = .next (collStep c.rank c.tag s))
      ∧ (peer → tenantHere c.tenant s = false → exec (.chunk c) s = .next (acks 7 s))
      ∧ (peer → tenantHere c.tenant s = true → partFor c.tag c.tenant s = none → (∀ q, q < 64 → abandoned q = false) →
          exec (.chunk c) s = .next (cause (.chunk c) s))
      ∧ (peer → found → ¬fits → exec (.chunk c) s = .next (failOp t.id 2 o 0x0A c.chunk (acks 6 s)))
      ∧ (peer → found → fits → checkSums c.x ≠ (c.c1, c.c2) → exec (.chunk c) s = .next (failOp t.id 2 o 0x09 c.chunk (acks 4 s)))
      ∧ (peer → found → fits → checkSums c.x = (c.c1, c.c2) → (∀ g ∈ p.got, g.1 ≠ c.chunk ∨ g.2.1 ≠ from') →
          (onward = none → exec (.chunk c) s = .next (causeOnce (ownStep team o.id t.part) (acks 0 (kept s))))
          ∧ (∀ m, onward = some m → exec (.chunk c) s = .next (causeOnce (ownStep team o.id t.part)
              (modPartOf team o.id (fun p => { p with ptags := p.ptags ++ [(c.chunk, c.ptag)] }) (kept s)))))
      ∧ (partFor tag tenant s = none → exec (.chunkack tag tenant srcm chunk status) s = .next s)
      ∧ (partFor tag tenant s = some (team, o) → teamOf team back = some t →
          (status = 0 → exec (.chunkack tag tenant srcm chunk status) s = .next (causeOnce (ownStep team o.id t.part)
            (modPartOf team o.id (fun p => { p with acked := if (chunk, srcm) ∈ p.acked then p.acked else p.acked ++ [(chunk, srcm)] }) back)))
          ∧ (status = 6 → exec (.chunkack tag tenant srcm chunk status) s = .next (failOp team 2 o 0x0A chunk back))
          ∧ (status = 7 → exec (.chunkack tag tenant srcm chunk status) s = .next (failOp team 2 o 0x0B chunk back))
          ∧ (status = 5 → exec (.chunkack tag tenant srcm chunk status) s = .next (failOp team 2 o 0x07 5 back)))
      ∧ (l < 10 → ∃ u, exec (.flueLinkFailure l) s = .next (poisonCut u) ∧ u = raiseFatal { s with cond := .fatal, flueDown := s.flueDown ++ [l] }
          ∧ u.cond = .fatal ∧ u.flueDown = s.flueDown ++ [l])
      ∧ (10 ≤ l → exec (.flueLinkFailure l) s = .next s)

/-- R26 to R28, R30, R31: a throttle step goes one level up while power or temperature is over and one down when neither is, within 0 to 7,
every 10 µs; at 105 °C on any die all issue halts and vector 1 is raised once, at 110 °C power is removed; the host extends only measurement registers 4 to 7, by the
digest of the image's digest; a report is signed over nonce, versions, measurements and fuses, in recovery too. -/
def Obligations.PowerAndTrust : Prop :=
  ∀ (s : State) (d : Nat) (r : DieReading) (temp i : Nat) (image : List Byte) (nonce : BitVec 256),
    let cap := min 2000 (max 800 ((ctlRaw .pwrCap s).toNat % 2 ^ 12))
    let power : Bool := decide (cap * 1000 < 4 * r.powerMw + r.ioPowerMw)
    let hot : Bool := decide (95 < r.temp)
    let level := s.power.level.getD d 0
    let bytes (x : BitVec 256) : List Byte := bytesOfNat 32 x.toNat
    let noted (temp : Nat) (p : Power) : Power := { p with temps := p.temps.set d temp }
    let why : Nat := (if power then 1 else 0) + (if hot then 2 else 0)
    let moved (new : Nat) : Power := { s.power with level := s.power.level.set d new, why := s.power.why.set d why, last := alSet d s.ck s.power.last }
    let step (new : Nat) : State := { s with power := noted r.temp (moved new) }
    let due : Prop := ∀ x ∈ s.power.last, x.1 = d → x.2 + 19000 ≤ s.ck
    let halt : State := sendMsix 0 1 { s with power := { noted temp s.power with halted := true, sticky := true } }
    (awake s = true →
      (d < 4 → due → r.temp < 105 → power || hot → exec (.throttleStep d r) s = .next (step (min 7 (level + 1))))
      ∧ (d < 4 → due → r.temp < 105 → !(power || hot) → exec (.throttleStep d r) s = .next (step (level - 1)))
      ∧ (4 ≤ d ∨ ¬due → r.temp < 105 → exec (.throttleStep d r) s = .next { s with power := noted r.temp s.power })
      ∧ (105 ≤ temp → temp < 110 → s.power.halted = false → exec (.thermalHalt d temp) s = .next halt)
      ∧ (105 ≤ temp → temp < 110 → s.power.halted = true → exec (.thermalHalt d temp) s = .next { s with power := noted temp s.power })
      ∧ (110 ≤ temp → exec (.powerRemoval d temp) s = .next { s with power := noted temp s.power, cond := .unpowered })
      ∧ (4 ≤ i → i < 8 → exec (.measExtend i image) s
          = .next { s with meas := s.meas.set i (Config.sm3 (bytes (s.meas.getD i 0) ++ bytes (Config.sm3 image))) })
      ∧ (i < 4 ∨ 8 ≤ i → exec (.measExtend i image) s = .next s))
    ∧ exec (.attestationReport nonce) s = .next { s with reports := s.reports ++ [attestation nonce s] }
    ∧ (attestation nonce s).length = 512
    ∧ (attestation nonce s).take 4 = [0x36, 0x4E, 0x58, 0x41]
    ∧ ((attestation nonce s).drop 32).take 32 = bytes nonce
    ∧ (attestation nonce s).drop 448 = bytes (Config.sm2Sign (Config.sm3 (reportBody nonce s))).1 ++ bytes (Config.sm2Sign (Config.sm3 (reportBody nonce s))).2

/-- R4, R26, R35, R71, R159, R398: what the host writes to a plain register changes its writable bits alone, and a register that is read-only to
it stays; the power cap is kept within 800 to 2,000; the commands over a team that waits for the host's emulation write its register,
return it from its handler, or kill it. -/
def Obligations.HostCommands : Prop :=
  ∀ (s : State) (r : CtlReg) (v : W64) (q n w : Nat) (t : Team) (rest : List Team),
    let plain : Prop := r ∈ [.modid, .bankThr, .schedQuantum, .duty, .rmapBase, .ptRoot, .ptArg, .lvalBase, .dist n, .fjRoute n, .fjTenant n, .fpool q, .partHvec q,
      .partHdata q, .partKgrant q n, .hostPasid q]
    let fixed : Prop := r ∈ [.harvest n, .ncores, .coremap n, .feat n, .cap n, .bankPend n, .homeFlt n q 0, .emuPend q, .split q, .sigpol q, .lfeVfail q,
      .msixPba q n]
    let waits : Prop := emuQueue q s = t :: rest
    let (addr, data, masked) := alGet ((0 : W64), (0 : W32), true) (q, n) s.msixTab
    let entry := if w = 0 then (v, data, masked) else (addr, v.setWidth 32, v.getLsbD 32)
    let stored : State := { s with msixTab := alSet (q, n) entry s.msixTab }
    awake s = true →
      (plain → exec (.registerWrite r v) s = .next (ctlPut r (ctlMerge r (ctlRaw r s) v) s))
      ∧ (fixed → exec (.registerWrite r v) s = .next s)
      ∧ exec (.registerWrite .pwrCap v) s = .next (ctlPut .pwrCap (w64 (min 2000 (max 800 (v.toNat % 2 ^ 12)))) s)
      ∧ exec (.registerWrite .time v) s = .next { s with time := v }
      ∧ (q < 8 → n < 2048 → entry.2.2 = true ∨ (q, n) ∉ s.msixPend → exec (.registerWrite (.msix q n w) v) s = .next stored)
      ∧ (q < 8 → n < 2048 → entry.2.2 = false → (q, n) ∈ s.msixPend → exec (.registerWrite (.msix q n w) v) s
          = .next { stored with msixPend := s.msixPend.filter (· != (q, n)), msixSent := s.msixSent ++ [(q, entry.1, entry.2.1)] })
      ∧ (ctlRaw r (ctlPut r v s) = v ∧ ∀ r', r' ≠ r → ctlRaw r' (ctlPut r v s) = ctlRaw r' s)
      ∧ (waits → n < 64 → exec (.emuRegWrite q n v) s = .next (modTeam t.id (fun u => u.setS ⟨n % 64, Nat.mod_lt _ (by decide)⟩ { val := v }) s))
      ∧ (waits → exec (.emuKill q) s = .next (killTeam t.id s))
      ∧ (waits → exec (.emuEret q) s = .next (modTeam t.id (fun t => { t with emu := false }.wake s.ck) (returnFromTrap (focus t.id s))))
      ∧ (emuQueue q s = [] → exec (.emuKill q) s = .next s ∧ exec (.emuEret q) s = .next s ∧ exec (.emuRegWrite q n v) s = .next s)

/-! ## Steps that complete -/

/-- R51, R52, R64, R72, R82, R128 to R135, R154, R164, R190, R363: conditions on the state and the operands alone under which a step of the Rake,
of mapping, of a copy, of a bias flip, of a watchdog or of a launch completes, and what it leaves: errors are counted, a bank's order queued
behind the one under way, a chunk copied, a logical bank moved, an old bank released, a victim taken out; an operation of `ctl.pt.cmd`
started, an unmapping carried out, a `pmap` run, a hotness ring taken up. -/
def Obligations.StepsComplete : Prop :=
  ∀ (s : State) (n kind bank errs wg other id team q g : Nat) (e : Evac) (v : W64) (m : MapOp) (w : Workgroup) (t : Team) (o : EngOp) (dst src : W64)
    (rowb ds ss : Nat) (p : Packet),
    let c := coreOf n s
    let core (f : Core → Core) : State := modCore n f s
    let raking : Prop := c.evac = some e ∧ e.victims = []
    let k := v.toNat / 2 ^ 8 % 2 ^ 2
    let b := v.toNat / 2 ^ 10 % 2 ^ 7
    let a := v.toNat % 2 ^ 8
    let new : Prop := ((coreOf a s).bmap k).ashed.contains b = false ∧ (coreOf a s).rakeQ.contains (k, b) = false ∧ (e.kind ≠ k ∨ e.bank ≠ b)
    let clean : Prop := ∀ t ∈ s.cur :: s.teams, t.vbad = []
    let op : MapOp := { op := v.toNat / 2 % 2 ^ 3, size := v.toNat / 2 ^ 6 % 2 ^ 2, va := v.toNat / 2 ^ 16 % 2 ^ 40 * 2 ^ 16, arg := ctlRaw .ptArg s }
    let starts (i : Instr) : Prop := ∃ u, exec i s = .next u ∧ u.mapop = some op ∧ .mappingOpComplete ∈ u.agenda ∧ (ctlRaw .ptCmd u).getLsbD 0 = true
      ∧ u.mem = s.mem ∧ u.lines = s.lines ∧ u.teams = s.teams ∧ u.homes = s.homes
    let unmapped : State := htbReplace m.size m.va none (clearArea (pageArea m.size m.va) s)
    let halted := modTeams (fun t => t.wg == wg && t.id != 0) (Team.halt s.ck) s
    let u := takeOut w halted
    awake s = true →
      (n < ncores s → kind ≤ 2 → bank < (bankCounts kind).2 → c.errs = [] → errs < (ctlRaw .bankThr s).toNat % 2 ^ 16 →
        exec (.bankCrossing n kind bank { errs := errs }) s = .next (core fun c => { c with errs := [((kind, bank), List.replicate errs s.ck)] }))
      ∧ (a < ncores s → k ≠ 3 → b < (bankCounts k).2 → (coreOf a s).evac = some e → new → exec (.bankAsh v) s
          = .next (modCore a (fun c => { c with pending := c.pending.filter (· != (k, b)), rakeQ := c.rakeQ ++ [(k, b)] }) s))
      ∧ (raking → e.flipped = false → e.next + 1 < e.total → exec (.rakeChunkCopy n false) s
          = .next (cause (.rakeChunkCopy n false) (core fun c => { c with evac := some { e with next := e.next + 1 } })))
      ∧ (raking → e.flipped = false → e.next + 1 = e.total → exec (.rakeChunkCopy n false) s
          = .next (cause (.mapFlip n) (core fun c => { c with evac := some { e with next := e.next + 1 } })))
      ∧ (raking → e.flipped = false → e.total ≤ e.next → e.kind = 0 → e.dest ≠ e.bank → e.drop = false → clean → ∃ u,
          exec (.mapFlip n) s = .next (cause (.oldBankRelease n) u) ∧ (coreOf n u).vmap.ashed = c.vmap.ashed ++ [e.bank]
          ∧ (coreOf n u).vmap.phys e.logical = e.dest ∧ (coreOf n u).evac = some { e with flipped := true }
          ∧ (∀ i, i ≠ n → coreOf i u = coreOf i s) ∧ { u with cores := s.cores } = s)
      ∧ (c.evac = some e → e.flipped = true → c.rakeQ = [] → exec (.oldBankRelease n) s
          = .next (core fun c => { c with evac := none, old := c.old.filter (· != (e.kind, e.bank)) }))
      ∧ (beingSaved wg s = true → chunkOpen wg halted = false → wgOf wg halted = some w → (coreOf n u).evac = some e → e.victims = [wg, other] → wg ≠ other →
          (u.cores.filter fun x => match x.2.evac with | some e => e.victims.contains wg | none => false).map (·.1) = [n] →
          exec (.workgroupSave wg) s = .next (modCore n (fun c => { c with evac := some { e with victims := [other] } }) u))
      ∧ (s.mapop = some m → areaReady (pageArea m.size m.va) s = true → s.biasOp = none → m.op = 1 → m.fw = false → unmapped.biasOp = none →
          exec .mappingOpComplete s
          = .next (let v := releaseHeld (ctlSetFld .ptCmd 4 1 1 (ctlSetFld .ptCmd 0 1 0 { unmapped with mapop := none }))
                   if v.mapq = [] then v else causeOnce .mappingOpComplete v))
      ∧ (s.mapop = none → s.mapq = [id] → exec .mappingOpComplete s = .next (runPmap id { s with mapq := [] }))
      ∧ (v.getLsbD 0 = true → (ctlRaw .ptCmd s).getLsbD 0 = false →
          (op.op = 1 → starts (.ptUnmap v)) ∧ (op.op = 2 → starts (.ptSplit v)) ∧ (op.op = 3 → starts (.ptMove v)) ∧ (op.op = 4 → starts (.ptReattribute v)))
      ∧ ((ctlRaw (.hotBase q) s).getLsbD 0 = false → v.getLsbD 0 = false →
          exec (.hotBaseWrite q v) s = .next (ctlPut (.hotBase q) (ctlMerge (.hotBase q) (ctlRaw (.hotBase q) s) v) s))
      ∧ ((ctlRaw (.hotBase q) s).getLsbD 0 = false → v.getLsbD 0 = true → ∃ u, exec (.hotBaseWrite q v) s = .next u
          ∧ ctlRaw (.hotBase q) u = ctlMerge (.hotBase q) (ctlRaw (.hotBase q) s) v ∧ ∀ h, h < 37 → ∀ x ∈ (homeOf h u).counts, x.1 ≠ q)
      ∧ (teamOf team s = some t → copiesReady t s = [o] → o.op = .copy dst src 0 rowb ds ss 0 0 0 false →
          let moved := ([0, 1, 2] : List (Fin 3)).foldl (fun u x => advance team x u) (finishOp t.id 0 o.id { s with free := s.free + 1 })
          let x := modTeam team (fun t => if t.dead || (partOf t.part moved).resetting then t.stopCopies else t) moved
          exec (.copyChunk team) s = .next (match teamOf team x with
            | some t => if t.c.inFlight = 0 then tryRetire team x else causeOnce (.copyChunk team) x
            | none => x))
      ∧ (s.biasOp = some (false, g, 2) → (∀ l ∈ s.links, l.kind ≠ .backInv) → exec .biasFlipDone s
          = .next (releaseHeld (sendMsix 0 3 (ctlSetFld .biasCmd 2 1 1 (ctlSetFld .biasCmd 0 1 0
              { rearmMonitors (granuleArea g s) { s with biasHost := s.biasHost.filter (· != g) } with biasOp := none })))))
      ∧ ((s.launches.filter fun l => l.part == q && l.wdogHalt) = [] → exec (.wdogResume q) s = .next s)
      ∧ (∀ x, s.links = [x] → x.id = id → x.due ≠ 0 → x.due ≤ s.ck → x.pkt = some p →
          exec (.launchResend id) s = .next (sendPacket p { s with links := [{ x with due := 0 }] }))
end

