-- ==== Sys2Proof/Laws/Issue.lean ====
section
/-! SUPPORT. What issuing a word can do, said once (R266): the tests, the effect, and what follows every issue. -/

namespace Sys2Proof.Laws
open Sys2Proof.Machine Sys2Proof.Safety

/-- A team that is ready passes the gate. -/
theorem gate_ready {i : Instr} {s : State} (h : ready i s = true) : gate s s.cur i = .go := by
  simp only [ready, Bool.and_eq_true, List.all_eq_true, Option.isNone_iff_eq_none] at h
  obtain ⟨⟨⟨h1, h2⟩, h3⟩, h4⟩ := h
  have hb : s.cur.interlocked (useOf s.cur i) = false := by simpa using h4
  have hf : (useOf s.cur i).src.find? (fun x => x.2.isSome && !s.cur.isFull x.1) = none := by
    simp only [List.find?_eq_none]
    intro x hx; simp [(h2 x hx).1]
  have hn : (((useOf s.cur i).src.map (·.1)) ++ (useOf s.cur i).dst).filter (fun r => !s.cur.isFull r) = [] := by
    simp only [List.filter_eq_nil_iff, List.mem_append, List.mem_map]
    rintro r (⟨x, hx, rfl⟩ | hr)
    · simp [(h2 x hx).1]
    · simp [h3 r hr]
  have hp : (useOf s.cur i).src.any (fun x => s.cur.isPoisoned x.1) = false := by
    simp only [List.any_eq_false]
    intro x hx; simpa using (h2 x hx).2
  simp [gate, h1, hf, hn, hp, hb]

/-- Issuing a word: what each outcome of the gate and of the effect leads to. -/
theorem issueWord_eq (i : Instr) (body : State → Eff) (s : State) :
    issueWord i body s = match gate s s.cur i with
      | .illegal info => trapAt i 0x01 (fullMask s.cur.width) info s
      | .empty n => trapAt i 0x02 (fullMask s.cur.width) (w64 n) s
      | .wait ss vs => modCur (fun t => t.toShelf (.regs ss vs)) s
      | .busy => s
      | .kill => killTeam s.cur.id s
      | .go => match body s with
        | .done s' e => retire s.cur i e (nextPc s.cur) s'
        | .jump s' p => retire s.cur i false p (modCur (fun t => { t with ilines := [], ahead := [] }) s')
        | .trap c l info => trapAt i c l info s
        | .fedTrap s' c info h =>
          takeTrap { cause := c, lanes := fullMask s.cur.width, ipc := s.cur.pc, resume := nextPc s.cur, word := w32 (encodeWord i), info := info, hint := h } s'
        | .stay s' => s'
        | .kill => killTeam s.cur.id s := rfl

/-- A ready word whose effect is done issues. -/
theorem word_done {i : Instr} {body : State → Eff} {s s' : State} {e : Bool} (h : ready i s = true) (hb : body s = .done s' e) :
    word i body s = .next (retire s.cur i e (nextPc s.cur) s') := by simp [word, issueWord, gate_ready h, hb]
/-- A ready word whose effect is a transfer of control issues. -/
theorem word_jump {i : Instr} {body : State → Eff} {s s' : State} {p : W64} (h : ready i s = true) (hb : body s = .jump s' p) :
    word i body s = .next (retire s.cur i false p (modCur (fun t => { t with ilines := [], ahead := [] }) s')) := by simp [word, issueWord, gate_ready h, hb]
/-- A ready word whose effect is a trap before any effect traps at the instruction. -/
theorem word_trap {i : Instr} {body : State → Eff} {s : State} {c : Byte} {l : Mask} {info : W64} (h : ready i s = true)
    (hb : body s = .trap c l info) : word i body s = .next (trapAt i c l info s) := by simp [word, issueWord, gate_ready h, hb]
/-- A ready word that waits leaves what its effect leaves. -/
theorem word_stay {i : Instr} {body : State → Eff} {s s' : State} (h : ready i s = true) (hb : body s = .stay s') :
    word i body s = .next s' := by simp [word, issueWord, gate_ready h, hb]
/-- A ready word whose effect is a trap behind it. -/
theorem word_fedTrap {i : Instr} {body : State → Eff} {s s' : State} {c : Byte} {info : W64} {g : Hint} (h : ready i s = true)
    (hb : body s = .fedTrap s' c info g) :
    word i body s = .next (takeTrap { cause := c, lanes := fullMask s.cur.width, ipc := s.cur.pc, resume := nextPc s.cur,
                                      word := w32 (encodeWord i), info := info, hint := g } s') := by
  simp [word, issueWord, gate_ready h, hb]

/-- A module that is not in recovery carries out an event. -/
theorem event_awake {f : State → State} {s : State} (h : awake s = true) : event f s = .next (f s) := by
  unfold event; unfold awake at h; cases hc : s.cond <;> simp_all

end Sys2Proof.Laws
end

