-- ==== Sys2Proof/Laws/Results.lean ====
section
/-! SUPPORT. One lemma for each shared shape of instruction: what it leaves when it is ready (scalar, vector, floating-point, mask, reduction). -/

namespace Sys2Proof.Laws
open Sys2Proof.Machine Sys2Proof.Safety

/-- A scalar operation that is ready issues with its result in sD. -/
theorem scalarOp_issues {i : Instr} {s : State} {d : Reg} {v w : W64} {f : Team → W64} (hd : exec i s = scalarOp i d f s) (hw : f s.cur = v) :
    ready i s = true → exec i s = issued i s (withScalar d v s) := by
  intro h; rw [hd]; unfold scalarOp; rw [word_done h rfl, ← hw]; rfl
/-- A lane is active. -/
theorem someActive_of_ne {s : State} (h : ¬ s.cur.gk 0 = 0) : someActive s = true := decide_eq_true h
/-- No lane is active. -/
theorem someActive_of_eq {s : State} (h : s.cur.gk 0 = 0) : someActive s = false := decide_eq_false (not_not.mpr h)
/-- A 32-bit vector operation that is ready issues with its results in the active lanes. -/
theorem vecOp_issues {i : Instr} {s : State} {d : Reg} {f : Team → Nat → W32} {g : Nat → W32} (hd : exec i s = vecOp i d f s) (hw : ∀ l, f s.cur l = g l) :
    ready i s = true → exec i s = issued i s (withLanes d g s) := by
  intro h; rw [hd]; unfold vecOp; rw [word_done h rfl]
  have : f s.cur = g := funext hw
  unfold issued issuedTo withLanes modCur
  simp only [this]
  congr 2
  by_cases h : s.cur.gk 0 = 0
  · rw [if_pos h, someActive_of_eq h]; rfl
  · rw [if_neg h, someActive_of_ne h]; rfl
/-- A 64-bit vector operation that is ready issues with its results in the active lanes of the pair. -/
theorem vecOp64_issues {i : Instr} {s : State} {d : Reg} {f : Team → Nat → W64} {g : Nat → W64} (hd : exec i s = vecOp64 i d f s) (hw : ∀ l, f s.cur l = g l) :
    ready i s = true → exec i s = issued i s (withLanes64 d g s) := by
  intro h; rw [hd]; unfold vecOp64; rw [word_done h rfl]
  have : f s.cur = g := funext hw
  unfold issued issuedTo withLanes64 modCur
  simp only [this]
  congr 2
  by_cases h : s.cur.gk 0 = 0
  · rw [if_pos h, someActive_of_eq h]; rfl
  · rw [if_neg h, someActive_of_ne h]; rfl
/-- The mask of no lane. -/
@[simp] theorem maskOf_false (n : Nat) : maskOf n (fun _ => false) = 0 := by simp [maskOf]
/-- Reading a table of lanes. -/
theorem getD_map_range {α} (n l : Nat) (f : Nat → Option α) (d : Option α) (hd : d = none) : ((List.range n).map f).getD l d = if l < n then f l else none := by
  subst hd
  by_cases h : l < n <;> simp [List.getD, h]
/-- A mask depends on its lanes below the width alone. -/
theorem maskOf_congr {n : Nat} {f g : Nat → Bool} (h : ∀ l < n, f l = g l) : maskOf n f = maskOf n g := by
  simp only [maskOf]
  congr 1
  have : ∀ (k : List Nat) (a : Nat), (∀ l ∈ k, l < n) → k.foldl (fun acc i => if f i then acc + 2 ^ i else acc) a = k.foldl (fun acc i => if g i then acc + 2 ^ i else acc) a := by
    intro k
    induction k with
    | nil => intros; rfl
    | cons x k ih => intro a hk; simp only [List.foldl_cons]; rw [h x (hk x (by simp)), ih _ (fun l hl => hk l (by simp [hl]))]
  exact this _ _ (by simp)
/-- Written lanes depend on the values below the width alone. -/
theorem laneMap_congr {w : Nat} {old : List W32} {f g : Nat → Option W32} (h : ∀ l < w, f l = g l) : laneMap w old f = laneMap w old g := by
  simp only [laneMap]; apply List.map_congr_left; intro l hl; rw [h l (by simpa using hl)]
/-- A floating-point operation that is ready issues with its results and flags in the active lanes. -/
theorem fpOp_issues {i : Instr} {s : State} {d : Reg} {f : Team → Nat → Nat × FX} {g : Nat → Nat × FX} (hd : exec i s = fpOp i d f s) (hw : ∀ l, f s.cur l = g l) :
    ready i s = true → exec i s = issued i s (withFloats d g s) := by
  obtain rfl : f s.cur = g := funext hw
  intro h; rw [hd]; unfold fpOp; rw [word_done h rfl]
  unfold issued issuedTo modCur Team.putFp withFloats
  congr 2
  simp only []
  generalize f s.cur = g
  by_cases h0 : s.cur.gk 0 = 0
  · rw [if_pos h0, someActive_of_eq h0]; rfl
  · rw [if_neg h0, someActive_of_ne h0, if_pos rfl]
    simp only [Team.raise, lanesRun]
    have hm : ∀ q : FX → Bool, raisedMask (s.cur.width) (((List.range s.cur.width).map fun l => if s.cur.act l then some (g l) else none).map fun x => x.map (·.2)) q
        = maskOf s.cur.width fun l => s.cur.act l && q (g l).2 := by
      intro q; unfold raisedMask; apply maskOf_congr; intro l hl
      rw [List.map_map, getD_map_range _ _ _ _ rfl]
      simp only [hl, if_true, Function.comp]
      by_cases ha : s.cur.act l <;> simp [ha]
    have hs : ∀ (F G : Nat → Option W32), (∀ l < s.cur.width, F l = G l) → s.cur.sv d F = s.cur.sv d G := by
      intro F G hFG; unfold Team.sv; rw [laneMap_congr hFG]
    rw [hs _ (fun l => if s.cur.act l then some (BitVec.ofNat 32 (g l).1) else none) (by
      intro l hl; rw [getD_map_range _ _ _ _ rfl]; simp only [hl, if_true]; by_cases ha : s.cur.act l <;> simp [ha, w32])]
    have hwd : ∀ F, (s.cur.sv d F).width = s.cur.width := by intro F; unfold Team.sv Team.setV; split <;> rfl
    have hfl : ∀ F, (s.cur.sv d F).flags = s.cur.flags := by intro F; unfold Team.sv Team.setV; split <;> rfl
    simp only [hwd, hfl, hm, raised]
/-- A floating-point comparison raises invalid alone. -/
theorem cmp_flags (f : Fmt) (c : FCmp) (x y : Nat) : (f.cmp c x y).2 = { nv := (f.cmp c x y).2.nv } := by cases c <;> rfl
/-- A mask operation that is ready issues with its mask. -/
theorem maskOp_issues {i : Instr} {s : State} {d : KReg} {f : Team → Mask} {m : Mask} (hd : exec i s = maskOp i d f s) (hw : f s.cur = m) :
    ready i s = true → exec i s = issued i s (withMask d m s) := by
  intro h; rw [hd, ← hw]; exact word_done h rfl
/-- A mask operation with a scalar result that is ready issues with it. -/
theorem maskToScalar_issues {i : Instr} {s : State} {d : Reg} {f : Team → W64} {v : W64} (hd : exec i s = maskToScalar i d f s) (hw : f s.cur = v) :
    ready i s = true → exec i s = issued i s (withScalar d v s) := by
  intro h; rw [hd, ← hw]; exact word_done h rfl
/-- A mask register reads what was written to it. -/
@[simp] theorem gk_sk_same (t : Team) (k : KReg) (m : Mask) : (t.sk k m).gk k = m := by simp [Team.sk, Team.gk]
/-- Writing one mask register leaves the others. -/
theorem gk_sk_ne (t : Team) (k j : KReg) (m : Mask) (h : j ≠ k) : (t.sk k m).gk j = t.gk j := by
  simp only [Team.sk, Team.gk]; exact Vector.getElem_set_ne _ _ (by intro e; exact h (Fin.ext e.symm))
/-- The accumulator of a reduction before lane `l` (R329). -/
def chainBefore (o : RedOp) (n : Nat) (act : Nat → Bool) (el : Nat → Nat) (l : Nat) : Nat := ((List.range l).filter act).foldl (fun acc j => (redStep o n acc (el j)).1) (redIdentity o n)
/-- R329: the chain of a reduction, lane by lane. -/
theorem redChain_eq (o : RedOp) (n : Nat) (act : Nat → Bool) (el : Nat → Nat) : ∀ (k i : Nat),
   redChain o n (chainBefore o n act el i) ((List.range' i k).map fun l => if act l then some (el l) else none) =
    (chainBefore o n act el (i + k), (List.range' i k).map fun l => if act l then some (chainBefore o n act el l, (redStep o n (chainBefore o n act el l) (el l)).1, (redStep o n (chainBefore o n act el l) (el l)).2) else none) := by
  intro k
  induction k with
  | zero => intro i; rfl
  | succ k ih =>
    intro i
    have hb : chainBefore o n act el (i+1) = if act i then (redStep o n (chainBefore o n act el i) (el i)).1 else chainBefore o n act el i := by
      unfold chainBefore; rw [List.range_succ, List.filter_append, List.foldl_append]
      by_cases h : act i <;> simp [h]
    rw [List.range'_succ, List.map_cons, List.map_cons]
    by_cases h : act i
    · simp only [h, if_true, redChain]
      rw [if_pos h] at hb
      rw [← hb, ih (i+1), show i + 1 + k = i + (k+1) by omega, hb]
    · simp only [h, if_false, redChain, Bool.false_eq_true]
      rw [if_neg h] at hb
      rw [← hb, ih (i+1), show i + 1 + k = i + (k+1) by omega]
/-- R329: what a reduction over the active lanes gives. -/
theorem redRun_eq (t : Team) (o : RedOp) (w : Bool) (a : Reg) :
    let n := if w then 64 else 32
    let el (l : Nat) : Nat := if w then (t.lane64 a l).toNat else (t.lane a l).toNat
    redRun t o w a = (chainBefore o n t.act el t.width, (List.range t.width).map fun l => if t.act l then some (chainBefore o n t.act el l, (redStep o n (chainBefore o n t.act el l) (el l)).1, (redStep o n (chainBefore o n t.act el l) (el l)).2) else none) := by
  have := redChain_eq o (if w then 64 else 32) t.act (fun l => if w then (t.lane64 a l).toNat else (t.lane a l).toNat) t.width 0
  simp only [Nat.zero_add, ← List.range_eq_range'] at this
  exact this
/-- R226: the flags that the active lanes raise. -/
theorem raise_lanes (t u : Team) (g : Nat → FX) (h : u.flags = t.flags) (hw : u.width = t.width) :
   u.raise ((List.range t.width).map fun l => if t.act l then some (g l) else none) = { u with flags := raised t g } := by
  have hm : ∀ q : FX → Bool, raisedMask t.width ((List.range t.width).map fun l => if t.act l then some (g l) else none) q
        = maskOf t.width fun l => t.act l && q (g l) := by
      intro q; unfold raisedMask; apply maskOf_congr; intro l hl
      rw [getD_map_range _ _ _ _ rfl]
      simp only [hl, if_true]
      by_cases ha : t.act l <;> simp [ha]
  unfold Team.raise raised
  rw [h, hw, hm, hm, hm, hm, hm]
/-- Mapping over a lane that may be written. -/
@[simp] theorem map_ite_some {α β} (b : Bool) (x : α) (f : α → β) : (if b then some x else none).map f = if b then some (f x) else none := by cases b <;> rfl
/-- A scalar write leaves the flags. -/
@[simp] theorem ss_flags (t : Team) (d : Reg) (v : W64) : (t.ss d v).flags = t.flags := by unfold Team.ss Team.setS; split <;> rfl
/-- A scalar write leaves the width. -/
@[simp] theorem ss_width (t : Team) (d : Reg) (v : W64) : (t.ss d v).width = t.width := by unfold Team.ss Team.setS; split <;> rfl
/-- A vector write leaves the flags. -/
@[simp] theorem sv_flags (t : Team) (d : Reg) (f) : (t.sv d f).flags = t.flags := by unfold Team.sv Team.setV; split <;> rfl
/-- A vector write leaves the width. -/
@[simp] theorem sv_width (t : Team) (d : Reg) (f) : (t.sv d f).width = t.width := by unfold Team.sv Team.setV; split <;> rfl
/-- A vector write depends on the values below the width alone. -/
theorem sv_congr (t : Team) (d : Reg) (F G : Nat → Option W32) (h : ∀ l < t.width, F l = G l) : t.sv d F = t.sv d G := by unfold Team.sv; rw [laneMap_congr h]
/-- A vector pair write depends on the values below the width alone. -/
theorem sv64_congr (t : Team) (d : Reg) (F G : Nat → Option W64) (h : ∀ l < t.width, F l = G l) : t.sv64 d F = t.sv64 d G := by
  unfold Team.sv64
  rw [sv_congr t d _ (fun l => (G l).map (BitVec.setWidth 32)) (fun l hl => by rw [h l hl]), sv_congr _ _ _ (fun l => (G l).map fun (x : W64) => (x >>> 32).setWidth 32) (fun l hl => by rw [sv_width] at hl; rw [h l hl])]

end Sys2Proof.Laws
end

