-- ==== Sys2Proof/Laws/Access.lean ====
section
/-! SUPPORT. What accesses to global memory, to scratchpad and to barriers can do, said once (R331, R332, R338, R341, R342, R352). -/

namespace Sys2Proof.Laws
open Sys2Proof.Machine Sys2Proof.Safety

/-- Everything a global access can do (R331, R332, R338). -/
theorem issueAccess_accesses {i : Instr} {vec k op need d o sc} {F : State → List Acc} {s : State}
    (he : exec i s = word i (fun s => issueAccess i vec k op need d o sc (F s) s) s) :
    accesses i vec need (F s) s (sendAccess i vec k op d o sc (F s) s) := by
  generalize ha : F s = accs
  simp only [accesses]
  intro h
  have hm : accs.filter (fun a => vaOf a.ptr % a.size != 0) = accs.filter (fun a => decide (vaOf a.ptr % a.size ≠ 0)) := by congr 1; funext a; by_cases h : vaOf a.ptr % a.size = 0 <;> simp [h]
  have hb : accs.filter (fun a => pktOf s.cur.part (keyOf a.ptr) s &&& need != need) = accs.filter (fun a => decide (pktOf s.cur.part (keyOf a.ptr) s &&& need ≠ need)) := by congr 1; funext a; by_cases h : pktOf s.cur.part (keyOf a.ptr) s &&& need = need <;> simp [h]
  rw [he, ← hm, ← hb]
  refine ⟨fun h1 => ?_, fun h1 h2 => ?_, fun h1 h2 h3 => ?_, fun h1 h2 h3 h4 => ?_⟩
  · exact word_trap h (by simp only [issueAccess, ha]; rw [if_pos (by simpa using h1)]; rfl)
  · exact word_trap h (by simp only [issueAccess, ha]; rw [if_neg (by simpa using h1), if_pos (by simpa using h2)]; rfl)
  · exact word_done h (by simp only [issueAccess, ha]; rw [if_neg (by simpa using h1), if_neg (by simpa using h2), if_pos (by simpa using h3)])
  · refine word_done h (s' := sendAccess i vec k op d o sc accs s) (e := false) ?_
    simp only [issueAccess, ha]; rw [if_neg (by simpa using h1), if_neg (by simpa using h2), if_neg (by simpa using h3), if_neg (by omega)]
/-- A barrier wait whose phase is complete ends with its result (R352). -/
theorem waitBody_ends {b d} {u : State} (h : waitEnds b u) : waitBody b d u = .done (waitResult b d u) := by
  simp only [waitBody, waitResult, h.1]
  cases hl : latestArrival b u with
  | none => rfl
  | some ph =>
    dsimp only
    rw [if_neg (fun e => h.2 (by rw [hl, e]))]
/-- The lanes of the accesses that satisfy a test. -/
theorem lanes_of_accs (f : Nat → Acc) (p : Acc → Bool) (hf : ∀ l, (f l).lane = l) (L : List Nat) :
   ((L.map f).filter p).map (·.lane) = L.filter (fun l => p (f l)) := by
  induction L with
  | nil => rfl
  | cons x L ih => simp only [List.map_cons, List.filter_cons]; by_cases h : p (f x) <;> simp [h, ih, hf]
/-- Everything a scratchpad access can do (R185, R334, R341, R342). -/
theorem spAccess_tests {i : Instr} {o : Sys2Proof.Ord} {store p : Bool} {d : Reg} {F : State → List Acc} {G : State → Workgroup → State → State} {s : State} (at' : Nat → Nat) (n : Nat)
    (he : exec i s = word i (fun s => spAccess o store d p (F s) (G s) s) s)
    (f : Nat → Acc) (L : List Nat) (hF : F s = L.map f) (hl : ∀ l, (f l).lane = l) (hp : ∀ l, (f l).ptr.toNat = at' l) (hs : ∀ l, (f l).size = n) (h : ready i s = true) :
    let w := (wgOf s.cur.wg s).getD {}
    let mis := L.filter fun l => decide (at' l % n ≠ 0)
    let out := L.filter fun l => decide (w.share < at' l + n)
    (mis ≠ [] → exec i s = .next (trapAt i 0x05 (maskOfLanes mis) 0 s))
        ∧ (mis = [] → out ≠ [] → exec i s = .next (trapAt i 0x09 (maskOfLanes out) (w64 (2 ^ 63)) s))
        ∧ (mis = [] → out = [] → spWaits o store s = true → exec i s = issued i s (spHold o store d p (F s) s))
        ∧ (mis = [] → out = [] → spWaits o store s = false → ¬(w.wide = true ∧ store = true ∧ (o = .rel ∨ o = .ar)) →
            ¬(w.wide = true ∧ store = false ∧ (o = .acq ∨ o = .ar)) → exec i s = issued i s (G s w s))
        ∧ (mis = [] → out = [] → spWaits o store s = false → w.wide = true ∧ store = false ∧ (o = .acq ∨ o = .ar) →
            exec i s = issued i s (bumpVersion true s.cur.core (G s w s)))
        ∧ (mis = [] → out = [] → spWaits o store s = false → w.wide = true ∧ store = true ∧ (o = .rel ∨ o = .ar) →
            ((spRelease w s).1 = true → exec i s = issued i s (G s w (spRelease w s).2))
            ∧ ((spRelease w s).1 = false → exec i s = .next (spRelease w s).2)) := by
  intro w mis out
  have h1 : ((F s).filter fun a => a.ptr.toNat % a.size != 0).map (·.lane) = mis := by
    rw [hF, lanes_of_accs _ _ hl]; simp only [mis, hp, hs]; congr 1; funext l; by_cases h : at' l % n = 0 <;> simp [h]
  have h2 : ((F s).filter fun a => decide (w.share < a.ptr.toNat + a.size)).map (·.lane) = out := by
    rw [hF, lanes_of_accs _ _ hl]; simp only [out, hp, hs]
  rw [he, ← h1, ← h2]
  refine ⟨fun a => word_trap h ?_, fun a b => word_trap h ?_, fun a b c => word_done h (e := false) ?_, fun a b c k m => word_done h (e := false) ?_, fun a b c k => word_done h (e := false) ?_,
    fun a b c k => ⟨fun r => word_done h (e := false) ?_, fun r => word_stay h ?_⟩⟩ <;> simp only [spAccess]
  · rw [if_pos (by simpa using a)]
  · rw [if_neg (by simpa using a), if_pos (by simpa [w] using b)]
  · rw [if_neg (by simpa using a), if_neg (by simpa [w] using b), if_pos c]
  all_goals rw [if_neg (by simpa using a), if_neg (by simpa [w] using b), if_neg (by simp [c])]
  · by_cases q : (store && (o == .rel || o == .ar)) = true
    · have nw : w.wide = false := by
        cases hw : w.wide
        · rfl
        · exact absurd ⟨hw, by simpa using q⟩ k
      rw [if_pos q]; simp only [w] at nw; simp [spRelease, spReleaseOf, nw, w]
    · rw [if_neg q, if_neg (by
        intro e; exact m ⟨by simp_all [w], by simp_all, by simp_all⟩)]
  · have kw : ((wgOf s.cur.wg s).getD {}).wide = true := k.1
    rw [if_neg (by simp [k.2.1]), if_pos (by simp [k.2.1, k.2.2, kw])]
  all_goals
    rw [if_pos (by simp [k.2.1, k.2.2])]
    rcases hr : spRelease w s with ⟨ok, u⟩
    rw [hr] at r
    replace r : ok = _ := r
    rw [r] at hr
    simp only [w] at hr
    simp only [w, r]
/-- The access of a lane. -/
theorem find_lane (f : Nat → Acc) (hf : ∀ l, (f l).lane = l) (L : List Nat) (l : Nat) :
    ((L.map f).find? fun a => a.lane == l) = if l ∈ L then some (f l) else none := by
  induction L with
  | nil => rfl
  | cons x L ih =>
    simp only [List.map_cons, List.find?_cons, hf, ih, List.mem_cons]
    by_cases h : x = l
    · subst h; simp
    · simp [beq_eq_false_iff_ne.mpr h, Ne.symm h]
/-- What a scratchpad load of clean bytes brings. -/
theorem spLoad_clean (s : State) (w : Workgroup) (d : Reg) (p : Bool) (f : Nat → Acc) (hf : ∀ l, (f l).lane = l)
   (hc : ∀ l ∈ (List.range s.cur.width).filter s.cur.act, ∀ i, i < (f l).size → w.spoison.contains ((f l).ptr.toNat + i) = false) :
   spLoad d p (((List.range s.cur.width).filter s.cur.act).map f) w s =
     if (List.range s.cur.width).filter s.cur.act = [] then s
      else if p then { s with cur := s.cur.sv64 d fun l => if s.cur.act l then some (w64 (natOfBytes (w.spBytes (f l).ptr.toNat (f l).size))) else none }
      else { s with cur := s.cur.sv d fun l => if s.cur.act l then some ((w64 (natOfBytes (w.spBytes (f l).ptr.toNat (f l).size))).setWidth 32) else none } := by
  unfold spLoad Team.spFill
  by_cases h0 : (List.range s.cur.width).filter s.cur.act = []
  · rw [h0]; rfl
  rw [if_neg h0]
  have hne : (List.map f (List.filter s.cur.act (List.range s.cur.width))).isEmpty = false := by
    cases h : List.filter s.cur.act (List.range s.cur.width) with
    | nil => exact absurd h h0
    | cons _ _ => rfl
  have hb : ((List.map f (List.filter s.cur.act (List.range s.cur.width))).any fun a => (List.range a.size).any fun i => w.spoison.contains (a.ptr.toNat + i)) = false := by
    simp only [List.any_map, List.any_eq_false, Function.comp, Bool.not_eq_true]
    intro l hl
    exact fun i hi => hc l hl i (List.mem_range.mp hi)
  simp only [hne, hb, Bool.false_eq_true, if_false, modCur, find_lane f hf]
  have hl : ∀ l, l < s.cur.width → (l ∈ (List.range s.cur.width).filter s.cur.act ↔ s.cur.act l = true) := by
    intro l h; simp [h]
  cases p
  · simp only [Bool.false_eq_true, if_false, Team.sv]
    refine congrArg (fun (x : List W32) => ({ s with cur := s.cur.setV d { lanes := x } } : State)) (laneMap_congr fun l h => ?_)
    simp only [hl l h]; split <;> rfl
  · simp only [if_true, Team.sv64, Team.sv]
    have e : ∀ l, l < s.cur.width → ((if l ∈ (List.range s.cur.width).filter s.cur.act then some (f l) else none).map fun a => w64 (natOfBytes (w.spBytes a.ptr.toNat a.size)))
        = if s.cur.act l then some (w64 (natOfBytes (w.spBytes (f l).ptr.toNat (f l).size))) else none := by
      intro l h; simp only [hl l h]; split <;> rfl
    refine congrArg (fun (x : Team) => ({ s with cur := x } : State)) ?_
    have w1 : ∀ (r : Reg) (x : VReg), (s.cur.setV r x).width = s.cur.width := by intro r x; unfold Team.setV; split <;> rfl
    simp only [w1]
    rw [laneMap_congr fun l h => congrArg (fun o => Option.map (BitVec.setWidth 32) o) (e l h)]
    rw [laneMap_congr fun l h => congrArg (fun o => Option.map (fun (x : W64) => (x >>> 32).setWidth 32) o) (e l h)]

end Sys2Proof.Laws
end

