-- ==== Sys2Proof/Laws/Arbiter.lean ====
section
/-! SUPPORT. What an arbiter can do: it serves one of the events that are enabled, and moves nothing but its own counts. -/

namespace Sys2Proof.Laws
open Sys2Proof.Machine

theorem arbitrate_snd (es : List (Instr × List Instr)) (e : Instr × List Instr) (s : State) :
    ∃ a, (arbitrate es e s).2 = { s with arb := a } := by
  unfold arbitrate
  split
  · exact ⟨s.arb, rfl⟩
  · dsimp only
    split
    · split
      · exact ⟨_, rfl⟩
      · exact ⟨s.arb, rfl⟩
    · exact ⟨s.arb, rfl⟩

theorem firstOfEach_mem {k : Nat} {es : List (Instr × List Instr)} {s : State} {x : Nat × Nat × (Instr × List Instr)}
    (h : x ∈ firstOfEach k es s) : x.2.2 ∈ es := by
  obtain ⟨_, -, h⟩ := List.mem_filterMap.mp h
  obtain ⟨y, hy, h⟩ := List.mem_filterMap.mp (List.mem_of_find?_eq_some h)
  split at h
  · split at h
    · cases h; exact hy
    · cases h
  · cases h

/-- The event served is one of those enabled. -/
theorem arbitrate_fst_mem {es : List (Instr × List Instr)} {e : Instr × List Instr} {s : State} (h : e ∈ es) : (arbitrate es e s).1 ∈ es := by
  unfold arbitrate
  split
  · exact h
  · dsimp only
    split
    · split
      · rename_i hf
        exact firstOfEach_mem (List.mem_of_find?_eq_some hf)
      · exact h
    · exact h

end Sys2Proof.Laws
end

