-- ==== Sys2Proof/Laws/Bits.lean ====
section
/-! SUPPORT. Bit counts, bit fields, comparisons and quotients of the scalar and vector instructions, as numbers (R287, R288, R311). -/

-- Proofs are checked one after another: checked side by side, their threads need more memory than a build has.
set_option Elab.async false

namespace Sys2Proof.Laws
open Sys2Proof.Machine

/-- The lesser of two signed values. -/
theorem pick_slt_le {n} (x y : BitVec n) : pick (x.slt y) x y = if x.toInt ≤ y.toInt then x else y := by
  simp only [pick, BitVec.slt]
  by_cases h : x.toInt < y.toInt
  · have : x.toInt ≤ y.toInt := by omega
    simp [h, this]
  · by_cases h2 : x.toInt ≤ y.toInt
    · have : x.toInt = y.toInt := by omega
      simp [h, h2, BitVec.eq_of_toInt_eq this]
    · simp [h, h2]
/-- The greater of two signed values. -/
theorem pick_slt_ge {n} (x y : BitVec n) : pick (y.slt x) x y = if x.toInt ≤ y.toInt then y else x := by
  simp only [pick, BitVec.slt]
  by_cases h : y.toInt < x.toInt
  · simp [h, show ¬ x.toInt ≤ y.toInt by omega]
  · by_cases h2 : x.toInt ≤ y.toInt
    · simp [h, h2]
    · omega
/-- The lesser of two unsigned values. -/
theorem pick_ult_le {n} (x y : BitVec n) : pick (x.ult y) x y = if x.toNat ≤ y.toNat then x else y := by
  simp only [pick, BitVec.ult]
  by_cases h : x.toNat < y.toNat
  · have : x.toNat ≤ y.toNat := by omega
    simp [h, this]
  · by_cases h2 : x.toNat ≤ y.toNat
    · have : x.toNat = y.toNat := by omega
      simp [h, h2, BitVec.eq_of_toNat_eq this]
    · simp [h, h2]
/-- The greater of two unsigned values. -/
theorem pick_ult_ge {n} (x y : BitVec n) : pick (y.ult x) x y = if x.toNat ≤ y.toNat then y else x := by
  simp only [pick, BitVec.ult]
  by_cases h : y.toNat < x.toNat
  · simp [h, show ¬ x.toNat ≤ y.toNat by omega]
  · by_cases h2 : x.toNat ≤ y.toNat
    · simp [h, h2]
    · omega
/-- Leading zeros are the zero bits from the top. -/
theorem leadZeros_eq (n : Nat) : ∀ x : Nat, leadZeros x n = ((List.range n).takeWhile fun i => !x.testBit (n-1-i)).length := by
  induction n with
  | zero => intro x; rfl
  | succ n ih =>
    intro x
    rw [leadZeros, List.range_succ_eq_map, List.takeWhile_cons]
    by_cases h : x.testBit n
    · simp [h]
    · simp only [h, Nat.add_sub_cancel, Nat.sub_zero]
      simp only [Bool.not_false, if_true, List.length_cons, List.takeWhile_map, List.length_map, ih]
      simp
      congr 2
      funext i
      simp only [Function.comp]
      congr 2; omega
/-- Trailing zeros are the zero bits from the bottom. -/
theorem trailZeros_eq (n : Nat) : ∀ x : Nat, trailZeros x n = ((List.range n).takeWhile fun i => !x.testBit i).length := by
  induction n with
  | zero => intro x; rfl
  | succ n ih =>
    intro x
    rw [trailZeros, List.range_succ_eq_map, List.takeWhile_cons]
    by_cases h : x % 2 = 1
    · simp [h]
    · simp [h, ih, List.takeWhile_map]
      congr 1
      simp [Function.comp_def, Nat.testBit_add_one]
/-- The population count is the number of set bits. -/
theorem popCount_eq (n : Nat) : ∀ x : Nat, popCount x n = ((List.range n).filter fun i => x.testBit i).length := by
  induction n with
  | zero => intro x; rfl
  | succ n ih =>
    intro x
    rw [popCount, List.range_succ_eq_map, List.filter_cons]
    have h1 : ((List.map Nat.succ (List.range n)).filter fun i => x.testBit i).length = popCount (x / 2) n := by
      rw [List.filter_map, List.length_map, ih]
      simp [Function.comp_def, Nat.testBit_add_one]
    by_cases h : x % 2 = 1
    · simp [h, h1, Nat.add_comm]
    · have : x % 2 = 0 := by omega
      simp [this, h1]
/-- Leading zeros of a bit vector. -/
theorem leadZeros_bv {n} (x : BitVec n) : leadZeros x.toNat n = ((List.range n).takeWhile fun i => !x.getMsbD i).length := by
  rw [leadZeros_eq]
  have : ∀ (l : List Nat), (∀ i ∈ l, i < n) → (l.takeWhile fun i => !x.toNat.testBit (n-1-i)) = l.takeWhile fun i => !x.getMsbD i := by
    intro l hl
    induction l with
    | nil => rfl
    | cons a l ih =>
      have ha := hl a (by simp)
      simp only [List.takeWhile_cons, BitVec.getMsbD, ha, decide_true, Bool.true_and, BitVec.getLsbD]
      rw [ih (fun i hi => hl i (by simp [hi]))]
      rfl
  rw [this _ (by simp)]
/-- Trailing zeros of a bit vector. -/
theorem trailZeros_bv {n} (x : BitVec n) : trailZeros x.toNat n = ((List.range n).takeWhile fun i => !x.getLsbD i).length := trailZeros_eq n _
/-- Set bits of a bit vector. -/
theorem popCount_bv {n} (x : BitVec n) : popCount x.toNat n = ((List.range n).filter fun i => x.getLsbD i).length := popCount_eq n _
/-- The position field of R288. -/
theorem fld_lo (y : W64) : fld y 0 6 = y.toNat % 64 := by simp [fld]
/-- The width field of R288. -/
theorem fld_width (y : W64) : fld y 8 7 = y.toNat / 256 % 128 := by simp [fld]
/-- R288: the extracted field, zero-extended. -/
theorem sbfx_unsigned (x y : W64) : sbfx false x y = BitVec.ofNat 64 (x.toNat / 2 ^ (y.toNat % 64) % 2 ^ min (y.toNat / 256 % 128) (64 - y.toNat % 64)) := by
  simp only [sbfx, fieldSpec, fld_lo, fld_width]
  split <;> rename_i h
  · rw [h]; simp [Nat.mod_one]
  · simp [w64, fld]
/-- R288: the extracted field, sign-extended. -/
theorem sbfx_signed (x y : W64) :
    let n := min (y.toNat / 256 % 128) (64 - y.toNat % 64)
    let f := x.toNat / 2 ^ (y.toNat % 64) % 2 ^ n
    sbfx true x y = BitVec.ofInt 64 (if 2 * f < 2 ^ n then (f : Int) else f - 2 ^ n) := by
  simp only [sbfx, fieldSpec, fld_lo, fld_width]
  split <;> rename_i h
  · rw [h]; simp [Nat.mod_one]
  · simp [sextInt, fld]
/-- R288: the inserted field. -/
theorem sbfi_eq (o x y : W64) :
    let lo := y.toNat % 64
    let n := min (y.toNat / 256 % 128) (64 - lo)
    sbfiOf o x y = BitVec.ofNat 64 (o.toNat % 2 ^ lo + x.toNat % 2 ^ n * 2 ^ lo + o.toNat / 2 ^ (lo + n) * 2 ^ (lo + n)) := by
  simp only [sbfiOf, fieldSpec, fld_lo, fld_width]
  generalize y.toNat % 64 = lo
  generalize min (y.toNat / 256 % 128) (64 - lo) = n
  have key : o.toNat = o.toNat % 2 ^ lo + o.toNat / 2 ^ lo % 2 ^ n * 2 ^ lo + o.toNat / 2 ^ (lo + n) * 2 ^ (lo + n) := by
    have h1 := Nat.mod_add_div o.toNat (2 ^ lo)
    have h2 := Nat.mod_add_div (o.toNat / 2 ^ lo) (2 ^ n)
    rw [Nat.div_div_eq_div_mul, ← Nat.pow_add] at h2
    calc o.toNat = o.toNat % 2 ^ lo + 2 ^ lo * (o.toNat / 2 ^ lo) := h1.symm
      _ = o.toNat % 2 ^ lo + 2 ^ lo * (o.toNat / 2 ^ lo % 2 ^ n + 2 ^ n * (o.toNat / 2 ^ (lo + n))) := by rw [h2]
      _ = _ := by rw [Nat.pow_add]; ring
  split <;> rename_i h
  · subst h
    simp only [Nat.pow_zero, Nat.mod_one, Nat.zero_mul, Nat.add_zero] at key ⊢
    rw [← key, BitVec.ofNat_toNat, BitVec.setWidth_eq]
  · simp only [w64, fld, Nat.pow_zero, Nat.div_one]
    congr 1
    have := Nat.zero_le (o.toNat / 2 ^ lo % 2 ^ n * 2 ^ lo)
    omega
/-- R287: the signed quotient. -/
theorem sdivI_eq (x y : W64) : sdivI x y = if y = 0 then BitVec.allOnes 64 else BitVec.ofInt 64 (x.toInt.tdiv y.toInt) := by
  unfold sdivI; split <;> [rfl; exact BitVec.eq_of_toInt_eq (by rw [BitVec.toInt_sdiv, BitVec.toInt_ofInt])]
/-- R287: the signed remainder. -/
theorem sremI_eq (x y : W64) : sremI x y = if y = 0 then x else BitVec.ofInt 64 (x.toInt.tmod y.toInt) := by
  unfold sremI; split
  · rfl
  · apply BitVec.eq_of_toInt_eq; rw [BitVec.toInt_srem, BitVec.toInt_ofInt]
    have := BitVec.toInt_srem x y
    rw [← this, BitVec.toInt_bmod_cancel]
/-- The comparisons on numbers. -/
theorem cmpHolds_eq {n} (c : Cmp) (x y : BitVec n) : cmpHolds c x y = (match c with
      | .eq => decide (x = y) | .ne => decide (x ≠ y) | .ltI => decide (x.toInt < y.toInt) | .geI => decide (y.toInt ≤ x.toInt)
      | .ltN => decide (x.toNat < y.toNat) | .geN => decide (y.toNat ≤ x.toNat)) := by
  cases c
  case geI => simp only [cmpHolds, BitVec.slt]; rw [Bool.eq_iff_iff]; simp
  case geN => simp only [cmpHolds, BitVec.ult]; rw [Bool.eq_iff_iff]; simp
  all_goals simp [cmpHolds, BitVec.slt, BitVec.ult, beq_eq_decide, bne]
/-- The unsigned quotient. -/
theorem udiv_eq (x y : W64) : x / y = BitVec.ofNat 64 (x.toNat / y.toNat) := by
  apply BitVec.eq_of_toNat_eq; rw [BitVec.toNat_udiv, BitVec.toNat_ofNat, Nat.mod_eq_of_lt (lt_of_le_of_lt (Nat.div_le_self _ _) x.isLt)]
/-- The unsigned remainder. -/
theorem umod_eq (x y : W64) : x % y = BitVec.ofNat 64 (x.toNat % y.toNat) := by
  apply BitVec.eq_of_toNat_eq; rw [BitVec.toNat_umod, BitVec.toNat_ofNat, Nat.mod_eq_of_lt (lt_of_le_of_lt (Nat.mod_le _ _) x.isLt)]

end Sys2Proof.Laws
end

