-- ==== Sys2Proof/Laws/Encode.lean ====
section
/-! SUPPORT. The fields of an encoded word, said once for each format (R250), and the codes of field values. -/

-- Proofs are checked one after another: checked side by side, their threads need more memory than a build has.
set_option Elab.async false

namespace Sys2Proof.Laws
open Sys2Proof

section FormatA
variable {m lo : Nat} (d a b : Reg) (ta tb : Bool)
theorem fmtA_maj (hm : m < 64) (hl : lo < 64) : fmtA m d a b ta tb lo / 2 ^ 26 % 64 = m := by
  cases ta <;> cases tb <;> simp only [fmtA, Bool.toNat_true, Bool.toNat_false] <;> omega
theorem fmtA_lt (hm : m < 64) (hl : lo < 64) : fmtA m d a b ta tb lo < 2 ^ 32 := by
  cases ta <;> cases tb <;> simp only [fmtA, Bool.toNat_true, Bool.toNat_false] <;> omega
theorem fmtA_lo (hl : lo < 64) : fmtA m d a b ta tb lo % 64 = lo := by
  cases ta <;> cases tb <;> simp only [fmtA, Bool.toNat_true, Bool.toNat_false] <;> omega
theorem fmtA_d (hl : lo < 64) : fld6 (fmtA m d a b ta tb lo) 20 = d := by
  apply Fin.ext; cases ta <;> cases tb <;> simp only [fmtA, fld6, Bool.toNat_true, Bool.toNat_false] <;> omega
theorem fmtA_a (hl : lo < 64) : fld6 (fmtA m d a b ta tb lo) 14 = a := by
  apply Fin.ext; cases ta <;> cases tb <;> simp only [fmtA, fld6, Bool.toNat_true, Bool.toNat_false] <;> omega
theorem fmtA_b (hl : lo < 64) : fld6 (fmtA m d a b ta tb lo) 8 = b := by
  apply Fin.ext; cases ta <;> cases tb <;> simp only [fmtA, fld6, Bool.toNat_true, Bool.toNat_false] <;> omega
theorem fmtA_ta (hl : lo < 64) : fldB (fmtA m d a b ta tb lo) 7 = ta := by
  have : fmtA m d a b ta tb lo / 2 ^ 7 % 2 = ta.toNat := by
    cases ta <;> cases tb <;> simp only [fmtA, Bool.toNat_true, Bool.toNat_false] <;> omega
  cases ta <;> simp_all [fldB]
theorem fmtA_tb (hl : lo < 64) : fldB (fmtA m d a b ta tb lo) 6 = tb := by
  have : fmtA m d a b ta tb lo / 2 ^ 6 % 2 = tb.toNat := by
    cases ta <;> cases tb <;> simp only [fmtA, Bool.toNat_true, Bool.toNat_false] <;> omega
  cases tb <;> simp_all [fldB]
/-- A field of the low six bits. -/
theorem fmtA_fldN (hl : lo < 64) {j n : Nat} (h : j + n ≤ 6) : fldN (fmtA m d a b ta tb lo) j n = fldN lo j n := by
  unfold fldN
  have e : fmtA m d a b ta tb lo % 64 = lo := fmtA_lo d a b ta tb hl
  generalize fmtA m d a b ta tb lo = w at e
  subst e
  have h1 : 2 ^ j * 2 ^ n ∣ 64 := by rw [← Nat.pow_add]; exact Nat.pow_dvd_pow 2 h
  rw [← Nat.mod_mul_right_div_self, ← Nat.mod_mul_right_div_self, Nat.mod_mod_of_dvd _ h1]
theorem fmtA_fldB (hl : lo < 64) {j : Nat} (h : j < 6) : fldB (fmtA m d a b ta tb lo) j = fldB lo j := by
  have := fmtA_fldN d a b ta tb (m := m) hl (j := j) (n := 1) (by omega)
  simp only [fldN, Nat.pow_one] at this
  simp only [fldB, this]
end FormatA

section FormatB
variable {m lo : Nat} (d a : Reg) (ta : Bool)
theorem fmtB_maj (hm : m < 64) (hl : lo < 2 ^ 13) : fmtB m d a ta lo / 2 ^ 26 % 64 = m := by
  cases ta <;> simp only [fmtB, Bool.toNat_true, Bool.toNat_false] <;> omega
theorem fmtB_lt (hm : m < 64) (hl : lo < 2 ^ 13) : fmtB m d a ta lo < 2 ^ 32 := by
  cases ta <;> simp only [fmtB, Bool.toNat_true, Bool.toNat_false] <;> omega
theorem fmtB_lo (hl : lo < 2 ^ 13) : fmtB m d a ta lo % 2 ^ 13 = lo := by
  cases ta <;> simp only [fmtB, Bool.toNat_true, Bool.toNat_false] <;> omega
theorem fmtB_d (hl : lo < 2 ^ 13) : fld6 (fmtB m d a ta lo) 20 = d := by
  apply Fin.ext; cases ta <;> simp only [fmtB, fld6, Bool.toNat_true, Bool.toNat_false] <;> omega
theorem fmtB_a (hl : lo < 2 ^ 13) : fld6 (fmtB m d a ta lo) 14 = a := by
  apply Fin.ext; cases ta <;> simp only [fmtB, fld6, Bool.toNat_true, Bool.toNat_false] <;> omega
theorem fmtB_ta (hl : lo < 2 ^ 13) : fldB (fmtB m d a ta lo) 13 = ta := by
  have : fmtB m d a ta lo / 2 ^ 13 % 2 = ta.toNat := by
    cases ta <;> simp only [fmtB, Bool.toNat_true, Bool.toNat_false] <;> omega
  cases ta <;> simp_all [fldB]
end FormatB

section FormatE
variable {m c : Nat} (d a b : Reg)
theorem fmtE_maj (hm : m < 64) (hc : c < 256) : fmtE m d a b c / 2 ^ 26 % 64 = m := by simp only [fmtE]; omega
theorem fmtE_lt (hm : m < 64) (hc : c < 256) : fmtE m d a b c < 2 ^ 32 := by simp only [fmtE]; omega
theorem fmtE_lo (hc : c < 256) : fmtE m d a b c % 256 = c := by simp only [fmtE]; omega
theorem fmtE_d (hc : c < 256) : fld6 (fmtE m d a b c) 20 = d := by apply Fin.ext; simp only [fmtE, fld6]; omega
theorem fmtE_a (hc : c < 256) : fld6 (fmtE m d a b c) 14 = a := by apply Fin.ext; simp only [fmtE, fld6]; omega
theorem fmtE_b (hc : c < 256) : fld6 (fmtE m d a b c) 8 = b := by apply Fin.ext; simp only [fmtE, fld6]; omega
theorem fmtE_fldN (hc : c < 256) {j n : Nat} (h : j + n ≤ 8) : fldN (fmtE m d a b c) j n = fldN c j n := by
  unfold fldN
  have e : fmtE m d a b c % 256 = c := fmtE_lo d a b hc
  generalize fmtE m d a b c = w at e
  subst e
  have h1 : 2 ^ j * 2 ^ n ∣ 256 := by rw [← Nat.pow_add]; exact Nat.pow_dvd_pow 2 h
  rw [← Nat.mod_mul_right_div_self, ← Nat.mod_mul_right_div_self, Nat.mod_mod_of_dvd _ h1]
theorem fmtE_fldB (hc : c < 256) {j : Nat} (h : j < 8) : fldB (fmtE m d a b c) j = fldB c j := by
  have := fmtE_fldN d a b (m := m) hc (j := j) (n := 1) (by omega)
  simp only [fldN, Nat.pow_one] at this
  simp only [fldB, this]
end FormatE

/-! ## Codes of field values -/

@[simp] theorem ord_ofCode (o : Ord) : Ord.ofCode o.code = o := by cases o <;> rfl
@[simp] theorem scope_ofCode (s : Scope) : Scope.ofCode s.code = s := by cases s <;> rfl
@[simp] theorem sz_ofCode (z : Sz) : Sz.ofCode z.code = z := by cases z <;> rfl
@[simp] theorem redOp_ofCode (o : RedOp) : RedOp.ofCode o.code = some o := by cases o <;> rfl
@[simp] theorem iType_ofCode (t : IType) : IType.ofCode t.code = t := by cases t <;> rfl
@[simp] theorem fType_ofCode (t : FType) : FType.ofCode t.code = some t := by cases t <;> rfl
@[simp] theorem atomOp_ofCode (p : AtomOp) : AtomOp.ofCode p.code = some p := by cases p <;> rfl
@[simp] theorem wCond_ofCode (c : WCond) : WCond.ofCode c.code = c := by cases c <;> rfl
@[simp] theorem ctx_ofCode (x : Ctx) : Ctx.ofCode x.code = some x := by cases x <;> rfl
@[simp] theorem special_ofCode (x : Special) : Special.ofCode x.code = some x := by cases x <;> rfl
/-- The low six bits of formats A and D with a size, an order and a scope. -/
theorem szOs (z : Sz) (o : Ord) (s : Scope) :
    z.code * 16 + o.code * 4 + s.code < 64 ∧ fldN (z.code * 16 + o.code * 4 + s.code) 4 2 = z.code
      ∧ fldN (z.code * 16 + o.code * 4 + s.code) 2 2 = o.code ∧ fldN (z.code * 16 + o.code * 4 + s.code) 0 2 = s.code := by
  cases z <;> cases o <;> cases s <;> decide
/-- The same of a block access; `k` is 32 for a store. -/
theorem blockOs (k : Bool) (o : Ord) (s : Scope) :
    (if k then 32 else 0) + o.code * 4 + s.code < 64 ∧ fldB ((if k then 32 else 0) + o.code * 4 + s.code) 5 = k
      ∧ fldB ((if k then 32 else 0) + o.code * 4 + s.code) 4 = false
      ∧ fldN ((if k then 32 else 0) + o.code * 4 + s.code) 2 2 = o.code ∧ fldN ((if k then 32 else 0) + o.code * 4 + s.code) 0 2 = s.code := by
  cases k <;> cases o <;> cases s <;> decide
/-- The ctl field with an operation, an order and a scope. -/
theorem ctlOs_fields (op : Nat) (h : op < 16) (o : Ord) (s : Scope) :
    ctlOs op o s < 256 ∧ fldN (ctlOs op o s) 4 4 = op ∧ fldN (ctlOs op o s) 4 2 = op % 4
      ∧ fldN (ctlOs op o s) 2 2 = o.code ∧ fldN (ctlOs op o s) 0 2 = s.code := by
  simp only [ctlOs, fldN]; cases o <;> cases s <;> simp only [Ord.code, Scope.code] <;> refine ⟨?_, ?_, ?_, ?_, ?_⟩ <;> omega
@[simp] theorem kOf_kReg (k : KReg) : kOf (kReg k) = some k := by have := k.isLt; simp [kOf, kReg]
@[simp] theorem fOf_f (f : Fin 5) : fOf (kfReg (.f f)) = some f := by
  revert f; decide
@[simp] theorem kfOf_kfReg (x : KF) : kfOf (kfReg x) = some x := by
  cases x with
  | k n => have := n.isLt; simp [kfOf, kOf, kfReg]
  | f n => 
    have h : kOf (kfReg (.f n)) = none := by simp [kOf, kfReg]
    simp [kfOf, h]

/-! ## What is known of an encoded word -/

/-- The fields of a word of format A or D. -/
structure IsA (w m : Nat) (d a b : Reg) (ta tb : Bool) (lo : Nat) : Prop where
  lt : w < 2 ^ 32
  maj : w / 2 ^ 26 % 64 = m
  low : w % 64 = lo
  d : fld6 w 20 = d
  a : fld6 w 14 = a
  b : fld6 w 8 = b
  ta : fldB w 7 = ta
  tb : fldB w 6 = tb
  n : ∀ j n, j + n ≤ 6 → fldN w j n = fldN lo j n
  bit : ∀ j, j < 6 → fldB w j = fldB lo j
theorem isA {m lo : Nat} (hm : m < 64) (hl : lo < 64) {d a b : Reg} {ta tb : Bool} {w : Nat} (h : some (fmtA m d a b ta tb lo) = some w) : IsA w m d a b ta tb lo := by
  rw [← Option.some.inj h]
  exact ⟨fmtA_lt _ _ _ _ _ hm hl, fmtA_maj _ _ _ _ _ hm hl, fmtA_lo _ _ _ _ _ hl, fmtA_d _ _ _ _ _ hl, fmtA_a _ _ _ _ _ hl, fmtA_b _ _ _ _ _ hl,
   fmtA_ta _ _ _ _ _ hl, fmtA_tb _ _ _ _ _ hl, fun _ _ h => fmtA_fldN _ _ _ _ _ hl h, fun _ h => fmtA_fldB _ _ _ _ _ hl h⟩
/-- The fields of a word of format B. -/
structure IsB (w m : Nat) (d a : Reg) (ta : Bool) (lo : Nat) : Prop where
  lt : w < 2 ^ 32
  maj : w / 2 ^ 26 % 64 = m
  low : w % 2 ^ 13 = lo
  d : fld6 w 20 = d
  a : fld6 w 14 = a
  ta : fldB w 13 = ta
theorem isB {m lo : Nat} (hm : m < 64) (hl : lo < 2 ^ 13) {d a : Reg} {ta : Bool} {w : Nat} (h : some (fmtB m d a ta lo) = some w) : IsB w m d a ta lo := by
  rw [← Option.some.inj h]
  exact ⟨fmtB_lt _ _ _ hm hl, fmtB_maj _ _ _ hm hl, fmtB_lo _ _ _ hl, fmtB_d _ _ _ hl, fmtB_a _ _ _ hl, fmtB_ta _ _ _ hl⟩
theorem IsB.imm {w m : Nat} {d a : Reg} {ta : Bool} {i : BitVec 13} (h : IsB w m d a ta i.toNat) : BitVec.ofNat 13 w = i := by
  apply BitVec.eq_of_toNat_eq; simpa using h.low
theorem IsB.count {w m : Nat} {d a : Reg} {ta : Bool} {c : Fin 64} (h : IsB w m d a ta c.val) : fld6 w 0 = c ∧ fldN w 6 7 = 0 := by
  have := h.low; exact ⟨Fin.ext (by simp only [fld6]; omega), by simp only [fldN]; omega⟩
theorem IsB.special {w m : Nat} {d a : Reg} {ta : Bool} {x : Nat} (h : IsB w m d a ta x) : fldN w 0 13 = x := by simpa [fldN] using h.low
/-- The fields of a word of format E. -/
structure IsE (w m : Nat) (d a b : Reg) (c : Nat) : Prop where
  lt : w < 2 ^ 32
  maj : w / 2 ^ 26 % 64 = m
  low : w % 256 = c
  d : fld6 w 20 = d
  a : fld6 w 14 = a
  b : fld6 w 8 = b
  n : ∀ j n, j + n ≤ 8 → fldN w j n = fldN c j n
  bit : ∀ j, j < 8 → fldB w j = fldB c j
theorem isE {m c : Nat} (hm : m < 64) (hc : c < 256) {d a b : Reg} {w : Nat} (h : some (fmtE m d a b c) = some w) : IsE w m d a b c := by
  rw [← Option.some.inj h]
  exact ⟨fmtE_lt _ _ _ hm hc, fmtE_maj _ _ _ hm hc, fmtE_lo _ _ _ hc, fmtE_d _ _ _ hc, fmtE_a _ _ _ hc, fmtE_b _ _ _ hc,
   fun _ _ h => fmtE_fldN _ _ _ hc h, fun _ h => fmtE_fldB _ _ _ hc h⟩
/-- The fields of a word of format C. -/
structure IsC (w c a : Nat) (i : BitVec 16) : Prop where
  lt : w < 2 ^ 32
  maj : w / 2 ^ 26 % 64 = 0x3D
  c : fldN w 22 4 = c
  a : (fld6 w 16).val = a
  i : BitVec.ofNat 16 w = i
theorem isC {c a : Nat} (hc : c < 16) (ha : a < 64) {i : BitVec 16} {w : Nat} (h : some (fmtC c a i) = some w) : IsC w c a i := by
  rw [← Option.some.inj h]
  have := i.isLt
  refine ⟨?_, ?_, ?_, ?_, ?_⟩
  · simp only [fmtC]; omega
  · simp only [fmtC]; omega
  · simp only [fmtC, fldN]; omega
  · simp only [fmtC, fld6]; omega
  · apply BitVec.eq_of_toNat_eq; simp only [fmtC, BitVec.toNat_ofNat]; omega
/-- The fields of a word of format H. -/
structure IsH (w k p : Nat) : Prop where
  lt : w < 2 ^ 32
  maj : w / 2 ^ 26 % 64 = 0x3E
  k : fldN w 23 3 = k
  p : w % 2 ^ 23 = p
theorem isH {k p : Nat} (hk : k < 8) (hp : p < 2 ^ 23) {w : Nat} (h : some (fmtH k p) = some w) : IsH w k p := by
  rw [← Option.some.inj h]
  refine ⟨?_, ?_, ?_, ?_⟩ <;> simp only [fmtH, fldN] <;> omega

/-! ## A word is made of its fields -/

theorem fldB_toNat (w j : Nat) : (fldB w j).toNat = w / 2 ^ j % 2 := by
  simp only [fldB]
  rcases Nat.mod_two_eq_zero_or_one (w / 2 ^ j) with h | h <;> rw [h] <;> rfl
theorem fmtA_of {w : Nat} (h : w < 2 ^ 32) :
    fmtA (w / 2 ^ 26 % 64) (fld6 w 20) (fld6 w 14) (fld6 w 8) (fldB w 7) (fldB w 6) (w % 64) = w := by
  simp only [fmtA, fld6, fldB_toNat]; omega
theorem fmtB_of {w : Nat} (h : w < 2 ^ 32) : fmtB (w / 2 ^ 26 % 64) (fld6 w 20) (fld6 w 14) (fldB w 13) (w % 2 ^ 13) = w := by
  simp only [fmtB, fld6, fldB_toNat]; omega
theorem fmtE_of {w : Nat} (h : w < 2 ^ 32) : fmtE (w / 2 ^ 26 % 64) (fld6 w 20) (fld6 w 14) (fld6 w 8) (w % 256) = w := by
  simp only [fmtE, fld6]; omega
theorem fmtC_of {w : Nat} (h : w < 2 ^ 32) (hm : w / 2 ^ 26 % 64 = 0x3D) : fmtC (fldN w 22 4) (fld6 w 16).val (BitVec.ofNat 16 w) = w := by
  simp only [fmtC, fld6, fldN, BitVec.toNat_ofNat]; omega
theorem fmtH_of {w : Nat} (h : w < 2 ^ 32) (hm : w / 2 ^ 26 % 64 = 0x3E) : fmtH (fldN w 23 3) (w % 2 ^ 23) = w := by
  simp only [fmtH, fldN]; omega

/-! ## The decoder of a major -/

section
variable {w : Nat}
theorem majV_lt (e : Bool) : majV e < 64 := by cases e <;> decide
theorem majF_lt (p : FFmt) : 0x20 + p.code < 64 := by cases p <;> decide
theorem dec_scalar (h : w / 2 ^ 26 % 64 = 0x01) : decode w = decScalar w := by simp only [decode, h]
theorem dec_vecInt (e : Bool) (h : w / 2 ^ 26 % 64 = majV e) : decode w = decVecInt e w := by
  cases e <;> simp only [decode, h, majV, if_true, if_false, Bool.false_eq_true]
theorem dec_float (p : FFmt) (h : w / 2 ^ 26 % 64 = 0x20 + p.code) : decode w = decFloat p w := by cases p <;> simp only [decode, h, FFmt.code]
theorem dec_vcvt (h : w / 2 ^ 26 % 64 = 0x13) : decode w = decVcvt w := by simp only [decode, h]
theorem dec_bcast (h : w / 2 ^ 26 % 64 = 0x14) : decode w = decBcast w := by simp only [decode, h]
theorem dec_mask (h : w / 2 ^ 26 % 64 = 0x15) : decode w = decMask w := by simp only [decode, h]
theorem dec_perm (h : w / 2 ^ 26 % 64 = 0x16) : decode w = decPerm w := by simp only [decode, h]
theorem dec_red (h : w / 2 ^ 26 % 64 = 0x17) : decode w = decRed false w := by simp only [decode, h]
theorem dec_scan (h : w / 2 ^ 26 % 64 = 0x18) : decode w = decRed true w := by simp only [decode, h]
theorem dec_vfcvt (h : w / 2 ^ 26 % 64 = 0x23) : decode w = decVfcvt w := by simp only [decode, h]
theorem dec_system (h : w / 2 ^ 26 % 64 = 0x3C) : decode w = decSystem w := by simp only [decode, h]
theorem dec_control (h : w / 2 ^ 26 % 64 = 0x3D) : decode w = decControl w := by simp only [decode, h]
theorem dec_hint (h : w / 2 ^ 26 % 64 = 0x3E) : decode w = decHint w := by simp only [decode, h]
theorem dec_imm {m : Nat} (hm : m ∈ [2, 3, 4, 5, 6, 7, 8, 9, 10, 0x12]) (h : w / 2 ^ 26 % 64 = m) : decode w = decImm m w := by
  simp only [List.mem_cons, List.not_mem_nil, or_false] at hm
  rcases hm with rfl | rfl | rfl | rfl | rfl | rfl | rfl | rfl | rfl | rfl <;> simp only [decode, h]
theorem dec_mem {m : Nat} (hm : m ∈ [0x2C, 0x2D, 0x2E, 0x2F, 0x30, 0x31, 0x32, 0x33]) (h : w / 2 ^ 26 % 64 = m) : decode w = decMem m w := by
  simp only [List.mem_cons, List.not_mem_nil, or_false] at hm
  rcases hm with rfl | rfl | rfl | rfl | rfl | rfl | rfl | rfl <;> simp only [decode, h]
theorem dec_sync {m : Nat} (hm : m ∈ [0x34, 0x35, 0x36, 0x37]) (h : w / 2 ^ 26 % 64 = m) : decode w = decSync m w := by
  simp only [List.mem_cons, List.not_mem_nil, or_false] at hm
  rcases hm with rfl | rfl | rfl | rfl <;> simp only [decode, h]
theorem dec_engine {m : Nat} (hm : m ∈ [0x38, 0x39]) (h : w / 2 ^ 26 % 64 = m) : decode w = decEngine m w := by
  simp only [List.mem_cons, List.not_mem_nil, or_false] at hm
  rcases hm with rfl | rfl <;> simp only [decode, h]
theorem dec_queue {m : Nat} (hm : m ∈ [0x3A, 0x3B]) (h : w / 2 ^ 26 % 64 = m) : decode w = decQueue m w := by
  simp only [List.mem_cons, List.not_mem_nil, or_false] at hm
  rcases hm with rfl | rfl <;> simp only [decode, h]
end

/-! ## What a decoder keeps -/

theorem keep_ok {c : Bool} {e : Reject} {i j : Instr} (h : keep c e i = .ok j) : c = true ∧ i = j := by
  unfold keep at h; split at h <;> simp_all
theorem keepWf_ok {e : Reject} {i j : Instr} (h : keepWf e i = .ok j) : i.wf = true ∧ i = j := keep_ok h
theorem unused_b {x : Reg} {t : Bool} (h : (x == 0 && !t) = true) : x = 0 ∧ t = false := by simpa using h
/-- Major 0x01: the word of what its decoder reads is the word. -/
theorem scalar_back {w : Nat} (hw : w < 2 ^ 32) (hm : w / 2 ^ 26 % 64 = 0x01) {i : Instr} (h : decScalar w = .ok i) :
    i.wf = true ∧ encode i = some w := by
  have A := fmtA_of hw
  rw [hm] at A
  unfold decScalar at h
  dsimp only at h
  split at h
  all_goals (rename_i hl; first
    | (cases h; rw [hl] at A; exact ⟨rfl, congrArg some A⟩)
    | (obtain ⟨hb, rfl⟩ := keep_ok h; obtain ⟨hb1, hb2⟩ := unused_b hb; rw [hl, hb1, hb2] at A; exact ⟨rfl, congrArg some A⟩)
    | cases h)

end Sys2Proof.Laws
end

