-- ==== Sys2Proof/Laws/State.lean ====
section
/-! SUPPORT. One lemma for each field and each update of the state and of a team: what the update leaves in the field. -/

-- Proofs are checked one after another: checked side by side, their threads need more memory than a build has.
set_option Elab.async false

namespace Sys2Proof.Laws
open Sys2Proof.Machine

/-! ### `modCur` -/

@[simp] theorem modCur_cur (f : Team → Team) (s : State) : (modCur f s).cur = f s.cur := rfl
@[simp] theorem modCur_teams (f : Team → Team) (s : State) : (modCur f s).teams = s.teams := rfl
@[simp] theorem modCur_issue (f : Team → Team) (s : State) : (modCur f s).issue = s.issue := rfl
@[simp] theorem modCur_agenda (f : Team → Team) (s : State) : (modCur f s).agenda = s.agenda := rfl
@[simp] theorem modCur_ck (f : Team → Team) (s : State) : (modCur f s).ck = s.ck := rfl
@[simp] theorem modCur_free (f : Team → Team) (s : State) : (modCur f s).free = s.free := rfl
@[simp] theorem modCur_nextId (f : Team → Team) (s : State) : (modCur f s).nextId = s.nextId := rfl
@[simp] theorem modCur_cond (f : Team → Team) (s : State) : (modCur f s).cond = s.cond := rfl
@[simp] theorem modCur_time (f : Team → Team) (s : State) : (modCur f s).time = s.time := rfl
@[simp] theorem modCur_mem (f : Team → Team) (s : State) : (modCur f s).mem = s.mem := rfl
@[simp] theorem modCur_ctl (f : Team → Team) (s : State) : (modCur f s).ctl = s.ctl := rfl
@[simp] theorem modCur_pkt (f : Team → Team) (s : State) : (modCur f s).pkt = s.pkt := rfl
@[simp] theorem modCur_wgs (f : Team → Team) (s : State) : (modCur f s).wgs = s.wgs := rfl
@[simp] theorem modCur_launches (f : Team → Team) (s : State) : (modCur f s).launches = s.launches := rfl
@[simp] theorem modCur_cores (f : Team → Team) (s : State) : (modCur f s).cores = s.cores := rfl
@[simp] theorem modCur_lsu (f : Team → Team) (s : State) : (modCur f s).lsu = s.lsu := rfl
@[simp] theorem modCur_lines (f : Team → Team) (s : State) : (modCur f s).lines = s.lines := rfl
@[simp] theorem modCur_embers (f : Team → Team) (s : State) : (modCur f s).embers = s.embers := rfl
@[simp] theorem modCur_monitors (f : Team → Team) (s : State) : (modCur f s).monitors = s.monitors := rfl
@[simp] theorem modCur_draws (f : Team → Team) (s : State) : (modCur f s).draws = s.draws := rfl
@[simp] theorem modCur_qwait (f : Team → Team) (s : State) : (modCur f s).qwait = s.qwait := rfl
@[simp] theorem modCur_twaits (f : Team → Team) (s : State) : (modCur f s).twaits = s.twaits := rfl
@[simp] theorem modCur_sysver (f : Team → Team) (s : State) : (modCur f s).sysver = s.sysver := rfl
@[simp] theorem modCur_homes (f : Team → Team) (s : State) : (modCur f s).homes = s.homes := rfl
@[simp] theorem modCur_mapop (f : Team → Team) (s : State) : (modCur f s).mapop = s.mapop := rfl
@[simp] theorem modCur_mapq (f : Team → Team) (s : State) : (modCur f s).mapq = s.mapq := rfl
@[simp] theorem modCur_links (f : Team → Team) (s : State) : (modCur f s).links = s.links := rfl
@[simp] theorem modCur_cxlMem (f : Team → Team) (s : State) : (modCur f s).cxlMem = s.cxlMem := rfl
@[simp] theorem modCur_biasHost (f : Team → Team) (s : State) : (modCur f s).biasHost = s.biasHost := rfl
@[simp] theorem modCur_biasOp (f : Team → Team) (s : State) : (modCur f s).biasOp = s.biasOp := rfl
@[simp] theorem modCur_qifs (f : Team → Team) (s : State) : (modCur f s).qifs = s.qifs := rfl
@[simp] theorem modCur_parts (f : Team → Team) (s : State) : (modCur f s).parts = s.parts := rfl
@[simp] theorem modCur_clusters (f : Team → Team) (s : State) : (modCur f s).clusters = s.clusters := rfl
@[simp] theorem modCur_ports (f : Team → Team) (s : State) : (modCur f s).ports = s.ports := rfl
@[simp] theorem modCur_arb (f : Team → Team) (s : State) : (modCur f s).arb = s.arb := rfl
@[simp] theorem modCur_accepted (f : Team → Team) (s : State) : (modCur f s).accepted = s.accepted := rfl
@[simp] theorem modCur_peers (f : Team → Team) (s : State) : (modCur f s).peers = s.peers := rfl
@[simp] theorem modCur_atc (f : Team → Team) (s : State) : (modCur f s).atc = s.atc := rfl
@[simp] theorem modCur_invals (f : Team → Team) (s : State) : (modCur f s).invals = s.invals := rfl
@[simp] theorem modCur_flueDown (f : Team → Team) (s : State) : (modCur f s).flueDown = s.flueDown := rfl
@[simp] theorem modCur_got (f : Team → Team) (s : State) : (modCur f s).got = s.got := rfl
@[simp] theorem modCur_asks (f : Team → Team) (s : State) : (modCur f s).asks = s.asks := rfl
@[simp] theorem modCur_msixTab (f : Team → Team) (s : State) : (modCur f s).msixTab = s.msixTab := rfl
@[simp] theorem modCur_msixPend (f : Team → Team) (s : State) : (modCur f s).msixPend = s.msixPend := rfl
@[simp] theorem modCur_msixSent (f : Team → Team) (s : State) : (modCur f s).msixSent = s.msixSent := rfl
@[simp] theorem modCur_hostOut (f : Team → Team) (s : State) : (modCur f s).hostOut = s.hostOut := rfl
@[simp] theorem modCur_ticket (f : Team → Team) (s : State) : (modCur f s).ticket = s.ticket := rfl
@[simp] theorem modCur_power (f : Team → Team) (s : State) : (modCur f s).power = s.power := rfl
@[simp] theorem modCur_meas (f : Team → Team) (s : State) : (modCur f s).meas = s.meas := rfl
@[simp] theorem modCur_fw (f : Team → Team) (s : State) : (modCur f s).fw = s.fw := rfl
@[simp] theorem modCur_reports (f : Team → Team) (s : State) : (modCur f s).reports = s.reports := rfl

/-! ### `cause` -/

@[simp] theorem cause_cur (i : Instr) (s : State) : (cause i s).cur = s.cur := rfl
@[simp] theorem cause_teams (i : Instr) (s : State) : (cause i s).teams = s.teams := rfl
@[simp] theorem cause_issue (i : Instr) (s : State) : (cause i s).issue = s.issue := rfl
@[simp] theorem cause_agenda (i : Instr) (s : State) : (cause i s).agenda = s.agenda ++ [i] := rfl
@[simp] theorem cause_ck (i : Instr) (s : State) : (cause i s).ck = s.ck := rfl
@[simp] theorem cause_free (i : Instr) (s : State) : (cause i s).free = s.free := rfl
@[simp] theorem cause_nextId (i : Instr) (s : State) : (cause i s).nextId = s.nextId := rfl
@[simp] theorem cause_cond (i : Instr) (s : State) : (cause i s).cond = s.cond := rfl
@[simp] theorem cause_time (i : Instr) (s : State) : (cause i s).time = s.time := rfl
@[simp] theorem cause_mem (i : Instr) (s : State) : (cause i s).mem = s.mem := rfl
@[simp] theorem cause_ctl (i : Instr) (s : State) : (cause i s).ctl = s.ctl := rfl
@[simp] theorem cause_pkt (i : Instr) (s : State) : (cause i s).pkt = s.pkt := rfl
@[simp] theorem cause_wgs (i : Instr) (s : State) : (cause i s).wgs = s.wgs := rfl
@[simp] theorem cause_launches (i : Instr) (s : State) : (cause i s).launches = s.launches := rfl
@[simp] theorem cause_cores (i : Instr) (s : State) : (cause i s).cores = s.cores := rfl
@[simp] theorem cause_lsu (i : Instr) (s : State) : (cause i s).lsu = s.lsu := rfl
@[simp] theorem cause_lines (i : Instr) (s : State) : (cause i s).lines = s.lines := rfl
@[simp] theorem cause_embers (i : Instr) (s : State) : (cause i s).embers = s.embers := rfl
@[simp] theorem cause_monitors (i : Instr) (s : State) : (cause i s).monitors = s.monitors := rfl
@[simp] theorem cause_draws (i : Instr) (s : State) : (cause i s).draws = s.draws := rfl
@[simp] theorem cause_qwait (i : Instr) (s : State) : (cause i s).qwait = s.qwait := rfl
@[simp] theorem cause_twaits (i : Instr) (s : State) : (cause i s).twaits = s.twaits := rfl
@[simp] theorem cause_sysver (i : Instr) (s : State) : (cause i s).sysver = s.sysver := rfl
@[simp] theorem cause_homes (i : Instr) (s : State) : (cause i s).homes = s.homes := rfl
@[simp] theorem cause_mapop (i : Instr) (s : State) : (cause i s).mapop = s.mapop := rfl
@[simp] theorem cause_mapq (i : Instr) (s : State) : (cause i s).mapq = s.mapq := rfl
@[simp] theorem cause_links (i : Instr) (s : State) : (cause i s).links = s.links := rfl
@[simp] theorem cause_cxlMem (i : Instr) (s : State) : (cause i s).cxlMem = s.cxlMem := rfl
@[simp] theorem cause_biasHost (i : Instr) (s : State) : (cause i s).biasHost = s.biasHost := rfl
@[simp] theorem cause_biasOp (i : Instr) (s : State) : (cause i s).biasOp = s.biasOp := rfl
@[simp] theorem cause_qifs (i : Instr) (s : State) : (cause i s).qifs = s.qifs := rfl
@[simp] theorem cause_parts (i : Instr) (s : State) : (cause i s).parts = s.parts := rfl
@[simp] theorem cause_clusters (i : Instr) (s : State) : (cause i s).clusters = s.clusters := rfl
@[simp] theorem cause_ports (i : Instr) (s : State) : (cause i s).ports = s.ports := rfl
@[simp] theorem cause_arb (i : Instr) (s : State) : (cause i s).arb = s.arb := rfl
@[simp] theorem cause_accepted (i : Instr) (s : State) : (cause i s).accepted = s.accepted := rfl
@[simp] theorem cause_peers (i : Instr) (s : State) : (cause i s).peers = s.peers := rfl
@[simp] theorem cause_atc (i : Instr) (s : State) : (cause i s).atc = s.atc := rfl
@[simp] theorem cause_invals (i : Instr) (s : State) : (cause i s).invals = s.invals := rfl
@[simp] theorem cause_flueDown (i : Instr) (s : State) : (cause i s).flueDown = s.flueDown := rfl
@[simp] theorem cause_got (i : Instr) (s : State) : (cause i s).got = s.got := rfl
@[simp] theorem cause_asks (i : Instr) (s : State) : (cause i s).asks = s.asks := rfl
@[simp] theorem cause_msixTab (i : Instr) (s : State) : (cause i s).msixTab = s.msixTab := rfl
@[simp] theorem cause_msixPend (i : Instr) (s : State) : (cause i s).msixPend = s.msixPend := rfl
@[simp] theorem cause_msixSent (i : Instr) (s : State) : (cause i s).msixSent = s.msixSent := rfl
@[simp] theorem cause_hostOut (i : Instr) (s : State) : (cause i s).hostOut = s.hostOut := rfl
@[simp] theorem cause_ticket (i : Instr) (s : State) : (cause i s).ticket = s.ticket := rfl
@[simp] theorem cause_power (i : Instr) (s : State) : (cause i s).power = s.power := rfl
@[simp] theorem cause_meas (i : Instr) (s : State) : (cause i s).meas = s.meas := rfl
@[simp] theorem cause_fw (i : Instr) (s : State) : (cause i s).fw = s.fw := rfl
@[simp] theorem cause_reports (i : Instr) (s : State) : (cause i s).reports = s.reports := rfl

/-! ### `causeAll` -/

@[simp] theorem causeAll_cur (is : List Instr) (s : State) : (causeAll is s).cur = s.cur := rfl
@[simp] theorem causeAll_teams (is : List Instr) (s : State) : (causeAll is s).teams = s.teams := rfl
@[simp] theorem causeAll_issue (is : List Instr) (s : State) : (causeAll is s).issue = s.issue := rfl
@[simp] theorem causeAll_agenda (is : List Instr) (s : State) : (causeAll is s).agenda = s.agenda ++ is := rfl
@[simp] theorem causeAll_ck (is : List Instr) (s : State) : (causeAll is s).ck = s.ck := rfl
@[simp] theorem causeAll_free (is : List Instr) (s : State) : (causeAll is s).free = s.free := rfl
@[simp] theorem causeAll_nextId (is : List Instr) (s : State) : (causeAll is s).nextId = s.nextId := rfl
@[simp] theorem causeAll_cond (is : List Instr) (s : State) : (causeAll is s).cond = s.cond := rfl
@[simp] theorem causeAll_time (is : List Instr) (s : State) : (causeAll is s).time = s.time := rfl
@[simp] theorem causeAll_mem (is : List Instr) (s : State) : (causeAll is s).mem = s.mem := rfl
@[simp] theorem causeAll_ctl (is : List Instr) (s : State) : (causeAll is s).ctl = s.ctl := rfl
@[simp] theorem causeAll_pkt (is : List Instr) (s : State) : (causeAll is s).pkt = s.pkt := rfl
@[simp] theorem causeAll_wgs (is : List Instr) (s : State) : (causeAll is s).wgs = s.wgs := rfl
@[simp] theorem causeAll_launches (is : List Instr) (s : State) : (causeAll is s).launches = s.launches := rfl
@[simp] theorem causeAll_cores (is : List Instr) (s : State) : (causeAll is s).cores = s.cores := rfl
@[simp] theorem causeAll_lsu (is : List Instr) (s : State) : (causeAll is s).lsu = s.lsu := rfl
@[simp] theorem causeAll_lines (is : List Instr) (s : State) : (causeAll is s).lines = s.lines := rfl
@[simp] theorem causeAll_embers (is : List Instr) (s : State) : (causeAll is s).embers = s.embers := rfl
@[simp] theorem causeAll_monitors (is : List Instr) (s : State) : (causeAll is s).monitors = s.monitors := rfl
@[simp] theorem causeAll_draws (is : List Instr) (s : State) : (causeAll is s).draws = s.draws := rfl
@[simp] theorem causeAll_qwait (is : List Instr) (s : State) : (causeAll is s).qwait = s.qwait := rfl
@[simp] theorem causeAll_twaits (is : List Instr) (s : State) : (causeAll is s).twaits = s.twaits := rfl
@[simp] theorem causeAll_sysver (is : List Instr) (s : State) : (causeAll is s).sysver = s.sysver := rfl
@[simp] theorem causeAll_homes (is : List Instr) (s : State) : (causeAll is s).homes = s.homes := rfl
@[simp] theorem causeAll_mapop (is : List Instr) (s : State) : (causeAll is s).mapop = s.mapop := rfl
@[simp] theorem causeAll_mapq (is : List Instr) (s : State) : (causeAll is s).mapq = s.mapq := rfl
@[simp] theorem causeAll_links (is : List Instr) (s : State) : (causeAll is s).links = s.links := rfl
@[simp] theorem causeAll_cxlMem (is : List Instr) (s : State) : (causeAll is s).cxlMem = s.cxlMem := rfl
@[simp] theorem causeAll_biasHost (is : List Instr) (s : State) : (causeAll is s).biasHost = s.biasHost := rfl
@[simp] theorem causeAll_biasOp (is : List Instr) (s : State) : (causeAll is s).biasOp = s.biasOp := rfl
@[simp] theorem causeAll_qifs (is : List Instr) (s : State) : (causeAll is s).qifs = s.qifs := rfl
@[simp] theorem causeAll_parts (is : List Instr) (s : State) : (causeAll is s).parts = s.parts := rfl
@[simp] theorem causeAll_clusters (is : List Instr) (s : State) : (causeAll is s).clusters = s.clusters := rfl
@[simp] theorem causeAll_ports (is : List Instr) (s : State) : (causeAll is s).ports = s.ports := rfl
@[simp] theorem causeAll_arb (is : List Instr) (s : State) : (causeAll is s).arb = s.arb := rfl
@[simp] theorem causeAll_accepted (is : List Instr) (s : State) : (causeAll is s).accepted = s.accepted := rfl
@[simp] theorem causeAll_peers (is : List Instr) (s : State) : (causeAll is s).peers = s.peers := rfl
@[simp] theorem causeAll_atc (is : List Instr) (s : State) : (causeAll is s).atc = s.atc := rfl
@[simp] theorem causeAll_invals (is : List Instr) (s : State) : (causeAll is s).invals = s.invals := rfl
@[simp] theorem causeAll_flueDown (is : List Instr) (s : State) : (causeAll is s).flueDown = s.flueDown := rfl
@[simp] theorem causeAll_got (is : List Instr) (s : State) : (causeAll is s).got = s.got := rfl
@[simp] theorem causeAll_asks (is : List Instr) (s : State) : (causeAll is s).asks = s.asks := rfl
@[simp] theorem causeAll_msixTab (is : List Instr) (s : State) : (causeAll is s).msixTab = s.msixTab := rfl
@[simp] theorem causeAll_msixPend (is : List Instr) (s : State) : (causeAll is s).msixPend = s.msixPend := rfl
@[simp] theorem causeAll_msixSent (is : List Instr) (s : State) : (causeAll is s).msixSent = s.msixSent := rfl
@[simp] theorem causeAll_hostOut (is : List Instr) (s : State) : (causeAll is s).hostOut = s.hostOut := rfl
@[simp] theorem causeAll_ticket (is : List Instr) (s : State) : (causeAll is s).ticket = s.ticket := rfl
@[simp] theorem causeAll_power (is : List Instr) (s : State) : (causeAll is s).power = s.power := rfl
@[simp] theorem causeAll_meas (is : List Instr) (s : State) : (causeAll is s).meas = s.meas := rfl
@[simp] theorem causeAll_fw (is : List Instr) (s : State) : (causeAll is s).fw = s.fw := rfl
@[simp] theorem causeAll_reports (is : List Instr) (s : State) : (causeAll is s).reports = s.reports := rfl

/-! ### `ctlPut` -/

@[simp] theorem ctlPut_cur (r : CtlReg) (v : W64) (s : State) : (ctlPut r v s).cur = s.cur := rfl
@[simp] theorem ctlPut_teams (r : CtlReg) (v : W64) (s : State) : (ctlPut r v s).teams = s.teams := rfl
@[simp] theorem ctlPut_issue (r : CtlReg) (v : W64) (s : State) : (ctlPut r v s).issue = s.issue := rfl
@[simp] theorem ctlPut_agenda (r : CtlReg) (v : W64) (s : State) : (ctlPut r v s).agenda = s.agenda := rfl
@[simp] theorem ctlPut_ck (r : CtlReg) (v : W64) (s : State) : (ctlPut r v s).ck = s.ck := rfl
@[simp] theorem ctlPut_free (r : CtlReg) (v : W64) (s : State) : (ctlPut r v s).free = s.free := rfl
@[simp] theorem ctlPut_nextId (r : CtlReg) (v : W64) (s : State) : (ctlPut r v s).nextId = s.nextId := rfl
@[simp] theorem ctlPut_cond (r : CtlReg) (v : W64) (s : State) : (ctlPut r v s).cond = s.cond := rfl
@[simp] theorem ctlPut_time (r : CtlReg) (v : W64) (s : State) : (ctlPut r v s).time = s.time := rfl
@[simp] theorem ctlPut_mem (r : CtlReg) (v : W64) (s : State) : (ctlPut r v s).mem = s.mem := rfl
@[simp] theorem ctlPut_ctl (r : CtlReg) (v : W64) (s : State) : (ctlPut r v s).ctl = alSet r v s.ctl := rfl
@[simp] theorem ctlPut_pkt (r : CtlReg) (v : W64) (s : State) : (ctlPut r v s).pkt = s.pkt := rfl
@[simp] theorem ctlPut_wgs (r : CtlReg) (v : W64) (s : State) : (ctlPut r v s).wgs = s.wgs := rfl
@[simp] theorem ctlPut_launches (r : CtlReg) (v : W64) (s : State) : (ctlPut r v s).launches = s.launches := rfl
@[simp] theorem ctlPut_cores (r : CtlReg) (v : W64) (s : State) : (ctlPut r v s).cores = s.cores := rfl
@[simp] theorem ctlPut_lsu (r : CtlReg) (v : W64) (s : State) : (ctlPut r v s).lsu = s.lsu := rfl
@[simp] theorem ctlPut_lines (r : CtlReg) (v : W64) (s : State) : (ctlPut r v s).lines = s.lines := rfl
@[simp] theorem ctlPut_embers (r : CtlReg) (v : W64) (s : State) : (ctlPut r v s).embers = s.embers := rfl
@[simp] theorem ctlPut_monitors (r : CtlReg) (v : W64) (s : State) : (ctlPut r v s).monitors = s.monitors := rfl
@[simp] theorem ctlPut_draws (r : CtlReg) (v : W64) (s : State) : (ctlPut r v s).draws = s.draws := rfl
@[simp] theorem ctlPut_qwait (r : CtlReg) (v : W64) (s : State) : (ctlPut r v s).qwait = s.qwait := rfl
@[simp] theorem ctlPut_twaits (r : CtlReg) (v : W64) (s : State) : (ctlPut r v s).twaits = s.twaits := rfl
@[simp] theorem ctlPut_sysver (r : CtlReg) (v : W64) (s : State) : (ctlPut r v s).sysver = s.sysver := rfl
@[simp] theorem ctlPut_homes (r : CtlReg) (v : W64) (s : State) : (ctlPut r v s).homes = s.homes := rfl
@[simp] theorem ctlPut_mapop (r : CtlReg) (v : W64) (s : State) : (ctlPut r v s).mapop = s.mapop := rfl
@[simp] theorem ctlPut_mapq (r : CtlReg) (v : W64) (s : State) : (ctlPut r v s).mapq = s.mapq := rfl
@[simp] theorem ctlPut_links (r : CtlReg) (v : W64) (s : State) : (ctlPut r v s).links = s.links := rfl
@[simp] theorem ctlPut_cxlMem (r : CtlReg) (v : W64) (s : State) : (ctlPut r v s).cxlMem = s.cxlMem := rfl
@[simp] theorem ctlPut_biasHost (r : CtlReg) (v : W64) (s : State) : (ctlPut r v s).biasHost = s.biasHost := rfl
@[simp] theorem ctlPut_biasOp (r : CtlReg) (v : W64) (s : State) : (ctlPut r v s).biasOp = s.biasOp := rfl
@[simp] theorem ctlPut_qifs (r : CtlReg) (v : W64) (s : State) : (ctlPut r v s).qifs = s.qifs := rfl
@[simp] theorem ctlPut_parts (r : CtlReg) (v : W64) (s : State) : (ctlPut r v s).parts = s.parts := rfl
@[simp] theorem ctlPut_clusters (r : CtlReg) (v : W64) (s : State) : (ctlPut r v s).clusters = s.clusters := rfl
@[simp] theorem ctlPut_ports (r : CtlReg) (v : W64) (s : State) : (ctlPut r v s).ports = s.ports := rfl
@[simp] theorem ctlPut_arb (r : CtlReg) (v : W64) (s : State) : (ctlPut r v s).arb = s.arb := rfl
@[simp] theorem ctlPut_accepted (r : CtlReg) (v : W64) (s : State) : (ctlPut r v s).accepted = s.accepted := rfl
@[simp] theorem ctlPut_peers (r : CtlReg) (v : W64) (s : State) : (ctlPut r v s).peers = s.peers := rfl
@[simp] theorem ctlPut_atc (r : CtlReg) (v : W64) (s : State) : (ctlPut r v s).atc = s.atc := rfl
@[simp] theorem ctlPut_invals (r : CtlReg) (v : W64) (s : State) : (ctlPut r v s).invals = s.invals := rfl
@[simp] theorem ctlPut_flueDown (r : CtlReg) (v : W64) (s : State) : (ctlPut r v s).flueDown = s.flueDown := rfl
@[simp] theorem ctlPut_got (r : CtlReg) (v : W64) (s : State) : (ctlPut r v s).got = s.got := rfl
@[simp] theorem ctlPut_asks (r : CtlReg) (v : W64) (s : State) : (ctlPut r v s).asks = s.asks := rfl
@[simp] theorem ctlPut_msixTab (r : CtlReg) (v : W64) (s : State) : (ctlPut r v s).msixTab = s.msixTab := rfl
@[simp] theorem ctlPut_msixPend (r : CtlReg) (v : W64) (s : State) : (ctlPut r v s).msixPend = s.msixPend := rfl
@[simp] theorem ctlPut_msixSent (r : CtlReg) (v : W64) (s : State) : (ctlPut r v s).msixSent = s.msixSent := rfl
@[simp] theorem ctlPut_hostOut (r : CtlReg) (v : W64) (s : State) : (ctlPut r v s).hostOut = s.hostOut := rfl
@[simp] theorem ctlPut_ticket (r : CtlReg) (v : W64) (s : State) : (ctlPut r v s).ticket = s.ticket := rfl
@[simp] theorem ctlPut_power (r : CtlReg) (v : W64) (s : State) : (ctlPut r v s).power = s.power := rfl
@[simp] theorem ctlPut_meas (r : CtlReg) (v : W64) (s : State) : (ctlPut r v s).meas = s.meas := rfl
@[simp] theorem ctlPut_fw (r : CtlReg) (v : W64) (s : State) : (ctlPut r v s).fw = s.fw := rfl
@[simp] theorem ctlPut_reports (r : CtlReg) (v : W64) (s : State) : (ctlPut r v s).reports = s.reports := rfl

/-! ### `modCore` -/

@[simp] theorem modCore_cur (n : Nat) (f : Core → Core) (s : State) : (modCore n f s).cur = s.cur := rfl
@[simp] theorem modCore_teams (n : Nat) (f : Core → Core) (s : State) : (modCore n f s).teams = s.teams := rfl
@[simp] theorem modCore_issue (n : Nat) (f : Core → Core) (s : State) : (modCore n f s).issue = s.issue := rfl
@[simp] theorem modCore_agenda (n : Nat) (f : Core → Core) (s : State) : (modCore n f s).agenda = s.agenda := rfl
@[simp] theorem modCore_ck (n : Nat) (f : Core → Core) (s : State) : (modCore n f s).ck = s.ck := rfl
@[simp] theorem modCore_free (n : Nat) (f : Core → Core) (s : State) : (modCore n f s).free = s.free := rfl
@[simp] theorem modCore_nextId (n : Nat) (f : Core → Core) (s : State) : (modCore n f s).nextId = s.nextId := rfl
@[simp] theorem modCore_cond (n : Nat) (f : Core → Core) (s : State) : (modCore n f s).cond = s.cond := rfl
@[simp] theorem modCore_time (n : Nat) (f : Core → Core) (s : State) : (modCore n f s).time = s.time := rfl
@[simp] theorem modCore_mem (n : Nat) (f : Core → Core) (s : State) : (modCore n f s).mem = s.mem := rfl
@[simp] theorem modCore_ctl (n : Nat) (f : Core → Core) (s : State) : (modCore n f s).ctl = s.ctl := rfl
@[simp] theorem modCore_pkt (n : Nat) (f : Core → Core) (s : State) : (modCore n f s).pkt = s.pkt := rfl
@[simp] theorem modCore_wgs (n : Nat) (f : Core → Core) (s : State) : (modCore n f s).wgs = s.wgs := rfl
@[simp] theorem modCore_launches (n : Nat) (f : Core → Core) (s : State) : (modCore n f s).launches = s.launches := rfl
@[simp] theorem modCore_cores (n : Nat) (f : Core → Core) (s : State) : (modCore n f s).cores = alSet n (f (coreOf n s)) s.cores := rfl
@[simp] theorem modCore_lsu (n : Nat) (f : Core → Core) (s : State) : (modCore n f s).lsu = s.lsu := rfl
@[simp] theorem modCore_lines (n : Nat) (f : Core → Core) (s : State) : (modCore n f s).lines = s.lines := rfl
@[simp] theorem modCore_embers (n : Nat) (f : Core → Core) (s : State) : (modCore n f s).embers = s.embers := rfl
@[simp] theorem modCore_monitors (n : Nat) (f : Core → Core) (s : State) : (modCore n f s).monitors = s.monitors := rfl
@[simp] theorem modCore_draws (n : Nat) (f : Core → Core) (s : State) : (modCore n f s).draws = s.draws := rfl
@[simp] theorem modCore_qwait (n : Nat) (f : Core → Core) (s : State) : (modCore n f s).qwait = s.qwait := rfl
@[simp] theorem modCore_twaits (n : Nat) (f : Core → Core) (s : State) : (modCore n f s).twaits = s.twaits := rfl
@[simp] theorem modCore_sysver (n : Nat) (f : Core → Core) (s : State) : (modCore n f s).sysver = s.sysver := rfl
@[simp] theorem modCore_homes (n : Nat) (f : Core → Core) (s : State) : (modCore n f s).homes = s.homes := rfl
@[simp] theorem modCore_mapop (n : Nat) (f : Core → Core) (s : State) : (modCore n f s).mapop = s.mapop := rfl
@[simp] theorem modCore_mapq (n : Nat) (f : Core → Core) (s : State) : (modCore n f s).mapq = s.mapq := rfl
@[simp] theorem modCore_links (n : Nat) (f : Core → Core) (s : State) : (modCore n f s).links = s.links := rfl
@[simp] theorem modCore_cxlMem (n : Nat) (f : Core → Core) (s : State) : (modCore n f s).cxlMem = s.cxlMem := rfl
@[simp] theorem modCore_biasHost (n : Nat) (f : Core → Core) (s : State) : (modCore n f s).biasHost = s.biasHost := rfl
@[simp] theorem modCore_biasOp (n : Nat) (f : Core → Core) (s : State) : (modCore n f s).biasOp = s.biasOp := rfl
@[simp] theorem modCore_qifs (n : Nat) (f : Core → Core) (s : State) : (modCore n f s).qifs = s.qifs := rfl
@[simp] theorem modCore_parts (n : Nat) (f : Core → Core) (s : State) : (modCore n f s).parts = s.parts := rfl
@[simp] theorem modCore_clusters (n : Nat) (f : Core → Core) (s : State) : (modCore n f s).clusters = s.clusters := rfl
@[simp] theorem modCore_ports (n : Nat) (f : Core → Core) (s : State) : (modCore n f s).ports = s.ports := rfl
@[simp] theorem modCore_arb (n : Nat) (f : Core → Core) (s : State) : (modCore n f s).arb = s.arb := rfl
@[simp] theorem modCore_accepted (n : Nat) (f : Core → Core) (s : State) : (modCore n f s).accepted = s.accepted := rfl
@[simp] theorem modCore_peers (n : Nat) (f : Core → Core) (s : State) : (modCore n f s).peers = s.peers := rfl
@[simp] theorem modCore_atc (n : Nat) (f : Core → Core) (s : State) : (modCore n f s).atc = s.atc := rfl
@[simp] theorem modCore_invals (n : Nat) (f : Core → Core) (s : State) : (modCore n f s).invals = s.invals := rfl
@[simp] theorem modCore_flueDown (n : Nat) (f : Core → Core) (s : State) : (modCore n f s).flueDown = s.flueDown := rfl
@[simp] theorem modCore_got (n : Nat) (f : Core → Core) (s : State) : (modCore n f s).got = s.got := rfl
@[simp] theorem modCore_asks (n : Nat) (f : Core → Core) (s : State) : (modCore n f s).asks = s.asks := rfl
@[simp] theorem modCore_msixTab (n : Nat) (f : Core → Core) (s : State) : (modCore n f s).msixTab = s.msixTab := rfl
@[simp] theorem modCore_msixPend (n : Nat) (f : Core → Core) (s : State) : (modCore n f s).msixPend = s.msixPend := rfl
@[simp] theorem modCore_msixSent (n : Nat) (f : Core → Core) (s : State) : (modCore n f s).msixSent = s.msixSent := rfl
@[simp] theorem modCore_hostOut (n : Nat) (f : Core → Core) (s : State) : (modCore n f s).hostOut = s.hostOut := rfl
@[simp] theorem modCore_ticket (n : Nat) (f : Core → Core) (s : State) : (modCore n f s).ticket = s.ticket := rfl
@[simp] theorem modCore_power (n : Nat) (f : Core → Core) (s : State) : (modCore n f s).power = s.power := rfl
@[simp] theorem modCore_meas (n : Nat) (f : Core → Core) (s : State) : (modCore n f s).meas = s.meas := rfl
@[simp] theorem modCore_fw (n : Nat) (f : Core → Core) (s : State) : (modCore n f s).fw = s.fw := rfl
@[simp] theorem modCore_reports (n : Nat) (f : Core → Core) (s : State) : (modCore n f s).reports = s.reports := rfl

/-! ### `modHome` -/

@[simp] theorem modHome_cur (n : Nat) (f : Home → Home) (s : State) : (modHome n f s).cur = s.cur := rfl
@[simp] theorem modHome_teams (n : Nat) (f : Home → Home) (s : State) : (modHome n f s).teams = s.teams := rfl
@[simp] theorem modHome_issue (n : Nat) (f : Home → Home) (s : State) : (modHome n f s).issue = s.issue := rfl
@[simp] theorem modHome_agenda (n : Nat) (f : Home → Home) (s : State) : (modHome n f s).agenda = s.agenda := rfl
@[simp] theorem modHome_ck (n : Nat) (f : Home → Home) (s : State) : (modHome n f s).ck = s.ck := rfl
@[simp] theorem modHome_free (n : Nat) (f : Home → Home) (s : State) : (modHome n f s).free = s.free := rfl
@[simp] theorem modHome_nextId (n : Nat) (f : Home → Home) (s : State) : (modHome n f s).nextId = s.nextId := rfl
@[simp] theorem modHome_cond (n : Nat) (f : Home → Home) (s : State) : (modHome n f s).cond = s.cond := rfl
@[simp] theorem modHome_time (n : Nat) (f : Home → Home) (s : State) : (modHome n f s).time = s.time := rfl
@[simp] theorem modHome_mem (n : Nat) (f : Home → Home) (s : State) : (modHome n f s).mem = s.mem := rfl
@[simp] theorem modHome_ctl (n : Nat) (f : Home → Home) (s : State) : (modHome n f s).ctl = s.ctl := rfl
@[simp] theorem modHome_pkt (n : Nat) (f : Home → Home) (s : State) : (modHome n f s).pkt = s.pkt := rfl
@[simp] theorem modHome_wgs (n : Nat) (f : Home → Home) (s : State) : (modHome n f s).wgs = s.wgs := rfl
@[simp] theorem modHome_launches (n : Nat) (f : Home → Home) (s : State) : (modHome n f s).launches = s.launches := rfl
@[simp] theorem modHome_cores (n : Nat) (f : Home → Home) (s : State) : (modHome n f s).cores = s.cores := rfl
@[simp] theorem modHome_lsu (n : Nat) (f : Home → Home) (s : State) : (modHome n f s).lsu = s.lsu := rfl
@[simp] theorem modHome_lines (n : Nat) (f : Home → Home) (s : State) : (modHome n f s).lines = s.lines := rfl
@[simp] theorem modHome_embers (n : Nat) (f : Home → Home) (s : State) : (modHome n f s).embers = s.embers := rfl
@[simp] theorem modHome_monitors (n : Nat) (f : Home → Home) (s : State) : (modHome n f s).monitors = s.monitors := rfl
@[simp] theorem modHome_draws (n : Nat) (f : Home → Home) (s : State) : (modHome n f s).draws = s.draws := rfl
@[simp] theorem modHome_qwait (n : Nat) (f : Home → Home) (s : State) : (modHome n f s).qwait = s.qwait := rfl
@[simp] theorem modHome_twaits (n : Nat) (f : Home → Home) (s : State) : (modHome n f s).twaits = s.twaits := rfl
@[simp] theorem modHome_sysver (n : Nat) (f : Home → Home) (s : State) : (modHome n f s).sysver = s.sysver := rfl
@[simp] theorem modHome_homes (n : Nat) (f : Home → Home) (s : State) : (modHome n f s).homes = alSet n (f (homeOf n s)) s.homes := rfl
@[simp] theorem modHome_mapop (n : Nat) (f : Home → Home) (s : State) : (modHome n f s).mapop = s.mapop := rfl
@[simp] theorem modHome_mapq (n : Nat) (f : Home → Home) (s : State) : (modHome n f s).mapq = s.mapq := rfl
@[simp] theorem modHome_links (n : Nat) (f : Home → Home) (s : State) : (modHome n f s).links = s.links := rfl
@[simp] theorem modHome_cxlMem (n : Nat) (f : Home → Home) (s : State) : (modHome n f s).cxlMem = s.cxlMem := rfl
@[simp] theorem modHome_biasHost (n : Nat) (f : Home → Home) (s : State) : (modHome n f s).biasHost = s.biasHost := rfl
@[simp] theorem modHome_biasOp (n : Nat) (f : Home → Home) (s : State) : (modHome n f s).biasOp = s.biasOp := rfl
@[simp] theorem modHome_qifs (n : Nat) (f : Home → Home) (s : State) : (modHome n f s).qifs = s.qifs := rfl
@[simp] theorem modHome_parts (n : Nat) (f : Home → Home) (s : State) : (modHome n f s).parts = s.parts := rfl
@[simp] theorem modHome_clusters (n : Nat) (f : Home → Home) (s : State) : (modHome n f s).clusters = s.clusters := rfl
@[simp] theorem modHome_ports (n : Nat) (f : Home → Home) (s : State) : (modHome n f s).ports = s.ports := rfl
@[simp] theorem modHome_arb (n : Nat) (f : Home → Home) (s : State) : (modHome n f s).arb = s.arb := rfl
@[simp] theorem modHome_accepted (n : Nat) (f : Home → Home) (s : State) : (modHome n f s).accepted = s.accepted := rfl
@[simp] theorem modHome_peers (n : Nat) (f : Home → Home) (s : State) : (modHome n f s).peers = s.peers := rfl
@[simp] theorem modHome_atc (n : Nat) (f : Home → Home) (s : State) : (modHome n f s).atc = s.atc := rfl
@[simp] theorem modHome_invals (n : Nat) (f : Home → Home) (s : State) : (modHome n f s).invals = s.invals := rfl
@[simp] theorem modHome_flueDown (n : Nat) (f : Home → Home) (s : State) : (modHome n f s).flueDown = s.flueDown := rfl
@[simp] theorem modHome_got (n : Nat) (f : Home → Home) (s : State) : (modHome n f s).got = s.got := rfl
@[simp] theorem modHome_asks (n : Nat) (f : Home → Home) (s : State) : (modHome n f s).asks = s.asks := rfl
@[simp] theorem modHome_msixTab (n : Nat) (f : Home → Home) (s : State) : (modHome n f s).msixTab = s.msixTab := rfl
@[simp] theorem modHome_msixPend (n : Nat) (f : Home → Home) (s : State) : (modHome n f s).msixPend = s.msixPend := rfl
@[simp] theorem modHome_msixSent (n : Nat) (f : Home → Home) (s : State) : (modHome n f s).msixSent = s.msixSent := rfl
@[simp] theorem modHome_hostOut (n : Nat) (f : Home → Home) (s : State) : (modHome n f s).hostOut = s.hostOut := rfl
@[simp] theorem modHome_ticket (n : Nat) (f : Home → Home) (s : State) : (modHome n f s).ticket = s.ticket := rfl
@[simp] theorem modHome_power (n : Nat) (f : Home → Home) (s : State) : (modHome n f s).power = s.power := rfl
@[simp] theorem modHome_meas (n : Nat) (f : Home → Home) (s : State) : (modHome n f s).meas = s.meas := rfl
@[simp] theorem modHome_fw (n : Nat) (f : Home → Home) (s : State) : (modHome n f s).fw = s.fw := rfl
@[simp] theorem modHome_reports (n : Nat) (f : Home → Home) (s : State) : (modHome n f s).reports = s.reports := rfl

/-! ### `modQif` -/

@[simp] theorem modQif_cur (n : Nat) (f : Qif → Qif) (s : State) : (modQif n f s).cur = s.cur := rfl
@[simp] theorem modQif_teams (n : Nat) (f : Qif → Qif) (s : State) : (modQif n f s).teams = s.teams := rfl
@[simp] theorem modQif_issue (n : Nat) (f : Qif → Qif) (s : State) : (modQif n f s).issue = s.issue := rfl
@[simp] theorem modQif_agenda (n : Nat) (f : Qif → Qif) (s : State) : (modQif n f s).agenda = s.agenda := rfl
@[simp] theorem modQif_ck (n : Nat) (f : Qif → Qif) (s : State) : (modQif n f s).ck = s.ck := rfl
@[simp] theorem modQif_free (n : Nat) (f : Qif → Qif) (s : State) : (modQif n f s).free = s.free := rfl
@[simp] theorem modQif_nextId (n : Nat) (f : Qif → Qif) (s : State) : (modQif n f s).nextId = s.nextId := rfl
@[simp] theorem modQif_cond (n : Nat) (f : Qif → Qif) (s : State) : (modQif n f s).cond = s.cond := rfl
@[simp] theorem modQif_time (n : Nat) (f : Qif → Qif) (s : State) : (modQif n f s).time = s.time := rfl
@[simp] theorem modQif_mem (n : Nat) (f : Qif → Qif) (s : State) : (modQif n f s).mem = s.mem := rfl
@[simp] theorem modQif_ctl (n : Nat) (f : Qif → Qif) (s : State) : (modQif n f s).ctl = s.ctl := rfl
@[simp] theorem modQif_pkt (n : Nat) (f : Qif → Qif) (s : State) : (modQif n f s).pkt = s.pkt := rfl
@[simp] theorem modQif_wgs (n : Nat) (f : Qif → Qif) (s : State) : (modQif n f s).wgs = s.wgs := rfl
@[simp] theorem modQif_launches (n : Nat) (f : Qif → Qif) (s : State) : (modQif n f s).launches = s.launches := rfl
@[simp] theorem modQif_cores (n : Nat) (f : Qif → Qif) (s : State) : (modQif n f s).cores = s.cores := rfl
@[simp] theorem modQif_lsu (n : Nat) (f : Qif → Qif) (s : State) : (modQif n f s).lsu = s.lsu := rfl
@[simp] theorem modQif_lines (n : Nat) (f : Qif → Qif) (s : State) : (modQif n f s).lines = s.lines := rfl
@[simp] theorem modQif_embers (n : Nat) (f : Qif → Qif) (s : State) : (modQif n f s).embers = s.embers := rfl
@[simp] theorem modQif_monitors (n : Nat) (f : Qif → Qif) (s : State) : (modQif n f s).monitors = s.monitors := rfl
@[simp] theorem modQif_draws (n : Nat) (f : Qif → Qif) (s : State) : (modQif n f s).draws = s.draws := rfl
@[simp] theorem modQif_qwait (n : Nat) (f : Qif → Qif) (s : State) : (modQif n f s).qwait = s.qwait := rfl
@[simp] theorem modQif_twaits (n : Nat) (f : Qif → Qif) (s : State) : (modQif n f s).twaits = s.twaits := rfl
@[simp] theorem modQif_sysver (n : Nat) (f : Qif → Qif) (s : State) : (modQif n f s).sysver = s.sysver := rfl
@[simp] theorem modQif_homes (n : Nat) (f : Qif → Qif) (s : State) : (modQif n f s).homes = s.homes := rfl
@[simp] theorem modQif_mapop (n : Nat) (f : Qif → Qif) (s : State) : (modQif n f s).mapop = s.mapop := rfl
@[simp] theorem modQif_mapq (n : Nat) (f : Qif → Qif) (s : State) : (modQif n f s).mapq = s.mapq := rfl
@[simp] theorem modQif_links (n : Nat) (f : Qif → Qif) (s : State) : (modQif n f s).links = s.links := rfl
@[simp] theorem modQif_cxlMem (n : Nat) (f : Qif → Qif) (s : State) : (modQif n f s).cxlMem = s.cxlMem := rfl
@[simp] theorem modQif_biasHost (n : Nat) (f : Qif → Qif) (s : State) : (modQif n f s).biasHost = s.biasHost := rfl
@[simp] theorem modQif_biasOp (n : Nat) (f : Qif → Qif) (s : State) : (modQif n f s).biasOp = s.biasOp := rfl
@[simp] theorem modQif_qifs (n : Nat) (f : Qif → Qif) (s : State) : (modQif n f s).qifs = alSet n (f (qifOf n s)) s.qifs := rfl
@[simp] theorem modQif_parts (n : Nat) (f : Qif → Qif) (s : State) : (modQif n f s).parts = s.parts := rfl
@[simp] theorem modQif_clusters (n : Nat) (f : Qif → Qif) (s : State) : (modQif n f s).clusters = s.clusters := rfl
@[simp] theorem modQif_ports (n : Nat) (f : Qif → Qif) (s : State) : (modQif n f s).ports = s.ports := rfl
@[simp] theorem modQif_arb (n : Nat) (f : Qif → Qif) (s : State) : (modQif n f s).arb = s.arb := rfl
@[simp] theorem modQif_accepted (n : Nat) (f : Qif → Qif) (s : State) : (modQif n f s).accepted = s.accepted := rfl
@[simp] theorem modQif_peers (n : Nat) (f : Qif → Qif) (s : State) : (modQif n f s).peers = s.peers := rfl
@[simp] theorem modQif_atc (n : Nat) (f : Qif → Qif) (s : State) : (modQif n f s).atc = s.atc := rfl
@[simp] theorem modQif_invals (n : Nat) (f : Qif → Qif) (s : State) : (modQif n f s).invals = s.invals := rfl
@[simp] theorem modQif_flueDown (n : Nat) (f : Qif → Qif) (s : State) : (modQif n f s).flueDown = s.flueDown := rfl
@[simp] theorem modQif_got (n : Nat) (f : Qif → Qif) (s : State) : (modQif n f s).got = s.got := rfl
@[simp] theorem modQif_asks (n : Nat) (f : Qif → Qif) (s : State) : (modQif n f s).asks = s.asks := rfl
@[simp] theorem modQif_msixTab (n : Nat) (f : Qif → Qif) (s : State) : (modQif n f s).msixTab = s.msixTab := rfl
@[simp] theorem modQif_msixPend (n : Nat) (f : Qif → Qif) (s : State) : (modQif n f s).msixPend = s.msixPend := rfl
@[simp] theorem modQif_msixSent (n : Nat) (f : Qif → Qif) (s : State) : (modQif n f s).msixSent = s.msixSent := rfl
@[simp] theorem modQif_hostOut (n : Nat) (f : Qif → Qif) (s : State) : (modQif n f s).hostOut = s.hostOut := rfl
@[simp] theorem modQif_ticket (n : Nat) (f : Qif → Qif) (s : State) : (modQif n f s).ticket = s.ticket := rfl
@[simp] theorem modQif_power (n : Nat) (f : Qif → Qif) (s : State) : (modQif n f s).power = s.power := rfl
@[simp] theorem modQif_meas (n : Nat) (f : Qif → Qif) (s : State) : (modQif n f s).meas = s.meas := rfl
@[simp] theorem modQif_fw (n : Nat) (f : Qif → Qif) (s : State) : (modQif n f s).fw = s.fw := rfl
@[simp] theorem modQif_reports (n : Nat) (f : Qif → Qif) (s : State) : (modQif n f s).reports = s.reports := rfl

/-! ### `modPart` -/

@[simp] theorem modPart_cur (n : Nat) (f : Part → Part) (s : State) : (modPart n f s).cur = s.cur := rfl
@[simp] theorem modPart_teams (n : Nat) (f : Part → Part) (s : State) : (modPart n f s).teams = s.teams := rfl
@[simp] theorem modPart_issue (n : Nat) (f : Part → Part) (s : State) : (modPart n f s).issue = s.issue := rfl
@[simp] theorem modPart_agenda (n : Nat) (f : Part → Part) (s : State) : (modPart n f s).agenda = s.agenda := rfl
@[simp] theorem modPart_ck (n : Nat) (f : Part → Part) (s : State) : (modPart n f s).ck = s.ck := rfl
@[simp] theorem modPart_free (n : Nat) (f : Part → Part) (s : State) : (modPart n f s).free = s.free := rfl
@[simp] theorem modPart_nextId (n : Nat) (f : Part → Part) (s : State) : (modPart n f s).nextId = s.nextId := rfl
@[simp] theorem modPart_cond (n : Nat) (f : Part → Part) (s : State) : (modPart n f s).cond = s.cond := rfl
@[simp] theorem modPart_time (n : Nat) (f : Part → Part) (s : State) : (modPart n f s).time = s.time := rfl
@[simp] theorem modPart_mem (n : Nat) (f : Part → Part) (s : State) : (modPart n f s).mem = s.mem := rfl
@[simp] theorem modPart_ctl (n : Nat) (f : Part → Part) (s : State) : (modPart n f s).ctl = s.ctl := rfl
@[simp] theorem modPart_pkt (n : Nat) (f : Part → Part) (s : State) : (modPart n f s).pkt = s.pkt := rfl
@[simp] theorem modPart_wgs (n : Nat) (f : Part → Part) (s : State) : (modPart n f s).wgs = s.wgs := rfl
@[simp] theorem modPart_launches (n : Nat) (f : Part → Part) (s : State) : (modPart n f s).launches = s.launches := rfl
@[simp] theorem modPart_cores (n : Nat) (f : Part → Part) (s : State) : (modPart n f s).cores = s.cores := rfl
@[simp] theorem modPart_lsu (n : Nat) (f : Part → Part) (s : State) : (modPart n f s).lsu = s.lsu := rfl
@[simp] theorem modPart_lines (n : Nat) (f : Part → Part) (s : State) : (modPart n f s).lines = s.lines := rfl
@[simp] theorem modPart_embers (n : Nat) (f : Part → Part) (s : State) : (modPart n f s).embers = s.embers := rfl
@[simp] theorem modPart_monitors (n : Nat) (f : Part → Part) (s : State) : (modPart n f s).monitors = s.monitors := rfl
@[simp] theorem modPart_draws (n : Nat) (f : Part → Part) (s : State) : (modPart n f s).draws = s.draws := rfl
@[simp] theorem modPart_qwait (n : Nat) (f : Part → Part) (s : State) : (modPart n f s).qwait = s.qwait := rfl
@[simp] theorem modPart_twaits (n : Nat) (f : Part → Part) (s : State) : (modPart n f s).twaits = s.twaits := rfl
@[simp] theorem modPart_sysver (n : Nat) (f : Part → Part) (s : State) : (modPart n f s).sysver = s.sysver := rfl
@[simp] theorem modPart_homes (n : Nat) (f : Part → Part) (s : State) : (modPart n f s).homes = s.homes := rfl
@[simp] theorem modPart_mapop (n : Nat) (f : Part → Part) (s : State) : (modPart n f s).mapop = s.mapop := rfl
@[simp] theorem modPart_mapq (n : Nat) (f : Part → Part) (s : State) : (modPart n f s).mapq = s.mapq := rfl
@[simp] theorem modPart_links (n : Nat) (f : Part → Part) (s : State) : (modPart n f s).links = s.links := rfl
@[simp] theorem modPart_cxlMem (n : Nat) (f : Part → Part) (s : State) : (modPart n f s).cxlMem = s.cxlMem := rfl
@[simp] theorem modPart_biasHost (n : Nat) (f : Part → Part) (s : State) : (modPart n f s).biasHost = s.biasHost := rfl
@[simp] theorem modPart_biasOp (n : Nat) (f : Part → Part) (s : State) : (modPart n f s).biasOp = s.biasOp := rfl
@[simp] theorem modPart_qifs (n : Nat) (f : Part → Part) (s : State) : (modPart n f s).qifs = s.qifs := rfl
@[simp] theorem modPart_parts (n : Nat) (f : Part → Part) (s : State) : (modPart n f s).parts = alSet n (f (partOf n s)) s.parts := rfl
@[simp] theorem modPart_clusters (n : Nat) (f : Part → Part) (s : State) : (modPart n f s).clusters = s.clusters := rfl
@[simp] theorem modPart_ports (n : Nat) (f : Part → Part) (s : State) : (modPart n f s).ports = s.ports := rfl
@[simp] theorem modPart_arb (n : Nat) (f : Part → Part) (s : State) : (modPart n f s).arb = s.arb := rfl
@[simp] theorem modPart_accepted (n : Nat) (f : Part → Part) (s : State) : (modPart n f s).accepted = s.accepted := rfl
@[simp] theorem modPart_peers (n : Nat) (f : Part → Part) (s : State) : (modPart n f s).peers = s.peers := rfl
@[simp] theorem modPart_atc (n : Nat) (f : Part → Part) (s : State) : (modPart n f s).atc = s.atc := rfl
@[simp] theorem modPart_invals (n : Nat) (f : Part → Part) (s : State) : (modPart n f s).invals = s.invals := rfl
@[simp] theorem modPart_flueDown (n : Nat) (f : Part → Part) (s : State) : (modPart n f s).flueDown = s.flueDown := rfl
@[simp] theorem modPart_got (n : Nat) (f : Part → Part) (s : State) : (modPart n f s).got = s.got := rfl
@[simp] theorem modPart_asks (n : Nat) (f : Part → Part) (s : State) : (modPart n f s).asks = s.asks := rfl
@[simp] theorem modPart_msixTab (n : Nat) (f : Part → Part) (s : State) : (modPart n f s).msixTab = s.msixTab := rfl
@[simp] theorem modPart_msixPend (n : Nat) (f : Part → Part) (s : State) : (modPart n f s).msixPend = s.msixPend := rfl
@[simp] theorem modPart_msixSent (n : Nat) (f : Part → Part) (s : State) : (modPart n f s).msixSent = s.msixSent := rfl
@[simp] theorem modPart_hostOut (n : Nat) (f : Part → Part) (s : State) : (modPart n f s).hostOut = s.hostOut := rfl
@[simp] theorem modPart_ticket (n : Nat) (f : Part → Part) (s : State) : (modPart n f s).ticket = s.ticket := rfl
@[simp] theorem modPart_power (n : Nat) (f : Part → Part) (s : State) : (modPart n f s).power = s.power := rfl
@[simp] theorem modPart_meas (n : Nat) (f : Part → Part) (s : State) : (modPart n f s).meas = s.meas := rfl
@[simp] theorem modPart_fw (n : Nat) (f : Part → Part) (s : State) : (modPart n f s).fw = s.fw := rfl
@[simp] theorem modPart_reports (n : Nat) (f : Part → Part) (s : State) : (modPart n f s).reports = s.reports := rfl

/-! ### `modCluster` -/

@[simp] theorem modCluster_cur (n : Nat) (f : Cluster → Cluster) (s : State) : (modCluster n f s).cur = s.cur := rfl
@[simp] theorem modCluster_teams (n : Nat) (f : Cluster → Cluster) (s : State) : (modCluster n f s).teams = s.teams := rfl
@[simp] theorem modCluster_issue (n : Nat) (f : Cluster → Cluster) (s : State) : (modCluster n f s).issue = s.issue := rfl
@[simp] theorem modCluster_agenda (n : Nat) (f : Cluster → Cluster) (s : State) : (modCluster n f s).agenda = s.agenda := rfl
@[simp] theorem modCluster_ck (n : Nat) (f : Cluster → Cluster) (s : State) : (modCluster n f s).ck = s.ck := rfl
@[simp] theorem modCluster_free (n : Nat) (f : Cluster → Cluster) (s : State) : (modCluster n f s).free = s.free := rfl
@[simp] theorem modCluster_nextId (n : Nat) (f : Cluster → Cluster) (s : State) : (modCluster n f s).nextId = s.nextId := rfl
@[simp] theorem modCluster_cond (n : Nat) (f : Cluster → Cluster) (s : State) : (modCluster n f s).cond = s.cond := rfl
@[simp] theorem modCluster_time (n : Nat) (f : Cluster → Cluster) (s : State) : (modCluster n f s).time = s.time := rfl
@[simp] theorem modCluster_mem (n : Nat) (f : Cluster → Cluster) (s : State) : (modCluster n f s).mem = s.mem := rfl
@[simp] theorem modCluster_ctl (n : Nat) (f : Cluster → Cluster) (s : State) : (modCluster n f s).ctl = s.ctl := rfl
@[simp] theorem modCluster_pkt (n : Nat) (f : Cluster → Cluster) (s : State) : (modCluster n f s).pkt = s.pkt := rfl
@[simp] theorem modCluster_wgs (n : Nat) (f : Cluster → Cluster) (s : State) : (modCluster n f s).wgs = s.wgs := rfl
@[simp] theorem modCluster_launches (n : Nat) (f : Cluster → Cluster) (s : State) : (modCluster n f s).launches = s.launches := rfl
@[simp] theorem modCluster_cores (n : Nat) (f : Cluster → Cluster) (s : State) : (modCluster n f s).cores = s.cores := rfl
@[simp] theorem modCluster_lsu (n : Nat) (f : Cluster → Cluster) (s : State) : (modCluster n f s).lsu = s.lsu := rfl
@[simp] theorem modCluster_lines (n : Nat) (f : Cluster → Cluster) (s : State) : (modCluster n f s).lines = s.lines := rfl
@[simp] theorem modCluster_embers (n : Nat) (f : Cluster → Cluster) (s : State) : (modCluster n f s).embers = s.embers := rfl
@[simp] theorem modCluster_monitors (n : Nat) (f : Cluster → Cluster) (s : State) : (modCluster n f s).monitors = s.monitors := rfl
@[simp] theorem modCluster_draws (n : Nat) (f : Cluster → Cluster) (s : State) : (modCluster n f s).draws = s.draws := rfl
@[simp] theorem modCluster_qwait (n : Nat) (f : Cluster → Cluster) (s : State) : (modCluster n f s).qwait = s.qwait := rfl
@[simp] theorem modCluster_twaits (n : Nat) (f : Cluster → Cluster) (s : State) : (modCluster n f s).twaits = s.twaits := rfl
@[simp] theorem modCluster_sysver (n : Nat) (f : Cluster → Cluster) (s : State) : (modCluster n f s).sysver = s.sysver := rfl
@[simp] theorem modCluster_homes (n : Nat) (f : Cluster → Cluster) (s : State) : (modCluster n f s).homes = s.homes := rfl
@[simp] theorem modCluster_mapop (n : Nat) (f : Cluster → Cluster) (s : State) : (modCluster n f s).mapop = s.mapop := rfl
@[simp] theorem modCluster_mapq (n : Nat) (f : Cluster → Cluster) (s : State) : (modCluster n f s).mapq = s.mapq := rfl
@[simp] theorem modCluster_links (n : Nat) (f : Cluster → Cluster) (s : State) : (modCluster n f s).links = s.links := rfl
@[simp] theorem modCluster_cxlMem (n : Nat) (f : Cluster → Cluster) (s : State) : (modCluster n f s).cxlMem = s.cxlMem := rfl
@[simp] theorem modCluster_biasHost (n : Nat) (f : Cluster → Cluster) (s : State) : (modCluster n f s).biasHost = s.biasHost := rfl
@[simp] theorem modCluster_biasOp (n : Nat) (f : Cluster → Cluster) (s : State) : (modCluster n f s).biasOp = s.biasOp := rfl
@[simp] theorem modCluster_qifs (n : Nat) (f : Cluster → Cluster) (s : State) : (modCluster n f s).qifs = s.qifs := rfl
@[simp] theorem modCluster_parts (n : Nat) (f : Cluster → Cluster) (s : State) : (modCluster n f s).parts = s.parts := rfl
@[simp] theorem modCluster_clusters (n : Nat) (f : Cluster → Cluster) (s : State) : (modCluster n f s).clusters = alSet n (f (clusterOf n s)) s.clusters := rfl
@[simp] theorem modCluster_ports (n : Nat) (f : Cluster → Cluster) (s : State) : (modCluster n f s).ports = s.ports := rfl
@[simp] theorem modCluster_arb (n : Nat) (f : Cluster → Cluster) (s : State) : (modCluster n f s).arb = s.arb := rfl
@[simp] theorem modCluster_accepted (n : Nat) (f : Cluster → Cluster) (s : State) : (modCluster n f s).accepted = s.accepted := rfl
@[simp] theorem modCluster_peers (n : Nat) (f : Cluster → Cluster) (s : State) : (modCluster n f s).peers = s.peers := rfl
@[simp] theorem modCluster_atc (n : Nat) (f : Cluster → Cluster) (s : State) : (modCluster n f s).atc = s.atc := rfl
@[simp] theorem modCluster_invals (n : Nat) (f : Cluster → Cluster) (s : State) : (modCluster n f s).invals = s.invals := rfl
@[simp] theorem modCluster_flueDown (n : Nat) (f : Cluster → Cluster) (s : State) : (modCluster n f s).flueDown = s.flueDown := rfl
@[simp] theorem modCluster_got (n : Nat) (f : Cluster → Cluster) (s : State) : (modCluster n f s).got = s.got := rfl
@[simp] theorem modCluster_asks (n : Nat) (f : Cluster → Cluster) (s : State) : (modCluster n f s).asks = s.asks := rfl
@[simp] theorem modCluster_msixTab (n : Nat) (f : Cluster → Cluster) (s : State) : (modCluster n f s).msixTab = s.msixTab := rfl
@[simp] theorem modCluster_msixPend (n : Nat) (f : Cluster → Cluster) (s : State) : (modCluster n f s).msixPend = s.msixPend := rfl
@[simp] theorem modCluster_msixSent (n : Nat) (f : Cluster → Cluster) (s : State) : (modCluster n f s).msixSent = s.msixSent := rfl
@[simp] theorem modCluster_hostOut (n : Nat) (f : Cluster → Cluster) (s : State) : (modCluster n f s).hostOut = s.hostOut := rfl
@[simp] theorem modCluster_ticket (n : Nat) (f : Cluster → Cluster) (s : State) : (modCluster n f s).ticket = s.ticket := rfl
@[simp] theorem modCluster_power (n : Nat) (f : Cluster → Cluster) (s : State) : (modCluster n f s).power = s.power := rfl
@[simp] theorem modCluster_meas (n : Nat) (f : Cluster → Cluster) (s : State) : (modCluster n f s).meas = s.meas := rfl
@[simp] theorem modCluster_fw (n : Nat) (f : Cluster → Cluster) (s : State) : (modCluster n f s).fw = s.fw := rfl
@[simp] theorem modCluster_reports (n : Nat) (f : Cluster → Cluster) (s : State) : (modCluster n f s).reports = s.reports := rfl

/-! ### `modPort` -/

@[simp] theorem modPort_cur (n : Nat) (f : Port → Port) (s : State) : (modPort n f s).cur = s.cur := rfl
@[simp] theorem modPort_teams (n : Nat) (f : Port → Port) (s : State) : (modPort n f s).teams = s.teams := rfl
@[simp] theorem modPort_issue (n : Nat) (f : Port → Port) (s : State) : (modPort n f s).issue = s.issue := rfl
@[simp] theorem modPort_agenda (n : Nat) (f : Port → Port) (s : State) : (modPort n f s).agenda = s.agenda := rfl
@[simp] theorem modPort_ck (n : Nat) (f : Port → Port) (s : State) : (modPort n f s).ck = s.ck := rfl
@[simp] theorem modPort_free (n : Nat) (f : Port → Port) (s : State) : (modPort n f s).free = s.free := rfl
@[simp] theorem modPort_nextId (n : Nat) (f : Port → Port) (s : State) : (modPort n f s).nextId = s.nextId := rfl
@[simp] theorem modPort_cond (n : Nat) (f : Port → Port) (s : State) : (modPort n f s).cond = s.cond := rfl
@[simp] theorem modPort_time (n : Nat) (f : Port → Port) (s : State) : (modPort n f s).time = s.time := rfl
@[simp] theorem modPort_mem (n : Nat) (f : Port → Port) (s : State) : (modPort n f s).mem = s.mem := rfl
@[simp] theorem modPort_ctl (n : Nat) (f : Port → Port) (s : State) : (modPort n f s).ctl = s.ctl := rfl
@[simp] theorem modPort_pkt (n : Nat) (f : Port → Port) (s : State) : (modPort n f s).pkt = s.pkt := rfl
@[simp] theorem modPort_wgs (n : Nat) (f : Port → Port) (s : State) : (modPort n f s).wgs = s.wgs := rfl
@[simp] theorem modPort_launches (n : Nat) (f : Port → Port) (s : State) : (modPort n f s).launches = s.launches := rfl
@[simp] theorem modPort_cores (n : Nat) (f : Port → Port) (s : State) : (modPort n f s).cores = s.cores := rfl
@[simp] theorem modPort_lsu (n : Nat) (f : Port → Port) (s : State) : (modPort n f s).lsu = s.lsu := rfl
@[simp] theorem modPort_lines (n : Nat) (f : Port → Port) (s : State) : (modPort n f s).lines = s.lines := rfl
@[simp] theorem modPort_embers (n : Nat) (f : Port → Port) (s : State) : (modPort n f s).embers = s.embers := rfl
@[simp] theorem modPort_monitors (n : Nat) (f : Port → Port) (s : State) : (modPort n f s).monitors = s.monitors := rfl
@[simp] theorem modPort_draws (n : Nat) (f : Port → Port) (s : State) : (modPort n f s).draws = s.draws := rfl
@[simp] theorem modPort_qwait (n : Nat) (f : Port → Port) (s : State) : (modPort n f s).qwait = s.qwait := rfl
@[simp] theorem modPort_twaits (n : Nat) (f : Port → Port) (s : State) : (modPort n f s).twaits = s.twaits := rfl
@[simp] theorem modPort_sysver (n : Nat) (f : Port → Port) (s : State) : (modPort n f s).sysver = s.sysver := rfl
@[simp] theorem modPort_homes (n : Nat) (f : Port → Port) (s : State) : (modPort n f s).homes = s.homes := rfl
@[simp] theorem modPort_mapop (n : Nat) (f : Port → Port) (s : State) : (modPort n f s).mapop = s.mapop := rfl
@[simp] theorem modPort_mapq (n : Nat) (f : Port → Port) (s : State) : (modPort n f s).mapq = s.mapq := rfl
@[simp] theorem modPort_links (n : Nat) (f : Port → Port) (s : State) : (modPort n f s).links = s.links := rfl
@[simp] theorem modPort_cxlMem (n : Nat) (f : Port → Port) (s : State) : (modPort n f s).cxlMem = s.cxlMem := rfl
@[simp] theorem modPort_biasHost (n : Nat) (f : Port → Port) (s : State) : (modPort n f s).biasHost = s.biasHost := rfl
@[simp] theorem modPort_biasOp (n : Nat) (f : Port → Port) (s : State) : (modPort n f s).biasOp = s.biasOp := rfl
@[simp] theorem modPort_qifs (n : Nat) (f : Port → Port) (s : State) : (modPort n f s).qifs = s.qifs := rfl
@[simp] theorem modPort_parts (n : Nat) (f : Port → Port) (s : State) : (modPort n f s).parts = s.parts := rfl
@[simp] theorem modPort_clusters (n : Nat) (f : Port → Port) (s : State) : (modPort n f s).clusters = s.clusters := rfl
@[simp] theorem modPort_ports (n : Nat) (f : Port → Port) (s : State) : (modPort n f s).ports = alSet n (f (portOf n s)) s.ports := rfl
@[simp] theorem modPort_arb (n : Nat) (f : Port → Port) (s : State) : (modPort n f s).arb = s.arb := rfl
@[simp] theorem modPort_accepted (n : Nat) (f : Port → Port) (s : State) : (modPort n f s).accepted = s.accepted := rfl
@[simp] theorem modPort_peers (n : Nat) (f : Port → Port) (s : State) : (modPort n f s).peers = s.peers := rfl
@[simp] theorem modPort_atc (n : Nat) (f : Port → Port) (s : State) : (modPort n f s).atc = s.atc := rfl
@[simp] theorem modPort_invals (n : Nat) (f : Port → Port) (s : State) : (modPort n f s).invals = s.invals := rfl
@[simp] theorem modPort_flueDown (n : Nat) (f : Port → Port) (s : State) : (modPort n f s).flueDown = s.flueDown := rfl
@[simp] theorem modPort_got (n : Nat) (f : Port → Port) (s : State) : (modPort n f s).got = s.got := rfl
@[simp] theorem modPort_asks (n : Nat) (f : Port → Port) (s : State) : (modPort n f s).asks = s.asks := rfl
@[simp] theorem modPort_msixTab (n : Nat) (f : Port → Port) (s : State) : (modPort n f s).msixTab = s.msixTab := rfl
@[simp] theorem modPort_msixPend (n : Nat) (f : Port → Port) (s : State) : (modPort n f s).msixPend = s.msixPend := rfl
@[simp] theorem modPort_msixSent (n : Nat) (f : Port → Port) (s : State) : (modPort n f s).msixSent = s.msixSent := rfl
@[simp] theorem modPort_hostOut (n : Nat) (f : Port → Port) (s : State) : (modPort n f s).hostOut = s.hostOut := rfl
@[simp] theorem modPort_ticket (n : Nat) (f : Port → Port) (s : State) : (modPort n f s).ticket = s.ticket := rfl
@[simp] theorem modPort_power (n : Nat) (f : Port → Port) (s : State) : (modPort n f s).power = s.power := rfl
@[simp] theorem modPort_meas (n : Nat) (f : Port → Port) (s : State) : (modPort n f s).meas = s.meas := rfl
@[simp] theorem modPort_fw (n : Nat) (f : Port → Port) (s : State) : (modPort n f s).fw = s.fw := rfl
@[simp] theorem modPort_reports (n : Nat) (f : Port → Port) (s : State) : (modPort n f s).reports = s.reports := rfl

/-! ### `modWg` -/

@[simp] theorem modWg_cur (n : Nat) (f : Workgroup → Workgroup) (s : State) : (modWg n f s).cur = s.cur := rfl
@[simp] theorem modWg_teams (n : Nat) (f : Workgroup → Workgroup) (s : State) : (modWg n f s).teams = s.teams := rfl
@[simp] theorem modWg_issue (n : Nat) (f : Workgroup → Workgroup) (s : State) : (modWg n f s).issue = s.issue := rfl
@[simp] theorem modWg_agenda (n : Nat) (f : Workgroup → Workgroup) (s : State) : (modWg n f s).agenda = s.agenda := rfl
@[simp] theorem modWg_ck (n : Nat) (f : Workgroup → Workgroup) (s : State) : (modWg n f s).ck = s.ck := rfl
@[simp] theorem modWg_free (n : Nat) (f : Workgroup → Workgroup) (s : State) : (modWg n f s).free = s.free := rfl
@[simp] theorem modWg_nextId (n : Nat) (f : Workgroup → Workgroup) (s : State) : (modWg n f s).nextId = s.nextId := rfl
@[simp] theorem modWg_cond (n : Nat) (f : Workgroup → Workgroup) (s : State) : (modWg n f s).cond = s.cond := rfl
@[simp] theorem modWg_time (n : Nat) (f : Workgroup → Workgroup) (s : State) : (modWg n f s).time = s.time := rfl
@[simp] theorem modWg_mem (n : Nat) (f : Workgroup → Workgroup) (s : State) : (modWg n f s).mem = s.mem := rfl
@[simp] theorem modWg_ctl (n : Nat) (f : Workgroup → Workgroup) (s : State) : (modWg n f s).ctl = s.ctl := rfl
@[simp] theorem modWg_pkt (n : Nat) (f : Workgroup → Workgroup) (s : State) : (modWg n f s).pkt = s.pkt := rfl
@[simp] theorem modWg_wgs (n : Nat) (f : Workgroup → Workgroup) (s : State) : (modWg n f s).wgs = updWhere (fun w => w.id == n) f s.wgs := rfl
@[simp] theorem modWg_launches (n : Nat) (f : Workgroup → Workgroup) (s : State) : (modWg n f s).launches = s.launches := rfl
@[simp] theorem modWg_cores (n : Nat) (f : Workgroup → Workgroup) (s : State) : (modWg n f s).cores = s.cores := rfl
@[simp] theorem modWg_lsu (n : Nat) (f : Workgroup → Workgroup) (s : State) : (modWg n f s).lsu = s.lsu := rfl
@[simp] theorem modWg_lines (n : Nat) (f : Workgroup → Workgroup) (s : State) : (modWg n f s).lines = s.lines := rfl
@[simp] theorem modWg_embers (n : Nat) (f : Workgroup → Workgroup) (s : State) : (modWg n f s).embers = s.embers := rfl
@[simp] theorem modWg_monitors (n : Nat) (f : Workgroup → Workgroup) (s : State) : (modWg n f s).monitors = s.monitors := rfl
@[simp] theorem modWg_draws (n : Nat) (f : Workgroup → Workgroup) (s : State) : (modWg n f s).draws = s.draws := rfl
@[simp] theorem modWg_qwait (n : Nat) (f : Workgroup → Workgroup) (s : State) : (modWg n f s).qwait = s.qwait := rfl
@[simp] theorem modWg_twaits (n : Nat) (f : Workgroup → Workgroup) (s : State) : (modWg n f s).twaits = s.twaits := rfl
@[simp] theorem modWg_sysver (n : Nat) (f : Workgroup → Workgroup) (s : State) : (modWg n f s).sysver = s.sysver := rfl
@[simp] theorem modWg_homes (n : Nat) (f : Workgroup → Workgroup) (s : State) : (modWg n f s).homes = s.homes := rfl
@[simp] theorem modWg_mapop (n : Nat) (f : Workgroup → Workgroup) (s : State) : (modWg n f s).mapop = s.mapop := rfl
@[simp] theorem modWg_mapq (n : Nat) (f : Workgroup → Workgroup) (s : State) : (modWg n f s).mapq = s.mapq := rfl
@[simp] theorem modWg_links (n : Nat) (f : Workgroup → Workgroup) (s : State) : (modWg n f s).links = s.links := rfl
@[simp] theorem modWg_cxlMem (n : Nat) (f : Workgroup → Workgroup) (s : State) : (modWg n f s).cxlMem = s.cxlMem := rfl
@[simp] theorem modWg_biasHost (n : Nat) (f : Workgroup → Workgroup) (s : State) : (modWg n f s).biasHost = s.biasHost := rfl
@[simp] theorem modWg_biasOp (n : Nat) (f : Workgroup → Workgroup) (s : State) : (modWg n f s).biasOp = s.biasOp := rfl
@[simp] theorem modWg_qifs (n : Nat) (f : Workgroup → Workgroup) (s : State) : (modWg n f s).qifs = s.qifs := rfl
@[simp] theorem modWg_parts (n : Nat) (f : Workgroup → Workgroup) (s : State) : (modWg n f s).parts = s.parts := rfl
@[simp] theorem modWg_clusters (n : Nat) (f : Workgroup → Workgroup) (s : State) : (modWg n f s).clusters = s.clusters := rfl
@[simp] theorem modWg_ports (n : Nat) (f : Workgroup → Workgroup) (s : State) : (modWg n f s).ports = s.ports := rfl
@[simp] theorem modWg_arb (n : Nat) (f : Workgroup → Workgroup) (s : State) : (modWg n f s).arb = s.arb := rfl
@[simp] theorem modWg_accepted (n : Nat) (f : Workgroup → Workgroup) (s : State) : (modWg n f s).accepted = s.accepted := rfl
@[simp] theorem modWg_peers (n : Nat) (f : Workgroup → Workgroup) (s : State) : (modWg n f s).peers = s.peers := rfl
@[simp] theorem modWg_atc (n : Nat) (f : Workgroup → Workgroup) (s : State) : (modWg n f s).atc = s.atc := rfl
@[simp] theorem modWg_invals (n : Nat) (f : Workgroup → Workgroup) (s : State) : (modWg n f s).invals = s.invals := rfl
@[simp] theorem modWg_flueDown (n : Nat) (f : Workgroup → Workgroup) (s : State) : (modWg n f s).flueDown = s.flueDown := rfl
@[simp] theorem modWg_got (n : Nat) (f : Workgroup → Workgroup) (s : State) : (modWg n f s).got = s.got := rfl
@[simp] theorem modWg_asks (n : Nat) (f : Workgroup → Workgroup) (s : State) : (modWg n f s).asks = s.asks := rfl
@[simp] theorem modWg_msixTab (n : Nat) (f : Workgroup → Workgroup) (s : State) : (modWg n f s).msixTab = s.msixTab := rfl
@[simp] theorem modWg_msixPend (n : Nat) (f : Workgroup → Workgroup) (s : State) : (modWg n f s).msixPend = s.msixPend := rfl
@[simp] theorem modWg_msixSent (n : Nat) (f : Workgroup → Workgroup) (s : State) : (modWg n f s).msixSent = s.msixSent := rfl
@[simp] theorem modWg_hostOut (n : Nat) (f : Workgroup → Workgroup) (s : State) : (modWg n f s).hostOut = s.hostOut := rfl
@[simp] theorem modWg_ticket (n : Nat) (f : Workgroup → Workgroup) (s : State) : (modWg n f s).ticket = s.ticket := rfl
@[simp] theorem modWg_power (n : Nat) (f : Workgroup → Workgroup) (s : State) : (modWg n f s).power = s.power := rfl
@[simp] theorem modWg_meas (n : Nat) (f : Workgroup → Workgroup) (s : State) : (modWg n f s).meas = s.meas := rfl
@[simp] theorem modWg_fw (n : Nat) (f : Workgroup → Workgroup) (s : State) : (modWg n f s).fw = s.fw := rfl
@[simp] theorem modWg_reports (n : Nat) (f : Workgroup → Workgroup) (s : State) : (modWg n f s).reports = s.reports := rfl

/-! ### `modLaunch` -/

@[simp] theorem modLaunch_cur (n : Nat) (f : Launch → Launch) (s : State) : (modLaunch n f s).cur = s.cur := rfl
@[simp] theorem modLaunch_teams (n : Nat) (f : Launch → Launch) (s : State) : (modLaunch n f s).teams = s.teams := rfl
@[simp] theorem modLaunch_issue (n : Nat) (f : Launch → Launch) (s : State) : (modLaunch n f s).issue = s.issue := rfl
@[simp] theorem modLaunch_agenda (n : Nat) (f : Launch → Launch) (s : State) : (modLaunch n f s).agenda = s.agenda := rfl
@[simp] theorem modLaunch_ck (n : Nat) (f : Launch → Launch) (s : State) : (modLaunch n f s).ck = s.ck := rfl
@[simp] theorem modLaunch_free (n : Nat) (f : Launch → Launch) (s : State) : (modLaunch n f s).free = s.free := rfl
@[simp] theorem modLaunch_nextId (n : Nat) (f : Launch → Launch) (s : State) : (modLaunch n f s).nextId = s.nextId := rfl
@[simp] theorem modLaunch_cond (n : Nat) (f : Launch → Launch) (s : State) : (modLaunch n f s).cond = s.cond := rfl
@[simp] theorem modLaunch_time (n : Nat) (f : Launch → Launch) (s : State) : (modLaunch n f s).time = s.time := rfl
@[simp] theorem modLaunch_mem (n : Nat) (f : Launch → Launch) (s : State) : (modLaunch n f s).mem = s.mem := rfl
@[simp] theorem modLaunch_ctl (n : Nat) (f : Launch → Launch) (s : State) : (modLaunch n f s).ctl = s.ctl := rfl
@[simp] theorem modLaunch_pkt (n : Nat) (f : Launch → Launch) (s : State) : (modLaunch n f s).pkt = s.pkt := rfl
@[simp] theorem modLaunch_wgs (n : Nat) (f : Launch → Launch) (s : State) : (modLaunch n f s).wgs = s.wgs := rfl
@[simp] theorem modLaunch_launches (n : Nat) (f : Launch → Launch) (s : State) : (modLaunch n f s).launches = updWhere (fun l => l.id == n) f s.launches := rfl
@[simp] theorem modLaunch_cores (n : Nat) (f : Launch → Launch) (s : State) : (modLaunch n f s).cores = s.cores := rfl
@[simp] theorem modLaunch_lsu (n : Nat) (f : Launch → Launch) (s : State) : (modLaunch n f s).lsu = s.lsu := rfl
@[simp] theorem modLaunch_lines (n : Nat) (f : Launch → Launch) (s : State) : (modLaunch n f s).lines = s.lines := rfl
@[simp] theorem modLaunch_embers (n : Nat) (f : Launch → Launch) (s : State) : (modLaunch n f s).embers = s.embers := rfl
@[simp] theorem modLaunch_monitors (n : Nat) (f : Launch → Launch) (s : State) : (modLaunch n f s).monitors = s.monitors := rfl
@[simp] theorem modLaunch_draws (n : Nat) (f : Launch → Launch) (s : State) : (modLaunch n f s).draws = s.draws := rfl
@[simp] theorem modLaunch_qwait (n : Nat) (f : Launch → Launch) (s : State) : (modLaunch n f s).qwait = s.qwait := rfl
@[simp] theorem modLaunch_twaits (n : Nat) (f : Launch → Launch) (s : State) : (modLaunch n f s).twaits = s.twaits := rfl
@[simp] theorem modLaunch_sysver (n : Nat) (f : Launch → Launch) (s : State) : (modLaunch n f s).sysver = s.sysver := rfl
@[simp] theorem modLaunch_homes (n : Nat) (f : Launch → Launch) (s : State) : (modLaunch n f s).homes = s.homes := rfl
@[simp] theorem modLaunch_mapop (n : Nat) (f : Launch → Launch) (s : State) : (modLaunch n f s).mapop = s.mapop := rfl
@[simp] theorem modLaunch_mapq (n : Nat) (f : Launch → Launch) (s : State) : (modLaunch n f s).mapq = s.mapq := rfl
@[simp] theorem modLaunch_links (n : Nat) (f : Launch → Launch) (s : State) : (modLaunch n f s).links = s.links := rfl
@[simp] theorem modLaunch_cxlMem (n : Nat) (f : Launch → Launch) (s : State) : (modLaunch n f s).cxlMem = s.cxlMem := rfl
@[simp] theorem modLaunch_biasHost (n : Nat) (f : Launch → Launch) (s : State) : (modLaunch n f s).biasHost = s.biasHost := rfl
@[simp] theorem modLaunch_biasOp (n : Nat) (f : Launch → Launch) (s : State) : (modLaunch n f s).biasOp = s.biasOp := rfl
@[simp] theorem modLaunch_qifs (n : Nat) (f : Launch → Launch) (s : State) : (modLaunch n f s).qifs = s.qifs := rfl
@[simp] theorem modLaunch_parts (n : Nat) (f : Launch → Launch) (s : State) : (modLaunch n f s).parts = s.parts := rfl
@[simp] theorem modLaunch_clusters (n : Nat) (f : Launch → Launch) (s : State) : (modLaunch n f s).clusters = s.clusters := rfl
@[simp] theorem modLaunch_ports (n : Nat) (f : Launch → Launch) (s : State) : (modLaunch n f s).ports = s.ports := rfl
@[simp] theorem modLaunch_arb (n : Nat) (f : Launch → Launch) (s : State) : (modLaunch n f s).arb = s.arb := rfl
@[simp] theorem modLaunch_accepted (n : Nat) (f : Launch → Launch) (s : State) : (modLaunch n f s).accepted = s.accepted := rfl
@[simp] theorem modLaunch_peers (n : Nat) (f : Launch → Launch) (s : State) : (modLaunch n f s).peers = s.peers := rfl
@[simp] theorem modLaunch_atc (n : Nat) (f : Launch → Launch) (s : State) : (modLaunch n f s).atc = s.atc := rfl
@[simp] theorem modLaunch_invals (n : Nat) (f : Launch → Launch) (s : State) : (modLaunch n f s).invals = s.invals := rfl
@[simp] theorem modLaunch_flueDown (n : Nat) (f : Launch → Launch) (s : State) : (modLaunch n f s).flueDown = s.flueDown := rfl
@[simp] theorem modLaunch_got (n : Nat) (f : Launch → Launch) (s : State) : (modLaunch n f s).got = s.got := rfl
@[simp] theorem modLaunch_asks (n : Nat) (f : Launch → Launch) (s : State) : (modLaunch n f s).asks = s.asks := rfl
@[simp] theorem modLaunch_msixTab (n : Nat) (f : Launch → Launch) (s : State) : (modLaunch n f s).msixTab = s.msixTab := rfl
@[simp] theorem modLaunch_msixPend (n : Nat) (f : Launch → Launch) (s : State) : (modLaunch n f s).msixPend = s.msixPend := rfl
@[simp] theorem modLaunch_msixSent (n : Nat) (f : Launch → Launch) (s : State) : (modLaunch n f s).msixSent = s.msixSent := rfl
@[simp] theorem modLaunch_hostOut (n : Nat) (f : Launch → Launch) (s : State) : (modLaunch n f s).hostOut = s.hostOut := rfl
@[simp] theorem modLaunch_ticket (n : Nat) (f : Launch → Launch) (s : State) : (modLaunch n f s).ticket = s.ticket := rfl
@[simp] theorem modLaunch_power (n : Nat) (f : Launch → Launch) (s : State) : (modLaunch n f s).power = s.power := rfl
@[simp] theorem modLaunch_meas (n : Nat) (f : Launch → Launch) (s : State) : (modLaunch n f s).meas = s.meas := rfl
@[simp] theorem modLaunch_fw (n : Nat) (f : Launch → Launch) (s : State) : (modLaunch n f s).fw = s.fw := rfl
@[simp] theorem modLaunch_reports (n : Nat) (f : Launch → Launch) (s : State) : (modLaunch n f s).reports = s.reports := rfl

/-! ### `modTeam`: every field but the teams -/

@[simp] theorem modTeam_issue (n : Nat) (f : Team → Team) (s : State) : (modTeam n f s).issue = s.issue := by unfold modTeam; split <;> rfl
@[simp] theorem modTeam_agenda (n : Nat) (f : Team → Team) (s : State) : (modTeam n f s).agenda = s.agenda := by unfold modTeam; split <;> rfl
@[simp] theorem modTeam_ck (n : Nat) (f : Team → Team) (s : State) : (modTeam n f s).ck = s.ck := by unfold modTeam; split <;> rfl
@[simp] theorem modTeam_free (n : Nat) (f : Team → Team) (s : State) : (modTeam n f s).free = s.free := by unfold modTeam; split <;> rfl
@[simp] theorem modTeam_nextId (n : Nat) (f : Team → Team) (s : State) : (modTeam n f s).nextId = s.nextId := by unfold modTeam; split <;> rfl
@[simp] theorem modTeam_cond (n : Nat) (f : Team → Team) (s : State) : (modTeam n f s).cond = s.cond := by unfold modTeam; split <;> rfl
@[simp] theorem modTeam_time (n : Nat) (f : Team → Team) (s : State) : (modTeam n f s).time = s.time := by unfold modTeam; split <;> rfl
@[simp] theorem modTeam_mem (n : Nat) (f : Team → Team) (s : State) : (modTeam n f s).mem = s.mem := by unfold modTeam; split <;> rfl
@[simp] theorem modTeam_ctl (n : Nat) (f : Team → Team) (s : State) : (modTeam n f s).ctl = s.ctl := by unfold modTeam; split <;> rfl
@[simp] theorem modTeam_pkt (n : Nat) (f : Team → Team) (s : State) : (modTeam n f s).pkt = s.pkt := by unfold modTeam; split <;> rfl
@[simp] theorem modTeam_wgs (n : Nat) (f : Team → Team) (s : State) : (modTeam n f s).wgs = s.wgs := by unfold modTeam; split <;> rfl
@[simp] theorem modTeam_launches (n : Nat) (f : Team → Team) (s : State) : (modTeam n f s).launches = s.launches := by unfold modTeam; split <;> rfl
@[simp] theorem modTeam_cores (n : Nat) (f : Team → Team) (s : State) : (modTeam n f s).cores = s.cores := by unfold modTeam; split <;> rfl
@[simp] theorem modTeam_lsu (n : Nat) (f : Team → Team) (s : State) : (modTeam n f s).lsu = s.lsu := by unfold modTeam; split <;> rfl
@[simp] theorem modTeam_lines (n : Nat) (f : Team → Team) (s : State) : (modTeam n f s).lines = s.lines := by unfold modTeam; split <;> rfl
@[simp] theorem modTeam_embers (n : Nat) (f : Team → Team) (s : State) : (modTeam n f s).embers = s.embers := by unfold modTeam; split <;> rfl
@[simp] theorem modTeam_monitors (n : Nat) (f : Team → Team) (s : State) : (modTeam n f s).monitors = s.monitors := by unfold modTeam; split <;> rfl
@[simp] theorem modTeam_draws (n : Nat) (f : Team → Team) (s : State) : (modTeam n f s).draws = s.draws := by unfold modTeam; split <;> rfl
@[simp] theorem modTeam_qwait (n : Nat) (f : Team → Team) (s : State) : (modTeam n f s).qwait = s.qwait := by unfold modTeam; split <;> rfl
@[simp] theorem modTeam_twaits (n : Nat) (f : Team → Team) (s : State) : (modTeam n f s).twaits = s.twaits := by unfold modTeam; split <;> rfl
@[simp] theorem modTeam_sysver (n : Nat) (f : Team → Team) (s : State) : (modTeam n f s).sysver = s.sysver := by unfold modTeam; split <;> rfl
@[simp] theorem modTeam_homes (n : Nat) (f : Team → Team) (s : State) : (modTeam n f s).homes = s.homes := by unfold modTeam; split <;> rfl
@[simp] theorem modTeam_mapop (n : Nat) (f : Team → Team) (s : State) : (modTeam n f s).mapop = s.mapop := by unfold modTeam; split <;> rfl
@[simp] theorem modTeam_mapq (n : Nat) (f : Team → Team) (s : State) : (modTeam n f s).mapq = s.mapq := by unfold modTeam; split <;> rfl
@[simp] theorem modTeam_links (n : Nat) (f : Team → Team) (s : State) : (modTeam n f s).links = s.links := by unfold modTeam; split <;> rfl
@[simp] theorem modTeam_cxlMem (n : Nat) (f : Team → Team) (s : State) : (modTeam n f s).cxlMem = s.cxlMem := by unfold modTeam; split <;> rfl
@[simp] theorem modTeam_biasHost (n : Nat) (f : Team → Team) (s : State) : (modTeam n f s).biasHost = s.biasHost := by unfold modTeam; split <;> rfl
@[simp] theorem modTeam_biasOp (n : Nat) (f : Team → Team) (s : State) : (modTeam n f s).biasOp = s.biasOp := by unfold modTeam; split <;> rfl
@[simp] theorem modTeam_qifs (n : Nat) (f : Team → Team) (s : State) : (modTeam n f s).qifs = s.qifs := by unfold modTeam; split <;> rfl
@[simp] theorem modTeam_parts (n : Nat) (f : Team → Team) (s : State) : (modTeam n f s).parts = s.parts := by unfold modTeam; split <;> rfl
@[simp] theorem modTeam_clusters (n : Nat) (f : Team → Team) (s : State) : (modTeam n f s).clusters = s.clusters := by unfold modTeam; split <;> rfl
@[simp] theorem modTeam_ports (n : Nat) (f : Team → Team) (s : State) : (modTeam n f s).ports = s.ports := by unfold modTeam; split <;> rfl
@[simp] theorem modTeam_arb (n : Nat) (f : Team → Team) (s : State) : (modTeam n f s).arb = s.arb := by unfold modTeam; split <;> rfl
@[simp] theorem modTeam_accepted (n : Nat) (f : Team → Team) (s : State) : (modTeam n f s).accepted = s.accepted := by unfold modTeam; split <;> rfl
@[simp] theorem modTeam_peers (n : Nat) (f : Team → Team) (s : State) : (modTeam n f s).peers = s.peers := by unfold modTeam; split <;> rfl
@[simp] theorem modTeam_atc (n : Nat) (f : Team → Team) (s : State) : (modTeam n f s).atc = s.atc := by unfold modTeam; split <;> rfl
@[simp] theorem modTeam_invals (n : Nat) (f : Team → Team) (s : State) : (modTeam n f s).invals = s.invals := by unfold modTeam; split <;> rfl
@[simp] theorem modTeam_flueDown (n : Nat) (f : Team → Team) (s : State) : (modTeam n f s).flueDown = s.flueDown := by unfold modTeam; split <;> rfl
@[simp] theorem modTeam_got (n : Nat) (f : Team → Team) (s : State) : (modTeam n f s).got = s.got := by unfold modTeam; split <;> rfl
@[simp] theorem modTeam_asks (n : Nat) (f : Team → Team) (s : State) : (modTeam n f s).asks = s.asks := by unfold modTeam; split <;> rfl
@[simp] theorem modTeam_msixTab (n : Nat) (f : Team → Team) (s : State) : (modTeam n f s).msixTab = s.msixTab := by unfold modTeam; split <;> rfl
@[simp] theorem modTeam_msixPend (n : Nat) (f : Team → Team) (s : State) : (modTeam n f s).msixPend = s.msixPend := by unfold modTeam; split <;> rfl
@[simp] theorem modTeam_msixSent (n : Nat) (f : Team → Team) (s : State) : (modTeam n f s).msixSent = s.msixSent := by unfold modTeam; split <;> rfl
@[simp] theorem modTeam_hostOut (n : Nat) (f : Team → Team) (s : State) : (modTeam n f s).hostOut = s.hostOut := by unfold modTeam; split <;> rfl
@[simp] theorem modTeam_ticket (n : Nat) (f : Team → Team) (s : State) : (modTeam n f s).ticket = s.ticket := by unfold modTeam; split <;> rfl
@[simp] theorem modTeam_power (n : Nat) (f : Team → Team) (s : State) : (modTeam n f s).power = s.power := by unfold modTeam; split <;> rfl
@[simp] theorem modTeam_meas (n : Nat) (f : Team → Team) (s : State) : (modTeam n f s).meas = s.meas := by unfold modTeam; split <;> rfl
@[simp] theorem modTeam_fw (n : Nat) (f : Team → Team) (s : State) : (modTeam n f s).fw = s.fw := by unfold modTeam; split <;> rfl
@[simp] theorem modTeam_reports (n : Nat) (f : Team → Team) (s : State) : (modTeam n f s).reports = s.reports := by unfold modTeam; split <;> rfl

/-! ### `Team.setS`: every field but the one it writes -/

@[simp] theorem setS_id (t : Team) (r : Reg) (x : SReg) : (t.setS r x).id = t.id := by unfold Team.setS; split <;> rfl
@[simp] theorem setS_core (t : Team) (r : Reg) (x : SReg) : (t.setS r x).core = t.core := by unfold Team.setS; split <;> rfl
@[simp] theorem setS_slot (t : Team) (r : Reg) (x : SReg) : (t.setS r x).slot = t.slot := by unfold Team.setS; split <;> rfl
@[simp] theorem setS_vbad (t : Team) (r : Reg) (x : SReg) : (t.setS r x).vbad = t.vbad := by unfold Team.setS; split <;> rfl
@[simp] theorem setS_claimed (t : Team) (r : Reg) (x : SReg) : (t.setS r x).claimed = t.claimed := by unfold Team.setS; split <;> rfl
@[simp] theorem setS_ahead (t : Team) (r : Reg) (x : SReg) : (t.setS r x).ahead = t.ahead := by unfold Team.setS; split <;> rfl
@[simp] theorem setS_part (t : Team) (r : Reg) (x : SReg) : (t.setS r x).part = t.part := by unfold Team.setS; split <;> rfl
@[simp] theorem setS_wg (t : Team) (r : Reg) (x : SReg) : (t.setS r x).wg = t.wg := by unfold Team.setS; split <;> rfl
@[simp] theorem setS_num (t : Team) (r : Reg) (x : SReg) : (t.setS r x).num = t.num := by unfold Team.setS; split <;> rfl
@[simp] theorem setS_width (t : Team) (r : Reg) (x : SReg) : (t.setS r x).width = t.width := by unfold Team.setS; split <;> rfl
@[simp] theorem setS_pc (t : Team) (r : Reg) (x : SReg) : (t.setS r x).pc = t.pc := by unfold Team.setS; split <;> rfl
@[simp] theorem setS_v (t : Team) (r : Reg) (x : SReg) : (t.setS r x).v = t.v := by unfold Team.setS; split <;> rfl
@[simp] theorem setS_k (t : Team) (r : Reg) (x : SReg) : (t.setS r x).k = t.k := by unfold Team.setS; split <;> rfl
@[simp] theorem setS_flags (t : Team) (r : Reg) (x : SReg) : (t.setS r x).flags = t.flags := by unfold Team.setS; split <;> rfl
@[simp] theorem setS_sig (t : Team) (r : Reg) (x : SReg) : (t.setS r x).sig = t.sig := by unfold Team.setS; split <;> rfl
@[simp] theorem setS_hint (t : Team) (r : Reg) (x : SReg) : (t.setS r x).hint = t.hint := by unfold Team.setS; split <;> rfl
@[simp] theorem setS_sigOn (t : Team) (r : Reg) (x : SReg) : (t.setS r x).sigOn = t.sigOn := by unfold Team.setS; split <;> rfl
@[simp] theorem setS_handler (t : Team) (r : Reg) (x : SReg) : (t.setS r x).handler = t.handler := by unfold Team.setS; split <;> rfl
@[simp] theorem setS_tr (t : Team) (r : Reg) (x : SReg) : (t.setS r x).tr = t.tr := by unfold Team.setS; split <;> rfl
@[simp] theorem setS_wdog (t : Team) (r : Reg) (x : SReg) : (t.setS r x).wdog = t.wdog := by unfold Team.setS; split <;> rfl
@[simp] theorem setS_atomU (t : Team) (r : Reg) (x : SReg) : (t.setS r x).atomU = t.atomU := by unfold Team.setS; split <;> rfl
@[simp] theorem setS_preempt (t : Team) (r : Reg) (x : SReg) : (t.setS r x).preempt = t.preempt := by unfold Team.setS; split <;> rfl
@[simp] theorem setS_records (t : Team) (r : Reg) (x : SReg) : (t.setS r x).records = t.records := by unfold Team.setS; split <;> rfl
@[simp] theorem setS_reexec (t : Team) (r : Reg) (x : SReg) : (t.setS r x).reexec = t.reexec := by unfold Team.setS; split <;> rfl
@[simp] theorem setS_mm (t : Team) (r : Reg) (x : SReg) : (t.setS r x).mm = t.mm := by unfold Team.setS; split <;> rfl
@[simp] theorem setS_c (t : Team) (r : Reg) (x : SReg) : (t.setS r x).c = t.c := by unfold Team.setS; split <;> rfl
@[simp] theorem setS_m (t : Team) (r : Reg) (x : SReg) : (t.setS r x).m = t.m := by unfold Team.setS; split <;> rfl
@[simp] theorem setS_l (t : Team) (r : Reg) (x : SReg) : (t.setS r x).l = t.l := by unfold Team.setS; split <;> rfl
@[simp] theorem setS_mcfg (t : Team) (r : Reg) (x : SReg) : (t.setS r x).mcfg = t.mcfg := by unfold Team.setS; split <;> rfl
@[simp] theorem setS_midx (t : Team) (r : Reg) (x : SReg) : (t.setS r x).midx = t.midx := by unfold Team.setS; split <;> rfl
@[simp] theorem setS_shape (t : Team) (r : Reg) (x : SReg) : (t.setS r x).shape = t.shape := by unfold Team.setS; split <;> rfl
@[simp] theorem setS_mflag (t : Team) (r : Reg) (x : SReg) : (t.setS r x).mflag = t.mflag := by unfold Team.setS; split <;> rfl
@[simp] theorem setS_lflag (t : Team) (r : Reg) (x : SReg) : (t.setS r x).lflag = t.lflag := by unfold Team.setS; split <;> rfl
@[simp] theorem setS_emberList (t : Team) (r : Reg) (x : SReg) : (t.setS r x).emberList = t.emberList := by unfold Team.setS; split <;> rfl
@[simp] theorem setS_status (t : Team) (r : Reg) (x : SReg) : (t.setS r x).status = t.status := by unfold Team.setS; split <;> rfl
@[simp] theorem setS_exited (t : Team) (r : Reg) (x : SReg) : (t.setS r x).exited = t.exited := by unfold Team.setS; split <;> rfl
@[simp] theorem setS_dead (t : Team) (r : Reg) (x : SReg) : (t.setS r x).dead = t.dead := by unfold Team.setS; split <;> rfl
@[simp] theorem setS_emu (t : Team) (r : Reg) (x : SReg) : (t.setS r x).emu = t.emu := by unfold Team.setS; split <;> rfl
@[simp] theorem setS_passed (t : Team) (r : Reg) (x : SReg) : (t.setS r x).passed = t.passed := by unfold Team.setS; split <;> rfl
@[simp] theorem setS_urgent (t : Team) (r : Reg) (x : SReg) : (t.setS r x).urgent = t.urgent := by unfold Team.setS; split <;> rfl
@[simp] theorem setS_hobSince (t : Team) (r : Reg) (x : SReg) : (t.setS r x).hobSince = t.hobSince := by unfold Team.setS; split <;> rfl
@[simp] theorem setS_readySince (t : Team) (r : Reg) (x : SReg) : (t.setS r x).readySince = t.readySince := by unfold Team.setS; split <;> rfl
@[simp] theorem setS_yielded (t : Team) (r : Reg) (x : SReg) : (t.setS r x).yielded = t.yielded := by unfold Team.setS; split <;> rfl
@[simp] theorem setS_busy (t : Team) (r : Reg) (x : SReg) : (t.setS r x).busy = t.busy := by unfold Team.setS; split <;> rfl
@[simp] theorem setS_haltWait (t : Team) (r : Reg) (x : SReg) : (t.setS r x).haltWait = t.haltWait := by unfold Team.setS; split <;> rfl
@[simp] theorem setS_haltedAt (t : Team) (r : Reg) (x : SReg) : (t.setS r x).haltedAt = t.haltedAt := by unfold Team.setS; split <;> rfl
@[simp] theorem setS_spilled (t : Team) (r : Reg) (x : SReg) : (t.setS r x).spilled = t.spilled := by unfold Team.setS; split <;> rfl
@[simp] theorem setS_ilines (t : Team) (r : Reg) (x : SReg) : (t.setS r x).ilines = t.ilines := by unfold Team.setS; split <;> rfl
@[simp] theorem setS_fetching (t : Team) (r : Reg) (x : SReg) : (t.setS r x).fetching = t.fetching := by unfold Team.setS; split <;> rfl
@[simp] theorem setS_arrived (t : Team) (r : Reg) (x : SReg) : (t.setS r x).arrived = t.arrived := by unfold Team.setS; split <;> rfl
@[simp] theorem setS_syncAt (t : Team) (r : Reg) (x : SReg) : (t.setS r x).syncAt = t.syncAt := by unfold Team.setS; split <;> rfl
@[simp] theorem setS_owed (t : Team) (r : Reg) (x : SReg) : (t.setS r x).owed = t.owed := by unfold Team.setS; split <;> rfl
@[simp] theorem setS_abandon (t : Team) (r : Reg) (x : SReg) : (t.setS r x).abandon = t.abandon := by unfold Team.setS; split <;> rfl
@[simp] theorem setS_mset (t : Team) (r : Reg) (x : SReg) : (t.setS r x).mset = t.mset := by unfold Team.setS; split <;> rfl
@[simp] theorem setS_lset (t : Team) (r : Reg) (x : SReg) : (t.setS r x).lset = t.lset := by unfold Team.setS; split <;> rfl
@[simp] theorem setS_fenced (t : Team) (r : Reg) (x : SReg) : (t.setS r x).fenced = t.fenced := by unfold Team.setS; split <;> rfl
@[simp] theorem setS_pre (t : Team) (r : Reg) (x : SReg) : (t.setS r x).pre = t.pre := by unfold Team.setS; split <;> rfl
@[simp] theorem setS_fetchBad (t : Team) (r : Reg) (x : SReg) : (t.setS r x).fetchBad = t.fetchBad := by unfold Team.setS; split <;> rfl
@[simp] theorem setS_spq (t : Team) (r : Reg) (x : SReg) : (t.setS r x).spq = t.spq := by unfold Team.setS; split <;> rfl

/-! ### `Team.setV`: every field but the one it writes -/

@[simp] theorem setV_id (t : Team) (r : Reg) (x : VReg) : (t.setV r x).id = t.id := by unfold Team.setV; split <;> rfl
@[simp] theorem setV_core (t : Team) (r : Reg) (x : VReg) : (t.setV r x).core = t.core := by unfold Team.setV; split <;> rfl
@[simp] theorem setV_slot (t : Team) (r : Reg) (x : VReg) : (t.setV r x).slot = t.slot := by unfold Team.setV; split <;> rfl
@[simp] theorem setV_vbad (t : Team) (r : Reg) (x : VReg) : (t.setV r x).vbad = if r = 0 then t.vbad else t.vbad.filter (· != r.val) := by
  unfold Team.setV; split <;> rfl
@[simp] theorem setV_claimed (t : Team) (r : Reg) (x : VReg) : (t.setV r x).claimed = t.claimed := by unfold Team.setV; split <;> rfl
@[simp] theorem setV_ahead (t : Team) (r : Reg) (x : VReg) : (t.setV r x).ahead = t.ahead := by unfold Team.setV; split <;> rfl
@[simp] theorem setV_part (t : Team) (r : Reg) (x : VReg) : (t.setV r x).part = t.part := by unfold Team.setV; split <;> rfl
@[simp] theorem setV_wg (t : Team) (r : Reg) (x : VReg) : (t.setV r x).wg = t.wg := by unfold Team.setV; split <;> rfl
@[simp] theorem setV_num (t : Team) (r : Reg) (x : VReg) : (t.setV r x).num = t.num := by unfold Team.setV; split <;> rfl
@[simp] theorem setV_width (t : Team) (r : Reg) (x : VReg) : (t.setV r x).width = t.width := by unfold Team.setV; split <;> rfl
@[simp] theorem setV_pc (t : Team) (r : Reg) (x : VReg) : (t.setV r x).pc = t.pc := by unfold Team.setV; split <;> rfl
@[simp] theorem setV_s (t : Team) (r : Reg) (x : VReg) : (t.setV r x).s = t.s := by unfold Team.setV; split <;> rfl
@[simp] theorem setV_k (t : Team) (r : Reg) (x : VReg) : (t.setV r x).k = t.k := by unfold Team.setV; split <;> rfl
@[simp] theorem setV_flags (t : Team) (r : Reg) (x : VReg) : (t.setV r x).flags = t.flags := by unfold Team.setV; split <;> rfl
@[simp] theorem setV_sig (t : Team) (r : Reg) (x : VReg) : (t.setV r x).sig = t.sig := by unfold Team.setV; split <;> rfl
@[simp] theorem setV_hint (t : Team) (r : Reg) (x : VReg) : (t.setV r x).hint = t.hint := by unfold Team.setV; split <;> rfl
@[simp] theorem setV_sigOn (t : Team) (r : Reg) (x : VReg) : (t.setV r x).sigOn = t.sigOn := by unfold Team.setV; split <;> rfl
@[simp] theorem setV_handler (t : Team) (r : Reg) (x : VReg) : (t.setV r x).handler = t.handler := by unfold Team.setV; split <;> rfl
@[simp] theorem setV_tr (t : Team) (r : Reg) (x : VReg) : (t.setV r x).tr = t.tr := by unfold Team.setV; split <;> rfl
@[simp] theorem setV_wdog (t : Team) (r : Reg) (x : VReg) : (t.setV r x).wdog = t.wdog := by unfold Team.setV; split <;> rfl
@[simp] theorem setV_atomU (t : Team) (r : Reg) (x : VReg) : (t.setV r x).atomU = t.atomU := by unfold Team.setV; split <;> rfl
@[simp] theorem setV_preempt (t : Team) (r : Reg) (x : VReg) : (t.setV r x).preempt = t.preempt := by unfold Team.setV; split <;> rfl
@[simp] theorem setV_records (t : Team) (r : Reg) (x : VReg) : (t.setV r x).records = t.records := by unfold Team.setV; split <;> rfl
@[simp] theorem setV_reexec (t : Team) (r : Reg) (x : VReg) : (t.setV r x).reexec = t.reexec := by unfold Team.setV; split <;> rfl
@[simp] theorem setV_mm (t : Team) (r : Reg) (x : VReg) : (t.setV r x).mm = t.mm := by unfold Team.setV; split <;> rfl
@[simp] theorem setV_c (t : Team) (r : Reg) (x : VReg) : (t.setV r x).c = t.c := by unfold Team.setV; split <;> rfl
@[simp] theorem setV_m (t : Team) (r : Reg) (x : VReg) : (t.setV r x).m = t.m := by unfold Team.setV; split <;> rfl
@[simp] theorem setV_l (t : Team) (r : Reg) (x : VReg) : (t.setV r x).l = t.l := by unfold Team.setV; split <;> rfl
@[simp] theorem setV_mcfg (t : Team) (r : Reg) (x : VReg) : (t.setV r x).mcfg = t.mcfg := by unfold Team.setV; split <;> rfl
@[simp] theorem setV_midx (t : Team) (r : Reg) (x : VReg) : (t.setV r x).midx = t.midx := by unfold Team.setV; split <;> rfl
@[simp] theorem setV_shape (t : Team) (r : Reg) (x : VReg) : (t.setV r x).shape = t.shape := by unfold Team.setV; split <;> rfl
@[simp] theorem setV_mflag (t : Team) (r : Reg) (x : VReg) : (t.setV r x).mflag = t.mflag := by unfold Team.setV; split <;> rfl
@[simp] theorem setV_lflag (t : Team) (r : Reg) (x : VReg) : (t.setV r x).lflag = t.lflag := by unfold Team.setV; split <;> rfl
@[simp] theorem setV_emberList (t : Team) (r : Reg) (x : VReg) : (t.setV r x).emberList = t.emberList := by unfold Team.setV; split <;> rfl
@[simp] theorem setV_status (t : Team) (r : Reg) (x : VReg) : (t.setV r x).status = t.status := by unfold Team.setV; split <;> rfl
@[simp] theorem setV_exited (t : Team) (r : Reg) (x : VReg) : (t.setV r x).exited = t.exited := by unfold Team.setV; split <;> rfl
@[simp] theorem setV_dead (t : Team) (r : Reg) (x : VReg) : (t.setV r x).dead = t.dead := by unfold Team.setV; split <;> rfl
@[simp] theorem setV_emu (t : Team) (r : Reg) (x : VReg) : (t.setV r x).emu = t.emu := by unfold Team.setV; split <;> rfl
@[simp] theorem setV_passed (t : Team) (r : Reg) (x : VReg) : (t.setV r x).passed = t.passed := by unfold Team.setV; split <;> rfl
@[simp] theorem setV_urgent (t : Team) (r : Reg) (x : VReg) : (t.setV r x).urgent = t.urgent := by unfold Team.setV; split <;> rfl
@[simp] theorem setV_hobSince (t : Team) (r : Reg) (x : VReg) : (t.setV r x).hobSince = t.hobSince := by unfold Team.setV; split <;> rfl
@[simp] theorem setV_readySince (t : Team) (r : Reg) (x : VReg) : (t.setV r x).readySince = t.readySince := by unfold Team.setV; split <;> rfl
@[simp] theorem setV_yielded (t : Team) (r : Reg) (x : VReg) : (t.setV r x).yielded = t.yielded := by unfold Team.setV; split <;> rfl
@[simp] theorem setV_busy (t : Team) (r : Reg) (x : VReg) : (t.setV r x).busy = t.busy := by unfold Team.setV; split <;> rfl
@[simp] theorem setV_haltWait (t : Team) (r : Reg) (x : VReg) : (t.setV r x).haltWait = t.haltWait := by unfold Team.setV; split <;> rfl
@[simp] theorem setV_haltedAt (t : Team) (r : Reg) (x : VReg) : (t.setV r x).haltedAt = t.haltedAt := by unfold Team.setV; split <;> rfl
@[simp] theorem setV_spilled (t : Team) (r : Reg) (x : VReg) : (t.setV r x).spilled = t.spilled := by unfold Team.setV; split <;> rfl
@[simp] theorem setV_ilines (t : Team) (r : Reg) (x : VReg) : (t.setV r x).ilines = t.ilines := by unfold Team.setV; split <;> rfl
@[simp] theorem setV_fetching (t : Team) (r : Reg) (x : VReg) : (t.setV r x).fetching = t.fetching := by unfold Team.setV; split <;> rfl
@[simp] theorem setV_arrived (t : Team) (r : Reg) (x : VReg) : (t.setV r x).arrived = t.arrived := by unfold Team.setV; split <;> rfl
@[simp] theorem setV_syncAt (t : Team) (r : Reg) (x : VReg) : (t.setV r x).syncAt = t.syncAt := by unfold Team.setV; split <;> rfl
@[simp] theorem setV_owed (t : Team) (r : Reg) (x : VReg) : (t.setV r x).owed = t.owed := by unfold Team.setV; split <;> rfl
@[simp] theorem setV_abandon (t : Team) (r : Reg) (x : VReg) : (t.setV r x).abandon = t.abandon := by unfold Team.setV; split <;> rfl
@[simp] theorem setV_mset (t : Team) (r : Reg) (x : VReg) : (t.setV r x).mset = t.mset := by unfold Team.setV; split <;> rfl
@[simp] theorem setV_lset (t : Team) (r : Reg) (x : VReg) : (t.setV r x).lset = t.lset := by unfold Team.setV; split <;> rfl
@[simp] theorem setV_fenced (t : Team) (r : Reg) (x : VReg) : (t.setV r x).fenced = t.fenced := by unfold Team.setV; split <;> rfl
@[simp] theorem setV_pre (t : Team) (r : Reg) (x : VReg) : (t.setV r x).pre = t.pre := by unfold Team.setV; split <;> rfl
@[simp] theorem setV_fetchBad (t : Team) (r : Reg) (x : VReg) : (t.setV r x).fetchBad = t.fetchBad := by unfold Team.setV; split <;> rfl
@[simp] theorem setV_spq (t : Team) (r : Reg) (x : VReg) : (t.setV r x).spq = t.spq := by unfold Team.setV; split <;> rfl

/-! ### `Team.sk`: every field but the one it writes -/

@[simp] theorem sk_id (t : Team) (k : KReg) (m : Mask) : (t.sk k m).id = t.id := rfl
@[simp] theorem sk_core (t : Team) (k : KReg) (m : Mask) : (t.sk k m).core = t.core := rfl
@[simp] theorem sk_slot (t : Team) (k : KReg) (m : Mask) : (t.sk k m).slot = t.slot := rfl
@[simp] theorem sk_vbad (t : Team) (k : KReg) (m : Mask) : (t.sk k m).vbad = t.vbad := rfl
@[simp] theorem sk_claimed (t : Team) (k : KReg) (m : Mask) : (t.sk k m).claimed = t.claimed := rfl
@[simp] theorem sk_ahead (t : Team) (k : KReg) (m : Mask) : (t.sk k m).ahead = t.ahead := rfl
@[simp] theorem sk_part (t : Team) (k : KReg) (m : Mask) : (t.sk k m).part = t.part := rfl
@[simp] theorem sk_wg (t : Team) (k : KReg) (m : Mask) : (t.sk k m).wg = t.wg := rfl
@[simp] theorem sk_num (t : Team) (k : KReg) (m : Mask) : (t.sk k m).num = t.num := rfl
@[simp] theorem sk_width (t : Team) (k : KReg) (m : Mask) : (t.sk k m).width = t.width := rfl
@[simp] theorem sk_pc (t : Team) (k : KReg) (m : Mask) : (t.sk k m).pc = t.pc := rfl
@[simp] theorem sk_s (t : Team) (k : KReg) (m : Mask) : (t.sk k m).s = t.s := rfl
@[simp] theorem sk_v (t : Team) (k : KReg) (m : Mask) : (t.sk k m).v = t.v := rfl
@[simp] theorem sk_flags (t : Team) (k : KReg) (m : Mask) : (t.sk k m).flags = t.flags := rfl
@[simp] theorem sk_sig (t : Team) (k : KReg) (m : Mask) : (t.sk k m).sig = t.sig := rfl
@[simp] theorem sk_hint (t : Team) (k : KReg) (m : Mask) : (t.sk k m).hint = t.hint := rfl
@[simp] theorem sk_sigOn (t : Team) (k : KReg) (m : Mask) : (t.sk k m).sigOn = t.sigOn := rfl
@[simp] theorem sk_handler (t : Team) (k : KReg) (m : Mask) : (t.sk k m).handler = t.handler := rfl
@[simp] theorem sk_tr (t : Team) (k : KReg) (m : Mask) : (t.sk k m).tr = t.tr := rfl
@[simp] theorem sk_wdog (t : Team) (k : KReg) (m : Mask) : (t.sk k m).wdog = t.wdog := rfl
@[simp] theorem sk_atomU (t : Team) (k : KReg) (m : Mask) : (t.sk k m).atomU = t.atomU := rfl
@[simp] theorem sk_preempt (t : Team) (k : KReg) (m : Mask) : (t.sk k m).preempt = t.preempt := rfl
@[simp] theorem sk_records (t : Team) (k : KReg) (m : Mask) : (t.sk k m).records = t.records := rfl
@[simp] theorem sk_reexec (t : Team) (k : KReg) (m : Mask) : (t.sk k m).reexec = t.reexec := rfl
@[simp] theorem sk_mm (t : Team) (k : KReg) (m : Mask) : (t.sk k m).mm = t.mm := rfl
@[simp] theorem sk_c (t : Team) (k : KReg) (m : Mask) : (t.sk k m).c = t.c := rfl
@[simp] theorem sk_m (t : Team) (k : KReg) (m : Mask) : (t.sk k m).m = t.m := rfl
@[simp] theorem sk_l (t : Team) (k : KReg) (m : Mask) : (t.sk k m).l = t.l := rfl
@[simp] theorem sk_mcfg (t : Team) (k : KReg) (m : Mask) : (t.sk k m).mcfg = t.mcfg := rfl
@[simp] theorem sk_midx (t : Team) (k : KReg) (m : Mask) : (t.sk k m).midx = t.midx := rfl
@[simp] theorem sk_shape (t : Team) (k : KReg) (m : Mask) : (t.sk k m).shape = t.shape := rfl
@[simp] theorem sk_mflag (t : Team) (k : KReg) (m : Mask) : (t.sk k m).mflag = t.mflag := rfl
@[simp] theorem sk_lflag (t : Team) (k : KReg) (m : Mask) : (t.sk k m).lflag = t.lflag := rfl
@[simp] theorem sk_emberList (t : Team) (k : KReg) (m : Mask) : (t.sk k m).emberList = t.emberList := rfl
@[simp] theorem sk_status (t : Team) (k : KReg) (m : Mask) : (t.sk k m).status = t.status := rfl
@[simp] theorem sk_exited (t : Team) (k : KReg) (m : Mask) : (t.sk k m).exited = t.exited := rfl
@[simp] theorem sk_dead (t : Team) (k : KReg) (m : Mask) : (t.sk k m).dead = t.dead := rfl
@[simp] theorem sk_emu (t : Team) (k : KReg) (m : Mask) : (t.sk k m).emu = t.emu := rfl
@[simp] theorem sk_passed (t : Team) (k : KReg) (m : Mask) : (t.sk k m).passed = t.passed := rfl
@[simp] theorem sk_urgent (t : Team) (k : KReg) (m : Mask) : (t.sk k m).urgent = t.urgent := rfl
@[simp] theorem sk_hobSince (t : Team) (k : KReg) (m : Mask) : (t.sk k m).hobSince = t.hobSince := rfl
@[simp] theorem sk_readySince (t : Team) (k : KReg) (m : Mask) : (t.sk k m).readySince = t.readySince := rfl
@[simp] theorem sk_yielded (t : Team) (k : KReg) (m : Mask) : (t.sk k m).yielded = t.yielded := rfl
@[simp] theorem sk_busy (t : Team) (k : KReg) (m : Mask) : (t.sk k m).busy = t.busy := rfl
@[simp] theorem sk_haltWait (t : Team) (k : KReg) (m : Mask) : (t.sk k m).haltWait = t.haltWait := rfl
@[simp] theorem sk_haltedAt (t : Team) (k : KReg) (m : Mask) : (t.sk k m).haltedAt = t.haltedAt := rfl
@[simp] theorem sk_spilled (t : Team) (k : KReg) (m : Mask) : (t.sk k m).spilled = t.spilled := rfl
@[simp] theorem sk_ilines (t : Team) (k : KReg) (m : Mask) : (t.sk k m).ilines = t.ilines := rfl
@[simp] theorem sk_fetching (t : Team) (k : KReg) (m : Mask) : (t.sk k m).fetching = t.fetching := rfl
@[simp] theorem sk_arrived (t : Team) (k : KReg) (m : Mask) : (t.sk k m).arrived = t.arrived := rfl
@[simp] theorem sk_syncAt (t : Team) (k : KReg) (m : Mask) : (t.sk k m).syncAt = t.syncAt := rfl
@[simp] theorem sk_owed (t : Team) (k : KReg) (m : Mask) : (t.sk k m).owed = t.owed := rfl
@[simp] theorem sk_abandon (t : Team) (k : KReg) (m : Mask) : (t.sk k m).abandon = t.abandon := rfl
@[simp] theorem sk_mset (t : Team) (k : KReg) (m : Mask) : (t.sk k m).mset = t.mset := rfl
@[simp] theorem sk_lset (t : Team) (k : KReg) (m : Mask) : (t.sk k m).lset = t.lset := rfl
@[simp] theorem sk_fenced (t : Team) (k : KReg) (m : Mask) : (t.sk k m).fenced = t.fenced := rfl
@[simp] theorem sk_pre (t : Team) (k : KReg) (m : Mask) : (t.sk k m).pre = t.pre := rfl
@[simp] theorem sk_fetchBad (t : Team) (k : KReg) (m : Mask) : (t.sk k m).fetchBad = t.fetchBad := rfl
@[simp] theorem sk_spq (t : Team) (k : KReg) (m : Mask) : (t.sk k m).spq = t.spq := rfl

end Sys2Proof.Laws
end

