-- ==== Sys2Proof/Laws/Memory.lean ====
section
/-! SUPPORT. The byte store: every operation keeps its canonical form, and a read after a write (R3, R175); tables held as lists;
what a control register, a core or a home reads after an update. -/

namespace Sys2Proof.Laws
open Sys2Proof.Machine

/-! ## Memory -/

/-- A store in canonical form from an address is in it from any lower address. -/
theorem wfFrom_mono {m : Memory} {a b : Nat} (h : a ≤ b) (hm : Memory.wfFrom b m = true) : Memory.wfFrom a m = true := by
  cases m with
  | nil => rfl
  | cons c m => simp only [Memory.wfFrom, Bool.and_eq_true, decide_eq_true_eq] at hm ⊢; exact ⟨⟨le_trans h hm.1.1, hm.1.2⟩, hm.2⟩
/-- Below its first address a store in canonical form lists nothing. -/
theorem read_below {m : Memory} {a b : Nat} (h : a < b) (hm : Memory.wfFrom b m = true) : m.read a = 0 := by
  induction m generalizing b with
  | nil => rfl
  | cons c m ih =>
    simp only [Memory.wfFrom, Bool.and_eq_true, decide_eq_true_eq] at hm
    rw [Memory.read, if_neg (by omega)]
    exact ih (b := c.1 + 1) (by omega) hm.2
/-- A byte written keeps the canonical form. -/
theorem write_wfFrom {m : Memory} {lo a : Nat} (v : Byte) (h : lo ≤ a) (hm : Memory.wfFrom lo m = true) : Memory.wfFrom lo (m.write a v) = true := by
  induction m generalizing lo with
  | nil =>
    rw [Memory.write]
    by_cases hv : v = 0
    · rw [if_pos hv]; rfl
    · rw [if_neg hv]; simp [Memory.wfFrom, h]; exact hv
  | cons c m ih =>
    obtain ⟨b, w⟩ := c
    simp only [Memory.wfFrom, Bool.and_eq_true, decide_eq_true_eq, bne_iff_ne] at hm
    obtain ⟨⟨h1, h2⟩, h3⟩ := hm
    rw [Memory.write]
    by_cases hab : a < b
    · rw [if_pos hab]
      by_cases hv : v = 0
      · rw [if_pos hv]; simp [Memory.wfFrom, h1, h3]; exact h2
      · rw [if_neg hv]; simp [Memory.wfFrom, h, h3, Nat.succ_le_of_lt hab]; exact ⟨hv, h2⟩
    · rw [if_neg hab]
      by_cases he : a = b
      · rw [if_pos he]; subst he
        by_cases hv : v = 0
        · rw [if_pos hv]; exact wfFrom_mono (by omega) h3
        · rw [if_neg hv]; simp [Memory.wfFrom, h, h3]; exact hv
      · rw [if_neg he]; simp [Memory.wfFrom, h1, ih (lo := b + 1) (by omega) h3]; exact h2
/-- A byte written keeps the canonical form of a memory. -/
theorem write_wf {m : Memory} (a : Nat) (v : Byte) (hm : m.wf = true) : (m.write a v).wf = true := write_wfFrom v (Nat.zero_le a) hm
/-- Bytes written keep the canonical form of a memory. -/
theorem writeN_wf {m : Memory} (a : Nat) (bs : List Byte) (hm : m.wf = true) : (m.writeN a bs).wf = true := by
  induction bs generalizing m a with
  | nil => exact hm
  | cons b bs ih => exact ih (a + 1) (write_wf a b hm)
/-- A number written keeps the canonical form of a memory. -/
theorem writeNat_wf {m : Memory} (a n v : Nat) (hm : m.wf = true) : (m.writeNat a n v).wf = true := writeN_wf a _ hm
/-- A read after a write from a store in canonical form. -/
theorem read_write_from {m : Memory} {lo : Nat} (a b : Nat) (v : Byte) (hm : Memory.wfFrom lo m = true) :
    (m.write a v).read b = if b = a then v else m.read b := by
  induction m generalizing lo with
  | nil =>
    rw [Memory.write]
    by_cases hv : v = 0
    · rw [if_pos hv, hv]; simp [Memory.read]
    · rw [if_neg hv]; simp only [Memory.read]; by_cases h : b = a
      · rw [if_pos h, if_pos h.symm]
      · rw [if_neg h, if_neg (Ne.symm h)]
  | cons c m ih =>
    obtain ⟨x, w⟩ := c
    simp only [Memory.wfFrom, Bool.and_eq_true, decide_eq_true_eq] at hm
    have hx : ∀ y, y ≤ x → Memory.read m y = 0 := fun y hy => read_below (b := x + 1) (by omega) hm.2
    rw [Memory.write]
    by_cases h1 : a < x
    · rw [if_pos h1]
      by_cases hv : v = 0
      · rw [if_pos hv]
        by_cases h : b = a
        · subst h; rw [if_pos rfl, Memory.read, if_neg (by omega), hx _ (by omega), hv]
        · rw [if_neg h]
      · rw [if_neg hv, Memory.read]
        by_cases h : b = a
        · subst h; simp
        · rw [if_neg (Ne.symm h), if_neg h]
    · rw [if_neg h1]
      by_cases h2 : a = x
      · subst h2
        rw [if_pos rfl]
        by_cases hv : v = 0
        · rw [if_pos hv]
          by_cases h : b = a
          · subst h; rw [if_pos rfl, hx _ (le_refl _), hv]
          · rw [if_neg h, Memory.read, if_neg (Ne.symm h)]
        · rw [if_neg hv, Memory.read, Memory.read]
          by_cases h : b = a
          · subst h; simp
          · rw [if_neg (Ne.symm h), if_neg (Ne.symm h), if_neg h]
      · rw [if_neg h2, Memory.read, Memory.read, ih hm.2]
        by_cases h : x = b
        · subst h; rw [if_pos rfl, if_neg (Ne.symm h2), if_pos rfl]
        · rw [if_neg h, if_neg h]
/-- A read after a write: the byte written there, and every other byte as before. -/
theorem read_write {m : Memory} (a b : Nat) (v : Byte) (hm : m.wf = true) : (m.write a v).read b = if b = a then v else m.read b :=
  read_write_from a b v hm

/-! ## Tables -/

/-- A table reads what was set. -/
@[simp] theorem alGet_alSet_same {α β : Type} [DecidableEq α] (d : β) (k : α) (v : β) (l : List (α × β)) : alGet d k (alSet k v l) = v := by
  induction l with
  | nil => simp [alSet, alGet]
  | cons x l ih => obtain ⟨a, b⟩ := x; by_cases h : a = k <;> simp [alSet, alGet, h, ih]
/-- Setting one key leaves the others. -/
theorem alGet_alSet_ne {α β : Type} [DecidableEq α] (d : β) {k j : α} (v : β) (l : List (α × β)) (h : j ≠ k) : alGet d j (alSet k v l) = alGet d j l := by
  induction l with
  | nil => simp [alSet, alGet, Ne.symm h]
  | cons x l ih =>
    obtain ⟨a, b⟩ := x
    by_cases ha : a = k
    · subst ha; simp [alSet, alGet, Ne.symm h]
    · simp only [alSet, if_neg ha, alGet, ih]

/-- A control register reads what was stored. -/
@[simp] theorem ctlRaw_ctlPut_same (r : CtlReg) (v : W64) (s : State) : ctlRaw r (ctlPut r v s) = v := alGet_alSet_same _ _ _ _
/-- Storing one control register leaves the others. -/
theorem ctlRaw_ctlPut_ne {r r' : CtlReg} (v : W64) (s : State) (h : r' ≠ r) : ctlRaw r' (ctlPut r v s) = ctlRaw r' s := alGet_alSet_ne _ _ _ h
/-- A core reads what was stored. -/
@[simp] theorem coreOf_modCore_same (n : Nat) (f : Core → Core) (s : State) : coreOf n (modCore n f s) = f (coreOf n s) := alGet_alSet_same _ _ _ _
/-- Changing one core leaves the others. -/
theorem coreOf_modCore_ne {n m : Nat} (f : Core → Core) (s : State) (h : m ≠ n) : coreOf m (modCore n f s) = coreOf m s := alGet_alSet_ne _ _ _ h
/-- A home reads what was stored. -/
@[simp] theorem homeOf_modHome_same (n : Nat) (f : Home → Home) (s : State) : homeOf n (modHome n f s) = f (homeOf n s) := alGet_alSet_same _ _ _ _
/-- Changing one home leaves the others. -/
theorem homeOf_modHome_ne {n m : Nat} (f : Home → Home) (s : State) (h : m ≠ n) : homeOf m (modHome n f s) = homeOf m s := alGet_alSet_ne _ _ _ h
/-- A QIF reads what was stored. -/
@[simp] theorem qifOf_modQif_same (n : Nat) (f : Qif → Qif) (s : State) : qifOf n (modQif n f s) = f (qifOf n s) := alGet_alSet_same _ _ _ _
/-- A partition reads what was stored. -/
@[simp] theorem partOf_modPart_same (n : Nat) (f : Part → Part) (s : State) : partOf n (modPart n f s) = f (partOf n s) := alGet_alSet_same _ _ _ _
/-- A cluster reads what was stored. -/
@[simp] theorem clusterOf_modCluster_same (n : Nat) (f : Cluster → Cluster) (s : State) : clusterOf n (modCluster n f s) = f (clusterOf n s) := alGet_alSet_same _ _ _ _
/-- A port reads what was stored. -/
@[simp] theorem portOf_modPort_same (n : Nat) (f : Port → Port) (s : State) : portOf n (modPort n f s) = f (portOf n s) := alGet_alSet_same _ _ _ _

/-! ## Registers of a team -/

/-- A scalar register other than s0 reads what was written. -/
theorem gs_ss_same (t : Team) (r : Reg) (v : W64) (h : r ≠ 0) : (t.ss r v).gs r = v := by
  simp [Team.ss, Team.setS, Team.gs, h]
/-- Writing one scalar register leaves the others. -/
theorem gs_ss_ne (t : Team) {r q : Reg} (v : W64) (h : q ≠ r) : (t.ss r v).gs q = t.gs q := by
  have hv : r.val ≠ q.val := fun e => h (Fin.ext e.symm)
  unfold Team.ss Team.setS Team.gs
  by_cases h0 : r = 0
  · rw [if_pos h0]
  · rw [if_neg h0]; by_cases hq : q = 0
    · simp [hq]
    · simp [hq, Vector.getElem_set_ne _ _ hv]
/-- s0 discards what is written to it (R103). -/
@[simp] theorem ss_zero (t : Team) (v : W64) : t.ss 0 v = t := rfl
/-- s0 reads as zero (R103). -/
@[simp] theorem gs_zero (t : Team) : t.gs 0 = 0 := rfl

end Sys2Proof.Laws
end

