-- ==== Sys2Proof/Laws/PerInstr.lean ====
section
/-! SUPPORT. The statements made for every instruction, one lemma for each constructor of `Instr`. Family `Encodes`: a well-formed
instruction's word lies below 2^32 and decodes to it (R250 to R275); a step of the module has no word. -/

-- Proofs are checked one after another: checked side by side, their threads need more memory than a build has.
set_option Elab.async false
set_option linter.unusedSimpArgs false

namespace Sys2Proof.Laws.Encodes
open Sys2Proof Sys2Proof.Laws

/-- The word of a well-formed instruction decodes to that instruction. -/
def Statement (i : Instr) : Prop := i.wf = true → ∀ w, encode i = some w → w < 2 ^ 32 ∧ decode w = .ok i


theorem sadd (d a b : Reg) (ta tb : Bool) : Statement (Instr.sadd d a b ta tb) := by
  intro hw v h
  have A := isA (by decide) (by decide) h
  refine ⟨A.lt, ?_⟩
  rw [dec_scalar A.maj]; simp [decScalar, A.low, A.d, A.a, A.b, A.ta, A.tb, keepWf, keep, withK, hw]
theorem ssub (d a b : Reg) (ta tb : Bool) : Statement (Instr.ssub d a b ta tb) := by
  intro hw v h
  have A := isA (by decide) (by decide) h
  refine ⟨A.lt, ?_⟩
  rw [dec_scalar A.maj]; simp [decScalar, A.low, A.d, A.a, A.b, A.ta, A.tb, keepWf, keep, withK, hw]
theorem smul (d a b : Reg) (ta tb : Bool) : Statement (Instr.smul d a b ta tb) := by
  intro hw v h
  have A := isA (by decide) (by decide) h
  refine ⟨A.lt, ?_⟩
  rw [dec_scalar A.maj]; simp [decScalar, A.low, A.d, A.a, A.b, A.ta, A.tb, keepWf, keep, withK, hw]
theorem smulhI64 (d a b : Reg) (ta tb : Bool) : Statement (Instr.smulhI64 d a b ta tb) := by
  intro hw v h
  have A := isA (by decide) (by decide) h
  refine ⟨A.lt, ?_⟩
  rw [dec_scalar A.maj]; simp [decScalar, A.low, A.d, A.a, A.b, A.ta, A.tb, keepWf, keep, withK, hw]
theorem smulhN64 (d a b : Reg) (ta tb : Bool) : Statement (Instr.smulhN64 d a b ta tb) := by
  intro hw v h
  have A := isA (by decide) (by decide) h
  refine ⟨A.lt, ?_⟩
  rw [dec_scalar A.maj]; simp [decScalar, A.low, A.d, A.a, A.b, A.ta, A.tb, keepWf, keep, withK, hw]
theorem sdivI64 (d a b : Reg) (ta tb : Bool) : Statement (Instr.sdivI64 d a b ta tb) := by
  intro hw v h
  have A := isA (by decide) (by decide) h
  refine ⟨A.lt, ?_⟩
  rw [dec_scalar A.maj]; simp [decScalar, A.low, A.d, A.a, A.b, A.ta, A.tb, keepWf, keep, withK, hw]
theorem sdivN64 (d a b : Reg) (ta tb : Bool) : Statement (Instr.sdivN64 d a b ta tb) := by
  intro hw v h
  have A := isA (by decide) (by decide) h
  refine ⟨A.lt, ?_⟩
  rw [dec_scalar A.maj]; simp [decScalar, A.low, A.d, A.a, A.b, A.ta, A.tb, keepWf, keep, withK, hw]
theorem sremI64 (d a b : Reg) (ta tb : Bool) : Statement (Instr.sremI64 d a b ta tb) := by
  intro hw v h
  have A := isA (by decide) (by decide) h
  refine ⟨A.lt, ?_⟩
  rw [dec_scalar A.maj]; simp [decScalar, A.low, A.d, A.a, A.b, A.ta, A.tb, keepWf, keep, withK, hw]
theorem sremN64 (d a b : Reg) (ta tb : Bool) : Statement (Instr.sremN64 d a b ta tb) := by
  intro hw v h
  have A := isA (by decide) (by decide) h
  refine ⟨A.lt, ?_⟩
  rw [dec_scalar A.maj]; simp [decScalar, A.low, A.d, A.a, A.b, A.ta, A.tb, keepWf, keep, withK, hw]
theorem sand (d a b : Reg) (ta tb : Bool) : Statement (Instr.sand d a b ta tb) := by
  intro hw v h
  have A := isA (by decide) (by decide) h
  refine ⟨A.lt, ?_⟩
  rw [dec_scalar A.maj]; simp [decScalar, A.low, A.d, A.a, A.b, A.ta, A.tb, keepWf, keep, withK, hw]
theorem sor (d a b : Reg) (ta tb : Bool) : Statement (Instr.sor d a b ta tb) := by
  intro hw v h
  have A := isA (by decide) (by decide) h
  refine ⟨A.lt, ?_⟩
  rw [dec_scalar A.maj]; simp [decScalar, A.low, A.d, A.a, A.b, A.ta, A.tb, keepWf, keep, withK, hw]
theorem sxor (d a b : Reg) (ta tb : Bool) : Statement (Instr.sxor d a b ta tb) := by
  intro hw v h
  have A := isA (by decide) (by decide) h
  refine ⟨A.lt, ?_⟩
  rw [dec_scalar A.maj]; simp [decScalar, A.low, A.d, A.a, A.b, A.ta, A.tb, keepWf, keep, withK, hw]
theorem sandn (d a b : Reg) (ta tb : Bool) : Statement (Instr.sandn d a b ta tb) := by
  intro hw v h
  have A := isA (by decide) (by decide) h
  refine ⟨A.lt, ?_⟩
  rw [dec_scalar A.maj]; simp [decScalar, A.low, A.d, A.a, A.b, A.ta, A.tb, keepWf, keep, withK, hw]
theorem sshl (d a b : Reg) (ta tb : Bool) : Statement (Instr.sshl d a b ta tb) := by
  intro hw v h
  have A := isA (by decide) (by decide) h
  refine ⟨A.lt, ?_⟩
  rw [dec_scalar A.maj]; simp [decScalar, A.low, A.d, A.a, A.b, A.ta, A.tb, keepWf, keep, withK, hw]
theorem sshr (d a b : Reg) (ta tb : Bool) : Statement (Instr.sshr d a b ta tb) := by
  intro hw v h
  have A := isA (by decide) (by decide) h
  refine ⟨A.lt, ?_⟩
  rw [dec_scalar A.maj]; simp [decScalar, A.low, A.d, A.a, A.b, A.ta, A.tb, keepWf, keep, withK, hw]
theorem ssra (d a b : Reg) (ta tb : Bool) : Statement (Instr.ssra d a b ta tb) := by
  intro hw v h
  have A := isA (by decide) (by decide) h
  refine ⟨A.lt, ?_⟩
  rw [dec_scalar A.maj]; simp [decScalar, A.low, A.d, A.a, A.b, A.ta, A.tb, keepWf, keep, withK, hw]
theorem sminI64 (d a b : Reg) (ta tb : Bool) : Statement (Instr.sminI64 d a b ta tb) := by
  intro hw v h
  have A := isA (by decide) (by decide) h
  refine ⟨A.lt, ?_⟩
  rw [dec_scalar A.maj]; simp [decScalar, A.low, A.d, A.a, A.b, A.ta, A.tb, keepWf, keep, withK, hw]
theorem sminN64 (d a b : Reg) (ta tb : Bool) : Statement (Instr.sminN64 d a b ta tb) := by
  intro hw v h
  have A := isA (by decide) (by decide) h
  refine ⟨A.lt, ?_⟩
  rw [dec_scalar A.maj]; simp [decScalar, A.low, A.d, A.a, A.b, A.ta, A.tb, keepWf, keep, withK, hw]
theorem smaxI64 (d a b : Reg) (ta tb : Bool) : Statement (Instr.smaxI64 d a b ta tb) := by
  intro hw v h
  have A := isA (by decide) (by decide) h
  refine ⟨A.lt, ?_⟩
  rw [dec_scalar A.maj]; simp [decScalar, A.low, A.d, A.a, A.b, A.ta, A.tb, keepWf, keep, withK, hw]
theorem smaxN64 (d a b : Reg) (ta tb : Bool) : Statement (Instr.smaxN64 d a b ta tb) := by
  intro hw v h
  have A := isA (by decide) (by decide) h
  refine ⟨A.lt, ?_⟩
  rw [dec_scalar A.maj]; simp [decScalar, A.low, A.d, A.a, A.b, A.ta, A.tb, keepWf, keep, withK, hw]
theorem sclz (d a : Reg) (ta : Bool) : Statement (Instr.sclz d a ta) := by
  intro hw v h
  have A := isA (by decide) (by decide) h
  refine ⟨A.lt, ?_⟩
  rw [dec_scalar A.maj]; simp [decScalar, A.low, A.d, A.a, A.b, A.ta, A.tb, keepWf, keep, withK, hw]
theorem sctz (d a : Reg) (ta : Bool) : Statement (Instr.sctz d a ta) := by
  intro hw v h
  have A := isA (by decide) (by decide) h
  refine ⟨A.lt, ?_⟩
  rw [dec_scalar A.maj]; simp [decScalar, A.low, A.d, A.a, A.b, A.ta, A.tb, keepWf, keep, withK, hw]
theorem spopc (d a : Reg) (ta : Bool) : Statement (Instr.spopc d a ta) := by
  intro hw v h
  have A := isA (by decide) (by decide) h
  refine ⟨A.lt, ?_⟩
  rw [dec_scalar A.maj]; simp [decScalar, A.low, A.d, A.a, A.b, A.ta, A.tb, keepWf, keep, withK, hw]
theorem smov (d a : Reg) (ta : Bool) : Statement (Instr.smov d a ta) := by
  intro hw v h
  have A := isA (by decide) (by decide) h
  refine ⟨A.lt, ?_⟩
  rw [dec_scalar A.maj]; simp [decScalar, A.low, A.d, A.a, A.b, A.ta, A.tb, keepWf, keep, withK, hw]
theorem ssel (d a b : Reg) (ta tb : Bool) : Statement (Instr.ssel d a b ta tb) := by
  intro hw v h
  have A := isA (by decide) (by decide) h
  refine ⟨A.lt, ?_⟩
  rw [dec_scalar A.maj]; simp [decScalar, A.low, A.d, A.a, A.b, A.ta, A.tb, keepWf, keep, withK, hw]
theorem sbfxI64 (d a b : Reg) (ta tb : Bool) : Statement (Instr.sbfxI64 d a b ta tb) := by
  intro hw v h
  have A := isA (by decide) (by decide) h
  refine ⟨A.lt, ?_⟩
  rw [dec_scalar A.maj]; simp [decScalar, A.low, A.d, A.a, A.b, A.ta, A.tb, keepWf, keep, withK, hw]
theorem sbfxN64 (d a b : Reg) (ta tb : Bool) : Statement (Instr.sbfxN64 d a b ta tb) := by
  intro hw v h
  have A := isA (by decide) (by decide) h
  refine ⟨A.lt, ?_⟩
  rw [dec_scalar A.maj]; simp [decScalar, A.low, A.d, A.a, A.b, A.ta, A.tb, keepWf, keep, withK, hw]
theorem sbfi (d a b : Reg) (ta tb : Bool) : Statement (Instr.sbfi d a b ta tb) := by
  intro hw v h
  have A := isA (by decide) (by decide) h
  refine ⟨A.lt, ?_⟩
  rw [dec_scalar A.maj]; simp [decScalar, A.low, A.d, A.a, A.b, A.ta, A.tb, keepWf, keep, withK, hw]
theorem scmp (c : Cmp) (d a b : Reg) (ta tb : Bool) : Statement (Instr.scmp c d a b ta tb) := by
  intro hw v h
  have hl : 32 + c.code < 64 := by cases c <;> decide
  have A := isA (by decide) hl h
  refine ⟨A.lt, ?_⟩
  rw [dec_scalar A.maj]; cases c <;> simp [decScalar, A.low, A.d, A.a, A.b, A.ta, A.tb, keepWf, keep, withK, hw, Cmp.code]
theorem saddi (d a : Reg) (ta : Bool) (i : BitVec 13) : Statement (Instr.saddi d a ta i) := by
  intro hw v h
  have A := isB (by decide) i.isLt h
  refine ⟨A.lt, ?_⟩
  rw [dec_imm (by decide) A.maj]; simp [decImm, A.d, A.a, A.ta, A.imm, keepWf, keep, withK, hw]
theorem sandi (d a : Reg) (ta : Bool) (i : BitVec 13) : Statement (Instr.sandi d a ta i) := by
  intro hw v h
  have A := isB (by decide) i.isLt h
  refine ⟨A.lt, ?_⟩
  rw [dec_imm (by decide) A.maj]; simp [decImm, A.d, A.a, A.ta, A.imm, keepWf, keep, withK, hw]
theorem sori (d a : Reg) (ta : Bool) (i : BitVec 13) : Statement (Instr.sori d a ta i) := by
  intro hw v h
  have A := isB (by decide) i.isLt h
  refine ⟨A.lt, ?_⟩
  rw [dec_imm (by decide) A.maj]; simp [decImm, A.d, A.a, A.ta, A.imm, keepWf, keep, withK, hw]
theorem sxori (d a : Reg) (ta : Bool) (i : BitVec 13) : Statement (Instr.sxori d a ta i) := by
  intro hw v h
  have A := isB (by decide) i.isLt h
  refine ⟨A.lt, ?_⟩
  rw [dec_imm (by decide) A.maj]; simp [decImm, A.d, A.a, A.ta, A.imm, keepWf, keep, withK, hw]
theorem sshli (d a : Reg) (ta : Bool) (c : Fin 64) : Statement (Instr.sshli d a ta c) := by
  intro hw v h
  have A := isB (by decide) (by have := c.isLt; omega) h
  refine ⟨A.lt, ?_⟩
  rw [dec_imm (by decide) A.maj]; simp [decImm, A.d, A.a, A.ta, A.count.1, A.count.2, keepWf, keep, withK, hw]
theorem sshri (d a : Reg) (ta : Bool) (c : Fin 64) : Statement (Instr.sshri d a ta c) := by
  intro hw v h
  have A := isB (by decide) (by have := c.isLt; omega) h
  refine ⟨A.lt, ?_⟩
  rw [dec_imm (by decide) A.maj]; simp [decImm, A.d, A.a, A.ta, A.count.1, A.count.2, keepWf, keep, withK, hw]
theorem ssrai (d a : Reg) (ta : Bool) (c : Fin 64) : Statement (Instr.ssrai d a ta c) := by
  intro hw v h
  have A := isB (by decide) (by have := c.isLt; omega) h
  refine ⟨A.lt, ?_⟩
  rw [dec_imm (by decide) A.maj]; simp [decImm, A.d, A.a, A.ta, A.count.1, A.count.2, keepWf, keep, withK, hw]
theorem smovi (d : Reg) (i : BitVec 13) : Statement (Instr.smovi d i) := by
  intro hw v h
  have A := isB (by decide) i.isLt h
  refine ⟨A.lt, ?_⟩
  rw [dec_imm (by decide) A.maj]; simp [decImm, A.d, A.a, A.ta, A.imm, keepWf, keep, withK, hw]
theorem smovSpecial (d : Reg) (x : Special) : Statement (Instr.smovSpecial d x) := by
  intro hw v h
  have A := isB (by decide) (by cases x <;> decide) h
  refine ⟨A.lt, ?_⟩
  rw [dec_imm (by decide) A.maj]; simp [decImm, A.d, A.a, A.ta, A.special, keepWf, keep, withK, hw]
theorem vadd (w : Bool) (d a b : Reg) (ta tb : Bool) : Statement (Instr.vadd w d a b ta tb) := by
  intro hw v h
  have A := isA (majV_lt w) (by decide) h
  refine ⟨A.lt, ?_⟩
  rw [dec_vecInt w A.maj]; simp [decVecInt, A.low, A.d, A.a, A.b, A.ta, A.tb, keepWf, keep, withK, hw]
theorem vsub (w : Bool) (d a b : Reg) (ta tb : Bool) : Statement (Instr.vsub w d a b ta tb) := by
  intro hw v h
  have A := isA (majV_lt w) (by decide) h
  refine ⟨A.lt, ?_⟩
  rw [dec_vecInt w A.maj]; simp [decVecInt, A.low, A.d, A.a, A.b, A.ta, A.tb, keepWf, keep, withK, hw]
theorem vmul (w : Bool) (d a b : Reg) (ta tb : Bool) : Statement (Instr.vmul w d a b ta tb) := by
  intro hw v h
  have A := isA (majV_lt w) (by decide) h
  refine ⟨A.lt, ?_⟩
  rw [dec_vecInt w A.maj]; simp [decVecInt, A.low, A.d, A.a, A.b, A.ta, A.tb, keepWf, keep, withK, hw]
theorem vmulhI (w : Bool) (d a b : Reg) (ta tb : Bool) : Statement (Instr.vmulhI w d a b ta tb) := by
  intro hw v h
  have A := isA (majV_lt w) (by decide) h
  refine ⟨A.lt, ?_⟩
  rw [dec_vecInt w A.maj]; simp [decVecInt, A.low, A.d, A.a, A.b, A.ta, A.tb, keepWf, keep, withK, hw]
theorem vmulhN (w : Bool) (d a b : Reg) (ta tb : Bool) : Statement (Instr.vmulhN w d a b ta tb) := by
  intro hw v h
  have A := isA (majV_lt w) (by decide) h
  refine ⟨A.lt, ?_⟩
  rw [dec_vecInt w A.maj]; simp [decVecInt, A.low, A.d, A.a, A.b, A.ta, A.tb, keepWf, keep, withK, hw]
theorem vmad (w : Bool) (d a b : Reg) (ta tb : Bool) : Statement (Instr.vmad w d a b ta tb) := by
  intro hw v h
  have A := isA (majV_lt w) (by decide) h
  refine ⟨A.lt, ?_⟩
  rw [dec_vecInt w A.maj]; simp [decVecInt, A.low, A.d, A.a, A.b, A.ta, A.tb, keepWf, keep, withK, hw]
theorem vand (w : Bool) (d a b : Reg) (ta tb : Bool) : Statement (Instr.vand w d a b ta tb) := by
  intro hw v h
  have A := isA (majV_lt w) (by decide) h
  refine ⟨A.lt, ?_⟩
  rw [dec_vecInt w A.maj]; simp [decVecInt, A.low, A.d, A.a, A.b, A.ta, A.tb, keepWf, keep, withK, hw]
theorem vor (w : Bool) (d a b : Reg) (ta tb : Bool) : Statement (Instr.vor w d a b ta tb) := by
  intro hw v h
  have A := isA (majV_lt w) (by decide) h
  refine ⟨A.lt, ?_⟩
  rw [dec_vecInt w A.maj]; simp [decVecInt, A.low, A.d, A.a, A.b, A.ta, A.tb, keepWf, keep, withK, hw]
theorem vxor (w : Bool) (d a b : Reg) (ta tb : Bool) : Statement (Instr.vxor w d a b ta tb) := by
  intro hw v h
  have A := isA (majV_lt w) (by decide) h
  refine ⟨A.lt, ?_⟩
  rw [dec_vecInt w A.maj]; simp [decVecInt, A.low, A.d, A.a, A.b, A.ta, A.tb, keepWf, keep, withK, hw]
theorem vandn (w : Bool) (d a b : Reg) (ta tb : Bool) : Statement (Instr.vandn w d a b ta tb) := by
  intro hw v h
  have A := isA (majV_lt w) (by decide) h
  refine ⟨A.lt, ?_⟩
  rw [dec_vecInt w A.maj]; simp [decVecInt, A.low, A.d, A.a, A.b, A.ta, A.tb, keepWf, keep, withK, hw]
theorem vshl (w : Bool) (d a b : Reg) (ta tb : Bool) : Statement (Instr.vshl w d a b ta tb) := by
  intro hw v h
  have A := isA (majV_lt w) (by decide) h
  refine ⟨A.lt, ?_⟩
  rw [dec_vecInt w A.maj]; simp [decVecInt, A.low, A.d, A.a, A.b, A.ta, A.tb, keepWf, keep, withK, hw]
theorem vshr (w : Bool) (d a b : Reg) (ta tb : Bool) : Statement (Instr.vshr w d a b ta tb) := by
  intro hw v h
  have A := isA (majV_lt w) (by decide) h
  refine ⟨A.lt, ?_⟩
  rw [dec_vecInt w A.maj]; simp [decVecInt, A.low, A.d, A.a, A.b, A.ta, A.tb, keepWf, keep, withK, hw]
theorem vsra (w : Bool) (d a b : Reg) (ta tb : Bool) : Statement (Instr.vsra w d a b ta tb) := by
  intro hw v h
  have A := isA (majV_lt w) (by decide) h
  refine ⟨A.lt, ?_⟩
  rw [dec_vecInt w A.maj]; simp [decVecInt, A.low, A.d, A.a, A.b, A.ta, A.tb, keepWf, keep, withK, hw]
theorem vminI (w : Bool) (d a b : Reg) (ta tb : Bool) : Statement (Instr.vminI w d a b ta tb) := by
  intro hw v h
  have A := isA (majV_lt w) (by decide) h
  refine ⟨A.lt, ?_⟩
  rw [dec_vecInt w A.maj]; simp [decVecInt, A.low, A.d, A.a, A.b, A.ta, A.tb, keepWf, keep, withK, hw]
theorem vminN (w : Bool) (d a b : Reg) (ta tb : Bool) : Statement (Instr.vminN w d a b ta tb) := by
  intro hw v h
  have A := isA (majV_lt w) (by decide) h
  refine ⟨A.lt, ?_⟩
  rw [dec_vecInt w A.maj]; simp [decVecInt, A.low, A.d, A.a, A.b, A.ta, A.tb, keepWf, keep, withK, hw]
theorem vmaxI (w : Bool) (d a b : Reg) (ta tb : Bool) : Statement (Instr.vmaxI w d a b ta tb) := by
  intro hw v h
  have A := isA (majV_lt w) (by decide) h
  refine ⟨A.lt, ?_⟩
  rw [dec_vecInt w A.maj]; simp [decVecInt, A.low, A.d, A.a, A.b, A.ta, A.tb, keepWf, keep, withK, hw]
theorem vmaxN (w : Bool) (d a b : Reg) (ta tb : Bool) : Statement (Instr.vmaxN w d a b ta tb) := by
  intro hw v h
  have A := isA (majV_lt w) (by decide) h
  refine ⟨A.lt, ?_⟩
  rw [dec_vecInt w A.maj]; simp [decVecInt, A.low, A.d, A.a, A.b, A.ta, A.tb, keepWf, keep, withK, hw]
theorem vabs (w : Bool) (d a : Reg) (ta : Bool) : Statement (Instr.vabs w d a ta) := by
  intro hw v h
  have A := isA (majV_lt w) (by decide) h
  refine ⟨A.lt, ?_⟩
  rw [dec_vecInt w A.maj]; simp [decVecInt, A.low, A.d, A.a, A.b, A.ta, A.tb, keepWf, keep, withK, hw]
theorem vclz (w : Bool) (d a : Reg) (ta : Bool) : Statement (Instr.vclz w d a ta) := by
  intro hw v h
  have A := isA (majV_lt w) (by decide) h
  refine ⟨A.lt, ?_⟩
  rw [dec_vecInt w A.maj]; simp [decVecInt, A.low, A.d, A.a, A.b, A.ta, A.tb, keepWf, keep, withK, hw]
theorem vpopc (w : Bool) (d a : Reg) (ta : Bool) : Statement (Instr.vpopc w d a ta) := by
  intro hw v h
  have A := isA (majV_lt w) (by decide) h
  refine ⟨A.lt, ?_⟩
  rw [dec_vecInt w A.maj]; simp [decVecInt, A.low, A.d, A.a, A.b, A.ta, A.tb, keepWf, keep, withK, hw]
theorem vmov (w : Bool) (d a : Reg) (ta : Bool) : Statement (Instr.vmov w d a ta) := by
  intro hw v h
  have A := isA (majV_lt w) (by decide) h
  refine ⟨A.lt, ?_⟩
  rw [dec_vecInt w A.maj]; simp [decVecInt, A.low, A.d, A.a, A.b, A.ta, A.tb, keepWf, keep, withK, hw]
theorem vsel (w : Bool) (d a b : Reg) (ta tb : Bool) : Statement (Instr.vsel w d a b ta tb) := by
  intro hw v h
  have A := isA (majV_lt w) (by decide) h
  refine ⟨A.lt, ?_⟩
  rw [dec_vecInt w A.maj]; simp [decVecInt, A.low, A.d, A.a, A.b, A.ta, A.tb, keepWf, keep, withK, hw]
theorem vcmp (c : Cmp) (w : Bool) (d : KReg) (a b : Reg) (ta tb : Bool) : Statement (Instr.vcmp c w d a b ta tb) := by
  intro hw v h
  have hl : 32 + c.code < 64 := by cases c <;> decide
  have A := isA (majV_lt w) hl h
  refine ⟨A.lt, ?_⟩
  rw [dec_vecInt w A.maj]; cases c <;> simp [decVecInt, A.low, A.d, A.a, A.b, A.ta, A.tb, keepWf, keep, withK, hw, Cmp.code]
theorem vaddi (d a : Reg) (ta : Bool) (i : BitVec 13) : Statement (Instr.vaddi d a ta i) := by
  intro hw v h
  have A := isB (by decide) i.isLt h
  refine ⟨A.lt, ?_⟩
  rw [dec_imm (by decide) A.maj]; simp [decImm, A.d, A.a, A.ta, A.imm, keepWf, keep, withK, hw]
theorem vcvt (dst src : IType) (d a : Reg) (ta : Bool) : Statement (Instr.vcvt dst src d a ta) := by
  intro hw v h
  have hl : dst.code * 8 + src.code < 64 := by cases dst <;> cases src <;> decide
  have h1 : fldN (dst.code * 8 + src.code) 3 3 = dst.code := by cases dst <;> cases src <;> decide
  have h2 : fldN (dst.code * 8 + src.code) 0 3 = src.code := by cases dst <;> cases src <;> decide
  have A := isA (by decide) hl h
  refine ⟨A.lt, ?_⟩
  rw [dec_vcvt A.maj]; simp [decVcvt, A.low, A.d, A.a, A.b, A.ta, A.tb, A.n, h1, h2, keepWf, keep, withK, hw]
theorem vbcastB32 (d a : Reg) (ta : Bool) : Statement (Instr.vbcastB32 d a ta) := by
  intro hw v h
  have A := isA (by decide) (by decide) h
  refine ⟨A.lt, ?_⟩
  rw [dec_bcast A.maj]; simp [decBcast, A.low, A.d, A.a, A.b, A.ta, A.tb, keepWf, keep, withK, hw]
theorem vlane (d : Reg) : Statement (Instr.vlane d) := by
  intro hw v h
  have A := isA (by decide) (by decide) h
  refine ⟨A.lt, ?_⟩
  rw [dec_bcast A.maj]; simp [decBcast, A.low, A.d, A.a, A.b, A.ta, A.tb, keepWf, keep, withK, hw]
theorem vpackB16 (d a b : Reg) (ta tb : Bool) : Statement (Instr.vpackB16 d a b ta tb) := by
  intro hw v h
  have A := isA (by decide) (by decide) h
  refine ⟨A.lt, ?_⟩
  rw [dec_bcast A.maj]; simp [decBcast, A.low, A.d, A.a, A.b, A.ta, A.tb, keepWf, keep, withK, hw]
theorem vpackB8 (d a b : Reg) (ta tb : Bool) : Statement (Instr.vpackB8 d a b ta tb) := by
  intro hw v h
  have A := isA (by decide) (by decide) h
  refine ⟨A.lt, ?_⟩
  rw [dec_bcast A.maj]; simp [decBcast, A.low, A.d, A.a, A.b, A.ta, A.tb, keepWf, keep, withK, hw]
theorem vunpackB16 (d a b : Reg) (ta tb : Bool) : Statement (Instr.vunpackB16 d a b ta tb) := by
  intro hw v h
  have A := isA (by decide) (by decide) h
  refine ⟨A.lt, ?_⟩
  rw [dec_bcast A.maj]; simp [decBcast, A.low, A.d, A.a, A.b, A.ta, A.tb, keepWf, keep, withK, hw]
theorem vunpackB8 (d a b : Reg) (ta tb : Bool) : Statement (Instr.vunpackB8 d a b ta tb) := by
  intro hw v h
  have A := isA (by decide) (by decide) h
  refine ⟨A.lt, ?_⟩
  rw [dec_bcast A.maj]; simp [decBcast, A.low, A.d, A.a, A.b, A.ta, A.tb, keepWf, keep, withK, hw]
theorem vbcastB64 (d a : Reg) (ta : Bool) : Statement (Instr.vbcastB64 d a ta) := by
  intro hw v h
  have A := isA (by decide) (by decide) h
  refine ⟨A.lt, ?_⟩
  rw [dec_bcast A.maj]; simp [decBcast, A.low, A.d, A.a, A.b, A.ta, A.tb, keepWf, keep, withK, hw]
theorem kmov (d : KReg) (a : KF) : Statement (Instr.kmov d a) := by
  intro hw v h
  have A := isA (by decide) (by decide) h
  refine ⟨A.lt, ?_⟩
  rw [dec_mask A.maj]; simp [decMask, A.low, A.d, A.a, A.b, A.ta, A.tb, keepWf, keep, withK, hw]
theorem kand (d : KReg) (a b : KF) : Statement (Instr.kand d a b) := by
  intro hw v h
  have A := isA (by decide) (by decide) h
  refine ⟨A.lt, ?_⟩
  rw [dec_mask A.maj]; simp [decMask, A.low, A.d, A.a, A.b, A.ta, A.tb, keepWf, keep, withK, hw]
theorem kor (d : KReg) (a b : KF) : Statement (Instr.kor d a b) := by
  intro hw v h
  have A := isA (by decide) (by decide) h
  refine ⟨A.lt, ?_⟩
  rw [dec_mask A.maj]; simp [decMask, A.low, A.d, A.a, A.b, A.ta, A.tb, keepWf, keep, withK, hw]
theorem kxor (d : KReg) (a b : KF) : Statement (Instr.kxor d a b) := by
  intro hw v h
  have A := isA (by decide) (by decide) h
  refine ⟨A.lt, ?_⟩
  rw [dec_mask A.maj]; simp [decMask, A.low, A.d, A.a, A.b, A.ta, A.tb, keepWf, keep, withK, hw]
theorem kandn (d : KReg) (a b : KF) : Statement (Instr.kandn d a b) := by
  intro hw v h
  have A := isA (by decide) (by decide) h
  refine ⟨A.lt, ?_⟩
  rw [dec_mask A.maj]; simp [decMask, A.low, A.d, A.a, A.b, A.ta, A.tb, keepWf, keep, withK, hw]
theorem knot (d : KReg) (a : KF) : Statement (Instr.knot d a) := by
  intro hw v h
  have A := isA (by decide) (by decide) h
  refine ⟨A.lt, ?_⟩
  rw [dec_mask A.maj]; simp [decMask, A.low, A.d, A.a, A.b, A.ta, A.tb, keepWf, keep, withK, hw]
theorem kpopc (d : Reg) (a : KF) : Statement (Instr.kpopc d a) := by
  intro hw v h
  have A := isA (by decide) (by decide) h
  refine ⟨A.lt, ?_⟩
  rw [dec_mask A.maj]; simp [decMask, A.low, A.d, A.a, A.b, A.ta, A.tb, keepWf, keep, withK, hw]
theorem kffs (d : Reg) (a : KF) : Statement (Instr.kffs d a) := by
  intro hw v h
  have A := isA (by decide) (by decide) h
  refine ⟨A.lt, ?_⟩
  rw [dec_mask A.maj]; simp [decMask, A.low, A.d, A.a, A.b, A.ta, A.tb, keepWf, keep, withK, hw]
theorem kwrd (d : Reg) (a : KF) (b : Reg) (tb : Bool) : Statement (Instr.kwrd d a b tb) := by
  intro hw v h
  have A := isA (by decide) (by decide) h
  refine ⟨A.lt, ?_⟩
  rw [dec_mask A.maj]; simp [decMask, A.low, A.d, A.a, A.b, A.ta, A.tb, keepWf, keep, withK, hw]
theorem kwwr (d : KReg) (a b : Reg) (ta tb : Bool) : Statement (Instr.kwwr d a b ta tb) := by
  intro hw v h
  have A := isA (by decide) (by decide) h
  refine ⟨A.lt, ?_⟩
  rw [dec_mask A.maj]; simp [decMask, A.low, A.d, A.a, A.b, A.ta, A.tb, keepWf, keep, withK, hw]
theorem kif (d a : KReg) : Statement (Instr.kif d a) := by
  intro hw v h
  have A := isA (by decide) (by decide) h
  refine ⟨A.lt, ?_⟩
  rw [dec_mask A.maj]; simp [decMask, A.low, A.d, A.a, A.b, A.ta, A.tb, keepWf, keep, withK, hw]
theorem kelse (d : KReg) : Statement (Instr.kelse d) := by
  intro hw v h
  have A := isA (by decide) (by decide) h
  refine ⟨A.lt, ?_⟩
  rw [dec_mask A.maj]; simp [decMask, A.low, A.d, A.a, A.b, A.ta, A.tb, keepWf, keep, withK, hw]
theorem kjoin (a : KReg) : Statement (Instr.kjoin a) := by
  intro hw v h
  have A := isA (by decide) (by decide) h
  refine ⟨A.lt, ?_⟩
  rw [dec_mask A.maj]; simp [decMask, A.low, A.d, A.a, A.b, A.ta, A.tb, keepWf, keep, withK, hw]
theorem kvoteAny (d : Reg) (a : KF) : Statement (Instr.kvoteAny d a) := by
  intro hw v h
  have A := isA (by decide) (by decide) h
  refine ⟨A.lt, ?_⟩
  rw [dec_mask A.maj]; simp [decMask, A.low, A.d, A.a, A.b, A.ta, A.tb, keepWf, keep, withK, hw]
theorem kvoteAll (d : Reg) (a : KF) : Statement (Instr.kvoteAll d a) := by
  intro hw v h
  have A := isA (by decide) (by decide) h
  refine ⟨A.lt, ?_⟩
  rw [dec_mask A.maj]; simp [decMask, A.low, A.d, A.a, A.b, A.ta, A.tb, keepWf, keep, withK, hw]
theorem kflag (d : KReg) (a : Fin 5) : Statement (Instr.kflag d a) := by
  intro hw v h
  have A := isA (by decide) (by decide) h
  refine ⟨A.lt, ?_⟩
  rw [dec_mask A.maj]; simp [decMask, A.low, A.d, A.a, A.b, A.ta, A.tb, keepWf, keep, withK, hw]
theorem flrd (d : Reg) (a : Fin 5) (b : Reg) (tb : Bool) : Statement (Instr.flrd d a b tb) := by
  intro hw v h
  have A := isA (by decide) (by decide) h
  refine ⟨A.lt, ?_⟩
  rw [dec_mask A.maj]; simp [decMask, A.low, A.d, A.a, A.b, A.ta, A.tb, keepWf, keep, withK, hw]
theorem flclr (a : Option (Fin 5)) : Statement (Instr.flclr a) := by
  intro hw v h
  cases a with
  | none =>
    have A := isA (by decide) (by decide) h
    refine ⟨A.lt, ?_⟩
    rw [dec_mask A.maj]; simp [decMask, A.low, A.d, A.a, A.b, A.ta, A.tb, keep]
  | some f =>
    have hf : ¬ kfReg (.f f) = 31 := by clear h hw; revert f; decide
    have A := isA (by decide) (by decide) h
    refine ⟨A.lt, ?_⟩
    rw [dec_mask A.maj]; simp [decMask, A.low, A.d, A.a, A.b, A.ta, A.tb, keep, withK, hf]
theorem vperm (d a b : Reg) (ta tb : Bool) : Statement (Instr.vperm d a b ta tb) := by
  intro hw v h
  have A := isA (by decide) (by decide) h
  refine ⟨A.lt, ?_⟩
  rw [dec_perm A.maj]; simp [decPerm, A.low, A.d, A.a, A.b, A.ta, A.tb, keepWf, keep, withK, hw]
theorem vshflUp (d a b : Reg) (ta tb : Bool) : Statement (Instr.vshflUp d a b ta tb) := by
  intro hw v h
  have A := isA (by decide) (by decide) h
  refine ⟨A.lt, ?_⟩
  rw [dec_perm A.maj]; simp [decPerm, A.low, A.d, A.a, A.b, A.ta, A.tb, keepWf, keep, withK, hw]
theorem vshflDn (d a b : Reg) (ta tb : Bool) : Statement (Instr.vshflDn d a b ta tb) := by
  intro hw v h
  have A := isA (by decide) (by decide) h
  refine ⟨A.lt, ?_⟩
  rw [dec_perm A.maj]; simp [decPerm, A.low, A.d, A.a, A.b, A.ta, A.tb, keepWf, keep, withK, hw]
theorem vshflXor (d a b : Reg) (ta tb : Bool) : Statement (Instr.vshflXor d a b ta tb) := by
  intro hw v h
  have A := isA (by decide) (by decide) h
  refine ⟨A.lt, ?_⟩
  rw [dec_perm A.maj]; simp [decPerm, A.low, A.d, A.a, A.b, A.ta, A.tb, keepWf, keep, withK, hw]
theorem vext (d a b : Reg) (ta tb : Bool) : Statement (Instr.vext d a b ta tb) := by
  intro hw v h
  have A := isA (by decide) (by decide) h
  refine ⟨A.lt, ?_⟩
  rw [dec_perm A.maj]; simp [decPerm, A.low, A.d, A.a, A.b, A.ta, A.tb, keepWf, keep, withK, hw]
theorem vins (d a b : Reg) (ta tb : Bool) : Statement (Instr.vins d a b ta tb) := by
  intro hw v h
  have A := isA (by decide) (by decide) h
  refine ⟨A.lt, ?_⟩
  rw [dec_perm A.maj]; simp [decPerm, A.low, A.d, A.a, A.b, A.ta, A.tb, keepWf, keep, withK, hw]
theorem vred (o : RedOp) (w : Bool) (d a : Reg) (ta : Bool) : Statement (Instr.vred o w d a ta) := by
  intro hw v h
  have hl : w.toNat * 16 + o.code < 64 := by cases o <;> cases w <;> decide
  have h1 : fldN (w.toNat * 16 + o.code) 0 4 = o.code := by cases o <;> cases w <;> decide
  have h2 : fldB (w.toNat * 16 + o.code) 4 = w := by cases o <;> cases w <;> decide
  have h3 : fldB (w.toNat * 16 + o.code) 5 = false := by cases o <;> cases w <;> decide
  have A := isA (by decide) hl h
  refine ⟨A.lt, ?_⟩
  rw [dec_red A.maj]; simp [decRed, A.low, A.d, A.a, A.b, A.ta, A.tb, A.n, A.bit, h1, h2, h3, keepWf, keep, withK, hw]
theorem vscan (o : RedOp) (w ex : Bool) (d a : Reg) (ta : Bool) : Statement (Instr.vscan o w ex d a ta) := by
  intro hw v h
  have hl : ex.toNat * 32 + w.toNat * 16 + o.code < 64 := by cases o <;> cases w <;> cases ex <;> decide
  have h1 : fldN (ex.toNat * 32 + w.toNat * 16 + o.code) 0 4 = o.code := by cases o <;> cases w <;> cases ex <;> decide
  have h2 : fldB (ex.toNat * 32 + w.toNat * 16 + o.code) 4 = w := by cases o <;> cases w <;> cases ex <;> decide
  have h3 : fldB (ex.toNat * 32 + w.toNat * 16 + o.code) 5 = ex := by cases o <;> cases w <;> cases ex <;> decide
  have A := isA (by decide) hl h
  refine ⟨A.lt, ?_⟩
  rw [dec_scan A.maj]; simp [decRed, A.low, A.d, A.a, A.b, A.ta, A.tb, A.n, A.bit, h1, h2, h3, keepWf, keep, withK, hw]
theorem vfadd (p : FFmt) (d a b : Reg) (ta tb : Bool) : Statement (Instr.vfadd p d a b ta tb) := by
  intro hw v h
  have A := isA (majF_lt p) (by decide) h
  refine ⟨A.lt, ?_⟩
  rw [dec_float p A.maj]; simp [decFloat, A.low, A.d, A.a, A.b, A.ta, A.tb, keepWf, keep, withK, hw]
theorem vfsub (p : FFmt) (d a b : Reg) (ta tb : Bool) : Statement (Instr.vfsub p d a b ta tb) := by
  intro hw v h
  have A := isA (majF_lt p) (by decide) h
  refine ⟨A.lt, ?_⟩
  rw [dec_float p A.maj]; simp [decFloat, A.low, A.d, A.a, A.b, A.ta, A.tb, keepWf, keep, withK, hw]
theorem vfmul (p : FFmt) (d a b : Reg) (ta tb : Bool) : Statement (Instr.vfmul p d a b ta tb) := by
  intro hw v h
  have A := isA (majF_lt p) (by decide) h
  refine ⟨A.lt, ?_⟩
  rw [dec_float p A.maj]; simp [decFloat, A.low, A.d, A.a, A.b, A.ta, A.tb, keepWf, keep, withK, hw]
theorem vffma (p : FFmt) (d a b : Reg) (ta tb : Bool) : Statement (Instr.vffma p d a b ta tb) := by
  intro hw v h
  have A := isA (majF_lt p) (by decide) h
  refine ⟨A.lt, ?_⟩
  rw [dec_float p A.maj]; simp [decFloat, A.low, A.d, A.a, A.b, A.ta, A.tb, keepWf, keep, withK, hw]
theorem vfmin (p : FFmt) (d a b : Reg) (ta tb : Bool) : Statement (Instr.vfmin p d a b ta tb) := by
  intro hw v h
  have A := isA (majF_lt p) (by decide) h
  refine ⟨A.lt, ?_⟩
  rw [dec_float p A.maj]; simp [decFloat, A.low, A.d, A.a, A.b, A.ta, A.tb, keepWf, keep, withK, hw]
theorem vfmax (p : FFmt) (d a b : Reg) (ta tb : Bool) : Statement (Instr.vfmax p d a b ta tb) := by
  intro hw v h
  have A := isA (majF_lt p) (by decide) h
  refine ⟨A.lt, ?_⟩
  rw [dec_float p A.maj]; simp [decFloat, A.low, A.d, A.a, A.b, A.ta, A.tb, keepWf, keep, withK, hw]
theorem vfsgn (p : FFmt) (d a b : Reg) (ta tb : Bool) : Statement (Instr.vfsgn p d a b ta tb) := by
  intro hw v h
  have A := isA (majF_lt p) (by decide) h
  refine ⟨A.lt, ?_⟩
  rw [dec_float p A.maj]; simp [decFloat, A.low, A.d, A.a, A.b, A.ta, A.tb, keepWf, keep, withK, hw]
theorem vfsgnNeg (p : FFmt) (d a b : Reg) (ta tb : Bool) : Statement (Instr.vfsgnNeg p d a b ta tb) := by
  intro hw v h
  have A := isA (majF_lt p) (by decide) h
  refine ⟨A.lt, ?_⟩
  rw [dec_float p A.maj]; simp [decFloat, A.low, A.d, A.a, A.b, A.ta, A.tb, keepWf, keep, withK, hw]
theorem vfsgnXor (p : FFmt) (d a b : Reg) (ta tb : Bool) : Statement (Instr.vfsgnXor p d a b ta tb) := by
  intro hw v h
  have A := isA (majF_lt p) (by decide) h
  refine ⟨A.lt, ?_⟩
  rw [dec_float p A.maj]; simp [decFloat, A.low, A.d, A.a, A.b, A.ta, A.tb, keepWf, keep, withK, hw]
theorem vfclass (p : FFmt) (d a : Reg) (ta : Bool) : Statement (Instr.vfclass p d a ta) := by
  intro hw v h
  have A := isA (majF_lt p) (by decide) h
  refine ⟨A.lt, ?_⟩
  rw [dec_float p A.maj]; simp [decFloat, A.low, A.d, A.a, A.b, A.ta, A.tb, keepWf, keep, withK, hw]
theorem vfround (p : FFmt) (d a : Reg) (ta : Bool) : Statement (Instr.vfround p d a ta) := by
  intro hw v h
  have A := isA (majF_lt p) (by decide) h
  refine ⟨A.lt, ?_⟩
  rw [dec_float p A.maj]; simp [decFloat, A.low, A.d, A.a, A.b, A.ta, A.tb, keepWf, keep, withK, hw]
theorem vfrcp (p : FFmt) (d a : Reg) (ta : Bool) : Statement (Instr.vfrcp p d a ta) := by
  intro hw v h
  have A := isA (majF_lt p) (by decide) h
  refine ⟨A.lt, ?_⟩
  rw [dec_float p A.maj]; simp [decFloat, A.low, A.d, A.a, A.b, A.ta, A.tb, keepWf, keep, withK, hw]
theorem vfrsqrt (p : FFmt) (d a : Reg) (ta : Bool) : Statement (Instr.vfrsqrt p d a ta) := by
  intro hw v h
  have A := isA (majF_lt p) (by decide) h
  refine ⟨A.lt, ?_⟩
  rw [dec_float p A.maj]; simp [decFloat, A.low, A.d, A.a, A.b, A.ta, A.tb, keepWf, keep, withK, hw]
theorem vfsqrt (p : FFmt) (d a : Reg) (ta : Bool) : Statement (Instr.vfsqrt p d a ta) := by
  intro hw v h
  have A := isA (majF_lt p) (by decide) h
  refine ⟨A.lt, ?_⟩
  rw [dec_float p A.maj]; simp [decFloat, A.low, A.d, A.a, A.b, A.ta, A.tb, keepWf, keep, withK, hw]
theorem vfdiv (p : FFmt) (d a b : Reg) (ta tb : Bool) : Statement (Instr.vfdiv p d a b ta tb) := by
  intro hw v h
  have A := isA (majF_lt p) (by decide) h
  refine ⟨A.lt, ?_⟩
  rw [dec_float p A.maj]; simp [decFloat, A.low, A.d, A.a, A.b, A.ta, A.tb, keepWf, keep, withK, hw]
theorem vfexp2 (p : FFmt) (d a : Reg) (ta : Bool) : Statement (Instr.vfexp2 p d a ta) := by
  intro hw v h
  have A := isA (majF_lt p) (by decide) h
  refine ⟨A.lt, ?_⟩
  rw [dec_float p A.maj]; simp [decFloat, A.low, A.d, A.a, A.b, A.ta, A.tb, keepWf, keep, withK, hw]
theorem vflog2 (p : FFmt) (d a : Reg) (ta : Bool) : Statement (Instr.vflog2 p d a ta) := by
  intro hw v h
  have A := isA (majF_lt p) (by decide) h
  refine ⟨A.lt, ?_⟩
  rw [dec_float p A.maj]; simp [decFloat, A.low, A.d, A.a, A.b, A.ta, A.tb, keepWf, keep, withK, hw]
theorem vfsinp (p : FFmt) (d a : Reg) (ta : Bool) : Statement (Instr.vfsinp p d a ta) := by
  intro hw v h
  have A := isA (majF_lt p) (by decide) h
  refine ⟨A.lt, ?_⟩
  rw [dec_float p A.maj]; simp [decFloat, A.low, A.d, A.a, A.b, A.ta, A.tb, keepWf, keep, withK, hw]
theorem vfcosp (p : FFmt) (d a : Reg) (ta : Bool) : Statement (Instr.vfcosp p d a ta) := by
  intro hw v h
  have A := isA (majF_lt p) (by decide) h
  refine ⟨A.lt, ?_⟩
  rw [dec_float p A.maj]; simp [decFloat, A.low, A.d, A.a, A.b, A.ta, A.tb, keepWf, keep, withK, hw]
theorem vfcmp (c : FCmp) (p : FFmt) (d : KReg) (a b : Reg) (ta tb : Bool) : Statement (Instr.vfcmp c p d a b ta tb) := by
  intro hw v h
  have hl : 24 + c.code < 64 := by cases c <;> decide
  have A := isA (majF_lt p) hl h
  refine ⟨A.lt, ?_⟩
  rw [dec_float p A.maj]; cases c <;> simp [decFloat, A.low, A.d, A.a, A.b, A.ta, A.tb, keepWf, keep, withK, hw, FCmp.code]
theorem vfcvt (dst src : FType) (d a : Reg) (ta : Bool) : Statement (Instr.vfcvt dst src d a ta) := by
  intro hw v h
  have hl : dst.code * 8 + src.code < 64 := by cases dst <;> cases src <;> decide
  have h1 : fldN (dst.code * 8 + src.code) 3 3 = dst.code := by cases dst <;> cases src <;> decide
  have h2 : fldN (dst.code * 8 + src.code) 0 3 = src.code := by cases dst <;> cases src <;> decide
  have A := isA (by decide) hl h
  refine ⟨A.lt, ?_⟩
  rw [dec_vfcvt A.maj]; simp [decVfcvt, A.low, A.d, A.a, A.b, A.ta, A.tb, A.n, h1, h2, keepWf, keep, withK, hw]
theorem sld (d a b : Reg) (ta tb : Bool) (z : Sz) (o : Ord) (s : Scope) : Statement (Instr.sld d a b ta tb z o s) := by
  intro hw v h
  obtain ⟨hl, h1, h2, h3⟩ := szOs z o s
  have A := isA (by decide) hl h
  refine ⟨A.lt, ?_⟩
  rw [dec_mem (by decide) A.maj]; simp [decMem, A.low, A.d, A.a, A.b, A.ta, A.tb, A.n, h1, h2, h3, keepWf, keep, withK, hw]
theorem sst (d a b : Reg) (ta tb : Bool) (z : Sz) (o : Ord) (s : Scope) : Statement (Instr.sst d a b ta tb z o s) := by
  intro hw v h
  obtain ⟨hl, h1, h2, h3⟩ := szOs z o s
  have A := isA (by decide) hl h
  refine ⟨A.lt, ?_⟩
  rw [dec_mem (by decide) A.maj]; simp [decMem, A.low, A.d, A.a, A.b, A.ta, A.tb, A.n, h1, h2, h3, keepWf, keep, withK, hw]
theorem vld (d a b : Reg) (ta tb : Bool) (z : Sz) (o : Ord) (s : Scope) : Statement (Instr.vld d a b ta tb z o s) := by
  intro hw v h
  obtain ⟨hl, h1, h2, h3⟩ := szOs z o s
  have A := isA (by decide) hl h
  refine ⟨A.lt, ?_⟩
  rw [dec_mem (by decide) A.maj]; simp [decMem, A.low, A.d, A.a, A.b, A.ta, A.tb, A.n, h1, h2, h3, keepWf, keep, withK, hw]
theorem vst (d a b : Reg) (ta tb : Bool) (z : Sz) (o : Ord) (s : Scope) : Statement (Instr.vst d a b ta tb z o s) := by
  intro hw v h
  obtain ⟨hl, h1, h2, h3⟩ := szOs z o s
  have A := isA (by decide) hl h
  refine ⟨A.lt, ?_⟩
  rw [dec_mem (by decide) A.maj]; simp [decMem, A.low, A.d, A.a, A.b, A.ta, A.tb, A.n, h1, h2, h3, keepWf, keep, withK, hw]
theorem vldb (d a b : Reg) (ta tb : Bool) (o : Ord) (s : Scope) : Statement (Instr.vldb d a b ta tb o s) := by
  intro hw v h
  obtain ⟨hl, h1, h2, h3, h4⟩ := blockOs false o s
  simp only [if_true, Bool.false_eq_true, if_false] at hl h1 h2 h3 h4
  have A := isA (by decide) hl h
  simp only [Nat.zero_add] at h1 h2 h3 h4 A
  refine ⟨A.lt, ?_⟩
  rw [dec_mem (by decide) A.maj]; simp [decMem, A.low, A.d, A.a, A.b, A.ta, A.tb, A.n, A.bit, h1, h2, h3, h4, keepWf, keep, withK, hw]
theorem vstb (d a b : Reg) (ta tb : Bool) (o : Ord) (s : Scope) : Statement (Instr.vstb d a b ta tb o s) := by
  intro hw v h
  obtain ⟨hl, h1, h2, h3, h4⟩ := blockOs true o s
  simp only [if_true, Bool.false_eq_true, if_false] at hl h1 h2 h3 h4
  have A := isA (by decide) hl h
  refine ⟨A.lt, ?_⟩
  rw [dec_mem (by decide) A.maj]; simp [decMem, A.low, A.d, A.a, A.b, A.ta, A.tb, A.n, A.bit, h1, h2, h3, h4, keepWf, keep, withK, hw]
theorem xld (d a b : Reg) (ta tb : Bool) (z : Sz) (o : Ord) (s : Scope) : Statement (Instr.xld d a b ta tb z o s) := by
  intro hw v h
  obtain ⟨hl, h1, h2, h3⟩ := szOs z o s
  have A := isA (by decide) hl h
  refine ⟨A.lt, ?_⟩
  rw [dec_mem (by decide) A.maj]; simp [decMem, A.low, A.d, A.a, A.b, A.ta, A.tb, A.n, h1, h2, h3, keepWf, keep, withK, hw]
theorem xst (d a b : Reg) (ta tb : Bool) (z : Sz) (o : Ord) (s : Scope) : Statement (Instr.xst d a b ta tb z o s) := by
  intro hw v h
  obtain ⟨hl, h1, h2, h3⟩ := szOs z o s
  have A := isA (by decide) hl h
  refine ⟨A.lt, ?_⟩
  rw [dec_mem (by decide) A.maj]; simp [decMem, A.low, A.d, A.a, A.b, A.ta, A.tb, A.n, h1, h2, h3, keepWf, keep, withK, hw]
theorem xldb (d a b : Reg) (ta tb : Bool) (o : Ord) (s : Scope) : Statement (Instr.xldb d a b ta tb o s) := by
  intro hw v h
  obtain ⟨hl, h1, h2, h3, h4⟩ := blockOs false o s
  simp only [if_true, Bool.false_eq_true, if_false] at hl h1 h2 h3 h4
  have A := isA (by decide) hl h
  simp only [Nat.zero_add] at h1 h2 h3 h4 A
  refine ⟨A.lt, ?_⟩
  rw [dec_mem (by decide) A.maj]; simp [decMem, A.low, A.d, A.a, A.b, A.ta, A.tb, A.n, A.bit, h1, h2, h3, h4, keepWf, keep, withK, hw]
theorem xstb (d a b : Reg) (ta tb : Bool) (o : Ord) (s : Scope) : Statement (Instr.xstb d a b ta tb o s) := by
  intro hw v h
  obtain ⟨hl, h1, h2, h3, h4⟩ := blockOs true o s
  simp only [if_true, Bool.false_eq_true, if_false] at hl h1 h2 h3 h4
  have A := isA (by decide) hl h
  refine ⟨A.lt, ?_⟩
  rw [dec_mem (by decide) A.maj]; simp [decMem, A.low, A.d, A.a, A.b, A.ta, A.tb, A.n, A.bit, h1, h2, h3, h4, keepWf, keep, withK, hw]
theorem satom (p : AtomOp) (d a b : Reg) (o : Ord) (s : Scope) : Statement (Instr.satom p d a b o s) := by
  intro hw v h
  obtain ⟨hl, h1, h2, h3, h4⟩ := ctlOs_fields p.code (by cases p <;> decide) o s
  have A := isE (by decide) hl h
  refine ⟨A.lt, ?_⟩
  rw [dec_sync (by decide) A.maj]; simp [decSync, A.d, A.a, A.b, A.n, h1, h2, h3, h4, keepWf, keep, withK, hw]
theorem vatom (p : AtomOp) (d a b : Reg) (o : Ord) (s : Scope) : Statement (Instr.vatom p d a b o s) := by
  intro hw v h
  obtain ⟨hl, h1, h2, h3, h4⟩ := ctlOs_fields p.code (by cases p <;> decide) o s
  have A := isE (by decide) hl h
  refine ⟨A.lt, ?_⟩
  rw [dec_sync (by decide) A.maj]; simp [decSync, A.d, A.a, A.b, A.n, h1, h2, h3, h4, keepWf, keep, withK, hw]
theorem scas (w : Bool) (d a b : Reg) (o : Ord) (s : Scope) : Statement (Instr.scas w d a b o s) := by
  intro hw v h
  obtain ⟨hl, h1, h2, h3, h4⟩ := ctlOs_fields w.toNat (by cases w <;> decide) o s
  have A := isE (by decide) hl h
  refine ⟨A.lt, ?_⟩
  rw [dec_sync (by decide) A.maj]; cases w <;> simp only [Bool.toNat_true, Bool.toNat_false] at h1 h2 h3 h4 A <;>
    simp [decSync, A.d, A.a, A.b, A.n, h1, h2, h3, h4, keepWf, keep, withK, hw]
theorem scas2 (d a b : Reg) (o : Ord) (s : Scope) : Statement (Instr.scas2 d a b o s) := by
  intro hw v h
  obtain ⟨hl, h1, h2, h3, h4⟩ := ctlOs_fields 2 (by decide) o s
  have A := isE (by decide) hl h
  refine ⟨A.lt, ?_⟩
  rw [dec_sync (by decide) A.maj]; simp [decSync, A.d, A.a, A.b, A.n, h1, h2, h3, h4, keepWf, keep, withK, hw]
theorem vcas (d a b : Reg) (o : Ord) (s : Scope) : Statement (Instr.vcas d a b o s) := by
  intro hw v h
  obtain ⟨hl, h1, h2, h3, h4⟩ := ctlOs_fields 3 (by decide) o s
  have A := isE (by decide) hl h
  refine ⟨A.lt, ?_⟩
  rw [dec_sync (by decide) A.maj]; simp [decSync, A.d, A.a, A.b, A.n, h1, h2, h3, h4, keepWf, keep, withK, hw]
theorem waitc64 (c : WCond) (d a b : Reg) (o : Ord) (s : Scope) : Statement (Instr.waitc64 c d a b o s) := by
  intro hw v h
  have hc : 4 + c.code < 16 := by cases c <;> decide
  obtain ⟨hl, h1, h2, h3, h4⟩ := ctlOs_fields _ hc o s
  have A := isE (by decide) hl h
  refine ⟨A.lt, ?_⟩
  rw [dec_sync (by decide) A.maj]; cases c <;> simp only [WCond.code, Nat.reduceAdd, Nat.reduceMod, Nat.add_zero] at h1 h2 h3 h4 A <;>
    simp [decSync, A.d, A.a, A.b, A.n, h1, h2, h3, h4, WCond.ofCode, keepWf, keep, hw]
theorem waitc32 (c : WCond) (d a b : Reg) (o : Ord) (s : Scope) : Statement (Instr.waitc32 c d a b o s) := by
  intro hw v h
  have hc : 8 + c.code < 16 := by cases c <;> decide
  obtain ⟨hl, h1, h2, h3, h4⟩ := ctlOs_fields _ hc o s
  have A := isE (by decide) hl h
  refine ⟨A.lt, ?_⟩
  rw [dec_sync (by decide) A.maj]; cases c <;> simp only [WCond.code, Nat.reduceAdd, Nat.reduceMod, Nat.add_zero] at h1 h2 h3 h4 A <;>
    simp [decSync, A.d, A.a, A.b, A.n, h1, h2, h3, h4, WCond.ofCode, keepWf, keep, hw]
theorem fence (o : Ord) (s : Scope) : Statement (Instr.fence o s) := by
  intro hw v h
  obtain ⟨hl, h1, h2, h3, h4⟩ := ctlOs_fields 0 (by decide) o s
  have A := isE (by decide) hl h
  refine ⟨A.lt, ?_⟩
  rw [dec_sync (by decide) A.maj]; simp [decSync, A.d, A.a, A.b, A.n, h1, h2, h3, h4, keepWf, keep, withK, hw]
theorem fenceSc (s : Scope) : Statement (Instr.fenceSc s) := by
  intro hw v h
  obtain ⟨hl, h1, h2, h3, h4⟩ := ctlOs_fields 1 (by decide) .rlx s
  have A := isE (by decide) hl h
  refine ⟨A.lt, ?_⟩
  rw [dec_sync (by decide) A.maj]; simp [decSync, A.d, A.a, A.b, A.n, h1, h2, h3, h4, keepWf, keep, withK, hw]
theorem barArr (a : Reg) (b : Fin 64) : Statement (Instr.barArr a b) := by
  intro hw v h
  have A := isE (by decide) (by decide) h
  refine ⟨A.lt, ?_⟩
  rw [dec_sync (by decide) A.maj]; simp only [decSync, A.d, A.a, A.b, A.n 4 4 (by decide), A.n 2 2 (by decide), A.n 0 2 (by decide), A.n 0 4 (by decide), A.n 4 2 (by decide), keepWf, keep, hw]; rfl
theorem barWait (d : Reg) (b : Fin 64) : Statement (Instr.barWait d b) := by
  intro hw v h
  have A := isE (by decide) (by decide) h
  refine ⟨A.lt, ?_⟩
  rw [dec_sync (by decide) A.maj]; simp only [decSync, A.d, A.a, A.b, A.n 4 4 (by decide), A.n 2 2 (by decide), A.n 0 2 (by decide), A.n 0 4 (by decide), A.n 4 2 (by decide), keepWf, keep, hw]; rfl
theorem barSync (d a : Reg) (b : Fin 64) : Statement (Instr.barSync d a b) := by
  intro hw v h
  have A := isE (by decide) (by decide) h
  refine ⟨A.lt, ?_⟩
  rw [dec_sync (by decide) A.maj]; simp only [decSync, A.d, A.a, A.b, A.n 4 4 (by decide), A.n 2 2 (by decide), A.n 0 2 (by decide), A.n 0 4 (by decide), A.n 4 2 (by decide), keepWf, keep, hw]; rfl
theorem cpy (d a b l : Reg) : Statement (Instr.cpy d a b l) := by
  intro hw v h
  have hl : l.val < 256 := by have := l.isLt; omega
  have A := isE (by decide) hl h
  refine ⟨A.lt, ?_⟩
  have h1 : fldN v 6 2 = 0 := by have := A.low; have := l.isLt; simp only [fldN]; omega
  have h2 : fld6 v 0 = l := Fin.ext (by have := A.low; have := l.isLt; simp only [fld6]; omega)
  rw [dec_engine (by decide) A.maj]; simp [decEngine, A.d, A.a, A.b, h1, h2, keepWf, keep, hw]
theorem cpy2d (d a b l : Reg) : Statement (Instr.cpy2d d a b l) := by
  intro hw v h
  have hl : 0x40 + l.val < 256 := by have := l.isLt; omega
  have A := isE (by decide) hl h
  refine ⟨A.lt, ?_⟩
  have h1 : fldN v 6 2 = 1 := by have := A.low; have := l.isLt; simp only [fldN]; omega
  have h2 : fld6 v 0 = l := Fin.ext (by have := A.low; have := l.isLt; simp only [fld6]; omega)
  rw [dec_engine (by decide) A.maj]; simp [decEngine, A.d, A.a, A.b, h1, h2, keepWf, keep, hw]
theorem mcfg (a b : Reg) : Statement (Instr.mcfg a b) := by
  intro hw v h
  have A := isE (by decide) (by decide) h
  refine ⟨A.lt, ?_⟩
  rw [dec_engine (by decide) A.maj]; simp only [decEngine, A.d, A.a, A.b, A.n 4 4 (by decide), A.n 0 4 (by decide), A.n 1 3 (by decide), A.n 0 3 (by decide), A.bit 0 (by decide), A.bit 2 (by decide), A.bit 3 (by decide), keepWf, keep, hw]; rfl
theorem midx (a : Reg) : Statement (Instr.midx a) := by
  intro hw v h
  have A := isE (by decide) (by decide) h
  refine ⟨A.lt, ?_⟩
  rw [dec_engine (by decide) A.maj]; simp only [decEngine, A.d, A.a, A.b, A.n 4 4 (by decide), A.n 0 4 (by decide), A.n 1 3 (by decide), A.n 0 3 (by decide), A.bit 0 (by decide), A.bit 2 (by decide), A.bit 3 (by decide), keepWf, keep, hw]; rfl
theorem mloop (d a b : Reg) (adv : Bool) (sel : Fin 4) : Statement (Instr.mloop d a b adv sel) := by
  intro hw v h
  have hl : 0x20 + adv.toNat * 4 + sel.val < 256 := by cases adv <;> simp only [Bool.toNat_true, Bool.toNat_false] <;> omega
  have A := isE (by decide) hl h
  refine ⟨A.lt, ?_⟩
  have h1 : fldN v 4 4 = 2 := by
    have := A.low; cases adv <;> simp only [fldN, Bool.toNat_true, Bool.toNat_false] at * <;> omega
  have h2 : fldB v 2 = adv := by
    have := A.low; cases adv <;> simp only [fldB, Bool.toNat_true, Bool.toNat_false, beq_iff_eq, beq_eq_false_iff_ne] at * <;> omega
  have h3 : fldB v 3 = false := by
    have := A.low; cases adv <;> simp only [fldB, Bool.toNat_true, Bool.toNat_false, beq_eq_false_iff_ne] at * <;> omega
  have h4 : v % 4 = sel.val := by
    have := A.low; cases adv <;> simp only [Bool.toNat_true, Bool.toNat_false] at * <;> omega
  rw [dec_engine (by decide) A.maj]; simp [decEngine, A.d, A.a, A.b, h1, h2, h3, h4, keep]
theorem mzero (t : Bool) : Statement (Instr.mzero t) := by
  intro hw v h
  cases t <;>
  (have A := isE (by decide) (by decide) h
   refine ⟨A.lt, ?_⟩
   rw [dec_engine (by decide) A.maj]; simp only [decEngine, A.d, A.a, A.b, A.n 4 4 (by decide), A.n 1 3 (by decide), A.bit 0 (by decide), keep]; rfl)
theorem mmovRegister (d a : Reg) : Statement (Instr.mmovRegister d a) := by
  intro hw v h
  have A := isE (by decide) (by decide) h
  refine ⟨A.lt, ?_⟩
  rw [dec_engine (by decide) A.maj]; simp only [decEngine, A.d, A.a, A.b, A.n 4 4 (by decide), A.n 0 4 (by decide), A.n 1 3 (by decide), A.n 0 3 (by decide), A.bit 0 (by decide), A.bit 2 (by decide), A.bit 3 (by decide), keepWf, keep, hw]; rfl
theorem mmovScratchpad (d a b : Reg) : Statement (Instr.mmovScratchpad d a b) := by
  intro hw v h
  have A := isE (by decide) (by decide) h
  refine ⟨A.lt, ?_⟩
  rw [dec_engine (by decide) A.maj]; simp only [decEngine, A.d, A.a, A.b, A.n 4 4 (by decide), A.n 0 4 (by decide), A.n 1 3 (by decide), A.n 0 3 (by decide), A.bit 0 (by decide), A.bit 2 (by decide), A.bit 3 (by decide), keepWf, keep, hw]; rfl
theorem mburst (a : Reg) : Statement (Instr.mburst a) := by
  intro hw v h
  have A := isE (by decide) (by decide) h
  refine ⟨A.lt, ?_⟩
  rw [dec_engine (by decide) A.maj]; simp only [decEngine, A.d, A.a, A.b, A.n 4 4 (by decide), A.n 0 4 (by decide), A.n 1 3 (by decide), A.n 0 3 (by decide), A.bit 0 (by decide), A.bit 2 (by decide), A.bit 3 (by decide), keepWf, keep, hw]; rfl
theorem cred (a : Reg) : Statement (Instr.cred a) := by
  intro hw v h
  have A := isE (by decide) (by decide) h
  refine ⟨A.lt, ?_⟩
  rw [dec_queue (by decide) A.maj]; simp only [decQueue, A.d, A.a, A.b, A.n 4 4 (by decide), A.n 0 4 (by decide), A.n 2 2 (by decide), A.n 0 2 (by decide), keepWf, keep, hw]; rfl
theorem cbcast (a : Reg) : Statement (Instr.cbcast a) := by
  intro hw v h
  have A := isE (by decide) (by decide) h
  refine ⟨A.lt, ?_⟩
  rw [dec_queue (by decide) A.maj]; simp only [decQueue, A.d, A.a, A.b, A.n 4 4 (by decide), A.n 0 4 (by decide), A.n 2 2 (by decide), A.n 0 2 (by decide), keepWf, keep, hw]; rfl
theorem cgath (a : Reg) : Statement (Instr.cgath a) := by
  intro hw v h
  have A := isE (by decide) (by decide) h
  refine ⟨A.lt, ?_⟩
  rw [dec_queue (by decide) A.maj]; simp only [decQueue, A.d, A.a, A.b, A.n 4 4 (by decide), A.n 0 4 (by decide), A.n 2 2 (by decide), A.n 0 2 (by decide), keepWf, keep, hw]; rfl
theorem efence (x : Ctx) (d : Reg) : Statement (Instr.efence x d) := by
  intro hw v h
  cases x <;>
  (have A := isE (by decide) (by decide) h
   refine ⟨A.lt, ?_⟩
   rw [dec_queue (by decide) A.maj]; simp only [decQueue, A.d, A.a, A.b, A.n 4 4 (by decide), A.n 0 2 (by decide), A.n 2 2 (by decide), A.n 0 4 (by decide), Ctx.code, keep]; rfl)
theorem ewait (x : Ctx) (d a : Reg) : Statement (Instr.ewait x d a) := by
  intro hw v h
  cases x <;>
  (have A := isE (by decide) (by decide) h
   refine ⟨A.lt, ?_⟩
   rw [dec_queue (by decide) A.maj]; simp only [decQueue, A.d, A.a, A.b, A.n 4 4 (by decide), A.n 0 2 (by decide), A.n 2 2 (by decide), A.n 0 4 (by decide), Ctx.code, keep]; rfl)
theorem tlrd (x : Ctx) (d a : Reg) : Statement (Instr.tlrd x d a) := by
  intro hw v h
  cases x <;>
  (have A := isE (by decide) (by decide) h
   refine ⟨A.lt, ?_⟩
   rw [dec_queue (by decide) A.maj]; simp only [decQueue, A.d, A.a, A.b, A.n 4 4 (by decide), A.n 0 2 (by decide), A.n 2 2 (by decide), A.n 0 4 (by decide), Ctx.code, keep]; rfl)
theorem tlwait (x : Ctx) (d a b : Reg) : Statement (Instr.tlwait x d a b) := by
  intro hw v h
  cases x <;>
  (have A := isE (by decide) (by decide) h
   refine ⟨A.lt, ?_⟩
   rw [dec_queue (by decide) A.maj]; simp only [decQueue, A.d, A.a, A.b, A.n 4 4 (by decide), A.n 0 2 (by decide), A.n 2 2 (by decide), A.n 0 4 (by decide), Ctx.code, keep]; rfl)
theorem tqenq (d a b : Reg) : Statement (Instr.tqenq d a b) := by
  intro hw v h
  have A := isE (by decide) (by decide) h
  refine ⟨A.lt, ?_⟩
  rw [dec_queue (by decide) A.maj]; simp only [decQueue, A.d, A.a, A.b, A.n 4 4 (by decide), A.n 0 4 (by decide), A.n 2 2 (by decide), A.n 0 2 (by decide), keepWf, keep, hw]; rfl
theorem tqdeq (d a : Reg) : Statement (Instr.tqdeq d a) := by
  intro hw v h
  have A := isE (by decide) (by decide) h
  refine ⟨A.lt, ?_⟩
  rw [dec_queue (by decide) A.maj]; simp only [decQueue, A.d, A.a, A.b, A.n 4 4 (by decide), A.n 0 4 (by decide), A.n 2 2 (by decide), A.n 0 2 (by decide), keepWf, keep, hw]; rfl
theorem tqdec (d a : Reg) : Statement (Instr.tqdec d a) := by
  intro hw v h
  have A := isE (by decide) (by decide) h
  refine ⟨A.lt, ?_⟩
  rw [dec_queue (by decide) A.maj]; simp only [decQueue, A.d, A.a, A.b, A.n 4 4 (by decide), A.n 0 4 (by decide), A.n 2 2 (by decide), A.n 0 2 (by decide), keepWf, keep, hw]; rfl
theorem launch (d a b : Reg) : Statement (Instr.launch d a b) := by
  intro hw v h
  have A := isE (by decide) (by decide) h
  refine ⟨A.lt, ?_⟩
  rw [dec_queue (by decide) A.maj]; simp only [decQueue, A.d, A.a, A.b, A.n 4 4 (by decide), A.n 0 4 (by decide), A.n 2 2 (by decide), A.n 0 2 (by decide), keepWf, keep, hw]; rfl
theorem trap (n : BitVec 12) : Statement (Instr.trap n) := by
  intro hw v h
  have hn := n.isLt
  have e : 0x3C * 2 ^ 26 + n.toNat * 2 ^ 8 + 0x01 = v := Option.some.inj h
  have hm : v / 2 ^ 26 % 64 = 0x3C := by omega
  have h0 : v % 256 = 1 := by omega
  have h1 : fld6 v 20 = 0 := Fin.ext (by simp only [fld6]; omega)
  have h2 : BitVec.ofNat 12 (v / 2 ^ 8) = n := by apply BitVec.eq_of_toNat_eq; rw [BitVec.toNat_ofNat]; omega
  refine ⟨by omega, ?_⟩
  rw [dec_system hm]; simp only [decSystem, h0, h1, h2, keep]; rfl
theorem eret : Statement (Instr.eret) := by
  intro hw v h
  have A := isE (by decide) (by decide) h
  refine ⟨A.lt, ?_⟩
  rw [dec_system A.maj]; simp [decSystem, A.low, A.d, A.a, A.b, keepWf, keep, withK, hw]
theorem ctlrd (d : Reg) : Statement (Instr.ctlrd d) := by
  intro hw v h
  have A := isE (by decide) (by decide) h
  refine ⟨A.lt, ?_⟩
  rw [dec_system A.maj]; simp [decSystem, A.low, A.d, A.a, A.b, keepWf, keep, withK, hw]
theorem ctlwr (a : Reg) : Statement (Instr.ctlwr a) := by
  intro hw v h
  have A := isE (by decide) (by decide) h
  refine ⟨A.lt, ?_⟩
  rw [dec_system A.maj]; simp [decSystem, A.low, A.d, A.a, A.b, keepWf, keep, withK, hw]
theorem sigchk : Statement (Instr.sigchk) := by
  intro hw v h
  have A := isE (by decide) (by decide) h
  refine ⟨A.lt, ?_⟩
  rw [dec_system A.maj]; simp [decSystem, A.low, A.d, A.a, A.b, keepWf, keep, withK, hw]
theorem sigrd (d : Reg) : Statement (Instr.sigrd d) := by
  intro hw v h
  have A := isE (by decide) (by decide) h
  refine ⟨A.lt, ?_⟩
  rw [dec_system A.maj]; simp [decSystem, A.low, A.d, A.a, A.b, keepWf, keep, withK, hw]
theorem capq (d a : Reg) : Statement (Instr.capq d a) := by
  intro hw v h
  have A := isE (by decide) (by decide) h
  refine ⟨A.lt, ?_⟩
  rw [dec_system A.maj]; simp [decSystem, A.low, A.d, A.a, A.b, keepWf, keep, withK, hw]
theorem yield : Statement (Instr.yield) := by
  intro hw v h
  have A := isE (by decide) (by decide) h
  refine ⟨A.lt, ?_⟩
  rw [dec_system A.maj]; simp [decSystem, A.low, A.d, A.a, A.b, keepWf, keep, withK, hw]
theorem fltinfo (d a : Reg) : Statement (Instr.fltinfo d a) := by
  intro hw v h
  have A := isE (by decide) (by decide) h
  refine ⟨A.lt, ?_⟩
  rw [dec_system A.maj]; simp [decSystem, A.low, A.d, A.a, A.b, keepWf, keep, withK, hw]
theorem replay (a b : Reg) : Statement (Instr.replay a b) := by
  intro hw v h
  have A := isE (by decide) (by decide) h
  refine ⟨A.lt, ?_⟩
  rw [dec_system A.maj]; simp [decSystem, A.low, A.d, A.a, A.b, keepWf, keep, withK, hw]
theorem replayDiscard (a b : Reg) : Statement (Instr.replayDiscard a b) := by
  intro hw v h
  have A := isE (by decide) (by decide) h
  refine ⟨A.lt, ?_⟩
  rw [dec_system A.maj]; simp [decSystem, A.low, A.d, A.a, A.b, keepWf, keep, withK, hw]
theorem pmap (d a b : Reg) : Statement (Instr.pmap d a b) := by
  intro hw v h
  have A := isE (by decide) (by decide) h
  refine ⟨A.lt, ?_⟩
  rw [dec_system A.maj]; simp [decSystem, A.low, A.d, A.a, A.b, keepWf, keep, withK, hw]
theorem pkload (d a b : Reg) : Statement (Instr.pkload d a b) := by
  intro hw v h
  have A := isE (by decide) (by decide) h
  refine ⟨A.lt, ?_⟩
  rw [dec_system A.maj]; simp [decSystem, A.low, A.d, A.a, A.b, keepWf, keep, withK, hw]
theorem brScalar (c : BrCond) (a : Reg) (i : BitVec 16) : Statement (Instr.brScalar c a i) := by
  intro hw v h
  have A := isC (show c.code < 16 by cases c <;> decide) (show a.val < 64 by have := a.isLt; omega) h
  refine ⟨A.lt, ?_⟩
  have ha : fld6 v 16 = a := Fin.ext A.a
  have hc := A.c
  rw [dec_control A.maj]; cases c <;> simp only [BrCond.code] at hc <;> simp [decControl, hc, ha, A.i, withK]
theorem brMask (c : BrMask) (k : KReg) (i : BitVec 16) : Statement (Instr.brMask c k i) := by
  intro hw v h
  have A := isC (show c.code < 16 by cases c <;> decide) (show k.val < 64 by have := k.isLt; omega) h
  refine ⟨A.lt, ?_⟩
  have ha : fld6 v 16 = kReg k := Fin.ext A.a
  have hc := A.c
  rw [dec_control A.maj]; cases c <;> simp only [BrMask.code] at hc <;> simp [decControl, hc, ha, A.i, withK]
theorem jmp (i : BitVec 16) : Statement (Instr.jmp i) := by
  intro hw v h
  have A := isC (by decide) (by decide) h
  refine ⟨A.lt, ?_⟩
  have ha : fld6 v 16 = 0 := Fin.ext A.a
  rw [dec_control A.maj]; simp [decControl, A.c, ha, A.i, keep]
theorem call (a : Reg) (i : BitVec 16) : Statement (Instr.call a i) := by
  intro hw v h
  have A := isC (by decide) (by have := a.isLt; omega) h
  refine ⟨A.lt, ?_⟩
  have ha : fld6 v 16 = a := Fin.ext A.a
  rw [dec_control A.maj]; simp [decControl, A.c, ha, A.i, keep]
theorem jr (a : Reg) (i : BitVec 16) : Statement (Instr.jr a i) := by
  intro hw v h
  have A := isC (by decide) (by have := a.isLt; omega) h
  refine ⟨A.lt, ?_⟩
  have ha : fld6 v 16 = a := Fin.ext A.a
  rw [dec_control A.maj]; simp [decControl, A.c, ha, A.i, keep]
theorem exit : Statement (Instr.exit) := by
  intro hw v h
  have A := isC (by decide) (by decide) h
  refine ⟨A.lt, ?_⟩
  have ha : fld6 v 16 = 0 := Fin.ext A.a
  rw [dec_control A.maj]; simp [decControl, A.c, ha, A.i, keep]
theorem nop : Statement (Instr.nop) := by
  intro hw v h
  have A := isC (by decide) (by decide) h
  refine ⟨A.lt, ?_⟩
  have ha : fld6 v 16 = 0 := Fin.ext A.a
  rw [dec_control A.maj]; simp [decControl, A.c, ha, A.i, keep]
theorem hintImm (p : BitVec 23) : Statement (Instr.hintImm p) := by
  intro hw v h
  have A := isH (by decide) p.isLt h
  refine ⟨A.lt, ?_⟩
  have hp : BitVec.ofNat 23 v = p := by apply BitVec.eq_of_toNat_eq; simpa using A.p
  rw [dec_hint A.maj]; simp [decHint, A.k, hp]
theorem hintOff (o : BitVec 23) : Statement (Instr.hintOff o) := by
  intro hw v h
  have A := isH (by decide) o.isLt h
  refine ⟨A.lt, ?_⟩
  have hp : BitVec.ofNat 23 v = o := by apply BitVec.eq_of_toNat_eq; simpa using A.p
  rw [dec_hint A.maj]; simp [decHint, A.k, hp]
theorem hintMod (bx : BitVec 2) (sat ftz : Bool) (rm : BitVec 2) : Statement (Instr.hintMod bx sat ftz rm) := by
  intro hw v h
  have hx := bx.isLt; have hr := rm.isLt
  have A := isH (by decide) (show bx.toNat * 16 + sat.toNat * 8 + ftz.toNat * 4 + rm.toNat < 2 ^ 23 by cases sat <;> cases ftz <;> simp only [Bool.toNat_true, Bool.toNat_false] <;> omega) h
  refine ⟨A.lt, ?_⟩
  have hp := A.p
  have h1 : fldN v 6 17 = 0 := by cases sat <;> cases ftz <;> simp only [fldN, Bool.toNat_true, Bool.toNat_false] at * <;> omega
  have h2 : BitVec.ofNat 2 (v / 2 ^ 4) = bx := by
    apply BitVec.eq_of_toNat_eq; rw [BitVec.toNat_ofNat]; cases sat <;> cases ftz <;> simp only [Bool.toNat_true, Bool.toNat_false] at * <;> omega
  have h3 : BitVec.ofNat 2 v = rm := by
    apply BitVec.eq_of_toNat_eq; rw [BitVec.toNat_ofNat]; cases sat <;> cases ftz <;> simp only [Bool.toNat_true, Bool.toNat_false] at * <;> omega
  have h4 : fldB v 3 = sat := by
    cases sat <;> cases ftz <;> simp only [fldB, Bool.toNat_true, Bool.toNat_false, beq_iff_eq, beq_eq_false_iff_ne] at * <;> omega
  have h5 : fldB v 2 = ftz := by
    cases sat <;> cases ftz <;> simp only [fldB, Bool.toNat_true, Bool.toNat_false, beq_iff_eq, beq_eq_false_iff_ne] at * <;> omega
  rw [dec_hint A.maj]; simp only [decHint, A.k, h1, h2, h3, h4, h5, keep]; rfl
theorem hintSched (p : BitVec 3) : Statement (Instr.hintSched p) := by
  intro hw v h
  have hx := p.isLt
  have A := isH (by decide) (show p.toNat < 2 ^ 23 by omega) h
  refine ⟨A.lt, ?_⟩
  have hp := A.p
  have h1 : fldN v 3 20 = 0 := by simp only [fldN]; omega
  have h2 : BitVec.ofNat 3 v = p := by apply BitVec.eq_of_toNat_eq; rw [BitVec.toNat_ofNat]; omega
  rw [dec_hint A.maj]; simp only [decHint, A.k, h1, h2, keep]; rfl
theorem extensionWord (g : BitVec 8) (b : BitVec 18) : Statement (Instr.extensionWord g b) := by
  intro hw v h
  have hg := g.isLt; have hb := b.isLt
  have e : 0x3F * 2 ^ 26 + g.toNat * 2 ^ 18 + b.toNat = v := Option.some.inj h
  have hm : v / 2 ^ 26 % 64 = 0x3F := by omega
  have h1 : BitVec.ofNat 8 (v / 2 ^ 18) = g := by apply BitVec.eq_of_toNat_eq; rw [BitVec.toNat_ofNat]; omega
  have h2 : BitVec.ofNat 18 v = b := by apply BitVec.eq_of_toNat_eq; rw [BitVec.toNat_ofNat]; omega
  refine ⟨by omega, ?_⟩
  simp only [decode, hm, h1, h2]
theorem requestNop (i seq : Nat) : Statement (Instr.requestNop i seq) := by intro _ w h; cases h
theorem requestLaunch (i seq : Nat) : Statement (Instr.requestLaunch i seq) := by intro _ w h; cases h
theorem requestWait (i seq : Nat) : Statement (Instr.requestWait i seq) := by intro _ w h; cases h
theorem requestWrite (i seq : Nat) : Statement (Instr.requestWrite i seq) := by intro _ w h; cases h
theorem recordRead (l : Nat) : Statement (Instr.recordRead l) := by intro _ w h; cases h
theorem dealPass (q : Nat) : Statement (Instr.dealPass q) := by intro _ w h; cases h
theorem launchComplete (l : Nat) : Statement (Instr.launchComplete l) := by intro _ w h; cases h
theorem signalRetry (l : Nat) : Statement (Instr.signalRetry l) := by intro _ w h; cases h
theorem launchPacket (port : Nat) (p : Packet) : Statement (Instr.launchPacket port p) := by intro _ w h; cases h
theorem launchResend (id : Nat) : Statement (Instr.launchResend id) := by intro _ w h; cases h
theorem partitionResetComplete (q : Nat) : Statement (Instr.partitionResetComplete q) := by intro _ w h; cases h
theorem quantumBoundary (c : Nat) : Statement (Instr.quantumBoundary c) := by intro _ w h; cases h
theorem unitReload (team : Nat) : Statement (Instr.unitReload team) := by intro _ w h; cases h
theorem watchdogExpiry (l : Nat) : Statement (Instr.watchdogExpiry l) := by intro _ w h; cases h
theorem coreCycle (n : Nat) : Statement (Instr.coreCycle n) := by intro _ w h; cases h
theorem forcedLeave (n : Nat) : Statement (Instr.forcedLeave n) := by intro _ w h; cases h
theorem trapEntry (team : Nat) : Statement (Instr.trapEntry team) := by intro _ w h; cases h
theorem registerFill (f : Fill) : Statement (Instr.registerFill f) := by intro _ w h; cases h
theorem rakeChunkCopy (n : Nat) (bad : Bool) : Statement (Instr.rakeChunkCopy n bad) := by intro _ w h; cases h
theorem mapFlip (n : Nat) : Statement (Instr.mapFlip n) := by intro _ w h; cases h
theorem oldBankRelease (n : Nat) : Statement (Instr.oldBankRelease n) := by intro _ w h; cases h
theorem workgroupSave (wg : Nat) : Statement (Instr.workgroupSave wg) := by intro _ w h; cases h
theorem rd (r : Req) : Statement (Instr.rd r) := by intro _ w h; cases h
theorem rdrsp (r : Rsp) : Statement (Instr.rdrsp r) := by intro _ w h; cases h
theorem wr (r : Req) : Statement (Instr.wr r) := by intro _ w h; cases h
theorem atom (r : Req) : Statement (Instr.atom r) := by intro _ w h; cases h
theorem ack (a : AckMsg) : Statement (Instr.ack a) := by intro _ w h; cases h
theorem nack (n : NackMsg) : Statement (Instr.nack n) := by intro _ w h; cases h
theorem ember (r : Req) : Statement (Instr.ember r) := by intro _ w h; cases h
theorem draw (d : DrawMsg) : Statement (Instr.draw d) := by intro _ w h; cases h
theorem wback (w : WbackMsg) : Statement (Instr.wback w) := by intro _ w h; cases h
theorem drawack (d : DrawMsg) : Statement (Instr.drawack d) := by intro _ w h; cases h
theorem monfill (m : MonMsg) : Statement (Instr.monfill m) := by intro _ w h; cases h
theorem queueOperation (o : QOp) : Statement (Instr.queueOperation o) := by intro _ w h; cases h
theorem ptsTick (n : Nat) : Statement (Instr.ptsTick n) := by intro _ w h; cases h
theorem ageSweep (n : Nat) : Statement (Instr.ageSweep n) := by intro _ w h; cases h
theorem monitorRecheck (id : Nat) : Statement (Instr.monitorRecheck id) := by intro _ w h; cases h
theorem wake (h : Nat) : Statement (Instr.wake h) := by intro _ w h; cases h
theorem mappingOpComplete : Statement (Instr.mappingOpComplete) := by intro _ w h; cases h
theorem instructionFetch (f : FetchRsp) : Statement (Instr.instructionFetch f) := by intro _ w h; cases h
theorem pauseExpiry (p cls : Nat) : Statement (Instr.pauseExpiry p cls) := by intro _ w h; cases h
theorem pauseRefresh (p cls : Nat) : Statement (Instr.pauseRefresh p cls) := by intro _ w h; cases h
theorem failoverTimeout (p : Nat) : Statement (Instr.failoverTimeout p) := by intro _ w h; cases h
theorem dedupExpiry : Statement (Instr.dedupExpiry) := by intro _ w h; cases h
theorem chunk (c : ChunkMsg) : Statement (Instr.chunk c) := by intro _ w h; cases h
theorem chunkack (tag tenant srcm chunk status : Nat) : Statement (Instr.chunkack tag tenant srcm chunk status) := by intro _ w h; cases h
theorem copyChunk (team : Nat) : Statement (Instr.copyChunk team) := by intro _ w h; cases h
theorem matrixStep (n : Nat) : Statement (Instr.matrixStep n) := by intro _ w h; cases h
theorem damperStep (n : Nat) : Statement (Instr.damperStep n) := by intro _ w h; cases h
theorem biasFlipDone : Statement (Instr.biasFlipDone) := by intro _ w h; cases h
theorem notifyPush (w : NotifyWrite) : Statement (Instr.notifyPush w) := by intro _ w h; cases h
theorem notifyStatusRead (pf slot off len : Nat) (r : StatusReader) : Statement (Instr.notifyStatusRead pf slot off len r) := by intro _ w h; cases h
theorem qifConfigWrite (i : Nat) (v : W64) : Statement (Instr.qifConfigWrite i v) := by intro _ w h; cases h
theorem qifReset (i : Nat) (v : W64) : Statement (Instr.qifReset i v) := by intro _ w h; cases h
theorem irqMapWrite (q e : Nat) (v : W64) : Statement (Instr.irqMapWrite q e v) := by intro _ w h; cases h
theorem lvalVerdict (v : W64) : Statement (Instr.lvalVerdict v) := by intro _ w h; cases h
theorem partEnable (q : Nat) (v : W64) : Statement (Instr.partEnable q v) := by intro _ w h; cases h
theorem partReset (q : Nat) (v : W64) : Statement (Instr.partReset q v) := by intro _ w h; cases h
theorem functionLevelReset (pf : Nat) : Statement (Instr.functionLevelReset pf) := by intro _ w h; cases h
theorem partSaveWrite (q : Nat) (v : W64) : Statement (Instr.partSaveWrite q v) := by intro _ w h; cases h
theorem partCsaveWrite (q : Nat) (v : W64) : Statement (Instr.partCsaveWrite q v) := by intro _ w h; cases h
theorem partQosWrite (q : Nat) (v : W64) : Statement (Instr.partQosWrite q v) := by intro _ w h; cases h
theorem wdogResume (q : Nat) : Statement (Instr.wdogResume q) := by intro _ w h; cases h
theorem wdogKill (q : Nat) : Statement (Instr.wdogKill q) := by intro _ w h; cases h
theorem bankCrossing (n kind bank : Nat) (r : EccReport) : Statement (Instr.bankCrossing n kind bank r) := by intro _ w h; cases h
theorem bankAsh (v : W64) : Statement (Instr.bankAsh v) := by intro _ w h; cases h
theorem homeOvfClear (h : Nat) (v : W64) : Statement (Instr.homeOvfClear h v) := by intro _ w h; cases h
theorem fcmdReplay (h : Nat) (v : W64) : Statement (Instr.fcmdReplay h v) := by intro _ w h; cases h
theorem fcmdDiscard (h : Nat) (v : W64) : Statement (Instr.fcmdDiscard h v) := by intro _ w h; cases h
theorem ptUnmap (v : W64) : Statement (Instr.ptUnmap v) := by intro _ w h; cases h
theorem ptSplit (v : W64) : Statement (Instr.ptSplit v) := by intro _ w h; cases h
theorem ptMove (v : W64) : Statement (Instr.ptMove v) := by intro _ w h; cases h
theorem ptReattribute (v : W64) : Statement (Instr.ptReattribute v) := by intro _ w h; cases h
theorem hotBaseWrite (q : Nat) (v : W64) : Statement (Instr.hotBaseWrite q v) := by intro _ w h; cases h
theorem dataFlit (p : Nat) (f : Flit) : Statement (Instr.dataFlit p f) := by intro _ w h; cases h
theorem nakFlit (p : Nat) (f : Flit) : Statement (Instr.nakFlit p f) := by intro _ w h; cases h
theorem pauseFlit (p : Nat) (h : FlitHead) (body : List Byte) : Statement (Instr.pauseFlit p h body) := by intro _ w h; cases h
theorem retrainComplete (p : Nat) (ok : Bool) : Statement (Instr.retrainComplete p ok) := by intro _ w h; cases h
theorem portRetrain (p : Nat) (v : W64) : Statement (Instr.portRetrain p v) := by intro _ w h; cases h
theorem flueLinkFailure (l : Nat) : Statement (Instr.flueLinkFailure l) := by intro _ w h; cases h
theorem throttleStep (d : Nat) (r : DieReading) : Statement (Instr.throttleStep d r) := by intro _ w h; cases h
theorem thermalHalt (d temp : Nat) : Statement (Instr.thermalHalt d temp) := by intro _ w h; cases h
theorem powerRemoval (d temp : Nat) : Statement (Instr.powerRemoval d temp) := by intro _ w h; cases h
theorem moduleReset (boot device home : Image) : Statement (Instr.moduleReset boot device home) := by intro _ w h; cases h
theorem attestationReport (nonce : BitVec 256) : Statement (Instr.attestationReport nonce) := by intro _ w h; cases h
theorem measExtend (i : Nat) (image : List Byte) : Statement (Instr.measExtend i image) := by intro _ w h; cases h
theorem biasToHost (v : W64) : Statement (Instr.biasToHost v) := by intro _ w h; cases h
theorem biasToDevice (v : W64) : Statement (Instr.biasToDevice v) := by intro _ w h; cases h
theorem hostMemoryAccess (a : HostAccess) : Statement (Instr.hostMemoryAccess a) := by intro _ w h; cases h
theorem atsInvalidation (pasid base pages : Nat) : Statement (Instr.atsInvalidation pasid base pages) := by intro _ w h; cases h
theorem pcieCompletion (id : Nat) (k : PcieKind) : Statement (Instr.pcieCompletion id k) := by intro _ w h; cases h
theorem timeWrite (v : W64) : Statement (Instr.timeWrite v) := by intro _ w h; cases h
theorem emuEret (q : Nat) : Statement (Instr.emuEret q) := by intro _ w h; cases h
theorem emuKill (q : Nat) : Statement (Instr.emuKill q) := by intro _ w h; cases h
theorem emuRegWrite (q n : Nat) (v : W64) : Statement (Instr.emuRegWrite q n v) := by intro _ w h; cases h
theorem registerWrite (r : CtlReg) (v : W64) : Statement (Instr.registerWrite r v) := by intro _ w h; cases h
theorem backInvalidationResponse (gran line : Nat) (dirty : Option (List Byte)) : Statement (Instr.backInvalidationResponse gran line dirty) := by intro _ w h; cases h
theorem cxlCacheResponse (ptr : W64) (bytes : List Byte) : Statement (Instr.cxlCacheResponse ptr bytes) := by intro _ w h; cases h

end Sys2Proof.Laws.Encodes
end

