-- ==== Sys2Proof/Tests/Slice0.lean ====
section
/-! SUPPORT. Tests: ill-formed terms that the check refuses, words written out from the manual's encodings, and one-step tests whose
results are the manual's own examples or hand calculation from its rules. -/

-- Proofs are checked one after another: checked side by side, their threads need more memory than a build has.
set_option Elab.async false

namespace Sys2Proof.Tests
open Sys2Proof.Machine Sys2Proof.Safety

/-! ## Ill-formed terms -/

/-- Pairs in odd registers are refused (R248, R255). -/
theorem test_wf_refuses_odd_pairs : ([.vadd true 1 2 4 false false, .vmulhI true 2 3 4 false false, .vsel true 2 4 5 false false,
    .vabs true 3 2 false, .vmov true 2 3 false, .vcmp .eq true 1 3 4 false false, .vbcastB64 3 4 false, .vcvt .i64 .i32 3 2 false,
    .vcvt .i32 .i64 2 3 false, .vred .add true 4 3 false, .vscan .add true false 3 2 false, .vld 3 4 5 false false .b64 .rlx .dev,
    .xst 3 4 5 false false .b64 .rlx .dev, .vatom .add 4 3 5 .rlx .dev, .scas2 3 4 6 .rlx .dev, .scas2 4 5 7 .rlx .dev,
    .vcas 4 3 5 .rlx .dev, .cpy2d 1 2 3 5, .tqenq 1 2 3, .tqdeq 3 2] : List Instr).all (fun i => !i.wf) = true := by decide
/-- Register 0 is refused where the encoding needs a destination (R256, R262, R264). -/
theorem test_wf_refuses_zero : ([.kif 0 1, .kelse 0, .kjoin 0, .scas2 0 2 4 .rlx .dev, .waitc64 .eq 0 4 5 .rlx .dev,
    .waitc32 .ge 0 4 5 .acq .dev, .tqdeq 0 2, .fltinfo 5 4] : List Instr).all (fun i => !i.wf) = true := by decide
/-- Forms that do not exist are refused (R256, R258 to R260, R262, R349). -/
theorem test_wf_refuses_forms : ([.vcvt .i8 .i8 2 4 false, .vred .fadd true 4 2 false, .vscan .fmin true true 2 4 false,
    .vfdiv .bf16 2 4 6 false false, .vfexp2 .bf16 2 4 false, .vflog2 .bf16 2 4 false, .vfsinp .bf16 2 4 false, .vfcosp .bf16 2 4 false,
    .vfcvt .f32 .f32 2 4 false, .vfcvt .i32 .n32 2 4 false, .vatom .addB32 4 6 8 .rlx .dev, .fence .rlx .dev] : List Instr).all
      (fun i => !i.wf) = true := by decide
/-- Steps that name something the part does not have are refused. -/
theorem test_wf_refuses_ranges : ([.requestNop 1024 0, .notifyStatusRead 8 0 64 8 { rid := 0 }, .irqMapWrite 64 0 0, .irqMapWrite 0 16 0,
    .functionLevelReset 8, .partEnable 64 0, .quantumBoundary 36, .coreCycle 144, .wake 37, .retrainComplete 8 true, .pauseExpiry 0 4,
    .thermalHalt 6 105, .measExtend 8 []] : List Instr).all (fun i => !i.wf) = true := by decide

/-! ## Words written out from the manual's encodings -/

/-- Majors 0x01 to 0x0A: examples of chapters 15 and 18 (MAJ [31:26], rd [25:20], ra [19:14], imm13 [12:0] or rb [13:8] and fn). -/
theorem test_decode_scalar : ([(0x05224017, .smov 18 9 false), (0x04814016, .spopc 8 5 false), (0x0441050A, .sor 4 4 5 false false),
    (0x08C04300, .saddi 12 1 false 768), (0x0B3C5FF8, .saddi 51 49 false 0x1FF8), (0x0F1C40FF, .sandi 49 49 false 0xFF),
    (0x14818100, .sxori 8 6 false 0x100), (0x18514018, .sshli 5 5 false 24), (0x1F1D4028, .sshri 49 53 false 40),
    (0x27000000, .smovi 48 0), (0x28400001, .smovSpecial 4 .wg), (0x28500005, .smovSpecial 5 .core)] : List (Nat × Instr)).all
      (fun x => decode x.1 == .ok x.2) = true := by decide
/-- Majors 0x10 to 0x14: examples of chapters 10, 11, 17 and 18. -/
theorem test_decode_vector : ([(0x40410200, .vadd false 4 4 2 false false), (0x4051060A, .vshl false 5 4 6 false false),
    (0x4030840B, .vshr false 3 2 4 false false), (0x40108522, .vcmp .ltI false 1 2 5 false false), (0x4010C520, .vcmp .eq false 1 3 5 false false),
    (0x48308064, .vaddi 3 2 false 100), (0x48309F9C, .vaddi 3 2 false 0x1F9C), (0x50200001, .vlane 2), (0x50510000, .vbcastB32 5 4 false)]
      : List (Nat × Instr)).all (fun x => decode x.1 == .ok x.2) = true := by decide
/-- Major 0x15: the example of chapter 11; majors 0x16 to 0x18: those of chapter 12. -/
theorem test_decode_masks_lanes : ([(0x5420400A, .kif 2 1), (0x5420000B, .kelse 2), (0x5400800C, .kjoin 2), (0x54600006, .kpopc 6 (.k 0)),
    (0x55104006, .kpopc 17 (.k 1)), (0x58608303, .vshflXor 6 2 3 false false), (0x58918304, .vext 9 6 3 false false),
    (0x5CA18000, .vred .add false 10 6 false), (0x5C710008, .vred .fadd false 7 4 false), (0x60510008, .vscan .fadd false false 5 4 false),
    (0x60810028, .vscan .fadd false true 8 4 false)] : List (Nat × Instr)).all (fun x => decode x.1 == .ok x.2) = true := by decide
/-- Majors 0x20 to 0x23, from R259 and R260: MAJ × 2^26 + rd × 2^20 + ra × 2^14 + rb × 2^8 + fn; the `vfcvt` of chapter 12. -/
theorem test_decode_float : ([(0x20 * 2 ^ 26 + 3 * 2 ^ 20 + 1 * 2 ^ 14 + 2 * 2 ^ 8, .vfadd .f32 3 1 2 false false),
    (0x21 * 2 ^ 26 + 3 * 2 ^ 20 + 1 * 2 ^ 14 + 2 * 2 ^ 8 + 0x03, .vffma .f16 3 1 2 false false),
    (0x22 * 2 ^ 26 + 3 * 2 ^ 20 + 1 * 2 ^ 14 + 0x12, .vfsqrt .bf16 3 1 false),
    (0x20 * 2 ^ 26 + 3 * 2 ^ 20 + 1 * 2 ^ 14 + 2 * 2 ^ 8 + 0x19, .vfcmp .lt .f32 3 1 2 false false),
    (0x8C614018, .vfcvt .e4m3 .f32 6 5 false)] : List (Nat × Instr)).all (fun x => decode x.1 == .ok x.2) = true := by decide
/-- Majors 0x2C to 0x33: encodings at a glance of chapter 13 and examples of chapter 16. -/
theorem test_decode_memory : ([(0xB0414636, .sld 4 5 6 false false .b64 .acq .dev), (0xB471403A, .sst 7 5 0 false false .b64 .rel .dev),
    (0xB0C20025, .sld 12 8 0 false false .b32 .acq .die), (0xC0608302, .vldb 6 2 3 false false .rlx .dev),
    (0xC0608322, .vstb 6 2 3 false false .rlx .dev), (0xC4510620, .xld 5 4 6 false false .b32 .rlx .wg),
    (0xCC318020, .xstb 3 6 0 false false .rlx .wg), (0xCC520000, .xldb 5 8 0 false false .rlx .wg)] : List (Nat × Instr)).all
      (fun x => decode x.1 == .ok x.2) = true := by decide
/-- Majors 0x34 to 0x37. -/
theorem test_decode_atomics : ([(0xD041460E, .satom .add 4 5 6 .ar .dev), (0xD4A30E92, .vatom .faddF32 10 12 14 .rlx .dev),
    (0xD841461E, .scas true 4 5 6 .ar .dev), (0xD8824A66, .waitc64 .ge 8 9 10 .acq .dev), (0xD8B04D86, .waitc32 .eq 11 1 13 .acq .dev),
    (0xDC000006, .fence .acq .dev), (0xDC000012, .fenceSc .dev), (0xDC310540, .barSync 3 4 5)] : List (Nat × Instr)).all
      (fun x => decode x.1 == .ok x.2) = true := by decide
/-- Majors 0x38 to 0x3B: examples of chapters 14 and 17; `cred` from R263. -/
theorem test_decode_engines : ([(0xE0910506, .cpy 9 4 5 6), (0xE4028B00, .mcfg 10 11), (0xE4050010, .midx 20), (0xE4C34E24, .mloop 12 13 14 true 0),
    (0xE4F01020, .mloop 15 0 16 false 0), (0xE4000030, .mzero false), (0xE5844048, .mmovRegister 24 17),
    (0x3A * 2 ^ 26 + 4 * 2 ^ 14, .cred 4), (0xE8F00031, .efence .m 15), (0xE903C041, .ewait .m 16 15), (0xED60D400, .tqenq 22 3 20),
    (0xED408010, .tqdeq 20 2), (0xEDB70020, .tqdec 27 28), (0xECE34030, .launch 14 13 0)] : List (Nat × Instr)).all
      (fun x => decode x.1 == .ok x.2) = true := by decide
/-- Majors 0x3C to 0x3F: the first-touch handler of chapter 15, the control flow and hints of chapters 10 and 16, R267. -/
theorem test_decode_system : ([(0xF0000002, .eret), (0xF0500003, .ctlrd 5), (0xF0000005, .sigchk), (0xF0F00007, .capq 15 0), (0xF34C0009, .fltinfo 52 48),
    (0xF000000A, .replay 0 0), (0xF000000B, .replayDiscard 0 0), (0xF32D000C, .pmap 50 52 0), (0xF4440019, .brScalar .nz 4 25),
    (0xF494000B, .brScalar .lt 20 11), (0xF680FFF5, .jmp 0xFFF5), (0xF7400000, .exit), (0xF7800000, .nop), (0xF8000001, .hintImm 1),
    (0xF8800200, .hintOff 0x200), (0xF9000008, .hintMod 0 true false 0), (0x3F * 2 ^ 26 + 1 * 2 ^ 18 + 5, .extensionWord 1 5)]
      : List (Nat × Instr)).all (fun x => decode x.1 == .ok x.2) = true := by decide
/-- Reserved encodings are refused by name and do not fall through to a neighbour (R252, R263). -/
theorem test_decode_refuses : (decode 0 == .error .major) && ((decode 0xF0000000).toOption.isNone) && ((decode 0xE00000C0).toOption.isNone)
    && ((decode 0xDC000002).toOption.isNone) && ((decode 0x8C600000).toOption.isNone) = true := by decide
/-- What the host's probes read: a word of the table decodes, and stands where the next step fetches. -/
theorem test_table_word : decodeTableWord 32 0xF7800000 = some .nop ∧ decodeTableWord 32 0 = none := by decide

/-! ## A small state -/

/-- A team of 32 lanes on the Hob of core 0, alone in its workgroup, in a running launch of partition 0 that has every right on key 0. -/
def demo : State :=
  { State.reset with
    cur := { id := 1, wg := 2, width := 32, pc := 0x1000, status := .hob, k := (Vector.replicate 16 (0 : Mask)).set 0 (fullMask 32)
             v := List.replicate 64 { lanes := List.replicate 32 0 } }
    wgs := [{ id := 2, launch := 3, teams := [1], cores := [0], share := 1024, atiles := 1 }]
    launches := [{ id := 3, phase := .running, sigptr := 0x2000, seqno := 9 }]
    pkt := [((0, 0), 7)]
    nextId := 10 }
/-- The demo team with a scalar register set. -/
def withS (r : Reg) (v : W64) (s : State) : State := { s with cur := s.cur.ss r v }
/-- The demo team with every lane of a vector register set. -/
def withV (r : Reg) (v : W32) (s : State) : State := { s with cur := s.cur.sv r fun _ => some v }
/-- The demo team behind one `hint.imm`. -/
def withImm (v : W64) (s : State) : State := { s with cur := { s.cur with hint := { imm := v, nimm := 1, lastImm := true } } }
/-- The demo team in handler state, entered with cause 0x08. -/
def inHandler (s : State) : State := { s with cur := { s.cur with handler := true, tr := { cause := 8, pc := 0x1004, ipc := 0x1000, k0 := fullMask 32 } } }
/-- What a scalar register holds after an instruction. -/
def sAfter (i : Instr) (r : Reg) (s : State) : Option W64 := match exec i s with | .next u => some (u.cur.gs r) | _ => none
/-- What a lane holds after an instruction. -/
def vAfter (i : Instr) (r : Reg) (l : Nat) (s : State) : Option W32 := match exec i s with | .next u => some (u.cur.lane r l) | _ => none
/-- Some property of the state an instruction leaves. -/
def after (i : Instr) (p : State → Bool) (s : State) : Bool := match exec i s with | .next u => p u | _ => false

/-! ## One step each: results from the manual's examples, or calculated by hand from its rules -/

/-- R287: addition wraps, division by zero and signed overflow have the results of the table. -/
theorem test_scalar_corners :
    sAfter (.sadd 4 5 6 false false) 4 (withS 5 (BitVec.allOnes 64) (withS 6 2 demo)) = some 1
    ∧ sAfter (.sdivI64 4 5 6 false false) 4 (withS 5 7 demo) = some (BitVec.allOnes 64)
    ∧ sAfter (.sdivI64 4 5 6 false false) 4 (withS 5 0x8000000000000000 (withS 6 (BitVec.allOnes 64) demo)) = some 0x8000000000000000
    ∧ sAfter (.sremI64 4 5 6 false false) 4 (withS 5 0xFFFFFFFFFFFFFFF9 (withS 6 2 demo)) = some (BitVec.allOnes 64) := by decide +kernel
/-- R288: the manual's example, A = 0xABC000 and B = 0x0C0C. -/
theorem test_sbfx : sAfter (.sbfxN64 4 5 6 false false) 4 (withS 5 0xABC000 (withS 6 0x0C0C demo)) = some 0xABC
    ∧ sAfter (.sbfxI64 4 5 6 false false) 4 (withS 5 0xABC000 (withS 6 0x0C0C demo)) = some 0xFFFFFFFFFFFFFABC := by decide +kernel
/-- R287: `ssra` copies the sign, `sclz` of zero is 64. -/
theorem test_scalar_shift : sAfter (.ssra 4 5 6 false false) 4 (withS 5 0x8000000000000000 (withS 6 63 demo)) = some (BitVec.allOnes 64)
    ∧ sAfter (.sclz 4 5 false) 4 demo = some 64 ∧ sAfter (.smulhN64 4 5 5 false false) 4 (withS 5 (BitVec.allOnes 64) demo) = some 0xFFFFFFFFFFFFFFFE := by decide +kernel
/-- R289: −64 clears bits [5:0]; s0 discards what is written (R103). -/
theorem test_immediates : sAfter (.sandi 4 5 false 0x1FC0) 4 (withS 5 0x12345 demo) = some 0x12340
    ∧ sAfter (.smovi 0 5) 0 demo = some 0 ∧ sAfter (.smovi 4 0x1FFF) 4 demo = some (BitVec.allOnes 64) := by decide +kernel
/-- R311: 32-bit lanes wrap; R312: a comparison fills the mask under k0. -/
theorem test_vector : vAfter (.vadd false 4 5 6 false false) 4 31 (withV 5 0xFFFFFFFF (withV 6 2 demo)) = some 1
    ∧ after (.vcmp .ltI false 1 5 6 false false) (fun u => u.cur.gk 1 == fullMask 32) (withV 5 0xFFFFFFFF (withV 6 2 demo)) = true := by decide +kernel
/-- R314: two packs collect bytes; `vlane` gives the lane's number. -/
theorem test_pack : vAfter (.vpackB8 4 5 6 false false) 4 0 (withV 4 0xAABB0000 (withV 5 0x11 (withV 6 0x22 demo))) = some 0x2211AABB
    ∧ vAfter (.vlane 4) 4 17 demo = some 17 := by decide +kernel
/-- R318, R220: 1.0 + 2.0 in FP32, and 2^24 + 1 is a tie that rounds to even and raises inexact (R329's example). -/
theorem test_fadd : vAfter (.vfadd .f32 4 5 6 false false) 4 0 (withV 5 0x3F800000 (withV 6 0x40000000 demo)) = some 0x40400000
    ∧ vAfter (.vfadd .f32 4 5 6 false false) 4 0 (withV 5 0x4B800000 (withV 6 0x3F800000 demo)) = some 0x4B800000 := by decide +kernel
/-- R301: the then-part of the manual's example runs in lanes 0 to 39, here with lanes 0 to 7 of 32. -/
theorem test_kif : after (.kif 2 1) (fun u => u.cur.gk 0 == 0xFF && u.cur.gk 2 == fullMask 32)
    { demo with cur := demo.cur.sk 1 0xFF } = true := by decide +kernel
/-- R300, R302: `kffs` of no lane is all ones, `kvote.all` under an empty k0 is 1. -/
theorem test_masks : sAfter (.kffs 4 (.k 1)) 4 demo = some (BitVec.allOnes 64)
    ∧ sAfter (.kvoteAll 4 (.k 1)) 4 { demo with cur := demo.cur.sk 0 0 } = some 1 := by decide +kernel
/-- R327: the shuffle of the manual's example reads lane l xor c, or the lane itself. -/
theorem test_shuffle : vAfter (.vshflXor 6 2 3 false false) 6 1 (withS 3 64 (withV 2 9 demo)) = some 9
    ∧ sAfter (.vext 9 6 3 false false) 9 (withS 3 64 demo) = some 0 := by decide +kernel
/-- R329: the sum of thirty-two ones. -/
theorem test_reduce : sAfter (.vred .add false 4 5 false) 4 (withV 5 1 demo) = some 32 := by decide +kernel
/-- R293, R294: a taken branch to itself, a call that links, a misaligned `jr` that traps and, with no handler, kills. -/
theorem test_control : after (.brScalar .z 0 0xFFFF) (fun u => u.cur.pc == 0xFFC) demo = true
    ∧ after (.call 62 2) (fun u => u.cur.pc == 0x1008 && u.cur.gs 62 == 0x1004) demo = true
    ∧ after (.jr 5 0) (fun u => u.cur.dead || u.cur.id != 1) (withS 5 2 demo) = true := by decide +kernel
/-- R270: three hints build one value, 23 bits each after the first. -/
theorem test_hints : after (.hintImm 1) (fun u => u.cur.hint.imm == 0x800005) (withImm 1 demo |> fun s => s) = false
    ∧ after (.hintImm 5) (fun u => u.cur.hint.imm == 0x800005 && u.cur.hint.nimm == 2) (withImm 1 demo) = true := by decide +kernel
/-- R341, R342: a scratchpad store and the bytes of the share. -/
theorem test_scratchpad : after (.xst 5 6 7 false false .b32 .rlx .wg)
    (fun u => ((wgOf 2 u).map fun w => w.spBytes 8 4) == some [0x78, 0x56, 0x34, 0x12])
      { withV 5 0x12345678 (withS 6 8 demo) with cur := (withV 5 0x12345678 (withS 6 8 demo)).cur.sk 0 1 } = true := by decide +kernel
/-- R349: a fence in a team with nothing outstanding; R352: the lone team of a workgroup completes its barrier. -/
theorem test_sync : after (.fence .acq .dev) (fun u => u.cur.pc == 0x1004) demo = true
    ∧ after (.barSync 4 0 5) (fun u => u.cur.pc == 0x1004 && u.cur.gs 4 == 0x100000000) demo = true := by decide +kernel
/-- R361: a copy empties its token; R371: `mburst` sets the hold count. -/
theorem test_engines : after (.cpy 4 6 8 10) (fun u => !(u.cur.sreg 4).full && u.cur.c.inFlight == 1) demo = true
    ∧ after (.mburst 4) (fun u => (coreOf 0 u).hold == some 2048) (withS 4 2048 demo) = true := by decide +kernel
/-- R372: with nothing queued the timeline stands at 0 and a fence of the M context delivers batch 0. -/
theorem test_timeline : sAfter (.tlrd .m 4 0) 4 demo = some 0 ∧ sAfter (.efence .m 4) 4 demo = some 0 := by decide +kernel
/-- R392: `capq` of an idle core's VRF: 64 usable banks, 4 spares, 512 granules free. -/
theorem test_capq : sAfter (.capq 4 6) 4 (withS 6 0 demo) = some (w64 (64 + 4 * 2 ^ 8 + 512 * 2 ^ 16)) := by decide +kernel
/-- R386: `eret` restores k0, the resume address and normal state. -/
theorem test_eret : after .eret (fun u => !u.cur.handler && u.cur.pc == 0x1004 && u.cur.gk 0 == fullMask 32) (inHandler demo) = true := by decide +kernel
/-- R388: a trap with no handler vector kills the team (R380). -/
theorem test_trap : after (.trap 5) (fun u => u.cur.dead || u.cur.status == .gone) demo = true := by decide +kernel
/-- A step runs the word at the pc: the next pc is that of the following word. -/
theorem test_step_runs_word : (match step (demo.withFetchWord 32 0xF7800000) with | .next u => u.cur.pc == 0x1004 | _ => false) = true := by decide +kernel
/-- The first step after reset runs a placed word. -/
theorem test_first_step : (match step (State.reset.withFetchWord 32 0x27000000) with | .next u => u.cur.gs 48 == 0 && u.cur.pc == 4 | _ => false) = true := by decide +kernel

end Sys2Proof.Tests
end

