-- ==== Sys2Proof/Tests/Witness.lean ====
section
/-! SUPPORT. For every statement that has hypotheses, a state and operands that meet them together, clause by clause, at the ends of
their ranges where a clause has a range. The state `demo` holds one team of 32 lanes on the Hob. -/

-- Proofs are checked one after another: checked side by side, their threads need more memory than a build has.
set_option Elab.async false

namespace Sys2Proof.Tests
open Sys2Proof.Machine Sys2Proof.Safety

/-- Every instruction of a list may issue in a state. -/
def allReady (l : List Instr) (s : State) : Bool := l.all (ready · s)
/-- The demo team, changed. -/
def withT (f : Team → Team) (s : State) : State := { s with cur := f s.cur }
/-- A pointer that carries key 1, on which the demo partition has no right. -/
def noRight : W64 := 0x0100000000001000

/-! ## Registers -/

theorem witness_ScalarResults : allReady [.sadd 4 6 8 false true, .ssub 4 6 8 false false, .smul 4 6 8 true false, .smulhI64 4 6 8 false false,
    .smulhN64 4 6 8 false false, .sdivI64 4 6 8 false false, .sdivN64 4 6 8 false false, .sremI64 4 6 8 false false, .sremN64 4 6 8 false false,
    .sand 4 6 8 false false, .sor 4 6 8 false false, .sxor 4 6 8 false false, .sandn 4 6 8 false false, .sshl 4 6 8 false false,
    .sshr 4 6 8 false false, .ssra 4 6 8 false false, .sminI64 4 6 8 false false, .sminN64 4 6 8 false false, .smaxI64 4 6 8 false false,
    .smaxN64 4 6 8 false false, .sclz 4 6 false, .sctz 4 6 false, .spopc 4 6 false, .smov 0 6 false, .ssel 4 6 8 false false,
    .sbfxI64 4 6 8 false false, .sbfxN64 4 6 8 false false, .sbfi 63 6 8 false false, .scmp .eq 4 6 8 false false, .scmp .ne 4 6 8 false false,
    .scmp .ltI 4 6 8 false false, .scmp .geI 4 6 8 false false, .scmp .ltN 4 6 8 false false, .scmp .geN 4 6 8 false false] demo = true := by
  decide +kernel
theorem witness_ScalarImmediateResults :
    allReady [.saddi 4 6 false 0x1000, .sandi 4 6 false 0xFFF, .sori 4 6 true 0, .sxori 0 6 false 1, .smovi 4 0] demo = true
    ∧ allReady [.saddi 4 6 false 0, .sandi 4 6 false 0, .sori 4 6 false 0, .sxori 4 6 false 0, .smovi 4 0] (withImm 5 demo) = true
    ∧ allReady [.sshli 4 6 false 63, .sshri 4 6 false 0, .ssrai 4 6 false 63, .smovSpecial 4 .team, .smovSpecial 4 .wg, .smovSpecial 4 .wgdim,
      .smovSpecial 4 .grid, .smovSpecial 4 .stage, .smovSpecial 4 .core, .smovSpecial 4 .die, .smovSpecial 4 .width, .smovSpecial 4 .time]
      demo = true := by decide +kernel
/-- Every instruction of majors 0x10 and 0x11 that statements name, at a width. -/
def vectorWords (w : Bool) : List Instr := [.vadd w 4 6 8 false false, .vsub w 4 6 8 false true, .vmul w 4 6 8 false false, .vmulhI w 4 6 8 false false,
  .vmulhN w 4 6 8 false false, .vmad w 4 6 8 false false, .vand w 4 6 8 false false, .vor w 4 6 8 false false, .vxor w 4 6 8 false false,
  .vandn w 4 6 8 false false, .vshl w 4 6 8 false false, .vshr w 4 6 8 false false, .vsra w 4 6 8 false false, .vminI w 4 6 8 false false,
  .vminN w 4 6 8 false false, .vmaxI w 4 6 8 false false, .vmaxN w 4 6 8 false false, .vabs w 4 6 false, .vclz w 4 6 false, .vpopc w 4 6 false,
  .vmov w 62 6 false, .vsel w 4 6 8 false false]
theorem witness_VectorIntegerResults : allReady (vectorWords false) demo = true ∧ allReady (vectorWords true) demo = true := by decide +kernel
theorem witness_VectorMoveResults :
    allReady [.vaddi 4 6 false 0x1FFF, .vcvt .i8 .i64 5 6 false, .vcvt .i64 .n8 6 5 false, .vbcastB32 5 6 false, .vbcastB64 62 6 false, .vlane 63,
      .vpackB16 4 6 8 false false, .vpackB8 4 6 8 false false, .vunpackB16 4 6 8 false false, .vunpackB8 4 6 8 false false] demo = true
    ∧ IType.i8.wide = false ∧ IType.i64.wide = true
    ∧ ((itypeRange .i8).1 ≤ itypeRead .i16 0xFF80 ∧ itypeRead .i16 0xFF80 ≤ (itypeRange .i8).2)
    ∧ itypeRead .i16 0xFF7F < (itypeRange .i8).1 ∧ (itypeRange .i8).2 < itypeRead .i16 0x80 := by decide +kernel
theorem witness_VectorCompareResults : allReady [.vcmp .eq false 1 5 7 false false, .vcmp .ne true 15 6 8 false false, .vcmp .ltI false 1 5 7 false false,
    .vcmp .geI true 1 6 8 false false, .vcmp .ltN false 1 5 7 false false, .vcmp .geN true 1 6 8 false false, .vfcmp .eq .f32 1 5 7 false false,
    .vfcmp .ne .f16 1 5 7 false false, .vfcmp .lt .bf16 1 5 7 false false] demo = true ∧ someActive demo = true
    ∧ someActive (withT (·.sk 0 0) demo) = false := by decide +kernel
theorem witness_VectorFloatResults : allReady [.vfadd .f32 4 6 8 false false, .vfsub .f16 4 6 8 false false, .vfmul .bf16 4 6 8 false false,
    .vffma .f32 4 6 8 false false, .vfmin .f32 4 6 8 false false, .vfmax .f16 4 6 8 false false, .vfsgn .f32 4 6 8 false false,
    .vfsgnNeg .f32 4 6 8 false false, .vfsgnXor .f32 4 6 8 false false, .vfclass .f32 4 6 false, .vfround .f32 4 6 false, .vfrcp .f32 4 6 false,
    .vfrsqrt .f32 4 6 false, .vfsqrt .bf16 4 6 false, .vfdiv .f32 4 6 8 false false, .vfexp2 .f16 4 6 false, .vflog2 .f32 4 6 false,
    .vfsinp .f32 4 6 false, .vfcosp .f32 4 6 false, .vfcvt .e4m3 .f32 4 6 false, .vfcvt .f32 .i32 4 6 false] demo = true := by decide +kernel
theorem witness_MaskResults : allReady [.kmov 0 (.k 1), .kand 1 (.k 1) (.f 0), .kor 15 (.k 1) (.k 2), .kxor 1 (.k 1) (.k 2), .kandn 1 (.k 1) (.f 4), .knot 1 (.k 1),
    .kwwr 1 6 8 false false, .kflag 1 4, .kpopc 4 (.k 0), .kffs 4 (.k 1), .kwrd 4 (.k 1) 6 false, .kvoteAny 4 (.k 1), .kvoteAll 4 (.k 1),
    .flrd 4 0 6 false, .flclr (some 0), .flclr none, .kif 1 2, .kelse 15, .kjoin 1] demo = true := by decide +kernel
theorem witness_LaneResults : allReady [.vperm 4 6 8 false false, .vshflUp 4 6 8 false false, .vshflDn 4 6 8 false false, .vshflXor 4 6 8 false false,
    .vext 4 6 8 false false, .vins 4 6 8 false false, .vred .add false 4 6 false, .vred .minI true 4 6 false, .vred .fadd false 4 6 false,
    .vscan .add true true 4 6 false, .vscan .fadd false false 4 6 false] demo = true := by decide +kernel

/-! ## Control flow -/

theorem witness_ControlFlowResults : allReady [.brScalar .z 4 0x8000, .brScalar .nz 4 0x7FFF, .brScalar .lt 4 0, .brScalar .ge 4 0, .brScalar .gt 4 0, .brScalar .le 4 0,
      .brMask .kany 1 0, .brMask .knone 1 0, .brMask .kall 1 0, .brMask .knall 1 0, .jmp 0, .call 62 0, .jr 62 0, .nop, .exit] demo = true
    ∧ awake demo = true ∧ (demo.cur.gs 4).toInt = 0 ∧ ¬ (demo.cur.gs 4).toInt < 0 ∧ demo.cur.gk 1 = 0
    ∧ ((withS 4 2 demo).cur.gs 4 + 4 * (0 : BitVec 16).signExtend 64).toNat % 4 = 2 ∧ ready (.jr 4 0) (withS 4 2 demo) = true := by decide +kernel

/-! ## Memory -/

/-- The accesses of a scalar instruction, and of a vector instruction whose active lanes have one address. -/
def oneAcc (p : W64) (n : Nat) : List Acc := [{ lane := 0, ptr := p, size := n }]
/-- For a list of accesses with the rights they need: misaligned; aligned without the rights; aligned with the rights and room. -/
def accessClauses (need : BitVec 3) (mis bad good : List Acc) (s : State) : Bool :=
  let misaligned (l : List Acc) : List Acc := l.filter fun a => decide (vaOf a.ptr % a.size ≠ 0)
  let refused (l : List Acc) : List Acc := l.filter fun a => decide (pktOf s.cur.part (keyOf a.ptr) s &&& need ≠ need)
  !(misaligned mis).isEmpty && (misaligned bad).isEmpty && !(refused bad).isEmpty && (misaligned good).isEmpty && (refused good).isEmpty
    && decide ((s.lsu.filter fun e => e.tracked && e.req.core == s.cur.core).length + (lineGroups s.cur.width good).length ≤ 1024)
theorem witness_GlobalAccesses : allReady [.sld 4 6 8 false false .b64 .acq .dev, .sst 4 6 8 false false .b8 .rel .sys, .vld 4 6 8 false false .b64 .rlx .dev,
      .vst 0 6 8 false false .b16 .rlx .dev, .vldb 4 6 8 false false .rlx .dev, .vstb 4 6 8 false false .rel .dev] demo = true
    ∧ allReady [.vld 4 6 8 false false .b64 .rlx .dev] (withT (·.sk 0 0) demo) = true
    ∧ accessClauses 1 (oneAcc 0x1007 8) (oneAcc noRight 8) (oneAcc 0x1FF8 8) demo = true
    ∧ accessClauses 2 (oneAcc 0x1001 2) (oneAcc noRight 2) (oneAcc 0x1FFE 2) demo = true := by decide +kernel
theorem witness_AtomicAccesses : allReady [.satom .add 4 6 8 .rlx .dev, .satom .faddF16 4 6 8 .rlx .dev, .vatom .add 4 6 8 .ar .dev, .scas true 4 6 8 .rlx .dev,
      .scas false 4 6 8 .acq .dev, .scas2 4 6 8 .rlx .dev, .vcas 4 6 8 .rlx .dev, .waitc64 .ge 4 6 8 .rlx .dev, .waitc32 .eq 4 6 8 .acq .sys] demo = true
    ∧ accessClauses 3 (oneAcc 0x1008 16) (oneAcc noRight 16) (oneAcc 0x1FF0 16) demo = true
    ∧ accessClauses 1 (oneAcc 0x1002 4) (oneAcc noRight 4) (oneAcc 0x1FFC 4) demo = true := by decide +kernel
/-- A share of 1,024 bytes: the last word lies in it, the next word does not. -/
theorem witness_ScratchpadAccesses : allReady [.xst 4 6 8 false false .b32 .rlx .wg, .xstb 4 6 8 false false .rlx .wg, .xld 4 6 8 false false .b64 .rlx .wg,
      .xldb 4 6 8 false false .rlx .wg] demo = true
    ∧ ((wgOf demo.cur.wg demo).getD {}).share = 1024 ∧ 1021 % 4 ≠ 0 ∧ 1024 % 4 = 0 ∧ 1024 < 1024 + 4 ∧ 1020 % 4 = 0 ∧ ¬ 1024 < 1020 + 4
    ∧ spWaits .rlx true demo = false ∧ spWaits .acq false demo = false
    ∧ spWaits .rlx false (withT (fun t => { t with spq := [{ id := 3, store := true, ord := .rlx, dst := 4, pair := false, inh := false, accs := [] }] }) demo) = true
    ∧ ((wgOf demo.cur.wg demo).getD {}).spoison = [] ∧ ((wgOf demo.cur.wg demo).getD {}).wide = false
    ∧ (let w : Workgroup := { (wgOf 2 demo).getD {} with wide := true }
       let s : State := { demo with wgs := [w] }
       let late : State := modHome 0 (fun h => { h with held := [{ agent := .ctrl, op := .write, core := 0 }] }) s
       (wgOf s.cur.wg s).getD {} = w ∧ w.wide = true ∧ spWaits .rel true s = false ∧ spWaits .acq false s = false ∧ (spRelease w s).1 = true
       ∧ spWaits .rel true late = false ∧ (spRelease w late).1 = false) := by decide +kernel
theorem witness_FencesAndBarriers :
    allReady [.fence .acq .dev, .fence .rel .sys, .fence .ar .wg, .fenceSc .dev, .barArr 4 0, .barWait 4 63, .barSync 4 6 5] demo = true
    ∧ pendingArrival 5 demo = none ∧ latestArrival 5 demo = none ∧ (teamBar 5 demo).phase = 0
    ∧ demo.cur.syncAt = none ∧ (withT (fun t => { t with exited := true }) (inHandler demo)).cur.exited = true
    ∧ ready (.barArr 4 0) (withT (fun t => { t with exited := true }) (inHandler demo)) = true
    ∧ (let u := (issueEntry (.barArr 5 1) .rel .wg demo).2
       let m : State := { u with cur := { u.cur with syncAt := some (u.cur.pc, 5) } }
       (pendingArrival 5 m == none && latestArrival 5 m == some 0 && (teamBar 5 m).phase == 1 && ready (.barSync 4 6 5) m) = true) := by
  decide +kernel
theorem witness_MemoryReadsBack : Memory.wf [] = true ∧ Memory.wf [(3, 1), (7, 255)] = true := by decide

/-! ## Engines -/

/-- A pending operation of an engine context. -/
def someOp (i : Nat) (op : EOp) : EngOp := { id := i, batch := 1, op := op, pc := 0 }
/-- A well-formed matrix configuration of the demo team, with B in global memory or not. -/
def demoCfg (glob : Bool) : MCfg :=
  { m := 16, n := 16, fmt := 0, sat := false, bsrc := glob, tile := 0, sra := 0, srb := 0, astride := 0, fa := 0, fb := 0 }
theorem witness_CopyIssue : allReady [.cpy 4 6 8 10, .cpy2d 0 6 8 10] demo = true ∧ allReady [.cpy 4 6 8 10] (withS 6 noRight demo) = true
    ∧ pktOf 0 (keyOf (demo.cur.gs 6)) demo &&& 2 = 2 ∧ pktOf 0 (keyOf (demo.cur.gs 8)) demo &&& 1 = 1
    ∧ pktOf 0 (keyOf ((withS 6 noRight demo).cur.gs 6)) demo &&& 2 ≠ 2
    ∧ ({ ops := List.replicate 15 (someOp 1 (.copy 0 0 1 0 0 0 0 0 0 false)) } : Ectx).inFlight < 16 := by decide +kernel
theorem witness_MatrixIssue :
    allReady [.mcfg 4 6, .midx 4, .mloop 4 6 8 false 0, .mzero true, .mmovScratchpad 4 6 8, .mburst 4, .mmovRegister 4 6] demo = true
    ∧ ({ ops := List.replicate 7 (someOp 1 (.mzero 0)) } : Ectx).inFlight < 8 ∧ loopGlobal demo.cur = false
    ∧ loopGlobal (withT (fun t => { t with mcfg := some (demoCfg true) }) demo).cur = true
    ∧ pktOf 0 (keyOf (demo.cur.gs 8)) demo &&& 1 = 1 ∧ pktOf 0 (keyOf noRight) demo &&& 1 ≠ 1
    ∧ demo.cur.m.inFlight = 0 ∧ moveOk 0 = false ∧ moveOk (w64 (512 * 2 ^ 16)) = true ∧ moveOk (w64 (1 * 2 ^ 7 + 512 * 2 ^ 16)) = false
    ∧ (moveOf (w64 (2 ^ 16 + 2 ^ 29))).tile = ((wgOf demo.cur.wg demo).getD {}).atiles ∧ (moveOf (w64 (2 ^ 16))).tile = 0
    ∧ ((wgOf demo.cur.wg demo).getD {}).apoison = [] ∧ demo.cur.mcfg = none := by decide +kernel
theorem witness_CollectiveIssue : allReady [.cred 4, .cbcast 4, .cgath 4] demo = true ∧ allReady [.cred 4] (withS 4 noRight demo) = true
    ∧ pktOf 0 (keyOf (demo.cur.gs 4)) demo &&& 1 = 1 ∧ pktOf 0 (keyOf noRight) demo &&& 1 ≠ 1
    ∧ ({ ops := List.replicate 3 (someOp 1 (.coll 0 0)) } : Ectx).inFlight < 4 := by decide +kernel
theorem witness_TimelineResults : allReady [.efence .c 4, .ewait .m 4 6, .tlrd .l 4 6, .tlwait .m 4 6 8] demo = true
    ∧ (demo.cur.ectx 1).efault.getLsbD 8 = false ∧ ({ efault := 0x100 } : Ectx).efault.getLsbD 8 = true
    ∧ (demo.cur.gs 6).toNat = (demo.cur.ectx 1).close.last ∧ (demo.cur.ectx 1).close.last < ((withS 6 1 demo).cur.gs 6).toNat
    ∧ ((allTeams demo).find? fun u => u.wg == 2 && u.num == 0 && u.id != 0).isSome = true
    ∧ ((allTeams demo).find? fun u => u.wg == 2 && u.num == 1 && u.id != 0).isNone = true
    ∧ (demo.cur.ectx 1).marked 0 = false ∧ ({ efault := 0x100 } : Ectx).marked ({ efault := 0x100 } : Ectx).timeline = true
    ∧ (let u : Team := { id := 5, wg := 2, num := 1, part := 0, core := 1 }
       let s : State := { demo with teams := [u] }
       let late : State := modHome 0 (fun h => { h with held := [{ agent := .ctrl, op := .write, core := 1 }] }) s
       ((allTeams s).find? fun u => u.wg == 2 && u.num == 1 && u.id != 0) = some u ∧ u.core ≠ s.cur.core ∧ (publish u s).1 = true
       ∧ (publish u late).1 = false) := by decide +kernel

/-! ## Queues and system instructions -/

theorem witness_QueueIssue : allReady [.tqenq 4 6 8, .tqdeq 4 6, .tqdec 4 6, .launch 4 6 0, .launch 4 6 8] demo = true
    ∧ allReady [.tqdec 4 6] (withS 6 noRight demo) = true
    ∧ pktOf 0 (keyOf (demo.cur.gs 6)) demo &&& 3 = 3 ∧ pktOf 0 (keyOf noRight) demo &&& 3 ≠ 3
    ∧ (demo.lsu.filter fun e => e.tracked && e.req.core == demo.cur.core).length + 1 ≤ 1024 := by decide +kernel
theorem witness_SystemResults : allReady [.ctlrd 4, .ctlrd 63] (withImm 5 demo) = true ∧ allReady [.ctlwr 4] (withImm 0x18 demo) = true
    ∧ ctlNumber 0 0x18 = some .mflag ∧ (demo.cur.ctlGet .mflag).isSome = true
    ∧ allReady [.ctlwr 4] (withImm 0x15 (inHandler demo)) = true ∧ ctlNumber 0 0x15 = some (.partHvec 0) ∧ (demo.cur.ctlGet (.partHvec 0)).isSome = false
    ∧ allReady [.sigrd 4, .capq 4 6, .yield] demo = true ∧ allReady [.sigrd 4] (inHandler demo) = true
    ∧ allReady [.fltinfo 60 4, .pkload 4 6 8, .pkload 0 6 8] (inHandler demo) = true := by decide +kernel
theorem witness_RecordAndMapCommands : allReady [.replay 4 6, .replayDiscard 4 6, .pmap 4 6 8] (inHandler demo) = true
    ∧ ((inHandler demo).lsu.filter fun e => e.tracked && e.req.core == demo.cur.core).length < 1024 := by decide +kernel

/-! ## Exceptions -/

/-- The demo partition with a handler vector. -/
def vectored (s : State) : State := ctlPut (.partHvec 0) 0x8001 s
theorem witness_TrapEntry : (vectored demo).cur.handler = false ∧ (ctlRaw (.partHvec (vectored demo).cur.part) (vectored demo)).getLsbD 0 = true
    ∧ (inHandler demo).cur.handler = true ∧ (ctlRaw (.partHvec demo.cur.part) demo).getLsbD 0 = false := by decide +kernel
theorem witness_ReturnFromTrap : ready .eret (inHandler demo) = true ∧ awake (inHandler demo) = true
    ∧ ((inHandler demo).cur.handler && (inHandler demo).cur.status == .hob && !(inHandler demo).cur.exited && (inHandler demo).cur.owed == none) = true
    ∧ (inHandler demo).cur.tr.cause ≠ 0x0B
    ∧ (let u := withT (fun t => { t with tr := { t.tr with cause := 0x0B, ipc := 0x1004, pc := 0x1006 } }) (inHandler demo)
       (ready .eret u && decide (BitVec.ofNat 64 (u.cur.tr.pc.toNat / 4 * 4) = u.cur.tr.ipc)) = true)
    ∧ (let u := withT (fun t => { t with tr := { t.tr with cause := 0x03 } }) (inHandler demo)
       (ready .eret u) = true) := by decide +kernel
theorem witness_TrapInstructions : allReady [.trap 0xFFF, .extensionWord 1 0, .extensionWord 255 0x3FFFF] demo = true
    ∧ ready .sigchk (withImm 1 demo) = true ∧ ready .sigchk (withImm 1 (inHandler demo)) = true ∧ ready (.extensionWord 1 0) (inHandler demo) = true
    ∧ (withImm 1 demo).cur.sigOn = true ∧ (withImm 1 demo).cur.hint.snap ≠ (withImm 1 demo).cur.hint.imm.setWidth 32
    ∧ (withImm 0 demo).cur.hint.snap = (withImm 0 demo).cur.hint.imm.setWidth 32 ∧ demo.cur.handler = false
    ∧ (ctlRaw (.sigpol 0) demo).toNat % 2 = 0 ∧ (ctlRaw (.sigpol 0) (ctlPut (.sigpol 0) 1 demo)).toNat % 2 = 1
    ∧ (ctlRaw .duty demo).getLsbD 5 = false ∧ (ctlRaw .duty (ctlPut .duty 0x20 demo)).getLsbD 5 = true := by decide +kernel

/-! ## Stepping -/

theorem witness_DecodeIsExact : Instr.wf (.sld 63 0 63 true true .b64 .ar .sys) = true ∧ (encode (.sld 63 0 63 true true .b64 .ar .sys)).isSome = true
    ∧ (encode .nop).isSome = true ∧ 0xF7800000 < 2 ^ 32 ∧ decode 0xF7800000 = .ok .nop := by decide
/-- The demo team picked to issue a word that lies at its pc: an instruction, a reserved hint, no instruction. -/
theorem witness_StepRunsDecoded : ([0xF7800000, 0xF9000040, 0].map fun w =>
      let s := demo.withFetchWord 32 w
      let u := focus 1 { s with issue := [] }
      let t := u.cur
      let line := t.ilines.find? (fun l => l.1 == linePtr t.pc && !l.2.isEmpty)
      s.cond != .unpowered && s.issue == [1] && t.status == .hob && !t.emu && !t.mismatched && t.pendingCause == none && !t.exited
        && (line.map fun l => natOfBytes (sliceBytes l.2 (vaOf t.pc % 64 / 4 * 4) 4)) == some w) = [true, true, true]
    ∧ decode 0xF7800000 = .ok .nop ∧ decode 0xF9000040 = .error .badHint ∧ decode 0 = .error .major := by decide +kernel
theorem witness_StepTakesEvent : ({ demo with cond := .unpowered } : State).cond = .unpowered ∧ demo.cond ≠ .unpowered ∧ demo.issue = []
    ∧ queuedAt demo .dedupExpiry = none
    ∧ enabledFrom demo [] [] demo.agenda = [] ∧ enabledFrom demo [] [] [Instr.dedupExpiry] ≠ []
    ∧ (∀ n, n < 2 → (enabledFrom demo [] [] [Instr.dedupExpiry])[n]?.isNone = decide (n = 1)) := by decide +kernel
theorem witness_IssuingWords :
    (withT (fun t => { t with hint := { bad := true } }) demo).cur.hint.bad = true ∧ demo.cur.hint = {}
    ∧ (let t := demo.cur.setS 6 { full := false }; (t.sreg 6).full = false ∧ (t.sreg 4).full = true)
    ∧ (demo.cur.sreg 4).full = true ∧ (demo.cur.sreg 6).full = true ∧ (demo.cur.sreg 6).poison = false
    ∧ ((demo.cur.setS 6 { poison := true }).sreg 6).poison = true
    ∧ ({ demo.cur with v := [] } : Team).v.length ≤ 8 ∧ 8 < demo.cur.v.length
    ∧ demo.cur.isFull (.s 6) = true ∧ demo.cur.isFull (.v 8) = true ∧ demo.cur.isFull (.v 4) = true ∧ (demo.cur.setV 8 { full := false }).isFull (.v 8) = false
    ∧ (demo.cur.setS 6 { full := false }).isFull (.s 6) = false
    ∧ demo.cur.pending (.v 8) = false
    ∧ ({ demo.cur with spq := [{ id := 3, store := false, ord := .rlx, dst := 8, pair := false, inh := false, accs := [] }] } : Team).pending (.v 8) = true
    ∧ (demo.cur.vreg 8).poison = false ∧ ((demo.cur.setV 8 { poison := true }).vreg 8).poison = true
    ∧ (demo.cur.act 0 && decide (demo.cur.lane 8 0 = 0)) = true ∧ vaOf 0x1001 % 2 ≠ 0 ∧ vaOf 0x1002 % 2 = 0
    ∧ pktOf 0 (keyOf noRight) demo &&& 2 ≠ 2 ∧ pktOf 0 (keyOf 0x1002) demo &&& 2 = 2
    ∧ bit (ctlRaw (.feat 0) demo) 1 = false ∧ demo.cur.handler = false ∧ (ctlRaw .duty demo).getLsbD 5 = false := by decide +kernel
theorem witness_ScalarFrame : ready (.sadd 4 6 8 false false) demo = true ∧ (exec (.sadd 4 6 8 false false) demo matches .next _) = true
    ∧ ready (.smovSpecial 0 .time) demo = true ∧ (exec (.smovSpecial 0 .time) demo matches .next _) = true := by decide +kernel
theorem witness_VectorFrame : ready (.vadd true 62 6 8 false false) demo = true ∧ (exec (.vadd true 62 6 8 false false) demo matches .next _) = true
    ∧ ready (.vlane 4) (withT (·.sk 0 1) demo) = true ∧ (withT (·.sk 0 1) demo).cur.act 31 = false := by decide +kernel

end Sys2Proof.Tests
end

