-- ==== Sys2Proof/Tests/WitnessEvents.lean ====
section
/-! SUPPORT. Witnesses for the statements about steps of the module: states and operands that meet their hypotheses clause by clause. -/

-- Proofs are checked one after another: checked side by side, their threads need more memory than a build has.
set_option Elab.async false

namespace Sys2Proof.Tests
open Sys2Proof.Machine Sys2Proof.Safety

/-! ## Recovery -/

/-- A module in recovery mode. -/
def inRecovery : State := { State.reset with cond := .recovery }
theorem witness_RecoveryHolds : dormant inRecovery ∧ ∃ t, step inRecovery = .next t :=
  ⟨⟨rfl, rfl, by simp [inRecovery, State.reset]⟩, _, rfl⟩
/-- The module's verification is not computed by the model; in every implementation one of the statement's cases holds. -/
theorem witness_ResetVerifies (good : Image → Prop) (b d h : Image) :
    (good b ∧ good d ∧ good h) ∨ ¬good b ∨ (good b ∧ ¬good d) ∨ (good b ∧ good d ∧ ¬good h) := by
  by_cases hb : good b <;> by_cases hd : good d <;> by_cases hh : good h <;> simp [*]

/-! ## Queue interfaces -/

/-- QIF 0 enabled on page 0 of function 1 for partition 0, with a named requester allowed. -/
def qifCfg : W64 := w64 (1 + 8 + 2 ^ 20 + 2 ^ 35)
def qs : State := ctlPut (.qifCfg 0) qifCfg State.reset
/-- A push of a NOP packet. -/
def pushNop (n : Nat) : NotifyWrite := { pf := 1, slot := 0, off := 0, rid := 0, bytes := bytesOfNat 2 n ++ List.replicate 62 0 }
theorem witness_NotifyPushes : awake qs = true ∧ postedWaits 0 qs = false ∧ qs.agenda.any (waitsFor 0) = false
    ∧ postedWaits 0 (modHome 0 (fun h => { h with held := [{ posted := true, team := 0 }] }) qs) = true
    ∧ ({ qs with agenda := [.notifyPush { pushNop 0 with waited := true }] } : State).agenda.any (waitsFor 0) = true
    ∧ qifAt 2 0 qs = none ∧ qifAt 1 0 qs = some 0 ∧ qs.cond ≠ .fatal
    ∧ (pushNop 0).bytes.length = 64 ∧ (pushNop 0).allEnables = true ∧ 0x3F < 0x40
    ∧ (qifCfg.getLsbD 35 = true ∧ 0 = qifCfg.toNat / 2 ^ 36 % 2 ^ 16 ∧ (partOf (qifCfg.toNat / 2 ^ 4 % 2 ^ 6) qs).resetting = false)
    ∧ (partOf 0 (modPart 0 (fun p => { p with resetting := true }) qs)).resetting = true
    ∧ ([0, 7, 8, 63, 64].map fun n => (pkSeq (pushNop n).bytes, decide ((n + 65536 - (qifOf 0 qs).done) % 65536 < 64),
        decide ((n + 65536 - (qifOf 0 qs).next) % 65536 ≤ 7)))
      = [(0, true, true), (7, true, true), (8, true, false), (63, true, false), (64, false, false)]
    ∧ (qifOf 0 qs).held = [] ∧ pkCode (pushNop 0).bytes (qifCfg.toNat / 2 ^ 31 % 2 ^ 4) = none := by decide +kernel

/-- A started packet of QIF 0: its kind, the location it names and its value. -/
def packet (kind : Nat) (a : W64) (value st : Nat) : QPkt :=
  { seq := 3, num := 3, bytes := bytesOfNat 2 3 ++ [BitVec.ofNat 8 kind, 0, 0, 0, 0, 0] ++ bytesOfNat 8 a.toNat ++ bytesOfNat 8 value ++ List.replicate 40 0
    state := st }
/-- A line of this module's memory, present in its slice, at virtual address 0x1000 of key 0. -/
def demoLine : SLine := { va := 0x1000, key := 0, place := .hbm 0x10000, present := true }
/-- The demo module with that line, region 0 homed in this module's memory. -/
def lined (s : State) : State := ctlPut (.dist 0) 1 { s with lines := [demoLine] }
/-- It with a packet started at QIF 0. -/
def withPacket (p : QPkt) (s : State) : State := modQif 0 (fun x => { x with taken := [p] }) (ctlPut (.qifCfg 0) qifCfg s)
/-- It once the packet has its request's number. -/
def numbered (p : QPkt) (s : State) : State := { withPacket { p with mon := s.nextId } s with nextId := s.nextId + 1 }
/-- The write of a WRITE packet, the read of a WAIT packet. -/
def packetWrite (a : W64) (value : Nat) : Req :=
  { agent := .lfe, core := 255, part := 0, op := .write, ptr := a, ord := .rel, scope := .sys
    items := [{ lane := 0, off := vaOf a % 64, size := 8, data := value }] }
def packetRead (id : Nat) (a : W64) (value : Nat) : Req := { packetWrite a value with id := id, op := .monitor .ge, ord := .acq }
theorem witness_RequestPackets :
    awake (withPacket (packet 0 0 0 1) demo) = true ∧ packetOfQif 0 3 (withPacket (packet 0 0 0 1) demo) = some (packet 0 0 0 1)
    ∧ packetOfQif 0 3 (withPacket (packet 3 0x1008 5 2) demo) = some (packet 3 0x1008 5 2)
    ∧ pkAddr (packet 3 0x1008 5 1).bytes = 0x1008 ∧ vaOf 0x1008 % 8 = 0 ∧ vaOf 0x100C % 8 ≠ 0 ∧ (packet 3 0x1008 5 1).state ≠ 2
    ∧ (pktOf 0 (keyOf 0x1008) demo).getLsbD 1 = true ∧ (pktOf 0 (keyOf noRight) demo).getLsbD 1 = false
    ∧ (pktOf 0 (keyOf 0x1008) demo).getLsbD 0 = true ∧ (pktOf 0 (keyOf noRight) demo).getLsbD 0 = false
    ∧ (drainRemote 0 (withPacket (packet 3 0x1008 5 2) demo)).1 = true
    ∧ ((lfeAccess { packetWrite 0x1038 5 with id := demo.nextId } (lined (numbered (packet 3 0x1038 5 1) demo))).1 matches .ack _) = true
    ∧ (packet 2 0x1008 0 1).mon = 0
    ∧ (match (lfeAccess (packetRead demo.nextId 0x1008 0) (numbered (packet 2 0x1008 0 1) (bumpSystem (lined demo)))).1 with
       | .data r => decide (0 ≤ r.vals.headD 0) | _ => false) = true := by decide +kernel
theorem witness_HostTables : awake qs = true ∧ postedWaits 0 qs = false ∧ qs.agenda.any (waitsFor 0) = false
    ∧ postedWaits 0 (modHome 0 (fun h => { h with held := [{ posted := true, team := 0 }] }) qs) = true
    ∧ ({ qs with agenda := [.notifyStatusRead 1 0 64 8 { rid := 0, waited := true }] } : State).agenda.any (waitsFor 0) = true
    ∧ (let new := ctlMerge (.qifCfg 1) (ctlRaw (.qifCfg 1) qs) (qifCfg + w64 (2 ^ 10)); new.getLsbD 3 = true ∧ windowOk new = true
        ∧ new.toNat / 2 ^ 10 % 2 ^ 10 = 1)
    ∧ (ctlRaw (.qifCfg 1) qs).getLsbD 3 = false ∧ (ctlRaw (.qifCfg 0) qs).getLsbD 3 = true
    ∧ (ctlMerge (.qifCfg 1) (ctlRaw (.qifCfg 1) qs) qifCfg).toNat / 2 ^ 10 % 2 ^ 10 = 0
    ∧ windowOk 8 = false ∧ (ctlMerge (.qifCfg 0) (ctlRaw (.qifCfg 0) qs) 0).getLsbD 3 = false
    ∧ (∀ v, v ∈ [0, 3, 4] → (ctlMerge (.irqMap 0 0) (ctlRaw (.irqMap 0 0) qs) (w64 v)).toNat % 2 ^ 11 = v)
    ∧ (let s := ctlSetFld (.irqMap 0 15) 16 1 1 qs
       let m := ctlMerge (.irqMap 0 15) (ctlRaw (.irqMap 0 15) s) (w64 (4 + 2 ^ 14)); m.getLsbD 16 = true ∧ m.getLsbD 14 = true ∧ m.getLsbD 15 = false
        ∧ m.toNat % 2 ^ 11 = 4 ∧ m.toNat / 2 ^ 11 % 2 ^ 3 = 0) := by decide +kernel

/-! ## Memory, bias, monitors -/

/-- A request of a link outstanding under number 7. -/
def linked (k : LinkKind) (r : Req) (s : State) : State := { s with links := [{ id := 7, kind := k, req := r }] }
/-- The demo module with a line of the host's memory that waits for ownership. -/
def owning : State := linked .own { op := .read, ptr := 0x1000 }
  { demo with lines := [{ demoLine with place := .host 0x5000, present := false }] }
theorem witness_HostMemory :
    awake demo = true ∧ demo.biasOp = none ∧ demo.flueDown = [] ∧ demo.lines = [] ∧ hbmEnd - 1 < hbmEnd ∧ (hbmEnd - 1) % 64 + 1 = 64 ∧ Memory.wf demo.mem = true
    ∧ (∀ k, k ∈ [LinkKind.hostRead, .hostWrite, .ats, .hostAtomic] →
        ((linked k {} demo).links.find? fun l => l.id == 7) = some { id := 7, kind := k, req := {} })
    ∧ ({} : Req).isSync = false ∧ ({} : Req).op = .read
    ∧ (owning.links.find? fun l => l.kind == .own && linePtr l.req.ptr == linePtr 0x1000).isSome = true
    ∧ (lineAt (lineVa (vaOf 0x1000)) (keyOf 0x1000) owning).isSome = true
    ∧ demo.invals = [] ∧ demo.links = []
    ∧ ((allTeams demo).all fun t => t.c.ops.all fun o => !o.mid) = true
    ∧ (let s : State := { demo with cur := { demo.cur with c := { ops := [{ id := 1, batch := 1, op := .copy 0x2000 0x1000 1 64 0 0 0 0 4 false, pc := 0, buf := some [0] }] } }
                                    biasOp := some (true, 0, 0) }
       (allTeams s).all (fun t => t.c.ops.all fun o => !o.mid || !flipTouches o s) = true)
    ∧ (let s : State := { lined demo with biasOp := some (true, 1, 0), lines := [{ demoLine with st := .held }] }; areaReady (granuleArea 1 s) s = false)
    ∧ (1 : W64).getLsbD 0 = true ∧ (ctlRaw .biasCmd demo).getLsbD 0 = false ∧ (ctlRaw .biasCmd (ctlPut .biasCmd 1 demo)).getLsbD 0 = true
    ∧ demo.biasHost.contains 0 = false ∧ ({ demo with biasHost := [0] } : State).biasHost.contains 0 = true ∧ (3 : W64).getLsbD 1 = true ∧ demo.mapop = none
    ∧ areaReady (granuleArea 0 { demo with biasOp := some (true, 0, 0) }) { demo with biasOp := some (true, 0, 0) } = true
    ∧ areaReady (granuleArea 5 { demo with biasOp := some (false, 5, 0) }) { demo with biasOp := some (false, 5, 0) } = true
    ∧ (let s := linked .backInv { agent := .host } demo
       s.links.filter (fun l => l.kind == .backInv && l.addr == 0 * 2 ^ 16 + 1024 % 1024 * 64) ≠ [] ∧ (s.links.all fun l => l.req.agent == .host) = true
       ∧ s.lines.find? (fun l => l.place == .hbm 0) = none
       ∧ ({ s with lines := [{ demoLine with place := .hbm 0 }] } : State).lines.find? (fun l => l.place == .hbm 0) = some { demoLine with place := .hbm 0 }) := by
  decide +kernel
/-- An entry of a condition monitor of the demo team. -/
def monEnt (o : Ord) : LsuEnt := { id := 5, kind := .waitc, req := { id := 5, team := 1, ord := o }, group := 5, pc := 0, phase := .monitor, dest := .s 4 }
/-- A monitor that re-checks. -/
def demoMon : Monitor :=
  { id := 5, ent := 5, team := 1, core := 0, part := 0, ptr := 0x1000, width := 8, cond := .ge, b := 0, ord := .rlx, scope := .dev, slice := false }
theorem witness_Monitors : awake demo = true
    ∧ ({ demo with lsu := [monEnt .rlx] } : State).lsu.find? (fun e => e.id == 5) = some (monEnt .rlx) ∧ (monEnt .rlx).phase = .monitor
    ∧ (monEnt .rlx).req.ord = .rlx ∧ (monEnt .acq).req.ord = .acq ∧ (monEnt .ar).req.ord = .ar ∧ demo.lsu.find? (fun e => e.id == 5) = none
    ∧ (let s := withPacket { packet 2 0x1008 0 1 with mon := 5 } demo
       (s.qifs.flatMap fun x => x.2.taken.map fun p => (x.1, p)).find? (fun y => y.2.mon == 5 && y.2.state != 0))
        = some (0, { packet 2 0x1008 0 1 with mon := 5 })
    ∧ ({ demo with monitors := [demoMon] } : State).monitors.find? (fun x => x.id == 5) = some demoMon ∧ demoMon.lfe = none ∧ demoMon.slice = false
    ∧ (monEnt .rlx).gone = false ∧ (monEnt .rlx).req.acquires = false ∧ (monEnt .acq).req.op ≠ .write ∧ ({ monEnt .rlx with phase := .sent } : LsuEnt).phase = .sent
    ∧ ({ demo with lsu := [{ monEnt .rlx with gone := true }] } : State).lsu.find? (fun e => e.id == 5) = some { monEnt .rlx with gone := true }
    ∧ ((teamOf 1 demo).map (·.emberList)).getD [] = []
    ∧ (let p := { packet 2 0x1008 0 1 with mon := 5 }
       (match (lfeAccess (lfeReq 5 p.part .query .acq (pkAddr p.bytes) []) (withPacket p (lined demo))).1 with | .data _ => true | _ => false) = true) := by decide +kernel

/-! ## Launches and partitions -/

/-- The demo launch at a phase. -/
def demoLaunch (p : LPhase) : Launch := { id := 3, phase := p, sigptr := 0x1038, seqno := 9, origin := .qif 0 3 }
def atPhase (p : LPhase) (s : State) : State := { s with launches := [demoLaunch p] }
/-- A LAUNCH packet of another module, for the tenant of partition 0. -/
def launchPkt : Packet := { op := 2, srcm := 1, len := 63, payload := bytesOfNat 2 0 ++ [1, 0] ++ List.replicate 60 0 }
/-- The demo module where tenant 0 owns partition 0 and may launch. -/
def tenanted (lperm : W64) : State := ctlPut (.fjLperm 0) lperm (ctlPut (.fjTenant 0) 0x10000 demo)
theorem witness_LaunchStarts : awake demo = true
    ∧ launchOf 3 (atPhase .waiting demo) = some (demoLaunch .waiting) ∧ (demoLaunch .waiting).phase = .waiting ∧ demo.cond ≠ .fatal
    ∧ ((List.replicate 256 (demoLaunch .running)).filter fun x => x.part == 0 && x.phase != .waiting).length = 256
    ∧ ((List.replicate 255 (demoLaunch .running)).filter fun x => x.part == 0 && x.phase != .waiting).length < 256
    ∧ launchBehind (demoLaunch .waiting) (atPhase .waiting demo) = false
    ∧ (pktOf 0 (keyOf noRight) demo).getLsbD 0 = false ∧ (pktOf 0 (keyOf (demoLaunch .waiting).record) demo).getLsbD 0 = true
    ∧ ((atPhase (.verdict 65535) demo).launches.find? fun l => l.phase == LPhase.verdict ((w64 0x1FFFF).toNat % 2 ^ 16)).isSome = true
    ∧ (demo.launches.all fun l => l.phase != LPhase.verdict 0) = true ∧ (demoLaunch .reading).origin = .qif 0 3 ∧ 15 < 16
    ∧ partOfTenant 5 (tenanted 1) = none ∧ partOfTenant 0 (tenanted 0x101) = some 0
    ∧ (ctlRead (.fjLperm 0) (tenanted 0)).getLsbD 0 = false ∧ (ctlRead (.fjLperm 0) (tenanted 0x101)).getLsbD 0 = true
    ∧ (partOf 0 (tenanted 0x101)).resetting = false
    ∧ (launchPkt.len = 63 ∧ pkKind launchPkt.payload = 1 ∧ pkIrq launchPkt.payload = false ∧ pkReserved launchPkt.payload = false
        ∧ pkVidx launchPkt.payload = 0 ∧ pkValue launchPkt.payload = 0)
    ∧ ([(0x101 : W64), 1].map fun v => let l := (ctlRead (.fjLperm 0) (tenanted v)).toNat; decide (l / 2 ^ 16 % 2 ^ 8 < l / 2 ^ 8 % 2 ^ 8)) = [true, false]
    ∧ (let l : Launch := { id := 3, origin := .peer 1 8 2 }
       let up (n : Nat) : State := { tenanted 0x101 with launches := l :: List.replicate n { id := 4, phase := .running, origin := .peer 1 9 3 } }
       ([0, 1].map fun n => ((up n).launches.filter fun x => x.id != 3 && x.part == 0).length) = [0, 1] ∧ maxedOut l (up 1) = true ∧ maxedOut l (up 0) = false)
    ∧ (let l : LinkReq := { id := 7, kind := .qnLaunch 3, req := {}, due := 1, pkt := some launchPkt }
       (({ demo with ck := 1, links := [l] } : State).links.find? fun l => l.id == 7 && l.due != 0 && decide (l.due ≤ 1)).isSome = true) := by decide +kernel
/-- The signal write of the demo launch. -/
def signalWrite : Req :=
  { agent := .lfe, core := 255, part := 0, op := .write, ptr := 0x1038, ord := .rel, scope := .sys, items := [{ lane := 0, off := 0x38, size := 8, data := 9 }] }
theorem witness_LaunchCompletes :
    awake demo = true ∧ launchOf 3 (atPhase .signalling demo) = some (demoLaunch .signalling) ∧ (demoLaunch .signalling).event0 = false
    ∧ (drainLaunch (demoLaunch .signalling) (lined (atPhase .signalling demo))).1 = true
    ∧ ((lfeAccess signalWrite (drainLaunch (demoLaunch .signalling) (lined (atPhase .signalling demo))).2).1 matches .ack _) = true
    ∧ ((lfeAccess signalWrite (drainLaunch (demoLaunch .signalling) (atPhase .signalling demo)).2).1 matches .nack _) = true
    ∧ ((lfeAccess signalWrite (lined { demo with launches := [{ demoLaunch .signalling with event0 := true }] })).1 matches .ack _) = true
    ∧ (drainRemote 0 (atPhase .signalled demo)).1 = true ∧ (demoLaunch .signalled).origin = .qif 0 3 := by decide +kernel
/-- Partition 0 enabled; its save area valid. -/
def enabled (s : State) : State := ctlPut (.partCfg 0) 1 s
def saveable (s : State) : State := ctlPut (.partSave 0) 1 s
theorem witness_PartitionRegisters : awake demo = true ∧ (ctlRaw (.partCfg 0) demo).toNat % 2 = 0 ∧ (ctlRaw (.partCfg 0) (enabled demo)).toNat % 2 = 1
    ∧ (1 : W64).getLsbD 0 = true ∧ (1 : W64).getLsbD 2 = false ∧ (5 : W64).getLsbD 2 = true
    ∧ (ctlRaw (.partSave 0) (saveable demo)).toNat % 2 = 1 ∧ (ctlRaw (.partSave 0) demo).toNat % 2 = 0
    ∧ qosFits 0 (w64 (128 * 2 ^ 32 + 128 * 2 ^ 40 + 256 * 2 ^ 48)) demo = true ∧ qosFits 0 (w64 (129 * 2 ^ 32)) demo = false
    ∧ hasResident 0 (enabled demo) = true ∧ hasResident 1 (enabled demo) = false
    ∧ (ctlRaw (.partSave 0) demo).getLsbD 0 = false ∧ (ctlMerge (.partSave 0) (ctlRaw (.partSave 0) demo) 0x10001).getLsbD 0 = true
    ∧ areaTaken 0 0x1 1 demo = false ∧ areaTaken 0 0x1 1 (ctlPut (.partSave 1) 0x10001 demo) = true := by decide +kernel
theorem witness_PartitionResets : awake demo = true
    ∧ (partOf 0 demo).resetting = false ∧ (partOf 0 (modPart 0 (fun p => { p with resetting := true }) demo)).resetting = true
    ∧ ((List.range 1024).all fun i => (ctlRaw (.qifCfg i) demo).toNat / 2 ^ 3 % 2 == 0) = true
    ∧ (let s := modPart 0 (fun p => { p with resetting := true }) demo
       let done (s : State) : Bool × State := writeBackPart 0 (dropWaits 0 (dropFaults 0 s))
       (done s).1 = true ∧ resetWaits 0 (done s).2 = false ∧ resetWaits 0 (done { s with lsu := [{ monEnt .rlx with phase := .sent }] }).2 = true
       ∧ (done { s with embers := [{ line := 0x1000, drawing := true }] }).1 = false) := by decide +kernel

/-! ## Scheduling -/

/-- The demo module with partition 0 the holder of cluster 0. -/
def held (s : State) : State := modCluster 0 (fun x => { x with holder := some 0 }) s
/-- A team that was halted at a wait. -/
def haltedTeam : Team := { id := 5, wg := 2, num := 1, part := 0, status := .halted, haltWait := some .fetch }
def withTeam (t : Team) (s : State) : State := { s with teams := [t] }
theorem witness_StrideScheduling : awake demo = true
    ∧ (let q := min 1000 (max 5 ((ctlRaw .schedQuantum demo).toNat % 2 ^ 10)) * 1900
       q = 95000 ∧ (let s := held { demo with ck := q }; (clusterOf 0 s).holder.isSome = true ∧ (clusterOf 0 s).last + q ≤ s.ck)
       ∧ ¬ ((clusterOf 0 (held { demo with ck := q - 1 })).last + q ≤ q - 1))
    ∧ (clusterOf 0 demo).holder.isSome = false ∧ runnables 0 demo = []
    ∧ (let s := withTeam haltedTeam (ctlPut (.partCfg 0) 0x10001 demo); runnables 0 s = [0])
    ∧ (partOf 0 (modPart 0 (fun p => { p with resetting := true }) demo)).resetting = true
    ∧ (let s := held (withTeam { haltedTeam with spilled := true } demo)
       teamOf 5 s = some { haltedTeam with spilled := true } ∧ (clusterOf (clusterIx 0 s) s).holder = some 0
       ∧ ((launchOfTeam haltedTeam s).bind fun l => launchOf l s).any (·.wdogHalt) = false
       ∧ (let x : State := { s with launches := [{ demoLaunch .running with wdogHalt := true }] }
          ((launchOfTeam haltedTeam x).bind fun l => launchOf l x).any (·.wdogHalt) = true))
    ∧ (partOf 0 (lookClusters (restPointer 0 (vacate 0 demo)))).resetting = false
    ∧ (partOf 0 (let s := modPart 0 (fun p => { p with resetting := true }) demo; lookClusters (restPointer 0 (vacate 0 s)))).resetting = true
    ∧ (writesOut 0 (lookClusters (restPointer 0 (vacate 0 demo)))).1 = true
    ∧ (let w : Workgroup := { (wgOf 2 demo).getD {} with saved := true, oldCore := [0] }
       let late : State := modHome 0 (fun h => { h with held := [{ agent := .ctrl, op := .write, core := 0 }] }) { demo with wgs := [w] }
       (writesOut 0 late).1 = false)
    ∧ unclaimable 0 0 [] [] [] demo = false
    ∧ (let e : Evac := { kind := 1, bank := 3, logical := 3, dest := 64, next := 0, total := 1 }
       unclaimable 0 0 [] [3] [] (modCore 0 (fun c => { c with evac := some e }) demo) = true)
    ∧ teamOf 5 (withTeam haltedTeam demo) = some haltedTeam ∧ haltedTeam.dead = false ∧ haltedTeam.exited = false := by decide +kernel
theorem witness_CoreCycles : awake demo = true
    ∧ (fillHob 0 (leaveHob 0 (clearWaits 0 { demo with power := { halted := true } }))).power.halted = true
    ∧ (let u := fillHob 0 (leaveHob 0 (clearWaits 0 (held demo))); u.power.halted = false ∧ u.power.level.getD (dieOf 0 u) 0 = 0)
    ∧ (cycleTeams 0 demo).any (fun t => t.status == .shelfReady) = false
    ∧ (let s := held (withTeam { haltedTeam with status := .shelfReady } { demo with ck := 2048 })
       ((cycleTeams 0 s).any fun t => t.status == .shelfReady && decide (t.readySince + 2048 ≤ s.ck)) = true ∧ (coreOf 0 s).lastSwap + 2048 ≤ s.ck
       ∧ (minBy? Team.hobSince ((cycleTeams 0 s).filter Team.onHob)).map (fun t => (t.id, decide (t.busy ≤ s.ck))) = some (1, true)
       ∧ (let x : State := { s with cur := { s.cur with busy := 2049 } }
          (minBy? Team.hobSince ((cycleTeams 0 x).filter Team.onHob)).map (fun t => (t.id, decide (x.ck < t.busy))) = some (1, true)))
    ∧ (focus 1 demo).cur.id = 1 ∧ (focus 1 demo).cur.onHob = true ∧ (focus 1 demo).cur.emu = false
    ∧ ({ demo with issue := [1] } : State).issue.contains 1 = true ∧ mxWork 0 demo = false ∧ mxWork 0 (modCore 0 (fun c => { c with mxBusy := 1 }) demo) = true
    ∧ (coreOf 0 demo).damper < 8 ∧ (coreOf 0 demo).hold = none ∧ (coreOf 0 demo).idle < 2048
    ∧ ([63, 64].map fun n => (Core.damperTick true { (coreOf 0 demo) with idle := 0, ramp := n - 1 }).damper) = [1, 2]
    ∧ (Core.damperTick false { (coreOf 0 demo) with damper := 8, hold := some 1 }).hold = some 0
    ∧ (Core.damperTick false { (coreOf 0 demo) with damper := 8, hold := some 0 }).hold = none
    ∧ (Core.damperTick false { (coreOf 0 demo) with damper := 8, idle := 2048, ramp := 63 }).damper = 7 := by decide +kernel
theorem witness_HangWatchdog : awake demo = true ∧ (launchOf 3 demo).isSome = true ∧ (demoLaunch .running).phase = .running
    ∧ (ctlRaw (.partWdog 0) demo).toNat % 2 ^ 32 * 1900 = 0
    ∧ (let s := atPhase .running (ctlPut (.partWdog 0) 1 demo)
       (ctlRaw (.partWdog 0) s).toNat % 2 ^ 32 * 1900 = 1900 ∧ launchOf 3 s = some (demoLaunch .running) ∧ (demoLaunch .running).wdog < 1900)
    ∧ 1900 ≤ ({ demoLaunch .running with wdog := 1900 } : Launch).wdog
    ∧ (ctlRaw .duty demo).toNat / 2 ^ 6 % 2 = 0 ∧ (ctlRaw .duty (ctlPut .duty 0x40 demo)).toNat / 2 ^ 6 % 2 = 1
    ∧ (demo.launches.filter fun l => l.part == 0 && l.wdogHalt) = []
    ∧ (let s := held { demo with cur := { demo.cur with status := .halted }, launches := [{ demoLaunch .running with wdogHalt := true }] }
       (s.launches.filter fun l => l.part == 0 && l.wdogHalt).map (·.id) = [3] ∧ (launchTeams 3 s).map (·.id) = [1]
       ∧ (clusterOf (clusterIx 0 s) s).holder = some 0 ∧ beingSaved 2 s = false)
    ∧ demo.cur.dead = false ∧ demo.cur.exited = false ∧ demo.cur.handler = false := by decide +kernel

/-! ## Queues, engines, the Rake -/

/-- An entry of the demo team that stands in its order for a queue operation on the object at 0x1000. -/
def queueEnt (k : QKind) : LsuEnt := { id := 5, kind := .queue k, req := { id := 5, team := 1, op := .query, ptr := 0x1000 }, group := 5, pc := 0, phase := .sent, dest := .s 4 }
def queueOp (k : QKind) (p : W64) : QOp := { id := 5, kind := k, team := 1, part := 0, core := 0, ptr := p }
/-- The demo module with an object of 16 bytes at the head of its line. -/
def object (k : QKind) (bs : List Byte) : State := { lined demo with lsu := [queueEnt k], mem := Memory.writeN [] 0x10000 bs }
/-- A queue header with shards of 16 records at 0x2000, open or closed, with some records entered. -/
def header (closed : Bool) (count : Nat) : List Byte :=
  bytesOfNat 8 0x2000 ++ [4, if closed then 3 else 2] ++ List.replicate 6 0 ++ bytesOfNat 4 count ++ List.replicate 44 0
theorem witness_QueueOperations : awake (object .dec []) = true
    ∧ (object .dec []).lsu.find? (fun e => e.id == 5) = some (queueEnt .dec) ∧ (object .dec []).qwait.find? (fun q => q.op.id == 5 && q.op.kind == .deq) = none
    ∧ vaOf 0x1008 % 16 ≠ 0 ∧ vaOf 0x1000 % 16 = 0
    ∧ ([0, 2].map fun n => match obtain (queueOp .dec 0x1000) 0x1000 (object .dec (bytesOfNat 4 n)) with
        | .ok _ v => lineField 0x1000 4 v == n | _ => false) = [true, true]
    ∧ ([false, true].map fun c => match obtain (queueOp .deq 0x1000) 0x1000 (object .deq (header c 0)) with
        | .ok _ v => headerOk 0x1000 v && lineField 0x1010 4 v == 0 && qClosed 0x1000 v == c && !withdrawn 1 v | _ => false) = [true, true]
    ∧ (match obtain (queueOp .deq 0x1000) 0x1000 (object .deq []) with | .ok _ v => !headerOk 0x1000 v | _ => false) = true
    ∧ (let s : State := { lined demo with
         lsu := [queueEnt (.enq 1 2)], mem := Memory.writeN [] 0x10000 (header false 0)
         lines := [demoLine] ++ (List.range 6).map fun i => { demoLine with va := 0x2000 + 64 * i, place := .hbm (0x20000 + 64 * i) } }
       enqueue (queueOp (.enq 1 2) 0x1000) 1 2 s matches .done _) = true
    ∧ (match obtain (queueOp .deq 0x1000) 0x1000 { object .deq (header false 0) with lines := [{ demoLine with st := .held }] } with
        | .later _ => true | _ => false) = true := by decide +kernel
/-- The demo team with an operation on a context. -/
def withC (op : EOp) (s : State) : State := { s with cur := { s.cur with c := { ops := [someOp 4 op] } } }
def withM (op : EOp) (s : State) : State := { s with cur := { s.cur with m := { ops := [someOp 4 op] } } }
theorem witness_EngineSteps : awake demo = true ∧ teamOf 1 demo = some demo.cur ∧ (∀ u ∈ demo.teams, u.id = 1 → u = demo.cur)
    ∧ demo.cur.status = .hob ∧ demo.cur.handler = false ∧ (47 : Nat) < 48 ∧ ({ demo.cur with status := .draining } : Team).status = .draining
    ∧ (let s := withC (.copy 0x2000 0x1000 1 64 0 0 0 0 4 false) (held demo)
       copiesReady s.cur s = [someOp 4 (.copy 0x2000 0x1000 1 64 0 0 0 0 4 false)])
    ∧ copiesReady demo.cur demo = []
    ∧ (let s := withM (.mcfg 0 0) (held demo)
       nextM s.cur s = some (someOp 4 (.mcfg 0 0)) ∧ (coreOf 0 s).mxBusy ≤ s.ck
       ∧ (minBy? (fun t => teamAge t s) (((allTeams s).filter fun t => t.core == 0 && t.m.inFlight != 0).filter fun t => (nextM t s).isSome)).map (·.id) = some 1)
    ∧ (minBy? (fun t => teamAge t demo) (((allTeams demo).filter fun t => t.core == 0 && t.m.inFlight != 0).filter fun t => (nextM t demo).isSome)) = none
    ∧ demo.ck < (coreOf 0 (modCore 0 (fun c => { c with mxBusy := 1 }) demo)).mxBusy
    ∧ (cfgOf (w64 (0 + 0 * 2 ^ 8)) 0).isSome = false ∧ (cfgOf (w64 (16 + 16 * 2 ^ 8)) 0).isSome = true := by decide +kernel
/-- The Rake of core 0 at work on VRF bank 3. -/
def evac : Evac := { kind := 0, bank := 3, logical := 3, dest := 64, next := 0, total := 1 }
def raking (e : Evac) (s : State) : State := modCore 0 (fun c => { c with evac := some e }) s
theorem witness_RakeSteps : awake demo = true ∧ 0 < ncores demo ∧ 67 < (bankCounts 1).2 ∧ ¬ 68 < (bankCounts 1).2 ∧ 33 < (bankCounts 2).2
    ∧ ([1, 2].map fun errs =>
        let s := modCore 0 (fun c => { c with errs := [((0, 3), [0])] }) (ctlPut .bankThr 0x10003 { demo with ck := 1900000 })
        ((List.replicate (min errs 3) s.ck ++ (alGet [] (0, 3) (coreOf 0 s).errs).filter fun t => decide (s.ck ≤ t + 1900000)).take 3).length) = [2, 3]
    ∧ (ctlRaw .bankThr (ctlPut .bankThr 0x10003 demo)).toNat % 2 ^ 16 = 3 ∧ max 1 (0x10003 / 2 ^ 16 % 2 ^ 16) * 1900000 = 1900000
    ∧ (ctlRaw .duty demo).toNat / 2 ^ 2 % 2 = 0 ∧ (ctlRaw .duty (ctlPut .duty 4 demo)).toNat / 2 ^ 2 % 2 = 1
    ∧ (((coreOf 0 demo).bmap 0).ashed.contains 3 || (coreOf 0 demo).pending.contains (0, 3)) = false
    ∧ (coreOf 0 (modCore 0 (fun c => { c with pending := [(0, 3)] }) demo)).pending.contains (0, 3) = true
    ∧ (let x : Team := { haltedTeam with status := .hob }; x.id = 5 ∧ x.core = 0 ∧ (withTeam x (ctlPut .bankThr 0x10000 demo)).teams = [x])
    ∧ (ctlRaw .bankThr (ctlPut .bankThr 0x10000 demo)).toNat % 2 ^ 16 = 0 ∧ haltedTeam.core = 0 ∧ ({ haltedTeam with status := .hob } : Team).status = .hob
    ∧ (let v := w64 (2 * 2 ^ 8 + 33 * 2 ^ 10); v.toNat % 2 ^ 8 < ncores demo ∧ v.toNat / 2 ^ 8 % 2 ^ 2 = 2 ∧ v.toNat / 2 ^ 10 % 2 ^ 7 < (bankCounts 2).2)
    ∧ (coreOf 0 (raking evac demo)).evac = some evac ∧ evac.flipped = false ∧ evac.victims = [] ∧ evac.next < evac.total
    ∧ (coreOf 0 (raking { evac with next := 1 } demo)).evac = some { evac with next := 1 } ∧ evac.dest ≠ evac.bank ∧ evac.drop = false
    ∧ (coreOf 0 (raking { evac with flipped := true } demo)).evac = some { evac with flipped := true }
    ∧ (let s := raking { evac with victims := [2] } demo
       let x := modTeams (fun t => t.wg == 2 && t.id != 0) (Team.halt s.ck) s
       beingSaved 2 s = true ∧ (wgOf 2 x).isSome = true ∧ chunkOpen 2 x = false
       ∧ chunkOpen 2 (modTeams (fun t => t.wg == 2) (fun t => { t with c := { ops := [{ someOp 4 (.copy 0x2000 0x1000 1 64 0 0 0 0 4 false) with buf := some [0] }] } }) x) = true
       ∧ (let u := takeOut ((wgOf 2 x).getD {}) x
          (u.cores.filter fun x => match x.2.evac with | some e => e.victims.contains 2 | none => false).map (·.1) = [0]
          ∧ (coreOf 0 u).evac = some { evac with victims := [2] })) := by decide +kernel

/-! ## Requests and replies -/

/-- A relaxed access of the demo core to the last word of the line at 0x1000. -/
def lineReq (op : ReqOp) : Req := { id := 5, agent := .team, team := 1, op := op, ptr := 0x1000, items := [{ lane := 0, off := 60, size := 4, data := 7, data2 := 8 }] }
def lineEnt (op : ReqOp) (p : Phase) : LsuEnt := { id := 5, kind := .atomic, req := lineReq op, group := 5, pc := 0, phase := p, dest := .s 4 }
theorem witness_LineAccesses : awake (lined demo) = true
    ∧ (∀ op, op ∈ [ReqOp.read, .write, .atom .add, .cas] → (lineReq op).agent = .team ∧ (lineReq op).ord = .rlx ∧ (lineReq op).eager = false
        ∧ (lineReq op).ember = none)
    ∧ (lined demo).flueDown = [] ∧ (lined demo).mapop = none ∧ (lined demo).biasOp = none ∧ (lined demo).biasHost = []
    ∧ reqHome (lineReq .read) (lined demo) = .local 2 ∧ lineAt (lineVa (vaOf 0x1000)) (keyOf 0x1000) (lined demo) = some demoLine
    ∧ demoLine.present = true ∧ demoLine.attr = 0 ∧ demoLine.ar = false ∧ demoLine.poison = 0 ∧ demoLine.st = .shared ∧ demoLine.place = .hbm 0x10000 ∧ emberAt demoLine.ptr (lined demo) = none
    ∧ (∀ op, op ∈ [ReqOp.write, .atom .add] → (runItems op ((lined demo).mem.readN 0x10000 64) (lineReq op).items).2.2 ≠ 0
        ∧ (runItems op ((lined demo).mem.readN 0x10000 64) (lineReq op).items).2.2.testBit 9 = false)
    ∧ (runItems .cas ((lined demo).mem.readN 0x10000 64) (lineReq .cas).items).2.2 = 0
    ∧ (lined demo).monitors = [] ∧ (lined demo).mem.wf = true ∧ 60 + 4 ≤ 64
    ∧ (lineReq (.atom .add)).isRmw = true ∧ (lineReq .cas).isRmw = true
    ∧ (let s : State := { lined demo with lsu := [lineEnt .cas .sent] }; s.lsu.find? (fun e => e.id == 5) = some (lineEnt .cas .sent)) := by decide +kernel
theorem witness_CoreReplies : awake demo = true ∧ (lineReq .read).agent = .team ∧ (lineReq .read).op = .read ∧ (lineReq .read).walloc = false
    ∧ (lineReq .cas).isRmw = true ∧ (lineReq .cas).op ≠ .query
    ∧ (let s : State := { demo with lsu := [lineEnt .read .sent] }
       let m := mergeReply (lineReq .read) 1 s
       passesOf (lineReq .read) m = [lineEnt .read .sent] ∧ (lineEnt .read .sent).hostHeld = false ∧ (lineEnt .read .sent).gone = false
       ∧ (let c : State := { demo with lsu := [lineEnt .cas .sent] }; passesOf (lineReq .cas) (mergeReply (lineReq .cas) 1 c) = [lineEnt .cas .sent])
       ∧ m.lsu.find? (fun e => e.id == 5) = some (lineEnt .read .sent) ∧ (lineEnt .read .sent).phase = .sent ∧ (lineEnt .read .sent).inh = false)
    ∧ (∀ r m, (lineEnt .read .sent).kind ≠ .launch r m) ∧ teamOf 1 demo = some demo.cur ∧ demo.cur.dead = false :=
  ⟨by decide +kernel, by decide, by decide, by decide, by decide, by decide, by decide +kernel, (by intro r m h; cases h), by decide +kernel, by decide⟩
theorem witness_EmbersAndDraws : awake (lined demo) = true
    ∧ (let r : Req := { lineReq .write with ord := .rel, ember := some {} }
       r.ord = .rel ∧ r.ember = some {} ∧ r.eager = false ∧ emberRoom r.part demoLine (lined demo) = some (lined demo) ∧ (lined demo).embers = []
        ∧ (runItems .write ((lined demo).mem.readN 0x10000 64) r.items).2.2 ≠ 0)
    ∧ unapplied 0 0 0 demo = [] ∧ fetching 0x1000 demo = false ∧ fetching 0x1000 (linked .own { op := .read, ptr := 0x1000 } demo) = true
    ∧ writeBackCut { ptr := 0x1000 } (lined demo) = false ∧ (coreOf 0 demo).dirtySet 0 0 = [] ∧ (flushRemote true 0 demo).1 = [] ∧ 1023 < 2 ^ 10
    ∧ writableAt 0x1000 0 (lined demo) = true
    ∧ (let d : DLine := { va := 0x1000, key := 0, part := 0, vw := 0, vd := 0, wts := 0, rts := 0, die := 0, dmask := 1, depoch := 0, data := List.replicate 64 1 }
       (coreOf 0 (modCore 0 (fun c => { c with dl := [d], rseq := 1 }) demo)).dirtySet 0 1 = [d]) := by decide +kernel
/-- A fetch of the line at the demo team's pc. -/
def fetched (st : Nat) : FetchRsp := { team := 1, ptr := 0x1000, status := st, bytes := List.replicate 64 0 }
theorem witness_CoreTimersAndWakes : awake demo = true ∧ demo.lines = [] ∧ (coreOf 0 demo).dl = [] ∧ (homeOf 0 demo).noted = []
    ∧ (let d : DLine := { va := 0x1000, key := 0, part := 0, vw := 0, vd := 0, wts := 0, rts := 0, die := 0, dmask := 1, depoch := 0, data := List.replicate 64 1 }
       let s := modCore 0 (fun c => { c with dl := [d] }) { demo with ck := 60800 }
       ((coreOf 0 s).dl.filter fun d => d.dmask != 0 && decide (d.since + 60800 ≤ s.ck)) = [d])
    ∧ (let s : State := modHome 36 (fun h => { h with noted := [(0, 0, false)] }) { demo with lsu := [lineEnt .read (.retry 36)] }
       (homeOf 36 s).noted = [((lineEnt .read (.retry 36)).req.core, (lineEnt .read (.retry 36)).req.part, false)] ∧ s.lsu = [lineEnt .read (.retry 36)]
       ∧ faultRoom 0 36 s = true)
    ∧ (homeOf 36 demo).ovf.testBit 0 = false ∧ ({ fetched 0 with spec := 9 } : FetchRsp).spec ≠ 0
    ∧ (let s : State := { demo with cur := { demo.cur with fetching := true } }
       teamOf 1 s = some s.cur ∧ s.cur.fetching = true ∧ linePtr s.cur.pc = (fetched 0).ptr ∧ (fetched 0).spec = 0 ∧ s.cur.entryFetch (fetched 2) = false ∧ s.cur.entryFetch (fetched 3) = false
       ∧ s.cur.entryFetch (fetched 4) = false)
    ∧ (let x : FaultEnt := { slot := 255, req := {}, cause := 8, level := 0, kind := 0, hostHeld := true }
       let s := modHome 0 (fun h => { h with faults := [x] }) demo
       ([0, 1, 2, 3].map fun c => ((homeOf 0 s).faults.find? fun f => f.slot == (w64 (255 + c * 2 ^ 8)).toNat % 2 ^ 8) == some x
          && (w64 (255 + c * 2 ^ 8)).toNat / 2 ^ 8 % 2 ^ 2 == c) = [true, true, true, true]) := by decide +kernel
/-- A mapping operation under way. -/
def mapping (op : Nat) (s : State) : State := { s with mapop := some { op := op, size := 0, va := 0x10000, arg := 0 } }
theorem witness_MappingOperations : awake demo = true ∧ (3 : W64).getLsbD 0 = true ∧ (ctlRaw .ptCmd demo).getLsbD 0 = false
    ∧ (ctlRaw .ptCmd (ctlPut .ptCmd 1 demo)).getLsbD 0 = true
    ∧ areaReady (pageArea 0 0x10000) (mapping 1 demo) = true ∧ (mapping 1 demo).biasOp = none
    ∧ (hostMapOp { op := 1, size := 0, va := 0x10000, arg := 0 } (mapping 1 demo)).isSome = true
    ∧ ((hostMapOp { op := 1, size := 0, va := 0x10000, arg := 0 } (mapping 1 demo)).map (·.biasOp)) = some none
    ∧ (hostMapOp { op := 0, size := 0, va := 0x10000, arg := 0 } (mapping 0 demo)).isNone = true
    ∧ mapReady { op := 1, size := 0, va := 0x10000, arg := 0 } { mapping 1 demo with lines := [{ demoLine with va := 0x10000, st := .held }] } = false
    ∧ demo.mapop = none ∧ ({ demo with mapq := [5] } : State).mapq = [5]
    ∧ (ctlRaw (.hotBase 63) demo).getLsbD 0 = false ∧ (0x10001 : W64).getLsbD 0 = true ∧ (0x10000 : W64).getLsbD 0 = false := by decide +kernel

/-! ## Links, power and the host's commands -/

/-- Port 7 up. -/
def linkedUp (f : Port → Port) : State := modPort 7 (fun x => f { x with up := true }) State.reset
/-- An intact flit of a type. -/
def flit (ty : Nat) (body : List Byte) : Flit := sealFlit { seq := 0, ack := 0, ty := ty, tc := 3, body := body, crc := 0 }
theorem witness_PortEvents : awake (linkedUp id) = true ∧ 7 < 8 ∧ (portOf 7 (linkedUp id)).up = true ∧ (portOf 7 (linkedUp id)).training = false
    ∧ ([flit 0 [1, 2], flit 3 [], flit 4 [], flit 2 [4, 0], flit 1 [5, 32, 0]].map fun f => (goodFlit f, f.ty))
      = [(true, 0), (true, 3), (true, 4), (true, 2), (true, 1)]
    ∧ goodFlit { flit 0 [1, 2] with crc := 0 } = false ∧ goodFlit { flit 2 [4, 0] with fec := true } = false
    ∧ (flit 0 [1, 2]).seq = (portOf 7 (linkedUp id)).expect ∧ ((portOf 7 (linkedUp id)).rx.getD 3 []).length + [1, 2].length ≤ 65536
    ∧ ({ flit 0 [] with seq := 1 } : Flit).seq ≠ (portOf 7 (linkedUp id)).expect
    ∧ ([6, 7].map fun k =>
        let y := portOf 7 (modPort 7 (fun x => x.acked (flit 2 [4, 0]).ack) (linkedUp fun x => { x with nakSeq := 4, naks := k }))
        y.retry.isEmpty && y.nakSeq == nakOf (flit 2 [4, 0]) && y.naks == k) = [true, true]
    ∧ pauseMask (flit 1 [5, 32, 0]) = 5 ∧ pauseOf (flit 1 [5, 32, 0]) = 32 ∧ pauseOf (flit 1 [5, 0, 0]) = 0
    ∧ (let s := linkedUp fun x => { x with pausedUntil := [5, 6, 0, 0] }; (portOf 7 { s with ck := 5 }).pausedUntil.getD 0 0 = 5 ∧ 5 < (portOf 7 s).pausedUntil.getD 1 0)
    ∧ ([32767, 32768, 32769].map fun n =>
        let x := portOf 7 (linkedUp fun x => { x with weSent := [true, false, false, false], rx := [List.replicate n 0, [], [], []] })
        (x.weSent.getD 0 false, decide ((x.rx.getD 0 []).length < 32768), decide (32768 < (x.rx.getD 0 []).length)))
      = [(true, true, false), (true, false, false), (true, false, true)]
    ∧ (let y := portOf 7 (modPort 7 (fun x => x.acked (flit 2 [4, 0]).ack) (linkedUp fun x => { x with retry := [{ flit 0 [1] with seq := 4 }, { flit 0 [2] with seq := 5 }] }))
       (y.retry.any (fun g => g.seq == nakOf (flit 2 [4, 0]))) = true ∧ y.naks = 0 ∧ (y.replay 5).out.length = 1)
    ∧ (portOf 7 State.reset).up = false
    ∧ (portOf 7 (linkedUp id)).weSent.getD 0 false = false
    ∧ (portOf 7 (linkedUp fun x => { x with training := true, fails := 1 })).training = true
    ∧ (portOf 7 (linkedUp fun x => { x with training := true, fails := 1 })).fails < 2 ∧ (portOf 7 (linkedUp fun x => { x with fails := 2 })).fails = 2
    ∧ (portOf 7 (linkedUp id)).pend = [] ∧ (portOf 7 (linkedUp fun x => { x with pend := [(1, {})] })).pend = [(1, {})]
    ∧ (4 : W64).getLsbD 2 = true ∧ (ctlRaw (.fjStat 7) (ctlPut (.fjStat 7) 4 (linkedUp id))).toNat / 2 ^ 2 % 2 = 1
    ∧ (ctlRaw (.fjStat 7) (linkedUp id)).toNat / 2 ^ 2 % 2 = 0 := by decide +kernel
/-- A chunk of one element from module 1, and a part of a collective that waits for it, in a module whose tenant 0 has partition 0. -/
def demoChunk : ChunkMsg :=
  { tag := 9, tenant := 0, srcm := 1, rank := 1, x := [5], c1 := (checkSums [5]).1, c2 := (checkSums [5]).2, w := 0, count := 1, chunk := 0, kind := 1 }
def demoPart : CollPart := { mods := [0, 1], count := 8, tag := 9 }
def collecting : State :=
  { tenanted 1 with cur := { demo.cur with l := { ops := [{ someOp 4 (.coll 2 0x1000) with part := some demoPart }] } } }
theorem witness_ChunksAndFlue : awake collecting = true ∧ demoChunk.kind ≠ 2 ∧ ({ demoChunk with kind := 2 } : ChunkMsg).kind = 2
    ∧ tenantHere 0 demo = false ∧ tenantHere 0 collecting = true ∧ partFor 9 0 (tenanted 1) = none
    ∧ ((List.range 64).all fun q => !(ctlFld (.fjTenant q) 16 1 (tenanted 1) == 1 && ctlFld (.fjTenant q) 0 16 (tenanted 1) == 0
        && (partOf q (tenanted 1)).abandoned.contains (9, 1))) = true
    ∧ partFor 9 0 collecting = some (1, { someOp 4 (.coll 2 0x1000) with part := some demoPart }) ∧ teamOf 1 collecting = some collecting.cur
    ∧ (let o : EngOp := { someOp 4 (.coll 2 0x1000) with part := some demoPart }
       demoChunk.kind = o.chunkKind ∧ demoChunk.w = demoPart.w ∧ demoChunk.count = demoPart.unitsOf o.chunkKind demoChunk.chunk
       ∧ (demoPart.mods.findIdx fun m => m == demoChunk.srcm) < demoPart.mods.length ∧ o.collKind = 2
       ∧ ¬ (2 = demoPart.unitsOf o.chunkKind 0) ∧ demoPart.got = [])
    ∧ (let o : EngOp := { someOp 4 (.coll 1 0x1000) with part := some demoPart }
       [({ demoPart with mods := [0, 1, 2], rank := 1 } : CollPart), { demoPart with rank := 1 }, demoPart].map (fun p =>
          (o.collKind, prevInChain p, nextInChain p)) = [(1, some 0, some 2), (1, some 0, none), (1, none, some 1)]
       ∧ (let s : State := { tenanted 1 with cur := { demo.cur with l := { ops := [{ o with part := some { demoPart with rank := 1 } }] } } }
          partFor 9 0 s = some (1, { o with part := some { demoPart with rank := 1 } }) ∧ (teamOf 1 (sendChunkAck 9 0 0 0 0 0 s)).isSome = true))
    ∧ checkSums demoChunk.x = (demoChunk.c1, demoChunk.c2) ∧ checkSums [6] ≠ (demoChunk.c1, demoChunk.c2) ∧ 9 < 10 := by decide +kernel
theorem witness_PowerAndTrust : awake State.reset = true ∧ 3 < 4 ∧ 104 < 105 ∧ 105 < 110 ∧ State.reset.power.halted = false
    ∧ State.reset.power.last = [] ∧ (let l := [((3 : Nat), (0 : Nat))]; 0 + 19000 ≤ 19000 ∧ ¬ (0 + 19000 ≤ 18999) ∧ l = [(3, 0)])
    ∧ (let s : State := { State.reset with power := { halted := true } }; awake s = true ∧ s.power.halted = true)
    ∧ (min 2000 (max 800 ((ctlRaw .pwrCap State.reset).toNat % 2 ^ 12))) = 2000 ∧ 2000 * 1000 < 4 * 500000 + 1 ∧ ¬ 2000 * 1000 < 4 * 500000 + 0 ∧ 95 < 96
    ∧ 4 ≤ 7 ∧ 7 < 8 := by decide +kernel
theorem witness_HostCommands : awake demo = true ∧ emuQueue 0 demo = []
    ∧ (let s : State := { demo with cur := { demo.cur with emu := true } }; emuQueue 0 s = [s.cur]) ∧ 63 < 64
    ∧ alGet ((0 : W64), (0 : W32), true) (0, 2047) demo.msixTab = (0, 0, true) ∧ (0xFFFFFFFF : W64).getLsbD 32 = false ∧ (2 ^ 32 : W64).getLsbD 32 = true
    ∧ (0, 2047) ∉ demo.msixPend ∧ (0, 2047) ∈ ({ demo with msixPend := [(0, 2047)] } : State).msixPend := by decide +kernel

/-! ## Steps that complete -/

/-- The Rake of core 0 at work, with bank 3 of the VRF ashed when it is done. -/
theorem witness_StepsComplete : awake demo = true ∧ 0 < ncores demo ∧ 67 < (bankCounts 0).2 ∧ (coreOf 0 demo).errs = []
    ∧ 1 < (ctlRaw .bankThr (ctlPut .bankThr 0x10002 demo)).toNat % 2 ^ 16
    ∧ (let v := w64 (5 * 2 ^ 10)
       let s := raking evac demo
       v.toNat % 2 ^ 8 = 0 ∧ v.toNat / 2 ^ 8 % 2 ^ 2 = 0 ∧ v.toNat / 2 ^ 10 % 2 ^ 7 = 5 ∧ (coreOf 0 s).evac = some evac
       ∧ ((coreOf 0 s).bmap 0).ashed.contains 5 = false ∧ (coreOf 0 s).rakeQ.contains (0, 5) = false ∧ evac.bank ≠ 5)
    ∧ evac.victims = [] ∧ evac.flipped = false ∧ evac.next + 1 = evac.total ∧ ({ evac with total := 2 } : Evac).next + 1 < 2
    ∧ ({ evac with next := 1 } : Evac).total ≤ 1 ∧ evac.kind = 0 ∧ evac.dest ≠ evac.bank ∧ evac.drop = false
    ∧ (demo.cur :: demo.teams).all (fun t => t.vbad.isEmpty) = true
    ∧ (let s := raking { evac with flipped := true } demo; (coreOf 0 s).evac = some { evac with flipped := true } ∧ (coreOf 0 s).rakeQ = [])
    ∧ (let s := raking { evac with victims := [2, 7] } demo
       let x := modTeams (fun t => t.wg == 2 && t.id != 0) (Team.halt s.ck) s
       let u := takeOut ((wgOf 2 x).getD {}) x
       beingSaved 2 s = true ∧ chunkOpen 2 x = false ∧ (wgOf 2 x).isSome = true ∧ (coreOf 0 u).evac = some { evac with victims := [2, 7] }
       ∧ (u.cores.filter fun x => match x.2.evac with | some e => e.victims.contains 2 | none => false).map (·.1) = [0])
    ∧ (let s := mapping 1 demo
       s.mapop = some { op := 1, size := 0, va := 0x10000, arg := 0 } ∧ areaReady (pageArea 0 0x10000) s = true ∧ s.biasOp = none
       ∧ (htbReplace 0 0x10000 none (clearArea (pageArea 0 0x10000) s)).biasOp = none)
    ∧ demo.mapop = none ∧ ({ demo with mapq := [5] } : State).mapq = [5]
    ∧ ([(3 : W64), 5, 7, 9].map fun v => (v.getLsbD 0, v.toNat / 2 % 2 ^ 3)) = [(true, 1), (true, 2), (true, 3), (true, 4)]
    ∧ (ctlRaw .ptCmd demo).getLsbD 0 = false ∧ (ctlRaw (.hotBase 63) demo).getLsbD 0 = false ∧ (0x10000 : W64).getLsbD 0 = false
    ∧ (let op : EOp := .copy 0x2000 0x1000 0 64 0 0 0 0 0 false
       let s := withC op (held demo); teamOf 1 s = some s.cur ∧ copiesReady s.cur s = [someOp 4 op])
    ∧ (let s : State := { demo with biasOp := some (false, 5, 2) }; s.biasOp = some (false, 5, 2) ∧ s.links = [])
    ∧ (demo.launches.filter fun l => l.part == 0 && l.wdogHalt) = []
    ∧ (let x : LinkReq := { id := 7, kind := .qnLaunch 3, req := {}, due := 1, pkt := some launchPkt }
       let s : State := { demo with ck := 1, links := [x] }; s.links = [x] ∧ x.due ≠ 0 ∧ x.due ≤ s.ck ∧ x.pkt = some launchPkt) := by decide +kernel

end Sys2Proof.Tests
end

section
/-! SUPPORT. The results of the scalar instructions of major 0x01 (R287, R288) and of the mask, vote, flag and divergence
instructions of major 0x15 (R299 to R303). -/

namespace Sys2Proof.Proofs
open Sys2Proof.Machine Sys2Proof.Safety Sys2Proof.Laws

/-! ## Truth values as results -/

/-- A test delivered as a 64-bit value (R287, R300). -/
theorem w64_nb_of_eq_decide {b : Bool} {p : Prop} [Decidable p] (h : b = decide p) : w64 (nb b) = if p then 1 else 0 := by
  subst h; by_cases hp : p <;> simp [hp, nb, w64]

/-- The complement of a test delivered as a 64-bit value. -/
theorem w64_nb_of_eq_not_decide {b : Bool} {p : Prop} [Decidable p] (h : b = !decide p) : w64 (nb b) = if p then 0 else 1 := by
  subst h; by_cases hp : p <;> simp [hp, nb, w64]

/-! ## Forms of major 0x01 -/

/-- A form of major 0x01 that is ready issues with its function of the team in sD: `scalarOp_issues`, whose argument `w` plays no part. -/
theorem scalar_issues {i : Instr} {s : State} {d : Reg} {v : W64} {f : Team → W64} (hd : exec i s = scalarOp i d f s)
    (hv : f s.cur = v) : ready i s = true → exec i s = issued i s (withScalar d v s) :=
  scalarOp_issues (w := v) hd hv

/-- A comparison that holds exactly when `p` does leaves 1 for `p` and 0 otherwise. -/
theorem scmp_issues {c : Cmp} {s : State} {d a b : Reg} {ta tb : Bool} {p : Prop} [Decidable p]
    (h : cmpHolds c (s.cur.gs a) (s.cur.gs b) = decide p) : ready (.scmp c d a b ta tb) s = true →
      exec (.scmp c d a b ta tb) s = issued (.scmp c d a b ta tb) s (withScalar d (if p then 1 else 0) s) :=
  scalar_issues rfl (w64_nb_of_eq_decide h)

/-- A comparison that holds exactly when `p` does not leaves 0 for `p` and 1 otherwise. -/
theorem scmp_issues_not {c : Cmp} {s : State} {d a b : Reg} {ta tb : Bool} {p : Prop} [Decidable p]
    (h : cmpHolds c (s.cur.gs a) (s.cur.gs b) = !decide p) : ready (.scmp c d a b ta tb) s = true →
      exec (.scmp c d a b ta tb) s = issued (.scmp c d a b ta tb) s (withScalar d (if p then 0 else 1) s) :=
  scalar_issues rfl (w64_nb_of_eq_not_decide h)

/-- R287: the unsigned quotient, with its corner. -/
theorem sdivN_eq (x y : W64) : sdivN x y = if y = 0 then BitVec.allOnes 64 else BitVec.ofNat 64 (x.toNat / y.toNat) := by
  rw [sdivN, udiv_eq]

/-- R287: the unsigned remainder, with its corner. -/
theorem sremN_eq (x y : W64) : sremN x y = if y = 0 then x else BitVec.ofNat 64 (x.toNat % y.toNat) := by
  rw [sremN, umod_eq]

/-- Settles O1: every form of major 0x01 is a scalar operation, so what is left is its function of the sources as a number. -/
theorem scalarResults : Obligations.ScalarResults := by
  intro s d a b ta tb
  refine ⟨?sadd, ?ssub, ?smul, ?smulhI, ?smulhN, ?sdivI, ?sdivN, ?sremI, ?sremN, ?sand, ?sor, ?sxor, ?sandn, ?sshl, ?sshr, ?ssra,
    ?sminI, ?sminN, ?smaxI, ?smaxN, ?sclz, ?sctz, ?spopc, ?smov, ?ssel, ?sbfxN, ?sbfxI, ?sbfi, ?eq, ?ne, ?ltI, ?geI, ?ltN, ?geN⟩
  case sadd | ssub | smul | smulhI | smulhN | sand | sor | sxor | sandn | smov | ssel => exact scalar_issues rfl rfl
  case sdivI => exact scalar_issues rfl (sdivI_eq _ _)
  case sdivN => exact scalar_issues rfl (sdivN_eq _ _)
  case sremI => exact scalar_issues rfl (sremI_eq _ _)
  case sremN => exact scalar_issues rfl (sremN_eq _ _)
  case sshl => exact scalar_issues rfl (congrArg (s.cur.gs a <<< ·) (fld_lo _))
  case sshr => exact scalar_issues rfl (congrArg (s.cur.gs a >>> ·) (fld_lo _))
  case ssra => exact scalar_issues rfl (congrArg (s.cur.gs a).sshiftRight (fld_lo _))
  case sminI => exact scalar_issues rfl (pick_slt_le _ _)
  case sminN => exact scalar_issues rfl (pick_ult_le _ _)
  case smaxI => exact scalar_issues rfl (pick_slt_ge _ _)
  case smaxN => exact scalar_issues rfl (pick_ult_ge _ _)
  case sclz => exact scalar_issues rfl (congrArg w64 (leadZeros_bv _))
  case sctz => exact scalar_issues rfl (congrArg w64 (trailZeros_bv _))
  case spopc => exact scalar_issues rfl (congrArg w64 (popCount_bv _))
  case sbfxN => exact scalar_issues rfl (sbfx_unsigned _ _)
  case sbfxI => exact scalar_issues rfl (sbfx_signed _ _)
  case sbfi => exact scalar_issues rfl (sbfi_eq _ _ _)
  case eq | ltI | ltN => exact scmp_issues rfl
  case ne | geI | geN => exact scmp_issues_not rfl

/-! ## Major 0x15 -/

/-- R303: `flclr` that is ready issues and changes the flag sets alone. -/
theorem flclr_issues {a : Option (Fin 5)} {s : State} (h : ready (.flclr a) s = true) :
    exec (.flclr a) s = issued (.flclr a) s { s with cur := { s.cur with flags := clearFlags s.cur.flags (s.cur.gk 0) a } } :=
  word_done h rfl

/-- R301: `kif` saves k0 in kN and narrows it by kC. -/
theorem kif_issues {n c : KReg} {s : State} (hn : n ≠ 0) (h : ready (.kif n c) s = true) :
    ∃ u, exec (.kif n c) s = issued (.kif n c) s { s with cur := u }
      ∧ u.gk n = s.cur.gk 0 ∧ u.gk 0 = s.cur.gk 0 &&& s.cur.gk c ∧ (∀ j, j ≠ 0 → j ≠ n → u.gk j = s.cur.gk j)
      ∧ { u with k := s.cur.k } = s.cur := by
  refine ⟨(s.cur.sk n (s.cur.gk 0)).sk 0 (s.cur.gk 0 &&& s.cur.gk c), word_done h rfl, ?saved, gk_sk_same _ _ _, ?others, rfl⟩
  case saved => rw [gk_sk_ne _ _ _ _ hn, gk_sk_same]
  case others => intro j hj0 hjn; rw [gk_sk_ne _ _ _ _ hj0, gk_sk_ne _ _ _ _ hjn]

/-- R301, R120: `kelse` swaps to the lanes of kN outside k0, and escapes when k0 held a lane outside kN. -/
theorem kelse_issues {n : KReg} {s : State} (hn : n ≠ 0) (h : ready (.kelse n) s = true) :
    ∃ u, exec (.kelse n) s
        = .next (retire s.cur (.kelse n) (decide (s.cur.gk 0 &&& ~~~s.cur.gk n ≠ 0)) (s.cur.pc + 4) { s with cur := u })
      ∧ u.gk n = s.cur.gk 0 ∧ u.gk 0 = s.cur.gk n &&& ~~~s.cur.gk 0 ∧ (∀ j, j ≠ 0 → j ≠ n → u.gk j = s.cur.gk j)
      ∧ { u with k := s.cur.k } = s.cur := by
  have hesc : escapes (s.cur.gk 0) (s.cur.gk n) = decide (s.cur.gk 0 &&& ~~~s.cur.gk n ≠ 0) := decide_not.symm
  refine ⟨(s.cur.sk 0 (s.cur.gk n &&& ~~~s.cur.gk 0)).sk n (s.cur.gk 0), ?issues, gk_sk_same _ _ _, ?elseLanes, ?others, rfl⟩
  case issues => rw [← hesc]; exact word_done h rfl
  case elseLanes => rw [gk_sk_ne _ _ _ _ hn.symm, gk_sk_same]
  case others => intro j hj0 hjn; rw [gk_sk_ne _ _ _ _ hjn, gk_sk_ne _ _ _ _ hj0]

/-- R301: `kjoin` adds the lanes of kN to k0. -/
theorem kjoin_issues {n : KReg} {s : State} (h : ready (.kjoin n) s = true) :
    ∃ u, exec (.kjoin n) s = issued (.kjoin n) s { s with cur := u }
      ∧ u.gk 0 = s.cur.gk 0 ||| s.cur.gk n ∧ (∀ j, j ≠ 0 → u.gk j = s.cur.gk j) ∧ { u with k := s.cur.k } = s.cur :=
  ⟨s.cur.sk 0 (s.cur.gk 0 ||| s.cur.gk n), word_done h rfl, gk_sk_same _ _ _, fun _ hj => gk_sk_ne _ _ _ _ hj, rfl⟩

/-- Settles O7: the mask and scalar forms by their shared shapes, the divergence forms by what they leave in k0 and kN. -/
theorem maskResults : Obligations.MaskResults := by
  refine ⟨fun s d kd x y a b f ta tb => ?_, fun s n c => ⟨kif_issues, kelse_issues, kjoin_issues⟩⟩
  refine ⟨?kmov, ?kand, ?kor, ?kxor, ?kandn, ?knot, ?kwwr, ?kflag, ?kpopc, ?kffs, ?kwrd, ?kvoteAny, ?kvoteAll, ?flrd,
    flclr_issues, flclr_issues⟩
  case kmov | kand | kor | kxor | kandn | knot | kwwr | kflag => exact maskOp_issues rfl rfl
  case kpopc => exact maskToScalar_issues rfl (congrArg w64 (popCount_bv _))
  case kffs => exact maskToScalar_issues rfl (by rw [trailZeros_bv]; rfl)
  case kwrd | flrd => exact maskToScalar_issues rfl rfl
  case kvoteAny => exact maskToScalar_issues rfl (w64_nb_of_eq_not_decide rfl)
  case kvoteAll => exact maskToScalar_issues rfl (w64_nb_of_eq_decide rfl)

end Sys2Proof.Proofs
end

section
/-! SUPPORT. The results of the immediate add, the integer conversions, the broadcasts, the lane index and the packing of majors 0x12
to 0x14 (R313 to R315). -/

namespace Sys2Proof.Proofs
open Sys2Proof.Machine Sys2Proof.Safety Sys2Proof.Laws

/-! ## Packing (R314) -/

/-- A lane is the number that it reads as. -/
theorem w32_eq_of_toNat {k : Nat} {z : W32} (h : z.toNat = k) : w32 k = z := by
  subst h; exact BitVec.ofNat_toNat 32 z |>.trans (BitVec.setWidth_eq z)

/-- Two fields side by side, as a number. -/
theorem toNat_append_add {m n : Nat} (x : BitVec m) (y : BitVec n) : (x ++ y).toNat = x.toNat * 2 ^ n + y.toNat := by
  rw [BitVec.toNat_append, ← Nat.shiftLeft_add_eq_or_of_lt y.isLt, Nat.shiftLeft_eq]

/-- R314: the halves of two lanes. -/
theorem packB16_eq (x y : W32) : w32 (y.toNat % 2 ^ 16 * 2 ^ 16 + x.toNat % 2 ^ 16) = y.setWidth 16 ++ x.setWidth 16 :=
  w32_eq_of_toNat (by rw [toNat_append_add, BitVec.toNat_setWidth, BitVec.toNat_setWidth])

/-- R314: the bytes of two lanes before the upper half of a third. -/
theorem packB8_eq (x y z : W32) : w32 (y.toNat % 2 ^ 8 * 2 ^ 24 + x.toNat % 2 ^ 8 * 2 ^ 16 + z.toNat / 2 ^ 16)
    = y.setWidth 8 ++ (x.setWidth 8 ++ (z >>> 16).setWidth 16) := by
  have hz : ((z >>> 16).setWidth 16).toNat = z.toNat / 2 ^ 16 := by
    rw [BitVec.toNat_setWidth, BitVec.toNat_ushiftRight, Nat.shiftRight_eq_div_pow, Nat.mod_eq_of_lt (by omega)]
  exact w32_eq_of_toNat (by
    rw [toNat_append_add, toNat_append_add, BitVec.toNat_setWidth, BitVec.toNat_setWidth, hz, Nat.add_assoc])

/-- R314: the `n` bits of a lane from bit `k` on. -/
theorem unpack_eq (x : W32) (k n : Nat) (hn : n ≤ 32) : w32 (x.toNat / 2 ^ k % 2 ^ n) = (x >>> k) &&& BitVec.ofNat 32 (2 ^ n - 1) := by
  have hlt : 2 ^ n - 1 < 2 ^ 32 := (Nat.sub_one_lt (Nat.two_pow_pos n).ne').trans_le (Nat.pow_le_pow_right (by decide) hn)
  exact w32_eq_of_toNat (by
    rw [BitVec.toNat_and, BitVec.toNat_ushiftRight, BitVec.toNat_ofNat, Nat.mod_eq_of_lt hlt, Nat.and_two_pow_sub_one_eq_mod,
      Nat.shiftRight_eq_div_pow])

/-- R314: the field of sB that `vunpack` reads is its low `n` bits; those above are ignored. -/
theorem fld_low (y : W64) (n : Nat) : fld y 0 n = y.toNat % 2 ^ n := by rw [fld, Nat.pow_zero, Nat.div_one]

/-! ## Integer conversion (R315) -/

/-- R315: the exact integer of an element, by the width and signedness of its type. -/
theorem itypeRead_eq (x : IType) (v : W64) :
    itypeRead x v = if (itypeInfo x).2 then sextInt (itypeInfo x).1 v.toNat else ((v.toNat % 2 ^ (itypeInfo x).1 : Nat) : Int) := rfl

/-- R315: what is delivered, by the range of the type. -/
theorem itypeWrite_eq (x : IType) (sat : Bool) (v : Int) :
    itypeWrite x sat v = BitVec.ofInt 64 (if (itypeRange x).1 ≤ v ∧ v ≤ (itypeRange x).2 then v
      else if sat then (if v < (itypeRange x).1 then (itypeRange x).1 else (itypeRange x).2)
      else if (itypeInfo x).2 then sextInt (itypeInfo x).1 (wrapNat (itypeInfo x).1 v) else wrapNat (itypeInfo x).1 v) := rfl

/-- The low bits of a number are congruent to it. -/
theorem mod_two_pow_modEq (n v : Nat) : ((v % 2 ^ n : Nat) : Int) ≡ v [ZMOD 2 ^ n] := by push_cast; exact Int.mod_modEq _ _

/-- A sign-extended element is congruent to its bits. -/
theorem sextInt_modEq (n v : Nat) : sextInt n v ≡ v [ZMOD 2 ^ n] := by
  simp only [sextInt]
  split
  · exact mod_two_pow_modEq n v
  · exact Int.sub_modulus_modEq_iff.mpr (mod_two_pow_modEq n v)

/-- An element's exact integer is congruent to its bits modulo its width. -/
theorem itypeRead_modEq (x : IType) (v : W64) : itypeRead x v ≡ v.toNat [ZMOD 2 ^ (itypeInfo x).1] := by
  rw [itypeRead_eq]
  split
  · exact sextInt_modEq _ _
  · exact mod_two_pow_modEq _ _

/-- An element's exact integer lies in the range of its type. -/
theorem itypeRead_mem (x : IType) (v : W64) : (itypeRange x).1 ≤ itypeRead x v ∧ itypeRead x v ≤ (itypeRange x).2 := by
  cases x
  case i8 | i16 | i32 | i64 => simp only [itypeRead, itypeRange, itypeInfo, sextInt, if_true]; split_ifs <;> omega
  case n8 | n16 | n32 | n64 => simp only [itypeRead, itypeRange, itypeInfo, Bool.false_eq_true, if_false]; omega

/-- A type holds one integer of each residue modulo its width. -/
theorem eq_of_modEq_of_mem {x : IType} {r q : Int} (h : r ≡ q [ZMOD 2 ^ (itypeInfo x).1])
    (hr : (itypeRange x).1 ≤ r ∧ r ≤ (itypeRange x).2) (hq : (itypeRange x).1 ≤ q ∧ q ≤ (itypeRange x).2) : r = q := by
  have hsize : (itypeRange x).2 - (itypeRange x).1 < 2 ^ (itypeInfo x).1 := by cases x <;> decide
  have h0 : r - q = 0 := Int.eq_zero_of_abs_lt_dvd h.symm.dvd (abs_lt.mpr ⟨by omega, by omega⟩)
  omega

/-- Every type fits 64 bits. -/
theorem itypeWidth_le (x : IType) : (itypeInfo x).1 ≤ 64 := by cases x <;> decide

/-- The 64 bits that hold an integer are congruent to it modulo every type's width. -/
theorem toNat_ofInt_modEq (x : IType) (r : Int) : ((BitVec.ofInt 64 r).toNat : Int) ≡ r [ZMOD 2 ^ (itypeInfo x).1] := by
  have hdvd : (2 : Int) ^ (itypeInfo x).1 ∣ ((2 ^ 64 : Nat) : Int) := by
    rw [Nat.cast_pow]; exact pow_dvd_pow 2 (itypeWidth_le x)
  rw [BitVec.toNat_ofInt, Int.toNat_of_nonneg (Int.emod_nonneg _ (by decide))]
  exact (Int.mod_modEq _ _).of_dvd hdvd

/-- An integer that a type holds is read back from its bits. -/
theorem itypeRead_ofInt {x : IType} {r : Int} (hr : (itypeRange x).1 ≤ r ∧ r ≤ (itypeRange x).2) : itypeRead x (BitVec.ofInt 64 r) = r :=
  eq_of_modEq_of_mem ((itypeRead_modEq _ _).trans (toNat_ofInt_modEq _ _)) (itypeRead_mem _ _) hr

/-- The range of a type is not empty. -/
theorem itypeRange_le (x : IType) : (itypeRange x).1 ≤ (itypeRange x).2 := by cases x <;> decide

/-- R315: an integer in the range is delivered as it is. -/
theorem itypeWrite_of_mem {x : IType} {sat : Bool} {v : Int} (h : (itypeRange x).1 ≤ v ∧ v ≤ (itypeRange x).2) :
    itypeWrite x sat v = BitVec.ofInt 64 v := by rw [itypeWrite_eq, if_pos h]

/-- R315: with sat, an integer below the range is delivered as the smallest value. -/
theorem itypeWrite_sat_below {x : IType} {v : Int} (h : v < (itypeRange x).1) :
    itypeWrite x true v = BitVec.ofInt 64 (itypeRange x).1 := by
  have hout : ¬((itypeRange x).1 ≤ v ∧ v ≤ (itypeRange x).2) := by omega
  rw [itypeWrite_eq, if_neg hout, if_pos rfl, if_pos h]

/-- R315: with sat, an integer above the range is delivered as the largest value. -/
theorem itypeWrite_sat_above {x : IType} {v : Int} (h : (itypeRange x).2 < v) :
    itypeWrite x true v = BitVec.ofInt 64 (itypeRange x).2 := by
  have hout : ¬((itypeRange x).1 ≤ v ∧ v ≤ (itypeRange x).2) := by omega
  have hlo : ¬v < (itypeRange x).1 := by have := itypeRange_le x; omega
  rw [itypeWrite_eq, if_neg hout, if_pos rfl, if_neg hlo]

/-- An integer wrapped to a number of bits is congruent to it. -/
theorem wrapNat_modEq (n : Nat) (v : Int) : (wrapNat n v : Int) ≡ v [ZMOD 2 ^ n] := by
  rw [wrapNat, Int.toNat_of_nonneg (Int.emod_nonneg _ (by positivity))]; exact Int.mod_modEq _ _

/-- R315: without sat, the bits delivered are congruent to the integer. -/
theorem itypeWrite_modEq (x : IType) (v : Int) : ((itypeWrite x false v).toNat : Int) ≡ v [ZMOD 2 ^ (itypeInfo x).1] := by
  rw [itypeWrite_eq]
  refine (toNat_ofInt_modEq x _).trans ?_
  split
  · rfl
  · rw [if_neg Bool.false_ne_true]
    split
    · exact (sextInt_modEq _ _).trans (wrapNat_modEq _ _)
    · exact wrapNat_modEq _ _

/-- Settles O4: the forms by the shape of a vector operation; the conversion by the one integer of its type with the bits delivered. -/
theorem vectorMoveResults : Obligations.VectorMoveResults := by
  refine ⟨fun s d a b ta tb i dst src => ?forms, fun dst src sat v => ?delivered⟩
  case forms =>
    refine ⟨?vaddi, ?narrow, ?wide, ?bcast, ?bcast64, ?vlane, ?packB16, ?packB8, ?unpackB16, ?unpackB8⟩
    case vaddi | bcast | vlane => exact vecOp_issues rfl fun _ => rfl
    case bcast64 => exact vecOp64_issues rfl fun _ => rfl
    case narrow => exact fun hw => vecOp_issues (if_neg (by rw [hw]; decide)) fun _ => rfl
    case wide => exact fun hw => vecOp64_issues (if_pos hw) fun _ => rfl
    case packB16 => exact vecOp_issues rfl fun _ => packB16_eq _ _
    case packB8 => exact vecOp_issues rfl fun _ => packB8_eq _ _ _
    case unpackB16 => exact vecOp_issues rfl fun _ => by rw [fld_low, unpack_eq _ _ _ (by decide)]; rfl
    case unpackB8 => exact vecOp_issues rfl fun _ => by rw [fld_low, unpack_eq _ _ _ (by decide)]; rfl
  case delivered =>
    refine ⟨fun h => ?inRange, ?below, ?above, ?wrapped⟩
    case inRange => rw [itypeWrite_of_mem h, itypeRead_ofInt h]
    case below => rintro rfl h; rw [itypeWrite_sat_below h, itypeRead_ofInt ⟨le_refl _, itypeRange_le _⟩]
    case above => rintro rfl h; rw [itypeWrite_sat_above h, itypeRead_ofInt ⟨itypeRange_le _, le_refl _⟩]
    case wrapped =>
      rintro rfl
      exact ⟨Int.emod_eq_emod_iff_emod_sub_eq_zero.mp ((itypeRead_modEq _ _).trans (itypeWrite_modEq _ _)), itypeRead_mem _ _⟩

end Sys2Proof.Proofs
end

section
/-! SUPPORT. The results of the cross-lane instructions, reductions and scans of majors 0x16 to 0x18 (R326 to R329). -/

namespace Sys2Proof.Proofs
open Sys2Proof.Machine Sys2Proof.Safety Sys2Proof.Laws

/-! ## Cross-lane moves (R326 to R328) -/

/-- R327: a shuffle that is ready takes the lane that `j` names, when `j` is a lane's number exactly if `p` holds, and then `k`. -/
theorem shfl_issues {i : Instr} {s : State} {d a b : Reg} {j : Nat → Nat → Int} {p : Nat → Prop} [DecidablePred p] {k : Nat → Nat}
    (hd : exec i s = shfl i d a b j s) (hp : ∀ l, (0 ≤ j l (s.cur.gs b).toNat ∧ j l (s.cur.gs b).toNat < s.cur.width) ↔ p l)
    (hk : ∀ l, p l → (j l (s.cur.gs b).toNat).toNat = k l) : ready i s = true →
      exec i s = issued i s (withLanes d (fun l => if p l then s.cur.lane a (k l) else s.cur.lane a l) s) := by
  refine vecOp_issues hd fun l => ?_
  by_cases h : p l
  · rw [if_pos ((hp l).mpr h), if_pos h, hk l h]
  · rw [if_neg (mt (hp l).mp h), if_neg h]

/-- R328: `vins` that is ready writes its one lane when that lane exists and is active, and changes no register otherwise. -/
theorem vins_issues {d a b : Reg} {ta tb : Bool} {s : State} (h : ready (.vins d a b ta tb) s = true) :
    exec (.vins d a b ta tb) s = issued (.vins d a b ta tb) s
      (if (s.cur.gs b).toNat < s.cur.width ∧ s.cur.act (s.cur.gs b).toNat = true then
        { s with cur := s.cur.sv d fun l => if l = (s.cur.gs b).toNat then some ((s.cur.gs a).setWidth 32) else none } else s) := by
  refine (word_done h rfl).trans (congrArg (issued _ s) ?_)
  by_cases hl : (s.cur.gs b).toNat < s.cur.width ∧ s.cur.act (s.cur.gs b).toNat = true
  · simp only [modCur, if_pos hl]
  · simp only [modCur, if_neg hl]

/-! ## Reductions and scans (R329) -/

/-- An element of a reduction's source: a lane, or a pair's lane, as a number. -/
def redElem (t : Team) (w : Bool) (a : Reg) (l : Nat) : Nat := if w then (t.lane64 a l).toNat else (t.lane a l).toNat
/-- The width of a reduction's elements. -/
def redWidth (w : Bool) : Nat := if w then 64 else 32
/-- The accumulator of the chain of the team's active lanes before lane `l`. -/
def redBefore (t : Team) (o : RedOp) (w : Bool) (a : Reg) (l : Nat) : Nat := chainBefore o (redWidth w) t.act (redElem t w a) l
/-- The step of the chain at lane `l`: the accumulator after it and the flags that it raises. -/
def redAt (t : Team) (o : RedOp) (w : Bool) (a : Reg) (l : Nat) : Nat × FX := redStep o (redWidth w) (redBefore t o w a l) (redElem t w a l)

/-- R329: what a reduction's chain gives, by its step at each lane. -/
theorem redRun_steps (t : Team) (o : RedOp) (w : Bool) (a : Reg) :
    redRun t o w a = (redBefore t o w a t.width, (List.range t.width).map fun l =>
      if t.act l then some (redBefore t o w a l, redAt t o w a l) else none) := redRun_eq t o w a

/-- The value that a scan delivers in lane `l`: the accumulator after the lane's step, or before it with `.ex`. -/
def scanOut (t : Team) (o : RedOp) (w ex : Bool) (a : Reg) (l : Nat) : Nat := if ex then redBefore t o w a l else (redAt t o w a l).1
/-- The team with a scan's results in the active lanes of its destination. -/
def scanPut (t : Team) (o : RedOp) (w ex : Bool) (d a : Reg) : Team :=
  if w then t.sv64 d fun l => if t.act l then some (w64 (scanOut t o w ex a l)) else none
  else t.sv d fun l => if t.act l then some (w32 (scanOut t o w ex a l)) else none

/-- The value that a scan reads for a lane from its chain. -/
def scanVal (t : Team) (o : RedOp) (w ex : Bool) (a : Reg) (l : Nat) : Option Nat :=
  ((redRun t o w a).2.getD l none).map fun x => if ex then x.1 else x.2.1
/-- The team with the numbers that `val` gives written to lanes of a register, or of a pair. -/
def lanesPut (t : Team) (w : Bool) (d : Reg) (val : Nat → Option Nat) : Team :=
  if w then t.sv64 d fun l => (val l).map w64 else t.sv d fun l => (val l).map w32

/-- Below the width, a scan's chain holds the result of each active lane, and nothing for another. -/
theorem scanVal_eq (t : Team) (o : RedOp) (w ex : Bool) (a : Reg) {l : Nat} (hl : l < t.width) :
    scanVal t o w ex a l = if t.act l then some (scanOut t o w ex a l) else none := by
  rw [scanVal, redRun_steps, getD_map_range _ _ _ _ rfl, if_pos hl, map_ite_some]; rfl
/-- Numbers written to lanes leave the flags. -/
theorem lanesPut_flags (t : Team) (w : Bool) (d : Reg) (val : Nat → Option Nat) : (lanesPut t w d val).flags = t.flags := by
  cases w <;> simp [lanesPut, Team.sv64]
/-- Numbers written to lanes leave the width. -/
theorem lanesPut_width (t : Team) (w : Bool) (d : Reg) (val : Nat → Option Nat) : (lanesPut t w d val).width = t.width := by
  cases w <;> simp [lanesPut, Team.sv64]
/-- A scan's values in the lanes are its results in the active lanes. -/
theorem lanesPut_scanVal (t : Team) (o : RedOp) (w ex : Bool) (d a : Reg) : lanesPut t w d (scanVal t o w ex a) = scanPut t o w ex d a := by
  cases w
  case false => exact sv_congr _ _ _ _ fun l hl => by rw [scanVal_eq _ _ _ _ _ hl, map_ite_some]
  case true => exact sv64_congr _ _ _ _ fun l hl => by rw [scanVal_eq _ _ _ _ _ hl, map_ite_some]

/-- R226, R329: a write that keeps flags and width, with the flags that the chain's steps raise. -/
theorem raise_redRun {t u : Team} {o : RedOp} {w : Bool} {a : Reg} (hf : u.flags = t.flags) (hw : u.width = t.width) :
    u.raise ((redRun t o w a).2.map fun x => x.map (·.2.2)) = { u with flags := raised t fun l => (redAt t o w a l).2 } := by
  simp only [redRun_steps, List.map_map, Function.comp_def, map_ite_some]
  exact raise_lanes _ _ _ hf hw

/-- R329: `vred` that is ready leaves the accumulator after the last lane in sD and raises the flags of the chain's steps. -/
theorem vred_issues {o : RedOp} {w : Bool} {d a : Reg} {ta : Bool} {s : State} (h : ready (.vred o w d a ta) s = true) :
    exec (.vred o w d a ta) s = issued (.vred o w d a ta) s
      { s with cur := { s.cur.ss d (redExtend o w (redBefore s.cur o w a s.cur.width)) with
                        flags := raised s.cur fun l => (redAt s.cur o w a l).2 } } := by
  refine (word_done h rfl).trans (congrArg (issued _ s) ?_)
  simp only [modCur, raise_redRun (ss_flags _ _ _) (ss_width _ _ _)]
  rw [redRun_steps]

/-- R329: `vscan` that is ready leaves its results in the active lanes and raises the flags of the chain's steps; with no lane
active it changes no register. -/
theorem vscan_issues {o : RedOp} {w ex : Bool} {d a : Reg} {ta : Bool} {s : State} (h : ready (.vscan o w ex d a ta) s = true) :
    exec (.vscan o w ex d a ta) s = issued (.vscan o w ex d a ta) s
      (if someActive s then { s with cur := { scanPut s.cur o w ex d a with flags := raised s.cur fun l => (redAt s.cur o w a l).2 } } else s) := by
  refine (word_done h rfl).trans (congrArg (issued _ s) ?_)
  by_cases h0 : s.cur.gk 0 = 0
  · rw [someActive_of_eq h0]; simp only [modCur, if_pos h0]; rfl
  · rw [someActive_of_ne h0, ← lanesPut_scanVal]; simp only [modCur, if_neg h0]
    exact congrArg (fun u => { s with cur := u }) (raise_redRun (lanesPut_flags ..) (lanesPut_width ..))

/-- Settles O8: the moves by the shapes of a vector operation and a shuffle, the reductions and scans by their chain. -/
theorem laneResults : Obligations.LaneResults := by
  refine ⟨fun s d a b ta tb => ⟨?vperm, ?up, ?dn, ?xor, ?vext, vins_issues⟩, fun s o w ex d a ta => ⟨vred_issues, vscan_issues⟩⟩
  case vperm => exact vecOp_issues rfl fun _ => rfl
  case up => exact shfl_issues (j := fun l c => (l : Int) - c) rfl (fun l => by omega) (fun l h => by omega)
  case dn => exact shfl_issues (j := fun l c => (l : Int) + c) rfl (fun l => by omega) (fun l h => by omega)
  case xor => exact shfl_issues (j := fun l c => ((l ^^^ c : Nat) : Int)) rfl (fun l => by omega) (fun l h => by omega)
  case vext => exact fun h => word_done h rfl

end Sys2Proof.Proofs
end

section
/-! SUPPORT. Decoding is exact (R250 to R275): the word of a well-formed instruction decodes to it, and a word that decodes is the
word of what it decodes to. -/

namespace Sys2Proof.Proofs
open Sys2Proof Sys2Proof.Laws

/-! ## What a decoder answers -/

/-- What a decoder answers for the word `w`, if it answers an instruction, is well-formed and has that word. -/
def Faithful (w : Nat) (x : Dec) : Prop := ∀ i, x = .ok i → i.wf = true ∧ encode i = some w

theorem faithful_error {w : Nat} {e : Reject} : Faithful w (.error e) := by rintro i ⟨⟩
theorem faithful_ok {w : Nat} {i : Instr} (hi : i.wf = true) (he : encode i = some w) : Faithful w (.ok i) := by rintro j ⟨⟩; exact ⟨hi, he⟩
theorem faithful_keep {w : Nat} {c : Bool} {e : Reject} {i : Instr} (hi : i.wf = true) (he : c = true → encode i = some w) :
    Faithful w (keep c e i) := by
  intro j hj; obtain ⟨hc, rfl⟩ := keep_ok hj; exact ⟨hi, he hc⟩
theorem faithful_keepWf {w : Nat} {e : Reject} {i : Instr} (he : encode i = some w) : Faithful w (keepWf e i) := by
  intro j hj; obtain ⟨hi, rfl⟩ := keepWf_ok hj; exact ⟨hi, he⟩
theorem faithful_ite {w : Nat} {c : Bool} {x y : Dec} (hx : c = true → Faithful w x) (hy : Faithful w y) :
    Faithful w (if c then x else y) := by
  split
  · exact hx ‹_›
  · exact hy
theorem faithful_withK {α : Type} {w : Nat} {x : Option α} {f : α → Dec} (h : ∀ v, x = some v → Faithful w (f v)) :
    Faithful w (withK x f) := by
  cases x with
  | none => exact faithful_error
  | some v => exact h v rfl

/-! ## Codes and fields that are read back -/

/-- The code of a field of two bits. -/
theorem ord_code_ofCode {n : Nat} (h : n < 4) : (Ord.ofCode n).code = n := by interval_cases n <;> rfl
theorem scope_code_ofCode {n : Nat} (h : n < 4) : (Scope.ofCode n).code = n := by interval_cases n <;> rfl
theorem sz_code_ofCode {n : Nat} (h : n < 4) : (Sz.ofCode n).code = n := by interval_cases n <;> rfl
theorem wCond_code_ofCode {n : Nat} (h : n < 4) : (WCond.ofCode n).code = n := by interval_cases n <;> rfl
/-- The code of a field of three bits. -/
theorem iType_code_ofCode {n : Nat} (h : n < 8) : (IType.ofCode n).code = n := by interval_cases n <;> rfl
/-- A code that names an operation is the operation's. -/
theorem fType_code_of_ofCode {n : Nat} {x : FType} (h : FType.ofCode n = some x) : x.code = n := by
  unfold FType.ofCode at h; split at h <;> cases h <;> rfl
theorem redOp_code_of_ofCode {n : Nat} {x : RedOp} (h : RedOp.ofCode n = some x) : x.code = n := by
  unfold RedOp.ofCode at h; split at h <;> cases h <;> rfl
theorem atomOp_code_of_ofCode {n : Nat} {x : AtomOp} (h : AtomOp.ofCode n = some x) : x.code = n := by
  unfold AtomOp.ofCode at h; split at h <;> cases h <;> rfl
theorem ctx_code_of_ofCode {n : Nat} {x : Ctx} (h : Ctx.ofCode n = some x) : x.code = n := by
  unfold Ctx.ofCode at h; split at h <;> cases h <;> rfl
theorem special_code_of_ofCode {n : Nat} {x : Special} (h : Special.ofCode n = some x) : x.code = n := by
  unfold Special.ofCode at h; split at h <;> cases h <;> rfl

/-- A field that names a mask register is its number. -/
theorem kReg_of_kOf {r : Reg} {k : KReg} (h : kOf r = some k) : kReg k = r := by
  unfold kOf at h; split at h <;> cases h; rfl
/-- A field that names a flag set is its number. -/
theorem kfReg_of_fOf {r : Reg} {f : Fin 5} (h : fOf r = some f) : kfReg (.f f) = r := by
  unfold fOf at h; split at h
  next hr => cases h; exact Fin.ext (by simp only [kfReg]; omega)
  next => cases h
/-- A field that names a mask or a flag set is its number. -/
theorem kfReg_of_kfOf {r : Reg} {x : KF} (h : kfOf r = some x) : kfReg x = r := by
  unfold kfOf at h
  split at h
  next k hk => cases h; exact kReg_of_kOf hk
  next => obtain ⟨f, hf, rfl⟩ := Option.map_eq_some_iff.mp h; exact kfReg_of_fOf hf

/-- A bit that is clear. -/
theorem eq_false_of_not {t : Bool} (h : (!t) = true) : t = false := by simpa using h
/-- A field lies below the power of its width. -/
theorem fldN_lt (w j n : Nat) : fldN w j n < 2 ^ n := Nat.mod_lt _ (Nat.two_pow_pos n)

section
variable {w m lo : Nat} {d a b : Reg} {ta tb : Bool}

/-- A word of format A or D is made of its major, its fields and its low six bits. -/
theorem fmtA_word (hw : w < 2 ^ 32) (hm : w / 2 ^ 26 % 64 = m) (hd : fld6 w 20 = d) (ha : fld6 w 14 = a) (hb : fld6 w 8 = b)
    (hta : fldB w 7 = ta) (htb : fldB w 6 = tb) (hl : w % 64 = lo) : some (fmtA m d a b ta tb lo) = some w := by
  subst hm hd ha hb hta htb hl; exact congrArg some (fmtA_of hw)
/-- A word of format B is made of its major, its fields and its low 13 bits. -/
theorem fmtB_word (hw : w < 2 ^ 32) (hm : w / 2 ^ 26 % 64 = m) (hd : fld6 w 20 = d) (ha : fld6 w 14 = a) (hta : fldB w 13 = ta)
    (hl : w % 2 ^ 13 = lo) : some (fmtB m d a ta lo) = some w := by
  subst hm hd ha hta hl; exact congrArg some (fmtB_of hw)
/-- A word of format E is made of its major, its fields and its control field. -/
theorem fmtE_word (hw : w < 2 ^ 32) (hm : w / 2 ^ 26 % 64 = m) (hd : fld6 w 20 = d) (ha : fld6 w 14 = a) (hb : fld6 w 8 = b)
    (hl : w % 256 = lo) : some (fmtE m d a b lo) = some w := by
  subst hm hd ha hb hl; exact congrArg some (fmtE_of hw)
/-- A word of format C is made of its condition, its register and its displacement. -/
theorem fmtC_word (hw : w < 2 ^ 32) (hm : w / 2 ^ 26 % 64 = 0x3D) {c n : Nat} {i : BitVec 16} (hc : fldN w 22 4 = c)
    (ha : (fld6 w 16).val = n) (hi : BitVec.ofNat 16 w = i) : some (fmtC c n i) = some w := by
  subst hc ha hi; exact congrArg some (fmtC_of hw hm)
/-- A word of format H is made of its kind and its payload. -/
theorem fmtH_word (hw : w < 2 ^ 32) (hm : w / 2 ^ 26 % 64 = 0x3E) {k p : Nat} (hk : fldN w 23 3 = k) (hp : w % 2 ^ 23 = p) :
    some (fmtH k p) = some w := by
  subst hk hp; exact congrArg some (fmtH_of hw hm)

/-- The low bits of a word of format E, by its operation and its low four bits. -/
theorem ctl_of_fields {op lo4 : Nat} (hop : fldN w 4 4 = op) (hlo : fldN w 0 4 = lo4) : w % 256 = op * 16 + lo4 := by
  simp only [fldN] at hop hlo; omega
/-- The low bits of a word of format E with an operation, an order and a scope. -/
theorem ctl_of_ctlOs {op : Nat} (hop : fldN w 4 4 = op) : w % 256 = ctlOs op (Ord.ofCode (fldN w 2 2)) (Scope.ofCode (fldN w 0 2)) := by
  rw [ctlOs, ord_code_ofCode (fldN_lt w 2 2), scope_code_ofCode (fldN_lt w 0 2)]
  simp only [fldN] at *; omega

/-! ## The decoder of each major -/

/-- Majors 0x10 and 0x11. -/
theorem vecInt_faithful (hw : w < 2 ^ 32) (e : Bool) (hm : w / 2 ^ 26 % 64 = majV e) : Faithful w (decVecInt e w) := by
  unfold decVecInt
  dsimp only
  split
  all_goals rename_i hl
  case h_1 | h_2 | h_3 | h_4 | h_5 | h_6 | h_7 | h_8 | h_9 | h_10 | h_11 | h_12 | h_13 | h_14 | h_15 | h_16 | h_17 | h_18 =>
    exact faithful_keepWf (fmtA_word hw hm rfl rfl rfl rfl rfl hl)
  case h_19 | h_20 | h_21 | h_22 =>
    exact faithful_ite (fun hb => faithful_keepWf (fmtA_word hw hm rfl rfl (unused_b hb).1 rfl (unused_b hb).2 hl)) faithful_error
  case h_23 | h_24 | h_25 | h_26 | h_27 | h_28 =>
    split
    · exact faithful_keepWf (fmtA_word hw hm (kReg_of_kOf ‹_›).symm rfl rfl rfl rfl hl)
    · exact faithful_error
  case h_29 => exact faithful_error

/-- Majors 0x02 to 0x0A and 0x12. -/
theorem imm_faithful (hw : w < 2 ^ 32) (hm : w / 2 ^ 26 % 64 = m) (hmem : m ∈ [2, 3, 4, 5, 6, 7, 8, 9, 10, 0x12]) :
    Faithful w (decImm m w) := by
  have himm : w % 2 ^ 13 = (BitVec.ofNat 13 w).toNat := (BitVec.toNat_ofNat w 13).symm
  have hcount : (fldN w 6 7 == 0) = true → w % 2 ^ 13 = (fld6 w 0).val := by
    intro h; simp only [fldN, beq_iff_eq] at h; simp only [fld6]; omega
  unfold decImm
  dsimp only
  split
  case h_1 | h_2 | h_3 | h_4 => exact faithful_ok rfl (fmtB_word hw hm rfl rfl rfl himm)
  case h_5 | h_6 | h_7 => exact faithful_keep rfl fun h => fmtB_word hw hm rfl rfl rfl (hcount h)
  case h_8 => exact faithful_keep rfl fun h => fmtB_word hw hm rfl (unused_b h).1 (unused_b h).2 himm
  case h_9 =>
    split
    · exact faithful_keep rfl fun h => fmtB_word hw hm rfl (unused_b h).1 (unused_b h).2
        (by rw [special_code_of_ofCode ‹_›, fldN, Nat.pow_zero, Nat.div_one])
    · exact faithful_error
  case h_10 =>
    have h12 : m = 0x12 := by simp_all
    exact faithful_ok rfl (fmtB_word hw (hm.trans h12) rfl rfl rfl himm)

/-- Major 0x13. -/
theorem vcvt_faithful (hw : w < 2 ^ 32) (hm : w / 2 ^ 26 % 64 = 0x13) : Faithful w (decVcvt w) := by
  have hl : w % 64 = (IType.ofCode (fldN w 3 3)).code * 8 + (IType.ofCode (fldN w 0 3)).code := by
    rw [iType_code_ofCode (fldN_lt w 3 3), iType_code_ofCode (fldN_lt w 0 3)]; simp only [fldN]; omega
  exact faithful_ite (fun hb => faithful_keepWf (fmtA_word hw hm rfl rfl (unused_b hb).1 rfl (unused_b hb).2 hl)) faithful_error

/-- Major 0x14. -/
theorem bcast_faithful (hw : w < 2 ^ 32) (hm : w / 2 ^ 26 % 64 = 0x14) : Faithful w (decBcast w) := by
  unfold decBcast
  dsimp only
  split
  all_goals rename_i hl
  case h_1 => exact faithful_keep rfl fun hb => fmtA_word hw hm rfl rfl (unused_b hb).1 rfl (unused_b hb).2 hl
  case h_2 =>
    refine faithful_keep rfl fun hb => ?_
    simp only [Bool.and_eq_true, beq_iff_eq, Bool.not_eq_true'] at hb
    obtain ⟨⟨⟨hb, htb⟩, ha⟩, hta⟩ := hb
    exact fmtA_word hw hm rfl ha hb hta htb hl
  case h_3 | h_4 | h_5 | h_6 => exact faithful_ok rfl (fmtA_word hw hm rfl rfl rfl rfl rfl hl)
  case h_7 =>
    exact faithful_ite (fun hb => faithful_keepWf (fmtA_word hw hm rfl rfl (unused_b hb).1 rfl (unused_b hb).2 hl)) faithful_error
  case h_8 => exact faithful_error

/-- Major 0x15. -/
theorem mask_faithful (hw : w < 2 ^ 32) (hm : w / 2 ^ 26 % 64 = 0x15) : Faithful w (decMask w) := by
  unfold decMask
  dsimp only
  split
  all_goals rename_i hl
  case h_1 | h_6 =>
    refine faithful_withK fun k hk => faithful_withK fun x hx => faithful_keep rfl fun h => ?_
    simp only [Bool.and_eq_true, beq_iff_eq, Bool.not_eq_true'] at h
    exact fmtA_word hw hm (kReg_of_kOf hk).symm (kfReg_of_kfOf hx).symm h.1 h.2.1 h.2.2 hl
  case h_2 | h_3 | h_4 | h_5 =>
    refine faithful_withK fun k hk => faithful_withK fun x hx => faithful_withK fun y hy => faithful_keep rfl fun h => ?_
    simp only [Bool.and_eq_true, Bool.not_eq_true'] at h
    exact fmtA_word hw hm (kReg_of_kOf hk).symm (kfReg_of_kfOf hx).symm (kfReg_of_kfOf hy).symm h.1 h.2 hl
  case h_7 | h_8 | h_14 | h_15 =>
    refine faithful_withK fun x hx => faithful_keep rfl fun h => ?_
    simp only [Bool.and_eq_true, beq_iff_eq, Bool.not_eq_true'] at h
    exact fmtA_word hw hm rfl (kfReg_of_kfOf hx).symm h.1 h.2.1 h.2.2 hl
  case h_9 =>
    exact faithful_withK fun x hx => faithful_keep rfl fun h =>
      fmtA_word hw hm rfl (kfReg_of_kfOf hx).symm rfl (eq_false_of_not h) rfl hl
  case h_10 => exact faithful_withK fun k hk => faithful_ok rfl (fmtA_word hw hm (kReg_of_kOf hk).symm rfl rfl rfl rfl hl)
  case h_11 =>
    refine faithful_withK fun k hk => faithful_withK fun x hx => faithful_ite (fun h => faithful_keepWf ?_) faithful_error
    simp only [Bool.and_eq_true, beq_iff_eq, Bool.not_eq_true'] at h
    exact fmtA_word hw hm (kReg_of_kOf hk).symm (kReg_of_kOf hx).symm h.1 h.2.1 h.2.2 hl
  case h_12 =>
    refine faithful_withK fun k hk => faithful_ite (fun h => faithful_keepWf ?_) faithful_error
    simp only [Bool.and_eq_true, beq_iff_eq, Bool.not_eq_true'] at h
    obtain ⟨⟨hb, hta, htb⟩, ha⟩ := h
    exact fmtA_word hw hm (kReg_of_kOf hk).symm ha hb hta htb hl
  case h_13 =>
    refine faithful_withK fun x hx => faithful_ite (fun h => faithful_keepWf ?_) faithful_error
    simp only [Bool.and_eq_true, beq_iff_eq, Bool.not_eq_true'] at h
    obtain ⟨⟨hb, hta, htb⟩, hd⟩ := h
    exact fmtA_word hw hm hd (kReg_of_kOf hx).symm hb hta htb hl
  case h_16 =>
    refine faithful_withK fun k hk => faithful_withK fun x hx => faithful_keep rfl fun h => ?_
    simp only [Bool.and_eq_true, beq_iff_eq, Bool.not_eq_true'] at h
    exact fmtA_word hw hm (kReg_of_kOf hk).symm (kfReg_of_fOf hx).symm h.1 h.2.1 h.2.2 hl
  case h_17 =>
    exact faithful_withK fun x hx => faithful_keep rfl fun h =>
      fmtA_word hw hm rfl (kfReg_of_fOf hx).symm rfl (eq_false_of_not h) rfl hl
  case h_18 =>
    refine faithful_ite (fun ha => faithful_keep rfl fun h => ?_) (faithful_withK fun x hx => faithful_keep rfl fun h => ?_)
    all_goals
      simp only [Bool.and_eq_true, beq_iff_eq, Bool.not_eq_true'] at h
      obtain ⟨⟨hb, hta, htb⟩, hd⟩ := h
    · exact fmtA_word hw hm hd (eq_of_beq ha) hb hta htb hl
    · exact fmtA_word hw hm hd (kfReg_of_fOf hx).symm hb hta htb hl
  case h_19 => exact faithful_error

/-- Major 0x16. -/
theorem perm_faithful (hw : w < 2 ^ 32) (hm : w / 2 ^ 26 % 64 = 0x16) : Faithful w (decPerm w) := by
  unfold decPerm
  dsimp only
  split
  all_goals rename_i hl
  case h_7 => exact faithful_error
  all_goals exact faithful_ok rfl (fmtA_word hw hm rfl rfl rfl rfl rfl hl)

/-- Majors 0x17 and 0x18. -/
theorem red_faithful (hw : w < 2 ^ 32) (scan : Bool) (hm : w / 2 ^ 26 % 64 = if scan then 0x18 else 0x17) :
    Faithful w (decRed scan w) := by
  unfold decRed
  dsimp only
  split
  next => exact faithful_error
  next o ho =>
    have hcode : w % 64 = (fldB w 5).toNat * 32 + (fldB w 4).toNat * 16 + o.code := by
      rw [redOp_code_of_ofCode ho, fldB_toNat, fldB_toNat]; simp only [fldN]; omega
    refine faithful_ite (fun hb => ?_) faithful_error
    cases scan with
    | true => exact faithful_keepWf (fmtA_word hw hm rfl rfl (unused_b hb).1 rfl (unused_b hb).2 hcode)
    | false =>
      cases hx : fldB w 5 with
      | true => exact faithful_error
      | false =>
        rw [hx, Bool.toNat_false, Nat.zero_mul, Nat.zero_add] at hcode
        exact faithful_keepWf (fmtA_word hw hm rfl rfl (unused_b hb).1 rfl (unused_b hb).2 hcode)

/-- Majors 0x20 to 0x22. -/
theorem float_faithful (hw : w < 2 ^ 32) (p : FFmt) (hm : w / 2 ^ 26 % 64 = 0x20 + p.code) : Faithful w (decFloat p w) := by
  unfold decFloat
  dsimp only
  split
  all_goals rename_i hl
  case h_1 | h_2 | h_3 | h_4 | h_5 | h_6 | h_7 | h_8 | h_9 => exact faithful_ok rfl (fmtA_word hw hm rfl rfl rfl rfl rfl hl)
  case h_10 | h_11 | h_12 | h_13 | h_14 =>
    exact faithful_keep rfl fun hb => fmtA_word hw hm rfl rfl (unused_b hb).1 rfl (unused_b hb).2 hl
  case h_15 => exact faithful_keepWf (fmtA_word hw hm rfl rfl rfl rfl rfl hl)
  case h_16 | h_17 | h_18 | h_19 =>
    exact faithful_ite (fun hb => faithful_keepWf (fmtA_word hw hm rfl rfl (unused_b hb).1 rfl (unused_b hb).2 hl)) faithful_error
  case h_20 | h_21 | h_22 | h_23 | h_24 =>
    exact faithful_withK fun k hk => faithful_ok rfl (fmtA_word hw hm (kReg_of_kOf hk).symm rfl rfl rfl rfl hl)
  case h_25 => exact faithful_error

/-- Major 0x23. -/
theorem vfcvt_faithful (hw : w < 2 ^ 32) (hm : w / 2 ^ 26 % 64 = 0x23) : Faithful w (decVfcvt w) := by
  unfold decVfcvt
  dsimp only
  split
  next x y hx hy =>
    have hl : w % 64 = x.code * 8 + y.code := by
      rw [fType_code_of_ofCode hx, fType_code_of_ofCode hy]; simp only [fldN]; omega
    exact faithful_ite (fun hb => faithful_keepWf (fmtA_word hw hm rfl rfl (unused_b hb).1 rfl (unused_b hb).2 hl)) faithful_error
  next => exact faithful_error

/-- Majors 0x2C to 0x33. -/
theorem mem_faithful (hw : w < 2 ^ 32) (hm : w / 2 ^ 26 % 64 = m) (hmem : m ∈ [0x2C, 0x2D, 0x2E, 0x2F, 0x30, 0x31, 0x32, 0x33]) :
    Faithful w (decMem m w) := by
  have hos : w % 64 = (Sz.ofCode (fldN w 4 2)).code * 16 + (Ord.ofCode (fldN w 2 2)).code * 4 + (Scope.ofCode (fldN w 0 2)).code := by
    rw [sz_code_ofCode (fldN_lt w 4 2), ord_code_ofCode (fldN_lt w 2 2), scope_code_ofCode (fldN_lt w 0 2)]
    simp only [fldN]; omega
  have hblock : (!fldB w 4) = true → w % 64 = (fldB w 5).toNat * 32 + (Ord.ofCode (fldN w 2 2)).code * 4 + (Scope.ofCode (fldN w 0 2)).code := by
    intro h
    have h4 := fldB_toNat w 4
    rw [eq_false_of_not h, Bool.toNat_false] at h4
    rw [fldB_toNat, ord_code_ofCode (fldN_lt w 2 2), scope_code_ofCode (fldN_lt w 0 2)]; simp only [fldN]; omega
  unfold decMem
  dsimp only
  split
  case h_1 | h_2 => exact faithful_ok rfl (fmtA_word hw hm rfl rfl rfl rfl rfl hos)
  case h_3 | h_4 | h_6 | h_7 => exact faithful_keepWf (fmtA_word hw hm rfl rfl rfl rfl rfl hos)
  case h_5 =>
    cases hs : fldB w 5 with
    | true => exact faithful_keep rfl fun h => fmtA_word hw hm rfl rfl rfl rfl rfl (by rw [hblock h, hs]; rfl)
    | false => exact faithful_keep rfl fun h => fmtA_word hw hm rfl rfl rfl rfl rfl (by rw [hblock h, hs]; rfl)
  case h_8 =>
    have h33 : m = 0x33 := by simp_all
    cases hs : fldB w 5 with
    | true => exact faithful_keep rfl fun h => fmtA_word hw (hm.trans h33) rfl rfl rfl rfl rfl (by rw [hblock h, hs]; rfl)
    | false => exact faithful_keep rfl fun h => fmtA_word hw (hm.trans h33) rfl rfl rfl rfl rfl (by rw [hblock h, hs]; rfl)

/-- Majors 0x34 to 0x37. -/
theorem sync_faithful (hw : w < 2 ^ 32) (hm : w / 2 ^ 26 % 64 = m) (hmem : m ∈ [0x34, 0x35, 0x36, 0x37]) : Faithful w (decSync m w) := by
  have hwait : ∀ n : Nat, fldN w 4 4 / 4 = n → w % 256 = ctlOs (4 * n + (WCond.ofCode (fldN w 4 2)).code) (Ord.ofCode (fldN w 2 2)) (Scope.ofCode (fldN w 0 2)) := by
    intro n hn
    rw [wCond_code_ofCode (fldN_lt w 4 2)]
    exact ctl_of_ctlOs (by simp only [fldN] at *; omega)
  unfold decSync
  dsimp only
  split
  case h_1 =>
    split
    next p hp => exact faithful_ok rfl (fmtE_word hw hm rfl rfl rfl (ctl_of_ctlOs (atomOp_code_of_ofCode hp).symm))
    next => exact faithful_error
  case h_2 =>
    split
    next p hp => exact faithful_keepWf (fmtE_word hw hm rfl rfl rfl (ctl_of_ctlOs (atomOp_code_of_ofCode hp).symm))
    next => exact faithful_error
  case h_3 =>
    split
    all_goals rename_i hk
    case h_1 | h_2 => exact faithful_ok rfl (fmtE_word hw hm rfl rfl rfl (ctl_of_ctlOs hk))
    case h_3 | h_4 => exact faithful_keepWf (fmtE_word hw hm rfl rfl rfl (ctl_of_ctlOs hk))
    case h_5 | h_6 | h_7 | h_8 => exact faithful_keepWf (fmtE_word hw hm rfl rfl rfl (hwait 1 (by rw [hk])))
    case h_9 | h_10 | h_11 | h_12 => exact faithful_keepWf (fmtE_word hw hm rfl rfl rfl (hwait 2 (by rw [hk])))
    case h_13 => exact faithful_error
  case h_4 =>
    obtain rfl : m = 0x37 := by simp_all
    split
    all_goals rename_i hk
    case h_1 =>
      refine faithful_ite (fun h => faithful_keepWf ?_) faithful_error
      simp only [Bool.and_eq_true, beq_iff_eq] at h
      exact fmtE_word hw hm h.1.1 h.1.2 h.2 (ctl_of_ctlOs hk)
    case h_2 =>
      refine faithful_keep rfl fun h => ?_
      simp only [Bool.and_eq_true, beq_iff_eq] at h
      obtain ⟨⟨⟨hd, ha⟩, hb⟩, ho⟩ := h
      exact fmtE_word hw hm hd ha hb (ho ▸ ctl_of_ctlOs hk)
    case h_3 =>
      refine faithful_keep rfl fun h => ?_
      simp only [Bool.and_eq_true, beq_iff_eq] at h
      exact fmtE_word hw hm h.1 rfl rfl (ctl_of_fields hk h.2)
    case h_4 =>
      refine faithful_keep rfl fun h => ?_
      simp only [Bool.and_eq_true, beq_iff_eq] at h
      exact fmtE_word hw hm rfl h.1 rfl (ctl_of_fields hk h.2)
    case h_5 => exact faithful_keep rfl fun h => fmtE_word hw hm rfl rfl rfl (ctl_of_fields hk (eq_of_beq h))
    case h_6 => exact faithful_error

/-- Majors 0x38 and 0x39. -/
theorem engine_faithful (hw : w < 2 ^ 32) (hm : w / 2 ^ 26 % 64 = m) (hmem : m ∈ [0x38, 0x39]) : Faithful w (decEngine m w) := by
  unfold decEngine
  dsimp only
  split
  case h_1 =>
    have hl : w % 256 = fldN w 6 2 * 2 ^ 6 + (fld6 w 0).val := by simp only [fldN, fld6]; omega
    split
    all_goals rename_i hk
    case h_1 => rw [hk, Nat.zero_mul, Nat.zero_add] at hl; exact faithful_ok rfl (fmtE_word hw hm rfl rfl rfl hl)
    case h_2 => rw [hk] at hl; exact faithful_keepWf (fmtE_word hw hm rfl rfl rfl hl)
    case h_3 => exact faithful_error
  case h_2 =>
    obtain rfl : m = 0x39 := by simp_all
    split
    all_goals rename_i hk
    case h_1 =>
      refine faithful_keep rfl fun h => ?_
      simp only [Bool.and_eq_true, beq_iff_eq] at h
      exact fmtE_word hw hm h.1 rfl rfl (ctl_of_fields hk h.2)
    case h_2 | h_6 =>
      refine faithful_keep rfl fun h => ?_
      simp only [Bool.and_eq_true, beq_iff_eq] at h
      exact fmtE_word hw hm h.1.1 rfl h.1.2 (ctl_of_fields hk h.2)
    case h_3 =>
      refine faithful_keep rfl fun h => fmtE_word hw hm rfl rfl rfl ?_
      have h3 := fldB_toNat w 3
      rw [eq_false_of_not h, Bool.toNat_false] at h3
      rw [fldB_toNat]; simp only [fldN] at hk ⊢; omega
    case h_4 =>
      refine faithful_keep rfl fun h => ?_
      simp only [Bool.and_eq_true, beq_iff_eq] at h
      obtain ⟨⟨⟨hd, ha⟩, hb⟩, hlo⟩ := h
      refine fmtE_word hw hm hd ha hb ?_
      rw [fldB_toNat]; simp only [fldN] at hk hlo; omega
    case h_5 =>
      have h3 := fldB_toNat w 3
      cases hr : fldB w 3 with
      | true =>
        refine faithful_keep rfl fun h => ?_
        simp only [Bool.and_eq_true, beq_iff_eq] at h
        have hlo := h.2
        rw [hr, Bool.toNat_true] at h3
        exact fmtE_word hw hm rfl rfl h.1 (ctl_of_fields (lo4 := 8) hk (by simp only [fldN] at hlo ⊢; omega))
      | false =>
        refine faithful_keep rfl fun h => ?_
        have hlo := eq_of_beq h
        rw [hr, Bool.toNat_false] at h3
        exact fmtE_word hw hm rfl rfl rfl (ctl_of_fields (lo4 := 0) hk (by simp only [fldN] at hlo ⊢; omega))
    case h_7 => exact faithful_error

/-- Majors 0x3A and 0x3B. -/
theorem queue_faithful (hw : w < 2 ^ 32) (hm : w / 2 ^ 26 % 64 = m) (hmem : m ∈ [0x3A, 0x3B]) : Faithful w (decQueue m w) := by
  have hctx : ∀ (op : Nat) (x : Ctx), fldN w 4 4 = op → Ctx.ofCode (fldN w 0 2) = some x → fldN w 2 2 = 0 → w % 256 = op * 16 + x.code := by
    intro op x hop hx hhi
    rw [ctx_code_of_ofCode hx]; simp only [fldN] at *; omega
  unfold decQueue
  dsimp only
  split
  case h_1 =>
    split
    case h_1 | h_2 | h_3 =>
      refine faithful_keep rfl fun h => ?_
      simp only [Bool.and_eq_true, beq_iff_eq] at h
      exact fmtE_word hw hm h.1.1 rfl h.1.2 (ctl_of_fields ‹_› h.2)
    case h_4 =>
      refine faithful_keep rfl fun h => ?_
      simp only [Bool.and_eq_true, beq_iff_eq] at h
      exact fmtE_word hw hm rfl h.1.1 h.1.2 (hctx _ _ ‹_› ‹_› h.2)
    case h_5 | h_6 =>
      refine faithful_keep rfl fun h => ?_
      simp only [Bool.and_eq_true, beq_iff_eq] at h
      exact fmtE_word hw hm rfl rfl h.1 (hctx _ _ ‹_› ‹_› h.2)
    case h_7 => exact faithful_keep rfl fun h => fmtE_word hw hm rfl rfl rfl (hctx _ _ ‹_› ‹_› (eq_of_beq h))
    case h_8 => exact faithful_error
  case h_2 =>
    obtain rfl : m = 0x3B := by simp_all
    split
    all_goals rename_i hk
    case h_1 => exact faithful_ite (fun h => faithful_keepWf (fmtE_word hw hm rfl rfl rfl (ctl_of_fields hk (eq_of_beq h)))) faithful_error
    case h_2 =>
      refine faithful_ite (fun h => faithful_keepWf ?_) faithful_error
      simp only [Bool.and_eq_true, beq_iff_eq] at h
      exact fmtE_word hw hm rfl rfl h.1 (ctl_of_fields hk h.2)
    case h_3 =>
      refine faithful_keep rfl fun h => ?_
      simp only [Bool.and_eq_true, beq_iff_eq] at h
      exact fmtE_word hw hm rfl rfl h.1 (ctl_of_fields hk h.2)
    case h_4 => exact faithful_keep rfl fun h => fmtE_word hw hm rfl rfl rfl (ctl_of_fields hk (eq_of_beq h))
    case h_5 => exact faithful_error

/-- Major 0x3C. -/
theorem system_faithful (hw : w < 2 ^ 32) (hm : w / 2 ^ 26 % 64 = 0x3C) : Faithful w (decSystem w) := by
  unfold decSystem
  dsimp only
  split
  all_goals rename_i hk
  case h_1 =>
    refine faithful_keep rfl fun h => congrArg some ?_
    have hd : (fld6 w 20).val = 0 := congrArg Fin.val (eq_of_beq h)
    rw [BitVec.toNat_ofNat]; simp only [fld6] at hd; omega
  case h_2 | h_5 | h_8 =>
    refine faithful_keep rfl fun h => ?_
    simp only [Bool.and_eq_true, beq_iff_eq] at h
    exact fmtE_word hw hm h.1.1 h.1.2 h.2 hk
  case h_3 | h_6 =>
    refine faithful_keep rfl fun h => ?_
    simp only [Bool.and_eq_true, beq_iff_eq] at h
    exact fmtE_word hw hm rfl h.1 h.2 hk
  case h_4 =>
    refine faithful_keep rfl fun h => ?_
    simp only [Bool.and_eq_true, beq_iff_eq] at h
    exact fmtE_word hw hm h.1 rfl h.2 hk
  case h_7 => exact faithful_keep rfl fun h => fmtE_word hw hm rfl rfl (eq_of_beq h) hk
  case h_9 => exact faithful_ite (fun h => faithful_keepWf (fmtE_word hw hm rfl rfl (eq_of_beq h) hk)) faithful_error
  case h_10 | h_11 => exact faithful_keep rfl fun h => fmtE_word hw hm (eq_of_beq h) rfl rfl hk
  case h_12 | h_13 => exact faithful_ok rfl (fmtE_word hw hm rfl rfl rfl hk)
  case h_14 => exact faithful_error

/-- Major 0x3D. -/
theorem control_faithful (hw : w < 2 ^ 32) (hm : w / 2 ^ 26 % 64 = 0x3D) : Faithful w (decControl w) := by
  unfold decControl
  dsimp only
  split
  all_goals rename_i hk
  case h_1 | h_2 | h_3 | h_4 | h_5 | h_6 | h_12 | h_13 => exact faithful_ok rfl (fmtC_word hw hm hk rfl rfl)
  case h_7 | h_8 | h_9 | h_10 =>
    exact faithful_withK fun k h => faithful_ok rfl (fmtC_word hw hm hk (congrArg Fin.val (kReg_of_kOf h)).symm rfl)
  case h_11 => exact faithful_keep rfl fun h => fmtC_word hw hm hk (congrArg Fin.val (eq_of_beq h)) rfl
  case h_14 | h_15 =>
    refine faithful_keep rfl fun h => ?_
    simp only [Bool.and_eq_true, beq_iff_eq] at h
    exact fmtC_word hw hm hk (congrArg Fin.val h.1) h.2
  case h_16 => exact faithful_error

/-- Major 0x3E. -/
theorem hint_faithful (hw : w < 2 ^ 32) (hm : w / 2 ^ 26 % 64 = 0x3E) : Faithful w (decHint w) := by
  unfold decHint
  split
  all_goals rename_i hk
  case h_1 | h_2 => exact faithful_ok rfl (fmtH_word hw hm hk (BitVec.toNat_ofNat w 23).symm)
  case h_3 =>
    refine faithful_keep rfl fun h => fmtH_word hw hm hk ?_
    simp only [BitVec.toNat_ofNat, fldB_toNat, fldN, beq_iff_eq] at h ⊢; omega
  case h_4 =>
    refine faithful_keep rfl fun h => fmtH_word hw hm hk ?_
    simp only [BitVec.toNat_ofNat, fldN, beq_iff_eq] at h ⊢; omega
  case h_5 => exact faithful_error

/-- Major 0x3F. -/
theorem extension_faithful (hw : w < 2 ^ 32) (hm : w / 2 ^ 26 % 64 = 0x3F) :
    Faithful w (.ok (.extensionWord (BitVec.ofNat 8 (w / 2 ^ 18)) (BitVec.ofNat 18 w))) :=
  faithful_ok rfl (congrArg some (by rw [BitVec.toNat_ofNat, BitVec.toNat_ofNat]; omega))

/-- A word that decodes is the word of the well-formed instruction it decodes to. -/
theorem decode_faithful (hw : w < 2 ^ 32) : Faithful w (decode w) := by
  unfold decode
  split
  all_goals rename_i hm
  case h_1 => exact fun i => scalar_back hw hm
  case h_2 | h_3 | h_4 | h_5 | h_6 | h_7 | h_8 | h_9 | h_10 | h_13 => exact imm_faithful hw hm (by decide)
  case h_11 => exact vecInt_faithful hw false hm
  case h_12 => exact vecInt_faithful hw true hm
  case h_14 => exact vcvt_faithful hw hm
  case h_15 => exact bcast_faithful hw hm
  case h_16 => exact mask_faithful hw hm
  case h_17 => exact perm_faithful hw hm
  case h_18 => exact red_faithful hw false hm
  case h_19 => exact red_faithful hw true hm
  case h_20 => exact float_faithful hw .f32 hm
  case h_21 => exact float_faithful hw .f16 hm
  case h_22 => exact float_faithful hw .bf16 hm
  case h_23 => exact vfcvt_faithful hw hm
  case h_24 | h_25 | h_26 | h_27 | h_28 | h_29 | h_30 | h_31 => exact mem_faithful hw hm (by decide)
  case h_32 | h_33 | h_34 | h_35 => exact sync_faithful hw hm (by decide)
  case h_36 | h_37 => exact engine_faithful hw hm (by decide)
  case h_38 | h_39 => exact queue_faithful hw hm (by decide)
  case h_40 => exact system_faithful hw hm
  case h_41 => exact control_faithful hw hm
  case h_42 => exact hint_faithful hw hm
  case h_43 => exact extension_faithful hw hm
  case h_44 => exact faithful_error

end

/-- A well-formed instruction's word lies below 2^32 and decodes to it: the lemma of each constructor, in their order. -/
theorem encodes (i : Instr) : Encodes.Statement i :=
  open Encodes in Instr.casesOn i
    sadd ssub smul smulhI64 smulhN64 sdivI64 sdivN64 sremI64 sremN64 sand sor sxor sandn sshl sshr ssra sminI64 sminN64 smaxI64 smaxN64
    sclz sctz spopc smov ssel sbfxI64 sbfxN64 sbfi scmp saddi sandi sori sxori sshli sshri ssrai smovi smovSpecial vadd vsub vmul vmulhI
    vmulhN vmad vand vor vxor vandn vshl vshr vsra vminI vminN vmaxI vmaxN vabs vclz vpopc vmov vsel vcmp vaddi vcvt vbcastB32 vlane
    vpackB16 vpackB8 vunpackB16 vunpackB8 vbcastB64 kmov kand kor kxor kandn knot kpopc kffs kwrd kwwr kif kelse kjoin kvoteAny kvoteAll
    kflag flrd flclr vperm vshflUp vshflDn vshflXor vext vins vred vscan vfadd vfsub vfmul vffma vfmin vfmax vfsgn vfsgnNeg vfsgnXor
    vfclass vfround vfrcp vfrsqrt vfsqrt vfdiv vfexp2 vflog2 vfsinp vfcosp vfcmp vfcvt sld sst vld vst vldb vstb xld xst xldb xstb satom
    vatom scas scas2 vcas waitc64 waitc32 fence fenceSc barArr barWait barSync cpy cpy2d mcfg midx mloop mzero mmovRegister mmovScratchpad
    mburst cred cbcast cgath efence ewait tlrd tlwait tqenq tqdeq tqdec launch trap eret ctlrd ctlwr sigchk sigrd capq yield fltinfo
    replay replayDiscard pmap pkload brScalar brMask jmp call jr exit nop hintImm hintOff hintMod hintSched extensionWord requestNop
    requestLaunch requestWait requestWrite recordRead dealPass launchComplete signalRetry launchPacket launchResend partitionResetComplete
    quantumBoundary unitReload watchdogExpiry coreCycle forcedLeave trapEntry registerFill rakeChunkCopy mapFlip oldBankRelease
    workgroupSave rd rdrsp wr atom ack nack ember draw wback drawack monfill queueOperation ptsTick ageSweep monitorRecheck wake
    mappingOpComplete instructionFetch pauseExpiry pauseRefresh failoverTimeout dedupExpiry chunk chunkack copyChunk matrixStep damperStep
    biasFlipDone notifyPush notifyStatusRead qifConfigWrite qifReset irqMapWrite lvalVerdict partEnable partReset functionLevelReset
    partSaveWrite partCsaveWrite partQosWrite wdogResume wdogKill bankCrossing bankAsh homeOvfClear fcmdReplay fcmdDiscard ptUnmap ptSplit
    ptMove ptReattribute hotBaseWrite dataFlit nakFlit pauseFlit retrainComplete portRetrain flueLinkFailure throttleStep thermalHalt
    powerRemoval moduleReset attestationReport measExtend biasToHost biasToDevice hostMemoryAccess atsInvalidation pcieCompletion
    timeWrite emuEret emuKill emuRegWrite registerWrite backInvalidationResponse cxlCacheResponse

/-- Settles O25: one direction constructor by constructor, the other major by major. -/
theorem decodeIsExact : Obligations.DecodeIsExact :=
  ⟨fun i w hi he => encodes i hi w he, fun i _ hw hd => decode_faithful hw i hd⟩

end Sys2Proof.Proofs
end

section
/-! SUPPORT. A module in recovery mode (R29): no step of it but a reset changes anything beside the counters of time and choice, the
steps that are caused, and the reports it has sent. -/

namespace Sys2Proof.Proofs
open Sys2Proof.Machine Sys2Proof.Safety Sys2Proof.Laws

/-! ## What a step of a module in recovery may change -/

/-- `u` is `s` but for time, free values, watchdog counts, arbiters, reports, and caused steps, which are those of `s` or quiet. -/
structure Holds (s u : State) : Prop where
  rest : { u with agenda := s.agenda, launches := s.launches, ck := s.ck, time := s.time, free := s.free, arb := s.arb
                  reports := s.reports } = s
  agenda : ∀ i ∈ u.agenda, i ∈ s.agenda ∨ quiet i = true

theorem Holds.refl (s : State) : Holds s s := ⟨rfl, fun _ h => .inl h⟩
theorem Holds.trans {s t u : State} (h : Holds s t) (k : Holds t u) : Holds s u where
  rest := by
    obtain ⟨h, -⟩ := h; obtain ⟨k, -⟩ := k
    rw [← h, ← k]
  agenda i hi := (k.agenda i hi).elim (h.agenda i) .inr
/-- A module that holds still stays dormant. -/
theorem Holds.dormant {s u : State} (h : Holds s u) (hs : dormant s) : dormant u := by
  obtain ⟨hc, hi, ha⟩ := hs
  exact ⟨(congrArg State.cond h.rest).trans hc, (congrArg State.issue h.rest).trans hi, fun i hu => (h.agenda i hu).elim (ha i) id⟩

theorem holds_causeOnce {i : Instr} (hi : quiet i = true) (s : State) : Holds s (causeOnce i s) := by
  unfold causeOnce
  split
  · exact .refl s
  · exact ⟨rfl, fun j hj => (List.mem_append.mp hj).imp_right fun h => by rw [List.mem_singleton.mp h]; exact hi⟩
theorem holds_modLaunch (l : Nat) (f : Launch → Launch) (s : State) : Holds s (modLaunch l f s) := ⟨rfl, fun _ h => .inl h⟩
/-- A fold of steps that each hold the module still. -/
theorem holds_forEach {α : Type} {f : α → State → State} (hf : ∀ x s, Holds s (f x s)) (l : List α) (s : State) :
    Holds s (forEach l f s) := by
  induction l generalizing s with
  | nil => exact .refl s
  | cons x l ih => exact (hf x s).trans (ih (f x s))
theorem holds_ite {c : Prop} [Decidable c] {s t u : State} (ht : Holds s t) (hu : Holds s u) : Holds s (if c then t else u) := by
  split
  · exact ht
  · exact hu
/-- Causing one quiet step for each of a list. -/
theorem holds_causeEach {α : Type} {g : α → Instr} (hg : ∀ x, quiet (g x) = true) (l : List α) (s : State) :
    Holds s (forEach l (fun x s => causeOnce (g x) s) s) := holds_forEach (fun x s => holds_causeOnce (hg x) s) l s

/-! ## One ck -/

theorem holds_wdogTick (s : State) : Holds s (wdogTick s) := by
  refine holds_forEach (fun l s => ?_) _ s
  split
  · exact .refl s
  · exact holds_ite (.refl s) (holds_ite ((holds_modLaunch _ _ s).trans (holds_causeOnce rfl _)) (holds_modLaunch _ _ s))
theorem holds_coreTimers (s : State) : Holds s (coreTimers s) :=
  (holds_ite (holds_causeEach (fun _ => rfl) _ s) (.refl s)).trans <|
  (holds_ite (holds_causeEach (fun _ => rfl) _ _) (.refl _)).trans <|
  (holds_causeEach (fun _ => rfl) _ _).trans <| (holds_causeEach (fun _ => rfl) _ _).trans (holds_causeEach (fun _ => rfl) _ _)
theorem holds_schedTimers (s : State) : Holds s (schedTimers s) :=
  (holds_causeEach (fun _ => rfl) _ s).trans <| (holds_ite (holds_causeEach (fun _ => rfl) _ _) (.refl _)).trans <|
  (holds_causeEach (fun _ => rfl) _ _).trans (holds_causeEach (fun _ => rfl) _ _)
theorem holds_portTimers (s : State) : Holds s (portTimers s) := by
  unfold portTimers
  generalize List.range 8 = ports, List.range 4 = classes
  refine (holds_forEach (fun p s => ?_) ports s).trans (holds_ite (holds_causeOnce rfl _) (.refl _))
  refine (holds_forEach (fun c s => ?_) classes s).trans (holds_ite (holds_causeOnce rfl _) (.refl _))
  exact (holds_ite (holds_causeOnce rfl s) (.refl s)).trans (holds_ite (holds_causeOnce rfl _) (.refl _))
theorem holds_tick (s : State) : Holds s (tick s) :=
  have h : Holds s { s with ck := s.ck + 1, time := s.time + w64 (nsOf (s.ck + 1) - nsOf s.ck) } := ⟨rfl, fun _ h => .inl h⟩
  h.trans <| (holds_wdogTick _).trans <| (holds_coreTimers _).trans <| (holds_schedTimers _).trans (holds_portTimers _)

/-! ## One caused step -/

/-- R29: in recovery mode an event leaves the module as it is. -/
theorem event_recovery {f : State → State} {s : State} (h : s.cond = .recovery) : event f s = .next s := by rw [event, h]

/-- R29: what a quiet step does in recovery mode: it answers an attestation request, or nothing. -/
theorem exec_quiet {i : Instr} {s : State} (hs : s.cond = .recovery) (hi : quiet i = true) :
    exec i s = .next s ∨ ∃ nonce, exec i s = .next { s with reports := s.reports ++ [attestation nonce s] } := by
  cases i
  case requestNop | requestLaunch | requestWait | requestWrite | recordRead | dealPass | launchComplete | signalRetry | launchPacket
    | launchResend | partitionResetComplete | quantumBoundary | unitReload | watchdogExpiry | coreCycle | forcedLeave | trapEntry
    | registerFill | rakeChunkCopy | mapFlip | oldBankRelease | workgroupSave | rd | rdrsp | wr | atom | ack | nack | ember | draw
    | wback | drawack | monfill | queueOperation | ptsTick | ageSweep | monitorRecheck | wake | mappingOpComplete | instructionFetch
    | pauseExpiry | pauseRefresh | failoverTimeout | dedupExpiry | chunk | chunkack | copyChunk | matrixStep | damperStep | biasFlipDone
    | notifyPush | notifyStatusRead | qifConfigWrite | qifReset | irqMapWrite | lvalVerdict | partEnable | partReset
    | functionLevelReset | partSaveWrite | partCsaveWrite | partQosWrite | wdogResume | wdogKill | bankCrossing | bankAsh | homeOvfClear
    | fcmdReplay | fcmdDiscard | ptUnmap | ptSplit | ptMove | ptReattribute | hotBaseWrite | dataFlit | nakFlit | pauseFlit
    | retrainComplete | portRetrain | flueLinkFailure | throttleStep | thermalHalt | powerRemoval | measExtend | biasToHost
    | biasToDevice | hostMemoryAccess | atsInvalidation | pcieCompletion | timeWrite | emuEret | emuKill | emuRegWrite | registerWrite
    | backInvalidationResponse | cxlCacheResponse =>
    unfold exec; exact .inl (event_recovery hs)
  case attestationReport nonce => exact .inr ⟨nonce, rfl⟩
  all_goals cases hi

/-- An event that may come next is one of those caused, and what remains are others of them. -/
theorem enabledFrom_mem {s : State} {i : Instr} {rest : List Instr} (l : List Instr) :
    ∀ (seen : List Channel) (before : List Instr), (i, rest) ∈ enabledFrom s seen before l →
      i ∈ l ∧ ∀ j ∈ rest, j ∈ before ++ l := by
  induction l with
  | nil => intro _ _ h; cases h
  | cons a l ih =>
    intro seen before h
    have htail : (i, rest) ∈ enabledFrom s (channelsOf s a ++ seen) (before ++ [a]) l → i ∈ a :: l ∧ ∀ j ∈ rest, j ∈ before ++ a :: l := by
      intro h
      obtain ⟨h1, h2⟩ := ih _ _ h
      exact ⟨.tail a h1, fun j hj => by simpa using h2 j hj⟩
    rw [enabledFrom] at h
    split at h
    · exact htail h
    · rcases List.mem_cons.mp h with h | h
      · cases h
        exact ⟨.head l, fun j hj => (List.mem_append.mp hj).elim (fun h => List.mem_append_left _ h) fun h => List.mem_append_right _ (.tail _ h)⟩
      · exact htail h

section
variable {s : State} (hc : s.cond ≠ .unpowered) (hi : s.issue = [])
include hc hi

/-- A step with no team picked and nothing that may come next is one ck. -/
theorem step_idle_nil (he : enabledFrom s [] [] s.agenda = []) : step s = .next (tick s) := by
  cases h : s.cond with
  | unpowered => exact absurd h hc
  | running | fatal | recovery => simp only [step, h, hi, he]
/-- A step with no team picked whose choice falls on no event is one ck. -/
theorem step_idle_none (hne : enabledFrom s [] [] s.agenda ≠ [])
    (hx : (enabledFrom s [] [] s.agenda)[Config.pick s.free % ((enabledFrom s [] [] s.agenda).length + 1)]? = none) :
    step s = .next (tick { s with free := s.free + 1 }) := by
  obtain ⟨e, es, he⟩ := List.exists_cons_of_ne_nil hne
  rw [he, List.length_cons] at hx
  cases h : s.cond with
  | unpowered => exact absurd h hc
  | running | fatal | recovery => simp only [step, h, hi, he, choose, hx]
/-- A step with no team picked whose choice falls on an event is the one that the event's arbiter serves. -/
theorem step_idle_some {x : Instr × List Instr}
    (hx : (enabledFrom s [] [] s.agenda)[Config.pick s.free % ((enabledFrom s [] [] s.agenda).length + 1)]? = some x) :
    step s = exec (arbitrate (enabledFrom s [] [] s.agenda) x { s with free := s.free + 1 }).1.1
      { (arbitrate (enabledFrom s [] [] s.agenda) x { s with free := s.free + 1 }).2 with
        agenda := (arbitrate (enabledFrom s [] [] s.agenda) x { s with free := s.free + 1 }).1.2 } := by
  obtain ⟨e, es, he⟩ := List.exists_cons_of_ne_nil (List.ne_nil_of_mem (List.mem_of_getElem? hx))
  rw [he] at hx ⊢
  rw [List.length_cons] at hx
  cases h : s.cond with
  | unpowered => exact absurd h hc
  | running | fatal | recovery => simp only [step, h, hi, he, choose, hx]

end

/-- A step with no team picked is one ck, after a choice or not, or one of the events that may come next. -/
theorem step_idle {s : State} (hc : s.cond ≠ .unpowered) (hi : s.issue = []) :
    step s = .next (tick s) ∨ step s = .next (tick { s with free := s.free + 1 })
    ∨ ∃ i rest arb, (i, rest) ∈ enabledFrom s [] [] s.agenda
        ∧ step s = exec i { s with free := s.free + 1, agenda := rest, arb := arb } := by
  by_cases hne : enabledFrom s [] [] s.agenda = []
  · exact .inl (step_idle_nil hc hi hne)
  cases hx : (enabledFrom s [] [] s.agenda)[Config.pick s.free % ((enabledFrom s [] [] s.agenda).length + 1)]? with
  | none => exact .inr (.inl (step_idle_none hc hi hne hx))
  | some x =>
    obtain ⟨arb, harb⟩ := arbitrate_snd (enabledFrom s [] [] s.agenda) x { s with free := s.free + 1 }
    have hmem := arbitrate_fst_mem (s := { s with free := s.free + 1 }) (List.mem_of_getElem? hx)
    have hstep := step_idle_some hc hi hx
    rw [harb] at hstep
    exact .inr (.inr ⟨_, _, arb, hmem, hstep⟩)

/-- Every step of a dormant module holds it still. -/
theorem step_holds {s s' : State} (hs : dormant s) (h : step s = .next s') : Holds s s' := by
  obtain ⟨hc, hi, ha⟩ := hs
  have hp : s.cond ≠ .unpowered := by rw [hc]; decide
  have hfree : Holds s { s with free := s.free + 1 } := ⟨rfl, fun _ h => .inl h⟩
  rcases step_idle hp hi with hx | hx | ⟨i, rest, arb, hmem, hx⟩ <;> rw [hx] at h
  · exact Host.Outcome.next.inj h ▸ holds_tick s
  · exact Host.Outcome.next.inj h ▸ hfree.trans (holds_tick _)
  · obtain ⟨hi, hrest⟩ := enabledFrom_mem _ _ _ hmem
    have htaken : Holds s { s with free := s.free + 1, agenda := rest, arb := arb } := ⟨rfl, fun j hj => .inl (hrest j hj)⟩
    rcases exec_quiet (s := { s with free := s.free + 1, agenda := rest, arb := arb }) hc (ha i hi) with he | ⟨nonce, he⟩
    · exact Host.Outcome.next.inj (he.symm.trans h) ▸ htaken
    · exact Host.Outcome.next.inj (he.symm.trans h) ▸ htaken.trans ⟨rfl, fun _ h => .inl h⟩

/-- Settles O34: each step holds the module still, so that it stays dormant and the fields named are as they were. -/
theorem recoveryHolds : Obligations.RecoveryHolds := by
  intro s s' hs h
  have k := step_holds hs h
  have f {α : Type} (g : State → α) := congrArg g k.rest
  exact ⟨k.dormant hs, f State.mem, f State.ctl, f State.pkt, f State.cur, f State.teams, f State.lines, f State.cores, f State.fw, f State.meas,
    f State.hostOut, f State.msixSent, f State.cxlMem, f State.ports⟩

end Sys2Proof.Proofs
end

section
/-! SUPPORT. The results of immediate and special scalar forms (R289, R290), of vector integer and floating-point instructions (R311,
R312, R317 to R324), of control flow (R292 to R296) and of hints (R269 to R273). -/

namespace Sys2Proof.Proofs
open Sys2Proof.Machine Sys2Proof.Safety Sys2Proof.Laws

/-! ## Majors 0x02 to 0x0A -/

/-- R290: a special value that is ready issues with its value in sD. -/
theorem special_issues {d : Reg} {x : Special} {s : State} {v : W64} (hv : specialValue x s = v) :
    ready (.smovSpecial d x) s = true → exec (.smovSpecial d x) s = issued (.smovSpecial d x) s (withScalar d v s) := by
  subst hv; exact fun h => word_done h rfl

/-- R76: the dimensions of a workgroup, with the wide bit. -/
theorem wgdim_eq (T : Nat) (wide : Bool) : w64 (T + nb wide * 128) = w64 (T + if wide then 128 else 0) := by cases wide <;> rfl

/-- Settles O2: every immediate form is a scalar operation, and the special values are those of R76. -/
theorem scalarImmediateResults : Obligations.ScalarImmediateResults := by
  intro s d a ta i c
  refine ⟨?saddi, ?sandi, ?sori, ?sxori, ?sshli, ?sshri, ?ssrai, ?smovi, ?team, ?wg, ?wgdim, ?grid, ?stage, ?core, ?die, ?width, ?time⟩
  case saddi | sandi | sori | sxori | sshli | sshri | ssrai | smovi => exact scalar_issues rfl rfl
  case team | wg | grid | stage | core | die | width | time => exact special_issues rfl
  case wgdim => exact special_issues (wgdim_eq _ _)

/-! ## Majors 0x10 and 0x11 -/

/-- R311: the magnitude of an element. -/
theorem abs_eq {n : Nat} (x : BitVec n) : (if x.msb then -x else x) = if x.toInt < 0 then -x else x := by
  rw [BitVec.msb_eq_toInt]; simp only [decide_eq_true_eq]

/-- Settles O3: every form is a vector operation at both widths, so what is left is its lane function. -/
theorem vectorIntegerResults : Obligations.VectorIntegerResults := by
  intro s d a b ta tb
  refine ⟨?vadd, ?vsub, ?vmul, ?vmulhI, ?vmulhN, ?vmad, ?vand, ?vor, ?vxor, ?vandn, ?vshl, ?vshr, ?vsra, ?vminI, ?vminN, ?vmaxI, ?vmaxN,
    ?vabs, ?vclz, ?vpopc, ?vmov, ?vsel⟩
  case vadd | vsub | vmul | vmulhI | vmulhN | vmad | vand | vor | vxor | vandn | vshl | vshr | vsra | vmov | vsel =>
    exact ⟨vecOp_issues rfl fun _ => rfl, vecOp64_issues rfl fun _ => rfl⟩
  case vminI => exact ⟨vecOp_issues rfl fun _ => pick_slt_le _ _, vecOp64_issues rfl fun _ => pick_slt_le _ _⟩
  case vminN => exact ⟨vecOp_issues rfl fun _ => pick_ult_le _ _, vecOp64_issues rfl fun _ => pick_ult_le _ _⟩
  case vmaxI => exact ⟨vecOp_issues rfl fun _ => pick_slt_ge _ _, vecOp64_issues rfl fun _ => pick_slt_ge _ _⟩
  case vmaxN => exact ⟨vecOp_issues rfl fun _ => pick_ult_ge _ _, vecOp64_issues rfl fun _ => pick_ult_ge _ _⟩
  case vabs => exact ⟨vecOp_issues rfl fun _ => abs_eq _, vecOp64_issues rfl fun _ => abs_eq _⟩
  case vclz => exact ⟨vecOp_issues rfl fun _ => congrArg w32 (leadZeros_bv _), vecOp64_issues rfl fun _ => congrArg w64 (leadZeros_bv _)⟩
  case vpopc => exact ⟨vecOp_issues rfl fun _ => congrArg w32 (popCount_bv _), vecOp64_issues rfl fun _ => congrArg w64 (popCount_bv _)⟩

/-! ## Comparisons -/

/-- R312: what a comparison writes: every word of kD when some lane is active, nothing otherwise. -/
theorem putCmp_eq {s : State} {d : KReg} {f g : Nat → Bool} (h : ∀ l < s.cur.width, s.cur.act l = true → f l = g l) :
    s.cur.putCmp d f = if someActive s then s.cur.sk d (maskOf s.cur.width fun l => s.cur.act l && g l) else s.cur := by
  have hm : maskOf s.cur.width (fun l => s.cur.act l && f l) = maskOf s.cur.width fun l => s.cur.act l && g l :=
    maskOf_congr fun l hl => by
      cases ha : s.cur.act l with
      | false => rfl
      | true => rw [h l hl ha]
  by_cases h0 : s.cur.gk 0 = 0
  · rw [Team.putCmp, if_pos h0, someActive_of_eq h0]; rfl
  · rw [Team.putCmp, if_neg h0, someActive_of_ne h0, hm]; rfl
/-- A comparison leaves the flag sets and the width. -/
theorem putCmp_flags_width (t : Team) (d : KReg) (f : Nat → Bool) : (t.putCmp d f).flags = t.flags ∧ (t.putCmp d f).width = t.width := by
  unfold Team.putCmp; split <;> exact ⟨rfl, rfl⟩

/-- R312: a comparison of integers that is ready. -/
theorem vcmp_issues {c : Cmp} {w : Bool} {d : KReg} {a b : Reg} {ta tb : Bool} {s : State} {f : Nat → Bool}
    (hf : ∀ l, (if w then cmpHolds c (s.cur.lane64 a l) (s.cur.lane64 b l) else cmpHolds c (s.cur.lane a l) (s.cur.lane b l)) = f l)
    (h : ready (.vcmp c w d a b ta tb) s = true) :
    exec (.vcmp c w d a b ta tb) s = issued (.vcmp c w d a b ta tb) s
      (if someActive s then { s with cur := s.cur.sk d (maskOf s.cur.width fun l => s.cur.act l && f l) } else s) := by
  refine (word_done h rfl).trans (congrArg (issued _ s) ?_)
  rw [modCur, putCmp_eq fun l _ _ => hf l]
  split <;> rfl

/-- R226, R323: a comparison raises invalid alone. -/
theorem raised_cmp (t : Team) (f : Fmt) (c : FCmp) (x y : Nat → Nat) :
    raised t (fun l => (f.cmp c (x l) (y l)).2)
      = { t.flags with nv := t.flags.nv ||| maskOf t.width fun l => t.act l && (f.cmp c (x l) (y l)).2.nv } := by
  have hq : ∀ q : FX → Bool, (∀ b, q { nv := b } = false) → maskOf t.width (fun l => t.act l && q (f.cmp c (x l) (y l)).2) = 0 := by
    intro q hq
    refine (maskOf_congr fun l _ => ?_).trans (maskOf_false t.width)
    rw [cmp_flags, hq, Bool.and_false]
  simp only [raised, hq FX.dz fun _ => rfl, hq FX.of fun _ => rfl, hq FX.uf fun _ => rfl, hq FX.nx fun _ => rfl, BitVec.ofNat_eq_ofNat, BitVec.or_zero]

/-- The comparisons of the active lanes, in lane order. -/
def cmpRun (t : Team) (r : Nat → Bool × FX) : List (Option (Bool × FX)) := (List.range t.width).map fun l => if t.act l then some (r l) else none
/-- Whether the comparison of a lane holds; one that is not active does not. -/
def cmpTrue : Option (Bool × FX) → Bool
  | some x => x.1
  | none => false

/-- R226, R323: what the comparisons of the active lanes leave in kD and in the flag sets. -/
theorem putCmp_raise (s : State) (d : KReg) (r : Nat → Bool × FX) :
    (s.cur.putCmp d fun l => cmpTrue ((cmpRun s.cur r).getD l none)).raise ((cmpRun s.cur r).map fun x => x.map (·.2))
      = { (if someActive s then s.cur.sk d (maskOf s.cur.width fun l => s.cur.act l && (r l).1) else s.cur) with
          flags := raised s.cur fun l => (r l).2 } := by
  obtain ⟨hflags, hwidth⟩ := putCmp_flags_width s.cur d fun l => cmpTrue ((cmpRun s.cur r).getD l none)
  have hlane : ∀ l < s.cur.width, s.cur.act l = true → cmpTrue ((cmpRun s.cur r).getD l none) = (r l).1 := by
    intro l hl ha
    rw [cmpRun, getD_map_range _ _ _ _ rfl, if_pos hl, if_pos ha]; rfl
  have hflag : (cmpRun s.cur r).map (fun x => x.map (·.2)) = (List.range s.cur.width).map fun l => if s.cur.act l then some (r l).2 else none := by
    simp only [cmpRun, List.map_map, Function.comp_def, map_ite_some]
  rw [hflag, raise_lanes s.cur _ _ hflags hwidth, putCmp_eq hlane]

/-- R323: a comparison of floating-point elements that is ready. -/
theorem vfcmp_issues {c : FCmp} {p : FFmt} {d : KReg} {a b : Reg} {ta tb : Bool} {s : State} (h : ready (.vfcmp c p d a b ta tb) s = true) :
    let r (l : Nat) := (fmtOf p).cmp c (s.cur.elem p a l) (s.cur.elem p b l)
    exec (.vfcmp c p d a b ta tb) s = issued (.vfcmp c p d a b ta tb) s
      { s with cur := { (if someActive s then s.cur.sk d (maskOf s.cur.width fun l => s.cur.act l && (r l).1) else s.cur) with
        flags := { s.cur.flags with nv := s.cur.flags.nv ||| maskOf s.cur.width fun l => s.cur.act l && (r l).2.nv } } } := by
  intro r
  have hput := putCmp_raise s d r
  rw [raised_cmp] at hput
  exact (word_done h rfl).trans (congrArg (fun u => issued (.vfcmp c p d a b ta tb) s { s with cur := u }) hput)

/-- Settles O5: both comparisons by what they write to the mask register. -/
theorem vectorCompareResults : Obligations.VectorCompareResults := by
  refine ⟨fun s c w d a b ta tb => vcmp_issues fun l => ?_, fun s c p d a b ta tb => vfcmp_issues⟩
  cases w
  · exact cmpHolds_eq c _ _
  · exact cmpHolds_eq c _ _

/-- Settles O6: every form is a floating-point operation with its function of the elements read. -/
theorem vectorFloatResults : Obligations.VectorFloatResults := by
  intro s p dst src d a b ta tb
  refine ⟨?vfadd, ?vfsub, ?vfmul, ?vffma, ?vfmin, ?vfmax, ?vfsgn, ?vfsgnNeg, ?vfsgnXor, ?vfclass, ?vfround, ?vfrcp, ?vfrsqrt, ?vfsqrt,
    ?vfdiv, ?vfexp2, ?vflog2, ?vfsinp, ?vfcosp, ?vfcvt⟩
  all_goals exact fpOp_issues rfl fun _ => rfl

/-! ## Control flow -/

/-- R293: what the scalar conditions test. -/
theorem brHolds_iff (c : BrCond) (x : W64) : brHolds c x = true ↔ match c with
    | .z => x.toInt = 0 | .nz => x.toInt ≠ 0 | .lt => x.toInt < 0 | .ge => 0 ≤ x.toInt | .gt => 0 < x.toInt | .le => x.toInt ≤ 0 := by
  have hz : x.toInt = 0 ↔ x = 0 := BitVec.toInt_inj (y := 0)
  cases c <;> simp [brHolds, BitVec.slt, hz]
/-- R293: what the mask conditions test. -/
theorem brMaskHolds_iff (c : BrMask) (m : Mask) (w : Nat) : brMaskHolds c m w = true ↔ match c with
    | .kany => m ≠ 0 | .knone => m = 0 | .kall => m &&& fullMask w = fullMask w | .knall => m &&& fullMask w ≠ fullMask w := by
  cases c <;> simp [brMaskHolds]

section
variable {s : State}

/-- A branch on a scalar that is ready, by its condition. -/
theorem brScalar_issues {c : BrCond} {a : Reg} {i : BitVec 16} (h : ready (.brScalar c a i) s = true) :
    (brHolds c (s.cur.gs a) = true → exec (.brScalar c a i) s
        = issuedTo (.brScalar c a i) (s.cur.pc + 4 * i.signExtend 64) s { s with cur := { s.cur with ilines := [], ahead := [] } })
    ∧ (¬brHolds c (s.cur.gs a) = true → exec (.brScalar c a i) s = issued (.brScalar c a i) s s) :=
  ⟨fun hc => word_jump h (if_pos hc), fun hc => word_done h (if_neg hc)⟩
/-- A branch on a mask that is ready, by its condition. -/
theorem brMask_issues {m : BrMask} {k : KReg} {i : BitVec 16} (h : ready (.brMask m k i) s = true) :
    (brMaskHolds m (s.cur.gk k) s.cur.width = true → exec (.brMask m k i) s
        = issuedTo (.brMask m k i) (s.cur.pc + 4 * i.signExtend 64) s { s with cur := { s.cur with ilines := [], ahead := [] } })
    ∧ (¬brMaskHolds m (s.cur.gk k) s.cur.width = true → exec (.brMask m k i) s = issued (.brMask m k i) s s) :=
  ⟨fun hc => word_jump h (if_pos hc), fun hc => word_done h (if_neg hc)⟩
/-- R294: `jr` that is ready goes to its target, or traps where that is misaligned. -/
theorem jr_issues {a : Reg} {i : BitVec 16} (h : ready (.jr a i) s = true) :
    let target := s.cur.gs a + 4 * i.signExtend 64
    (target.toNat % 4 = 0 → exec (.jr a i) s = issuedTo (.jr a i) target s { s with cur := { s.cur with ilines := [], ahead := [] } })
    ∧ (target.toNat % 4 ≠ 0 → exec (.jr a i) s = .next (trapAt (.jr a i) 0x05 (fullMask s.cur.width) 0 s)) :=
  ⟨fun hc => word_jump h (if_pos ((fld_low _ 2).trans hc)), fun hc => word_trap h (if_neg fun h0 => hc ((fld_low _ 2).symm.trans h0))⟩

/-- A team that drains stays in its workgroup. -/
theorem drain_wg (t : Team) (ck : Nat) : (t.drain ck).wg = t.wg := by
  simp only [Team.drain, Team.recordWake]
  split <;> rfl

/-- R118, R295: `exit` that is ready withdraws, leaves its handler, drains, and retires when it may. -/
theorem exit_issues (h : ready .exit s = true) (ha : awake s = true) :
    let u := withdraw s.cur.id s
    let left : Team := { u.cur with exited := true, handler := false, tr := {}, reexec := none }
    exec .exit s = .next (tryRetire s.cur.id
      (retire s.cur .exit false (s.cur.pc + 4) (barRecheck s.cur.wg { u with cur := left.drain s.ck }))) := by
  intro u left
  unfold exec
  refine (event_awake ha).trans ?_
  rw [issueWord_eq, gate_ready h]
  simp only [modCur, drain_wg]
  rfl

end

/-- Settles O9: each form by its own rule; the conditions are those of R293. -/
theorem controlFlowResults : Obligations.ControlFlowResults := by
  refine ⟨fun s c m a k i => ⟨?br, ?brMask, ?jmp, ?call, jr_issues, ?nop⟩, fun s => exit_issues⟩
  case br =>
    intro h
    have hc := brHolds_iff c (s.cur.gs a)
    exact ⟨fun ht => (brScalar_issues h).1 (hc.mpr ht), fun ht => (brScalar_issues h).2 (mt hc.mp ht)⟩
  case brMask =>
    intro h
    have hc := brMaskHolds_iff m (s.cur.gk k) s.cur.width
    exact ⟨fun ht => (brMask_issues h).1 (hc.mpr ht), fun ht => (brMask_issues h).2 (mt hc.mp ht)⟩
  case jmp | call => exact fun h => word_jump h rfl
  case nop => exact fun h => word_done h rfl

/-! ## Hints -/

/-- R269: the first hint of a group takes the snap of sig. -/
theorem hintStart_eq (t : Team) : hintStart t
    = if t.hint.nimm = 0 ∧ t.hint.offv = false ∧ t.hint.modv = false ∧ t.hint.schedv = false ∧ t.hint.bad = false then { snap := t.sig }
      else t.hint := by simp only [hintStart, Bool.not_eq_true']

/-- Settles O10: a hint changes the latch that `hintStart` gives, each kind in its own way. -/
theorem hintResults : Obligations.HintResults := by
  intro s p bx rm sat ftz n
  have hlatch : ∀ (i : Instr) (f : Hint → Hint), exec i s = hintWord i f s →
      exec i s = issued i s { s with cur := { s.cur with hint := f (hintStart s.cur) } } := fun i f h => h
  rw [hintStart_eq] at hlatch
  exact ⟨hlatch _ (hintImmLatch · p) rfl, hlatch _ (hintOffLatch · p) rfl, hlatch _ (hintModLatch · bx sat ftz rm) rfl,
    hlatch _ (hintSchedLatch · n) rfl⟩

end Sys2Proof.Proofs
end

section
/-! SUPPORT. The accesses of memory instructions (R330 to R347), scratchpad accesses (R341, R342), fences and barriers (R349 to R353). -/

namespace Sys2Proof.Proofs
open Sys2Proof Sys2Proof.Machine Sys2Proof.Safety Sys2Proof.Laws

/-! ## Locations -/

/-- The data of a lane, by the element's size. -/
theorem laneData_eq (t : Team) (d : Reg) (z : Sz) (l : Nat) :
    t.laneData d z l = if z = .b64 then (t.lane64 d l).toNat else (t.lane d l).toNat := by cases z <;> rfl
/-- The destination of a vector load, by the element's size. -/
theorem vecDest_eq (d : Reg) (z : Sz) : vecDest d z = if d = 0 then .none else if z = .b64 then .vPair d else .v d := by cases z <;> rfl
/-- Settles O11: each form is an access to its locations. -/
theorem globalAccesses : Obligations.GlobalAccesses := by
  intro s d a b ta tb z o sc
  refine ⟨?sld, ?sst, ?vld, ?vst, ?vldb, ?vstb⟩
  case sld | sst => exact issueAccess_accesses (F := fun s => scalarAcc s.cur d a b z) rfl
  case vld =>
    have h := issueAccess_accesses (F := fun s => vecAccs s.cur d a b z) (s := s) (i := .vld d a b ta tb z o sc) rfl
    simp only [vecAccs, laneData_eq, vecDest_eq] at h
    exact h
  case vst =>
    have h := issueAccess_accesses (F := fun s => vecAccs s.cur d a b z) (s := s) (i := .vst d a b ta tb z o sc) rfl
    simp only [vecAccs, laneData_eq] at h
    exact h
  case vldb | vstb => exact issueAccess_accesses (F := fun s => blockAccs s.cur d a b) rfl

/-- R345: a scalar compare-and-swap that is ready is an access to its location, 8 bytes or 4. -/
theorem scas_accesses (s : State) (w : Bool) (d a b : Reg) (o : Ord) (sc : Scope) {n : Nat} (hn : (if w then 8 else 4) = n) :
    let accs : List Acc := [{ lane := 0, ptr := s.cur.gs a + offOf s.cur, size := n, data := (s.cur.gs d).toNat, data2 := (s.cur.gs b).toNat }]
    accesses (.scas w d a b o sc) false 3 accs s (sendAccess (.scas w d a b o sc) false .atomic .cas (.s d) o sc accs s) := by
  subst hn
  exact issueAccess_accesses (i := .scas w d a b o sc) (F := fun s =>
    [{ lane := 0, ptr := s.cur.gs a + offOf s.cur, size := if w then 8 else 4, data := (s.cur.gs d).toNat, data2 := (s.cur.gs b).toNat }]) rfl
/-- R347: the location of a monitor of `n` bytes and its comparison value `x`. -/
theorem waitc_accesses {i : Instr} {s : State} {c : WCond} {n x : Nat} {d a b : Reg} {o : Ord} {sc : Scope}
    (he : exec i s = word i (waitcBody i c n d a b o sc) s) (hx : (s.cur.gs b).toNat % 2 ^ (8 * n) = x) :
    let accs : List Acc := [{ lane := 0, ptr := s.cur.gs a + offOf s.cur, size := n, data := x }]
    accesses i false 1 accs s (sendAccess i false .waitc (.monitor c) (.s d) o sc accs s) := by
  subst hx
  exact issueAccess_accesses (F := fun s =>
    [{ lane := 0, ptr := s.cur.gs a + offOf s.cur, size := n, data := (s.cur.gs b).toNat % 2 ^ (8 * n) }]) he

/-- Settles O12: each form is an access to its locations with its operands. -/
theorem atomicAccesses : Obligations.AtomicAccesses := by
  intro s p c d a b o sc
  refine ⟨?satom, ?vatom, ?scas64, ?scas32, ?scas2, ?vcas, ?waitc64, ?waitc32⟩
  case satom =>
    exact issueAccess_accesses (i := .satom p d a b o sc)
      (F := fun s => [{ lane := 0, ptr := s.cur.gs a + offOf s.cur, size := atomBytes true p, data := (s.cur.gs b).toNat }]) rfl
  case vatom =>
    exact issueAccess_accesses (i := .vatom p d a b o sc) (F := fun s => s.cur.active.map fun l =>
      { lane := l, ptr := s.cur.pairPtr a l, size := atomBytes false p, data := (s.cur.lane b l).toNat }) rfl
  case scas64 | scas32 => exact scas_accesses s _ d a b o sc rfl
  case scas2 =>
    have h := issueAccess_accesses (s := s) (i := .scas2 d a b o sc) (F := fun s =>
      [{ lane := 0, ptr := s.cur.gs a + offOf s.cur, size := 16, data := s.cur.pairVal d, data2 := s.cur.pairVal b }]) rfl
    simp only [Team.pairVal] at h
    exact h
  case vcas =>
    exact issueAccess_accesses (i := .vcas d a b o sc) (F := fun s => s.cur.active.map fun l =>
      { lane := l, ptr := s.cur.pairPtr a l, size := 4, data := (s.cur.lane d l).toNat, data2 := (s.cur.lane b l).toNat }) rfl
  case waitc64 => exact waitc_accesses rfl (Nat.mod_eq_of_lt (s.cur.gs b).isLt)
  case waitc32 => exact waitc_accesses rfl rfl

/-! ## Scratchpad -/

/-- R334: an access that waits at the core, or nothing where no lane is active. -/
theorem spHold_eq (o : Ord) (store pair : Bool) (d : Reg) (L : List Nat) (f : Nat → Acc) (s : State) :
    spHold o store d pair (L.map f) s = if L = [] then s
      else { s with nextId := s.nextId + 1
                    cur := { s.cur with spq := s.cur.spq ++ [{ id := s.nextId, store := store, ord := o, dst := d, pair := pair
                                                               inh := s.cur.handler, accs := L.map f }] } } := by
  cases L <;> rfl
/-- R341: what a store leaves in the share, lane by lane. -/
theorem spStore_eq (L : List Nat) (f : Nat → Acc) (w : Workgroup) (s : State) :
    spStore (L.map f) w s = modWg w.id (fun w => L.foldl (fun w l => w.spPut (f l).ptr.toNat (bytesOfNat (f l).size (f l).data)) w) s := by
  simp only [spStore, List.foldl_map]

/-- What a scratchpad access can do, by the state in which it waits and what it does to the share. -/
theorem spAccess_does {i : Instr} {o : Ord} {store p : Bool} {d : Reg} {F : State → List Acc} {G : State → Workgroup → State → State} {s : State}
    (n : Nat) (he : exec i s = word i (fun s => spAccess o store d p (F s) (G s) s) s)
    (f : Nat → Acc) (hF : F s = s.cur.active.map f) (hl : ∀ l, (f l).lane = l) (hs : ∀ l, (f l).size = n)
    {waiting : State} {u : State → State} (hw : spHold o store d p (F s) s = waiting)
    (hu : ∀ x, (store = false → x = s) → G s ((wgOf s.cur.wg s).getD {}) x = u x) (h : ready i s = true) :
    let w := (wgOf s.cur.wg s).getD {}
    let mis := s.cur.active.filter fun l => decide ((f l).ptr.toNat % n ≠ 0)
    let out := s.cur.active.filter fun l => decide (w.share < (f l).ptr.toNat + n)
    let releases : Prop := w.wide = true ∧ store = true ∧ (o = .rel ∨ o = .ar)
    let acquires : Prop := w.wide = true ∧ store = false ∧ (o = .acq ∨ o = .ar)
    (mis ≠ [] → exec i s = .next (trapAt i 0x05 (maskOfLanes mis) 0 s))
    ∧ (mis = [] → out ≠ [] → exec i s = .next (trapAt i 0x09 (maskOfLanes out) (w64 (2 ^ 63)) s))
    ∧ (mis = [] → out = [] → spWaits o store s = true → exec i s = issued i s waiting)
    ∧ (mis = [] → out = [] → spWaits o store s = false → ¬releases → ¬acquires → exec i s = issued i s (u s))
    ∧ (mis = [] → out = [] → spWaits o store s = false → acquires → exec i s = issued i s (bumpVersion true s.cur.core (u s)))
    ∧ (mis = [] → out = [] → spWaits o store s = false → releases →
        ((spRelease w s).1 = true → exec i s = issued i s (u (spRelease w s).2))
        ∧ ((spRelease w s).1 = false → exec i s = .next (spRelease w s).2)) := by
  intro w mis out releases acquires
  obtain ⟨hmis, hout, hheld, hplain, hacq, hrel⟩ := spAccess_tests (fun l => (f l).ptr.toNat) n he f s.cur.active hF hl (fun _ => rfl) hs h
  rw [hw] at hheld
  rw [hu s fun _ => rfl] at hplain hacq
  refine ⟨hmis, hout, hheld, hplain, hacq, fun h1 h2 h3 hr => ⟨fun h4 => ?_, (hrel h1 h2 h3 hr).2⟩⟩
  rw [(hrel h1 h2 h3 hr).1 h4, hu _ fun h5 => by rw [hr.2.1] at h5; cases h5]

/-- The accesses of `vld` and `vst`, lane by lane. -/
theorem vecAccs_eq (t : Team) (d a b : Reg) (z : Sz) : vecAccs t d a b z = t.active.map fun l =>
    { lane := l, ptr := t.lanePtr a b l, size := szBytes z, data := if z = .b64 then (t.lane64 d l).toNat else (t.lane d l).toNat } := by
  simp only [vecAccs, laneData_eq]
/-- Whether an element takes a pair. -/
theorem b64_eq (z : Sz) : (z == .b64) = decide (z = .b64) := by cases z <;> rfl

/-- The state `x` with the values that a load brings to the active lanes of team `t`. -/
def spBrought (t : Team) (d : Reg) (pair : Bool) (v : Nat → W64) (x : State) : State :=
  if t.active = [] then x
  else if pair then { x with cur := t.sv64 d fun l => if t.act l then some (v l) else none }
  else { x with cur := t.sv d fun l => if t.act l then some ((v l).setWidth 32) else none }
/-- R341: what a load of clean bytes brings. -/
theorem spLoad_eq (s : State) (w : Workgroup) (d : Reg) (pair : Bool) (f : Nat → Acc) (hf : ∀ l, (f l).lane = l)
    (hc : ∀ l ∈ s.cur.active, ∀ i, i < (f l).size → w.spoison.contains ((f l).ptr.toNat + i) = false) :
    spLoad d pair (s.cur.active.map f) w s
      = spBrought s.cur d pair (fun l => w64 (natOfBytes (w.spBytes (f l).ptr.toNat (f l).size))) s :=
  spLoad_clean s w d pair f hf hc

/-- Settles O13: the tests of a scratchpad access, with what each form stores or brings. -/
theorem scratchpadAccesses : Obligations.ScratchpadAccesses := by
  intro s d a b ta tb z o sc
  let w := (wgOf s.cur.wg s).getD {}
  refine ⟨?xst, ?xstb, fun hc => ?xld, fun hc => ?xldb⟩
  case xst =>
    exact spAccess_does (F := fun s => vecAccs s.cur d a b z) (szBytes z) rfl _ (vecAccs_eq _ _ _ _ _) (fun _ => rfl) (fun _ => rfl)
      (by rw [vecAccs_eq, spHold_eq, b64_eq]; rfl) (fun x _ => by rw [vecAccs_eq, spStore_eq]; rfl)
  case xstb =>
    exact spAccess_does (F := fun s => blockAccs s.cur d a b) 4 rfl _ rfl (fun _ => rfl) (fun _ => rfl)
      (spHold_eq _ _ _ _ _ _ _) (fun x _ => spStore_eq _ _ _ x)
  case xld =>
    refine spAccess_does (F := fun s => vecAccs s.cur d a b z) (szBytes z) rfl _ (vecAccs_eq _ _ _ _ _) (fun _ => rfl) (fun _ => rfl)
      (u := spBrought s.cur d (decide (z = .b64)) fun l => w64 (natOfBytes (w.spBytes (s.cur.lanePtr a b l).toNat (szBytes z))))
      (by rw [vecAccs_eq, spHold_eq, b64_eq]; rfl) (fun x hx => ?_)
    rw [hx rfl, vecAccs_eq, b64_eq]
    exact spLoad_eq s w d _ _ (fun _ => rfl) hc
  case xldb =>
    refine spAccess_does (F := fun s => blockAccs s.cur d a b) 4 rfl _ rfl (fun _ => rfl) (fun _ => rfl)
      (u := spBrought s.cur d false fun l => w64 (natOfBytes (w.spBytes (s.cur.scalarPtr a b + w64 (4 * l)).toNat 4)))
      (spHold_eq _ _ _ _ _ _ _) (fun x hx => ?_)
    rw [hx rfl]
    exact spLoad_eq s w d _ _ (fun _ => rfl) hc

/-! ## Fences and barriers -/

section
variable {s : State}

/-- R349: a fence that is ready enters the team's order; while it is still there the team waits for it on the shelf. -/
theorem fence_issues {i : Instr} {seqc : Bool} {o : Ord} {sc : Scope} (he : exec i s = word i (fenceBody seqc o sc) s) (h : ready i s = true) :
    let e := issueEntry (.fence seqc) o sc s
    exec i s = issued i s (if entLives e.1 e.2 then
      { e.2 with cur := { e.2.cur.toShelf (.fence e.1) with owed := if e.2.cur.handler then e.2.cur.owed else some (.fence e.1) } } else e.2) := by
  rw [he]; exact word_done h rfl

/-- The team in focus may arrive at barrier `b`: it has exited, or its earlier phase there is complete (R295, R352). -/
def mayArrive (b : Nat) (s : State) : Prop :=
  s.cur.exited = true ∨ (pendingArrival b s = none ∧ latestArrival b s ≠ some (teamBar b s).phase)
/-- The state in which its arrival is on its way; a team that has exited makes none. -/
def arrivedAt (n : W64) (b : Nat) (s : State) : State :=
  if s.cur.exited then s
  else (issueEntry (.barArr b (barCountArg n (((wgOf s.cur.wg s).map (·.T)).getD 1))) .rel .wg s).2

/-- R352: what an arrival does for a team that may arrive. -/
theorem arriveBody_free {n : W64} {b : Nat} {k : State → Eff} (h : mayArrive b s) : arriveBody n b s k = k (arrivedAt n b s) := by
  unfold arriveBody arrivedAt
  by_cases hx : s.cur.exited = true
  · rw [if_pos hx, if_pos hx]
  · obtain ⟨hp, hl⟩ := h.resolve_left hx
    rw [if_neg hx, if_neg hx, hp]
    exact if_neg hl

/-- R352: an arrival that is ready and free. -/
theorem barArr_issues {a : Reg} {b : Fin 64} (h : ready (.barArr a b) s = true) (hf : mayArrive b.val s) :
    exec (.barArr a b) s = issued (.barArr a b) s (arrivedAt (s.cur.gs a) b.val s) := word_done h (arriveBody_free hf)
/-- R352: a wait that is ready and ends. -/
theorem barWait_issues {d : Reg} {b : Fin 64} (h : ready (.barWait d b) s = true) (hw : waitEnds b.val s) :
    exec (.barWait d b) s = issued (.barWait d b) s (waitResult b.val d s) := word_done h (waitBody_ends hw)
/-- R352: a `bar.sync` whose arrival is still to be made, and whose wait ends. -/
theorem barSync_issues {d a : Reg} {b : Fin 64} (h : ready (.barSync d a b) s = true) (hs : s.cur.syncAt ≠ some (s.cur.pc, b.val))
    (hf : mayArrive b.val s) :
    let arrived := arrivedAt (s.cur.gs a) b.val s
    let marked : State := { arrived with cur := { arrived.cur with syncAt := some (arrived.cur.pc, b.val) } }
    waitEnds b.val marked → exec (.barSync d a b) s = issued (.barSync d a b) s (waitResult b.val d marked) := by
  intro arrived marked hw
  refine word_done h ?_
  rw [if_neg hs, arriveBody_free hf]
  exact waitBody_ends hw
/-- R352: a `bar.sync` whose arrival has been made, and whose wait ends. -/
theorem barSync_issues_again {d a : Reg} {b : Fin 64} (h : ready (.barSync d a b) s = true) (hs : s.cur.syncAt = some (s.cur.pc, b.val))
    (hw : waitEnds b.val s) : exec (.barSync d a b) s = issued (.barSync d a b) s (waitResult b.val d s) :=
  word_done h ((if_pos hs).trans (waitBody_ends hw))

/-- R353: the end of a wait of the team in focus: its result word, the abandon mark and its arrival gone. -/
theorem finishBarWait_cur (b : Nat) (d : Reg) (phase count : Nat) :
    finishBarWait s.cur.id b false d phase count s = withScalar d (barResult s.cur.abandon phase count)
      { s with cur := { s.cur with abandon := false, syncAt := none, arrived := s.cur.arrived.filter fun x => x.1 != b } } := by
  have hteam : teamOf s.cur.id s = some s.cur := if_pos rfl
  rw [finishBarWait, hteam]
  exact if_pos rfl

end

/-- Settles O14: fences, arrivals and waits by their own rules. -/
theorem fencesAndBarriers : Obligations.FencesAndBarriers := by
  refine ⟨fun s d a b o sc => ⟨fence_issues rfl, fence_issues rfl, ?arr, barWait_issues, ?sync, barSync_issues_again⟩,
    fun s d b phase count => finishBarWait_cur b d phase count⟩
  case arr => exact fun h hf => barArr_issues h hf
  case sync => exact fun h hs hf => barSync_issues h hs hf

end Sys2Proof.Proofs
end

section
/-! SUPPORT. Work at slices and cores on lines leaves the team in focus as it is (R174, R201 to R206). -/

namespace Sys2Proof.Proofs
open Sys2Proof Sys2Proof.Machine Sys2Proof.Safety Sys2Proof.Laws

/-- A fold of steps that each leave the team in focus. -/
theorem forEach_cur {α : Type} {f : α → State → State} (hf : ∀ x s, (f x s).cur = s.cur) (l : List α) (s : State) :
    (forEach l f s).cur = s.cur := by
  induction l generalizing s with
  | nil => rfl
  | cons x l ih => exact (ih (f x s)).trans (hf x s)
/-- The same for a fold that carries a line with the state. -/
theorem foldl_cur {α β : Type} {f : β × State → α → β × State} (hf : ∀ x a, (f x a).2.cur = x.2.cur) (l : List α) (x : β × State) :
    (l.foldl f x).2.cur = x.2.cur := by
  induction l generalizing x with
  | nil => rfl
  | cons a l ih => exact (ih (f x a)).trans (hf x a)
/-- Both branches leave the team in focus. -/
theorem ite_cur {β : Type} {c : Prop} [Decidable c] {x y : β × State} {t : Team} (hx : x.2.cur = t) (hy : y.2.cur = t) :
    (if c then x else y).2.cur = t := by split <;> assumption
@[simp] theorem causeOnce_cur (i : Instr) (s : State) : (causeOnce i s).cur = s.cur := by unfold causeOnce; split <;> rfl

/-! ## Interrupts -/

@[simp] theorem sendMsix_cur (pf v : Nat) (s : State) : (sendMsix pf v s).cur = s.cur := by unfold sendMsix; dsimp only; split <;> rfl
@[simp] theorem raiseEvent_cur (q e : Nat) (s : State) : (raiseEvent q e s).cur = s.cur := by
  unfold raiseEvent
  dsimp only
  split
  · rfl
  · split
    · rfl
    · exact sendMsix_cur _ _ s

/-! ## One write at a line -/

@[simp] theorem store_cur (ln : SLine) (q : Nat) (bs : List Byte) (m : Nat) (s : State) : (ln.store q bs m s).2.cur = s.cur := by
  unfold SLine.store
  split
  · rfl
  · split <;> rfl
  · rfl
theorem fillEnt_cur (id : Nat) (vals : List (Nat × Nat)) (p : Bool) (s : State) : (fillEnt id vals p s).cur = s.cur := by
  unfold fillEnt; split <;> rfl
@[simp] theorem fireMonitors_cur (ln : SLine) (bs : List Byte) (m : Nat) (s : State) : (fireMonitors ln bs m s).cur = s.cur := rfl
theorem closeQueue_cur (ln : SLine) (bs : List Byte) (m : Nat) (s : State) : (closeQueue ln bs m s).2.cur = s.cur := by
  unfold closeQueue
  split
  · extract_lets mine u v w
    have hw : w.cur = s.cur := by
      refine (forEach_cur (fun q u => ?_) mine v).trans (forEach_cur (fun q u => ?_) _ u)
      · exact fillEnt_cur q.op.id endRecord false u
      · exact causeOnce_cur _ u
    split
    · exact hw
    · exact (store_cur ln ln.part _ _ w).trans hw
  · rfl
theorem putLine_cur (q : Nat) (ln : SLine) (items : List Item) (s : State) : (putLine q ln items s).2.cur = s.cur :=
  (closeQueue_cur _ _ _ _).trans (store_cur ln q _ _ s)

/-! ## Privatised lines -/

theorem mergeOwner_cur (n : Nat) (ln : SLine) (s : State) : (mergeOwner n ln s).2.cur = s.cur := by
  unfold mergeOwner
  extract_lets sent
  have hs : ∀ x : SLine × State, (sent.foldl (fun x r =>
      putLine r.part { x.1 with launches := (x.1.launches ++ r.launches).eraseDups } r.items x.2) x).2.cur = x.2.cur :=
    foldl_cur (fun x r => putLine_cur _ _ _ _) sent
  dsimp only
  split
  · exact hs _
  · exact (putLine_cur _ _ _ _).trans (hs _)
theorem mergePrivate_cur (ms : List (Nat × Nat × Nat)) (ln : SLine) (s : State) : (mergePrivate ms ln s).2.cur = s.cur := by
  unfold mergePrivate
  exact foldl_cur (f := fun x n => mergeOwner n x.1 x.2) (fun x n => mergeOwner_cur n x.1 x.2) _ _
theorem privatise_cur (r : Req) (ln : SLine) (s : State) : (privatise r ln s).2.cur = s.cur := by
  unfold privatise
  dsimp only
  split
  · apply ite_cur rfl
    apply ite_cur <;> rfl
  · apply ite_cur
    · exact mergePrivate_cur _ _ _
    · rfl
  · rfl

/-! ## Write-backs -/

theorem applyWriteBack_cur (r : Req) (s : State) : (applyWriteBack r s).2.cur = s.cur := by
  unfold applyWriteBack
  split
  · rfl
  · split
    · refine forEach_cur (fun l u => ?_) _ s
      rfl
    · exact (putLine_cur _ _ _ _).trans (privatise_cur r _ s)
theorem drainWhere_cur (p : Req → Bool) (s : State) : (drainWhere p s).cur = s.cur := by
  refine forEach_cur (fun r u => ?_) _ _
  exact applyWriteBack_cur r u
theorem flushNow_cur (n : Nat) (ds : List DLine) (s : State) : (flushNow n ds s).cur = s.cur := by
  refine forEach_cur (fun d u => ?_) ds s
  have hd : (drainLine n d.va d.key u).cur = u.cur := drainWhere_cur _ u
  dsimp only
  split
  · exact (applyWriteBack_cur _ _).trans hd
  · exact hd
/-- R174: what goes to the slices leaves the team in focus. -/
theorem publish_cur (t : Team) (s : State) : (publish t s).2.cur = s.cur := (flushNow_cur _ _ _).trans (drainWhere_cur _ s)

end Sys2Proof.Proofs
end

section
/-! SUPPORT. Instructions of the engines, of timelines and of task queues (R357 to R378). -/

namespace Sys2Proof.Proofs
open Sys2Proof Sys2Proof.Machine Sys2Proof.Safety Sys2Proof.Laws

/-! ## Words and destinations -/

/-- The bits of a word from `lo` up to its last. -/
theorem fld_top (x : W64) {lo n : Nat} (h : lo + n = 64) : fld x lo n = x.toNat / 2 ^ lo := by
  refine Nat.mod_eq_of_lt (Nat.div_lt_of_lt_mul ?_)
  rw [← Nat.pow_add, h]
  exact x.isLt
/-- A scalar destination; s0 takes nothing. -/
theorem destOf_scalar (d : Reg) : destOf (.s d) = if d = 0 then .none else .s d := by
  by_cases hd : d = 0
  · subst hd; rfl
  · rw [if_neg hd]
    unfold destOf
    split
    · next h => exact absurd (Dest.s.inj h) hd
    · next h => cases h
    · rfl
/-- A field of one bit. -/
theorem fld_bit (x : W64) (n : Nat) : fld x n 1 = (x.getLsbD n).toNat := (Nat.toNat_testBit x.toNat n).symm
/-- R117: a scalar destination becomes empty; s0 stays. -/
theorem markEmpty_scalar (t : Team) (d : Reg) :
    t.markEmpty (destOf (.s d)) = if d = 0 then t else t.setS d { t.sreg d with full := false, poison := false } := by
  by_cases hd : d = 0
  · subst hd; rfl
  · rw [if_neg hd]
    rw [destOf_scalar, if_neg hd]; rfl

section
variable {s : State}

/-! ## Copies -/

/-- R139: a base pointer's key gives the right needed. -/
theorem baseOk_iff (q : Nat) (need : BitVec 3) (p : W64) (s : State) : baseOk q need p s = true ↔ pktOf q (keyOf p) s &&& need = need :=
  beq_iff_eq
/-- R139: every global pointer of a copy has its right. -/
def copyAllowed (dst src : W64) (dsp ssp : Nat) (s : State) : Prop :=
  (dsp = 0 → pktOf s.cur.part (keyOf dst) s &&& 2 = 2) ∧ (ssp = 0 → pktOf s.cur.part (keyOf src) s &&& 1 = 1)
/-- The test of a copy's pointers. -/
theorem copyAllowed_iff (dst src : W64) (dsp ssp : Nat) : copyAllowed dst src dsp ssp s
    ↔ ¬((dsp == 0 && !baseOk s.cur.part 2 dst s) || (ssp == 0 && !baseOk s.cur.part 1 src s)) = true := by
  simp only [copyAllowed, ← baseOk_iff, Bool.or_eq_true, Bool.and_eq_true, beq_iff_eq, Bool.not_eq_true']
  cases baseOk s.cur.part 2 dst s <;> cases baseOk s.cur.part 1 src s <;> simp

/-- R363: the state in which a copy is queued. -/
def copyQueued (tok : Reg) (op : EOp) (s : State) : State :=
  causeOnce (.copyChunk s.cur.id) (issueOp 0 op { s with
    cur := if tok = 0 then s.cur else s.cur.setS tok { s.cur.sreg tok with full := false, poison := false } })
/-- R357, R363: a copy with its rights and room on the C context is queued. -/
theorem copyBody_queues {dst src : W64} {rows rowb dstr sstr dsp ssp : Nat} {tok : Reg} {bad : Bool}
    (ha : copyAllowed dst src dsp ssp s) (hr : s.cur.c.inFlight < 16) :
    copyBody dst src rows rowb dstr sstr dsp ssp tok bad s
      = .done (copyQueued tok (.copy dst src rows rowb dstr sstr dsp ssp tok bad) s) := by
  unfold copyBody copyQueued
  rw [← markEmpty_scalar]
  exact (if_neg ((copyAllowed_iff _ _ _ _).1 ha)).trans (if_neg (Nat.not_le.2 hr))
/-- R139: a copy without a right traps. -/
theorem copyBody_traps {dst src : W64} {rows rowb dstr sstr dsp ssp : Nat} {tok : Reg} {bad : Bool} (ha : ¬copyAllowed dst src dsp ssp s) :
    copyBody dst src rows rowb dstr sstr dsp ssp tok bad s = .trap 0x09 (fullMask s.cur.width) (w64 (2 ^ 63)) := by
  refine if_pos ?_
  rw [copyAllowed_iff, not_not] at ha
  exact ha

/-- Settles O15: each form reads its fields and is a copy. -/
theorem copyIssue : Obligations.CopyIssue := by
  intro s d a b l
  refine ⟨?cpy, ?cpy2d⟩
  case cpy =>
    refine fun h => ⟨fun ha hr => word_done h ?_, fun ha => word_trap h (copyBody_traps ha)⟩
    refine (copyBody_queues ha hr).trans ?_
    rw [fld_low, fld_top (lo := 36) _ rfl]; rfl
  case cpy2d =>
    refine fun h => ⟨fun ha hr => word_done h ?_, fun ha => word_trap h (copyBody_traps ha)⟩
    refine (copyBody_queues ha hr).trans ?_
    rw [fld_low, fld_low, fld_top (lo := 32) _ rfl, fld_top (lo := 52) _ rfl]; rfl

/-! ## The matrix engine -/

/-- R357: an M operation with room on its context is queued. -/
theorem matrixIssue_queues {op : EOp} (h : s.cur.m.inFlight < 8) :
    matrixIssue op s = .done (causeOnce (.matrixStep s.cur.core) (issueOp 1 op s)) := if_neg (Nat.not_le.2 h)
/-- R366: the lanes of a run of registers, as one list. -/
theorem regLanes_flatten (t : Team) (r n : Nat) : (t.regLanes r n).flatten
    = (List.range n).flatMap fun i => (List.range t.width).map fun l => t.lane ⟨(r + i) % 64, Nat.mod_lt _ (by decide)⟩ l :=
  List.flatMap_def.symm

/-- R368: a loop whose B needs no right, or has it, is queued like any M operation. -/
theorem mloop_queues {d a b : Reg} {adv : Bool} {sel : Fin 4} (h : ready (.mloop d a b adv sel) s = true) (hr : s.cur.m.inFlight < 8)
    (hk : loopGlobal s.cur = false ∨ pktOf s.cur.part (keyOf (s.cur.gs b)) s &&& 1 = 1) :
    let scale := scaleRegs s.cur (s.cur.gs d) adv (s.cur.msel sel)
    exec (.mloop d a b adv sel) s = issued (.mloop d a b adv sel) s (causeOnce (.matrixStep s.cur.core) (issueOp 1
      (.mloop (s.cur.gs d) (s.cur.gs a) (s.cur.gs b) adv (s.cur.msel sel) scale.1 scale.2) s)) := by
  refine word_done h ((if_neg ?_).trans (matrixIssue_queues hr))
  rcases hk with hg | hb
  · rw [hg]; exact Bool.false_ne_true
  · rw [(baseOk_iff _ _ _ _).2 hb, Bool.not_true, Bool.and_false]; exact Bool.false_ne_true
/-- R139, R368: a loop whose B is in global memory traps without the right to read it. -/
theorem mloop_traps {d a b : Reg} {adv : Bool} {sel : Fin 4} (h : ready (.mloop d a b adv sel) s = true) (hg : loopGlobal s.cur = true)
    (hk : ¬pktOf s.cur.part (keyOf (s.cur.gs b)) s &&& 1 = 1) :
    exec (.mloop d a b adv sel) s = .next (trapAt (.mloop d a b adv sel) 0x09 (fullMask s.cur.width) (w64 (2 ^ 63)) s) := by
  refine word_trap h (if_pos ?_)
  rw [hg, Bool.true_and, Bool.not_eq_true', ← Bool.not_eq_true, baseOk_iff]
  exact hk

/-- R370: what the register form of `mmov` does, once the M context is empty. -/
def moveResult (d : Reg) (m : Move) (rows : Nat) (el : Nat → Nat → Nat) (t : Team) : Team :=
  (List.range m.cnt).foldl (fun t i => t.sv ⟨(d.val + i) % 64, Nat.mod_lt _ (by decide)⟩ fun l =>
    if l < rows then some (laneElem m.cvt (el l i)) else none) t

/-- R370: the tests of the register form of `mmov` in their order, and its result for a clean tile. -/
theorem mmovRegister_tests {d a : Reg} (h : ready (.mmovRegister d a) s = true) (he : s.cur.m.inFlight = 0) :
    let t := s.cur
    let i := Instr.mmovRegister d a
    let m := moveOf (t.gs a)
    let w := (wgOf t.wg s).getD {}
    let rows := min t.width (128 - m.row0)
    let traps (c : Nat) : Prop := exec i s = .next (trapAt i 0x0C (fullMask t.width) (w64 (1 + c * 2 ^ 8 + 2 ^ 16)) s)
    (moveOk (t.gs a) = false → traps 0x01)
    ∧ (moveOk (t.gs a) = true → w.atiles ≤ m.tile → traps 0x04)
    ∧ (moveOk (t.gs a) = true → m.tile < w.atiles → t.mcfg = none → traps 0x05)
    ∧ (∀ c, moveOk (t.gs a) = true → m.tile < w.atiles → t.mcfg = some c → w.apoison.contains (tileKey t w m.tile) = false →
        let block := moveBlock t w m c.sat rows
        exec i s = issued i s (orMflag t.id block.2 { s with cur := moveResult d m rows block.1 t })) := by
  intro t i m w rows traps
  have hf : ¬s.cur.m.inFlight ≠ 0 := not_not.2 he
  refine ⟨fun h1 => word_trap h ?_, fun h1 h2 => word_trap h ?_, fun h1 h2 h3 => word_trap h ?_, fun c h1 h2 h3 h4 => word_done h ?_⟩
  · exact (if_neg hf).trans (if_pos (by rw [h1]; rfl))
  · exact (if_neg hf).trans ((if_neg (by rw [h1]; exact Bool.false_ne_true)).trans (if_pos h2))
  · refine (if_neg hf).trans ((if_neg (by rw [h1]; exact Bool.false_ne_true)).trans ((if_neg (Nat.not_le.2 h2)).trans ?_))
    simp only [show s.cur.mcfg = none from h3]
    rfl
  · refine (if_neg hf).trans ((if_neg (by rw [h1]; exact Bool.false_ne_true)).trans ((if_neg (Nat.not_le.2 h2)).trans ?_))
    have hp : ((wgOf s.cur.wg s).getD {}).apoison.contains (tileKey s.cur ((wgOf s.cur.wg s).getD {}) (moveOf (s.cur.gs a)).tile) = false := h4
    simp only [show s.cur.mcfg = some c from h3, hp, Bool.false_eq_true, if_false]
    rfl

/-- Settles O16: the queued forms by `matrixIssue_queues`, the register form of `mmov` by its tests. -/
theorem matrixIssue : Obligations.MatrixIssue := by
  refine ⟨fun s d a b adv sel tile => ⟨fun h hr => word_done (e := false) h ?mcfg, fun h hr => word_done h ?midx,
    fun hk h hr => mloop_queues h hr hk, mloop_traps, fun h hr => word_done h (matrixIssue_queues hr),
    fun h hr => word_done h (matrixIssue_queues hr), fun h => word_done h ?mburst⟩, fun s d a h he => mmovRegister_tests h he⟩
  case mcfg =>
    simp only [matrixIssue_queues hr, fld_low]
    rfl
  case midx => exact (matrixIssue_queues hr).trans (by rw [regLanes_flatten])
  case mburst => rw [fld_low]

/-! ## Collectives -/

/-- R357, R373: the state in which a part of a collective is queued. -/
def collQueued (kind : Nat) (x : W64) (s : State) : State :=
  let u := issueOp 2 (.coll kind x) s
  match u.cur.l.ops.getLast? with
  | some o => { u with agenda := u.agenda ++ [ownStep s.cur.id o.id s.cur.part] }
  | none => u
/-- R139, R357, R373: the part is queued with its right and room on the L context, and traps without the right. -/
theorem coll_issues {i : Instr} {kind : Nat} {a : Reg} (hx : exec i s = word i (collBody kind a) s) (h : ready i s = true) :
    (pktOf s.cur.part (keyOf (s.cur.gs a)) s &&& 1 = 1 → s.cur.l.inFlight < 4 →
      exec i s = issued i s (collQueued kind (s.cur.gs a) s))
    ∧ (¬pktOf s.cur.part (keyOf (s.cur.gs a)) s &&& 1 = 1 →
      exec i s = .next (trapAt i 0x09 (fullMask s.cur.width) (w64 (2 ^ 63)) s)) := by
  rw [hx, ← baseOk_iff]
  refine ⟨fun hk hr => word_done h ?_, fun hk => word_trap h (if_pos ?_)⟩
  · refine (if_neg ?_).trans (if_neg (Nat.not_le.2 hr))
    rw [hk]; exact Bool.false_ne_true
  · rw [Bool.not_eq_true', ← Bool.not_eq_true]; exact hk

/-- Settles O17. -/
theorem collectiveIssue : Obligations.CollectiveIssue := fun _ _ => ⟨coll_issues rfl, coll_issues rfl, coll_issues rfl⟩

/-! ## Timelines -/

/-- R372: a number looked for among the siblings. -/
theorem siblingNo_fld (x : W64) : siblingNo (fld x 0 6) s
    = (allTeams s).find? fun u => u.wg == s.cur.wg && u.num == x.toNat % 64 && u.id != 0 := by rw [fld_low]; rfl

/-- R372: the state in which the team in focus waits for `n` on context `c` of team `target`. -/
def timelineWait (target : Nat) (c : Fin 3) (d : Reg) (n : Nat) (t : Team) (u : State) : State :=
  advance target c { u with twaits := u.twaits ++ [{ team := t.id, dest := d, inh := t.handler, target := target, ctx := c, n := n }] }

/-- The team's own fields outlast a change of one of its contexts. -/
theorem putEctx_id (t : Team) (x : Fin 3) (e : Ectx) : (t.putEctx x e).id = t.id := by
  unfold Team.putEctx; split <;> rfl
theorem putEctx_handler (t : Team) (x : Fin 3) (e : Ectx) : (t.putEctx x e).handler = t.handler := by
  unfold Team.putEctx; split <;> rfl
theorem markEmpty_id (t : Team) (d : Reg) : (t.markEmpty (destOf (.s d))).id = t.id := by
  rw [markEmpty_scalar]; split
  · rfl
  · exact setS_id _ _ _
theorem markEmpty_handler (t : Team) (d : Reg) : (t.markEmpty (destOf (.s d))).handler = t.handler := by
  rw [markEmpty_scalar]; split
  · rfl
  · exact setS_handler _ _ _

/-- R360: `efence` on a context that has not failed. -/
theorem efence_issues {x : Ctx} {d : Reg} (h : ready (.efence x d) s = true) (hf : (s.cur.ectx (ctxIx x)).faulted = false) :
    let e := s.cur.ectx (ctxIx x)
    exec (.efence x d) s = issued (.efence x d) s
      (advance s.cur.id (ctxIx x) (withScalar d (w64 e.close.last) { s with cur := s.cur.putEctx (ctxIx x) e.close })) := by
  refine word_done h ((if_neg (by rw [hf]; exact Bool.false_ne_true)).trans ?_)
  simp only [modCur, Team.ss, setS_id, putEctx_id]
  rfl

section
variable {x : Ctx} {d a : Reg} (h : ready (.ewait x d a) s = true) (hf : (s.cur.ectx (ctxIx x)).faulted = false)
include h hf

/-- R360: `ewait` for a number at or below the last batch closed waits for it. -/
theorem ewait_waits (hn : (s.cur.gs a).toNat ≤ (s.cur.ectx (ctxIx x)).close.last) :
    exec (.ewait x d a) s = issued (.ewait x d a) s (timelineWait s.cur.id (ctxIx x) d (s.cur.gs a).toNat s.cur
      { s with cur := (s.cur.putEctx (ctxIx x) (s.cur.ectx (ctxIx x)).close).markEmpty (destOf (.s d)) }) := by
  refine word_done h ((if_neg (by rw [hf]; exact Bool.false_ne_true)).trans ((if_neg (Nat.not_lt.2 hn)).trans ?_))
  simp only [modCur, markEmpty_id, markEmpty_handler, putEctx_id, putEctx_handler]
  rfl
/-- R360: for a number above it the destination is filled at once, marked. -/
theorem ewait_fills (hn : (s.cur.ectx (ctxIx x)).close.last < (s.cur.gs a).toNat) (hd : d ≠ 0) :
    exec (.ewait x d a) s = issued (.ewait x d a) s
      { s with cur := (s.cur.putEctx (ctxIx x) (s.cur.ectx (ctxIx x)).close).markEmpty (destOf (.s d))
               agenda := s.agenda ++ [.registerFill { team := s.cur.id, dest := .s d
                                                      vals := [(0, (s.cur.ectx (ctxIx x)).close.timeline + 2 ^ 63)]
                                                      inh := s.cur.handler, ctx := some (s.cur.id, ctxIx x) }] } := by
  refine word_done h ((if_neg (by rw [hf]; exact Bool.false_ne_true)).trans ((if_pos hn).trans ?_))
  simp only [if_neg hd, modCur, markEmpty_id, markEmpty_handler, putEctx_id, putEctx_handler]
  rfl
end

section
variable {x : Ctx} {d a b : Reg}

/-- R372: `tlrd` of a number that no sibling has. -/
theorem tlrd_none (h : ready (.tlrd x d a) s = true) (hs : siblingNo (fld (s.cur.gs a) 0 6) s = none) :
    exec (.tlrd x d a) s = issued (.tlrd x d a) s (withScalar d (w64 (2 ^ 63)) s) := by
  refine word_done h ?_
  simp only [hs]; rfl
/-- R372, R174: `tlrd` of a sibling's context: a marked value is delivered alone; any other is observed, once what a team on another core
wrote has reached the slices. -/
theorem tlrd_some {u : Team} (h : ready (.tlrd x d a) s = true) (hs : siblingNo (fld (s.cur.gs a) 0 6) s = some u) :
    let f := u.ectx (ctxIx x)
    let read (v : State) := issued (.tlrd x d a) s (withScalar d (w64 (f.deliver f.timeline)) v)
    (f.marked f.timeline = true → exec (.tlrd x d a) s = read s)
    ∧ (f.marked f.timeline = false → u.core = s.cur.core → exec (.tlrd x d a) s = read (observe s.cur.core (ctxIx x) s))
    ∧ (f.marked f.timeline = false → u.core ≠ s.cur.core → (publish u s).1 = true →
        exec (.tlrd x d a) s = read (observe s.cur.core (ctxIx x) (publish u s).2))
    ∧ (f.marked f.timeline = false → u.core ≠ s.cur.core → (publish u s).1 = false → exec (.tlrd x d a) s = .next (publish u s).2) := by
  refine ⟨fun hm => word_done h ?_, fun hm hc => word_done h ?_, fun hm hc hp => word_done h ?_, fun hm hc hp => word_stay h ?_⟩
  · simp only [hs, hm, Bool.true_or, if_true, Bool.not_true]
    rfl
  · simp only [hs, hm, hc, beq_self_eq_true, Bool.or_true, if_true, Bool.not_true]
    rfl
  · simp only [hs, hm, beq_eq_false_iff_ne.2 hc, Bool.or_false, Bool.false_eq_true, if_false, hp, Bool.not_true, publish_cur]
    rfl
  · simp only [hs, hm, beq_eq_false_iff_ne.2 hc, Bool.or_false, Bool.false_eq_true, if_false, hp, Bool.not_false, if_true]

/-- R372: `tlwait` on no sibling, and on one. -/
theorem tlwait_none (h : ready (.tlwait x d a b) s = true) (hs : siblingNo (fld (s.cur.gs b) 0 6) s = none) :
    exec (.tlwait x d a b) s = issued (.tlwait x d a b) s (withScalar d (w64 (2 ^ 63)) s) := by
  refine word_done h ?_
  simp only [hs]; rfl
theorem tlwait_some {u : Team} (h : ready (.tlwait x d a b) s = true) (hs : siblingNo (fld (s.cur.gs b) 0 6) s = some u) :
    exec (.tlwait x d a b) s = issued (.tlwait x d a b) s
      (timelineWait u.id (ctxIx x) d (s.cur.gs a).toNat s.cur { s with cur := s.cur.markEmpty (destOf (.s d)) }) := by
  refine word_done h ?_
  simp only [hs, modCur, markEmpty_id, markEmpty_handler]; rfl
end
end

/-- Settles O18. -/
theorem timelineResults : Obligations.TimelineResults := by
  intro s x d a b
  simp only [← markEmpty_scalar]
  refine ⟨fun h => ⟨fun hf => word_trap h (if_pos hf), efence_issues h⟩, fun h => ⟨fun hf => word_trap h (if_pos hf), ewait_waits h, ewait_fills h⟩,
    fun h => ?tlrd, fun h => ?tlwait⟩
  case tlrd => exact ⟨fun hs => tlrd_none h ((siblingNo_fld _).trans hs), fun u hs => tlrd_some h ((siblingNo_fld _).trans hs)⟩
  case tlwait => exact ⟨fun hs => tlwait_none h ((siblingNo_fld _).trans hs), fun u hs => tlwait_some h ((siblingNo_fld _).trans hs)⟩

/-! ## Task queues -/

section
variable {s : State}

/-- R139: the test of an object's key, R and W. -/
theorem queueBody_traps {i : Instr} {k : QKind} {a : Reg} {d : Dest} {o : Ord} (hk : ¬pktOf s.cur.part (keyOf (s.cur.gs a + offOf s.cur)) s &&& 3 = 3) :
    queueBody i k a d o s = .trap 0x09 (fullMask s.cur.width) (w64 (2 ^ 63)) := if_pos (bne_iff_ne.2 hk)
/-- R338: an access to one location that needs no right enters the team's order once the load-store unit has room. -/
theorem issueAccess_one {i : Instr} {k : EntKind} {op : ReqOp} {d : Dest} {o : Ord} {sc : Scope} {p : W64}
    (hr : (s.lsu.filter fun e => e.tracked && e.req.core == s.cur.core).length + 1 ≤ 1024) :
    issueAccess i false k op 0 d o sc [{ lane := 0, ptr := p, size := 1 }] s
      = .done (sendAccess i false k op d o sc [{ lane := 0, ptr := p, size := 1 }] s) := by
  have hmis : (vaOf p % 1 != 0) = false := by rw [Nat.mod_one]; rfl
  have hkey : (pktOf s.cur.part (keyOf p) s &&& 0 != 0) = false := by
    rw [show (0 : BitVec 3) = 0#3 from rfl, BitVec.and_zero]; rfl
  have hroom : ¬1024 < (s.lsu.filter fun e => e.tracked && e.req.core == s.cur.core).length + 1 := Nat.not_lt.2 hr
  simp only [issueAccess, List.filter_cons, List.filter_nil, hmis, hkey, Bool.false_eq_true, if_false, List.headD_cons, beq_self_eq_true, if_true]
  exact (if_neg Bool.false_ne_true).trans ((if_neg Bool.false_ne_true).trans ((if_neg Bool.false_ne_true).trans (if_neg hroom)))
end

/-- Settles O19. -/
theorem queueIssue : Obligations.QueueIssue := by
  intro s d a b
  refine ⟨?enq, ?deq, ?dec, ?launch⟩
  case enq | deq | dec =>
    intro h
    refine ⟨fun hk hr => word_done h ((if_neg ?_).trans (issueAccess_one hr)), fun hk => word_trap h (queueBody_traps hk)⟩
    exact fun e => bne_iff_ne.1 e hk
  case launch =>
    intro h hr
    refine word_done h ((issueAccess_one hr).trans ?_)
    simp only [ctlFld, fld_low]
    rfl

end Sys2Proof.Proofs
end

section
/-! SUPPORT. System instructions: control registers, signature, capacities, records, keys, traps (R380 to R397). -/

namespace Sys2Proof.Proofs
open Sys2Proof Sys2Proof.Machine Sys2Proof.Safety Sys2Proof.Laws

section
variable {s : State}

/-! ## Results of system instructions -/

/-- R390: a write of a register that belongs to the team itself, and of any other. -/
theorem ctlwr_issues {a : Reg} {r : CtlReg} (h : ready (.ctlwr a) s = true) (hr : namedReg s.cur = some r) :
    exec (.ctlwr a) s = issued (.ctlwr a) s (if (s.cur.ctlGet r).isSome then { s with cur := (s.cur.ctlSet r (s.cur.gs a)).keepSet s.ck }
      else putReg s.cur.part r (s.cur.gs a) s) := by
  refine word_done h ?_
  simp only [hr]
  rfl
/-- R392: what is free of each kind: granules, units, tiles. -/
theorem freeCount_granules (q n : Nat) : freeCount q n 0 s = 8 * (coreOf n s).usable 0 - (granHeld n s).eraseDups.length := rfl
theorem freeCount_units (q n : Nat) : freeCount q n 1 s = unitsFree q n s := rfl
theorem freeCount_tiles (q n : Nat) : freeCount q n 2 s = (coreOf n s).usable 2 / 16 - (tilesHeld n s).eraseDups.length := rfl
/-- R397: `pkload` loads the key's rights, and fills its destination with them. -/
theorem pkload_issues {d a b : Reg} (h : ready (.pkload d a b) s = true) :
    let key := fld (s.cur.gs a) 0 8
    let rights : BitVec 3 := BitVec.ofNat 3 (fld (s.cur.gs b) 0 3)
      &&& BitVec.ofNat 3 (fld (ctlRaw (.partKgrant s.cur.part (key / 16)) s) (4 * (key % 16)) 3)
    let loaded : State := { s with pkt := alSet (s.cur.part, key) rights s.pkt }
    exec (.pkload d a b) s = issued (.pkload d a b) s (if d = 0 then loaded
      else { loaded with cur := s.cur.setS d { s.cur.sreg d with full := false, poison := false }
                         agenda := s.agenda ++ [.registerFill { team := s.cur.id, dest := .s d, vals := [(0, rights.toNat)], inh := true }] }) := by
  refine word_done (e := false) h ?_
  by_cases hd : d = 0
  · rw [if_pos hd, if_pos hd]
  · rw [if_neg hd, if_neg hd]; rfl

/-- Settles O20. -/
theorem systemResults : Obligations.SystemResults := by
  intro s d a b
  refine ⟨fun h => word_done h ?ctlrd, fun h r hr => ⟨fun hg => ?own, fun hg => ?other⟩, fun h => word_done h ?sigrd, fun h => word_done h ?capq,
    fun h => word_done h rfl, fun h => word_done h ?fltinfo, fun h => ?pkload⟩
  case ctlrd =>
    show Eff.done (withScalar d ((namedReg s.cur).elim 0 fun r => ctlRead r s) s)
      = Eff.done (withScalar d (((namedReg s.cur).map fun r => ctlRead r s).getD 0) s)
    cases namedReg s.cur <;> rfl
  case own => exact (ctlwr_issues h hr).trans (by rw [if_pos hg])
  case other => exact (ctlwr_issues h hr).trans (by rw [if_neg (by rw [hg]; exact Bool.false_ne_true)])
  case sigrd =>
    simp only [apply_ite (BitVec.setWidth 64)]
    rfl
  case capq =>
    have hk : fld (s.cur.gs a) 8 2 < 4 := Nat.mod_lt _ (by decide)
    have hx : (s.cur.gs a).toNat / 2 ^ 8 % 2 ^ 2 = fld (s.cur.gs a) 8 2 := rfl
    simp only [hx]
    generalize fld (s.cur.gs a) 8 2 = k at hk
    match k, hk with
    | 0, _ => simp only [capqWord, freeCount_granules, fld_low]; rfl
    | 1, _ => simp only [capqWord, freeCount_units, fld_low]; rfl
    | 2, _ => simp only [capqWord, freeCount_tiles, fld_low]; rfl
    | 3, _ => simp only [capqWord, fld_low]; rfl
  case fltinfo =>
    have hx : s.cur.shown[(s.cur.gs a).toNat % 2 ^ 10]? = (s.cur.records.filter fun r => !r.hostHeld)[(s.cur.gs a).toNat % 2 ^ 10]? := rfl
    simp only [fld_low, ← hx]
    cases s.cur.shown[(s.cur.gs a).toNat % 2 ^ 10]? <;> rfl
  case pkload =>
    have := pkload_issues h
    rw [fld_low, fld_low] at this
    exact this

/-! ## Records and mappings -/

/-- R395: the records that a command names, in the order their requests were issued. -/
theorem named_eq (t : Team) (a b : W64) : t.named a b =
    let from' := (t.records.filter fun r => !r.hostHeld).drop (a.toNat % 2 ^ 10)
    (if b.toNat % 2 ^ 10 = 0 then from' else from'.take (b.toNat % 2 ^ 10)).mergeSort fun x y => x.ent ≤ y.ent := by
  simp only [Team.named, fld_low]
  rfl
/-- Settles O21. -/
theorem recordAndMapCommands : Obligations.RecordAndMapCommands := by
  intro s d a b
  simp only [← named_eq, ← destOf_scalar]
  refine ⟨fun h => word_done h rfl, fun h => word_done h rfl, fun h hr => word_done h ?_⟩
  exact if_neg (Nat.not_le.2 hr)
end

end Sys2Proof.Proofs
end

section
/-! SUPPORT. Taking an exception, returning from one, and the words that take one behind themselves (R380 to R391). -/

namespace Sys2Proof.Proofs
open Sys2Proof Sys2Proof.Machine Sys2Proof.Safety Sys2Proof.Laws

section
variable {s : State}

/-! ## Entering the handler -/

/-- R382: the team in focus as its handler begins. -/
def entered (x : Trap) (s : State) : Team :=
  { s.cur.enter x (ctlRaw (.partHvec s.cur.part) s) (ctlRaw (.partHdata s.cur.part) s) with
    busy := s.ck, ilines := [], ahead := [], fetching := false, fetchBad := false }
/-- R380: a trap of a team in normal state with a handler vector enters the handler, and changes the team alone. -/
theorem takeTrap_enters {x : Trap} (hh : s.cur.handler = false) (hv : (ctlRaw (.partHvec s.cur.part) s).getLsbD 0 = true) :
    takeTrap x s = { s with cur := entered x s } := by
  refine if_neg ?_
  rw [hh, show bit (hvecOf s.cur.part s) 0 = true from hv]
  exact Bool.false_ne_true
/-- R123, R380, R384: in handler state, or without a handler vector, it kills the team. -/
theorem takeTrap_kills {x : Trap} (h : s.cur.handler = true ∨ (ctlRaw (.partHvec s.cur.part) s).getLsbD 0 = false) :
    takeTrap x s = killTeam s.cur.id s := by
  refine if_pos ?_
  rcases h with hh | hv
  · rw [hh]; rfl
  · rw [show bit (hvecOf s.cur.part s) 0 = false from hv]; exact Bool.or_true _
/-- R382: the saved scalars, and those the handler finds. -/
theorem savedScalars_get (v : Vector SReg 64) (i : Fin 16) : (savedScalars v)[i.val] = v[48 + i.val] := Vector.getElem_ofFn ..
theorem entryScalars_get (v : Vector SReg 64) (c : Byte) (ipc : W64) (w : W32) (hd : W64) (i : Nat) (h : i < 64) :
    (entryScalars v c ipc w hd)[i] = if i < 48 then v[i] else if i < 60 then liveAtEntry v[i] else if i = 60 then { val := c.setWidth 64 }
      else if i = 61 then { val := ipc } else if i = 62 then { val := w.setWidth 64 } else { val := hd } := Vector.getElem_ofFn ..
/-- Another mask register is not touched by a write of k0. -/
theorem set_zero_ne (v : Vector Mask 16) (m : Mask) {k : KReg} (h : k ≠ 0) : (v.set 0 m)[k.val] = v[k.val] :=
  Vector.getElem_set_ne _ _ fun e => h (Fin.ext e.symm)

/-- Settles O22. -/
theorem trapEntry : Obligations.TrapEntry := by
  refine ⟨fun s x hh hv => ?_, fun s x => takeTrap_kills⟩
  rw [takeTrap_enters hh hv]
  refine ⟨rfl, rfl, Vector.getElem_set_self _, rfl, rfl, rfl, rfl, rfl, rfl, rfl, rfl, rfl, rfl, rfl, rfl, rfl, rfl, rfl, rfl, rfl,
    fun i => savedScalars_get _ i, fun r hr => ?low, fun r h1 h2 => ?live, entryScalars_get _ _ _ _ _ 60 _, entryScalars_get _ _ _ _ _ 61 _,
    entryScalars_get _ _ _ _ _ 62 _, entryScalars_get _ _ _ _ _ 63 _, fun k hk => set_zero_ne _ _ hk, rfl, rfl⟩
  case low => exact (entryScalars_get _ _ _ _ _ r.val r.isLt).trans (if_pos hr)
  case live => exact (entryScalars_get _ _ _ _ _ r.val r.isLt).trans ((if_neg (Nat.not_lt.2 h1)).trans (if_pos h2))

/-! ## Returning from the handler -/

/-- R71: an issued word restarts its launch's watchdog count, and changes nothing else. -/
theorem feedWatchdog_eq (i : Instr) (s : State) : ∃ ls, feedWatchdog i s = { s with launches := ls } := by
  unfold feedWatchdog
  split
  · exact ⟨_, rfl⟩
  · split
    · exact ⟨_, rfl⟩
    · exact ⟨_, rfl⟩
/-- A team that neither drains nor is being killed does not retire. -/
theorem tryRetire_hob (h : s.cur.status = .hob) : tryRetire s.cur.id s = s := by
  have hteam : teamOf s.cur.id s = some s.cur := if_pos rfl
  simp only [tryRetire, hteam, h]
  exact if_neg Bool.false_ne_true
/-- R334, R349: a team that owes no wait goes on. -/
theorem resumeWait_none (h : s.cur.owed = none) : resumeWait s = s := by
  unfold resumeWait
  rw [h]
/-- R386: the return of a team that has not exited. -/
theorem returnFromTrap_running (h : s.cur.exited = false) :
    returnFromTrap s = { s with cur := { s.cur.leave with ilines := [], ahead := [] } } :=
  congrArg (fun t => { s with cur := t }) (if_neg fun e => Bool.false_ne_true (h.symm.trans e))
/-- R386: the team in focus after `eret`, which has not exited. -/
def returned (s : State) : Team := { s.cur.leave with ilines := [], ahead := [], busy := s.ck + 1 }
/-- R386: `eret` of a team that has not exited and owes no wait. -/
theorem eret_returns (h : ready .eret s = true) (ha : awake s = true) (hs : s.cur.status = .hob) (hx : s.cur.exited = false) (ho : s.cur.owed = none) :
    ∃ ls, exec .eret s = .next { s with cur := returned s, launches := ls } := by
  obtain ⟨ls, hl⟩ := feedWatchdog_eq (s := returnFromTrap s) .eret
  rw [returnFromTrap_running hx] at hl
  have hw : resumeWait (modCur (fun t => { t with busy := s.ck + 1 }) (feedWatchdog .eret (returnFromTrap s))) = { s with cur := returned s, launches := ls } := by
    rw [returnFromTrap_running hx, hl]
    exact resumeWait_none (s := { s with cur := returned s, launches := ls }) ho
  refine ⟨ls, ?_⟩
  unfold exec execEret
  rw [event_awake ha]
  simp only [issueWord_eq, gate_ready h, hw]
  rw [show s.cur.id = (returned s).id from rfl]
  exact congrArg _ (tryRetire_hob (s := { s with cur := returned s, launches := ls }) hs)
/-- R386: the scalars after `eret`: s48 to s63 as saved. -/
theorem restoredScalars_get (v : Vector SReg 64) (w : Vector SReg 16) (i : Nat) (h : i < 64) :
    (restoredScalars v w)[i] = if h : 48 ≤ i then w[i - 48] else v[i] := Vector.getElem_ofFn ..
/-- R386: the return of cause 0x0B to the instruction it was taken at. -/
theorem reexecutes_iff (t : Team) : (t.tr.cause == 0x0B && alignPc t.tr.pc == t.tr.ipc) = true ↔ t.tr.cause = 0x0B ∧ alignPc t.tr.pc = t.tr.ipc := by
  rw [Bool.and_eq_true, beq_iff_eq, beq_iff_eq]

/-- Settles O23. -/
theorem returnFromTrap : Obligations.ReturnFromTrap := by
  intro s t pc h ha hh hs hx ho
  obtain ⟨ls, he⟩ := eret_returns h ha hs hx ho
  refine ⟨_, he, rfl, rfl, rfl, ?hint, fun i => ?saved, fun r hr => ?kept, fun hc => ?k0, fun hc hp => ?redo, fun k hk => set_zero_ne _ _ hk, rfl, rfl,
    hs, rfl, rfl, rfl, rfl, rfl, rfl⟩
  case hint =>
    show (if s.cur.tr.cause == 0x03 then _ else _) = if s.cur.tr.cause = 0x03 then _ else _
    simp only [beq_iff_eq]
    rfl
  case saved =>
    refine (restoredScalars_get _ _ (48 + i.val) _).trans ((dif_pos (Nat.le_add_right 48 i.val)).trans ?_)
    simp only [Nat.add_sub_cancel_left]
    rfl
  case kept => exact (restoredScalars_get _ _ r.val r.isLt).trans (dif_neg (Nat.not_le.2 hr))
  case k0 =>
    refine (Vector.getElem_set_self _).trans (if_neg fun e => ?_)
    obtain ⟨h1, h2⟩ := (reexecutes_iff s.cur).1 e
    exact hc.elim (fun n => n h1) (fun n => n h2)
  case redo =>
    have e := (reexecutes_iff s.cur).2 ⟨hc, hp⟩
    exact ⟨(Vector.getElem_set_self _).trans (if_pos e), if_pos e⟩

/-! ## Words that trap behind themselves -/

/-- A ready word whose effect is a kill kills its team. -/
theorem word_kill {i : Instr} {body : State → Eff} (h : ready i s = true) (hb : body s = .kill) : word i body s = .next (killTeam s.cur.id s) := by
  simp only [word, issueWord_eq, gate_ready h, hb]

section
variable (h : ready .sigchk s = true)
include h

/-- R384, R391: `sigchk` in a handler; without a mismatch; with one, by the partition's policy. -/
theorem sigchk_handler (hh : s.cur.handler = true) : exec .sigchk s = issued .sigchk s s := word_done h (if_pos hh)
theorem sigchk_agrees (hh : s.cur.handler = false) (hm : ¬(s.cur.sigOn = true ∧ s.cur.hint.snap ≠ s.cur.hint.imm.setWidth 32)) :
    exec .sigchk s = issued .sigchk s { s with cur := { s.cur with sig := 0xFFFF_FFFF } } := by
  refine word_done h ((if_neg (by rw [hh]; exact Bool.false_ne_true)).trans (if_neg ?_))
  rw [Bool.and_eq_true, bne_iff_ne]
  exact hm
theorem sigchk_kills (hh : s.cur.handler = false) (hm : s.cur.sigOn = true ∧ s.cur.hint.snap ≠ s.cur.hint.imm.setWidth 32)
    (hp : (ctlRaw (.sigpol s.cur.part) s).toNat % 2 = 1) : exec .sigchk s = .next (killTeam s.cur.id s) := by
  refine word_kill h ((if_neg (by rw [hh]; exact Bool.false_ne_true)).trans ((if_pos ?_).trans (if_pos ?_)))
  · rw [Bool.and_eq_true, bne_iff_ne]; exact hm
  · rw [ctlFld, fld_low]; exact hp
theorem sigchk_traps (hh : s.cur.handler = false) (hm : s.cur.sigOn = true ∧ s.cur.hint.snap ≠ s.cur.hint.imm.setWidth 32)
    (hp : (ctlRaw (.sigpol s.cur.part) s).toNat % 2 = 0) : exec .sigchk s = .next (takeTrap
      { cause := 0x04, lanes := fullMask s.cur.width, ipc := s.cur.pc, resume := s.cur.pc + 4, word := w32 (encodeWord .sigchk)
        info := w64 (s.cur.hint.snap.toNat + (s.cur.hint.imm.setWidth 32 : W32).toNat * 2 ^ 32), hint := {} }
      (feedWatchdog .sigchk { s with cur := { s.cur with sig := 0xFFFF_FFFF } })) := by
  refine word_fedTrap h ((if_neg (by rw [hh]; exact Bool.false_ne_true)).trans ((if_pos ?_).trans (if_neg ?_)))
  · rw [Bool.and_eq_true, bne_iff_ne]; exact hm
  · rw [ctlFld, fld_low]; omega
end

section
variable {g : BitVec 8} {b : BitVec 18} (h : ready (.extensionWord g b) s = true)
include h

/-- R267, R384: an extension word of an absent group in handler state. -/
theorem extension_kills (hh : s.cur.handler = true) : exec (.extensionWord g b) s = .next (killTeam s.cur.id s) := word_kill h (if_pos hh)
/-- R267: in normal state it traps EXT_EMULATE behind itself, -/
theorem extension_traps (hh : s.cur.handler = false) (hd : (ctlRaw .duty s).getLsbD 5 = false) :
    exec (.extensionWord g b) s = .next (takeTrap
      { cause := 0x03, lanes := fullMask s.cur.width, ipc := s.cur.pc, resume := s.cur.pc + 4, word := w32 (encodeWord (.extensionWord g b))
        info := 0, hint := s.cur.hint } (feed (.extensionWord g b) s)) := by
  refine word_fedTrap h ((if_neg (by rw [hh]; exact Bool.false_ne_true)).trans (if_neg ?_))
  rw [ctlFld, fld_bit, hd]; decide
/-- or waits for the host's emulation (R398). -/
theorem extension_waits (hh : s.cur.handler = false) (hd : (ctlRaw .duty s).getLsbD 5 = true) :
    exec (.extensionWord g b) s = .next (emulate (.extensionWord g b) s) := by
  refine word_stay h ((if_neg (by rw [hh]; exact Bool.false_ne_true)).trans (if_pos ?_))
  rw [ctlFld, fld_bit, hd]; rfl
end

/-- R398: the team that waits for the host's emulation. -/
theorem emulate_cur (i : Instr) : (emulate i s).cur =
    let x : Trap := { cause := 0x03, lanes := fullMask s.cur.width, ipc := s.cur.pc, resume := nextPc s.cur, word := w32 (encodeWord i), hint := s.cur.hint }
    let u := (feed i s).cur
    { (u.enter x (hvecOf s.cur.part (feed i s)) (ctlRaw (.partHdata s.cur.part) (feed i s))).toShelf .host with emu := true, ilines := [], ahead := [] } :=
  raiseEvent_cur _ _ _

/-- Settles O24. -/
theorem trapInstructions : Obligations.TrapInstructions := by
  intro s n g b
  refine ⟨fun h => word_fedTrap h rfl, fun h => ⟨sigchk_handler h, sigchk_agrees h, sigchk_kills h, sigchk_traps h⟩,
    fun h => ⟨extension_kills h, extension_traps h, fun hh hd => ⟨_, extension_waits h hh hd, ?_⟩⟩⟩
  rw [emulate_cur]
  exact ⟨rfl, rfl, rfl, rfl, rfl, rfl, rfl⟩
end

end Sys2Proof.Proofs
end

section
/-! SUPPORT. Steps, words that decode, memory and reset (R2, R3, R13, R29, R110, R161, R250). -/

namespace Sys2Proof.Proofs
open Sys2Proof Sys2Proof.Machine Sys2Proof.Safety Sys2Proof.Laws

/-- Settles O26: each word is decoded. -/
theorem decodedWords : Obligations.DecodedWords := ⟨rfl, rfl, rfl, rfl, rfl, rfl, rfl, rfl, rfl⟩

/-! ## A step of a picked team -/

section
variable {s : State}

/-- A step of a picked team brings it into focus at its issue slot. -/
theorem step_picked {id : Nat} {rest : List Nat} (hc : s.cond ≠ .unpowered) (hi : s.issue = id :: rest) :
    step s = issueSlot (focus id { s with issue := rest }) := by
  cases h : s.cond with
  | unpowered => exact absurd h hc
  | running | fatal | recovery => simp only [step, h, hi]
/-- R161: the word at the pc, when its line has arrived. -/
theorem nextWord_of_line {t : Team} {line : W64 × List Byte} (h : t.ilines.find? (fun l => l.1 == linePtr t.pc && !l.2.isEmpty) = some line) :
    t.nextWord = some (natOfBytes (sliceBytes line.2 (vaOf t.pc % 64 / 4 * 4) 4)) := by
  rw [Team.nextWord, wordIn, h]
  rfl
/-- What a word at an issue slot is, by how it decodes (R252). -/
def wordSlot (w : Nat) : Dec → Slot
  | .ok i => .ins i
  | .error r => .reject r w
/-- R110: a team on the Hob with nothing pending takes the word at its pc. -/
theorem slotOf_word {w : Nat} (hs : s.cur.status = .hob) (he : s.cur.emu = false) (hm : s.cur.mismatched = false)
    (hp : s.cur.handler = true ∨ (s.cur.pendingCause = none ∧ s.cur.exited = false)) (hw : s.cur.nextWord = some w) {x : Dec} (hd : decode w = x) :
    slotOf s = wordSlot w x := by
  have h1 : ¬(!s.cur.onHob || s.cur.emu) = true := by
    rw [Team.onHob, hs, he]; exact Bool.false_ne_true
  have h2 : ¬(s.cur.mismatched || (!s.cur.handler && (s.cur.pendingCause.isSome || s.cur.exited))) = true := by
    rw [hm]
    rcases hp with hh | ⟨hn, hx⟩
    · rw [hh]; exact Bool.false_ne_true
    · rw [hn, hx, Option.isSome_none, Bool.or_false, Bool.and_false, Bool.or_false]; exact Bool.false_ne_true
  simp only [slotOf, if_neg h1, if_neg h2, hw, hd]
  cases x <;> rfl
/-- What the slot of each kind does. -/
theorem issueSlot_ins {i : Instr} (h : slotOf s = .ins i) : issueSlot s = exec i s := by
  unfold issueSlot; rw [h]
theorem issueSlot_badHint {w : Nat} (h : slotOf s = .reject .badHint w) : issueSlot s = .next (badHintWord w s) := by
  unfold issueSlot; rw [h]
theorem issueSlot_illegal {r : Reject} {w : Nat} (h : slotOf s = .reject r w) (hr : r ≠ .badHint) : issueSlot s = .next (illegalWord w s) := by
  unfold issueSlot; rw [h]
  cases r with
  | badHint => exact absurd rfl hr
  | _ => rfl
end

/-- Settles O27: the slot of a team with a word at its pc is that word's. -/
theorem stepRunsDecoded : Obligations.StepRunsDecoded := by
  intro s id rest line i u t w hc hi hs he hm hp hl
  have hslot := fun {x : Dec} (hd : decode w = x) => slotOf_word hs he hm hp (nextWord_of_line hl) hd
  rw [step_picked hc hi]
  exact ⟨fun hd => issueSlot_ins (hslot hd), fun hd => issueSlot_badHint (hslot hd), fun r hd hr => issueSlot_illegal (hslot hd) hr⟩

/-! ## A step with no team picked -/

/-- Every instruction has a next state. -/
theorem exec_next (i : Instr) (s : State) : ∃ t, exec i s = .next t := by
  cases i with
  | vadd w | vsub w | vmul w | vmulhI w | vmulhN w | vmad w | vand w | vor w | vxor w | vandn w | vshl w | vshr w | vsra w | vminI w | vminN w
  | vmaxI w | vmaxN w | vabs w | vclz w | vpopc w | vmov w | vsel w => cases w <;> exact ⟨_, rfl⟩
  | vcvt dst src => cases dst <;> exact ⟨_, rfl⟩
  | _ => exact ⟨_, rfl⟩
/-- An event that is queued at no arbiter takes place itself. -/
theorem arbitrate_unqueued {es : List (Instr × List Instr)} {e : Instr × List Instr} {s : State} (h : queuedAt s e.1 = none) :
    arbitrate es e s = (e, s) := by
  unfold arbitrate
  rw [h]

/-- Settles O28. -/
theorem stepTakesEvent : Obligations.StepTakesEvent := by
  intro s u next n
  refine ⟨fun hc => ?unpowered, fun hc hi he => step_idle_nil hc hi he, fun hc hi _ e hx => ?some, fun hc hi he hx => step_idle_none hc hi he hx,
    fun i => exec_next i s⟩
  case unpowered => simp only [step, hc]
  case some =>
    have h := step_idle_some hc hi hx
    refine ⟨h, fun hq => ?_⟩
    rw [arbitrate_unqueued hq] at h
    exact h

/-! ## Memory -/

/-- R3: the low bytes of a number, read back. -/
theorem natOfBytes_bytesOfNat (n v : Nat) : natOfBytes (bytesOfNat n v) = v % 2 ^ (8 * n) := by
  induction n generalizing v with
  | zero => exact (Nat.mod_one v).symm
  | succ n ih =>
    have h : natOfBytes (bytesOfNat (n + 1) v) = v % 2 ^ 8 + 256 * natOfBytes (bytesOfNat n (v / 256)) := rfl
    rw [h, ih, Nat.mul_succ, Nat.add_comm (8 * n) 8, Nat.pow_add, Nat.mod_mul]
theorem bytesOfNat_length (n v : Nat) : (bytesOfNat n v).length = n := by
  induction n generalizing v with
  | zero => rfl
  | succ n ih => exact congrArg Nat.succ (ih _)
/-- A byte after a store of a run of bytes. -/
theorem read_writeN {m : Memory} (a : Nat) (bs : List Byte) (b : Nat) (hm : m.wf = true) :
    (m.writeN a bs).read b = if a ≤ b ∧ b < a + bs.length then bs.getD (b - a) 0 else m.read b := by
  induction bs generalizing m a with
  | nil => exact (if_neg fun h => by simp only [List.length_nil] at h; omega).symm
  | cons x bs ih =>
    rw [Memory.writeN, ih (a + 1) (write_wf a x hm), read_write a b x hm, List.length_cons]
    rcases Nat.lt_trichotomy b a with h | h | h
    · rw [if_neg (by omega), if_neg (by omega), if_neg (by omega)]
    · subst h
      rw [if_neg (by omega), if_pos rfl, if_pos (by omega), Nat.sub_self]
      rfl
    · have hb : b - a = (b - (a + 1)) + 1 := by omega
      rw [if_neg (by omega : ¬b = a), hb, List.getD_cons_succ]
      exact if_congr (by omega) rfl rfl
/-- What a run of bytes holds that was just stored. -/
theorem readN_writeN {m : Memory} (a : Nat) (bs : List Byte) (hm : m.wf = true) : (m.writeN a bs).readN a bs.length = bs := by
  induction bs generalizing m a with
  | nil => rfl
  | cons x bs ih =>
    have hw := write_wf a x hm
    have hx : ((m.write a x).writeN (a + 1) bs).read a = x := by
      rw [read_writeN _ _ _ hw, if_neg (by omega), read_write _ _ _ hm, if_pos rfl]
    exact congrArg₂ List.cons hx (ih (a + 1) hw)

/-- Settles O32. -/
theorem memoryReadsBack : Obligations.MemoryReadsBack := by
  intro m a bs b n v hm
  refine ⟨writeN_wf a bs hm, read_writeN a bs b hm, ?_⟩
  have h := readN_writeN a (bytesOfNat n v) hm
  rw [bytesOfNat_length] at h
  rw [Memory.readNat, Memory.writeNat, h, natOfBytes_bytesOfNat]

/-! ## Reset -/

/-- Settles O33. -/
theorem resetState : Obligations.ResetState := by
  refine ⟨rfl, rfl, rfl, rfl, rfl, rfl, rfl, rfl, rfl, rfl, rfl, rfl, rfl, rfl, rfl, rfl, rfl, rfl, ?_, rfl, rfl, fun q => ⟨rfl, rfl, rfl, rfl⟩,
    fun q k => rfl, fun n => ⟨rfl, rfl, rfl, rfl⟩, fun r => ?_, rfl⟩
  · intro d hd
    match d, hd with
    | 0, _ | 1, _ | 2, _ | 3, _ => rfl
  · unfold Team.sreg
    split
    · rfl
    · exact Vector.getElem_replicate _

end Sys2Proof.Proofs
end

section
/-! SUPPORT. What the tests of R266 decide before any effect, and what issuing a word leaves unchanged (R71, R107, R115 to R121, R266). -/

namespace Sys2Proof.Proofs
open Sys2Proof Sys2Proof.Machine Sys2Proof.Safety Sys2Proof.Laws

section
variable {s : State}

/-! ## What issuing a word changes -/

/-- R71: the launches after a word has issued: each as it was, or with its watchdog count at 0. -/
theorem feedWatchdog_launches (i : Instr) (s : State) : ∃ ls, feedWatchdog i s = { s with launches := ls }
    ∧ ∀ l ∈ ls, l ∈ s.launches ∨ ∃ l' ∈ s.launches, l = { l' with wdog := 0 } := by
  have hsame : ∃ ls, s = { s with launches := ls } ∧ ∀ l ∈ ls, l ∈ s.launches ∨ ∃ l' ∈ s.launches, l = { l' with wdog := 0 } :=
    ⟨s.launches, rfl, fun l h => .inl h⟩
  unfold feedWatchdog
  split
  · exact hsame
  · split
    · next n _ =>
      refine ⟨_, rfl, fun l h => ?_⟩
      obtain ⟨l', hl', h⟩ := List.mem_map.1 h
      split at h
      · exact .inr ⟨l', hl', h.symm⟩
      · exact .inl (h ▸ hl')
    · exact hsame
/-- R107, R120: a team whose word has issued, but for the mask of a re-execution. -/
def stepped (t0 t : Team) (i : Instr) (e : Bool) (pc : W64) (ck : Nat) : Team :=
  { t with sig := fedSig t i e, hint := (if isHintWord i then t.hint else {}), pc := pc, busy := ck + costOf t0 i }
theorem retire_eq (t0 t : Team) (i : Instr) (e : Bool) (pc : W64) (ck : Nat) : t0.retire t i e pc ck =
    if t.handler then stepped t0 t i e pc ck
    else match t.reexec with
      | some m => { stepped t0 t i e pc ck with k := t.k.set 0 m, reexec := none }
      | none => stepped t0 t i e pc ck := rfl
theorem retire_plain {t0 t : Team} {i : Instr} {e : Bool} {pc : W64} {ck : Nat} (h : t.handler = true ∨ t.reexec = none) :
    t0.retire t i e pc ck = stepped t0 t i e pc ck := by
  rw [retire_eq]
  rcases h with h | h
  · exact if_pos h
  · rw [h]; exact ite_self _
/-- R386: after the re-execution the restored k0 governs. -/
theorem retire_reexec {t0 t : Team} {i : Instr} {e : Bool} {pc : W64} {ck : Nat} {m : Mask} (hh : ¬t.handler = true) (h : t.reexec = some m) :
    t0.retire t i e pc ck = { stepped t0 t i e pc ck with k := t.k.set 0 m, reexec := none } := by
  rw [retire_eq, h]
  exact if_neg hh
/-- R107, R120, R386: what issuing changes in the team, beside the effect. -/
theorem retire_team (t0 t : Team) (i : Instr) (e : Bool) (pc : W64) (ck : Nat) :
    let u := t0.retire t i e pc ck
    u.pc = pc ∧ u.sig = fedSig t i e ∧ u.busy = ck + costOf t0 i ∧ u.hint = (if isHintWord i then t.hint else {})
    ∧ u.gk 0 = (if t.handler then t.gk 0 else t.reexec.getD (t.gk 0)) ∧ u.reexec = (if t.handler then t.reexec else none)
    ∧ { u with pc := t.pc, sig := t.sig, busy := t.busy, hint := t.hint, k := t.k, reexec := t.reexec } = t
    ∧ ∀ k : KReg, k ≠ 0 → u.gk k = t.gk k := by
  by_cases hh : t.handler = true
  · rw [retire_plain (.inl hh), if_pos hh, if_pos hh]
    exact ⟨rfl, rfl, rfl, rfl, rfl, rfl, rfl, fun k _ => rfl⟩
  · rw [if_neg hh, if_neg hh]
    cases hr : t.reexec with
    | none =>
      rw [retire_plain (.inr hr)]
      exact ⟨rfl, rfl, rfl, rfl, rfl, hr, by rw [← hr]; rfl, fun k _ => rfl⟩
    | some m =>
      rw [retire_reexec hh hr]
      exact ⟨rfl, rfl, rfl, rfl, Vector.getElem_set_self _, rfl, by rw [← hr]; rfl, fun k hk => set_zero_ne _ _ hk⟩
/-- A word that has issued: the team in focus and the launches, and nothing else. -/
theorem retire_state (t0 : Team) (i : Instr) (e : Bool) (pc : W64) (s : State) : ∃ ls,
    retire t0 i e pc s = { s with cur := t0.retire s.cur i e pc s.ck, launches := ls }
    ∧ ∀ l ∈ ls, l ∈ s.launches ∨ ∃ l' ∈ s.launches, l = { l' with wdog := 0 } :=
  feedWatchdog_launches i (modCur (fun t => t0.retire t i e pc s.ck) s)

/-! ## Instructions that write one scalar register -/

/-- R288, R289: each of them leaves a value in its destination. -/
def WritesScalar (d : Reg) (i : Instr) : Prop := ∀ s : State, ready i s = true → ∃ v, exec i s = issued i s (withScalar d v s)
theorem writesScalar_op {i : Instr} {d : Reg} {f : Team → W64} (h : ∀ s, exec i s = scalarOp i d f s) : WritesScalar d i :=
  fun s hr => ⟨_, scalarOp_issues (w := 0) (h s) rfl hr⟩
/-- A register that is not written. -/
theorem sreg_ss_ne (t : Team) {r d : Reg} (v : W64) (h : r ≠ d) : (t.ss d v).sreg r = t.sreg r := by
  have hv : d.val ≠ r.val := fun e => h (Fin.ext e.symm)
  unfold Team.ss Team.setS Team.sreg
  by_cases h0 : d = 0
  · rw [if_pos h0]
  · rw [if_neg h0]
    by_cases hr : r = 0
    · rw [if_pos hr, if_pos hr]
    · rw [if_neg hr, if_neg hr]
      exact Vector.getElem_set_ne d.isLt r.isLt hv

/-- Settles O30. -/
theorem scalarFrame : Obligations.ScalarFrame := by
  intro s u i d a b ta tb imm c p x hi hr he
  have hw : WritesScalar d i := by
    simp only [List.mem_cons, List.not_mem_nil, or_false] at hi
    rcases hi with rfl | rfl | rfl | rfl | rfl | rfl | rfl | rfl | rfl | rfl | rfl | rfl | rfl | rfl | rfl | rfl | rfl | rfl | rfl | rfl | rfl
      | rfl | rfl | rfl | rfl | rfl | rfl | rfl | rfl | rfl | rfl | rfl | rfl | rfl | rfl | rfl | rfl | rfl
    case inr.inr => exact fun s h => ⟨_, word_done h rfl⟩
    all_goals exact writesScalar_op fun _ => rfl
  obtain ⟨v, hv⟩ := hw s hr
  obtain ⟨ls, hls, -⟩ := retire_state s.cur i false (s.cur.pc + 4) (withScalar d v s)
  have hu : u = _ := (Host.Outcome.next.inj (he.symm.trans hv)).trans hls
  obtain ⟨-, -, -, -, -, -, hteam, hk⟩ := retire_team s.cur (s.cur.ss d v) i false (s.cur.pc + 4) s.ck
  subst hu
  have f {α : Type} (g : Team → α) := congrArg g hteam
  have hkk : ∀ k : KReg, (s.cur.ss d v).gk k = s.cur.gk k := fun k => by rw [Team.gk, Team.gk, Team.ss, setS_k]
  exact ⟨fun r hrd => (f (Team.sreg · r)).trans (sreg_ss_ne _ _ hrd), gs_zero _, (f Team.v).trans (setS_v ..), (f Team.flags).trans (setS_flags ..),
    fun k h0 => (hk k h0).trans (hkk k), (f Team.tr).trans (setS_tr ..), (f Team.handler).trans (setS_handler ..),
    (f Team.records).trans (setS_records ..), rfl, rfl, rfl, rfl, rfl, rfl, rfl, rfl, fun _ => rfl⟩

/-! ## The tests of R266 -/

/-- The registers among those an instruction names that are empty. -/
def emptyScalars (t : Team) (u : Use) : List Reg :=
  ((u.src.map (·.1) ++ u.dst).filter fun r => !t.isFull r).filterMap fun r => match r with | .s n => some n | .v _ => none
def emptyVectors (t : Team) (u : Use) : List Reg :=
  ((u.src.map (·.1) ++ u.dst).filter fun r => !t.isFull r).filterMap fun r => match r with | .v n => some n | .s _ => none
theorem mem_emptyScalars {t : Team} {u : Use} {r : Reg} :
    r ∈ emptyScalars t u ↔ RegName.s r ∈ u.src.map (·.1) ++ u.dst ∧ t.isFull (.s r) = false := by
  rw [emptyScalars, List.mem_filterMap, ← Bool.not_eq_true', ← List.mem_filter (p := fun r => !t.isFull r)]
  refine ⟨fun ⟨x, hx, hr⟩ => ?_, fun h => ⟨_, h, rfl⟩⟩
  cases x with
  | s n => exact Option.some.inj hr ▸ hx
  | v n => cases hr
theorem mem_emptyVectors {t : Team} {u : Use} {r : Reg} :
    r ∈ emptyVectors t u ↔ RegName.v r ∈ u.src.map (·.1) ++ u.dst ∧ t.isFull (.v r) = false := by
  rw [emptyVectors, List.mem_filterMap, ← Bool.not_eq_true', ← List.mem_filter (p := fun r => !t.isFull r)]
  refine ⟨fun ⟨x, hx, hr⟩ => ?_, fun h => ⟨_, h, rfl⟩⟩
  cases x with
  | v n => exact Option.some.inj hr ▸ hx
  | s n => cases hr

section
variable {i : Instr} {body : State → Eff}

/-- Step 1: the word is illegal. -/
theorem word_illegal {info : W64} (h : illegalAt s s.cur i (useOf s.cur i) = some info) :
    word i body s = .next (trapAt i 0x01 (fullMask s.cur.width) info s) := by
  simp only [word, issueWord_eq, gate, h]

variable (hi : illegalAt s s.cur i (useOf s.cur i) = none)
include hi

/-- Step 3: a source with its trap bit is empty. -/
theorem word_empty {r : RegName} {n : Nat} (h : (useOf s.cur i).src.find? (fun x => x.2.isSome && !s.cur.isFull x.1) = some (r, some n)) :
    word i body s = .next (trapAt i 0x02 (fullMask s.cur.width) (w64 n) s) := by
  simp only [word, issueWord_eq, gate, hi, h]
/-- Step 4: a register it names is empty. -/
theorem word_waits (h : (useOf s.cur i).src.find? (fun x => x.2.isSome && !s.cur.isFull x.1) = none)
    {r : RegName} (hm : r ∈ (useOf s.cur i).src.map (·.1) ++ (useOf s.cur i).dst) (hr : s.cur.isFull r = false) :
    word i body s = .next { s with cur := s.cur.toShelf (.regs (emptyScalars s.cur (useOf s.cur i)) (emptyVectors s.cur (useOf s.cur i))) } := by
  have hne : (((useOf s.cur i).src.map (·.1) ++ (useOf s.cur i).dst).filter fun r => !s.cur.isFull r).isEmpty = false := by
    rw [List.isEmpty_eq_false_iff]
    exact List.ne_nil_of_mem (List.mem_filter.2 ⟨hm, by rw [hr]; rfl⟩)
  simp only [word, issueWord_eq, gate, hi, h, hne]
  rfl

variable (hf : ∀ r ∈ (useOf s.cur i).src.map (·.1) ++ (useOf s.cur i).dst, s.cur.isFull r = true)
include hf

/-- With every register full, the gate turns on what a scratchpad load has yet to write and on poison. -/
theorem gate_full : gate s s.cur i = if s.cur.interlocked (useOf s.cur i) then .busy
    else if (useOf s.cur i).src.any (fun x => s.cur.isPoisoned x.1) then .kill else .go := by
  have hfind : (useOf s.cur i).src.find? (fun x => x.2.isSome && !s.cur.isFull x.1) = none :=
    List.find?_eq_none.2 fun x hx h => by
      rw [hf x.1 (List.mem_append_left _ (List.mem_map_of_mem hx)), Bool.not_true, Bool.and_false] at h
      cases h
  have hneed : (((useOf s.cur i).src.map (·.1) ++ (useOf s.cur i).dst).filter fun r => !s.cur.isFull r) = [] :=
    List.filter_eq_nil_iff.2 fun r hr h => by rw [hf r hr] at h; cases h
  simp only [gate, hi, hfind, hneed]
  rfl
/-- A register that a scratchpad load has yet to write: the word waits on the Hob. -/
theorem word_busy (hb : s.cur.interlocked (useOf s.cur i) = true) : word i body s = .next s := by
  simp only [word, issueWord_eq, gate_full hi hf, if_pos hb]
/-- Step 5: a poisoned source kills. -/
theorem word_poisoned (hb : s.cur.interlocked (useOf s.cur i) = false) (hp : (useOf s.cur i).src.any (fun x => s.cur.isPoisoned x.1) = true) :
    word i body s = .next (killTeam s.cur.id s) := by
  simp only [word, issueWord_eq, gate_full hi hf, hb, hp, Bool.false_eq_true, if_false, if_true]
/-- A word that passes every test is ready. -/
theorem ready_of_full (hb : s.cur.interlocked (useOf s.cur i) = false) (hp : (useOf s.cur i).src.any (fun x => s.cur.isPoisoned x.1) = false) :
    ready i s = true := by
  have hsrc : (useOf s.cur i).src.all (fun x => s.cur.isFull x.1 && !s.cur.isPoisoned x.1) = true :=
    List.all_eq_true.2 fun x hx => by
      rw [hf x.1 (List.mem_append_left _ (List.mem_map_of_mem hx)), Bool.eq_false_iff.2 fun h => List.any_eq_false.1 hp x hx h]
      rfl
  have hdst : (useOf s.cur i).dst.all s.cur.isFull = true := List.all_eq_true.2 fun r hr => hf r (List.mem_append_right _ hr)
  rw [ready, hi, hsrc, hdst, hb]
  rfl
end

/-! ### Two sources with a trap bit -/

section
variable {t : Team} {x y : RegName} {tx ty : Bool} {rest : List (RegName × Option Nat)}

/-- The first empty source with a trap bit, among two with one and others without. -/
theorem find_first (ht : tx = true) (hx : t.isFull x = false) :
    ((x, if tx then some 0 else none) :: (y, if ty then some 1 else none) :: rest).find? (fun x => x.2.isSome && !t.isFull x.1) = some (x, some 0) := by
  subst ht
  exact List.find?_cons_of_pos (by rw [hx]; rfl)
theorem find_second (hx : tx = true → t.isFull x = true) (ht : ty = true) (hy : t.isFull y = false) :
    ((x, if tx then some 0 else none) :: (y, if ty then some 1 else none) :: rest).find? (fun x => x.2.isSome && !t.isFull x.1) = some (y, some 1) := by
  subst ht
  rw [List.find?_cons_of_neg]
  · exact List.find?_cons_of_pos (by rw [hy]; rfl)
  · cases tx
    · exact Bool.false_ne_true
    · rw [hx rfl]; exact Bool.false_ne_true
theorem find_neither (hx : tx = true → t.isFull x = true) (hy : ty = true → t.isFull y = true) (hr : ∀ x ∈ rest, x.2 = none) :
    ((x, if tx then some 0 else none) :: (y, if ty then some 1 else none) :: rest).find? (fun x => x.2.isSome && !t.isFull x.1) = none := by
  rw [List.find?_cons_of_neg, List.find?_cons_of_neg]
  · exact List.find?_eq_none.2 fun x h => by rw [hr x h]; exact Bool.false_ne_true
  · cases ty
    · exact Bool.false_ne_true
    · rw [hy rfl]; exact Bool.false_ne_true
  · cases tx
    · exact Bool.false_ne_true
    · rw [hx rfl]; exact Bool.false_ne_true
end

/-! ### `sadd` -/

section
variable {d a b : Reg} {ta tb : Bool}

/-- R269: the groups that `sadd` does not accept. -/
def refusedBySadd (t : Team) : Prop := t.hint.bad = true ∨ t.hint.nimm ≠ 0 ∨ t.hint.offv = true ∨ t.hint.modv = true
theorem hintAccepted_sadd (t : Team) : hintAccepted t (.sadd d a b ta tb) (useS d a b ta tb) = true ↔ ¬refusedBySadd t := by
  have h0 : imm13Of (.sadd d a b ta tb) = 0 := rfl
  simp only [hintAccepted, refusedBySadd, useS, h0]
  cases t.hint.bad <;> cases t.hint.offv <;> cases t.hint.modv <;> simp
theorem sadd_illegal (h : refusedBySadd s.cur) : illegalAt s s.cur (.sadd d a b ta tb) (useOf s.cur (.sadd d a b ta tb)) = some 1 := by
  refine (if_neg Bool.false_ne_true).trans (if_pos ?_)
  rw [Bool.not_eq_true', ← Bool.not_eq_true]
  exact fun e => (hintAccepted_sadd _).1 e h
theorem sadd_legal (h : ¬refusedBySadd s.cur) : illegalAt s s.cur (.sadd d a b ta tb) (useOf s.cur (.sadd d a b ta tb)) = none := by
  have ha : hintAccepted s.cur (.sadd d a b ta tb) (useOf s.cur (.sadd d a b ta tb)) = true := (hintAccepted_sadd _).2 h
  refine (if_neg Bool.false_ne_true).trans ((if_neg ?_).trans (if_neg ?_))
  · rw [ha]; exact Bool.false_ne_true
  · exact Bool.false_ne_true
/-- The registers that `sadd` names. -/
theorem sadd_src (t : Team) : (useOf t (.sadd d a b ta tb)).src = [(.s a, if ta then some 0 else none), (.s b, if tb then some 1 else none)] := rfl
theorem sadd_names (t : Team) : (useOf t (.sadd d a b ta tb)).src.map (·.1) ++ (useOf t (.sadd d a b ta tb)).dst = [.s a, .s b, .s d] := rfl

section
variable (hl : ¬refusedBySadd s.cur)
include hl

/-- Step 4 at `sadd`: one of its registers is empty. -/
theorem sadd_waits (ha : ta = true → (s.cur.sreg a).full = true) (hb : tb = true → (s.cur.sreg b).full = true)
    (hn : ((s.cur.sreg a).full && (s.cur.sreg b).full && (s.cur.sreg d).full) = false) :
    ∃ ss vs, exec (.sadd d a b ta tb) s = .next { s with cur := s.cur.toShelf (.regs ss vs) }
      ∧ ∀ r, r ∈ ss ↔ (r = a ∨ r = b ∨ r = d) ∧ (s.cur.sreg r).full = false := by
  have hfind : (useOf s.cur (.sadd d a b ta tb)).src.find? (fun x => x.2.isSome && !s.cur.isFull x.1) = none :=
    find_neither ha hb (List.forall_mem_nil _)
  have hmem : ∀ r, RegName.s r ∈ (useOf s.cur (.sadd d a b ta tb)).src.map (·.1) ++ (useOf s.cur (.sadd d a b ta tb)).dst ↔ r = a ∨ r = b ∨ r = d := by
    simp only [sadd_names, List.mem_cons, List.not_mem_nil, or_false, RegName.s.injEq, implies_true]
  obtain ⟨r, hr, he⟩ : ∃ r, (r = a ∨ r = b ∨ r = d) ∧ (s.cur.sreg r).full = false := by
    rw [Bool.and_eq_false_iff, Bool.and_eq_false_iff] at hn
    rcases hn with (h | h) | h
    exacts [⟨a, .inl rfl, h⟩, ⟨b, .inr (.inl rfl), h⟩, ⟨d, .inr (.inr rfl), h⟩]
  exact ⟨_, _, word_waits (sadd_legal hl) hfind ((hmem r).2 hr) he, fun r => mem_emptyScalars.trans (and_congr_left fun _ => hmem r)⟩

variable (ha : (s.cur.sreg a).full = true) (hb : (s.cur.sreg b).full = true) (hd : (s.cur.sreg d).full = true)
include ha hb hd

omit hl in
/-- Step 5 at `sadd`: every register is full; a source of it is poisoned, or none is. -/
theorem sadd_fulls : (∀ r ∈ (useOf s.cur (.sadd d a b ta tb)).src.map (·.1) ++ (useOf s.cur (.sadd d a b ta tb)).dst, s.cur.isFull r = true)
    ∧ (useOf s.cur (.sadd d a b ta tb)).src.any (fun x => s.cur.isPoisoned x.1) = ((s.cur.sreg a).poison || (s.cur.sreg b).poison) := by
  rw [sadd_names, sadd_src]
  refine ⟨?_, ?_⟩
  · simp only [List.forall_mem_cons]
    exact ⟨ha, hb, hd, List.forall_mem_nil _⟩
  · simp only [List.any_cons, List.any_nil, Team.isPoisoned, ha, hb, Bool.true_and, Bool.or_false]
theorem sadd_issues (hp : ((s.cur.sreg a).poison || (s.cur.sreg b).poison) = false) :
    exec (.sadd d a b ta tb) s = issued (.sadd d a b ta tb) s (withScalar d (s.cur.gs a + s.cur.gs b) s) :=
  have ⟨hf, hs⟩ := sadd_fulls (ta := ta) (tb := tb) ha hb hd
  scalar_issues rfl rfl (ready_of_full (sadd_legal hl) hf rfl (hs.trans hp))
theorem sadd_kills (hp : ((s.cur.sreg a).poison || (s.cur.sreg b).poison) = true) :
    exec (.sadd d a b ta tb) s = .next (killTeam s.cur.id s) :=
  have ⟨hf, hs⟩ := sadd_fulls (ta := ta) (tb := tb) ha hb hd
  word_poisoned (sadd_legal hl) hf rfl (hs.trans hp)
end
end

/-! ### `vst` -/

section
variable {d a b : Reg} {ta tb : Bool} {z : Sz} {o : Ord} {sc : Scope}

/-- R269: the groups that `vst` does not accept; R104: a register that the team does not have. -/
def refusedByVst (t : Team) : Prop := t.hint.bad = true ∨ t.hint.nimm ≠ 0 ∨ t.hint.modv = true
def absentVreg (t : Team) (d b : Reg) : Prop := t.v.length ≤ b.val ∨ t.v.length ≤ d.val

theorem hintAccepted_vst (t : Team) : hintAccepted t (.vst d a b ta tb z o sc) (useOf t (.vst d a b ta tb z o sc)) = true ↔ ¬refusedByVst t := by
  have h0 : imm13Of (.vst d a b ta tb z o sc) = 0 := rfl
  have hu : useOf t (.vst d a b ta tb z o sc) = useMem true true true d a b ta tb (z == .b64) true := rfl
  simp only [hintAccepted, refusedByVst, hu, useMem, h0]
  cases t.hint.bad <;> cases t.hint.offv <;> cases t.hint.modv <;> simp

variable (hz : z ≠ .b64)
include hz
theorem vst_use (t : Team) : useOf t (.vst d a b ta tb z o sc) =
    { src := [(.s a, if ta then some 0 else none), (.v b, if tb then some 1 else none), (.v d, none)], dst := [], off := true, vector := true } := by
  cases z with
  | b64 => exact absurd rfl hz
  | b8 | b16 | b32 => rfl
theorem badVreg_vst (t : Team) : badVreg t (useOf t (.vst d a b ta tb z o sc)) = true ↔ absentVreg t d b := by
  rw [vst_use hz]
  simp [badVreg, absentVreg]

omit hz in
theorem vst_illegal (h : refusedByVst s.cur) : illegalAt s s.cur (.vst d a b ta tb z o sc) (useOf s.cur (.vst d a b ta tb z o sc)) = some 1 := by
  refine (if_neg Bool.false_ne_true).trans (if_pos ?_)
  rw [Bool.not_eq_true', ← Bool.not_eq_true]
  exact fun e => (hintAccepted_vst _).1 e h
theorem vst_absent (h : ¬refusedByVst s.cur) (hv : absentVreg s.cur d b) :
    illegalAt s s.cur (.vst d a b ta tb z o sc) (useOf s.cur (.vst d a b ta tb z o sc)) = some 0 := by
  refine (if_neg Bool.false_ne_true).trans ((if_neg ?_).trans (if_pos ?_))
  · rw [(hintAccepted_vst _).2 h]; exact Bool.false_ne_true
  · rw [(badVreg_vst hz _).2 hv]; rfl
theorem vst_legal (h : ¬refusedByVst s.cur) (hv : ¬absentVreg s.cur d b) :
    illegalAt s s.cur (.vst d a b ta tb z o sc) (useOf s.cur (.vst d a b ta tb z o sc)) = none := by
  refine (if_neg Bool.false_ne_true).trans ((if_neg ?_).trans (if_neg ?_))
  · rw [(hintAccepted_vst _).2 h]; exact Bool.false_ne_true
  · rw [Bool.eq_false_iff.2 fun e => hv ((badVreg_vst hz _).1 e)]; exact Bool.false_ne_true

theorem vst_names (t : Team) : (useOf t (.vst d a b ta tb z o sc)).src.map (·.1) ++ (useOf t (.vst d a b ta tb z o sc)).dst = [.s a, .v b, .v d] := by
  rw [vst_use hz]; rfl

section
variable (hl : ¬refusedByVst s.cur) (hv : ¬absentVreg s.cur d b)
include hl hv

/-- Step 3 at `vst`. -/
theorem vst_empty_a (ht : ta = true) (ha : s.cur.isFull (.s a) = false) :
    exec (.vst d a b ta tb z o sc) s = .next (trapAt (.vst d a b ta tb z o sc) 0x02 (fullMask s.cur.width) 0 s) := by
  refine word_empty (vst_legal hz hl hv) (n := 0) (r := .s a) ?_
  rw [vst_use hz]
  exact find_first ht ha
theorem vst_empty_b (ha : ta = true → ¬s.cur.isFull (.s a) = false) (ht : tb = true) (hb : s.cur.isFull (.v b) = false) :
    exec (.vst d a b ta tb z o sc) s = .next (trapAt (.vst d a b ta tb z o sc) 0x02 (fullMask s.cur.width) 1 s) := by
  refine word_empty (vst_legal hz hl hv) (n := 1) (r := .v b) ?_
  rw [vst_use hz]
  exact find_second (fun h => Bool.not_eq_false _ ▸ ha h) ht hb
/-- Step 4 at `vst`. -/
theorem vst_waits (ht : ¬(ta = true ∧ s.cur.isFull (.s a) = false ∨ tb = true ∧ s.cur.isFull (.v b) = false))
    (hf : ¬(¬s.cur.isFull (.s a) = false ∧ ¬s.cur.isFull (.v b) = false ∧ ¬s.cur.isFull (.v d) = false)) :
    ∃ ss vs, exec (.vst d a b ta tb z o sc) s = .next { s with cur := s.cur.toShelf (.regs ss vs) }
      ∧ (∀ r, r ∈ ss ↔ r = a ∧ s.cur.isFull (.s r) = false) ∧ ∀ r, r ∈ vs ↔ (r = b ∨ r = d) ∧ s.cur.isFull (.v r) = false := by
  have hfind : (useOf s.cur (.vst d a b ta tb z o sc)).src.find? (fun x => x.2.isSome && !s.cur.isFull x.1) = none := by
    rw [vst_use hz]
    refine find_neither (fun h => ?_) (fun h => ?_) (by simp only [List.forall_mem_singleton])
    · exact Bool.eq_true_of_not_eq_false fun e => ht (.inl ⟨h, e⟩)
    · exact Bool.eq_true_of_not_eq_false fun e => ht (.inr ⟨h, e⟩)
  obtain ⟨r, hr, he⟩ : ∃ r ∈ ([.s a, .v b, .v d] : List RegName), s.cur.isFull r = false := by
    by_contra h
    simp only [List.mem_cons, List.not_mem_nil, or_false, not_exists, not_and, forall_eq_or_imp, forall_eq] at h
    exact hf h
  refine ⟨_, _, word_waits (vst_legal hz hl hv) hfind ((vst_names hz s.cur).symm ▸ hr) he, fun r => mem_emptyScalars.trans ?_, fun r => mem_emptyVectors.trans ?_⟩
  · simp only [vst_names hz, List.mem_cons, List.not_mem_nil, or_false, RegName.s.injEq, reduceCtorEq]
  · simp only [vst_names hz, List.mem_cons, List.not_mem_nil, or_false, false_or, RegName.v.injEq, reduceCtorEq]

variable (hf : ¬s.cur.isFull (.s a) = false ∧ ¬s.cur.isFull (.v b) = false ∧ ¬s.cur.isFull (.v d) = false)
include hf

omit hl hv in
/-- Step 5 at `vst`: every register is full. -/
theorem vst_full : ∀ r ∈ (useOf s.cur (.vst d a b ta tb z o sc)).src.map (·.1) ++ (useOf s.cur (.vst d a b ta tb z o sc)).dst, s.cur.isFull r = true := by
  obtain ⟨ha, hb, hd⟩ := hf
  rw [vst_names hz]
  simp only [List.forall_mem_cons]
  exact ⟨Bool.eq_true_of_not_eq_false ha, Bool.eq_true_of_not_eq_false hb, Bool.eq_true_of_not_eq_false hd, List.forall_mem_nil _⟩
omit hl hv hf in
theorem vst_interlocked : s.cur.interlocked (useOf s.cur (.vst d a b ta tb z o sc)) = (s.cur.pending (.v b) || s.cur.pending (.v d)) := by
  rw [vst_use hz]
  simp only [Team.interlocked, List.any_cons, List.any_nil, Bool.or_false]
  rfl
theorem vst_busy (hb : (s.cur.pending (.v b) || s.cur.pending (.v d)) = true) : exec (.vst d a b ta tb z o sc) s = .next s :=
  word_busy (vst_legal hz hl hv) (vst_full hz hf) ((vst_interlocked hz).trans hb)

variable (hb : (s.cur.pending (.v b) || s.cur.pending (.v d)) = false)
include hb
omit hl hv hb in
theorem vst_poison : (useOf s.cur (.vst d a b ta tb z o sc)).src.any (fun x => s.cur.isPoisoned x.1) = true
    ↔ (s.cur.sreg a).poison = true ∨ (s.cur.vreg b).poison = true ∨ (s.cur.vreg d).poison = true := by
  obtain ⟨ha, hb, hd⟩ := hf
  have ha : (s.cur.sreg a).full = true := Bool.eq_true_of_not_eq_false ha
  have hb : (s.cur.vreg b).full = true := Bool.eq_true_of_not_eq_false hb
  have hd : (s.cur.vreg d).full = true := Bool.eq_true_of_not_eq_false hd
  rw [vst_use hz]
  simp only [List.any_cons, List.any_nil, Team.isPoisoned, ha, hb, hd, Bool.true_and, Bool.or_false, Bool.or_eq_true]
theorem vst_kills (hp : (s.cur.sreg a).poison = true ∨ (s.cur.vreg b).poison = true ∨ (s.cur.vreg d).poison = true) :
    exec (.vst d a b ta tb z o sc) s = .next (killTeam s.cur.id s) :=
  word_poisoned (vst_legal hz hl hv) (vst_full hz hf) ((vst_interlocked hz).trans hb) ((vst_poison hz hf).2 hp)
theorem vst_ready (hp : ¬((s.cur.sreg a).poison = true ∨ (s.cur.vreg b).poison = true ∨ (s.cur.vreg d).poison = true)) :
    ready (.vst d a b ta tb z o sc) s = true :=
  ready_of_full (vst_legal hz hl hv) (vst_full hz hf) ((vst_interlocked hz).trans hb)
    (Bool.eq_false_iff.2 fun e => hp ((vst_poison hz hf).1 e))
end

omit hz in
/-- Step 6 at `vst`: the lanes whose location is misaligned, or whose key gives no right to write. -/
theorem vst_locations (h : ready (.vst d a b ta tb z o sc) s = true) :
    let lanes := (List.range s.cur.width).filter s.cur.act
    let mis := lanes.filter fun l => decide (vaOf (s.cur.lanePtr a b l) % szBytes z ≠ 0)
    let bad := lanes.filter fun l => decide (pktOf s.cur.part (keyOf (s.cur.lanePtr a b l)) s &&& 2 ≠ 2)
    (mis ≠ [] → exec (.vst d a b ta tb z o sc) s = .next (trapAt (.vst d a b ta tb z o sc) 0x05 (maskOfLanes mis) 0 s))
    ∧ (mis = [] → bad ≠ [] → exec (.vst d a b ta tb z o sc) s = .next (trapAt (.vst d a b ta tb z o sc) 0x09 (maskOfLanes bad) (w64 (2 ^ 63)) s)) := by
  intro lanes mis bad
  obtain ⟨hmis, hbad, -, -⟩ := issueAccess_accesses (s := s) (i := .vst d a b ta tb z o sc) (F := fun s => vecAccs s.cur d a b z) rfl h
  have hl (p : Acc → Bool) := lanes_of_accs (fun l =>
    { lane := l, ptr := s.cur.lanePtr a b l, size := szBytes z, data := s.cur.laneData d z l }) p (fun _ => rfl) lanes
  have hn (p : Acc → Bool) {q : List Nat} (e : ((vecAccs s.cur d a b z).filter p).map (·.lane) = q) :
      (vecAccs s.cur d a b z).filter p = [] ↔ q = [] := by rw [← e, List.map_eq_nil_iff]
  have em := hl fun a => decide (vaOf a.ptr % a.size ≠ 0)
  have eb := hl fun a => decide (pktOf s.cur.part (keyOf a.ptr) s &&& 2 ≠ 2)
  refine ⟨fun h1 => (hmis (mt (hn _ em).1 h1)).trans ?_, fun h1 h2 => (hbad ((hn _ em).2 h1) (mt (hn _ eb).1 h2)).trans ?_⟩
  · exact congrArg (fun q => Host.Outcome.next (trapAt (.vst d a b ta tb z o sc) 0x05 (maskOfLanes q) 0 s)) em
  · exact congrArg (fun q => Host.Outcome.next (trapAt (.vst d a b ta tb z o sc) 0x09 (maskOfLanes q) (w64 (2 ^ 63)) s)) eb
end

/-- R267: a word of an absent group passes the tests. -/
theorem extension_ready {g : BitVec 8} {b : BitVec 18} (hg : g ≠ 0) (hx : bit (ctlRaw (.feat (g.toNat / 64)) s) (g.toNat % 64) = false) :
    ready (.extensionWord g b) s = true := by
  have ha : absentGroup s (.extensionWord g b) = true := by
    rw [show absentGroup s (.extensionWord g b) = (g != 0 && !bit (ctlRaw (.feat (g.toNat / 64)) s) (g.toNat % 64)) from rfl, hx, bne_iff_ne.2 hg]
    rfl
  refine ready_of_full (if_pos ha) (List.forall_mem_nil _) rfl rfl

/-- Settles O29. -/
theorem issuingWords : Obligations.IssuingWords := by
  refine ⟨fun s d a b ta tb => ⟨fun h => word_illegal (sadd_illegal h), fun hl ht ha => word_empty (sadd_legal hl) (find_first ht ha),
    fun hl ha ht hb => word_empty (sadd_legal hl) (find_second ha ht hb), sadd_waits, sadd_kills, sadd_issues⟩,
    fun s d a b ta tb z o sc hz => ⟨fun h => word_illegal (vst_illegal h), fun h hv => word_illegal (vst_absent hz h hv),
      fun hl => vst_empty_a hz hl.1 hl.2, fun hl => vst_empty_b hz hl.1 hl.2, fun hl => vst_waits hz hl.1 hl.2,
      fun hl => vst_busy hz hl.1 hl.2, fun hl => vst_kills hz hl.1 hl.2, fun hl hf hb hp => ?locations⟩, ?extension, fun s i pc => ?issues⟩
  case locations =>
    have h := vst_locations (vst_ready (d := d) (a := a) (b := b) (ta := ta) (tb := tb) (o := o) (sc := sc) hz hl.1 hl.2 hf hb hp)
    cases z with
    | b64 => exact absurd rfl hz
    | b8 | b16 | b32 => exact h
  case extension =>
    intro s g b hg hx hh hd
    exact extension_traps (extension_ready hg hx) hh hd
  case issues =>
    obtain ⟨ls, hls, hl⟩ := retire_state s.cur i false pc s
    obtain ⟨hpc, hsig, hbusy, hhint, hk0, hre, hteam, hk⟩ := retire_team s.cur s.cur i false pc s.ck
    exact ⟨_, congrArg Host.Outcome.next hls, hpc, hsig, hbusy, hhint, hk0, hre, hteam, hk, rfl, hl⟩
end

end Sys2Proof.Proofs
end

section
/-! SUPPORT. Queue interfaces, their packets and tables (R36 to R46). -/

namespace Sys2Proof.Proofs
open Sys2Proof Sys2Proof.Machine Sys2Proof.Safety Sys2Proof.Laws

section
variable {s : State}

/-! ## Interrupts -/

/-- R45, R46: what raising an event may change: the pending bits and messages. -/
theorem sendMsix_eq (pf v : Nat) (s : State) : ∃ p m, sendMsix pf v s = { s with msixPend := p, msixSent := m } := by
  unfold sendMsix
  dsimp only
  split
  · exact ⟨_, _, rfl⟩
  · exact ⟨_, _, rfl⟩
theorem raiseEvent_eq (q e : Nat) (s : State) : ∃ c p m, raiseEvent q e s = { s with ctl := c, msixPend := p, msixSent := m } := by
  unfold raiseEvent
  dsimp only
  split
  · exact ⟨_, _, _, rfl⟩
  · split
    · exact ⟨_, _, _, rfl⟩
    · obtain ⟨p, m, h⟩ := sendMsix_eq (ctlFld (.irqMap q e) 11 3 s) (ctlFld (.irqMap q e) 0 11 s) s
      exact ⟨_, p, m, h⟩
/-- R41: what a rejection leaves of the interface. -/
theorem qifOf_rejectPacket (i q c : Nat) (s : State) : qifOf i (rejectPacket i q c s) =
    { qifOf i s with err := true, ecode := if (qifOf i s).err then (qifOf i s).ecode else c, rejected := min 65535 ((qifOf i s).rejected + 1) } := by
  unfold rejectPacket
  obtain ⟨_, _, _, h⟩ := raiseEvent_eq q 1 (modQif i (fun x =>
    { x with ecode := if x.err then x.ecode else c, err := true, rejected := min 0xFFFF (x.rejected + 1) }) s)
  rw [h]
  exact (qifOf_modQif_same i (fun x =>
    { x with ecode := if x.err then x.ecode else c, err := true, rejected := min 0xFFFF (x.rejected + 1) }) s :)

/-! ## Ordering after posted writes (R44) -/

section
variable {rid : Nat} {waited : Bool} {again : Instr} {k : State → State}

theorem afterPosted_first (hw : waited = true) (hp : postedWaits rid s = true) : afterPosted rid waited again k s = { s with agenda := again :: s.agenda } := by
  rw [afterPosted, if_pos hw, if_pos hp]
theorem afterPosted_behind (hw : waited = false) (hp : postedWaits rid s = true ∨ s.agenda.any (waitsFor rid) = true) :
    afterPosted rid waited again k s = cause again s := by
  rw [afterPosted, if_neg (by rw [hw]; exact Bool.false_ne_true), if_pos (by rw [Bool.or_eq_true]; exact hp)]
theorem afterPosted_clear (hp : postedWaits rid s = false) (hq : waited = true ∨ s.agenda.any (waitsFor rid) = false) :
    afterPosted rid waited again k s = k s := by
  unfold afterPosted
  rw [hp]
  cases waited with
  | true => rfl
  | false =>
    have h : s.agenda.any (waitsFor rid) = false := hq.resolve_left Bool.false_ne_true
    rw [h]; rfl
end

/-! ## Pushes (R37, R41 to R43) -/

/-- R37: what a push that waits for nothing does. -/
def pushed (w : NotifyWrite) (s : State) : State :=
  (qifAt w.pf w.slot s).elim s fun i => if w.off < 0x40 && s.cond != .fatal then pushPacket i w s else s
theorem notifyPush_clear {w : NotifyWrite} (ha : awake s = true)
    (hc : w.ro = true ∨ postedWaits w.rid s = false ∧ (w.waited = true ∨ s.agenda.any (waitsFor w.rid) = false)) :
    exec (.notifyPush w) s = .next (pushed w s) := by
  show execNotifyPush w s = _
  unfold execNotifyPush pushed
  rw [event_awake ha]
  by_cases hr : w.ro = true
  · simp only [if_pos hr]
    generalize qifAt w.pf w.slot s = x
    cases x <;> rfl
  · obtain ⟨hp, hq⟩ := hc.resolve_left hr
    simp only [if_neg hr, afterPosted_clear hp hq]
    generalize qifAt w.pf w.slot s = x
    cases x <;> rfl
theorem notifyPush_first {w : NotifyWrite} (ha : awake s = true) (hr : w.ro = false) (hw : w.waited = true) (hp : postedWaits w.rid s = true) :
    exec (.notifyPush w) s = .next { s with agenda := .notifyPush { w with waited := true } :: s.agenda } := by
  show execNotifyPush w s = _
  unfold execNotifyPush
  rw [event_awake ha]
  simp only [hr, Bool.false_eq_true, if_false, afterPosted_first hw hp]
theorem notifyPush_behind {w : NotifyWrite} (ha : awake s = true) (hr : w.ro = false) (hw : w.waited = false)
    (hp : postedWaits w.rid s = true ∨ s.agenda.any (waitsFor w.rid) = true) :
    exec (.notifyPush w) s = .next { s with agenda := s.agenda ++ [.notifyPush { w with waited := true }] } := by
  show execNotifyPush w s = _
  unfold execNotifyPush
  rw [event_awake ha]
  simp only [hr, Bool.false_eq_true, if_false, afterPosted_behind hw hp]
  rfl
theorem pushed_enabled {w : NotifyWrite} {i : Nat} (hi : qifAt w.pf w.slot s = some i) (hf : s.cond ≠ .fatal) (ho : w.off < 0x40) :
    pushed w s = pushPacket i w s := by
  unfold pushed
  rw [hi]
  exact if_pos (by rw [decide_eq_true ho, bne_iff_ne.2 hf]; rfl)

section
variable {w : NotifyWrite} {i : Nat}

/-- R41: a push of the right shape, from a requester that may make it, within the window of 64. -/
def pushShaped (w : NotifyWrite) : Prop := w.off = 0 ∧ w.bytes.length = 64 ∧ w.allEnables = true
def pushAllowed (i : Nat) (w : NotifyWrite) (s : State) : Prop :=
  let cfg := ctlRaw (.qifCfg i) s
  (w.rid = Config.hostRid ∨ cfg.getLsbD 35 = true ∧ w.rid = cfg.toNat / 2 ^ 36 % 2 ^ 16) ∧ (partOf (cfg.toNat / 2 ^ 4 % 2 ^ 6) s).resetting = false
def pushInWindow (i : Nat) (w : NotifyWrite) (s : State) : Prop := (pkSeq w.bytes + 65536 - (qifOf i s).done) % 65536 < 64
def pushNear (i : Nat) (w : NotifyWrite) (s : State) : Prop :=
  (pkSeq w.bytes + 65536 - (qifOf i s).next) % 65536 ≤ 7 ∧ ∀ h ∈ (qifOf i s).held, h.seq ≠ pkSeq w.bytes
/-- The owner of the interface. -/
def qifOwner (i : Nat) (s : State) : Nat := (ctlRaw (.qifCfg i) s).toNat / 2 ^ 4 % 2 ^ 6

theorem pushShaped_iff : pushShaped w ↔ ¬(w.off ≠ 0 ∨ w.bytes.length ≠ 64 ∨ (!w.allEnables) = true) := by
  rw [pushShaped, Bool.not_eq_true', ← Bool.not_eq_true]
  tauto
theorem pushAllowed_iff : pushAllowed i w s ↔ ¬(!(w.rid == Config.hostRid || (bit (ctlRaw (.qifCfg i) s) 35 && w.rid == fld (ctlRaw (.qifCfg i) s) 36 16))
    || (partOf (qifOwner i s) s).resetting) = true := by
  simp only [Bool.or_eq_true, Bool.not_eq_true', Bool.and_eq_true, beq_iff_eq, not_or, Bool.not_eq_true, Bool.not_eq_false]
  rfl
theorem pushNear_iff : pushNear i w s ↔ ¬(7 < (pkSeq w.bytes + 65536 - (qifOf i s).next) % 65536
    ∨ ((qifOf i s).held.any fun p => p.seq == pkSeq w.bytes) = true) := by
  rw [pushNear, not_or, Nat.not_lt, List.any_eq_true]
  simp only [beq_iff_eq, not_exists, not_and]

/-- R41: the four rejections of a push, in their order. -/
theorem push_misshaped (h : ¬pushShaped w) : pushPacket i w s = rejectPacket i (qifOwner i s) 8 s := by
  rw [pushShaped_iff, not_not] at h
  exact if_pos h
section
variable (hs : pushShaped w)
include hs
theorem push_foreign (h : ¬pushAllowed i w s) : pushPacket i w s = rejectPacket i (qifOwner i s) 7 s := by
  rw [pushAllowed_iff, not_not] at h
  exact (if_neg (pushShaped_iff.1 hs)).trans (if_pos h)
variable (hl : pushAllowed i w s)
include hl
theorem push_outside (h : ¬pushInWindow i w s) : pushPacket i w s = rejectPacket i (qifOwner i s) 6 s :=
  (if_neg (pushShaped_iff.1 hs)).trans ((if_neg (pushAllowed_iff.1 hl)).trans (if_pos (Nat.not_lt.1 h)))
variable (hw : pushInWindow i w s)
include hw
theorem push_far (h : ¬pushNear i w s) : pushPacket i w s = rejectPacket i (qifOwner i s) 3 s := by
  rw [pushNear_iff, not_not] at h
  exact (if_neg (pushShaped_iff.1 hs)).trans ((if_neg (pushAllowed_iff.1 hl)).trans ((if_neg (Nat.not_le.2 hw)).trans (if_pos h)))
omit hs hl hw in
/-- R42: with nothing held nothing more is taken. -/
theorem takeHeld_nil (cfg : W64) (n : Nat) {x : Qif} (h : x.held = []) : takeHeld cfg n x = x := by
  cases n with
  | zero => rfl
  | succ n => rw [takeHeld, h]; rfl
omit hs hl hw in
/-- A change of an interface, by what it does to it as it stands. -/
theorem modQif_congr {f g : Qif → Qif} (h : f (qifOf i s) = g (qifOf i s)) : modQif i f s = modQif i g s := by
  rw [modQif, modQif, h]
/-- R42, R43: the next packet in sequence, with nothing held, is taken. -/
theorem push_next (hn : pkSeq w.bytes = (qifOf i s).next) (hh : (qifOf i s).held = []) (hc : pkCode w.bytes ((ctlRaw (.qifCfg i) s).toNat / 2 ^ 31 % 2 ^ 4) = none) :
    pushPacket i w s = pumpQif i (modQif i (fun y => { y with
        next := (pkSeq w.bytes + 1) % 65536, done := (pkSeq w.bytes + 1) % 65536
        taken := y.taken ++ [takePacket (ctlRaw (.qifCfg i) s) { seq := pkSeq w.bytes, num := (qifOf i s).count, bytes := w.bytes }] })
      (modQif i (fun x => { x with count := x.count + 1 }) s)) := by
  have hd : (pkSeq w.bytes + 65536 - (qifOf i s).next) % 65536 = 0 := by rw [hn, Nat.add_sub_cancel_left]
  have hnear : pushNear i w s := ⟨by rw [hd]; exact Nat.zero_le _, by rw [hh]; exact List.forall_mem_nil _⟩
  have hc' : pkCode w.bytes (fld (ctlRaw (.qifCfg i) s) 31 4) = none := hc
  refine (if_neg (pushShaped_iff.1 hs)).trans ((if_neg (pushAllowed_iff.1 hl)).trans ((if_neg (Nat.not_le.2 hw)).trans ((if_neg (pushNear_iff.1 hnear)).trans ?_)))
  simp only [hc', hd]
  rw [if_neg (not_not.2 rfl)]
  refine congrArg (pumpQif i) (modQif_congr (takeHeld_nil _ 8 ?_))
  rw [qifOf_modQif_same]
  exact hh
end
end
end

/-- Settles O36. -/
theorem notifyPushes : Obligations.NotifyPushes := by
  refine ⟨fun s w i ha => ⟨notifyPush_first ha, notifyPush_behind ha, fun hc hi => ?none, fun hc hi hf ho => ?some⟩, fun s i q c => ⟨qifOf_rejectPacket i q c s, _, rfl, rfl⟩⟩
  case none =>
    rw [notifyPush_clear ha hc]
    unfold pushed
    rw [hi, Option.elim_none]
  case some =>
    have h := notifyPush_clear ha hc
    rw [pushed_enabled hi hf ho] at h
    exact ⟨fun h1 => h.trans (congrArg _ (push_misshaped h1)), fun h1 h2 => h.trans (congrArg _ (push_foreign h1 h2)),
      fun h1 h2 h3 => h.trans (congrArg _ (push_outside h1 h2 h3)), fun h1 h2 h3 h4 => h.trans (congrArg _ (push_far h1 h2 h3 h4)),
      fun h1 h2 h3 h4 h5 h6 => h.trans (congrArg _ (push_next h1 h2 h3 h4 h5 h6))⟩

end Sys2Proof.Proofs
end

section
/-! SUPPORT. Request packets (R40) and the tables of the host interface (R36 to R38, R44, R46). -/

namespace Sys2Proof.Proofs
open Sys2Proof Sys2Proof.Machine Sys2Proof.Safety Sys2Proof.Laws

section
variable {s : State}

/-! ## Request packets -/

section
variable {i num : Nat} {p : QPkt}

/-- A packet that is among those taken has the number it is found under. -/
theorem packetOfQif_num (hp : packetOfQif i num s = some p) : p.num = num := by
  have h := List.find?_some hp
  rw [Bool.and_eq_true, beq_iff_eq] at h
  exact h.1
/-- R40: the note of a packet under its number. -/
theorem modPacket_eq (f : QPkt → QPkt) (u : State) :
    modPacket i num f u = modQif i (fun x => { x with taken := x.taken.map fun q => if q.num = num then f q else q }) u := by
  unfold modPacket updWhere
  simp only [beq_iff_eq]
/-- R40: the location of a packet and the right it needs there (bit `k` of the key). -/
def packetAllowed (p : QPkt) (k : Nat) (s : State) : Prop :=
  vaOf (pkAddr p.bytes) % 8 = 0 ∧ (pktOf p.part (keyOf (pkAddr p.bytes)) s).getLsbD k = true
theorem packetAllowed_iff (p : QPkt) (k : Nat) :
    ¬packetAllowed p k s ↔ vaOf (pkAddr p.bytes) % 8 ≠ 0 ∨ (!(pktOf p.part (keyOf (pkAddr p.bytes)) s).getLsbD k) = true := by
  rw [packetAllowed, not_and_or, Bool.not_eq_true', Bool.not_eq_true]

variable (ha : awake s = true) (hp : packetOfQif i num s = some p)
include ha hp

theorem requestLaunch_issues : exec (.requestLaunch i num) s = .next { s with
    nextId := s.nextId + 1
    launches := s.launches ++ [{ id := s.nextId, part := p.part, record := pkAddr p.bytes, origin := .qif i num }]
    agenda := s.agenda ++ [.recordRead s.nextId] } := by
  show execRequestLaunch i num s = _
  unfold execRequestLaunch
  rw [event_awake ha]
  simp only [hp]
  rfl
theorem requestWrite_fails (hst : p.state ≠ 2) (h : ¬packetAllowed p 1 s) : exec (.requestWrite i num) s = .next (failPacket i num s) := by
  show execRequestWrite i num s = _
  unfold execRequestWrite
  rw [event_awake ha]
  simp only [hp, if_neg hst, if_pos ((packetAllowed_iff p 1).1 h)]
theorem requestWrite_writes (hst : p.state ≠ 2) (h : packetAllowed p 1 s) {m : AckMsg} {u : State}
    (hu : lfeAccess (lfeReq (packetAgent i p s).1 p.part .write .rel (pkAddr p.bytes)
      [{ lane := 0, off := vaOf (pkAddr p.bytes) % 64, size := 8, data := pkValue p.bytes }]) (packetAgent i p s).2 = (.ack m, u)) :
    exec (.requestWrite i num) s = .next (cause (.requestWrite i num) (modPacket i num (fun q => { q with state := 2 }) u)) := by
  show execRequestWrite i num s = _
  unfold execRequestWrite
  rw [event_awake ha]
  simp only [hp, if_neg hst, if_neg (mt (packetAllowed_iff p 1).2 (not_not.2 h)), hu]
theorem requestWrite_completes (hst : p.state = 2) {u : State} (hu : drainRemote p.part s = (true, u)) :
    exec (.requestWrite i num) s = .next (completePacket i num u) := by
  show execRequestWrite i num s = _
  unfold execRequestWrite
  rw [event_awake ha]
  simp only [hp, if_pos hst, hu, if_true]
theorem requestWait_fails (h : ¬packetAllowed p 0 s) : exec (.requestWait i num) s = .next (failPacket i num s) := by
  show execRequestWait i num s = _
  unfold execRequestWait waitPacket
  rw [event_awake ha]
  simp only [hp, if_pos ((packetAllowed_iff p 0).1 h)]
theorem requestWait_completes (h : packetAllowed p 0 s) (hm : p.mon = 0) {r : Rsp} {u : State}
    (hu : let armed := packetAgent i p (bumpSystem s)
      lfeAccess (lfeReq armed.1 p.part (.monitor .ge) .acq (pkAddr p.bytes)
        [{ lane := 0, off := vaOf (pkAddr p.bytes) % 64, size := 8, data := pkValue p.bytes }])
        { armed.2 with monitors := armed.2.monitors.filter fun m => m.id != armed.1 } = (.data r, u))
    (hv : pkValue p.bytes ≤ r.vals.headD 0) : exec (.requestWait i num) s = .next (completePacket i num u) := by
  have hc : condHolds .ge (r.vals.headD 0) (pkValue p.bytes) = true := by
    rw [condHolds, decide_eq_true_iff]
    exact hv
  show execRequestWait i num s = _
  unfold execRequestWait waitPacket
  rw [event_awake ha]
  simp only [hp, if_neg (mt (packetAllowed_iff p 0).2 (not_not.2 h)), if_pos hm]
  simp only at hu
  rw [hu]
  simp only [hc, if_true]
end

/-- Settles O37. -/
theorem requestPackets : Obligations.RequestPackets := by
  intro s i num p a rights fails item write read note agent launch ha hp
  have hag : ∀ u, agent u = packetAgent i p u := by
    intro u
    simp only [packetAgent, packetOfQif_num hp, modPacket_eq]
    rfl
  have hn (k : Nat) : (vaOf a % 8 ≠ 0 ∨ rights.getLsbD k = false) → ¬packetAllowed p k s := fun h e =>
    h.elim (fun n => n e.1) fun n => Bool.false_ne_true (n.symm.trans e.2)
  refine ⟨event_awake ha, requestLaunch_issues ha hp, fun hst h => requestWrite_fails ha hp hst (hn 1 h), fun hst h1 h2 m u hu => ?write,
    fun hst u hu => requestWrite_completes ha hp hst hu, fun h => requestWait_fails ha hp (hn 0 h), fun h1 h2 hm r u hu hv => ?wait⟩
  case write =>
    rw [hag] at hu
    rw [requestWrite_writes ha hp hst ⟨h1, h2⟩ hu, modPacket_eq]
  case wait =>
    rw [hag] at hu
    exact requestWait_completes ha hp ⟨h1, h2⟩ hm hu hv

/-! ## Status words -/

section
variable {pf slot off n rid : Nat} {waited : Bool} (ha : awake s = true)
include ha

/-- R37: what a status read that waits for nothing answers. -/
theorem statusRead_answers (hp : postedWaits rid s = false) (hq : waited = true ∨ s.agenda.any (waitsFor rid) = false) :
    exec (.notifyStatusRead pf slot off n { rid := rid, waited := waited }) s = .next { s with hostOut := s.hostOut ++ [(2 * 2 ^ 64 + rid,
      (List.range n).map fun k => if 0x40 ≤ off + k ∧ off + k < 0x48
        then (bytesOfNat 8 ((qifAt pf slot s).elim 0 fun i => (ctlRead (.qifSt i) s).toNat)).getD (off + k - 0x40) 0 else 0)] } := by
  show execNotifyStatusRead pf slot off n { rid := rid, waited := waited } s = _
  unfold execNotifyStatusRead
  rw [event_awake ha]
  simp only [afterPosted_clear hp hq]
theorem statusRead_first (hw : waited = true) (hp : postedWaits rid s = true) :
    exec (.notifyStatusRead pf slot off n { rid := rid, waited := waited }) s
      = .next { s with agenda := .notifyStatusRead pf slot off n { rid := rid, waited := true } :: s.agenda } := by
  show execNotifyStatusRead pf slot off n { rid := rid, waited := waited } s = _
  unfold execNotifyStatusRead
  rw [event_awake ha]
  simp only [afterPosted_first hw hp]
theorem statusRead_behind (hw : waited = false) (hp : postedWaits rid s = true ∨ s.agenda.any (waitsFor rid) = true) :
    exec (.notifyStatusRead pf slot off n { rid := rid, waited := waited }) s
      = .next { s with agenda := s.agenda ++ [.notifyStatusRead pf slot off n { rid := rid, waited := true }] } := by
  show execNotifyStatusRead pf slot off n { rid := rid, waited := waited } s = _
  unfold execNotifyStatusRead
  rw [event_awake ha]
  simp only [afterPosted_behind hw hp]
  rfl
end

/-! ## Configuration of interfaces (R36, R38) -/

/-- Another enabled interface has the page that a configuration names. -/
def pageTaken (i : Nat) (v : W64) (s : State) : Bool :=
  (List.range 1024).any fun j => j != i && (let c := ctlRaw (.qifCfg j) s; bit c 3 && fld c 0 3 == fld v 0 3 && fld c 10 10 == fld v 10 10)
theorem pageTaken_iff (i : Nat) (v : W64) : pageTaken i v s = true ↔ ∃ j, j < 1024 ∧ j ≠ i ∧ (ctlRaw (.qifCfg j) s).getLsbD 3 = true
    ∧ ((ctlRaw (.qifCfg j) s).toNat % 2 ^ 3, (ctlRaw (.qifCfg j) s).toNat / 2 ^ 10 % 2 ^ 10) = (v.toNat % 2 ^ 3, v.toNat / 2 ^ 10 % 2 ^ 10) := by
  simp only [pageTaken, List.any_eq_true, List.mem_range, Bool.and_eq_true, bne_iff_ne, beq_iff_eq, Prod.mk.injEq, fld_low, and_assoc]
  rfl
/-- R36: a configuration is refused: it enables the interface, and its page or its vectors are taken. -/
def cfgRefused (i : Nat) (v : W64) (s : State) : Bool := bit v 3 && (pageTaken i v s || !windowOk v)

theorem writeQifCfg_eq (i : Nat) (v : W64) (s : State) : writeQifCfg i v s =
    let old := ctlRaw (.qifCfg i) s
    let new := ctlMerge (.qifCfg i) old v
    let bad := cfgRefused i new s
    let u := ctlPut (.qifCfg i) (if bad then new &&& ~~~8 else new) (if bad then ctlSetFld .qifCfgerr 0 1 1 s else s)
    if bit new 3 && !bad then (if bit old 3 then u else modQif i (fun x => { x with next := 0, done := 0 }) u)
    else modQif i (fun x => { x with held := [] }) u := rfl

theorem qifConfig_refused {i : Nat} {v : W64} (ha : awake s = true) (h : cfgRefused i (ctlMerge (.qifCfg i) (ctlRaw (.qifCfg i) s) v) s = true) :
    exec (.qifConfigWrite i v) s = .next (modQif i (fun x => { x with held := [] })
      (ctlPut (.qifCfg i) (ctlMerge (.qifCfg i) (ctlRaw (.qifCfg i) s) v &&& ~~~8) (ctlSetFld .qifCfgerr 0 1 1 s))) := by
  show execQifConfigWrite i v s = _
  unfold execQifConfigWrite
  rw [event_awake ha, writeQifCfg_eq]
  simp only [h, if_true, Bool.not_true, Bool.and_false, Bool.false_eq_true, if_false]
theorem qifConfig_off {i : Nat} {v : W64} (ha : awake s = true) (h : (ctlMerge (.qifCfg i) (ctlRaw (.qifCfg i) s) v).getLsbD 3 = false) :
    exec (.qifConfigWrite i v) s = .next (modQif i (fun x => { x with held := [] })
      (ctlPut (.qifCfg i) (ctlMerge (.qifCfg i) (ctlRaw (.qifCfg i) s) v) s)) := by
  have hb : bit (ctlMerge (.qifCfg i) (ctlRaw (.qifCfg i) s) v) 3 = false := h
  show execQifConfigWrite i v s = _
  unfold execQifConfigWrite
  rw [event_awake ha, writeQifCfg_eq]
  simp only [cfgRefused, hb, Bool.false_and, Bool.false_eq_true, if_false]
theorem qifConfig_enables {i : Nat} {v : W64} (ha : awake s = true) (h : (ctlMerge (.qifCfg i) (ctlRaw (.qifCfg i) s) v).getLsbD 3 = true)
    (hr : cfgRefused i (ctlMerge (.qifCfg i) (ctlRaw (.qifCfg i) s) v) s = false) :
    exec (.qifConfigWrite i v) s = .next (
      let u := ctlPut (.qifCfg i) (ctlMerge (.qifCfg i) (ctlRaw (.qifCfg i) s) v) s
      if (ctlRaw (.qifCfg i) s).getLsbD 3 then u else modQif i (fun x => { x with next := 0, done := 0 }) u) := by
  have hb : bit (ctlMerge (.qifCfg i) (ctlRaw (.qifCfg i) s) v) 3 = true := h
  show execQifConfigWrite i v s = _
  unfold execQifConfigWrite
  rw [event_awake ha, writeQifCfg_eq]
  simp only [hr, hb, Bool.not_false, Bool.and_true, Bool.false_eq_true, if_false, if_true]
  rfl

/-! ## Event maps (R46) -/

section
variable {q e : Nat} {v : W64} (ha : awake s = true)
include ha

/-- R46: an entry whose vector is reserved is not enabled. -/
theorem irqMap_reserved (h : let map := ctlMerge (.irqMap q e) (ctlRaw (.irqMap q e) s) v
      (map.toNat % 2 ^ 11 = 0 ∨ map.toNat / 2 ^ 11 % 2 ^ 3 = 0 ∧ map.toNat % 2 ^ 11 ≤ 3) ∧ map.getLsbD 16 = false) :
    exec (.irqMapWrite q e v) s = .next (ctlPut (.irqMap q e) (ctlMerge (.irqMap q e) (ctlRaw (.irqMap q e) s) v &&& ~~~0x4000) s) := by
  show execIrqMapWrite q e v s = _
  unfold execIrqMapWrite writeIrqMap
  rw [event_awake ha]
  dsimp only at h ⊢
  generalize ctlMerge (.irqMap q e) (ctlRaw (.irqMap q e) s) v = map at h ⊢
  obtain ⟨hr, hp⟩ := h
  have hb : bit (map &&& ~~~0x4000) 16 = false := by rw [bit, BitVec.getLsbD_and, hp, Bool.false_and]
  have hr' : fld map 0 11 = 0 ∨ fld map 11 3 = 0 ∧ fld map 0 11 ≤ 3 := by rw [fld_low]; exact hr
  simp only [if_pos hr', hb, Bool.false_and, Bool.false_eq_true, if_false]
/-- R46: any other entry is written, and its pending event sent once it may be. -/
theorem irqMap_written (h : let map := ctlMerge (.irqMap q e) (ctlRaw (.irqMap q e) s) v
      map.toNat % 2 ^ 11 ≠ 0 ∧ (map.toNat / 2 ^ 11 % 2 ^ 3 = 0 → 3 < map.toNat % 2 ^ 11)) :
    let map := ctlMerge (.irqMap q e) (ctlRaw (.irqMap q e) s) v
    exec (.irqMapWrite q e v) s = .next (if bit map 16 && bit map 14 && !bit map 15 then
      sendMsix (map.toNat / 2 ^ 11 % 2 ^ 3) (map.toNat % 2 ^ 11) (ctlSetFld (.irqMap q e) 16 1 0 (ctlPut (.irqMap q e) map s))
      else ctlPut (.irqMap q e) map s) := by
  show execIrqMapWrite q e v s = _
  unfold execIrqMapWrite writeIrqMap
  rw [event_awake ha]
  dsimp only at h ⊢
  generalize ctlMerge (.irqMap q e) (ctlRaw (.irqMap q e) s) v = map at h ⊢
  obtain ⟨h0, h3⟩ := h
  have hr : ¬(fld map 0 11 = 0 ∨ fld map 11 3 = 0 ∧ fld map 0 11 ≤ 3) := by
    rw [fld_low]
    exact fun h => h.elim h0 fun h => Nat.not_lt.2 h.2 (h3 h.1)
  simp only [if_neg hr]
  rw [fld_low]
  rfl
end

/-- Settles O38. -/
theorem hostTables : Obligations.HostTables := by
  intro s pf slot off n rid i q e waited v old new page taken good status map vector target writes queued later ha
  have hgood : new.getLsbD 3 = true → (good ↔ cfgRefused i new s = false) := fun h => by
    have hb : bit new 3 = true := h
    rw [cfgRefused, hb, Bool.true_and, Bool.or_eq_false_iff, ← Bool.not_eq_true, pageTaken_iff, Bool.not_eq_false']
  refine ⟨statusRead_answers ha, statusRead_first ha, statusRead_behind ha, fun h1 h2 h3 => ?starts, fun h1 h2 h3 => ?goesOn,
    fun h1 h2 => qifConfig_refused ha (Bool.eq_true_of_not_eq_false (mt (hgood h1).2 h2)), qifConfig_off ha, fun h1 h2 => irqMap_reserved ha ⟨h1, h2⟩,
    fun h1 h2 => ⟨fun h3 h4 h5 => ?sends, fun h3 => ?keeps⟩, ?time⟩
  case starts => rw [qifConfig_enables ha h1 ((hgood h1).1 h3), if_neg (by rw [h2]; exact Bool.false_ne_true)]
  case goesOn => rw [qifConfig_enables ha h1 ((hgood h1).1 h3), if_pos h2]
  case sends => exact (irqMap_written ha ⟨h1, h2⟩).trans (by rw [bit, bit, bit, h3, h4, h5]; rfl)
  case keeps => exact (irqMap_written ha ⟨h1, h2⟩).trans (by rw [bit, h3]; rfl)
  case time =>
    show execTimeWrite v s = _
    exact event_awake ha
end

end Sys2Proof.Proofs
end

section
/-! SUPPORT. Runs of bytes, and the pieces of an access by line (R3, R143, R338). -/

namespace Sys2Proof.Proofs
open Sys2Proof Sys2Proof.Machine Sys2Proof.Safety Sys2Proof.Laws

/-! ## Runs of bytes -/

/-- R3: a run of bytes, through the number it stands for. -/
theorem bytesOfNat_natOfBytes (bs : List Byte) : bytesOfNat bs.length (natOfBytes bs) = bs := by
  induction bs with
  | nil => rfl
  | cons b bs ih =>
    have hb := b.isLt
    have h : natOfBytes (b :: bs) = b.toNat + 256 * natOfBytes bs := rfl
    have h1 : BitVec.ofNat 8 (natOfBytes (b :: bs)) = b := by
      apply BitVec.eq_of_toNat_eq
      rw [BitVec.toNat_ofNat, h]
      omega
    have h2 : natOfBytes (b :: bs) / 256 = natOfBytes bs := by rw [h]; omega
    have h3 : bytesOfNat (b :: bs).length (natOfBytes (b :: bs))
      = BitVec.ofNat 8 (natOfBytes (b :: bs)) :: bytesOfNat bs.length (natOfBytes (b :: bs) / 256) := rfl
    rw [h3, h1, h2, ih]
/-- A run of memory, byte by byte. -/
theorem readN_eq_map (m : Memory) (a n : Nat) : m.readN a n = (List.range n).map fun i => m.read (a + i) := by
  induction n generalizing a with
  | zero => rfl
  | succ n ih =>
    rw [Memory.readN, ih, List.range_succ_eq_map, List.map_cons, List.map_map]
    simp only [Nat.add_zero, Function.comp_def, Nat.add_assoc, Nat.add_comm 1, Nat.succ_eq_add_one]
theorem readN_length (m : Memory) (a n : Nat) : (m.readN a n).length = n := by
  rw [readN_eq_map, List.length_map, List.length_range]
theorem getD_readN (m : Memory) (a n : Nat) {i : Nat} (h : i < n) : (m.readN a n).getD i 0 = m.read (a + i) := by
  rw [readN_eq_map, List.getD_eq_getElem?_getD, List.getElem?_map, List.getElem?_range h]
  rfl
/-- Part of a run of memory. -/
theorem sliceBytes_readN (m : Memory) (a : Nat) {n o k : Nat} (h : o + k ≤ n) : sliceBytes (m.readN a n) o k = m.readN (a + o) k := by
  rw [sliceBytes, readN_eq_map m (a + o)]
  refine List.map_congr_left fun i hi => ?_
  have hi := List.mem_range.1 hi
  rw [getD_readN _ _ _ (by omega), Nat.add_assoc]
theorem sliceBytes_length (bs : List Byte) (o k : Nat) : (sliceBytes bs o k).length = k := by rw [sliceBytes, List.length_map, List.length_range]
/-- A whole list is its own slice. -/
theorem sliceBytes_self (bs : List Byte) : sliceBytes bs 0 bs.length = bs := by
  refine List.ext_getElem (sliceBytes_length _ _ _) fun i h1 h2 => ?_
  simp only [sliceBytes, List.getElem_map, List.getElem_range, Nat.zero_add]
  exact List.getD_eq_getElem _ _ h2
theorem putBytes_length (bs : List Byte) (o : Nat) (new : List Byte) : (putBytes bs o new).length = bs.length := List.length_mapIdx
theorem getD_putBytes (bs : List Byte) (o : Nat) (new : List Byte) {i : Nat} (h : i < bs.length) :
    (putBytes bs o new).getD i 0 = if o ≤ i ∧ i < o + new.length then new.getD (i - o) (bs.getD i 0) else bs.getD i 0 := by
  rw [putBytes, List.getD_eq_getElem?_getD, List.getElem?_mapIdx, List.getElem?_eq_getElem h, List.getD_eq_getElem _ _ h]
  rfl

/-! ## Pointers without a key -/

/-- An address below 2^56 as a pointer. -/
theorem w64_toNat {n : Nat} (h : n < 2 ^ 64) : (w64 n).toNat = n := (BitVec.toNat_ofNat n 64).trans (Nat.mod_eq_of_lt h)
theorem vaOf_w64 {n : Nat} (h : n < 2 ^ 56) : vaOf (w64 n) = n := by
  rw [vaOf, w64_toNat (by omega), Nat.mod_eq_of_lt h]
theorem ptrAdd_w64_zero {n : Nat} (h : n < 2 ^ 56) : ptrAdd (w64 n) 0 = w64 n := by
  have hk : keyOf (w64 n) = 0 := by
    rw [keyOf, w64_toNat (by omega), Nat.div_eq_of_lt h]; rfl
  have hz : (((n : Int) + 0) % 2 ^ 56).toNat = n := by omega
  rw [ptrAdd, mkPtr, hk, vaOf_w64 h, hz]
  rw [Nat.mod_eq_of_lt h, show (0 : Byte).toNat = 0 from rfl, Nat.zero_mul, Nat.zero_add]
/-- R338: an access within one line is one piece. -/
theorem pieces_one {a n : Nat} (ha : a < 2 ^ 56) (hn : 0 < n) (h : a % 64 + n ≤ 64) : pieces (w64 a) n = [(w64 a, 0, n)] := by
  have h0 : ptrAdd (w64 a) ((0 : Nat) : Int) = w64 a := ptrAdd_w64_zero ha
  have hk : min (n - 0) (64 - a % 64) = n := by omega
  have hrest : linePieces (w64 a) n (n / 64 + 1) (0 + n) = [] := by rw [linePieces, if_pos (by omega)]
  rw [pieces, linePieces, if_neg (by omega)]
  dsimp only
  rw [h0, vaOf_w64 ha, hk, hrest]

end Sys2Proof.Proofs
end

section
/-! SUPPORT. The host's accesses to device memory, completions of the host link, and bias flips (R47 to R53). -/

namespace Sys2Proof.Proofs
open Sys2Proof Sys2Proof.Machine Sys2Proof.Safety Sys2Proof.Laws

/-! ## The host's accesses (R52) -/

section Access
variable {s : State}

/-- No request is sent with one that stands alone. -/
theorem markSent_nil (v : State) : markSent [] v = v := by
  have h : updWhere (fun x : LsuEnt => ([] : List LsuEnt).any fun y => y.id == x.id) (fun x => { x with phase := .sent }) v.lsu = v.lsu := List.map_id _
  rw [markSent, h]
/-- A request of the host that is answered at once is delivered, and nothing waits with it. -/
theorem handle_host {r : Req} {a : Ans} {u : State} (hr : r.agent = .host) (h : hostServe r s = (a, u)) (hl : a ≠ .later) :
    handle r s = deliver r a u := by
  have hsib : siblings r (deliver r a u) = [] := by rw [siblings, hr]; rfl
  rw [handle, hr]
  simp only [beq_self_eq_true, if_true, h]
  cases a with
  | later => exact absurd rfl hl
  | data _ => rw [hsib]; exact markSent_nil _
  | ack _ => rw [hsib]; exact markSent_nil _
  | nack _ => rw [hsib]; exact markSent_nil _
/-- R50: at a place that no line stands for, with no flip and every Flue link up, the access is carried out on the bytes of memory. -/
theorem hostServe_memory {r : Req} (hb : s.biasOp = none) (hf : s.flueDown = []) (hl : ∀ x ∈ s.lines, x.place ≠ .hbm (r.ptr.toNat / 64 * 64)) :
    hostServe r s = let x := runItems r.op (s.mem.readN (r.ptr.toNat / 64 * 64) 64) r.items
      if x.2.2 = 0 then (.data { req := r, vals := x.2.1 }, s)
      else (.ack { req := r }, { s with mem := s.mem.writeN (r.ptr.toNat / 64 * 64) x.1 }) := by
  have hcut : flueCut r s = false := by rw [flueCut, hf]; rfl
  have hflip (g : Option Nat) : flipHolds g r s = false := by simp only [flipHolds, hb]
  have hln : s.lines.find? (fun l => l.place == .hbm (r.ptr.toNat / 64 * 64)) = none :=
    List.find?_eq_none.2 fun x hx h => hl x hx (beq_iff_eq.1 h)
  rw [hostServe]
  simp only [hcut, hflip, hln, Bool.false_eq_true, if_false, Bool.or_self]

/-- An address of device memory as a pointer. -/
theorem w64_hbm {off : Nat} (h : off < hbmEnd) : (w64 off).toNat = off :=
  w64_toNat (h.trans (by rw [hbmEnd]; norm_num))
theorem hbm_va {off : Nat} (h : off < hbmEnd) : off < 2 ^ 56 := h.trans (by rw [hbmEnd]; norm_num)
/-- R50: the request that an access of the host to `n` bytes of one line makes. -/
def hostReq (w : Bool) (rid off n d : Nat) : Req :=
  { agent := .host, core := 255, team := rid, op := if w then .write else .read, ord := if w then .rel else .acq, scope := .sys, ptr := w64 off,
    items := [{ lane := 0, off := (w64 off).toNat % 64, size := n, data := d }] }
/-- An access within one line is one request. -/
theorem forEach_oneLine {off n : Nat} (f : W64 × Nat × Nat → State → State) (ho : off < hbmEnd) (hn : 0 < n) (hin : off % 64 + n ≤ 64) :
    forEach (pieces (w64 off) n) f s = f (w64 off, 0, n) s := by
  rw [pieces_one (hbm_va ho) hn hin]; rfl
/-- What that request says. -/
theorem hostReq_fields {w : Bool} {rid off n d : Nat} {r : Req} (h : hostReq w rid off n d = r) (ho : off < hbmEnd) :
    r.agent = .host ∧ r.team = rid ∧ r.op = (if w then .write else .read) ∧ r.ptr.toNat = off
      ∧ r.items = [{ lane := 0, off := off % 64, size := n, data := d }] := by
  subst h
  exact ⟨rfl, rfl, rfl, w64_hbm ho, by rw [hostReq, w64_hbm ho]⟩
/-- A read at an unused line delivers the bytes of the place. -/
theorem hostRead_answers {rid off n : Nat} (ha : awake s = true) (hb : s.biasOp = none) (hf : s.flueDown = [])
    (hl : ∀ x ∈ s.lines, x.place ≠ .hbm (off / 64 * 64)) (ho : off < hbmEnd) (hn : 0 < n) (hin : off % 64 + n ≤ 64) :
    exec (.hostMemoryAccess { rid := rid, off := off, size := n, write := none }) s
      = .next { s with hostOut := s.hostOut ++ [(2 * 2 ^ 64 + rid, s.mem.readN off n)] } := by
  have hslice : sliceBytes (s.mem.readN (off / 64 * 64) 64) (off % 64) n = s.mem.readN off n := by
    rw [sliceBytes_readN _ _ hin, show off / 64 * 64 + off % 64 = off by omega]
  have hbytes : bytesOfNat n (natOfBytes (s.mem.readN off n)) = s.mem.readN off n := by
    have h := bytesOfNat_natOfBytes (s.mem.readN off n)
    rwa [readN_length] at h
  show execHostMemoryAccess _ s = _
  unfold execHostMemoryAccess
  rw [event_awake ha]
  refine congrArg Host.Outcome.next ((forEach_oneLine _ ho hn hin).trans ?_)
  show handle (hostReq false rid off n 0) s = _
  generalize hr : hostReq false rid off n 0 = r
  obtain ⟨hagent, hteam, hop, hptr, hitems⟩ := hostReq_fields hr ho
  have hrun : runItems r.op (s.mem.readN (off / 64 * 64) 64) r.items = (s.mem.readN (off / 64 * 64) 64, [natOfBytes (s.mem.readN off n)], 0) := by
    rw [hitems, hop, ← hslice]; rfl
  have hserve := hostServe_memory (r := r) hb hf (by rw [hptr]; exact hl)
  rw [hptr, hrun] at hserve
  rw [handle_host hagent (hserve.trans (if_pos rfl)) (fun h => nomatch h), deliver, hagent]
  simp only [hteam, hitems, List.flatMap_cons, List.flatMap_nil, List.append_nil, List.headD_cons, hbytes]
/-- A write of at least one byte of the line has a mask. -/
theorem itemsMask_ne_zero (i : Item) (h : 0 < i.size) : itemsMask [i] ≠ 0 := by
  have h1 : 2 ≤ 2 ^ i.size := by
    calc 2 = 2 ^ 1 := rfl
      _ ≤ 2 ^ i.size := Nat.pow_le_pow_right (by omega) h
  have h2 : 0 < 2 ^ i.off := Nat.pos_of_ne_zero (by positivity)
  have h3 : itemsMask [i] = 0 ||| (2 ^ i.size - 1) * 2 ^ i.off := rfl
  rw [h3, Nat.zero_or]
  exact Nat.ne_of_gt (Nat.mul_pos (by omega) h2)
/-- A write at an unused line leaves its bytes there, and every other byte as it was. -/
theorem hostWrite_stores {rid off n : Nat} {bs : List Byte} (ha : awake s = true) (hb : s.biasOp = none) (hf : s.flueDown = [])
    (hl : ∀ x ∈ s.lines, x.place ≠ .hbm (off / 64 * 64)) (ho : off < hbmEnd) (hn : 0 < bs.length) (hin : off % 64 + bs.length ≤ 64) (hm : s.mem.wf = true) :
    ∃ m : Memory, exec (.hostMemoryAccess { rid := rid, off := off, size := n, write := some bs }) s
        = .next { s with mem := m, hostOut := s.hostOut ++ [(3 * 2 ^ 64 + rid, [])] }
      ∧ ∀ a, m.read a = if off ≤ a ∧ a < off + bs.length then bs.getD (a - off) 0 else s.mem.read a := by
  have hdata : bytesOfNat bs.length (natOfBytes (sliceBytes bs 0 bs.length)) = bs := by rw [sliceBytes_self, bytesOfNat_natOfBytes]
  refine ⟨s.mem.writeN (off / 64 * 64) (putBytes (s.mem.readN (off / 64 * 64) 64) (off % 64) bs), ?_, fun a => ?_⟩
  · show execHostMemoryAccess _ s = _
    unfold execHostMemoryAccess
    rw [event_awake ha]
    refine congrArg Host.Outcome.next ((forEach_oneLine _ ho hn hin).trans ?_)
    show handle (hostReq true rid off bs.length (natOfBytes (sliceBytes bs 0 bs.length))) s = _
    generalize hr : hostReq true rid off bs.length (natOfBytes (sliceBytes bs 0 bs.length)) = r
    obtain ⟨hagent, hteam, hop, hptr, hitems⟩ := hostReq_fields hr ho
    have hrun : runItems r.op (s.mem.readN (off / 64 * 64) 64) r.items
        = (putBytes (s.mem.readN (off / 64 * 64) 64) (off % 64) bs, [], 0 ||| itemsMask r.items) := by
      rw [hitems, hop, runItems, List.foldl_cons, List.foldl_nil, if_pos rfl, rmwItem, hdata]
    have hmask : ¬ (0 ||| itemsMask r.items) = 0 := by
      rw [Nat.zero_or, hitems]; exact itemsMask_ne_zero _ hn
    have hserve := hostServe_memory (r := r) hb hf (by rw [hptr]; exact hl)
    rw [hptr, hrun] at hserve
    rw [handle_host hagent (hserve.trans (if_neg hmask)) (fun h => nomatch h), deliver, hagent]
    simp only [hteam]
  · rw [read_writeN _ _ _ hm, putBytes_length, readN_length]
    by_cases hl : off / 64 * 64 ≤ a ∧ a < off / 64 * 64 + 64
    · rw [if_pos hl, getD_putBytes _ _ _ (by rw [readN_length]; omega), getD_readN _ _ _ (by omega)]
      have hoff : off / 64 * 64 + off % 64 = off := by omega
      have hback : off / 64 * 64 + (a - off / 64 * 64) = a := by omega
      rw [hback]
      by_cases hin' : off ≤ a ∧ a < off + bs.length
      · rw [if_pos hin', if_pos (by omega), show a - off / 64 * 64 - off % 64 = a - off by omega]
        exact (List.getD_eq_getElem _ _ (by omega)).trans (List.getD_eq_getElem _ _ (by omega)).symm
      · rw [if_neg hin', if_neg (by omega)]
    · rw [if_neg hl, if_neg (by omega)]

end Access

/-! ## Completions (R48, R49) -/

section Completions
variable {s : State} {id : Nat} {l : LinkReq}

/-- A completion for a request of the host link ends the request and answers it. -/
theorem pcieCompletion_next {k : PcieKind} (ha : awake s = true) (hfind : s.links.find? (fun l => l.id == id) = some l)
    (hk : l.kind = .hostRead ∨ l.kind = .hostWrite ∨ l.kind = .hostAtomic ∨ l.kind = .ats) :
    exec (.pcieCompletion id k) s = .next (finishInvals (pcieAnswer l k { s with links := s.links.filter fun x => x.id != id })) := by
  show execPcieCompletion id k s = _
  unfold execPcieCompletion
  rw [event_awake ha]
  simp only [hfind]
  rcases hk with hk | hk | hk | hk <;> simp only [hk]
/-- The data of a read go to their agent. -/
theorem pcieAnswer_read {bs : List Byte} (hk : l.kind = .hostRead) (hs : l.req.isSync = false) (hm : ∀ c, l.req.op ≠ .monitor c) :
    pcieAnswer l (.data bs) s = deliver l.req (.data { req := l.req, vals := l.req.items.map (itemValue bs), line := bs, wts := (farDone l.req false s).1
                                                       acq := if l.req.acquires then .bump 0 else .notAcquire }) (farDone l.req false s).2 := by
  simp only [pcieAnswer, hk, hs, Bool.false_eq_true, if_false]
/-- A write that the host acknowledges is acknowledged to its agent. -/
theorem pcieAnswer_write {bs : List Byte} (hk : l.kind = .hostWrite) (hs : l.req.isSync = false) :
    pcieAnswer l (.data bs) s = deliver l.req (.ack { req := l.req, wts := (farDone l.req true s).1, acq := if l.req.acquires then .bump 0 else .notAcquire })
      (farDone l.req true s).2 := by
  simp only [pcieAnswer, hk, hs, Bool.false_eq_true, if_false]
/-- A request that the host aborts gets status 4. -/
theorem pcieAnswer_ca (hs : l.req.isSync = false) : pcieAnswer l .ca s = deliver l.req (.nack { req := l.req, status := 4 }) s := by
  simp only [pcieAnswer, hs, Bool.false_eq_true, if_false]
/-- So does one that the host does not support, save for an AtomicOp, which gets status 9. -/
theorem pcieAnswer_ur (hk : l.kind ≠ .hostAtomic) (hs : l.req.isSync = false) : pcieAnswer l .ur s = deliver l.req (.nack { req := l.req, status := 4 }) s := by
  simp only [pcieAnswer, beq_false_of_ne hk, hs, Bool.false_eq_true, if_false]
theorem pcieAnswer_ur_atomic (hk : l.kind = .hostAtomic) : pcieAnswer l .ur s = deliver l.req (.nack { req := l.req, status := 9 }) s := by
  rw [pcieAnswer, hk]; rfl
/-- R48: the slice holds the line that the host granted, and serves the requests that waited for it. -/
theorem cxlCacheResponse_serves {ptr : W64} {bs : List Byte} {line : SLine} (ha : awake s = true)
    (hfind : s.links.find? (fun l => l.kind == .own && linePtr l.req.ptr == linePtr ptr) = some l) (hline : lineAt (lineVa (vaOf ptr)) (keyOf ptr) s = some line) :
    exec (.cxlCacheResponse ptr bs) s = .next (finishInvals (evictAt (lineVa (vaOf ptr)) (keyOf ptr) (serveWaiting (lineVa (vaOf ptr)) (keyOf ptr)
      (setLine { line with data := line.fresh (sliceBytes bs 0 64), present := true, filled := s.ck, used := s.ck, st := .shared }
        { s with links := s.links.filter fun x => x.id != l.id })))) := by
  have hline' : lineAt (lineVa (vaOf ptr)) (keyOf ptr) { s with links := s.links.filter fun x => x.id != l.id } = some line := hline
  show execCxlCacheResponse ptr bs s = _
  unfold execCxlCacheResponse
  rw [event_awake ha]
  simp only [hfind, hline']
/-- R48: an invalidation removes the translations of the pages it names, and is over once no request uses one. -/
theorem atsInvalidation_removes (pasid base pages : Nat) (ha : awake s = true) :
    ∃ u, exec (.atsInvalidation pasid base pages) s = .next u
      ∧ (∀ a, a ∈ u.atc ↔ a ∈ s.atc ∧ ¬(a.1 = pasid ∧ base / 4096 ≤ a.2.1 ∧ a.2.1 < base / 4096 + pages))
      ∧ (s.invals = [] → (∀ x ∈ s.links, x.kind ≠ .own) → u.hostOut = s.hostOut ++ [(4 * 2 ^ 64 + pasid, bytesOfNat 8 base)] ∧ u.invals = []) := by
  refine ⟨_, show execAtsInvalidation pasid base pages s = _ from event_awake ha, fun a => ?_, fun hi hl => ?_⟩
  · show a ∈ s.atc.filter _ ↔ _
    simp only [List.mem_filter, Bool.not_eq_true', Bool.and_eq_false_iff, beq_eq_false_iff_ne, decide_eq_false_iff_not]
    tauto
  · have hbusy (u : State) (hu : u.links = s.links) : invalBusy pasid base pages u = false := by
      rw [invalBusy, hu, List.any_eq_false]
      intro x hx h
      simp only [Bool.and_eq_true, beq_iff_eq] at h
      exact hl x hx h.1.1
    simp only [finishInvals, hi, List.nil_append, List.filter_cons, List.filter_nil, hbusy]
    exact ⟨rfl, rfl⟩

end Completions

/-! ## Bias flips (R50 to R52) -/

section Bias
variable {s : State} {v : W64} {g : Nat}

/-- R50: go during a flip, or for a granule already in that bias, only sets err. -/
theorem biasWrite_refused (hv : v.getLsbD 0 = true) (h : (ctlRaw .biasCmd s).getLsbD 0 = true ∨ s.biasHost.contains (v.toNat / 2 ^ 16 % 2 ^ 23) = v.getLsbD 1) :
    biasWrite v s = ctlSetFld .biasCmd 3 1 1 s := by
  refine if_pos ?_
  rw [Bool.and_eq_true, Bool.or_eq_true]
  exact ⟨hv, h.imp id fun h => beq_iff_eq.2 h⟩
/-- R50: go starts the flip of the granule named. -/
theorem biasWrite_starts (hv : v.getLsbD 0 = true) (ho : (ctlRaw .biasCmd s).getLsbD 0 = false)
    (hh : s.biasHost.contains (v.toNat / 2 ^ 16 % 2 ^ 23) ≠ v.getLsbD 1) (hm : s.mapop = none) :
    biasWrite v s = cause .biasFlipDone { ctlPut .biasCmd (w64 (1 + (if v.getLsbD 1 then 2 else 0)
        + ((ctlRaw .biasCmd s).toNat / 2 ^ 2 % 2 ^ 2 - ((ctlRaw .biasCmd s).toNat / 2 ^ 2 % 2 ^ 2 &&& v.toNat / 2 ^ 2 % 2 ^ 2)) * 4
        + v.toNat / 2 ^ 16 % 2 ^ 23 * 2 ^ 16)) s with biasOp := some (v.getLsbD 1, v.toNat / 2 ^ 16 % 2 ^ 23, 0) } := by
  have hno : ¬(bit v 0 && (bit (ctlRaw .biasCmd s) 0 || s.biasHost.contains (fld v 16 23) == bit v 1)) = true := by
    rw [Bool.and_eq_true, Bool.or_eq_true]
    rintro ⟨-, h | h⟩
    · exact absurd (h.symm.trans ho) (by decide)
    · exact hh (beq_iff_eq.1 h)
  have hb : bit v 0 = true := hv
  have hbit : nb (bit v 1) * 2 = if v.getLsbD 1 then 2 else 0 := by
    unfold bit; cases v.getLsbD 1 <;> rfl
  have hmap (x : W64) : (ctlPut .biasCmd x s).mapop = none := hm
  rw [biasWrite]
  dsimp only
  rw [if_neg hno, if_pos hb, hmap, hb, Bool.true_or, hbit, ← Nat.sub_mul]
  simp only [fld, bit, nb, if_true, Bool.false_eq_true, if_false, hmap]
theorem biasToHost_next (ha : awake s = true) : exec (.biasToHost v) s = .next (biasWrite v s) := event_awake (f := biasWrite v) ha
theorem biasToDevice_next (ha : awake s = true) : exec (.biasToDevice v) s = .next (biasWrite v s) := event_awake (f := biasWrite v) ha

/-- No copy stands in a chunk that the flip touches. -/
theorem chunks_apart (h : ∀ t ∈ allTeams s, ∀ o ∈ t.c.ops, o.mid = true → flipTouches o s = false) :
    ((allTeams s).any fun t => t.c.ops.any fun o => o.mid && flipTouches o s) = false := by
  rw [List.any_eq_false]
  intro t ht hany
  obtain ⟨o, ho, hmid⟩ := List.any_eq_true.1 hany
  rw [Bool.and_eq_true] at hmid
  exact absurd (hmid.2.symm.trans (h t ht o ho hmid.1)) (by decide)
/-- R51: an area where something is under way is drawn, and the flip waits. -/
theorem biasFlipDone_waits {b : Bool} (ha : awake s = true) (hop : s.biasOp = some (b, g, 0)) (hr : areaReady (granuleArea g s) s = false) :
    exec .biasFlipDone s = .next (cause .biasFlipDone (drawArea (granuleArea g s) s)) := by
  show execBiasFlipDone s = _
  unfold execBiasFlipDone
  rw [event_awake ha]
  simp only [hop, hr, Bool.not_false, true_or, or_true, if_true, reduceCtorEq, OfNat.zero_ne_ofNat, if_false]
/-- R51: a flip to the host clears the granule's lines and sets the bias. -/
theorem biasFlipDone_host (ha : awake s = true) (hop : s.biasOp = some (true, g, 0)) (hr : areaReady (granuleArea g s) s = true)
    (hc : ((allTeams s).any fun t => t.c.ops.any fun o => o.mid && flipTouches o s) = false) :
    exec .biasFlipDone s = .next (endFlip { clearArea (granuleArea g s) s with biasHost := s.biasHost ++ [g] }) := by
  show execBiasFlipDone s = _
  unfold execBiasFlipDone
  rw [event_awake ha]
  simp only [hop, hr, hc, Bool.not_true, Bool.false_eq_true, or_self, if_true, OfNat.zero_ne_ofNat, Nat.zero_ne_one, if_false]
/-- The snoops of a list of lines, one after the other. -/
theorem links_snoops (f : Nat → Nat) (is : List Nat) (s : State) :
    ∀ i ∈ is, ∃ l ∈ (forEach is (fun i s => sendLink .backInv { agent := .host } (f i) s) s).links, l.kind = .backInv ∧ l.addr = f i := by
  have hkeep (is : List Nat) (s : State) (l : LinkReq) (h : l ∈ s.links) : l ∈ (forEach is (fun i s => sendLink .backInv { agent := .host } (f i) s) s).links := by
    induction is generalizing s with
    | nil => exact h
    | cons i is ih => exact ih _ (List.mem_append_left _ h)
  induction is generalizing s with
  | nil => exact fun i h => absurd h List.not_mem_nil
  | cons j is ih =>
    intro i hi
    rcases List.mem_cons.1 hi with rfl | hi
    · exact ⟨_, hkeep is _ _ (List.mem_append_right _ (List.mem_singleton.2 rfl)), rfl, rfl⟩
    · exact ih _ i hi
theorem agenda_snoops (f : Nat → Nat) (is : List Nat) (s : State) :
    (forEach is (fun i s => sendLink .backInv { agent := .host } (f i) s) s).agenda = s.agenda := by
  induction is generalizing s with
  | nil => rfl
  | cons i is ih => exact ih _
/-- R51: a flip to the device first snoops each of the granule's lines. -/
theorem biasFlipDone_snoops (ha : awake s = true) (hop : s.biasOp = some (false, g, 0)) (hr : areaReady (granuleArea g s) s = true)
    (hc : ((allTeams s).any fun t => t.c.ops.any fun o => o.mid && flipTouches o s) = false) :
    exec .biasFlipDone s = .next (cause .biasFlipDone
      { forEach (List.range 1024) (fun i s => sendLink .backInv { agent := .host } (g * 2 ^ 16 + 64 * i) s) s with biasOp := some (false, g, 2) }) := by
  show execBiasFlipDone s = _
  unfold execBiasFlipDone
  rw [event_awake ha]
  simp only [hop, hr, hc, Bool.not_true, Bool.false_eq_true, or_self, OfNat.zero_ne_ofNat, Nat.zero_ne_one, if_false]
/-- R51: once the snoops are answered, the granule is the device's. -/
theorem biasFlipDone_device (ha : awake s = true) (hop : s.biasOp = some (false, g, 2)) (hl : ∀ l ∈ s.links, l.kind ≠ .backInv) :
    exec .biasFlipDone s = .next (endFlip (rearmMonitors (granuleArea g s) { s with biasHost := s.biasHost.filter (· != g) })) := by
  have hsn : (s.links.any fun l => l.kind == .backInv && l.addr / 2 ^ 16 == g && l.req.agent == .host) = false := by
    rw [List.any_eq_false]
    intro l hmem h
    simp only [Bool.and_eq_true, beq_iff_eq] at h
    exact hl l hmem h.1.1
  show execBiasFlipDone s = _
  unfold execBiasFlipDone
  rw [event_awake ha]
  simp only [hop, hsn, Bool.false_eq_true, if_true, if_false]

end Bias

/-! ## Back-invalidations (R53) -/

section BackInv
variable {s : State} {g line : Nat}

/-- Requests of the flip itself wait for no answer of their own. -/
theorem forEach_host (f : LinkReq → State → State) (ls : List LinkReq) (s : State) (hf : ∀ l ∈ ls, ∀ u, f l u = u) : forEach ls f s = s := by
  induction ls generalizing s with
  | nil => rfl
  | cons l ls ih =>
    show forEach ls f (f l s) = s
    rw [hf l List.mem_cons_self s]
    exact ih s fun x hx => hf x (List.mem_cons_of_mem _ hx)
/-- R50, R53: an answer to a snoop of the flip brings its dirty bytes and ends the snoop. -/
theorem backInvalidationResponse_next (dirty : Option (List Byte)) (ha : awake s = true)
    (hmine : s.links.filter (fun l => l.kind == .backInv && l.addr == g * 2 ^ 16 + line % 1024 * 64) ≠ []) (hhost : ∀ l ∈ s.links, l.kind = .backInv → l.req.agent = .host) :
    exec (.backInvalidationResponse g line dirty) s = .next (
      let u := { s with links := s.links.filter fun l => !(l.kind == .backInv && l.addr == g * 2 ^ 16 + line % 1024 * 64) }
      match dirty with | some bs => hostGivesBack (g * 2 ^ 16 + line % 1024 * 64) bs u | none => u) := by
  have hne : (s.links.filter (fun l => l.kind == .backInv && l.addr == g * 2 ^ 16 + line % 1024 * 64)).isEmpty = false := by
    rw [← Bool.not_eq_true, List.isEmpty_iff]; exact hmine
  show execBackInvalidationResponse g line dirty s = _
  unfold execBackInvalidationResponse
  rw [event_awake ha]
  dsimp only
  rw [if_neg (by rw [hne]; decide)]
  refine congrArg Host.Outcome.next (forEach_host _ _ _ fun l hl u => ?_)
  obtain ⟨hmem, hk⟩ := List.mem_filter.1 hl
  rw [Bool.and_eq_true, beq_iff_eq] at hk
  have hagent := hhost l hmem hk.1
  simp only [hagent, beq_self_eq_true, if_true]

end BackInv

/-- Settles O39. -/
theorem hostMemory : Obligations.HostMemory := by
  refine ⟨?device, ?bias⟩
  case device =>
    intro s rid off n id bs l pasid base pages line pa idle rest r found value acq completes named own ha
    refine ⟨?read, ?write, ?readDone, ?writeDone, ?failed, ?atomic, ?owned, atsInvalidation_removes pasid base pages ha⟩
    case read => exact fun ⟨hb, hf, hl⟩ ho hn hin => hostRead_answers ha hb hf hl ho hn hin
    case write => exact fun ⟨hb, hf, hl⟩ ho hn hin hm => hostWrite_stores ha hb hf hl ho hn hin hm
    case readDone => exact fun hfind hk hs hm => (pcieCompletion_next ha hfind (.inl hk)).trans (by rw [pcieAnswer_read hk hs hm]; rfl)
    case writeDone => exact fun hfind hk hs => (pcieCompletion_next ha hfind (.inr (.inl hk))).trans (by rw [pcieAnswer_write hk hs])
    case failed =>
      intro hfind hk hs
      have hk' : l.kind = .hostRead ∨ l.kind = .hostWrite ∨ l.kind = .hostAtomic ∨ l.kind = .ats := by tauto
      have hna : l.kind ≠ .hostAtomic := by rcases hk with h | h | h <;> rw [h] <;> decide
      exact ⟨(pcieCompletion_next ha hfind hk').trans (by rw [pcieAnswer_ca hs]), (pcieCompletion_next ha hfind hk').trans (by rw [pcieAnswer_ur hna hs])⟩
    case atomic => exact fun hfind hk => (pcieCompletion_next ha hfind (.inr (.inr (.inl hk)))).trans (by rw [pcieAnswer_ur_atomic hk])
    case owned => exact fun hfind hline => cxlCacheResponse_serves ha hfind hline
  case bias =>
    intro s v g line bs b ln old toHost granule held flags cleared started writes chunksApart pa done ha
    refine ⟨?refused, ?starts, ?toHost, ?snoops, ?toDevice, fun hop hr => biasFlipDone_waits ha hop hr, ?answered⟩
    case refused =>
      exact fun hv h => ⟨(biasToHost_next ha).trans (by rw [biasWrite_refused hv h]), (biasToDevice_next ha).trans (by rw [biasWrite_refused hv h])⟩
    case starts =>
      exact fun hv ho hh hm => ⟨(biasToHost_next ha).trans (by rw [biasWrite_starts hv ho hh hm]), (biasToDevice_next ha).trans (by rw [biasWrite_starts hv ho hh hm])⟩
    case toHost => exact fun hop hr hc => biasFlipDone_host ha hop hr (chunks_apart hc)
    case snoops =>
      intro hop hr hc
      rw [biasFlipDone_snoops ha hop hr (chunks_apart hc)]
      generalize his : List.range 1024 = is
      refine ⟨_, rfl, rfl, ?_, fun i hi => ?_⟩
      · exact congrArg (· ++ [Instr.biasFlipDone]) (agenda_snoops _ is s)
      · exact links_snoops (fun i => g * 2 ^ 16 + 64 * i) is s i (his ▸ List.mem_range.2 hi)
    case toDevice => exact fun hop hl => biasFlipDone_device ha hop hl
    case answered =>
      refine fun hmine hhost => ⟨backInvalidationResponse_next none ha hmine hhost, fun hline => ?_, fun hline => ?_⟩
      · exact (backInvalidationResponse_next (some bs) ha hmine hhost).trans (by simp only [hostGivesBack]; rw [hline])
      · exact (backInvalidationResponse_next (some bs) ha hmine hhost).trans (by simp only [hostGivesBack]; rw [hline])

end Sys2Proof.Proofs
end

section
/-! SUPPORT. The fills and rechecks of condition monitors (R190, R347, R348, R350). -/

namespace Sys2Proof.Proofs
open Sys2Proof Sys2Proof.Machine Sys2Proof.Safety Sys2Proof.Laws

variable {s : State} {m : MonMsg} {e : LsuEnt}

/-- An access acquires where its order says so and it is no write. -/
theorem isAcq_iff (r : Req) : r.isAcq = true ↔ (r.ord = .acq ∨ r.ord = .ar) ∧ r.op ≠ .write := by
  rw [Req.isAcq, Bool.and_eq_true, Bool.or_eq_true, beq_iff_eq, beq_iff_eq, bne_iff_ne]

/-! ## A fill at its entry -/

theorem monfill_withdrawn (ha : awake s = true) (hf : s.lsu.find? (fun e => e.id == m.id) = some e) (hg : e.gone = true) :
    exec (.monfill m) s = .next (settle e.req.team (dropEnt e.id s)) := by
  show execMonfill m s = _
  unfold execMonfill
  rw [event_awake ha]
  simp only [hf, hg, if_true]
theorem monfill_early (ha : awake s = true) (hf : s.lsu.find? (fun e => e.id == m.id) = some e) (hg : e.gone = false) (hp : e.phase = .sent) :
    exec (.monfill m) s = .next (modEnt e.id (fun e => { e with early := some m }) s) := by
  show execMonfill m s = _
  unfold execMonfill
  rw [event_awake ha]
  simp only [hf, hg, hp, Bool.false_eq_true, if_false]
theorem monfill_waiting (ha : awake s = true) (hf : s.lsu.find? (fun e => e.id == m.id) = some e) (hg : e.gone = false) (hp : e.phase = .monitor) :
    exec (.monfill m) s = .next (settle e.req.team (fillMonitor e m s)) := by
  show execMonfill m s = _
  unfold execMonfill
  rw [event_awake ha]
  simp only [hf, hg, hp, Bool.false_eq_true, if_false]
/-- R190: reading the last write is the core's own affair. -/
theorem teamOf_readWrite (r : Req) (id : Nat) : teamOf id (readWrite r s) = teamOf id s := by
  unfold readWrite
  split <;> rfl
theorem fillMonitor_acquire (h : e.req.isAcq = true) : fillMonitor e m s = askEmber e e.req.scope [(0, m.value)] s := if_pos h
/-- An unmarked value, one of an acquiring entry, and one of a listed line answer at once. -/
theorem fillMonitor_answers (h : e.req.isAcq = false)
    (hm : m.mark = false ∨ e.req.acquires = true ∨ (((teamOf e.req.team s).map (·.emberList)).getD []).contains (linePtr e.req.ptr) = true) :
    fillMonitor e m s = answerItems e.id e.req.items [(0, m.value)] false (readWrite e.req s) := by
  rw [fillMonitor, if_neg (by rw [h]; exact Bool.false_ne_true), answerMarked, teamOf_readWrite]
  refine if_pos ?_
  rw [Bool.or_eq_true, Bool.or_eq_true, Bool.not_eq_true', or_assoc]
  exact hm
/-- A marked value of a line that is not listed lists it first. -/
theorem fillMonitor_lists (h : e.req.isAcq = false) (hac : e.req.acquires = false) (hm : m.mark = true)
    (hl : (((teamOf e.req.team s).map (·.emberList)).getD []).contains (linePtr e.req.ptr) = false)
    (hn : (((teamOf e.req.team s).map (·.emberList)).getD []).length < 8) :
    fillMonitor e m s = answerItems e.id e.req.items [(0, m.value)] false (listEmber e.req.team (linePtr e.req.ptr) (readWrite e.req s)) := by
  rw [fillMonitor, if_neg (by rw [h]; exact Bool.false_ne_true), answerMarked, teamOf_readWrite]
  rw [hm, hac, hl, if_neg (by decide), if_pos hn]

/-! ## A WAIT packet's fill -/

theorem monfill_packet {i : Nat} {p : QPkt} (ha : awake s = true) (hf : s.lsu.find? (fun e => e.id == m.id) = none)
    (hq : ((s.qifs.flatMap fun x => x.2.taken.map fun p => (x.1, p)).find? fun y => y.2.mon == m.id && y.2.state != 0) = some (i, p)) :
    exec (.monfill m) s = .next (waitFilled i p m s) := by
  show execMonfill m s = _
  unfold execMonfill
  rw [event_awake ha]
  simp only [hf, hq]
theorem waitFilled_later {i : Nat} {p : QPkt} {u : State} (h : lfeAccess (lfeReq m.id p.part .query .acq (pkAddr p.bytes) []) s = (.later, u)) :
    waitFilled i p m s = cause (.monfill m) u := by
  rw [waitFilled, h]
theorem waitFilled_served {i : Nat} {p : QPkt} {u : State} {a : Ans} (h : lfeAccess (lfeReq m.id p.part .query .acq (pkAddr p.bytes) []) s = (a, u))
    (hl : a ≠ .later) : waitFilled i p m s = completePacket i p.num (bumpSystem u) := by
  rw [waitFilled, h]
  cases a with
  | later => exact absurd rfl hl
  | data _ => rfl
  | ack _ => rfl
  | nack _ => rfl

/-! ## Rechecks -/

theorem monitorRecheck_entry {w : Monitor} (ha : awake s = true) (hw : s.monitors.find? (fun x => x.id == m.id) = some w) (hl : w.lfe = none)
    (he : s.lsu.find? (fun x => x.id == w.ent) = some e) :
    exec (.monitorRecheck m.id) s = .next (
      let off : State := { s with monitors := s.monitors.filter fun x => x.id != m.id }
      if e.gone then (if e.phase == .monitor then settle e.req.team (dropEnt e.id off) else s)
      else if e.phase == .monitor && !w.slice then sendReq reqEvent e.req e.id off else s) := by
  show execMonitorRecheck m.id s = _
  unfold execMonitorRecheck
  rw [event_awake ha]
  simp only [hw, hl, he]

/-- Settles O40. -/
theorem monitors : Obligations.Monitors := by
  intro s m e w i p found entry acquires list line asks answers packet acquire mine off ha
  have hacq : ¬acquires → e.req.isAcq = false := fun h => Bool.eq_false_iff.2 (mt (isAcq_iff e.req).1 h)
  refine ⟨?answers, ?lists, ?asks, fun hf hg hp => monfill_early ha hf hg hp, fun hf hg => monfill_withdrawn ha hf hg, ?packet, ?recheck, ?gone⟩
  case answers => exact fun ⟨hf, hg, hp⟩ hn hm => (monfill_waiting ha hf hg hp).trans (by rw [fillMonitor_answers (hacq hn) hm])
  case lists => exact fun ⟨hf, hg, hp⟩ hn hac hm hl hlen => (monfill_waiting ha hf hg hp).trans (by rw [fillMonitor_lists (hacq hn) hac hm hl hlen])
  case asks => exact fun ⟨hf, hg, hp⟩ h => (monfill_waiting ha hf hg hp).trans (by rw [fillMonitor_acquire ((isAcq_iff e.req).2 h)]; rfl)
  case packet =>
    intro ⟨hf, hq⟩ a u hu
    refine ⟨fun hl => ?_, fun hl => ?_⟩
    · exact (monfill_packet ha hf hq).trans (by rw [waitFilled_later (hl ▸ hu)])
    · exact (monfill_packet ha hf hq).trans (by rw [waitFilled_served hu hl])
  case recheck =>
    intro ⟨hw, hl, he⟩ hg hp
    refine ⟨fun hs => ?_, fun hs => ?_⟩
    · rw [monitorRecheck_entry ha hw hl he, hg, hp, hs]; rfl
    · rw [monitorRecheck_entry ha hw hl he, hg, hp, hs]; rfl
  case gone =>
    intro ⟨hw, hl, he⟩ hg hp
    rw [monitorRecheck_entry ha hw hl he, hg, hp]; rfl

end Sys2Proof.Proofs
end

section
/-! SUPPORT. Launches: their records, verdicts and failures, LAUNCH packets of other modules, and completion (R55, R74, R80 to R84, R99, R100). -/

namespace Sys2Proof.Proofs
open Sys2Proof Sys2Proof.Machine Sys2Proof.Safety Sys2Proof.Laws

variable {s : State} {l : Launch}

/-! ## Reading the record (R74, R80, R84) -/

section Record
variable {id : Nat} (ha : awake s = true) (hl : launchOf id s = some l) (hp : l.phase = .waiting) (hc : s.cond ≠ .fatal)
include ha hl hp hc

theorem recordRead_held (h : 256 ≤ (s.launches.filter fun x => x.part == l.part && x.phase != .waiting).length) :
    exec (.recordRead id) s = .next (cause (.recordRead id) s) := by
  show execRecordRead id s = _
  unfold execRecordRead
  rw [event_awake ha]
  simp only [hl, hp, if_neg hc, h, decide_true, Bool.true_or, if_true]
theorem recordRead_goes (h : (s.launches.filter fun x => x.part == l.part && x.phase != .waiting).length < 256) (hb : launchBehind l s = false) :
    exec (.recordRead id) s = .next (if (pktOf l.part (keyOf l.record) s).getLsbD 0
      then readRecord 8 { l with phase := .reading } (bumpSystem (modLaunch id (fun _ => { l with phase := .reading }) s)) else failLaunch l 10 s) := by
  show execRecordRead id s = _
  unfold execRecordRead
  rw [event_awake ha]
  simp only [hl, hp, if_neg hc, decide_eq_false (Nat.not_le.2 h), hb, Bool.or_self, Bool.false_eq_true, if_false]
  cases (pktOf l.part (keyOf l.record) s).getLsbD 0 <;> rfl
end Record

/-- R54, R55: as many launches of peers as the partition's bound are past validation. -/
theorem passLaunch_turnsAway {m key tag : Nat} (ho : l.origin = .peer m key tag) (h : maxedOut l s = true) :
    passLaunch l s = answerLaunch key 0x12 3 { s with launches := s.launches.filter fun x => x.id != l.id } := by
  rw [passLaunch, if_pos h, turnAway, ho]
/-- A launch of a peer. -/
def ofPeer (x : Launch) : Bool := match x.origin with | .peer .. => true | _ => false
/-- A launch past validation that is not over. -/
def isUp (x : Launch) : Bool := match x.phase with | .setup => true | .running => true | .signalling => true | .signalled => true | _ => false
theorem maxedOut_peer {m key tag : Nat} (ho : l.origin = .peer m key tag)
    (h : (ctlRaw (.fjLperm l.part) s).toNat / 2 ^ 8 % 2 ^ 8 ≤ (s.launches.filter fun x => x.id != l.id && x.part == l.part && (ofPeer x && isUp x)).length) :
    maxedOut l s = true := by
  rw [maxedOut, ho]
  refine decide_eq_true_iff.2 (h.trans (le_of_eq (congrArg List.length (List.filter_congr fun x _ => ?_))))
  congr 1
  rw [ofPeer, isUp]
  cases x.origin <;> cases x.phase <;> rfl

/-! ## Failures (R84) -/

/-- Writing a code into the low four bits of a record, and a count into bits 16 to 31. -/
theorem record_fields {x c v : Nat} (hx : x < 2 ^ 64) (hc : c < 16) (hv : v < 65536) :
    let y := (x - x % 16 * 1 + c % 16 * 1) % 2 ^ 64
    let z := (y - y / 65536 % 65536 * 65536 + v % 65536 * 65536) % 2 ^ 64
    z % 16 = c ∧ z / 65536 % 65536 = v := by
  intro y z
  have hy : y = x - x % 16 + c := by show (x - x % 16 * 1 + c % 16 * 1) % 2 ^ 64 = _; omega
  have hz : z = y - y / 65536 % 65536 * 65536 + v * 65536 := by show (y - y / 65536 % 65536 * 65536 + v % 65536 * 65536) % 2 ^ 64 = _; omega
  omega
theorem failLaunch_records {i seq c : Nat} (ho : l.origin = .qif i seq) (hc : c < 16) :
    ∃ u : State, failLaunch l c s = failPacket i seq u ∧ { u with ctl := s.ctl } = { s with launches := s.launches.filter fun x => x.id != l.id }
      ∧ (ctlRaw (.lfeVfail l.part) u).toNat % 2 ^ 4 = c
      ∧ (ctlRaw (.lfeVfail l.part) u).toNat / 2 ^ 16 % 2 ^ 16 = min 65535 ((ctlRaw (.lfeVfail l.part) s).toNat / 2 ^ 16 % 2 ^ 16 + 1) := by
  have hraw (r : CtlReg) (lo n v : Nat) (u : State) : (ctlRaw r (ctlSetFld r lo n v u)).toNat
      = ((ctlRaw r u).toNat - (ctlRaw r u).toNat / 2 ^ lo % 2 ^ n * 2 ^ lo + v % 2 ^ n * 2 ^ lo) % 2 ^ 64 := by
    rw [ctlSetFld, ctlRaw_ctlPut_same]; exact BitVec.toNat_ofNat _ _
  have hfields := record_fields (x := (ctlRaw (.lfeVfail l.part) s).toNat) (c := c)
    (v := min 65535 ((ctlRaw (.lfeVfail l.part) s).toNat / 2 ^ 16 % 2 ^ 16 + 1)) (BitVec.isLt _) hc (by omega)
  refine ⟨{ ctlSetFld (.lfeVfail l.part) 16 16 (min 0xFFFF (ctlFld (.lfeVfail l.part) 16 16 s + 1)) (ctlSetFld (.lfeVfail l.part) 0 4 c s) with
    launches := s.launches.filter fun x => x.id != l.id }, ?_, rfl, ?_, ?_⟩
  · rw [failLaunch]
    simp only [ho]
    rfl
  · refine Eq.trans ?_ hfields.1
    show (ctlRaw (.lfeVfail l.part) (ctlSetFld (.lfeVfail l.part) 16 16 _ (ctlSetFld (.lfeVfail l.part) 0 4 c s))).toNat % 2 ^ 4 = _
    rw [hraw, hraw, pow_zero, Nat.div_one]
    rfl
  · refine Eq.trans ?_ hfields.2
    show (ctlRaw (.lfeVfail l.part) (ctlSetFld (.lfeVfail l.part) 16 16 _ (ctlSetFld (.lfeVfail l.part) 0 4 c s))).toNat / 2 ^ 16 % 2 ^ 16 = _
    rw [hraw, hraw, pow_zero, Nat.div_one]
    rfl

/-! ## LAUNCH packets (R55) -/

section Packets
variable {port q : Nat} {p : Packet} (ha : awake s = true)
include ha

theorem launchPacket_stranger (ht : partOfTenant p.tenant s = none) : exec (.launchPacket port p) s = .next (sendReply p 0x12 7 [] s) := by
  show execLaunchPacket port p s = _
  unfold execLaunchPacket
  rw [event_awake ha]
  simp only [ht]
/-- The checks of a packet whose tenant has a partition, in their order. -/
theorem launchPacket_tenant (ht : partOfTenant p.tenant s = some q) : exec (.launchPacket port p) s = .next (
    if !bit (ctlRead (.fjLperm q) s) 0 || (partOf q s).resetting then sendReply p 0x12 7 [] s
    else if p.len ≠ 63 ∨ pkKind p.payload ≠ 1 ∨ pkIrq p.payload ∨ pkReserved p.payload then sendReply p 0x12 6 [] s
    else if fld (ctlRead (.fjLperm q) s) 8 8 ≤ fld (ctlRead (.fjLperm q) s) 16 8 then sendReply p 0x12 3 [] s
    else if s.cond == .fatal then sendReply p 0x12 4 [] s
    else { s with nextId := s.nextId + 1, peers := s.peers ++ [(s.nextId, p)]
                  launches := s.launches ++ [{ id := s.nextId, part := q, record := pkAddr p.payload, origin := .peer p.srcm s.nextId p.tag }]
                  agenda := s.agenda ++ [.recordRead s.nextId] }) := by
  show execLaunchPacket port p s = _
  unfold execLaunchPacket
  rw [event_awake ha]
  simp only [ht]
  rfl
theorem launchResend_sends {id : Nat} {l : LinkReq} (hf : s.links.find? (fun l => l.id == id && l.due != 0 && decide (l.due ≤ s.ck)) = some l) (hp : l.pkt = some p) :
    exec (.launchResend id) s = .next (sendPacket p { s with links := updWhere (fun l => l.id == id) (fun l => { l with due := 0 }) s.links }) := by
  show execLaunchResend id s = _
  unfold execLaunchResend
  rw [event_awake ha]
  obtain ⟨⟩ := l
  subst hp
  simp only [hf]
end Packets

/-! ## Completion (R99, R100) -/

/-- R99: the write of a launch's signal word. -/
def sigWrite (l : Launch) : Req :=
  lfeReq l.id l.part .write .rel l.sigptr [{ lane := 0, off := vaOf l.sigptr % 64, size := 8, data := l.seqno % 2 ^ 48 + l.errors * 2 ^ 48 }]

section Signal
variable {again : Instr} {v : State}

theorem signalWord_acked {a : AckMsg} (h : lfeAccess (sigWrite l) s = (.ack a, v)) :
    signalWord again l s = cause again (modLaunch l.id (fun x => { x with phase := .signalled }) v) := by
  rw [sigWrite] at h
  rw [signalWord, h]
theorem signalWord_refused {n : NackMsg} (h : lfeAccess (sigWrite l) s = (.nack n, v)) (he : l.event0 = false) :
    signalWord again l s = modLaunch l.id (fun x => { x with event0 := true, wdog := (raiseEvent l.part 0 v).ck + 3800 }) (raiseEvent l.part 0 v) := by
  rw [sigWrite] at h
  rw [signalWord, h]
  simp only [he, Bool.false_eq_true, if_false]
  rfl

variable (ha : awake s = true) (hl : launchOf l.id s = some l)
include ha hl

theorem launchComplete_drained {u : State} (hp : l.phase = .signalling) (he : l.event0 = false) (hd : drainLaunch l s = (true, u)) :
    exec (.launchComplete l.id) s = .next (signalWord (.launchComplete l.id) l u) := by
  show execLaunchComplete l.id s = _
  unfold execLaunchComplete
  rw [event_awake ha]
  simp only [hl, hp, he, hd, Bool.false_eq_true, if_false]
theorem signalRetry_writes (hp : l.phase = .signalling) (he : l.event0 = true) :
    exec (.signalRetry l.id) s = .next (signalWord (.launchComplete l.id) { l with event0 := true } s) := by
  show execSignalRetry l.id s = _
  unfold execSignalRetry
  rw [event_awake ha]
  simp only [hl, hp, he, beq_self_eq_true, Bool.and_self, if_true]
theorem launchComplete_over {u : State} {i seq : Nat} (hp : l.phase = .signalled) (ho : l.origin = .qif i seq) (hd : drainRemote l.part s = (true, u)) :
    exec (.launchComplete l.id) s = .next (completePacket i seq { u with launches := u.launches.filter fun x => x.id != l.id }) := by
  show execLaunchComplete l.id s = _
  unfold execLaunchComplete
  rw [event_awake ha]
  simp only [hl, hp, hd, endLaunch, ho]
end Signal

/-- Settles O41. -/
theorem launchStarts : Obligations.LaunchStarts := by
  refine ⟨?records, ?packets⟩
  case records =>
    intro s id l v c m key tag busy reading fail out from_ up running ha
    refine ⟨fun hl hp hc => ⟨recordRead_held ha hl hp hc, fun hb hbe hr => ?_, fun hb hbe hr => ?_⟩, fun hf => ?_, fun hn => ?_,
      fun ho h => passLaunch_turnsAway ho (maxedOut_peer ho h), fun i seq ho hc => failLaunch_records ho hc⟩
    · rw [recordRead_goes ha hl hp hc hb hbe, hr]; rfl
    · rw [recordRead_goes ha hl hp hc hb hbe, hr]; rfl
    · exact (event_awake ha).trans (by rw [writeVerdict, fld_low, hf]; rfl)
    · have hnone : s.launches.find? (fun l => l.phase == .verdict (v.toNat % 2 ^ 16)) = none :=
        List.find?_eq_none.2 fun x hx h => hn x hx (beq_iff_eq.1 h)
      exact (event_awake ha).trans (by rw [writeVerdict, fld_low, hnone])
  case packets =>
    intro s port q p lperm b refused admitted formed room launch ha
    have hadm : admitted ↔ ¬(!bit lperm 0 || (partOf q s).resetting) = true := by
      show lperm.getLsbD 0 = true ∧ (partOf q s).resetting = false ↔ _
      rw [Bool.or_eq_true, Bool.not_eq_true', not_or, Bool.not_eq_false, Bool.not_eq_true]; rfl
    have hform : formed ↔ ¬(p.len ≠ 63 ∨ pkKind b ≠ 1 ∨ pkIrq b ∨ pkReserved b) := by
      show p.len = 63 ∧ pkKind b = 1 ∧ pkIrq b = false ∧ pkReserved b = false ↔ _
      rw [not_or, not_or, not_or, not_not, not_not, Bool.not_eq_true, Bool.not_eq_true]
    have hroom : room ↔ ¬fld lperm 8 8 ≤ fld lperm 16 8 := Nat.not_le.symm
    refine ⟨launchPacket_stranger ha, fun ht => ⟨fun h => ?_, fun h1 h => ?_, fun h1 h2 h => ?_, fun h1 h2 h3 h => ?_, fun h1 h2 h3 h => ?_⟩,
      fun id l => launchResend_sends ha⟩ <;> refine (launchPacket_tenant ha ht).trans (congrArg Host.Outcome.next ?_)
    · exact if_pos (not_not.1 (mt hadm.2 h))
    · exact (if_neg (hadm.1 h1)).trans (if_pos (not_not.1 (mt hform.2 h)))
    · exact (if_neg (hadm.1 h1)).trans ((if_neg (hform.1 h2)).trans (if_pos (not_not.1 (mt hroom.2 h))))
    · exact (if_neg (hadm.1 h1)).trans ((if_neg (hform.1 h2)).trans ((if_neg (hroom.1 h3)).trans (if_pos (beq_iff_eq.2 h))))
    · exact (if_neg (hadm.1 h1)).trans ((if_neg (hform.1 h2)).trans ((if_neg (hroom.1 h3)).trans (if_neg (mt beq_iff_eq.1 h))))

/-- Settles O42. -/
theorem launchCompletes : Obligations.LaunchCompletes := by
  intro s l i seq word write written noted refused over' ha hl
  refine ⟨fun hp he u v hd => ⟨fun a h => ?_, fun n h => ?_⟩, fun hp he a v h => ?_, fun hp ho u hd => launchComplete_over ha hl hp ho hd⟩
  · rw [launchComplete_drained ha hl hp he hd, signalWord_acked (l := l) h]
  · have hnote : noted v = raiseEvent l.part 0 v := if_neg (by rw [he]; exact Bool.false_ne_true)
    rw [launchComplete_drained ha hl hp he hd, signalWord_refused (l := l) h he]
    show _ = Host.Outcome.next (modLaunch l.id (fun x => { x with event0 := true, wdog := (noted v).ck + 3800 }) (noted v))
    rw [hnote]
  · rw [signalRetry_writes ha hl hp he, signalWord_acked (l := { l with event0 := true }) h]

end Sys2Proof.Proofs
end

section
/-! SUPPORT. The registers of partitions (R56, R63, R66, R67, R136). -/

namespace Sys2Proof.Proofs
open Sys2Proof Sys2Proof.Machine Sys2Proof.Safety Sys2Proof.Laws

variable {s : State} {q : Nat} {v : W64}

/-- A one-bit field at the bottom of a register. -/
theorem ctlFld_low (r : CtlReg) (s : State) : ctlFld r 0 1 s = (ctlRaw r s).toNat % 2 := fld_low (ctlRaw r s) 1
/-- R56: the fields of a write that the register keeps. -/
def storeCfg (q : Nat) (v : W64) (on : Nat) (s : State) : State :=
  ctlSetFld (.partCfg q) 16 16 (fld v 16 16) (ctlSetFld (.partCfg q) 1 1 (fld v 1 1) (ctlSetFld (.partCfg q) 0 1 on s))
/-- A write that enables a partition notes what it lacks. -/
def enableErrs (saved fits : Bool) (s : State) : State :=
  let s := if saved then s else ctlSetFld .partCfgerr 0 1 1 s
  if fits then s else ctlSetFld .partCfgerr 3 1 1 s

theorem writePartCfg_enables (hw : (ctlRaw (.partCfg q) s).toNat % 2 = 0) (h0 : bit v 0 = true) (h2 : bit v 2 = false) :
    writePartCfg q v s = lookClusters (storeCfg q v (nb (ctlFld (.partSave q) 0 1 s == 1 && qosFits q (ctlRaw (.partQos q) s) s))
      (enableErrs (ctlFld (.partSave q) 0 1 s == 1) (qosFits q (ctlRaw (.partQos q) s) s) s)) := by
  have hwas : (ctlFld (.partCfg q) 0 1 s == 1) = false := by rw [ctlFld_low, hw]; rfl
  rw [writePartCfg, enableErrs, storeCfg]
  rw [hwas, h0, h2]
  cases ctlFld (.partSave q) 0 1 s == 1 <;> cases qosFits q (ctlRaw (.partQos q) s) s <;> rfl
theorem writePartCfg_enabled (hw : (ctlRaw (.partCfg q) s).toNat % 2 = 1) :
    writePartCfg q v s = lookClusters (if bit v 2 || (!bit v 0 && hasResident q s) then startReset q (storeCfg q v (nb (bit v 0)) s) else storeCfg q v (nb (bit v 0)) s) := by
  have hwas : (ctlFld (.partCfg q) 0 1 s == 1) = true := by rw [ctlFld_low, hw]; rfl
  rw [writePartCfg, storeCfg]
  rw [hwas]
  cases bit v 0 <;> rfl

/-! ## Save areas (R63, R136) -/

section Save
variable {r : CtlReg} {frames : W64 → Nat}

theorem writeSave_enabled (hw : (ctlRaw (.partCfg q) s).toNat % 2 = 1) : writeSave r q frames v s = s := if_pos ((ctlFld_low _ s).trans hw)
/-- An area is set up where none was. -/
theorem writeSave_disabled (hw : (ctlRaw (.partCfg q) s).toNat % 2 = 0) (ho : (ctlRaw r s).getLsbD 0 = false)
    (hn : (ctlMerge r (ctlRaw r s) v).getLsbD 0 = true) :
    let x := ctlMerge r (ctlRaw r s) v
    writeSave r q frames v s = if areaTaken q (fld x 16 32) (frames x) s then ctlPut r (x &&& ~~~1) (ctlSetFld .partCfgerr 2 1 1 s)
      else reserveFrames (fld x 16 32) (frames x) true (ctlPut r x s) := by
  intro x
  have hn' : bit x 0 = true := hn
  have ho' : bit (ctlRaw r s) 0 = false := ho
  have hw' : ¬ctlFld (.partCfg q) 0 1 s = 1 := by rw [ctlFld_low, hw]; decide
  rw [writeSave, if_neg hw']
  dsimp only
  rw [ho', if_neg Bool.false_ne_true, hn', Bool.true_and, if_pos rfl]
/-- R63: what a write to a save area's register does. -/
theorem savesTo_of (e : Instr) {n : Nat} (he : exec e s = .next (writeSave r q frames v s)) (hf : frames (ctlMerge r (ctlRaw r s) v) = n) :
    let x := ctlMerge r (ctlRaw r s) v
    ((ctlRaw (.partCfg q) s).toNat % 2 = 1 → exec e s = .next s)
    ∧ ((ctlRaw (.partCfg q) s).toNat % 2 = 0 ∧ (ctlRaw r s).getLsbD 0 = false → x.getLsbD 0 = true → areaTaken q (fld x 16 32) n s = true →
        exec e s = .next (ctlPut r (x &&& ~~~1) (ctlSetFld .partCfgerr 2 1 1 s)))
    ∧ ((ctlRaw (.partCfg q) s).toNat % 2 = 0 ∧ (ctlRaw r s).getLsbD 0 = false → x.getLsbD 0 = true → areaTaken q (fld x 16 32) n s = false →
        exec e s = .next (reserveFrames (fld x 16 32) n true (ctlPut r x s))) := by
  intro x
  refine ⟨fun hw => ?_, fun ⟨hw, ho⟩ hn ht => ?_, fun ⟨hw, ho⟩ hn ht => ?_⟩
  · rw [he, writeSave_enabled hw]
  · rw [he, writeSave_disabled hw ho hn, hf]; exact congrArg Host.Outcome.next (if_pos ht)
  · rw [he, writeSave_disabled hw ho hn, hf]; exact congrArg Host.Outcome.next (if_neg (by rw [ht]; exact Bool.false_ne_true))
end Save

/-! ## Reservations (R67) -/

theorem writePartQos_refused (hw : (ctlRaw (.partCfg q) s).toNat % 2 = 1) (hf : ¬qosFits q (ctlMerge (.partQos q) (ctlRaw (.partQos q) s) v) s = true) :
    writePartQos q v s = ctlSetFld .partCfgerr 3 1 1 s :=
  if_pos ⟨(ctlFld_low _ s).trans hw, by rw [Bool.not_eq_true', ← Bool.not_eq_true]; exact hf⟩
theorem writePartQos_stores (h : (ctlRaw (.partCfg q) s).toNat % 2 = 0 ∨ qosFits q (ctlMerge (.partQos q) (ctlRaw (.partQos q) s) v) s = true) :
    writePartQos q v s = forEach (List.range 37) wakeNoted (ctlPut (.partQos q) (ctlMerge (.partQos q) (ctlRaw (.partQos q) s) v) s) := by
  refine if_neg fun ⟨h1, h2⟩ => h.elim (fun h => ?_) fun h => ?_
  · rw [ctlFld_low, h] at h1; exact absurd h1 (by decide)
  · rw [h] at h2; exact absurd h2 (by decide)

/-- Settles O43. -/
theorem partitionRegisters : Obligations.PartitionRegisters := by
  intro s q i v cfg fits saved store err writes qos owner save off frame savesTo ha
  have hsaved : saved ↔ (ctlFld (.partSave q) 0 1 s == 1) = true := by rw [ctlFld_low, beq_iff_eq]
  have hwrites {u : State} (h : writePartCfg q v s = lookClusters u) : writes u :=
    ⟨(event_awake (f := writePartCfg q v) ha).trans (by rw [h]), (event_awake (f := writePartCfg q v) ha).trans (by rw [h])⟩
  refine ⟨fun hw h0 h2 => ⟨fun h1 h => hwrites ?_, fun h1 h => hwrites ?_, fun h1 h => hwrites ?_⟩, fun hw h0 h2 => hwrites ?_, fun hw h0 h2 => hwrites ?_,
    fun hw h => ?_, fun h => ?_, ?_, ?_, ?_⟩
  · rw [writePartCfg_enables hw h0 h2, hsaved.1 h1, show qosFits q (ctlRaw (.partQos q) s) s = true from h]; rfl
  · rw [writePartCfg_enables hw h0 h2, Bool.eq_false_iff.2 (mt hsaved.2 h1), show qosFits q (ctlRaw (.partQos q) s) s = true from h]; rfl
  · rw [writePartCfg_enables hw h0 h2, hsaved.1 h1, Bool.eq_false_iff.2 h]; rfl
  · rw [writePartCfg_enabled hw, show bit v 0 = true from h0, show bit v 2 = true from h2]; rfl
  · rw [writePartCfg_enabled hw, show bit v 0 = false from h0, show bit v 2 = false from h2]; rfl
  · exact (event_awake (f := writePartQos q v) ha).trans (by rw [writePartQos_refused hw h])
  · exact (event_awake (f := writePartQos q v) ha).trans (by rw [writePartQos_stores h]; rfl)
  · exact savesTo_of (frames := fun _ => ncores s * 64) (.partSaveWrite q v) (event_awake (f := writePartSave q v) ha) rfl
  · exact savesTo_of (frames := fun v => fld v 48 8 * 64) (.partCsaveWrite q v) (event_awake (f := writePartCsave q v) ha) rfl
  · exact event_awake (f := writeQifRst i v) ha

end Sys2Proof.Proofs
end

section
/-! SUPPORT. Resets of partitions (R66). -/

namespace Sys2Proof.Proofs
open Sys2Proof Sys2Proof.Machine Sys2Proof.Safety Sys2Proof.Laws

variable {s : State} {q : Nat}

/-! ## The start of a reset -/

/-- R66: a team stopped for good keeps nothing but what it was in the middle of. -/
def Stopped (t : Team) : Prop :=
  t.status = .gone ∨ (t.status = .halted ∧ t.records = [] ∧ t.spq = [] ∧ (∀ o ∈ t.c.ops, o.mid = true ∧ o.done = false) ∧ t.m.ops = [] ∧ t.l.ops = [])
theorem stopped_stopped (t : Team) : Stopped t.stopped := by
  have hc (ops : List EngOp) (p : EngOp → Bool) : ∀ o ∈ ops.filter (fun o => o.mid && !o.done && o.retry.isNone && p o), o.mid = true ∧ o.done = false := by
    intro o ho
    have h := (List.mem_filter.1 ho).2
    simp only [Bool.and_eq_true, Bool.not_eq_true'] at h
    exact ⟨h.1.1.1, h.1.1.2⟩
  have hm (ops : List EngOp) : ops.filter (fun _ => false) = [] := List.filter_eq_nil_iff.2 fun _ _ => Bool.false_ne_true
  unfold Team.stopped
  cases hs : t.status
  case gone => exact .inl hs
  all_goals exact .inr ⟨rfl, rfl, rfl, hc _ _, hm _, rfl⟩
theorem stopped_part (t : Team) : t.stopped.part = t.part := by
  unfold Team.stopped; cases t.status <;> rfl

/-- The partition as its reset begins. -/
def resetBegun (q : Nat) (s : State) : State :=
  let here := ctlFld .modid 0 16 s
  let ts := (allTeams s).filter fun t => t.part == q && t.status != .gone
  modPart q (fun p => { p with resetting := true, abandoned := p.abandoned ++ ts.flatMap fun t => openParts t here }) (ctlSetFld (.partCfg q) 2 1 1 s)
/-- The state once its launches, waits and teams are stopped. -/
def resetStopped (q : Nat) (s : State) : State :=
  let ts := (allTeams s).filter fun t => t.part == q && t.status != .gone
  let u := dropWaits q (abandonLaunches q (resetBegun q s))
  modTeams (fun t => t.part == q) Team.stopped { u with
    twaits := u.twaits.filter fun w => !(ts.any fun t => t.id == w.team || t.id == w.target)
    launches := u.launches.filter fun l => l.part != q }

theorem startReset_again (h : (partOf q s).resetting = true) : startReset q s = s := if_pos h
theorem startReset_starts (h : (partOf q s).resetting = false) :
    startReset q s = cause (.partitionResetComplete q) (lookClusters (writeBackPart q (dropFaults q (resetStopped q s))).2) :=
  if_neg (by rw [h]; exact Bool.false_ne_true)

/-- Each team of the partition is stopped. -/
theorem modTeams_stopped (u : State) :
    (∀ t ∈ (modTeams (fun t => t.part == q) Team.stopped u).teams, t.part = q → Stopped t)
    ∧ ((modTeams (fun t => t.part == q) Team.stopped u).cur.part = q → Stopped (modTeams (fun t => t.part == q) Team.stopped u).cur) := by
  have hone (t : Team) (h : (if t.part == q then t.stopped else t).part = q) : Stopped (if t.part == q then t.stopped else t) := by
    by_cases hq : (t.part == q) = true
    · rw [if_pos hq]; exact stopped_stopped t
    · rw [if_neg hq] at h
      exact absurd (beq_iff_eq.2 h) hq
  refine ⟨fun t ht => ?_, hone u.cur⟩
  obtain ⟨t0, -, rfl⟩ := List.mem_map.1 ht
  exact hone t0
/-- What of the partition still waits for something is gone. -/
theorem dropWaits_drops (u : State) :
    (∀ m ∈ (dropWaits q u).monitors, m.part ≠ q) ∧ (∀ x ∈ (dropWaits q u).qwait, x.op.part ≠ q)
    ∧ ∀ e ∈ (dropWaits q u).lsu, e.req.part = q → e.phase ≠ .held ∧ e.phase ≠ .monitor ∧ ∀ h, e.phase ≠ .retry h := by
  refine ⟨fun m hm => bne_iff_ne.1 (List.mem_filter.1 hm).2, fun x hx => bne_iff_ne.1 (List.mem_filter.1 hx).2, fun e he hq => ?_⟩
  have h := (List.mem_filter.1 he).2
  rw [Bool.not_eq_true', Bool.and_eq_false_iff, Bool.or_eq_false_iff] at h
  have hw := (h.resolve_left (by rw [beq_iff_eq.2 hq]; decide)).1
  refine ⟨fun hp => ?_, fun hp => ?_, fun r hp => ?_⟩ <;> simp only [hp, reduceCtorEq] at hw
/-- The status bit of a reset stands. -/
theorem resetBegun_bit : (ctlRaw (.partCfg q) (resetBegun q s)).toNat / 2 ^ 2 % 2 = 1 := by
  have h : ctlRaw (.partCfg q) (resetBegun q s) = ctlRaw (.partCfg q) (ctlSetFld (.partCfg q) 2 1 1 s) := rfl
  have hlt := (ctlRaw (.partCfg q) s).isLt
  rw [h, ctlSetFld, ctlRaw_ctlPut_same, w64, BitVec.toNat_ofNat, fld]
  omega

/-! ## Function-level resets -/

theorem nodup_eraseDups {α : Type} [BEq α] [LawfulBEq α] (l : List α) : l.eraseDups.Nodup := by
  induction h : l.length using Nat.strong_induction_on generalizing l with
  | _ n ih =>
    cases l with
    | nil => exact List.nodup_nil
    | cons a l =>
      rw [List.eraseDups_cons, List.nodup_cons]
      refine ⟨fun hm => ?_, ih _ ?_ _ rfl⟩
      · have hb := (List.mem_filter.1 (List.mem_eraseDups.1 hm)).2
        simp at hb
      · rw [← h]; exact Nat.lt_succ_of_le (List.length_filter_le _ _)

/-- R66: the partitions of a function's enabled interfaces. -/
def flrParts (q : Nat) (s : State) : List Nat :=
  (((List.range 1024).filter fun i => ctlFld (.qifCfg i) 3 1 s == 1 && ctlFld (.qifCfg i) 0 3 s == q).map fun i => ctlFld (.qifCfg i) 4 6 s).eraseDups
theorem mem_flrParts (p : Nat) : p ∈ flrParts q s ↔ ∃ i, i < 1024 ∧ (ctlRaw (.qifCfg i) s).getLsbD 3 = true ∧ (ctlRaw (.qifCfg i) s).toNat % 2 ^ 3 = q
    ∧ (ctlRaw (.qifCfg i) s).toNat / 2 ^ 4 % 2 ^ 6 = p := by
  have hbit (i : Nat) : ctlFld (.qifCfg i) 3 1 s = 1 ↔ (ctlRaw (.qifCfg i) s).getLsbD 3 = true := by
    rw [ctlFld, fld_bit]; cases (ctlRaw (.qifCfg i) s).getLsbD 3 <;> decide
  have hlow (i : Nat) : ctlFld (.qifCfg i) 0 3 s = (ctlRaw (.qifCfg i) s).toNat % 2 ^ 3 := fld_low _ 3
  simp only [flrParts, List.mem_eraseDups, List.mem_map, List.mem_filter, List.mem_range, Bool.and_eq_true, beq_iff_eq, hbit, hlow, and_assoc]
  rfl
theorem functionLevelReset_next (ha : awake s = true) : exec (.functionLevelReset q) s
    = .next ((flrParts q s).foldl (fun u p => startReset p u) { s with msixTab := s.msixTab.filter fun x => x.1.1 != q, msixPend := s.msixPend.filter fun x => x.1 != q }) := by
  show execFunctionLevelReset q s = _
  unfold execFunctionLevelReset
  rw [event_awake ha]
  simp only [forEach, flrParts]

/-! ## The end of a reset -/

theorem resetComplete_idle (ha : awake s = true) (h : (partOf q s).resetting = false) : exec (.partitionResetComplete q) s = .next s := by
  show execPartitionResetComplete q s = _
  unfold execPartitionResetComplete
  rw [event_awake ha]
  dsimp only
  rw [h, if_pos (by decide)]

/-- What outlives the partition's reset, before its registers are set. -/
def resetWiped (q : Nat) (s : State) : State :=
  let gone (t : Team) : Bool := t.part == q && t.id != 0
  { s with
    embers := s.embers.filter fun e => e.part != q
    teams := s.teams.filter fun t => !gone t
    cur := if gone s.cur then {} else s.cur
    wgs := s.wgs.filter fun w => w.part != q
    launches := s.launches.filter fun l => l.part != q
    cores := s.cores.map fun (c : Nat × Core) => (c.1, { c.2 with dl := c.2.dl.filter fun d => d.part != q }) }
/-- R66 step 5: its interfaces start again. -/
def restartQifs (q : Nat) (s : State) : State :=
  forEach ((List.range 1024).filter fun i => ctlFld (.qifCfg i) 4 6 s == q) (fun i s => modQif i (fun x => { x with next := 0, done := 0, held := [], taken := [] }) s) s
/-- R66 step 5: its pending events are clear, and its hotness tail takes the head. -/
def clearPending (q : Nat) (s : State) : State :=
  let s := forEach (List.range 16) (fun e s => ctlSetFld (.irqMap q e) 16 1 0 s) s
  ctlSetFld (.hotPtr q) 24 24 (ctlFld (.hotPtr q) 0 24 s) s
/-- R66 step 6: it is no longer being reset. -/
def resetOver (q : Nat) (s : State) : State :=
  modPart q (fun p => { p with resetting := false, pointer := 0, savedWgs := [] }) (ctlSetFld (.partCfg q) 2 1 0 s)

section Complete
variable (ha : awake s = true) (h : (partOf q s).resetting = true)
include ha h

theorem resetComplete_waits (hw : (writeBackPart q (dropWaits q (dropFaults q s))).1 = false ∨ resetWaits q (writeBackPart q (dropWaits q (dropFaults q s))).2 = true) :
    exec (.partitionResetComplete q) s = .next (cause (.partitionResetComplete q) (writeBackPart q (dropWaits q (dropFaults q s))).2) := by
  show execPartitionResetComplete q s = _
  unfold execPartitionResetComplete
  rw [event_awake ha]
  dsimp only
  rw [h, if_neg (by decide), if_pos (by rw [Bool.or_eq_true, Bool.not_eq_true']; exact hw)]
theorem resetComplete_ends (h1 : (writeBackPart q (dropWaits q (dropFaults q s))).1 = true) (h2 : resetWaits q (writeBackPart q (dropWaits q (dropFaults q s))).2 = false) :
    exec (.partitionResetComplete q) s = .next (lookClusters (raiseEvent q 6
      (resetOver q (clearPending q (restartQifs q (resetWiped q (writeBackPart q (dropWaits q (dropFaults q s))).2)))))) := by
  show execPartitionResetComplete q s = _
  unfold execPartitionResetComplete
  rw [event_awake ha]
  dsimp only
  rw [h, if_neg (by decide), h1, h2, if_neg (by decide)]
  simp only [resetOver, clearPending, restartQifs, resetWiped]
end Complete

/-! ## What the end of a reset leaves -/

/-- Starting interfaces again changes nothing but them. -/
theorem forEach_modQif (f : Qif → Qif) (is : List Nat) (s : State) : ∃ x, forEach is (fun i s => modQif i f s) s = { s with qifs := x } := by
  induction is generalizing s with
  | nil => exact ⟨s.qifs, rfl⟩
  | cons i is ih =>
    obtain ⟨x, hx⟩ := ih (modQif i f s)
    exact ⟨x, hx⟩
theorem qifOf_modQif_ne {i j : Nat} (f : Qif → Qif) (s : State) (h : j ≠ i) : qifOf j (modQif i f s) = qifOf j s := alGet_alSet_ne _ _ _ h
/-- What holds of an interface that is started again stays so while others are. -/
theorem forEach_modQif_of {P : Qif → Prop} (f : Qif → Qif) (hf : ∀ x, P (f x)) (is : List Nat) (s : State) (i : Nat) (h : i ∈ is ∨ P (qifOf i s)) :
    P (qifOf i (forEach is (fun i s => modQif i f s) s)) := by
  induction is generalizing s with
  | nil => exact h.resolve_left List.not_mem_nil
  | cons j is ih =>
    refine ih _ ?_
    by_cases hj : i = j
    · subst hj
      rw [qifOf_modQif_same]
      exact .inr (hf _)
    · rw [qifOf_modQif_ne f s hj]
      exact h.imp (fun hm => (List.mem_cons.1 hm).resolve_left hj) id
theorem ctlRaw_ctlSetFld_ne {r r' : CtlReg} (lo n v : Nat) (s : State) (h : r' ≠ r) : ctlRaw r' (ctlSetFld r lo n v s) = ctlRaw r' s := ctlRaw_ctlPut_ne _ _ h
/-- Clearing pending events changes nothing but the registers, and no other register. -/
theorem forEach_clear (q : Nat) (es : List Nat) (s : State) :
    ∃ c, forEach es (fun e s => ctlSetFld (.irqMap q e) 16 1 0 s) s = { s with ctl := c } ∧ ∀ r, (∀ e, r ≠ .irqMap q e) → ctlRaw r { s with ctl := c } = ctlRaw r s := by
  induction es generalizing s with
  | nil => exact ⟨s.ctl, rfl, fun _ _ => rfl⟩
  | cons e es ih =>
    obtain ⟨c, hc, hr⟩ := ih (ctlSetFld (.irqMap q e) 16 1 0 s)
    exact ⟨c, hc, fun r h => (hr r h).trans (ctlRaw_ctlSetFld_ne _ _ _ _ (h e))⟩
theorem pending_cleared (r : CtlReg) (s : State) : (ctlRaw r (ctlSetFld r 16 1 0 s)).toNat / 2 ^ 16 % 2 = 0 := by
  have hlt := (ctlRaw r s).isLt
  rw [ctlSetFld, ctlRaw_ctlPut_same, w64, BitVec.toNat_ofNat, fld]
  omega
theorem forEach_clear_of (q : Nat) (es : List Nat) (s : State) (e : Nat) (h : e ∈ es ∨ (ctlRaw (.irqMap q e) s).toNat / 2 ^ 16 % 2 = 0) :
    (ctlRaw (.irqMap q e) (forEach es (fun e s => ctlSetFld (.irqMap q e) 16 1 0 s) s)).toNat / 2 ^ 16 % 2 = 0 := by
  induction es generalizing s with
  | nil => exact h.resolve_left List.not_mem_nil
  | cons j es ih =>
    refine ih _ ?_
    by_cases hj : e = j
    · subst hj; exact .inr (pending_cleared _ _)
    · rw [ctlRaw_ctlSetFld_ne _ _ _ _ (by simpa using hj)]
      exact h.imp (fun hm => (List.mem_cons.1 hm).resolve_left hj) id

/-- The registers of the last two steps. -/
theorem resetOver_frame (u : State) : ∃ c x, resetOver q (clearPending q u) = { u with ctl := c, parts := x } := by
  obtain ⟨c, hc, -⟩ := forEach_clear q (List.range 16) u
  rw [clearPending, hc]
  exact ⟨_, _, rfl⟩
theorem restartQifs_frame (u : State) : ∃ x, restartQifs q u = { u with qifs := x } := forEach_modQif _ _ u
theorem restartQifs_restarts (u : State) {i : Nat} (hi : i < 1024) (ho : (ctlRaw (.qifCfg i) u).toNat / 2 ^ 4 % 2 ^ 6 = q) :
    (qifOf i (restartQifs q u)).next = 0 ∧ (qifOf i (restartQifs q u)).done = 0 ∧ (qifOf i (restartQifs q u)).held = [] ∧ (qifOf i (restartQifs q u)).taken = [] := by
  refine forEach_modQif_of (P := fun x => x.next = 0 ∧ x.done = 0 ∧ x.held = [] ∧ x.taken = []) _ (fun _ => ⟨rfl, rfl, rfl, rfl⟩) _ u i (.inl ?_)
  exact List.mem_filter.2 ⟨List.mem_range.2 hi, beq_iff_eq.2 ho⟩
theorem ctlRaw_modPart (r : CtlReg) (f : Part → Part) (u : State) : ctlRaw r (modPart q f u) = ctlRaw r u := rfl
/-- The events stay clear, the tail has taken the head, and the status bit is clear. -/
theorem resetOver_pending (u : State) {e : Nat} (he : e < 16) : (ctlRaw (.irqMap q e) (resetOver q (clearPending q u))).toNat / 2 ^ 16 % 2 = 0 := by
  rw [resetOver, ctlRaw_modPart, ctlRaw_ctlSetFld_ne _ _ _ _ (by simp), clearPending, ctlRaw_ctlSetFld_ne _ _ _ _ (by simp)]
  exact forEach_clear_of q _ u e (.inl (List.mem_range.2 he))
/-- The upper field of a word takes the lower one. -/
theorem tail_takes_head {x : Nat} (hx : x < 2 ^ 64) : (x - x / 2 ^ 24 % 2 ^ 24 * 2 ^ 24 + x % 2 ^ 24 % 2 ^ 24 * 2 ^ 24) % 2 ^ 64 / 2 ^ 24 % 2 ^ 24 = x % 2 ^ 24 := by
  obtain ⟨lo, hlo⟩ : ∃ lo, lo = x % 2 ^ 24 := ⟨_, rfl⟩
  obtain ⟨mid, hmid⟩ : ∃ mid, mid = x / 2 ^ 24 % 2 ^ 24 := ⟨_, rfl⟩
  obtain ⟨hi, hhi⟩ : ∃ hi, hi = x / 2 ^ 48 := ⟨_, rfl⟩
  have h : x - mid * 2 ^ 24 + lo * 2 ^ 24 = lo + lo * 2 ^ 24 + hi * 2 ^ 48 := by omega
  have hb : lo < 2 ^ 24 ∧ hi < 2 ^ 16 := by omega
  have hd : (lo + lo * 2 ^ 24 + hi * 2 ^ 48) / 2 ^ 24 = lo + hi * 2 ^ 24 := by clear hlo hmid hhi h hx; omega
  have hlt : lo + lo * 2 ^ 24 + hi * 2 ^ 48 < 2 ^ 64 := by clear hlo hmid hhi h hx; omega
  rw [Nat.mod_mod, ← hlo, ← hmid, h, Nat.mod_eq_of_lt hlt, hd]
  clear hlo hmid hhi h hx hd
  omega
theorem resetOver_hot (u : State) :
    (ctlRaw (.hotPtr q) (resetOver q (clearPending q u))).toNat / 2 ^ 24 % 2 ^ 24 = (ctlRaw (.hotPtr q) u).toNat % 2 ^ 24 := by
  obtain ⟨c, hc, hr⟩ := forEach_clear q (List.range 16) u
  have hlt := (ctlRaw (.hotPtr q) u).isLt
  rw [resetOver, ctlRaw_modPart, ctlRaw_ctlSetFld_ne _ _ _ _ (by simp), clearPending, hc, ctlSetFld, ctlRaw_ctlPut_same, ctlFld, hr _ (by simp), w64,
    BitVec.toNat_ofNat, fld_low, fld]
  exact tail_takes_head hlt
theorem resetOver_status (u : State) : (ctlRaw (.partCfg q) (resetOver q u)).toNat / 2 ^ 2 % 2 = 0 := by
  have hlt := (ctlRaw (.partCfg q) u).isLt
  rw [resetOver, ctlRaw_modPart, ctlSetFld, ctlRaw_ctlPut_same, w64, BitVec.toNat_ofNat, fld]
  omega
theorem resetOver_part (u : State) : (partOf q (resetOver q u)).resetting = false ∧ (partOf q (resetOver q u)).pointer = 0 ∧ (partOf q (resetOver q u)).savedWgs = [] := by
  rw [resetOver, partOf_modPart_same]; exact ⟨rfl, rfl, rfl⟩
/-- What a reset wipes: the partition's teams, workgroups, launches, embers and cache lines. -/
theorem resetWiped_wipes (v : State) :
    let u := resetWiped q v
    (∀ t ∈ u.teams, t.part = q → t.id = 0) ∧ (u.cur.id ≠ 0 → u.cur.part ≠ q) ∧ (∀ w ∈ u.wgs, w.part ≠ q)
    ∧ (∀ l ∈ u.launches, l.part ≠ q) ∧ (∀ e ∈ u.embers, e.part ≠ q) ∧ (∀ c ∈ u.cores, ∀ d ∈ c.2.dl, d.part ≠ q) := by
  have hgone (t : Team) (h : (!(t.part == q && t.id != 0)) = true) (hq : t.part = q) : t.id = 0 := by
    rw [Bool.not_eq_true', Bool.and_eq_false_iff, beq_eq_false_iff_ne, bne_eq_false_iff_eq] at h
    exact h.resolve_left (not_not.2 hq)
  refine ⟨fun t ht => hgone t (List.mem_filter.1 ht).2, ?_, fun w hw => bne_iff_ne.1 (List.mem_filter.1 hw).2, fun l hl => bne_iff_ne.1 (List.mem_filter.1 hl).2,
    fun e he => bne_iff_ne.1 (List.mem_filter.1 he).2, fun c hc d hd => ?_⟩
  · show (if (v.cur.part == q && v.cur.id != 0) = true then ({} : Team) else v.cur).id ≠ 0 → (if (v.cur.part == q && v.cur.id != 0) = true then ({} : Team) else v.cur).part ≠ q
    by_cases hg : (v.cur.part == q && v.cur.id != 0) = true
    · rw [if_pos hg]; exact fun h => absurd rfl h
    · rw [if_neg hg]
      exact fun hid hq => hid (hgone _ (by rw [Bool.not_eq_true', ← Bool.not_eq_true]; exact hg) hq)
  · obtain ⟨c0, -, rfl⟩ := List.mem_map.1 hc
    exact bne_iff_ne.1 (List.mem_filter.1 hd).2

/-- Settles O44. -/
theorem partitionResets : Obligations.PartitionResets := by
  refine ⟨?begins, ?ends⟩
  case begins =>
    intro s q stopped cleared owned
    refine ⟨startReset_again, fun h => ?starts, fun ha => ?function⟩
    · obtain ⟨hmon, hq, hlsu⟩ := dropWaits_drops (q := q) (abandonLaunches q (resetBegun q s))
      obtain ⟨hteams, hcur⟩ := modTeams_stopped (q := q)
        { dropWaits q (abandonLaunches q (resetBegun q s)) with
          twaits := (dropWaits q (abandonLaunches q (resetBegun q s))).twaits.filter fun w =>
            !(((allTeams s).filter fun t => t.part == q && t.status != .gone).any fun t => t.id == w.team || t.id == w.target)
          launches := (dropWaits q (abandonLaunches q (resetBegun q s))).launches.filter fun l => l.part != q }
      refine ⟨resetBegun q s, resetStopped q s, startReset_starts h, ?_, resetBegun_bit, rfl, rfl, rfl, rfl, fun l hl => ?_, hmon, hq, hteams, hcur, hlsu⟩
      · rw [resetBegun]; exact congrArg Part.resetting (partOf_modPart_same _ _ _)
      · exact bne_iff_ne.1 (List.mem_filter.1 hl).2
    · exact ⟨flrParts q s, mem_flrParts, nodup_eraseDups _, functionLevelReset_next ha⟩
  case ends =>
    intro s q x v ha
    refine ⟨resetComplete_idle ha, resetComplete_waits ha, fun h h1 h2 => ?_⟩
    have hw := resetWiped_wipes (q := q) v
    have hr {i : Nat} := restartQifs_restarts (q := q) (resetWiped q v) (i := i)
    obtain ⟨x, hx⟩ := restartQifs_frame (q := q) (resetWiped q v)
    rw [hx] at hr
    obtain ⟨c, p, hu⟩ := resetOver_frame (q := q) { resetWiped q v with qifs := x }
    have hpend {e : Nat} := resetOver_pending (q := q) { resetWiped q v with qifs := x } (e := e)
    have hhot := resetOver_hot (q := q) { resetWiped q v with qifs := x }
    have hstat := resetOver_status (q := q) (clearPending q { resetWiped q v with qifs := x })
    have hpart := resetOver_part (q := q) (clearPending q { resetWiped q v with qifs := x })
    have hend := resetComplete_ends ha h h1 h2
    rw [show (writeBackPart q (dropWaits q (dropFaults q s))).2 = v from rfl, hx] at hend
    rw [hu] at hend hpend hhot hstat hpart
    clear_value v
    obtain ⟨hteams, hcur, hwgs, hlaunches, hembers, hcores⟩ := hw
    obtain ⟨hreset, hpointer, hsaved⟩ := hpart
    exact ⟨_, hend, hteams, hcur, hwgs, hlaunches, hembers, hcores, fun i hi ho => hr hi ho, fun e he => hpend he, hhot, hstat, hreset, hpointer, hsaved, rfl⟩

end Sys2Proof.Proofs
end

section
/-! SUPPORT. The cycles of cores, the Damper and the hang watchdog (R27, R71, R72, R110, R113, R371, R380). -/

namespace Sys2Proof.Proofs
open Sys2Proof Sys2Proof.Machine Sys2Proof.Safety Sys2Proof.Laws

variable {s : State}

/-! ## The cycle of a core (R110, R113) -/

section Cycle
variable {n : Nat} (ha : awake s = true)
include ha

theorem coreCycle_gated {u : State} (hu : fillHob n (leaveHob n (clearWaits n s)) = u) (h : u.power.halted = true) : exec (.coreCycle n) s = .next u := by
  show execCoreCycle n s = _
  unfold execCoreCycle
  rw [event_awake ha, hu]
  simp only [issueGated, h, Bool.true_or, if_true]
theorem coreCycle_picks {u : State} (hu : fillHob n (leaveHob n (clearWaits n s)) = u) (h : u.power.halted = false) (hl : u.power.level.getD (dieOf n u) 0 = 0) :
    exec (.coreCycle n) s = .next (pickTeams n u) := by
  show execCoreCycle n s = _
  unfold execCoreCycle
  rw [event_awake ha, hu]
  simp only [issueGated, h, hl, Nat.not_lt_zero, decide_false, Bool.or_self, Bool.false_eq_true, if_false]
theorem forcedLeave_idle (h : starved n s = false) : exec (.forcedLeave n) s = .next s := by
  show execForcedLeave n s = _
  unfold execForcedLeave
  rw [event_awake ha]
  simp only [h, Bool.not_false, if_true]
theorem forcedLeave_first {t : Team} (h : starved n s = true) (hf : firstOnHob n s = some t) : exec (.forcedLeave n) s = .next (
    if s.ck < t.busy || s.issue.contains t.id then s
    else modTeam t.id (fun t => { t with status := .shelfReady, readySince := s.ck, passed := 0, urgent := none, yielded := false }) s) := by
  show execForcedLeave n s = _
  unfold execForcedLeave
  rw [event_awake ha]
  simp only [h, hf, Bool.not_true, Bool.false_eq_true, if_false]
theorem trapEntry_enters {id : Nat} (hid : (focus id s).cur.id = id) (hh : (focus id s).cur.onHob = true) (he : (focus id s).cur.emu = false) :
    exec (.trapEntry id) s = .next (trapEnter (focus id s)) := by
  show execTrapEntry id s = _
  unfold execTrapEntry
  rw [event_awake ha]
  dsimp only
  rw [if_pos ⟨hid, hh, by rw [he]; rfl⟩]
end Cycle

/-- R113: a shelf team has been ready for 2,048 ck, and no swap event has come in them. -/
theorem starved_iff (n : Nat) : starved n s = true ↔
    (∃ t ∈ cycleTeams n s, t.status = .shelfReady ∧ t.readySince + 2048 ≤ s.ck) ∧ (coreOf n s).lastSwap + 2048 ≤ s.ck := by
  simp only [starved, Bool.and_eq_true, decide_eq_true_eq, List.any_eq_true, beq_iff_eq, and_comm]

/-! ## The Damper (R371) -/

section Damper
variable {c : Core} {work : Bool}

/-- One ck of a Damper whose hold has not run out. -/
def damperStep (work : Bool) (c : Core) : Core :=
  if work || c.hold.isSome then
    let r := if c.idle = 0 then c.ramp + 1 else 1
    if 8 ≤ c.damper then { c with ramp := 0, idle := 0, hold := c.hold.map (· - 1) }
    else if r = 64 then { c with damper := c.damper + 1, ramp := 0, idle := 0 }
    else { c with ramp := r, idle := 0 }
  else if c.idle < 2048 then { c with idle := c.idle + 1, ramp := 0 }
  else if c.ramp + 1 = 64 then { c with damper := max 1 (c.damper - 1), ramp := 0 }
  else { c with ramp := c.ramp + 1 }
theorem damperTick_eq : c.damperTick work = damperStep work (if c.damper = 8 ∧ c.hold = some 0 then { c with hold := none } else c) := rfl
theorem damperTick_of_kept (h : ¬(c.damper = 8 ∧ c.hold = some 0)) : c.damperTick work = damperStep work c := by rw [damperTick_eq, if_neg h]
/-- A hold that has run out is over. -/
theorem damperTick_holdEnds (hd : c.damper = 8) (hh : c.hold = some 0) : c.damperTick work = { c with hold := none }.damperTick work := by
  rw [damperTick_of_kept (c := { c with hold := none }) (fun h => nomatch h.2), damperTick_eq, if_pos ⟨hd, hh⟩]
/-- R371: the level rises while there is work or a hold. -/
theorem damperTick_rises (hw : work = true ∨ c.hold.isSome = true) (hd : c.damper < 8) :
    c.damperTick work = if (if c.idle = 0 then c.ramp + 1 else 1) = 64 then { c with damper := c.damper + 1, ramp := 0, idle := 0 }
      else { c with ramp := if c.idle = 0 then c.ramp + 1 else 1, idle := 0 } := by
  rw [damperTick_of_kept (fun h => by omega), damperStep, if_pos (by rw [Bool.or_eq_true]; exact hw)]
  exact if_neg (by omega)
theorem damperTick_top (hw : work = true ∨ c.hold.isSome = true) (hd : c.damper = 8) (hh : c.hold ≠ some 0) :
    c.damperTick work = { c with ramp := 0, idle := 0, hold := c.hold.map (· - 1) } := by
  rw [damperTick_of_kept (fun h => hh h.2), damperStep, if_pos (by rw [Bool.or_eq_true]; exact hw)]
  exact if_pos (by omega)
theorem damperTick_idle (hh : c.hold = none) : c.damperTick false =
    if c.idle < 2048 then { c with idle := c.idle + 1, ramp := 0 }
    else if c.ramp + 1 = 64 then { c with damper := max 1 (c.damper - 1), ramp := 0 } else { c with ramp := c.ramp + 1 } := by
  rw [damperTick_of_kept (fun h => nomatch hh.symm.trans h.2), damperStep, if_neg (by rw [hh]; decide)]
end Damper

/-- Settles O46. -/
theorem coreCycles : Obligations.CoreCycles := by
  intro s n id t looked starved' first ha
  have hst := starved_iff (s := s) n
  refine ⟨coreCycle_gated ha rfl, coreCycle_picks ha rfl, fun h => forcedLeave_idle ha (Bool.eq_false_iff.2 (mt hst.1 h)), fun h hf hb => ?_, fun h hf hb hi => ?_,
    trapEntry_enters ha, event_awake ha, ?damper⟩
  · refine (forcedLeave_first ha (hst.2 h) hf).trans (congrArg Host.Outcome.next (if_pos ?_))
    rw [Bool.or_eq_true, decide_eq_true_eq, List.contains_iff_mem]
    exact hb
  · refine (forcedLeave_first ha (hst.2 h) hf).trans (congrArg Host.Outcome.next (if_neg ?_))
    rw [Bool.or_eq_true, decide_eq_true_eq, List.contains_iff_mem]
    exact fun h => h.elim (fun h => by omega) hi
  case damper =>
    intro c work h rising
    refine ⟨fun hw hd => ⟨fun hr => ?_, fun hr => ?_⟩, fun hd hh => ?_, damperTick_holdEnds, fun hd hh => ?_, fun hh hi => ?_, fun hh hi hr => ?_, fun hh hi hr => ?_⟩
    · exact (damperTick_rises hw hd).trans (if_pos hr)
    · exact (damperTick_rises hw hd).trans (if_neg hr)
    · rw [damperTick_top (.inr (by rw [hh]; rfl)) hd (by rw [hh]; simp), hh]; rfl
    · rw [damperTick_top (.inl rfl) hd (by rw [hh]; simp), hh, Option.map_none, ← hh]
    · exact (damperTick_idle hh).trans (if_pos hi)
    · exact (damperTick_idle hh).trans ((if_neg (Nat.not_lt.2 hi)).trans (if_neg hr))
    · exact (damperTick_idle hh).trans ((if_neg (Nat.not_lt.2 hi)).trans (if_pos hr))

/-! ## The hang watchdog (R71, R72) -/

section Wdog
variable {l q : Nat} {x : Launch}

/-- The partition's limit in ck. -/
theorem wdogLimit_eq (q : Nat) : wdogLimit q s
    = if (ctlRaw (.partWdog q) s).toNat % 2 ^ 32 = 0 then none else some ((ctlRaw (.partWdog q) s).toNat % 2 ^ 32 * 1900) := by
  rw [wdogLimit, ctlFld, fld_low]; rfl
variable (ha : awake s = true) (hl : launchOf l s = some x) (hp : x.phase = .running)
include ha hl hp

theorem watchdogExpiry_early (h : (ctlRaw (.partWdog x.part) s).toNat % 2 ^ 32 * 1900 = 0 ∨ x.wdog < (ctlRaw (.partWdog x.part) s).toNat % 2 ^ 32 * 1900) :
    exec (.watchdogExpiry l) s = .next s := by
  show execWatchdogExpiry l s = _
  unfold execWatchdogExpiry
  rw [event_awake ha]
  simp only [hl, hp, wdogLimit_eq]
  by_cases h0 : (ctlRaw (.partWdog x.part) s).toNat % 2 ^ 32 = 0
  · rw [if_pos h0]; rfl
  · rw [if_neg h0]
    have hlt := h.resolve_left (by omega)
    simp only [decide_eq_true hlt, Bool.or_true, if_true]
theorem watchdogExpiry_fires (h0 : (ctlRaw (.partWdog x.part) s).toNat % 2 ^ 32 * 1900 ≠ 0) (h : (ctlRaw (.partWdog x.part) s).toNat % 2 ^ 32 * 1900 ≤ x.wdog) :
    exec (.watchdogExpiry l) s = .next (
      let u := raiseEvent x.part 3 (ctlSetFld (.partWdog x.part) 32 1 1 s)
      let ts := (launchTeams l u).map (·.id)
      if ctlFld .duty 6 1 u = 0 then modLaunch l (fun x => { x with wdog := 0 }) (modTeams (fun t => ts.contains t.id) (Team.wdogHit u.ck) u)
      else modLaunch l (fun x => { x with wdogHalt := true }) (modTeams (fun t => ts.contains t.id) (Team.halt u.ck) u)) := by
  show execWatchdogExpiry l s = _
  unfold execWatchdogExpiry
  rw [event_awake ha]
  have hn : ¬(ctlRaw (.partWdog x.part) s).toNat % 2 ^ 32 = 0 := by omega
  simp only [hl, hp, wdogLimit_eq, if_neg hn, decide_eq_false (Nat.not_lt.2 h), bne_self_eq_false, Bool.or_self, Bool.false_eq_true, if_false]
end Wdog

/-- R72: the count of each halted launch starts again. -/
def countAgain (q : Nat) (s : State) : State := (haltedLaunches q s).foldl (fun u l => modLaunch l (fun x => { x with wdogHalt := false, wdog := 0 }) u) s
theorem wdogKill_next {q : Nat} (ha : awake s = true) : exec (.wdogKill q) s
    = .next ((((haltedLaunches q s).flatMap fun l => launchTeams l (countAgain q s)).map (·.id)).foldl (fun u id => killTeam id u) (countAgain q s)) := by
  show execWdogKill q s = _
  unfold execWdogKill
  rw [event_awake ha, List.foldl_map]
  rfl
theorem wdogResume_next {q : Nat} (ha : awake s = true) : exec (.wdogResume q) s = .next (
    let u := countAgain q s
    forEach (((haltedLaunches q s).flatMap fun l => launchTeams l u).filter fun t => t.status == .halted && !beingSaved t.wg u && (clusterOf (clusterIx t.core u) u).holder == some q)
      (fun t s => if t.spilled then causeOnce (.unitReload t.id) s else resumeTeam t.id s) u) := by
  show execWdogResume q s = _
  unfold execWdogResume
  rw [event_awake ha]
  rfl
/-- The one team of the one halted launch goes on. -/
theorem wdogResume_one {q l : Nat} {t : Team} (ha : awake s = true) (hh : haltedLaunches q s = [l]) (ht : launchTeams l (countAgain q s) = [t])
    (hs : t.status = .halted) (hsp : t.spilled = false) (hb : beingSaved t.wg (countAgain q s) = false)
    (hc : (clusterOf (clusterIx t.core (countAgain q s)) (countAgain q s)).holder = some q) :
    exec (.wdogResume q) s = .next (resumeTeam t.id (countAgain q s)) := by
  rw [wdogResume_next ha]
  dsimp only
  rw [hh, List.flatMap_cons, List.flatMap_nil, List.append_nil, ht, List.filter_cons, hs, hb, hc]
  simp only [beq_self_eq_true, Bool.not_false, Bool.and_self, if_true, List.filter_nil, forEach, List.foldl_cons, List.foldl_nil, hsp, Bool.false_eq_true, if_false]
/-- R72, R384: a team that the watchdog hits takes its trap at its current instruction. -/
theorem wdogHit_takes (ck : Nat) {t : Team} (hd : t.dead = false) (he : t.exited = false) :
    (Team.wdogHit ck t).wdog = true ∧ (t.handler = false → ∀ w, t.status = .shelfWait w → (Team.wdogHit ck t).status = .shelfReady) := by
  have hwake (u : Team) : (u.wake ck).wdog = u.wdog := by
    unfold Team.wake; split <;> rfl
  rw [Team.wdogHit, hd, he]
  by_cases hh : t.handler = true
  · refine ⟨?_, fun h => absurd (hh.symm.trans h) (by decide)⟩
    simp only [hh, Bool.or_self, Bool.false_eq_true, if_false, if_true]
  · simp only [hh, Bool.or_self, Bool.false_eq_true, if_false]
    refine ⟨hwake _, fun _ w hw => ?_⟩
    unfold Team.wake
    simp only [hw]

/-- Settles O47. -/
theorem hangWatchdog : Obligations.HangWatchdog := by
  intro s l q limit x fired mine set host halted counting ha
  have hcount : counting = countAgain q s := rfl
  have hhalt : halted = haltedLaunches q s := rfl
  have hduty : ctlFld .duty 6 1 fired = 0 ↔ ¬host := by
    show (ctlRaw .duty fired).toNat / 2 ^ 6 % 2 ^ 1 = 0 ↔ ¬(ctlRaw .duty fired).toNat / 2 ^ 6 % 2 = 1
    omega
  refine ⟨fun hl hp hlim => ⟨fun h => watchdogExpiry_early ha hl hp (hlim ▸ h), fun h0 h hh => ?_, fun h0 h hh => ?_⟩, fun h => ⟨?_, ?_⟩, ?_, ?_, fun t hd he => wdogHit_takes s.ck hd he⟩
  · exact (watchdogExpiry_fires ha hl hp (hlim ▸ h0) (hlim ▸ h)).trans (congrArg Host.Outcome.next (if_pos (hduty.2 hh)))
  · exact (watchdogExpiry_fires ha hl hp (hlim ▸ h0) (hlim ▸ h)).trans (congrArg Host.Outcome.next (if_neg fun h => hduty.1 h hh))
  · rw [wdogResume_next ha, countAgain, ← hhalt, h]; rfl
  · rw [wdogKill_next ha, countAgain, ← hhalt, h]; rfl
  · exact wdogKill_next ha
  · exact fun t hh ht hs hsp hb hc => wdogResume_one ha hh ht hs hsp hb hc

end Sys2Proof.Proofs
end

section
/-! SUPPORT. Quantum boundaries, deal passes, reloads and resumption (R61, R62, R64, R85). -/

namespace Sys2Proof.Proofs
open Sys2Proof Sys2Proof.Machine Sys2Proof.Safety Sys2Proof.Laws

variable {s : State}

/-! ## The partition with the lowest pass (R61) -/

/-- The least measure is found, where no two elements share one. -/
theorem minBy_eq {α : Type} (m : α → Nat) {l : List α} {w : α} (hw : w ∈ l) (h : ∀ x ∈ l, x ≠ w → m w < m x) : minBy? m l = some w := by
  have hmem (l : List α) (y : α) (hy : minBy? m l = some y) : y ∈ l := by
    induction l generalizing y with
    | nil => exact nomatch hy
    | cons x l ih =>
      rw [minBy?] at hy
      cases hl : minBy? m l with
      | none => rw [hl] at hy; exact Option.some.inj hy ▸ List.mem_cons_self
      | some z =>
        simp only [hl] at hy
        split at hy
        · exact Option.some.inj hy ▸ List.mem_cons_of_mem _ (ih z hl)
        · exact Option.some.inj hy ▸ List.mem_cons_self
  induction l with
  | nil => exact absurd hw List.not_mem_nil
  | cons x l ih =>
    have hl (hx : w ∈ l) : minBy? m l = some w := ih hx fun y hy => h y (List.mem_cons_of_mem _ hy)
    by_cases hx : x = w
    · subst hx
      rw [minBy?]
      cases hl' : minBy? m l with
      | none => rfl
      | some y =>
        by_cases hy : y = x
        · subst hy; simp only [Nat.lt_irrefl, if_false]
        · have hlt := h y (List.mem_cons_of_mem _ (hmem l y hl')) hy
          simp only [if_neg (Nat.not_lt.2 hlt.le)]
    · have hin := (List.mem_cons.1 hw).resolve_left (Ne.symm hx)
      rw [minBy?, hl hin]
      exact if_pos (h x List.mem_cons_self hx)

/-! ## Holders of clusters -/

/-- Resuming or halting teams does not change who holds a cluster. -/
theorem forEach_clusters {α : Type} (f : α → State → State) (hf : ∀ x u, (f x u).clusters = u.clusters) (l : List α) (s : State) : (forEach l f s).clusters = s.clusters := by
  induction l generalizing s with
  | nil => rfl
  | cons x l ih => exact (ih (f x s)).trans (hf x s)
theorem causeOnce_clusters (i : Instr) (s : State) : (causeOnce i s).clusters = s.clusters := by
  unfold causeOnce; split <;> rfl
theorem resumeTeam_clusters (id : Nat) (s : State) : (resumeTeam id s).clusters = s.clusters := by
  unfold resumeTeam
  split
  · rfl
  · split
    · rfl
    · exact modTeam_clusters _ _ _
theorem resumePart_clusters (c q : Nat) (s : State) : (resumePart c q s).clusters = s.clusters := by
  rw [resumePart]
  refine forEach_clusters _ (fun t u => ?_) _ _
  split
  · exact causeOnce_clusters _ _
  · exact resumeTeam_clusters _ _
theorem clusterOf_congr (c : Nat) {u v : State} (h : u.clusters = v.clusters) : clusterOf c u = clusterOf c v := by rw [clusterOf, clusterOf, h]
/-- R62: the cluster has the holder it is given. -/
theorem setHolder_holder (c : Nat) (h : Option Nat) (v : State) : (clusterOf c (setHolder c h v)).holder = h := by
  unfold setHolder
  dsimp only
  by_cases ho : (clusterOf c v).holder = h
  · rw [if_pos ho]; exact ho
  · rw [if_neg ho]
    cases h with
    | none => exact congrArg Cluster.holder (clusterOf_modCluster_same _ _ _)
    | some b =>
      rw [clusterOf_congr c ((causeOnce_clusters _ _).trans (resumePart_clusters _ _ _)), clusterOf_modCluster_same]

/-! ## Quantum boundaries (R61) -/

theorem noteReady_ready (c : Nat) (s : State) : (clusterOf c (noteReady c s)).ready = runnables c s := by
  rw [noteReady, clusterOf_modCluster_same]

section Quantum
variable {c : Nat} (ha : awake s = true)
include ha

theorem quantumBoundary_early (h : ¬((clusterOf c s).holder.isSome = true ∧ (clusterOf c s).last + min 1000 (max 5 ((ctlRaw .schedQuantum s).toNat % 2 ^ 10)) * 1900 ≤ s.ck)) :
    exec (.quantumBoundary c) s = .next s := by
  have hq : quantumCk s = min 1000 (max 5 ((ctlRaw .schedQuantum s).toNat % 2 ^ 10)) * 1900 := by rw [quantumCk, ctlFld, fld_low]; rfl
  show execQuantumBoundary c s = _
  unfold execQuantumBoundary
  rw [event_awake ha]
  dsimp only
  rw [if_pos]
  rw [Bool.or_eq_true, decide_eq_true_eq, hq]
  by_cases hs : (clusterOf c s).holder.isSome = true
  · exact .inr (Nat.not_le.1 fun hle => h ⟨hs, hle⟩)
  · exact .inl (by rw [Option.isSome_iff_ne_none, not_not] at hs; rw [hs]; rfl)
theorem quantumBoundary_decides (h : (clusterOf c s).holder.isSome = true ∧ (clusterOf c s).last + min 1000 (max 5 ((ctlRaw .schedQuantum s).toNat % 2 ^ 10)) * 1900 ≤ s.ck) :
    exec (.quantumBoundary c) s = .next (decideHolder c (noteReady c s)) := by
  have hq : quantumCk s = min 1000 (max 5 ((ctlRaw .schedQuantum s).toNat % 2 ^ 10)) * 1900 := by rw [quantumCk, ctlFld, fld_low]; rfl
  obtain ⟨hs, hle⟩ := h
  show execQuantumBoundary c s = _
  unfold execQuantumBoundary
  rw [event_awake ha]
  dsimp only
  rw [if_neg]
  rw [Bool.or_eq_true, decide_eq_true_eq, hq, not_or, Nat.not_lt]
  exact ⟨by rw [Option.isNone_iff_eq_none]; exact Option.isSome_iff_ne_none.1 hs, hle⟩
end Quantum
/-- With none runnable the cluster has no holder. -/
theorem decideHolder_none {c : Nat} (h : runnables c s = []) : decideHolder c (noteReady c s) = setHolder c none (noteReady c s) := by
  rw [decideHolder, noteReady_ready, h]
  rfl
/-- R61: the lowest pass wins, the lower number on ties. -/
theorem decideHolder_wins {c w : Nat} (hw : w ∈ runnables c s)
    (h : ∀ p ∈ runnables c s, alGet 0 w (clusterOf c (noteReady c s)).pass < alGet 0 p (clusterOf c (noteReady c s)).pass
      ∨ alGet 0 w (clusterOf c (noteReady c s)).pass = alGet 0 p (clusterOf c (noteReady c s)).pass ∧ w ≤ p) :
    decideHolder c (noteReady c s) = setHolder c (some w) (modCluster c (fun x => { x with
      gpass := alGet 0 w (clusterOf c (noteReady c s)).pass
      pass := alSet w (alGet 0 w (clusterOf c (noteReady c s)).pass + 2 ^ 20 / ((ctlRaw (.partCfg w) s).toNat / 2 ^ 16 % 2 ^ 16)) x.pass
      last := s.ck }) (noteReady c s)) := by
  have hlt (p : Nat) (hp : p ∈ runnables c s) : p < 64 := List.mem_range.1 (List.mem_filter.1 hp).1
  have hmin : minBy? (fun q => alGet 0 q (clusterOf c (noteReady c s)).pass * 64 + q) (runnables c s) = some w := by
    refine minBy_eq _ hw fun p hp hne => ?_
    have h1 := hlt p hp
    have h2 := hlt w hw
    rcases h p hp with h | ⟨h, hle⟩
    · omega
    · omega
  rw [decideHolder, noteReady_ready]
  simp only [hmin]
  rfl

/-! ## Deal passes (R85) -/

section Deal
variable {q : Nat} (ha : awake s = true)
include ha

theorem dealPass_resetting (h : (partOf q (lookClusters (restPointer q (vacate q s)))).resetting = true) :
    exec (.dealPass q) s = .next (lookClusters (restPointer q (vacate q s))) := by
  show execDealPass q s = _
  unfold execDealPass
  rw [event_awake ha]
  simp only [h, if_true]
theorem dealPass_again {u : State} (h : (partOf q (lookClusters (restPointer q (vacate q s)))).resetting = false)
    (hw : writesOut q (lookClusters (restPointer q (vacate q s))) = (false, u)) : exec (.dealPass q) s = .next (causeOnce (.dealPass q) u) := by
  show execDealPass q s = _
  unfold execDealPass
  rw [event_awake ha]
  simp only [h, hw, Bool.false_eq_true, if_false]
theorem dealPass_deals {u : State} (h : (partOf q (lookClusters (restPointer q (vacate q s)))).resetting = false)
    (hw : writesOut q (lookClusters (restPointer q (vacate q s))) = (true, u)) : exec (.dealPass q) s = .next (lookClusters (restPointer q (runPass q u))) := by
  show execDealPass q s = _
  unfold execDealPass
  rw [event_awake ha]
  simp only [h, hw, Bool.false_eq_true, if_false]
end Deal

/-! ## Reloads (R64) -/

section Reload
variable {team : Nat} {t : Team} (ha : awake s = true) (ht : teamOf team s = some t) (hsp : t.spilled = true) (hh : t.status = .halted)
  (hc : (clusterOf (clusterIx t.core s) s).holder = some t.part)
include ha ht hsp hh hc

omit hsp hh hc in
theorem unitReload_held (h : ((launchOfTeam t s).bind fun l => launchOf l s).any (·.wdogHalt) = true) : exec (.unitReload team) s = .next s := by
  show execUnitReload team s = _
  unfold execUnitReload
  rw [event_awake ha]
  simp only [ht, h, Bool.or_true, if_true]
/-- The units that the team needs, and those of its workgroup, are claimed once all may be. -/
theorem unitReload_claims (h : ((launchOfTeam t s).bind fun l => launchOf l s).any (·.wdogHalt) = false) : exec (.unitReload team) s = .next (
    let w := (wgOf t.wg s).getD {}
    let banks := ((w.gran.filter fun g => g.1 == t.num).map fun g => g.2 / 8).eraseDups
    let units (n : Nat) : List Nat := alGet [] n w.units
    let tiles := alGet [] t.core w.tiles
    if unclaimable t.part t.core banks (units t.core) tiles s || w.cores.any (fun n => unclaimable t.part n [] (units n) [] s) then causeOnce (.unitReload team) s
    else
      let claimed := w.cores.foldl (fun u n => spill t.part n [] (units n) [] [] u)
        (spill t.part t.core banks (units t.core) tiles [t.slot] (if w.placed t.core 4 0 then s else barrierPlace t.part t.core s))
      let back := w.cores.foldl (fun u n => regain w.id n [] (units n) [] [] u) (regain w.id t.core banks [] tiles [t.slot] claimed)
      w.cores.foldl (fun u n => claimCache n t.part 64 u) (resumeTeam team back)) := by
  have hno : (!t.spilled || t.status != .halted || (clusterOf (clusterIx t.core s) s).holder != some t.part
      || ((launchOfTeam t s).bind fun l => launchOf l s).any (·.wdogHalt)) = false := by
    rw [hsp, hh, hc, h, bne_self_eq_false, bne_self_eq_false]; rfl
  show execUnitReload team s = _
  unfold execUnitReload
  rw [event_awake ha]
  simp only [ht, hno, Bool.false_eq_true, if_false, forEach]
end Reload

/-! ## Resumption (R64) -/

/-- A change to a team shows where the team is looked up. -/
theorem teamOf_modTeam {id : Nat} {t : Team} (f : Team → Team) (ht : teamOf id s = some t) (hf : (f t).id = t.id) : teamOf id (modTeam id f s) = some (f t) := by
  unfold teamOf at ht
  unfold teamOf modTeam
  by_cases hc : s.cur.id = id
  · rw [if_pos hc] at ht
    obtain rfl := Option.some.inj ht
    rw [if_pos hc]
    exact if_pos (hf.trans hc)
  · rw [if_neg hc] at ht
    rw [if_neg hc]
    refine (if_neg hc).trans ?_
    show (updWhere (fun t => t.id == id) f s.teams).find? (fun t => t.id == id) = some (f t)
    generalize s.teams = ts at ht
    induction ts with
    | nil => exact nomatch ht
    | cons x ts ih =>
      rw [List.find?_cons] at ht
      show ((if x.id == id then f x else x) :: updWhere (fun t => t.id == id) f ts).find? (fun t => t.id == id) = _
      by_cases hx : (x.id == id) = true
      · simp only [hx] at ht
        obtain rfl := Option.some.inj ht
        rw [if_pos hx, List.find?_cons, hf, hx]
      · rw [Bool.not_eq_true] at hx
        simp only [hx] at ht
        rw [hx, if_neg Bool.false_ne_true, List.find?_cons, hx]
        exact ih ht
/-- R64: where a team that is neither dead nor exited goes on. -/
theorem goOn_live (ck : Nat) {t : Team} (hd : t.dead = false) (he : t.exited = false) : t.goOn ck =
    { t with status := (match t.haltWait with | some w => .shelfWait w | none => .shelfReady), haltWait := none
             readySince := ck, passed := 0, urgent := none, yielded := false } := by
  rw [Team.goOn, hd, he]; rfl
/-- The team as it resumes. -/
def resumed (note : Bool) (ck : Nat) (t : Team) : Team :=
  { (t.goOn ck) with spilled := false, claimed := false, pre := false, preempt := if note then some (preemptInfo ck t) else t.preempt }
theorem resumeTeam_halted {id : Nat} {t : Team} (ht : teamOf id s = some t) (hh : t.status = .halted) :
    resumeTeam id s = modTeam id (resumed (ctlFld (.partCfg t.part) 1 1 s == 1 && t.pre) s.ck) s := by
  unfold resumeTeam
  simp only [ht, hh, bne_self_eq_false, Bool.false_eq_true, if_false]
  rfl
/-- R64: a live team goes on into its wait, with PREEMPT_SAVE pending where its partition asks for it. -/
theorem resumeTeam_resumes {id : Nat} {t : Team} (ht : teamOf id s = some t) (hh : t.status = .halted) (hd : t.dead = false) (he : t.exited = false) :
    ∃ t', teamOf id (resumeTeam id s) = some t' ∧ t'.spilled = false ∧ t'.pre = false
      ∧ t'.status = (match t.haltWait with | some w => Status.shelfWait w | none => .shelfReady)
      ∧ t'.preempt = (if (ctlRaw (.partCfg t.part) s).toNat / 2 % 2 = 1 ∧ t.pre = true then some (preemptInfo s.ck t) else t.preempt)
      ∧ t'.pc = t.pc ∧ t'.s = t.s ∧ t'.v = t.v ∧ t'.k = t.k := by
  have hnote : (ctlFld (.partCfg t.part) 1 1 s == 1 && t.pre) = true ↔ (ctlRaw (.partCfg t.part) s).toNat / 2 % 2 = 1 ∧ t.pre = true := by
    rw [Bool.and_eq_true, beq_iff_eq]; rfl
  have hr (note : Bool) : resumed note s.ck t = { t with
      status := (match t.haltWait with | some w => .shelfWait w | none => .shelfReady), haltWait := none, readySince := s.ck, passed := 0, urgent := none, yielded := false
      spilled := false, claimed := false, pre := false, preempt := if note then some (preemptInfo s.ck t) else t.preempt } := by
    rw [resumed, goOn_live s.ck hd he]
  rw [resumeTeam_halted ht hh]
  refine ⟨_, teamOf_modTeam _ ht (by rw [hr]), ?_⟩
  rw [hr]
  exact ⟨rfl, rfl, rfl, if_congr hnote rfl rfl, rfl, rfl, rfl, rfl⟩

/-- Settles O45. -/
theorem strideScheduling : Obligations.StrideScheduling := by
  intro s c q team t x quantum ended u pass wins stride looked written note w banks ha
  refine ⟨quantumBoundary_early ha, fun h hr => ?_, fun h w hw => ?_, setHolder_holder c, dealPass_resetting ha, fun h hw => ?_, fun h hw => ?_, fun ht hsp hh hc => ?_,
    fun ht hh hd he => resumeTeam_resumes ht hh hd he⟩
  · rw [quantumBoundary_decides ha h, decideHolder_none hr]
  · rw [quantumBoundary_decides ha h, decideHolder_wins hw.1 hw.2]
  · exact dealPass_again ha h (Prod.ext hw rfl)
  · exact dealPass_deals ha h (Prod.ext hw rfl)
  · intro held units tiles blocked room claimed back
    have hblocked : blocked ↔ (unclaimable t.part t.core banks (units t.core) tiles s || w.cores.any (fun n => unclaimable t.part n [] (units n) [] s)) = true := by
      rw [Bool.or_eq_true, List.any_eq_true]
    refine ⟨unitReload_held ha ht, fun h hb => ?_, fun h hb => ?_⟩
    · exact (unitReload_claims ha ht hsp hh hc h).trans (congrArg Host.Outcome.next (if_pos (hblocked.1 hb)))
    · exact (unitReload_claims ha ht hsp hh hc h).trans (congrArg Host.Outcome.next (if_neg (mt hblocked.2 hb)))

end Sys2Proof.Proofs
end

section
/-! SUPPORT. Queue operations at their home slice (R90 to R94). -/

namespace Sys2Proof.Proofs
open Sys2Proof Sys2Proof.Machine Sys2Proof.Safety Sys2Proof.Laws

variable {s v : State} {o : QOp} {e : LsuEnt} {bs : List Byte}

/-! ## The event -/

/-- What an operation comes to, by its kind. -/
def queueEnd (o : QOp) (s : State) : QEnd := match o.kind with | .enq a b => enqueue o a b s | .deq => dequeue o s | .dec => decrement o s

/-- What the event then does. -/
def queueAfter (o : QOp) (e : LsuEnt) : QEnd → State
  | .done s => endAsk o.id s
  | .later s => cause (.queueOperation o) s
  | .wait s => endAsk o.id { s with qwait := s.qwait ++ [{ op := o, cluster := clusterIx o.core s }] }
  | .no n s => endAsk o.id (cause (.nack { n with req := { e.req with ptr := if n.status = 1 ∨ n.status = 2 then n.req.ptr else e.req.ptr } }) s)

section Event
variable (ha : awake s = true) (he : s.lsu.find? (fun e => e.id == o.id) = some e)
  (hq : s.qwait.find? (fun q => q.op.id == o.id && q.op.kind == .deq) = none)
include ha he hq

theorem queueOperation_next : exec (.queueOperation o) s = .next (queueAfter o e (queueEnd o s)) := by
  show execQueueOperation o s = _
  unfold execQueueOperation
  rw [event_awake ha]
  simp only [he, hq]
  rfl
theorem queueOperation_done {u : State} (h : queueEnd o s = .done u) : exec (.queueOperation o) s = .next (endAsk o.id u) := by
  rw [queueOperation_next ha he hq, h]; rfl
theorem queueOperation_later {u : State} (h : queueEnd o s = .later u) : exec (.queueOperation o) s = .next (cause (.queueOperation o) u) := by
  rw [queueOperation_next ha he hq, h]; rfl
/-- R94: a refusal of the operation itself names the entry's own request. -/
theorem queueOperation_malformed {u : State} (h : queueEnd o s = .no { req := { id := o.id }, status := 6 } u) :
    exec (.queueOperation o) s = .next (endAsk o.id (cause (.nack { req := e.req, status := 6 }) u)) := by
  rw [queueOperation_next ha he hq, h]; rfl
end Event

/-! ## What each operation comes to -/

theorem withLine_ok {p : W64} {k : State → QEnd} (h : obtain o p s = .ok bs v) : withLine o p s k = k v := by rw [withLine, h]
theorem withLine_later {p : W64} {k : State → QEnd} (h : obtain o p s = .later v) : withLine o p s k = .later v := by rw [withLine, h]

/-- R93: a misaligned object. -/
theorem decrement_misaligned (h : vaOf o.ptr % 16 ≠ 0) : decrement o s = .no { req := { id := o.id }, status := 6 } s := if_pos h
/-- R93: a count above 1 goes down by one. -/
theorem decrement_counts {n : Nat} (hal : vaOf o.ptr % 16 = 0) (ho : obtain o o.ptr s = .ok bs v) (hn : lineField o.ptr 4 v = n + 2) :
    decrement o s = .done (deliverQueue o [(0, n + 2)] (putField o o.ptr 4 (n + 1) v)) := by
  rw [decrement, if_neg (not_not.2 hal), withLine_ok ho, hn]
  rfl
/-- R93: a count of 0 is an error of the team. -/
theorem decrement_spent (hal : vaOf o.ptr % 16 = 0) (ho : obtain o o.ptr s = .ok bs v) (hn : lineField o.ptr 4 v = 0) :
    decrement o s = .done (deliverQueue o [(0, 0)] (teamError o.team v)) := by
  rw [decrement, if_neg (not_not.2 hal), withLine_ok ho, hn]
  rfl
/-- R91: a dequeue of an empty queue. -/
theorem dequeue_empty (ho : obtain o o.ptr s = .ok bs v) (hh : headerOk o.ptr v = true) (hc : lineField (ptrAdd o.ptr 0x10) 4 v = 0) : dequeue o s = emptyQueue o v := by
  rw [dequeue, withLine_ok ho, hh, if_neg (by decide), if_pos hc]
theorem emptyQueue_closed (h : qClosed o.ptr v = true) : emptyQueue o v = .done (deliverQueue o endRecord v) := if_pos h
theorem emptyQueue_waits (h : qClosed o.ptr v = false) (hw : withdrawn o.team v = false) :
    emptyQueue o v = .done (putField o (ptrAdd o.ptr 0x14) 4 (lineField (ptrAdd o.ptr 0x14) 4 v + 1) { v with qwait := v.qwait ++ [{ op := o, cluster := clusterIx o.core v }] }) := by
  rw [emptyQueue, h, hw]; rfl
/-- R94: a malformed header. -/
theorem enqueue_malformed {a b : W64} (ho : obtain o o.ptr s = .ok bs v) (hh : headerOk o.ptr v = false) :
    enqueue o a b s = .no { req := { id := o.id }, status := 6 } v := by
  rw [enqueue, withLine_ok ho, hh]; rfl
theorem dequeue_malformed (ho : obtain o o.ptr s = .ok bs v) (hh : headerOk o.ptr v = false) : dequeue o s = .no { req := { id := o.id }, status := 6 } v := by
  rw [dequeue, withLine_ok ho, hh]; rfl
/-- A line that is not to be had yet: the operation is tried again. -/
theorem queueEnd_later (hk : o.kind ≠ .dec) (ho : obtain o o.ptr s = .later v) : queueEnd o s = .later v := by
  rw [queueEnd]
  cases h : o.kind with
  | enq a b => exact withLine_later ho
  | deq => exact withLine_later ho
  | dec => exact absurd h hk

/-- Settles O48. -/
theorem queueOperations : Obligations.QueueOperations := by
  intro s v o e bs n h count waiters found ends ha ⟨he, hq⟩
  have hdec (hk : o.kind = .dec) : queueEnd o s = decrement o s := by rw [queueEnd, hk]
  have hdeq (hk : o.kind = .deq) : queueEnd o s = dequeue o s := by rw [queueEnd, hk]
  have henq {a b : W64} (hk : o.kind = .enq a b) : queueEnd o s = enqueue o a b s := by rw [queueEnd, hk]
  refine ⟨fun hk hal => ?_, fun hk hal ho => ⟨fun hn => ?_, fun hn => ?_⟩, fun hk ho hh hc => ⟨fun hcl => ?_, fun hcl hw => ?_⟩, fun a b u hk hu => ?_,
    fun a b hk ho hh => ?_, fun hk ho => queueOperation_later ha he hq (queueEnd_later hk ho)⟩
  · exact queueOperation_malformed ha he hq ((hdec hk).trans (decrement_misaligned hal))
  · exact queueOperation_done ha he hq ((hdec hk).trans (decrement_counts hal ho hn))
  · exact queueOperation_done ha he hq ((hdec hk).trans (decrement_spent hal ho hn))
  · exact queueOperation_done ha he hq ((hdeq hk).trans ((dequeue_empty ho hh hc).trans (emptyQueue_closed hcl)))
  · exact queueOperation_done ha he hq ((hdeq hk).trans ((dequeue_empty ho hh hc).trans (emptyQueue_waits hcl hw)))
  · exact queueOperation_done ha he hq ((henq hk).trans hu)
  · exact queueOperation_malformed ha he hq (hk.elim (fun hk => (henq hk).trans (enqueue_malformed ho hh)) fun hk => (hdeq hk).trans (dequeue_malformed ho hh))

end Sys2Proof.Proofs
end

section
/-! SUPPORT. Error counts, ashing, the Rake and the map flip (R117, R127 to R135). -/

namespace Sys2Proof.Proofs
open Sys2Proof Sys2Proof.Machine Sys2Proof.Safety Sys2Proof.Laws

variable {s : State} {n : Nat}

/-! ## Crossings (R128, R129) -/

section Crossing
variable {kind bank errs : Nat}

/-- R128: the errors of a bank that still count, with `errs` more. -/
def errorTimes (n kind bank errs : Nat) (s : State) : List Nat :=
  (List.replicate (min errs ((ctlRaw .bankThr s).toNat % 2 ^ 16)) s.ck ++ (alGet [] (kind, bank) (coreOf n s).errs).filter
    fun t => decide (s.ck ≤ t + max 1 ((ctlRaw .bankThr s).toNat / 2 ^ 16 % 2 ^ 16) * 1900000)).take ((ctlRaw .bankThr s).toNat % 2 ^ 16)
theorem countErrors_eq : countErrors s.ck ((ctlRaw .bankThr s).toNat % 2 ^ 16) (max 1 (ctlFld .bankThr 16 16 s)) errs (alGet [] (kind, bank) (coreOf n s).errs)
    = errorTimes n kind bank errs s := by
  have hw (w : Nat) : w * 1000 * usCk = w * 1900000 := by rw [usCk]; omega
  rw [countErrors, errorTimes, hw]
  rfl
/-- The core with its counts replaced. -/
def counted (n : Nat) (l : List ((Nat × Nat) × List Nat)) (s : State) : State := modCore n (fun c => { c with errs := l }) s
def otherCounts (n kind bank : Nat) (s : State) : List ((Nat × Nat) × List Nat) := (coreOf n s).errs.filter fun e => e.1 != (kind, bank)

variable (ha : awake s = true)
include ha

theorem bankCrossing_real (hn : n < ncores s) (hk : kind ≤ 2) (hb : bank < (bankCounts kind).2) (ht : (ctlRaw .bankThr s).toNat % 2 ^ 16 ≠ 0) :
    exec (.bankCrossing n kind bank { errs := errs }) s = .next (
      if (errorTimes n kind bank errs s).length < (ctlRaw .bankThr s).toNat % 2 ^ 16
      then counted n (otherCounts n kind bank s ++ [((kind, bank), errorTimes n kind bank errs s)]) s
      else
        if ctlFld .duty 2 1 s = 0 then orderAsh n kind bank (counted n (otherCounts n kind bank s) s)
        else if ((coreOf n s).bmap kind).ashed.contains bank || (coreOf n s).pending.contains (kind, bank) then counted n (otherCounts n kind bank s) s
        else modCore n (fun c => { c with pending := c.pending ++ [(kind, bank)] }) (counted n (otherCounts n kind bank s) s)) := by
  have hthr : ctlFld .bankThr 0 16 s = (ctlRaw .bankThr s).toNat % 2 ^ 16 := fld_low _ 16
  have hreal : ¬(ncores s ≤ n ∨ 2 < kind ∨ (bankCounts kind).2 ≤ bank ∨ (ctlRaw .bankThr s).toNat % 2 ^ 16 = 0) := by omega
  show execBankCrossing n kind bank _ s = _
  unfold execBankCrossing
  rw [event_awake ha]
  simp only [storeError, eq_false hreal, if_false, countErrors_eq, hthr, counted, otherCounts]
  rfl
/-- With no threshold only the storage that failed is dealt with. -/
theorem bankCrossing_uncounted {found : StoreError} (ht : (ctlRaw .bankThr s).toNat % 2 ^ 16 = 0) :
    exec (.bankCrossing n kind bank { errs := errs, bad := found }) s = .next (storeError n found s) := by
  have hthr : ctlFld .bankThr 0 16 s = 0 := (fld_low _ 16).trans ht
  show execBankCrossing n kind bank _ s = _
  unfold execBankCrossing
  rw [event_awake ha]
  simp only [hthr, or_true, if_true]
/-- R129: an order of the host. -/
theorem bankAsh_orders {v : W64} (hn : v.toNat % 2 ^ 8 < ncores s) (hk : v.toNat / 2 ^ 8 % 2 ^ 2 ≠ 3)
    (hb : v.toNat / 2 ^ 10 % 2 ^ 7 < (bankCounts (v.toNat / 2 ^ 8 % 2 ^ 2)).2) :
    exec (.bankAsh v) s = .next (orderAsh (v.toNat % 2 ^ 8) (v.toNat / 2 ^ 8 % 2 ^ 2) (v.toNat / 2 ^ 10 % 2 ^ 7) s) := by
  have h : writeBankCmd v s = orderAsh (fld v 0 8) (fld v 8 2) (fld v 10 7) s := by
    refine if_neg fun h => ?_
    rw [fld_low] at h
    exact h.elim (fun h => absurd hn (Nat.not_lt.2 h)) fun h => h.elim hk fun h => absurd hb (Nat.not_lt.2 h)
  refine (event_awake (f := writeBankCmd v) ha).trans ?_
  rw [h, fld_low]; rfl
end Crossing
/-- R117: a register of the one team whose read finds an error is full and poisoned. -/
theorem storeError_register {x : Team} {r : Reg} (hc : x.core = n) (hs : x.status = .hob) (ht : s.teams = [x]) :
    (storeError n (.s x.id r) s).teams = [x.setS r { x.sreg r with full := true, poison := true }] := by
  have hp : (x.id == x.id && x.core == n && x.status != .gone && x.status != .saved) = true := by rw [hc, hs, beq_self_eq_true, beq_self_eq_true]; rfl
  show updWhere _ _ s.teams = _
  rw [ht]
  exact congrArg (· :: []) (if_pos hp)

/-! ## The Rake (R131 to R133) -/

/-- R132: the map of a bank that moves to a destination of its own. -/
def movedMap (e : Evac) (m : BankMap) : BankMap := { m with ashed := m.ashed ++ [e.bank], ceased := m.ceased ++ [], map := alSet e.logical e.dest m.map }
/-- The core once its map has flipped. -/
def flippedCore (e : Evac) (c : Core) : Core :=
  { c.putBmap e.kind (movedMap e (c.bmap e.kind)) with evac := some { e with flipped := true }, old := c.old ++ [(e.kind, e.bank)] }
def flippedMap (n : Nat) (e : Evac) (s : State) : State := modCore n (fun c => flippedCore e c) (spreadBad n e.kind s)

section Rake
variable {e : Evac} (ha : awake s = true) (he : (coreOf n s).evac = some e)
include ha he

theorem rakeChunkCopy_copies {bad : Bool} (hf : e.flipped = false) (hv : e.victims = []) (hn : e.next < e.total) :
    exec (.rakeChunkCopy n bad) s = .next (goEvac n { e with next := e.next + 1 }
      (if bad then markBad n e.kind e.logical e.next (if e.kind = 1 then poisonPinned n e.logical e.next s else s) else s)) := by
  show execRakeChunkCopy n bad s = _
  unfold execRakeChunkCopy
  rw [event_awake ha]
  simp only [he, hf, hv, List.isEmpty_nil, Bool.not_true, decide_eq_false (Nat.not_le.2 hn), Bool.or_self, Bool.false_eq_true, if_false]
theorem mapFlip_moves (hf : e.flipped = false) (hv : e.victims = []) (hn : e.total ≤ e.next) (hd : e.dest ≠ e.bank) (hdrop : e.drop = false) :
    exec (.mapFlip n) s = .next (cause (.oldBankRelease n) (flippedMap n e s)) := by
  show execMapFlip n s = _
  unfold execMapFlip
  rw [event_awake ha]
  simp only [he, hf, hv, hdrop, List.isEmpty_nil, Bool.not_true, decide_eq_false (Nat.not_lt.2 hn), Bool.or_self, Bool.false_eq_true, if_false, if_neg hd,
    Option.isSome_none, Option.toList_none, flippedMap, flippedCore, movedMap]
theorem oldBankRelease_next (hf : e.flipped = true) : exec (.oldBankRelease n) s
    = .next (runRake n 256 (modCore n (fun c => { c with evac := none, old := c.old.filter (· != (e.kind, e.bank)) }) s)) := by
  show execOldBankRelease n s = _
  unfold execOldBankRelease
  rw [event_awake ha]
  simp only [he, hf, if_true]
end Rake

/-- R132: no other bank's map changes with the flip, and neither does memory. -/
theorem spreadBad_cores (n k : Nat) (s : State) : (spreadBad n k s).cores = s.cores ∧ (spreadBad n k s).mem = s.mem := by
  unfold spreadBad; split <;> exact ⟨rfl, rfl⟩
theorem bmap_flippedCore (e : Evac) (c : Core) : (flippedCore e c).bmap e.kind = movedMap e (c.bmap e.kind) := by
  unfold flippedCore
  generalize movedMap e (c.bmap e.kind) = m
  match e.kind with
  | 0 => rfl
  | 1 => rfl
  | _ + 2 => rfl
theorem flippedMap_core (e : Evac) : coreOf n (flippedMap n e s) = flippedCore e (coreOf n s) := by
  rw [flippedMap, coreOf_modCore_same]
  exact congrArg (flippedCore e) (by rw [coreOf, coreOf, (spreadBad_cores n e.kind s).1])
/-- R132: the bank is ashed, its logical bank stands at the destination, and the old bank awaits its release. -/
theorem flippedMap_moves (e : Evac) :
    let c := coreOf n s
    let u := flippedMap n e s
    let m := (coreOf n u).bmap e.kind
    m.ashed = (c.bmap e.kind).ashed ++ [e.bank] ∧ m.phys e.logical = e.dest ∧ m.ceased = (c.bmap e.kind).ceased
      ∧ (coreOf n u).evac = some { e with flipped := true } ∧ (coreOf n u).old = c.old ++ [(e.kind, e.bank)] := by
  dsimp only
  rw [flippedMap_core, bmap_flippedCore]
  exact ⟨rfl, alGet_alSet_same _ _ _ _, List.append_nil _, rfl, rfl⟩
/-- Teams with nothing noted stay as they are. -/
theorem spreadBad_clean {k : Nat} (hk : k = 0) (ht : ∀ t ∈ s.teams, t.vbad = []) : (spreadBad n k s).wgs = s.wgs ∧ (spreadBad n k s).teams = s.teams := by
  have hone (t : Team) (h : t.vbad = []) : t.spreadBad = t := by
    unfold Team.spreadBad
    rw [h, List.foldl_nil, ← h]
  rw [spreadBad, if_pos hk]
  refine ⟨rfl, List.ext_getElem (List.length_map _) fun i h1 h2 => ?_⟩
  show (updWhere _ _ s.teams)[i]'h1 = _
  simp only [updWhere, List.getElem_map, hone _ (ht _ (List.getElem_mem h2)), ite_self]

/-! ## Victims (R135) -/

/-- An evacuation of the core waits for the workgroup. -/
def evacWaits (wg : Nat) (x : Nat × Core) : Bool := match x.2.evac with | some e => e.victims.contains wg | none => false
/-- A core's evacuation goes on without the workgroup. -/
def evacGoesOn (wg n : Nat) (s : State) : State :=
  match (coreOf n s).evac with
  | none => s
  | some e =>
    let e := { e with victims := e.victims.filter (· != wg) }
    if e.victims.isEmpty then settleEvac n e s else modCore n (fun c => { c with evac := some e }) s

section Save
variable {wg : Nat} (ha : awake s = true) (hb : beingSaved wg s = true)
include ha hb

theorem workgroupSave_waits (ho : chunkOpen wg (modTeams (fun t => t.wg == wg && t.id != 0) (Team.halt s.ck) s) = true) :
    exec (.workgroupSave wg) s = .next (cause (.workgroupSave wg) (modTeams (fun t => t.wg == wg && t.id != 0) (Team.halt s.ck) s)) := by
  show execWorkgroupSave wg s = _
  unfold execWorkgroupSave
  rw [event_awake ha]
  simp only [hb, ho, Bool.not_true, Bool.false_eq_true, if_false, if_true]
theorem workgroupSave_goesOn {w : Workgroup} (ho : chunkOpen wg (modTeams (fun t => t.wg == wg && t.id != 0) (Team.halt s.ck) s) = false)
    (hw : wgOf wg (modTeams (fun t => t.wg == wg && t.id != 0) (Team.halt s.ck) s) = some w) : exec (.workgroupSave wg) s = .next (
    let u := takeOut w (modTeams (fun t => t.wg == wg && t.id != 0) (Team.halt s.ck) s)
    forEach ((u.cores.filter (evacWaits wg)).map (·.1)) (evacGoesOn wg) u) := by
  show execWorkgroupSave wg s = _
  unfold execWorkgroupSave
  rw [event_awake ha]
  simp only [hb, ho, hw, Bool.not_true, Bool.false_eq_true, if_false]
  rfl
end Save
/-- An evacuation that waits for that workgroup alone settles. -/
theorem evacGoesOn_settles {wg : Nat} {e : Evac} (he : (coreOf n s).evac = some e) (hv : e.victims = [wg]) :
    evacGoesOn wg n s = settleEvac n { e with victims := [] } s := by
  have hf : [wg].filter (· != wg) = [] := by rw [List.filter_cons, bne_self_eq_false, if_neg (by decide), List.filter_nil]
  unfold evacGoesOn
  simp only [he, hv, hf, List.isEmpty_nil, if_true]

/-- Settles O50. -/
theorem rakeSteps : Obligations.RakeSteps := by
  intro s n kind bank errs bad e v found c threshold window recent counted' rest real duty known crosses k b moved ha
  have hduty : duty = ctlFld .duty 2 1 s := rfl
  have hcross : real → crosses (if recent.length < threshold then counted' (rest ++ [((kind, bank), recent)])
      else if duty = 0 then orderAsh n kind bank (counted' rest)
        else if known then counted' rest else modCore n (fun c => { c with pending := c.pending ++ [(kind, bank)] }) (counted' rest)) :=
    fun ⟨hn, hk, hb, ht⟩ => bankCrossing_real ha hn hk hb ht
  refine ⟨fun hr hl => ?_, fun hr hl hd => ?_, fun hr hl hd hk => ?_, fun hr hl hd hk => ?_, fun ht => ⟨bankCrossing_uncounted ha ht, ?_⟩, bankAsh_orders ha,
    fun he hf hv hn => rakeChunkCopy_copies ha he hf hv hn, fun he hf hv hn hd hdrop => ?_, fun he hf => oldBankRelease_next ha he hf, ?_⟩
  · exact (hcross hr).trans (congrArg Host.Outcome.next (if_pos hl))
  · exact (hcross hr).trans (congrArg Host.Outcome.next ((if_neg (Nat.not_lt.2 hl)).trans (if_pos hd)))
  · exact (hcross hr).trans (congrArg Host.Outcome.next ((if_neg (Nat.not_lt.2 hl)).trans ((if_neg (by rw [hd]; decide)).trans (if_pos hk))))
  · exact (hcross hr).trans (congrArg Host.Outcome.next ((if_neg (Nat.not_lt.2 hl)).trans ((if_neg (by rw [hd]; decide)).trans (if_neg (by rw [hk]; decide)))))
  · rintro t r x rfl rfl hc hs ht
    exact storeError_register hc hs ht
  · exact ⟨_, mapFlip_moves ha he hf hv hn hd hdrop, flippedMap_moves e, (spreadBad_cores n e.kind s).2, rfl, rfl, fun hk ht => spreadBad_clean hk ht⟩
  · intro w wg hb halted u waits
    refine ⟨workgroupSave_waits ha hb, fun ho hw hcs he hv => ?_⟩
    have hone : (u.cores.filter (evacWaits wg)).map (·.1) = [n] := hcs
    rw [workgroupSave_goesOn ha hb ho hw]
    refine congrArg Host.Outcome.next (Eq.trans ?_ (evacGoesOn_settles he hv))
    show forEach ((u.cores.filter (evacWaits wg)).map (·.1)) (evacGoesOn wg) u = _
    rw [hone]
    rfl

end Sys2Proof.Proofs
end

section
/-! SUPPORT. A core's relaxed requests at a line that its slice holds (R167, R182, R201, R204, R343 to R345). -/

namespace Sys2Proof.Proofs
open Sys2Proof Sys2Proof.Machine Sys2Proof.Safety Sys2Proof.Laws

variable {s : State} {r : Req} {ln : SLine} {h pa : Nat}

/-! ## Lines of a slice -/

theorem find_updWhere {α : Type} (p : α → Bool) (a : α) (hp : p a = true) {l : List α} (h : l.any p = true) : (updWhere p (fun _ => a) l).find? p = some a := by
  induction l with
  | nil => exact absurd h Bool.false_ne_true
  | cons x l ih =>
    show ((if p x then a else x) :: updWhere p (fun _ => a) l).find? p = some a
    rw [List.find?_cons]
    by_cases hx : p x = true
    · rw [if_pos hx, hp]
    · rw [if_neg hx, Bool.eq_false_iff.2 hx]
      rw [List.any_cons, Bool.eq_false_iff.2 hx, Bool.false_or] at h
      exact ih h
/-- A line that is put in the table is found there. -/
theorem lineAt_setLine (ln : SLine) (s : State) : lineAt ln.va ln.key (setLine ln s) = some ln := by
  have hp : (ln.va == ln.va && ln.key == ln.key) = true := by rw [beq_self_eq_true, beq_self_eq_true]; rfl
  unfold lineAt setLine
  dsimp only
  by_cases ha : (s.lines.any fun l => l.va == ln.va && l.key == ln.key) = true
  · rw [if_pos ha]
    exact find_updWhere (fun l : SLine => l.va == ln.va && l.key == ln.key) ln hp ha
  · rw [if_neg ha, List.find?_append, List.find?_eq_none.2 fun x hx hq => ha (List.any_eq_true.2 ⟨x, hx, hq⟩), List.find?_cons, hp]
    rfl
/-- The later of two lines at one place stands. -/
theorem setLine_setLine {a b : SLine} (hv : b.va = a.va) (hk : b.key = a.key) (s : State) : setLine b (setLine a s) = setLine b s := by
  have hfun : (fun l : SLine => l.va == b.va && l.key == b.key) = fun l => l.va == a.va && l.key == a.key := by rw [hv, hk]
  have hp : (a.va == a.va && a.key == a.key) = true := by rw [beq_self_eq_true, beq_self_eq_true]; rfl
  unfold setLine
  dsimp only
  rw [hfun]
  generalize hq : (fun l : SLine => l.va == a.va && l.key == a.key) = p
  have hpa : p a = true := by rw [← hq]; exact hp
  have hpb : p b = true := by rw [← hq]; show (b.va == a.va && b.key == a.key) = true; rw [hv, hk]; exact hp
  congr 1
  by_cases ha : s.lines.any p = true
  · have hany : (updWhere p (fun _ => a) s.lines).any p = true := by
      obtain ⟨x, hx, hpx⟩ := List.any_eq_true.1 ha
      exact List.any_eq_true.2 ⟨_, List.mem_map_of_mem hx, by rw [if_pos hpx]; exact hpa⟩
    rw [if_pos ha, if_pos ha, if_pos hany]
    unfold updWhere
    rw [List.map_map]
    refine List.map_congr_left fun x _ => ?_
    by_cases hx : p x = true
    · simp only [Function.comp_apply, if_pos hx, if_pos hpa]
    · simp only [Function.comp_apply, if_neg hx]
  · rw [if_neg ha, if_neg ha, if_pos (by rw [List.any_append, List.any_cons, hpa, Bool.true_or, Bool.or_true])]
    have hno (l : List SLine) (hl : ∀ x ∈ l, ¬p x = true) : updWhere p (fun _ => b) l = l := by
      conv_rhs => rw [← List.map_id l]
      exact List.map_congr_left fun x hx => if_neg (hl x hx)
    have happ (l m : List SLine) : updWhere p (fun _ => b) (l ++ m) = updWhere p (fun _ => b) l ++ updWhere p (fun _ => b) m := List.map_append
    rw [happ, hno _ fun x hx hpx => ha (List.any_eq_true.2 ⟨x, hx, hpx⟩)]
    show s.lines ++ [if p a then b else a] = _
    rw [if_pos hpa]

/-! ## The way of a relaxed request to its line (R142, R153) -/

/-- A request of a core's team, and a shared line of this module's memory that its slice holds, with no mapping operation, flip or Flue failure about. -/
structure HeldLine (s : State) (r : Req) (ln : SLine) (h pa : Nat) : Prop where
  agent : r.agent = .team
  flue : s.flueDown = []
  mapop : s.mapop = none
  biasOp : s.biasOp = none
  biasHost : s.biasHost = []
  home : reqHome r s = .local h
  line : lineAt (lineVa (vaOf r.ptr)) (keyOf r.ptr) s = some ln
  present : ln.present = true
  attr : ln.attr = 0
  st : ln.st = .shared
  place : ln.place = .hbm pa

/-- A relaxed request at such a line, which has no ember that is not drawn. -/
structure PlainAccess (s : State) (r : Req) (ln : SLine) (h pa : Nat) : Prop extends HeldLine s r ln h pa where
  ord : r.ord = .rlx
  eager : r.eager = false
  ember : r.ember = none
  ar : ln.ar = false
  poison : ln.poison = 0
  drawn : emberAt ln.ptr s = none

/-- A request that acquires nothing takes the course of its release alone. -/
theorem meet_release (hacq : r.acquires = false) (u : State) (k : AcqAns → State → Ans × State) (hrel : relCourse r ln .notAcquire u = .go .notAcquire u) :
    meet r ln u k = k .notAcquire u := by
  have hw : widenAcq r ln .notAcquire = .notAcquire := by
    unfold widenAcq; exact ite_self _
  rw [meet, hacq, Bool.false_and, if_neg (by decide)]
  dsimp only
  rw [hw, hrel]

namespace HeldLine
variable (p : HeldLine s r ln h pa)
include p

theorem isSync : r.isSync = false := by rw [Req.isSync, p.agent]
theorem again_eq : again r s = r := by rw [again, asked, p.isSync]; rfl
theorem noteAsk_eq : noteAsk r s = s := by rw [noteAsk, p.isSync]; rfl
theorem die_eq : ln.die s = ln.va / 2 ^ 14 % 4 := by rw [SLine.die, p.attr]; rfl
/-- A request that meets nothing at the line is served there. -/
theorem serve_eq (hmis : mismatches r ln = false) {a : AcqAns} (hmeet : ∀ k : AcqAns → State → Ans × State, meet r ln (setLine ln s) k = k a (setLine ln s)) :
    serve false r ln s = perform r ln a (setLine ln s) := by
  have hpriv : privatise r ln s = (ln, s) := by rw [privatise, p.st]
  have hsnoop : snoopFirst r ln (setLine ln s) = false := by
    rw [snoopFirst, SLine.granule, p.place]
    show (r.agent != .host && s.biasHost.contains (pa / 2 ^ 16)) = false
    rw [p.biasHost]
    simp
  unfold serve
  rw [p.st, if_neg (by decide), hpriv]
  dsimp only
  rw [hmis, if_neg (by decide), hmeet, lineAt_setLine]
  simp only [Option.getD_some, hsnoop, Bool.not_false, Bool.and_false, Bool.false_eq_true, if_false]
theorem access_eq : access r s = serve false r ln s := by
  have hcut : flueCut r s = false := by rw [flueCut, p.flue]; rfl
  have hmap (va : Nat) : mapHolds va s = false := by rw [mapHolds, p.mapop]
  have hflip (g : Option Nat) : flipHolds g r s = false := by simp only [flipHolds, p.biasOp]
  have hstale : staleRemote ln s = false := by rw [staleRemote, SLine.far, p.place]; rfl
  rw [access, p.again_eq, p.noteAsk_eq, hcut, if_neg (by decide), p.home]
  simp only [hmap, p.line, hflip, p.st, p.present, p.attr, hstale, p.place, Bool.false_eq_true, if_false]
  rfl
end HeldLine

namespace PlainAccess
variable (p : PlainAccess s r ln h pa)
include p

theorem isRel : r.isRel = false := by rw [Req.isRel, p.ord]; rfl
theorem isAcq : r.isAcq = false := by rw [Req.isAcq, p.ord]; rfl
theorem acquires (hq : r.op ≠ .query) : r.acquires = false := by
  rw [Req.acquires, p.isAcq, p.ord, p.eager, beq_false_of_ne hq, Bool.and_false]; rfl
theorem access_eq (hq : r.op ≠ .query) : access r s = perform r ln .notAcquire (setLine ln s) := by
  have hmis : mismatches r ln = false := by rw [mismatches, p.isAcq, p.ord]; simp
  have hrel : relCourse r ln .notAcquire (setLine ln s) = .go .notAcquire (setLine ln s) := by
    have he : emberAt ln.ptr (setLine ln s) = none := p.drawn
    rw [relCourse, p.isRel, p.ember, he]
    rfl
  exact p.toHeldLine.access_eq.trans (p.serve_eq hmis fun k => meet_release (p.acquires hq) _ k hrel)
end PlainAccess

/-! ## Items (R167, R182) -/

theorem rmwItem_length (op : ReqOp) (st : List Byte × List Nat × Nat) (i : Item) : (rmwItem op st i).1.length = st.1.length := by
  obtain ⟨bs, vals, m⟩ := st
  unfold rmwItem
  dsimp only
  split
  · exact putBytes_length _ _ _
  · split
    · exact putBytes_length _ _ _
    · rfl
  · exact putBytes_length _ _ _
  · rfl
/-- A byte that no item names stays. -/
theorem rmwItem_untouched (op : ReqOp) (st : List Byte × List Nat × Nat) (i : Item) {k : Nat} (hk : k < st.1.length) (h : ¬(i.off ≤ k ∧ k < i.off + i.size)) :
    (rmwItem op st i).1.getD k 0 = st.1.getD k 0 := by
  obtain ⟨bs, vals, m⟩ := st
  have hput (v : Nat) : (putBytes bs i.off (bytesOfNat i.size v)).getD k 0 = bs.getD k 0 := by
    rw [getD_putBytes _ _ _ hk, bytesOfNat_length, if_neg h]
  unfold rmwItem
  dsimp only
  split
  · exact hput _
  · split
    · exact hput _
    · rfl
  · exact hput _
  · rfl
theorem foldl_rmwItem (op : ReqOp) (items : List Item) (st : List Byte × List Nat × Nat) :
    (items.foldl (rmwItem op) st).1.length = st.1.length
    ∧ ∀ k, k < st.1.length → (∀ i ∈ items, ¬(i.off ≤ k ∧ k < i.off + i.size)) → (items.foldl (rmwItem op) st).1.getD k 0 = st.1.getD k 0 := by
  induction items generalizing st with
  | nil => exact ⟨rfl, fun _ _ _ => rfl⟩
  | cons i items ih =>
    obtain ⟨hlen, hkeep⟩ := ih (rmwItem op st i)
    refine ⟨hlen.trans (rmwItem_length op st i), fun k hk h => ?_⟩
    exact (hkeep k (by rw [rmwItem_length]; exact hk) fun j hj => h j (List.mem_cons_of_mem _ hj)).trans (rmwItem_untouched op st i hk (h i List.mem_cons_self))
theorem runItems_length (op : ReqOp) (bs : List Byte) (items : List Item) : (runItems op bs items).1.length = bs.length := (foldl_rmwItem op items (bs, [], 0)).1
theorem runItems_untouched (op : ReqOp) {bs : List Byte} {items : List Item} {k : Nat} (hk : k < bs.length) (h : ∀ i ∈ items, ¬(i.off ≤ k ∧ k < i.off + i.size)) :
    (runItems op bs items).1.getD k 0 = bs.getD k 0 := (foldl_rmwItem op items (bs, [], 0)).2 k hk h
/-- A read returns the values of its items. -/
theorem runItems_read (bs : List Byte) (items : List Item) : runItems .read bs items = (bs, items.map (itemValue bs), 0) := by
  have h (items : List Item) (vs : List Nat) : items.foldl (rmwItem .read) (bs, vs, 0) = (bs, vs ++ items.map (itemValue bs), 0) := by
    induction items generalizing vs with
    | nil => rw [List.map_nil, List.append_nil]; rfl
    | cons i items ih =>
      rw [List.foldl_cons, List.map_cons, ← List.singleton_append, ← List.append_assoc]
      exact ih (vs ++ [itemValue bs i])
  exact h items []

/-! ## What a request does at its line -/

namespace PlainAccess
variable (p : PlainAccess s r ln h pa)
include p

theorem record_kept : recordAfter r false ln = ln.record := by rw [recordAfter, p.ord]; simp
theorem record_written (l : SLine) : recordAfter r true l = 0 := by rw [recordAfter, p.ord]; simp
/-- R201: a read brings the bytes and a lease, and moves the read time. -/
theorem perform_read (hr : r.op = .read) : perform r ln .notAcquire (setLine ln s)
    = (.data { req := r, vals := r.items.map (itemValue (s.mem.readN pa 64)), line := s.mem.readN pa 64, wts := ln.wts
               lease := some (serMax (serMax ln.rts ln.wts) (r.pts.getD (ln.va / 2 ^ 14 % 4) 0 + 64)) },
       setLine { ln with rts := serMax (serMax ln.rts ln.wts) (r.pts.getD (ln.va / 2 ^ 14 % 4) 0 + 64), used := s.ck
                         leases := alSet r.core (serMax (serMax ln.rts ln.wts) (r.pts.getD (ln.va / 2 ^ 14 % 4) 0 + 64)) ln.leases } s) := by
  have hmark : marked r ln (setLine ln s) = false := by rw [marked, show emberAt ln.ptr (setLine ln s) = none from p.drawn]
  have hby : r.byCore = true := by rw [Req.byCore, p.agent]
  have hin : ln.inSlice = true := by rw [SLine.inSlice, p.attr]; rfl
  have hbytes : ln.bytes (setLine ln s) = s.mem.readN pa 64 := by rw [SLine.bytes, p.place]; rfl
  have hstamp : readStamp r ln (setLine ln s) = serMax (serMax ln.rts ln.wts) (r.pts.getD (ln.va / 2 ^ 14 % 4) 0 + 64) := by
    rw [readStamp, show ln.die (setLine ln s) = ln.die s from rfl, p.die_eq]
  unfold perform
  rw [hbytes, hr]
  dsimp only
  rw [runItems_read]
  dsimp only
  rw [hmark, hby, hin, p.ar, p.poison, hstamp, p.record_kept, Nat.and_zero]
  refine Prod.ext rfl (setLine_setLine ?_ ?_ s) <;> rfl
end PlainAccess

/-- The line once its bytes of memory have changed. -/
def storedLine (mask : Nat) (ln : SLine) : SLine := { ln with launches := [], poison := ln.poison - (ln.poison &&& mask) }
/-- The line as a write leaves it. -/
def rewritten (r : Req) (mask : Nat) (ln : SLine) (s : State) : SLine :=
  let l := storedLine mask ln
  coverBytes r (itemsMask r.items) { stampWrite r l s with used := s.ck, record := recordAfter r true l, ar := l.ar, launches := l.launches } s
theorem stampWrite_fields (l : SLine) (u : State) :
    (stampWrite r l u).va = l.va ∧ (stampWrite r l u).key = l.key ∧ (stampWrite r l u).attr = l.attr
    ∧ (stampWrite r l u).wts = serMax (r.pts.getD (l.die u) l.rts) (l.rts + 1) ∧ (stampWrite r l u).rts = serMax (r.pts.getD (l.die u) l.rts) (l.rts + 1) := by
  unfold stampWrite
  dsimp only
  split
  · split_ifs <;> exact ⟨rfl, rfl, rfl, rfl, rfl⟩
  · exact ⟨rfl, rfl, rfl, rfl, rfl⟩
theorem coverBytes_fields (m : Nat) (l : SLine) (u : State) :
    (coverBytes r m l u).va = l.va ∧ (coverBytes r m l u).key = l.key ∧ (coverBytes r m l u).attr = l.attr ∧ (coverBytes r m l u).wts = l.wts
    ∧ (coverBytes r m l u).rts = l.rts ∧ (coverBytes r m l u).record = l.record := by
  unfold coverBytes
  split
  · split_ifs <;> exact ⟨rfl, rfl, rfl, rfl, rfl, rfl⟩
  · exact ⟨rfl, rfl, rfl, rfl, rfl, rfl⟩
  · split <;> exact ⟨rfl, rfl, rfl, rfl, rfl, rfl⟩
theorem storeEmber_monitors (r : Req) (l : SLine) (u : State) : (storeEmber r l u).monitors = u.monitors := by
  unfold storeEmber
  split <;> rfl
/-- With no monitor armed, a write fires none. -/
theorem fireMonitors_none (l : SLine) (bs : List Byte) (m : Nat) {u : State} (hu : u.monitors = []) : fireMonitors l bs m u = u := by
  rw [fireMonitors, hu]
  show { u with monitors := [], agenda := u.agenda ++ [] } = u
  rw [List.append_nil, ← hu]
/-- A write that leaves byte 9 of the line closes no queue. -/
theorem closeQueue_open (l : SLine) (bs : List Byte) {m : Nat} (h9 : m.testBit 9 = false) (u : State) : closeQueue l bs m u = (l, u) := by
  rw [closeQueue, h9, Bool.false_and]
  rfl

/-- The course of a request that is neither a read, a monitor nor a query. -/
theorem perform_modifies (hr : r.isWrite = true) (l : SLine) (u : State) : perform r l .notAcquire u =
    let x := runItems r.op (l.bytes u) r.items
    let y := if x.2.2 != 0 then l.store r.part x.1 x.2.2 u else (l, u)
    let b := if x.2.2 != 0 || r.isRel then stampWrite r y.1 y.2 else y.1
    let c := { b with
      used := y.2.ck, record := recordAfter r (x.2.2 != 0) y.1, ar := y.1.ar || (r.ord == .ar && (x.2.2 != 0 || r.isRel))
      launches := if x.2.2 != 0 && !(match l.place with | .hbm _ => true | _ => false) then (y.1.launches ++ r.launches).eraseDups else y.1.launches }
    let d := if x.2.2 != 0 || r.isRel then coverBytes r (itemsMask r.items) c y.2 else c
    let v := storeEmber r d (setLine d y.2)
    let w := if x.2.2 != 0 then (closeQueue d x.1 x.2.2 (fireMonitors d x.1 x.2.2 v)).2 else v
    (if r.isRmw then .data { req := r, vals := x.2.1, wts := d.wts, mark := marked r l u, poison := itemsMask r.items &&& l.poison != 0 } else .ack { req := r, wts := d.wts }, w) := by
  have hno {o : ReqOp} (h : r.op = o) (ho : ¬(o = .write ∨ (∃ f, o = .atom f) ∨ o = .cas)) : False := by
    rw [Req.isWrite, Req.isRmw, h] at hr
    cases o <;> simp at ho hr
  unfold perform
  cases hop : r.op with
  | write => rfl
  | atom f => rfl
  | cas => rfl
  | read => exact (hno hop (by simp)).elim
  | monitor c => exact (hno hop (by simp)).elim
  | query => exact (hno hop (by simp)).elim

namespace HeldLine
variable (p : HeldLine s r ln h pa)
include p

theorem rewritten_fields (mask : Nat) (u : State) (hu : ln.die u = ln.die s) :
    let time := serMax (r.pts.getD (ln.va / 2 ^ 14 % 4) ln.rts) (ln.rts + 1)
    (rewritten r mask ln u).va = ln.va ∧ (rewritten r mask ln u).key = ln.key ∧ (rewritten r mask ln u).attr = 0
    ∧ (rewritten r mask ln u).wts = time ∧ (rewritten r mask ln u).rts = time ∧ (rewritten r mask ln u).record = recordAfter r true (storedLine mask ln) := by
  obtain ⟨hva, hkey, hattr, hwts, hrts⟩ := stampWrite_fields (r := r) (storedLine mask ln) u
  have hdie : (storedLine mask ln).die u = ln.va / 2 ^ 14 % 4 := hu.trans p.die_eq
  rw [hdie] at hwts hrts
  obtain ⟨cva, ckey, cattr, cwts, crts, crec⟩ := coverBytes_fields (r := r) (itemsMask r.items)
    { stampWrite r (storedLine mask ln) u with
      used := u.ck, record := recordAfter r true (storedLine mask ln), ar := (storedLine mask ln).ar, launches := (storedLine mask ln).launches } u
  exact ⟨cva.trans hva, ckey.trans hkey, cattr.trans (hattr.trans p.attr), cwts.trans hwts, crts.trans hrts, crec⟩
/-- A request that writes: what becomes of its line, of the line's ember and of the bytes. -/
theorem perform_writes (hr : r.isWrite = true) (hord : (r.ord == .ar) = false) {bs : List Byte} {vals : List Nat} {m : Nat}
    (hrun : runItems r.op (s.mem.readN pa 64) r.items = (bs, vals, m)) (hm : m ≠ 0) (h9 : m.testBit 9 = false) (hmon : s.monitors = []) :
    let l := rewritten r m ln (setLine ln { s with mem := s.mem.writeN pa bs })
    perform r ln .notAcquire (setLine ln s)
      = ((if r.isRmw then .data { req := r, vals := vals, wts := l.wts, mark := marked r ln (setLine ln s), poison := itemsMask r.items &&& ln.poison != 0 }
          else .ack { req := r, wts := l.wts }), storeEmber r l (setLine l { s with mem := s.mem.writeN pa bs })) := by
  intro l
  have hbytes : ln.bytes (setLine ln s) = s.mem.readN pa 64 := by rw [SLine.bytes, p.place]; rfl
  have hm' : (m != 0) = true := bne_iff_ne.2 hm
  have hstore : ln.store r.part bs m (setLine ln s) = (storedLine m ln, setLine ln { s with mem := s.mem.writeN pa bs }) := by
    unfold SLine.store
    rw [p.place]
    exact Prod.ext (by rw [storedLine, p.place]) rfl
  have hhbm : (match ln.place with | .hbm _ => true | _ => false) = true := by rw [p.place]
  have hfire (d e : SLine) : fireMonitors d bs m (storeEmber r d (setLine e (setLine ln { s with mem := s.mem.writeN pa bs })))
      = storeEmber r d (setLine e (setLine ln { s with mem := s.mem.writeN pa bs })) :=
    fireMonitors_none _ _ _ ((storeEmber_monitors _ _ _).trans hmon)
  have hset : setLine l (setLine ln { s with mem := s.mem.writeN pa bs }) = setLine l { s with mem := s.mem.writeN pa bs } := by
    obtain ⟨hva, hkey, -⟩ := p.rewritten_fields m (setLine ln { s with mem := s.mem.writeN pa bs }) rfl
    exact setLine_setLine hva hkey _
  rw [perform_modifies hr, hbytes, hrun, ← hset]
  simp only [hm', Bool.true_or, if_true, hstore, hhbm, Bool.not_true, Bool.and_false, Bool.false_eq_true, if_false, hord, Bool.false_and, Bool.or_false,
    closeQueue_open _ _ h9, hfire]
  rfl
end HeldLine

namespace PlainAccess
variable (p : PlainAccess s r ln h pa)
include p

/-- A relaxed request that writes: what becomes of its line and of the bytes. -/
theorem perform_write (hr : r.isWrite = true) (hm : (runItems r.op (s.mem.readN pa 64) r.items).2.2 ≠ 0)
    (h9 : (runItems r.op (s.mem.readN pa 64) r.items).2.2.testBit 9 = false) (hmon : s.monitors = []) :
    ∃ l, perform r ln .notAcquire (setLine ln s)
      = ((if r.isRmw then .data { req := r, vals := (runItems r.op (s.mem.readN pa 64) r.items).2.1, wts := l.wts } else .ack { req := r, wts := l.wts }),
          setLine l { s with mem := s.mem.writeN pa (runItems r.op (s.mem.readN pa 64) r.items).1 })
      ∧ l.va = ln.va ∧ l.key = ln.key ∧ l.wts = serMax (r.pts.getD (ln.va / 2 ^ 14 % 4) ln.rts) (ln.rts + 1)
      ∧ l.rts = serMax (r.pts.getD (ln.va / 2 ^ 14 % 4) ln.rts) (ln.rts + 1) ∧ l.record = 0 := by
  have hmark : marked r ln (setLine ln s) = false := by rw [marked, show emberAt ln.ptr (setLine ln s) = none from p.drawn]
  have hord : (r.ord == .ar) = false := by rw [p.ord]; rfl
  have hember (d : SLine) (u : State) : storeEmber r d u = u := by rw [storeEmber, p.ember]
  generalize hrun : runItems r.op (s.mem.readN pa 64) r.items = x at hm h9
  obtain ⟨bs, vals, m⟩ := x
  obtain ⟨hva, hkey, -, hwts, hrts, hrec⟩ := p.rewritten_fields m (setLine ln { s with mem := s.mem.writeN pa bs }) rfl
  refine ⟨_, (p.perform_writes hr hord hrun hm h9 hmon).trans ?_, hva, hkey, hwts, hrts, hrec.trans (p.record_written _)⟩
  rw [hmark, p.poison, Nat.and_zero, hember]
  rfl
/-- A compare-and-swap none of whose items matches changes no byte, and no stamp of its line. -/
theorem perform_casFails (hr : r.op = .cas) (hm : (runItems r.op (s.mem.readN pa 64) r.items).2.2 = 0) :
    ∃ l, perform r ln .notAcquire (setLine ln s)
      = (.data { req := r, vals := (runItems r.op (s.mem.readN pa 64) r.items).2.1, wts := ln.wts }, setLine l s)
      ∧ l.wts = ln.wts ∧ l.rts = ln.rts ∧ l.record = ln.record := by
  have hbytes : ln.bytes (setLine ln s) = s.mem.readN pa 64 := by rw [SLine.bytes, p.place]; rfl
  have hmark : marked r ln (setLine ln s) = false := by rw [marked, show emberAt ln.ptr (setLine ln s) = none from p.drawn]
  have hrmw : r.isRmw = true := by rw [Req.isRmw, hr]
  have hw : r.isWrite = true := by rw [Req.isWrite, hr]; exact hrmw
  have hember (d : SLine) (u : State) : storeEmber r d u = u := by rw [storeEmber, p.ember]
  refine ⟨{ ln with used := s.ck }, ?_, rfl, rfl, rfl⟩
  rw [perform_modifies hw, hbytes]
  simp only [hm, bne_self_eq_false, p.isRel, Bool.or_self, Bool.false_eq_true, if_false, Bool.and_false, Bool.false_and, Bool.or_false, hember, hrmw, if_true, hmark,
    p.record_kept]
  rw [p.poison, Nat.and_zero]
  refine Prod.ext rfl (setLine_setLine ?_ ?_ _) <;> rfl
end PlainAccess

/-! ## The events -/

/-- A core's request that is answered at once, with no other pass of its instruction behind it. -/
theorem handle_team {a : Ans} {u : State} (hr : r.agent = .team) (h : access r s = (a, u)) (hl : a ≠ .later) (hs : siblings r (deliver r a u) = []) :
    handle r s = deliver r a u := by
  have hno : ¬(r.agent == .host) = true := by rw [hr]; decide
  rw [handle, if_neg hno, h]
  cases a with
  | later => exact absurd rfl hl
  | data _ => dsimp only; rw [hs]; exact markSent_nil _
  | ack _ => dsimp only; rw [hs]; exact markSent_nil _
  | nack _ => dsimp only; rw [hs]; exact markSent_nil _
theorem siblings_plain {u : State} (h : r.isRmw = false) : siblings r u = [] := by rw [siblings, h, Bool.not_false, Bool.or_true, if_pos rfl]
/-- The last pass of an atomic has no passes behind it. -/
theorem siblings_alone {u : State} {e : LsuEnt} (he : u.lsu.find? (fun e => e.id == r.id) = some e) (h : ∀ x ∈ u.lsu, x.group = e.group → x.id ≤ r.id) :
    siblings r u = [] := by
  unfold siblings
  split
  · rfl
  · simp only [he]
    refine List.filter_eq_nil_iff.2 fun x hx hp => ?_
    simp only [Bool.and_eq_true, beq_iff_eq, decide_eq_true_eq] at hp
    exact absurd hp.2 (Nat.not_lt.2 (h x hx hp.1.1.1.1))
theorem deliver_data {u : State} {rsp : Rsp} (hr : r.agent = .team) : deliver r (.data rsp) u = cause (.rdrsp rsp) u := by rw [deliver, hr]
theorem deliver_ack {u : State} {k : AckMsg} (hr : r.agent = .team) : deliver r (.ack k) u = cause (.ack k) u := by rw [deliver, hr]
theorem arrive_team {i : Instr} (hr : r.agent = .team) : arrive i r s = handle r s := by rw [arrive, hr]

/-- The bytes that a write of the line leaves. -/
theorem bytes_after (hm : s.mem.wf = true) :
    (s.mem.writeN pa (runItems r.op (s.mem.readN pa 64) r.items).1).wf = true
    ∧ (∀ a, (s.mem.writeN pa (runItems r.op (s.mem.readN pa 64) r.items).1).read a
        = if pa ≤ a ∧ a < pa + 64 then (runItems r.op (s.mem.readN pa 64) r.items).1.getD (a - pa) 0 else s.mem.read a)
    ∧ ∀ a, ¬(∃ i ∈ r.items, pa + i.off ≤ a ∧ a < pa + i.off + i.size) →
        (s.mem.writeN pa (runItems r.op (s.mem.readN pa 64) r.items).1).read a = s.mem.read a := by
  have hlen : (runItems r.op (s.mem.readN pa 64) r.items).1.length = 64 := (runItems_length _ _ _).trans (readN_length _ _ _)
  have hread (a : Nat) := read_writeN pa (runItems r.op (s.mem.readN pa 64) r.items).1 a hm
  rw [hlen] at hread
  refine ⟨writeN_wf _ _ hm, hread, fun a ha => ?_⟩
  rw [hread]
  by_cases hin : pa ≤ a ∧ a < pa + 64
  · rw [if_pos hin, runItems_untouched _ (by rw [readN_length]; omega) fun i hi hk => ha ⟨i, hi, by omega, by omega⟩, getD_readN _ _ _ (by omega)]
    congr 1
    omega
  · rw [if_neg hin]

/-- Settles O51. -/
theorem lineAccesses : Obligations.LineAccesses := by
  intro s r ln h pa e ran die plain lease time touched stores writable alone ha hplain
  obtain ⟨agent, ord, eager, ember, flue, mapop, biasOp, biasHost, home, line, present, attr, ar, poison, st, place, drawn⟩ := hplain
  have p : PlainAccess s r ln h pa := ⟨⟨agent, flue, mapop, biasOp, biasHost, home, line, present, attr, st, place⟩, ord, eager, ember, ar, poison, drawn⟩
  have hexec (i : Instr) (hi : exec i s = event (arrive i r) s) {a : Ans} {u : State} (hq : r.op ≠ .query) (hp : perform r ln .notAcquire (setLine ln s) = (a, u)) (hl : a ≠ .later)
      (hs : siblings r (deliver r a u) = []) : exec i s = .next (deliver r a u) := by
    rw [hi, event_awake ha, arrive_team agent, handle_team agent ((p.access_eq hq).trans hp) hl hs]
  have hmem (hw : writable) := bytes_after (r := r) (pa := pa) hw.2.2.2.1
  refine ⟨fun hr => ?read, fun hr hw => ?write, fun hr hw hal => ?atom, fun hr hm hal => ?cas⟩
  case read =>
    have hrmw : r.isRmw = false := by rw [Req.isRmw, hr]
    have hx := hexec (.rd r) rfl (by rw [hr]; decide) (p.perform_read hr) (fun h => nomatch h) (siblings_plain hrmw)
    rwa [deliver_data agent] at hx
  case write =>
    have hrmw : r.isRmw = false := by rw [Req.isRmw, hr]
    obtain ⟨hm, h9, hmon, hwf, -⟩ := id hw
    obtain ⟨l, hp, hva, hkey, hwts, hrts, hrec⟩ := p.perform_write (by rw [Req.isWrite, hr]) hm h9 hmon
    rw [hrmw, if_neg Bool.false_ne_true] at hp
    refine ⟨_, hexec (.wr r) rfl (by rw [hr]; decide) hp (fun h => nomatch h) (siblings_plain hrmw), l, _, deliver_ack agent, hva, hkey, hwts, hrts, hrec, ?_⟩
    exact hmem hw
  case atom =>
    obtain ⟨hm, h9, hmon, hwf, -⟩ := id hw
    obtain ⟨he, hlast⟩ := hal
    have hwr : r.isWrite = true := by rw [Req.isWrite]; split <;> [rfl; exact hr]
    have hq : r.op ≠ .query := fun h => by rw [Req.isRmw, h] at hr; exact absurd hr (by decide)
    obtain ⟨l, hp, hva, hkey, hwts, hrts, hrec⟩ := p.perform_write hwr hm h9 hmon
    rw [hr, if_pos rfl] at hp
    refine ⟨_, hexec (.atom r) rfl hq hp (fun h => nomatch h) ?_, l, _, deliver_data agent, hva, hkey, hwts, hrts, hrec, hmem hw⟩
    rw [deliver_data agent]
    exact siblings_alone he hlast
  case cas =>
    obtain ⟨he, hlast⟩ := hal
    obtain ⟨l, hp, hl⟩ := p.perform_casFails hr hm
    refine ⟨l, ?_, hl⟩
    have hx := hexec (.atom r) rfl (by rw [hr]; decide) hp (fun h => nomatch h) (by rw [deliver_data agent]; exact siblings_alone he hlast)
    rwa [deliver_data agent] at hx

end Sys2Proof.Proofs
end

section
/-! SUPPORT. What a reply does at the core of its entry (R201, R213, R24, R155 to R158). -/

namespace Sys2Proof.Proofs
open Sys2Proof Sys2Proof.Machine Sys2Proof.Safety Sys2Proof.Laws

variable {s : State} {r : Req} {e : LsuEnt} {w : W32} {n : NackMsg}

/-- The one entry that a reply to `r` answers, sent by its own team. -/
structure SoleEntry (r : Req) (e : LsuEnt) (s : State) : Prop where
  found : (s.lsu.find? fun x => x.id == r.id) = some e
  alone : passesOf r s = [e]
  free : e.hostHeld = false

theorem SoleEntry.id_eq (h : SoleEntry r e s) : e.id = r.id :=
  beq_iff_eq.1 (List.find?_some (p := fun x : LsuEnt => x.id == r.id) h.found)
theorem heldDone_free (h : e.hostHeld = false) : heldDone e s = s := by
  unfold heldDone
  rw [h]
  rfl
theorem forEach_one {α : Type} (x : α) (f : α → State → State) (s : State) : forEach [x] f s = f x s := rfl

/-- A reply merges its time into its core's vector, where the line is known here (R201). -/
theorem mergeReply_eq (r : Req) (w : W32) (s : State) : mergeReply r w s = match lineAt (lineVa (vaOf r.ptr)) (keyOf r.ptr) s with
    | some l => modCore r.core (fun c => c.mergePts (l.die s) w) s | none => s := by
  unfold mergeReply replyDie
  cases lineAt (lineVa (vaOf r.ptr)) (keyOf r.ptr) s <;> rfl
theorem acquired_not : acquired r .notAcquire s = s := rfl

/-! ## Acknowledgements and data -/

theorem coreAck_sole (ht : r.agent = .team) (h : SoleEntry r e (mergeReply r w s)) (hp : e.phase = .sent) :
    coreAck { req := r, wts := w } s = answerItems e.id (r.items.filter e.req.items.contains) [] false (mergeReply r w s) := by
  have hn : (Agent.team == Agent.slice) = false := rfl
  have hsent : (Phase.sent == Phase.sent) = true := rfl
  unfold coreAck
  simp only [ht, hn, acquired_not, h.alone, forEach_one, heldDone_free h.free, hp, hsent, Bool.false_eq_true, if_false, if_true]
  rfl
theorem ack_team (ha : awake s = true) (ht : r.agent = .team) (a : AckMsg) (hr : a.req = r) : exec (.ack a) s = .next (afterReply r (coreAck a s)) := by
  show execAck a s = _
  unfold execAck
  rw [event_awake ha]
  subst hr
  simp only [ht]
  rfl
theorem replyAcquire_not (rsp : Rsp) (h : rsp.acq = .notAcquire) : replyAcquire rsp s = s := by
  unfold replyAcquire
  rw [h, acquired_not]
  exact ite_self _
theorem rdrsp_team (ha : awake s = true) (ht : r.agent = .team) (rsp : Rsp) (hr : rsp.req = r) : exec (.rdrsp rsp) s = .next (afterReply r (coreData rsp s)) := by
  show execRdrsp rsp s = _
  unfold execRdrsp
  rw [event_awake ha]
  subst hr
  simp only [ht]
  rfl

theorem isRmw_cases (h : r.isRmw = true) : (∃ f, r.op = .atom f) ∨ r.op = .cas := by
  unfold Req.isRmw at h
  cases ho : r.op with
  | atom f => exact .inl ⟨f, rfl⟩
  | cas => exact .inr rfl
  | read | write | monitor _ | query => rw [ho] at h; exact absurd h Bool.false_ne_true
/-- An answer without the mark is an answer alone. -/
theorem answerMarked_unmarked (e : LsuEnt) (items : List Item) (vals : List (Nat × Nat)) (s : State) : answerMarked e false items vals s = answerItems e.id items vals false s := rfl

/-- Data that acquire nothing and are not poisoned reach the entry by the request's operation alone. -/
theorem coreData_sole (h : SoleEntry r e (mergeReply r w s)) (vals : List Nat) (found : Option Nat) :
    let rsp : Rsp := { req := r, vals := vals, wts := w, mismatch := found }
    (found = none → r.isRmw = true → coreData rsp s = answerItems e.id (r.items.filter e.req.items.contains)
        (((r.items.zip vals).filter fun x => e.req.items.contains x.1).map fun x => (x.1.lane, x.2)) false (mergeReply r w s))
      ∧ (found = none → r.op = .read → r.walloc = false → coreData rsp s = readReply e rsp (mergeReply r w s))
      ∧ (∀ f, found = some f → r.op ≠ .query → coreData rsp s = mismatchReply e rsp f (mergeReply r w s)) := by
  intro rsp
  have hq : replyAcquire rsp (mergeReply r w s) = mergeReply r w s := replyAcquire_not rsp rfl
  have he : { e with bad := e.bad || false } = e := by rw [Bool.or_false]
  refine ⟨fun hn hm => ?_, fun hn ho hw => ?_, fun f hf ho => ?_⟩ <;> unfold coreData <;> simp only [rsp] at hq ⊢ <;>
    simp only [hq, h.found, heldDone_free h.free, he, h.alone, forEach_one, answerMarked_unmarked, Bool.false_eq_true, if_false]
  · subst hn
    obtain ⟨f, ho⟩ | ho := isRmw_cases hm <;> rw [ho] <;> rfl
  · subst hn
    simp only [ho, hw, Bool.false_eq_true, if_false]
  · subst hf
    cases hop : r.op with
    | query => exact absurd hop ho
    | read | write | atom _ | cas | monitor _ => rfl

/-! ## Negative replies -/

theorem nack_team (ha : awake s = true) (ht : n.req.agent = .team) : exec (.nack n) s = .next (afterReply n.req (coreNack n s)) := by
  show execNack n s = _
  unfold execNack
  rw [event_awake ha]
  simp only [ht]
  rfl
/-- A negative reply to a sole entry does what its status says. -/
theorem coreNack_sole (h : SoleEntry n.req e s) (e' : LsuEnt) (he' : e' = { e with req := { e.req with pts := n.req.pts } }) :
    (n.status = 3 → coreNack n s = modEnt e.id (fun e => { e with phase := .retry n.home }) s)
      ∧ (n.status = 4 → (∀ rec m, e.kind ≠ .launch rec m) → coreNack n s = failEnt e s)
      ∧ (n.status = 1 ∨ n.status = 2 → coreNack n s = faultReply e' n s)
      ∧ (n.status = 9 → coreNack n s = refusedAtomic e (n.req.items.filter e.req.items.contains) s) := by
  subst he'
  refine ⟨fun hs => ?_, fun hs hk => ?_, fun hs => ?_, fun hs => ?_⟩ <;> unfold coreNack <;>
    simp only [h.alone, forEach_one, if_pos h.id_eq, heldDone_free h.free, List.isEmpty_cons, Bool.false_eq_true, if_false]
  · simp only [hs]
  · simp only [hs]
  · rcases hs with hs | hs <;> simp only [hs]
  · simp only [hs, LsuEnt.share]

/-! ## Fault records -/

/-- Two states of a team that differ in neither its name, its records nor its place in the program. -/
def SameRecords (t u : Team) : Prop := u.id = t.id ∧ u.records = t.records ∧ u.pc = t.pc

/-- A record may wake its team's handler or end its halt, and no more (R157). -/
theorem recordWake_sameRecords (ck : Nat) (t : Team) : SameRecords t (t.recordWake ck) := by
  have hself : SameRecords t t := ⟨rfl, rfl, rfl⟩
  have hwake : SameRecords t (if t.handler then t else t.wake ck) := by
    split
    · exact hself
    · unfold Team.wake
      split <;> exact hself
  unfold Team.recordWake
  split
  · exact hself
  · exact hwake
  · split
    · exact hself
    · exact hwake
  · split
    · exact hself
    · exact hwake
  · exact hself
  · exact hself

theorem teamOf_id {id : Nat} {t : Team} (ht : teamOf id s = some t) : t.id = id := by
  unfold teamOf at ht
  split_ifs at ht with hc
  · exact Option.some.inj ht ▸ hc
  · exact beq_iff_eq.1 (List.find?_some (p := fun t : Team => t.id == id) ht)
/-- The record of a refused request comes last among those of its team (R155, R156). -/
theorem faultReply_record {t : Team} (hs : n.status = 2) (ht : teamOf e.req.team s = some t) (hd : t.dead = false) (hg : e.gone = false) (hi : e.inh = false) :
    ∃ t' rec, teamOf e.req.team (faultReply e n s) = some t' ∧ t'.records = t.records ++ [rec]
      ∧ rec.cause = 9 ∧ rec.ptr = n.req.ptr ∧ rec.pc = e.pc ∧ rec.home = n.home ∧ rec.slot = n.slot ∧ t'.pc = t.pc := by
  have hid : t.id = e.req.team := teamOf_id ht
  let s1 := modEnt e.id (fun e => { e with phase := .fault n.home n.slot, hostHeld := n.hostHeld }) s
  let rec1 := faultRecord e n s1
  let noted (t : Team) : Team := { t with records := t.records ++ [rec1] }
  have hcause : rec1.cause = 9 := by
    show (if n.status = 1 then 8 else 9) = 9
    rw [hs]
    rfl
  have h1 : teamOf e.req.team (modTeam e.req.team noted s1) = some (noted t) := teamOf_modTeam noted ht rfl
  have h2 : teamOf e.req.team (modTeam e.req.team (Team.recordWake s.ck) (modTeam e.req.team noted s1)) = some ((noted t).recordWake s.ck) :=
    teamOf_modTeam _ h1 (recordWake_sameRecords _ _).1
  obtain ⟨-, hrec, hpc⟩ := recordWake_sameRecords s.ck (noted t)
  unfold faultReply
  simp only [ht, hd, hg, hi, hid, Bool.false_eq_true, if_false]
  by_cases hh : n.hostHeld = true
  · rw [if_pos hh]
    exact ⟨_, rec1, h1, rfl, hcause, rfl, rfl, rfl, rfl, rfl⟩
  · rw [if_neg hh, modTeam_ck]
    exact ⟨_, rec1, h2, hrec, hcause, rfl, rfl, rfl, rfl, hpc⟩

end Sys2Proof.Proofs

namespace Sys2Proof.Proofs
open Sys2Proof Sys2Proof.Machine Sys2Proof.Safety Sys2Proof.Laws

/-- Settles O52: a reply that one entry of its own team answers comes to that entry alone, and `settle` and `pumpAll` follow it. -/
theorem coreReplies : Obligations.CoreReplies := by
  unfold Obligations.CoreReplies
  intro s r e w vals found n known merged after entry mine refused ha ht
  have hm : merged = mergeReply r w s := (mergeReply_eq r w s).symm
  have hsole (u : State) (h : entry u) : SoleEntry r e u := ⟨h.1, h.2.1, h.2.2⟩
  have put {x y : State} (h : x = y) : (.next (afterReply r x) : Host.Outcome State Fault Refusal) = .next (after y) := h ▸ rfl
  rw [hm]
  refine ⟨fun h hp => ?_, fun h hr hw => ?_, fun h ho hw => ?_, fun h ho => ?_, fun h ho => ⟨?_, fun hk => ?_, ?_, ?_, ?_⟩, fun t hteam hd hg hi => ?_⟩
  · exact (ack_team ha ht _ rfl).trans (put (coreAck_sole ht (hsole _ h) hp))
  · obtain ⟨hval, -, -⟩ := coreData_sole (hsole _ h) vals none
    exact (rdrsp_team ha ht _ rfl).trans (put (hval rfl hr))
  · obtain ⟨-, hread, -⟩ := coreData_sole (hsole _ h) vals none
    exact (rdrsp_team ha ht _ rfl).trans (put (hread rfl ho hw))
  · obtain ⟨-, -, hmis⟩ := coreData_sole (hsole _ h) vals (some found)
    exact (rdrsp_team ha ht _ rfl).trans (put (hmis found rfl ho))
  · obtain ⟨hretry, -, -, -⟩ := coreNack_sole (n := refused 3) (hsole s h) _ rfl
    exact (nack_team ha ht).trans (put (hretry rfl))
  · obtain ⟨-, hfail, -, -⟩ := coreNack_sole (n := refused 4) (hsole s h) _ rfl
    exact (nack_team ha ht).trans (put (hfail rfl hk))
  · obtain ⟨-, -, hfault, -⟩ := coreNack_sole (n := refused 1) (hsole s h) _ rfl
    exact (nack_team ha ht).trans (put (hfault (.inl rfl)))
  · obtain ⟨-, -, hfault, -⟩ := coreNack_sole (n := refused 2) (hsole s h) _ rfl
    exact (nack_team ha ht).trans (put (hfault (.inr rfl)))
  · obtain ⟨-, -, -, hatom⟩ := coreNack_sole (n := refused 9) (hsole s h) _ rfl
    exact (nack_team ha ht).trans (put (hatom rfl))
  · exact faultReply_record (n := refused 2) rfl hteam hd hg hi

end Sys2Proof.Proofs
end

section
/-! SUPPORT. Lazy releases, draws, write-backs and their answers (R209 to R216). -/

namespace Sys2Proof.Proofs
open Sys2Proof Sys2Proof.Machine Sys2Proof.Safety Sys2Proof.Laws

variable {s : State} {r : Req} {ln : SLine} {x : Ember} {h pa : Nat} {d : DrawMsg} {l : DLine} {w : WbackMsg}

/-! ## Lazy releases -/

/-- A core's lazy release at a line of its slice, in a module without embers (R209, R210). -/
structure LazyRelease (s : State) (r : Req) (ln : SLine) (x : Ember) (h pa : Nat) : Prop extends HeldLine s r ln h pa where
  op : r.op = .write
  ord : r.ord = .rel
  eager : r.eager = false
  ember : r.ember = some x
  none : s.embers = []
  room : emberRoom r.part ln s = some s

/-- The scope record that a release leaves (R209). -/
theorem recordAfter_release (hs : r.agent = .team) (ho : r.op = .write) (hr : r.ord = .rel) (l : SLine) :
    recordAfter r true l = if r.scope = .dev then 2 else if r.scope = .sys then 3 else 0 := by
  have hw : r.isWrite = true := by rw [Req.isWrite, ho]
  have ht : r.byTeam = true := by rw [Req.byTeam, hs]
  unfold recordAfter Req.wideScope
  rw [ho, ht, hr, hw]
  cases r.scope <;> rfl

/-- The ember of a lazy release by its core (R210). -/
def releasedEmber (x : Ember) (r : Req) (line : W64) (die : Nat) (time : W32) : Ember :=
  { x with line := line, vclock := r.pts.mapIdx fun i q => if i = die then serMax q time else q, drawing := false, drawn := false }

namespace LazyRelease
variable (p : LazyRelease s r ln x h pa)
include p

theorem isWrite : r.isWrite = true := by rw [Req.isWrite, p.op]
theorem isRmw : r.isRmw = false := by rw [Req.isRmw, p.op]
theorem isRel : r.isRel = true := by rw [Req.isRel, p.ord, p.isWrite]; rfl
theorem isAcq : r.isAcq = false := by rw [Req.isAcq, p.ord]; rfl
theorem acquires : r.acquires = false := by rw [Req.acquires, p.isAcq, p.ord, p.op]; rfl
theorem emberAt_none (q : W64) (u : State) (hu : u.embers = s.embers) : emberAt q u = .none := by
  rw [emberAt, hu, p.none]
  rfl
/-- The slice has room for the ember, whatever the line's other fields become. -/
theorem emberRoom_setLine : emberRoom r.part ln (setLine ln s) = some (setLine ln s) := by
  have hused (u : State) (hu : u.embers = s.embers) : embersOfSlice ln u = [] := by
    unfold embersOfSlice
    rw [hu, p.none]
    rfl
  have hroom := p.room
  unfold emberRoom at hroom ⊢
  rw [hused s rfl, p.none] at hroom
  rw [hused (setLine ln s) rfl]
  by_cases hf : poolFree r.part 32 8 64 8192 [] s = true
  · exact if_pos hf
  · rw [if_neg hf] at hroom
    exact nomatch hroom
theorem relCourse_eq : relCourse r ln .notAcquire (setLine ln s) = .go .notAcquire (setLine ln s) := by
  have hin : ln.inSlice = true := by rw [SLine.inSlice, p.attr]; rfl
  unfold relCourse
  rw [hin, p.ember, p.emberAt_none ln.ptr (setLine ln s) rfl]
  simp only [Bool.not_true, Bool.and_false, Bool.false_eq_true, if_false, p.emberRoom_setLine]
theorem access_eq : access r s = perform r ln .notAcquire (setLine ln s) := by
  have hmis : mismatches r ln = false := by rw [mismatches, p.isAcq, p.ord]; simp
  exact p.toHeldLine.access_eq.trans (p.serve_eq hmis fun k => meet_release p.acquires _ k p.relCourse_eq)
/-- The ember that the release leaves is the module's only one. -/
theorem storeEmber_eq (k : SLine) (u : State) (hu : u.embers = s.embers) : storeEmber r k u = { u with embers := [releasedEmber x r k.ptr (k.die u) k.wts] } := by
  unfold storeEmber
  rw [p.ember]
  simp only [p.emberAt_none k.ptr u hu]
  rw [putEmber, hu, p.none]
  rfl
/-- R209 to R212: what the release leaves at the line, in memory and among the embers. -/
theorem ember_next (ha : awake s = true) (hmon : s.monitors = []) {ran : List Byte × List Nat × Nat} (hrun : runItems .write (s.mem.readN pa 64) r.items = ran)
    (hm : ran.2.2 ≠ 0) (h9 : ran.2.2.testBit 9 = false) :
    let die := ln.va / 2 ^ 14 % 4
    let time := serMax (r.pts.getD die ln.rts) (ln.rts + 1)
    ∃ u k, exec (.ember r) s = .next (cause (.ack { req := r, wts := time }) u)
      ∧ u.embers = [releasedEmber x r ln.ptr die time]
      ∧ lineAt (lineVa (vaOf r.ptr)) (keyOf r.ptr) u = some k ∧ k.wts = time ∧ k.rts = time
      ∧ k.record = (if r.scope = .dev then 2 else if r.scope = .sys then 3 else 0) ∧ u.mem = s.mem.writeN pa ran.1 := by
  intro die time
  obtain ⟨bs, vals, m⟩ := ran
  have hord : (r.ord == .ar) = false := by rw [p.ord]; rfl
  let s1 : State := { s with mem := s.mem.writeN pa bs }
  obtain ⟨hva, hkey, hattr, hwts, hrts, hrec⟩ := p.rewritten_fields m (setLine ln s1) rfl
  have hperf := p.perform_writes p.isWrite hord (p.op ▸ hrun) hm h9 hmon
  dsimp only at hperf
  generalize rewritten r m ln (setLine ln s1) = k at hva hkey hattr hwts hrts hrec hperf
  rw [p.isRmw, if_neg Bool.false_ne_true, p.storeEmber_eq k (setLine k s1) rfl] at hperf
  have hptr : k.ptr = ln.ptr := by rw [SLine.ptr, hva, hkey, SLine.ptr]
  have hdie (u : State) : k.die u = die := by rw [SLine.die, hattr, hva]; rfl
  obtain ⟨hlv, hlk⟩ : ln.va = lineVa (vaOf r.ptr) ∧ ln.key = keyOf r.ptr := by
    have hf := List.find?_some (p := fun l : SLine => l.va == lineVa (vaOf r.ptr) && l.key == keyOf r.ptr) p.line
    rw [Bool.and_eq_true, beq_iff_eq, beq_iff_eq] at hf
    exact hf
  refine ⟨{ setLine k s1 with embers := [releasedEmber x r k.ptr (k.die (setLine k s1)) k.wts] }, k, ?_, ?_, ?_, hwts, hrts, hrec.trans (recordAfter_release p.agent p.op p.ord _), rfl⟩
  · show event (arrive (.ember r) r) s = _
    rw [event_awake ha, arrive_team p.agent, handle_team p.agent (p.access_eq.trans hperf) (fun h => nomatch h) (siblings_plain p.isRmw), deliver_ack p.agent, hwts]
  · rw [hptr, hdie, hwts]
  · rw [← hlv, ← hlk, ← hva, ← hkey]
    exact lineAt_setLine k s1
end LazyRelease

/-! ## Draws and write-backs -/

/-- A draw that finds no dirty line of the release sequence is answered with the core's vector. -/
theorem draw_clean (ha : awake s = true) (hc : d.core < 2 ^ 10) (hb : unapplied d.core d.part d.rseq s = []) (hd : (coreOf d.core s).dirtySet d.part d.rseq = [])
    (hf : flushRemote true d.part s = ([], s)) : exec (.draw d) s = .next (cause (.drawack { d with vclock := (coreOf d.core s).pts.toList }) s) := by
  show execDraw d s = _
  unfold execDraw
  rw [event_awake ha, if_neg (Nat.not_le.2 hc), hb, hd]
  dsimp only [sendWbacks]
  rw [List.append_nil, List.isEmpty_nil, if_pos rfl, drawFar, hf]
  rfl
/-- A draw that finds one dirty line writes it back, and waits for that write-back. -/
theorem draw_dirty (ha : awake s = true) (hc : d.core < 2 ^ 10) (hb : unapplied d.core d.part d.rseq s = []) (hd : (coreOf d.core s).dirtySet d.part d.rseq = [l]) :
    exec (.draw d) s = .next
      (let u := cause (.wback { draw := d, req := writeBackReq d.core s.nextId l s }) (cleanDLine d.core l.va l.key { s with nextId := s.nextId + 1 })
       { u with draws := updWhere (fun y => y.line == d.line) (fun y => { y with pending := [s.nextId] }) u.draws }) := by
  show execDraw d s = _
  unfold execDraw
  rw [event_awake ha, if_neg (Nat.not_le.2 hc), hb, hd]
  rfl
/-- A write-back that reaches a writable line is applied, and its time merged into the core's vector. -/
theorem wback_applied (ha : awake s = true) (hcut : writeBackCut w.req s = false) (hw : writableAt (lineVa (vaOf w.req.ptr)) (keyOf w.req.ptr) s = true) :
    let applied := applyWriteBack w.req s
    exec (.wback w) s = .next (drawAcked w.req.id (acked w.req.id
      (modCore w.draw.core (fun c => c.mergePts (replyDie w.req applied.2) applied.1) applied.2))) := by
  intro applied
  show execWback w s = _
  unfold execWback
  rw [event_awake ha, hcut, hw, if_neg Bool.false_ne_true, Bool.not_true, if_neg Bool.false_ne_true]
/-- The state in which the answer to a draw leaves the draws and the embers. -/
def answeredDraw (d : DrawMsg) (s : State) : State :=
  { s with draws := s.draws.filter fun y => y.line != d.line
           embers := updWhere (fun e => e.line == d.line) (fun e =>
             { e with vclock := d.vclock.mapIdx (fun i p => if e.joined then serMax p (e.vclock.getD i p) else p), drawing := false, drawn := true }) s.embers }
theorem drawack_next (ha : awake s = true) : exec (.drawack d) s
    = .next (if fetching d.line (answeredDraw d s) then answeredDraw d s else serveWaiting (lineVa (vaOf d.line)) (keyOf d.line) (answeredDraw d s)) := by
  show execDrawack d s = _
  unfold execDrawack
  rw [event_awake ha]
  rfl

/-! ## Signatures (R210) -/

theorem bloomBits_lt (va : Nat) : (bloomBits va).1 < 256 ∧ (bloomBits va).2 < 256 := by
  have hb (lo n : Nat) (hn : n ≤ 8) : va / 64 / 2 ^ lo % 2 ^ n < 2 ^ 8 :=
    Nat.lt_of_lt_of_le (Nat.mod_lt _ (Nat.two_pow_pos n)) (Nat.pow_le_pow_right (by decide) hn)
  have hx {a b : Nat} (ha : a < 2 ^ 8) (hb : b < 2 ^ 8) : a ^^^ b < 2 ^ 8 := Nat.xor_lt_two_pow ha hb
  exact ⟨hb 0 8 (by decide), hx (hx (hx (hx (hx (hb 8 8 (by decide)) (hb 16 8 (by decide))) (hb 24 8 (by decide))) (hb 32 8 (by decide))) (hb 40 8 (by decide))) (hb 48 2 (by decide))⟩
/-- The bits of a signature of one line. -/
theorem bloomOf_one_bit (l : DLine) {i : Nat} (hi : i < 256) : (bloomOf [l]).getLsbD i = true ↔ i ∈ [(bloomBits l.va).1, (bloomBits l.va).2] := by
  have hone (a : Nat) : (1#256 <<< a).getLsbD i = true ↔ i = a := by
    rw [BitVec.getLsbD_shiftLeft, BitVec.getLsbD_one]
    simp only [hi, decide_true, Bool.true_and, Bool.and_eq_true, Bool.not_eq_true', decide_eq_false_iff_not, decide_eq_true_eq]
    omega
  show ((0#256 ||| (1#256 <<< (bloomBits l.va).1)) ||| (1#256 <<< (bloomBits l.va).2)).getLsbD i = true ↔ _
  rw [BitVec.getLsbD_or, BitVec.getLsbD_or, BitVec.getLsbD_zero, Bool.false_or, Bool.or_eq_true, hone, hone, List.mem_cons, List.mem_singleton]
theorem bloomHit_one (l : DLine) (va : Nat) : bloomHit (bloomOf [l]) va = true ↔ (bloomBits va).1 ∈ [(bloomBits l.va).1, (bloomBits l.va).2]
    ∧ (bloomBits va).2 ∈ [(bloomBits l.va).1, (bloomBits l.va).2] := by
  obtain ⟨h1, h2⟩ := bloomBits_lt va
  show ((bloomOf [l]).getLsbD (bloomBits va).1 && (bloomOf [l]).getLsbD (bloomBits va).2) = true ↔ _
  rw [Bool.and_eq_true, bloomOf_one_bit l h1, bloomOf_one_bit l h2]

/-- Settles O53: the lazy release takes the course of a request that nothing stands in the way of (`HeldLine`). -/
theorem embersAndDraws : Obligations.EmbersAndDraws := by
  intro s r ln x h pa d l w ran die time code lazy c vector id back applied answered ha
  refine ⟨fun hl => ?_, fun hc hb hd hf => draw_clean ha hc hb hd hf, fun hc hb hd => draw_dirty ha hc hb hd, fun hcut hw => wback_applied ha hcut hw, fun hf => ?_,
    fun hf => ?_, bloomHit_one l⟩
  · obtain ⟨agent, op, ord, eager, ember, flue, mapop, biasOp, biasHost, home, line, present, attr, st, place, none, hmon, room, hm, h9⟩ := hl
    exact LazyRelease.ember_next ⟨⟨agent, flue, mapop, biasOp, biasHost, home, line, present, attr, st, place⟩, op, ord, eager, ember, none, room⟩ ha hmon rfl hm h9
  · exact (drawack_next ha).trans (congrArg Host.Outcome.next (if_neg (Bool.eq_false_iff.1 hf)))
  · exact (drawack_next ha).trans (congrArg Host.Outcome.next (if_pos hf))

end Sys2Proof.Proofs
end

section
/-! SUPPORT. Time ticks, sweeps, wakes, instruction fetches and fault commands (R158, R159, R161, R198 to R203). -/

namespace Sys2Proof.Proofs
open Sys2Proof Sys2Proof.Machine Sys2Proof.Safety Sys2Proof.Laws

variable {s : State} {n h : Nat}

/-! ## Ticks and sweeps -/

theorem ptsTick_next (n : Nat) (ha : awake s = true) :
    let moved (c : Core) : Core := { c with pts := c.pts.map (· + 1) }
    exec (.ptsTick n) s = .next
      (let u := modCore n (fun c => { moved c with dl := c.dl.filter fun d => d.dmask != 0 || !trails (moved c) d }) s
       { u with lines := u.lines.map fun l => if l.die u = dieOf n u then l.aged ((coreOf n u).pts.toList.getD (dieOf n u) 0) else l }) := by
  show execPtsTick n s = _
  unfold execPtsTick
  rw [event_awake ha]
  simp only [beq_iff_eq]
/-- No line of another module, and none of the CXL memory, is here to be sent. -/
theorem sweep_near (hfar : ∀ l ∈ s.lines, l.far = false) (p : SLine → Bool) : s.lines.filter (fun l => l.far && p l) = [] :=
  List.filter_eq_nil_iff.2 fun l hl => by rw [hfar l hl, Bool.false_and]; exact Bool.false_ne_true
/-- A sweep in a module without lines that are far away sends the core's own old lines. -/
theorem ageSweep_next (n : Nat) (ha : awake s = true) (hfar : ∀ l ∈ s.lines, l.far = false)
    (hold : ((coreOf n s).dl.filter fun d => d.dmask != 0 && decide (d.since + 60800 ≤ s.ck)) = [] ∨
      ∃ d, ((coreOf n s).dl.filter fun d => d.dmask != 0 && decide (d.since + 60800 ≤ s.ck)) = [d]) :
    exec (.ageSweep n) s = .next (forEach ((coreOf n s).dl.filter fun d => d.dmask != 0 && decide (d.since + 60800 ≤ s.ck))
      (fun d s => sendWriteBack n s.nextId d { s with nextId := s.nextId + 1 }) s) := by
  have hsend (u : State) (hu : u.lines = s.lines) : forEach (u.lines.filter fun l => l.far && l.dirty != 0 && l.st != .held && decide (l.dirtied + sweepAge ≤ u.ck))
      (fun l s => (farWrite false l s).2) u = u := by
    have hno : (u.lines.filter fun l => l.far && l.dirty != 0 && l.st != .held && decide (l.dirtied + sweepAge ≤ u.ck)) = [] := by
      rw [hu]
      simp only [Bool.and_assoc]
      exact sweep_near hfar _
    rw [hno]
    rfl
  show execAgeSweep n s = _
  unfold execAgeSweep
  rw [event_awake ha]
  dsimp only
  rw [show sweepAge = 60800 from rfl] at hsend ⊢
  obtain hd | ⟨d, hd⟩ := hold <;> rw [hd]
  · exact congrArg Host.Outcome.next (hsend s rfl)
  · exact congrArg Host.Outcome.next (hsend (sendWriteBack n s.nextId d { s with nextId := s.nextId + 1 }) rfl)

/-! ## Wakes (R158) -/

theorem wake_idle (ha : awake s = true) (hn : (homeOf h s).noted = []) :
    ∃ u, exec (.wake h) s = .next u ∧ u.lsu = s.lsu ∧ u.agenda = s.agenda ∧ u.mem = s.mem := by
  have hw : wakeable h s = [] := by rw [wakeable, hn]; rfl
  have hno {α β : Type} [BEq β] (l : List α) (f : α → Bool) (g : α → β) : l.filter (fun x => f x && ([] : List β).contains (g x)) = [] :=
    List.filter_eq_nil_iff.2 fun x _ => by rw [List.contains_nil, Bool.and_false]; exact Bool.false_ne_true
  have hnone {α β : Type} [BEq β] (l : List α) (g : α → β) : l.filter (fun x => ([] : List β).contains (g x)) = [] :=
    List.filter_eq_nil_iff.2 fun x _ => by rw [List.contains_nil]; exact Bool.false_ne_true
  have hx : ∃ u, execWake h s = .next u ∧ u.lsu = s.lsu ∧ u.agenda = s.agenda ∧ u.mem = s.mem := by
    unfold execWake
    rw [event_awake ha]
    dsimp only
    rw [hw, List.map_nil, hno, hnone]
    refine ⟨_, rfl, ?_, rfl, rfl⟩
    show s.lsu.map (fun e => if ([] : List LsuEnt).any (fun m => m.id == e.id) then { e with phase := .held } else e) = s.lsu
    exact List.map_id' s.lsu
  exact hx
theorem contains_pair (a b c d : Nat) : [(a, b)].contains (c, d) = (c == a && d == b) := by
  rw [List.contains_cons, List.contains_nil, Bool.or_false]
  rfl
/-- A home that noted one core lets that core's request try again. -/
theorem wake_one {e : LsuEnt} {b : Bool} (ha : awake s = true) (hn : (homeOf h s).noted = [(e.req.core, e.req.part, b)]) (hl : s.lsu = [e]) (hp : e.phase = .retry h)
    (hroom : faultRoom e.req.part h s = true) (hb : b = false ∨ (homeOf h s).ovf.testBit e.req.part = false) :
    let mine (t : Team) : Bool := t.core == e.req.core && t.part == e.req.part
    let woken : State := modTeams mine (fun t => { t with c := t.c.awake h, m := t.m.awake h, l := t.l.awake h }) (modHome h (fun x => { x with noted := [] }) s)
    let tried : State := tryEnt e.id { woken with lsu := [{ e with phase := .held }] }
    exec (.wake h) s = .next (((allTeams tried).filter mine).foldl (fun u t => refetch h t u) tried) := by
  intro mine woken tried
  have hopen : (faultRoom e.req.part h s && (!b || !(homeOf h s).ovf.testBit e.req.part)) = true := by
    rcases hb with hb | hb <;> rw [hroom, hb]
    · rfl
    · exact Bool.or_true _
  have hw : wakeable h s = [(e.req.core, e.req.part, b)] := by
    rw [wakeable, hn, List.filter_cons, if_pos hopen]
    rfl
  have hteam (t : Team) : [(e.req.core, e.req.part)].contains (t.core, t.part) = mine t := contains_pair _ _ _ _
  have hentry : (e.phase == .retry h && [(e.req.core, e.req.part)].contains (e.req.core, e.req.part)) = true := by
    rw [hp, contains_pair, beq_self_eq_true, beq_self_eq_true, beq_self_eq_true]
    rfl
  have hmine : (s.lsu.filter fun e' => e'.phase == .retry h && [(e.req.core, e.req.part)].contains (e'.req.core, e'.req.part)) = [e] := by
    rw [hl, List.filter_cons, if_pos hentry]
    rfl
  have hnoted : modHome h (fun x => { x with noted := x.noted.filter fun n => !([(e.req.core, e.req.part, b)].contains n) }) s = modHome h (fun x => { x with noted := [] }) s := by
    have hf : ((homeOf h s).noted.filter fun n => !([(e.req.core, e.req.part, b)].contains n)) = [] := by
      rw [hn]
      refine List.filter_eq_nil_iff.2 fun x hx => ?_
      rw [List.contains_iff_mem.2 hx]
      exact Bool.false_ne_true
    unfold modHome
    dsimp only
    rw [hf]
  have hheld : (s.lsu.map fun x => if [e].any (fun m => m.id == x.id) then { x with phase := .held } else x) = [{ e with phase := .held }] := by
    rw [hl, List.map_cons, List.any_cons, beq_self_eq_true, Bool.true_or, if_pos rfl]
    rfl
  show execWake h s = _
  unfold execWake
  rw [event_awake ha]
  dsimp only
  rw [hw]
  simp only [List.map_cons, List.map_nil, hteam]
  rw [hnoted]
  have hsame : (modHome h (fun x => { x with noted := [] }) s).lsu = s.lsu := rfl
  rw [hsame, hmine]
  have hteams (f : Team → Team) (u : State) : (modTeams mine f u).lsu = u.lsu := rfl
  simp only [hteams]
  rw [hsame, hheld]
  rfl
theorem homeOvfClear_next (v : W64) (ha : awake s = true) :
    let u := modHome h (fun x => { x with ovf := x.ovf - (x.ovf &&& v.toNat) }) s
    exec (.homeOvfClear h v) s = .next (if (homeOf h s).noted = [] then u else cause (.wake h) u) := by
  intro u
  have hnoted : (homeOf h u).noted = (homeOf h s).noted := by
    show (homeOf h (modHome h _ s)).noted = _
    rw [homeOf_modHome_same]
  show event (clearHomeOvf h v) s = _
  rw [event_awake (f := clearHomeOvf h v) ha]
  show Host.Outcome.next (if (homeOf h u).noted.isEmpty then u else cause (.wake h) u) = _
  rw [hnoted]
  simp only [List.isEmpty_iff]

/-! ## Instruction fetches (R161) -/

variable {f : FetchRsp} {t : Team}

/-- The line of a fetch ahead. -/
theorem fetch_ahead (ha : awake s = true) (ht : teamOf f.team s = some t) (hs : f.spec ≠ 0) :
    exec (.instructionFetch f) s = .next (modTeam t.id (aheadArrives f) s) := by
  show execInstructionFetch f s = _
  unfold execInstructionFetch
  rw [event_awake ha]
  simp only [ht, if_pos hs]
/-- The line that the team waits for, or why it does not come. -/
theorem fetch_demand (ha : awake s = true) (ht : teamOf f.team s = some t) (hf : t.fetching = true) (hp : linePtr t.pc = f.ptr) (hs : f.spec = 0)
    (he : f.status = 0 ∨ t.entryFetch f = false) :
    exec (.instructionFetch f) s = .next (if f.status = 1 ∨ f.status = 2 then fetchFault f t s
      else if f.status = 0 then
        fetchAhead t.id f.ptr (modTeam t.id (fun t => { t with ilines := [(f.ptr, f.bytes)], fetching := false, fetchBad := false }.wake s.ck) s)
      else if f.status = 3 then modTeam t.id (fun t => { t with fetchBad := true }) s
      else killTeam t.id s) := by
  have hentry : ¬(f.status ≠ 0 ∧ t.entryFetch f = true) := fun ⟨h0, h1⟩ =>
    he.elim (fun h => h0 h) (fun h => Bool.false_ne_true (h.symm.trans h1))
  have hwaits : (!(t.fetching && linePtr t.pc == f.ptr)) = false := by
    rw [hf, hp, beq_self_eq_true]
    rfl
  show execInstructionFetch f s = _
  unfold execInstructionFetch
  rw [event_awake ha]
  simp only [ht, hs, ne_eq, not_true_eq_false, if_false, if_neg hentry, hwaits, Bool.false_eq_true]

/-! ## Fault commands (R159) -/

theorem fcmd_found {v : W64} {x : FaultEnt} (hx : ((homeOf h s).faults.find? fun f => f.slot == v.toNat % 2 ^ 8) = some x) :
    fcmd h v s = if v.toNat / 2 ^ 8 % 2 ^ 2 = 1 then replayFault h x s else if v.toNat / 2 ^ 8 % 2 ^ 2 = 2 then discardFault h x s else s := by
  have hfind : ((homeOf h s).faults.find? fun f => f.slot == fld v 0 8) = some x := by rw [fld_low]; exact hx
  unfold fcmd
  rw [hfind]
  rfl
theorem fcmd_next (v : W64) (ha : awake s = true) {u : State} (hu : fcmd h v s = u) : exec (.fcmdReplay h v) s = .next u ∧ exec (.fcmdDiscard h v) s = .next u := by
  have he : event (fcmd h v) s = .next u := by rw [event_awake (f := fcmd h v) ha, hu]
  exact ⟨he, he⟩

/-- Settles O54. -/
theorem coreTimersAndWakes : Obligations.CoreTimersAndWakes := by
  intro s n h d f t v x e b moved old far id back noted open' waiting entry cmd ha
  refine ⟨ptsTick_next n ha, fun hfar hold => ?_, fun hfar hold => ?_, wake_idle ha, fun hn hl hp hroom hb => wake_one ha hn hl hp hroom hb, fun hn => ?_, fun hn => ?_,
    fun ⟨ht, hf, hp, hs⟩ h0 => ?_, fetch_ahead ha, fun ⟨ht, hf, hp, hs⟩ h4 he => ?_, fun ⟨ht, hf, hp, hs⟩ h3 he => ?_, fun ⟨ht, hf, hp, hs⟩ h2 he => ?_,
    fun hx hv => fcmd_next v ha ?_, fun hx hv => fcmd_next v ha ?_, fun hx hv => fcmd_next v ha ?_⟩
  · refine (ageSweep_next n ha hfar (.inl hold)).trans ?_
    rw [hold]
    rfl
  · refine (ageSweep_next n ha hfar (.inr ⟨d, hold⟩)).trans ?_
    rw [hold]
    rfl
  · exact (homeOvfClear_next v ha).trans (congrArg _ (if_pos hn))
  · exact (homeOvfClear_next v ha).trans (congrArg _ (if_neg hn))
  · rw [fetch_demand ha ht hf hp hs (.inl h0), h0]
    rfl
  · rw [fetch_demand ha ht hf hp hs (.inr he), h4]
    rfl
  · rw [fetch_demand ha ht hf hp hs (.inr he), h3]
    rfl
  · rw [fetch_demand ha ht hf hp hs (.inr he), h2]
    rfl
  · rw [fcmd_found hx, if_pos hv]
    rfl
  · rw [fcmd_found hx, hv]
    rfl
  · rw [fcmd_found hx]
    obtain hv | hv := hv <;> rw [hv] <;> rfl

end Sys2Proof.Proofs
end

section
/-! SUPPORT. Mapping operations of the host, their completion, and the hotness ring (R148, R150, R154, R160, R164, R396). -/

namespace Sys2Proof.Proofs
open Sys2Proof Sys2Proof.Machine Sys2Proof.Safety Sys2Proof.Laws

variable {s : State} {v : W64} {m : MapOp}

/-! ## Writes of the command register -/

theorem ptWrite_busy (h : v.getLsbD 0 = true) (ho : (ctlRaw .ptCmd s).getLsbD 0 = true) : ptWrite v s = ctlSetFld .ptCmd 5 1 1 s := by
  have hb : (bit v 0 && bit (ctlRaw .ptCmd s) 0) = true := by
    show (v.getLsbD 0 && (ctlRaw .ptCmd s).getLsbD 0) = true
    rw [h, ho]
    rfl
  exact if_pos hb
/-- The operation that a write of the command register names. -/
def namedMapOp (v : W64) (s : State) : MapOp :=
  { op := v.toNat / 2 % 2 ^ 3, size := v.toNat / 2 ^ 6 % 2 ^ 2, va := v.toNat / 2 ^ 16 % 2 ^ 40 * 2 ^ 16, arg := ctlRaw .ptArg s }
theorem ptWrite_starts (h : v.getLsbD 0 = true) (ho : (ctlRaw .ptCmd s).getLsbD 0 = false) :
    let flags := (ctlRaw .ptCmd s).toNat / 2 ^ 4 % 2 ^ 2
    let cleared := v.toNat / 2 ^ 4 % 2 ^ 2
    let word : W64 := w64 (1 + (namedMapOp v s).op * 2 + (flags - (flags &&& cleared)) * 2 ^ 4 + (namedMapOp v s).size * 2 ^ 6 + v.toNat / 2 ^ 16 % 2 ^ 40 * 2 ^ 16)
    ptWrite v s = causeOnce .mappingOpComplete { ctlPut .ptCmd word s with mapop := some (namedMapOp v s) } := by
  intro flags cleared word
  have hv : bit v 0 = true := h
  have hold : bit (ctlRaw .ptCmd s) 0 = false := ho
  have harg (x : W64) : ctlRaw .ptArg (ctlPut .ptCmd x s) = ctlRaw .ptArg s := ctlRaw_ctlPut_ne x s (by decide)
  unfold ptWrite
  dsimp only
  rw [hv, hold, if_neg (by decide), if_pos rfl, harg, ← Nat.sub_mul]
  rfl
/-- The four host registers of R160 take one write alike. -/
theorem ptWrite_next (ha : awake s = true) {u : State} (h : ptWrite v s = u) : exec (.ptUnmap v) s = .next u ∧ exec (.ptSplit v) s = .next u
    ∧ exec (.ptMove v) s = .next u ∧ exec (.ptReattribute v) s = .next u := by
  have he : event (ptWrite v) s = .next u := by rw [event_awake (f := ptWrite v) ha, h]
  exact ⟨he, he, he, he⟩

/-! ## Completion -/

theorem mappingOp_waits (ha : awake s = true) (hm : s.mapop = some m) (hw : mapReady m s = false ∨ flipFirst m s = true) :
    exec .mappingOpComplete s = .next (cause .mappingOpComplete (if m.clears then drawArea (pageArea m.size m.va) s else s)) := by
  have hb : (!mapReady m s || flipFirst m s) = true := by
    rcases hw with hw | hw <;> rw [hw]
    · rfl
    · exact Bool.or_true _
  show execMappingOpComplete s = _
  unfold execMappingOpComplete
  rw [event_awake ha]
  simp only [hm, if_pos hb]
/-- What the end of an operation of `ctl.pt.cmd` leaves: go is 0, the bit named is 1 for an operation of the host, and what was held goes on. -/
def mapEnded (m : MapOp) (bitNo : Nat) (u : State) : State :=
  let v : State := ctlSetFld .ptCmd 0 1 0 { u with mapop := none }
  let u := releaseHeld (if m.fw then v else ctlSetFld .ptCmd bitNo 1 1 v)
  if u.mapq.isEmpty then u else causeOnce .mappingOpComplete u
theorem mapEnded_eq (m : MapOp) (bitNo : Nat) {u : State} (hu : u.biasOp = none) :
    (let v := (if m.fw then id else ctlSetFld .ptCmd bitNo 1 1)
      (ctlSetFld .ptCmd 0 1 0 { u with mapop := none, biasOp := u.biasOp.map fun b => (b.1, b.2.1, if b.2.2 = 1 then 0 else b.2.2) })
     let w := releaseHeld v
     if w.mapq.isEmpty then w else causeOnce .mappingOpComplete w) = mapEnded m bitNo u := by
  have hbias : ({ u with mapop := none, biasOp := u.biasOp.map fun b => (b.1, b.2.1, if b.2.2 = 1 then 0 else b.2.2) } : State) = { u with mapop := none } := by
    rw [hu, Option.map_none, ← hu]
  rw [hbias]
  unfold mapEnded
  cases m.fw <;> rfl
theorem mappingOp_ends (ha : awake s = true) (hm : s.mapop = some m) (hr : areaReady (pageArea m.size m.va) s = true) (hb : s.biasOp = none) :
    (∀ u, hostMapOp m s = some u → u.biasOp = none → exec .mappingOpComplete s = .next (mapEnded m 4 u))
    ∧ (hostMapOp m s = none → exec .mappingOpComplete s = .next (mapEnded m 5 s)) := by
  have hquiet : areaQuiet (pageArea m.size m.va) s = true := (Bool.and_eq_true _ _ ▸ hr : _ ∧ _).1
  have hready : mapReady m s = true := by
    unfold mapReady
    rw [hr, hquiet, ite_self]
  have hfirst : flipFirst m s = false := by rw [flipFirst, hb]
  have hgo : ¬(!mapReady m s || flipFirst m s) = true := by rw [hready, hfirst]; decide
  refine ⟨fun u hu hub => ?_, fun hu => ?_⟩ <;> show execMappingOpComplete s = _ <;> unfold execMappingOpComplete <;> rw [event_awake ha] <;>
    simp only [hm, if_neg hgo, hu]
  · exact congrArg Host.Outcome.next (mapEnded_eq m 4 hub)
  · exact congrArg Host.Outcome.next (mapEnded_eq m 5 hb)
theorem pmap_next {id : Nat} {rest : List Nat} (ha : awake s = true) (hm : s.mapop = none) (hq : s.mapq = id :: rest) :
    exec .mappingOpComplete s = .next (let u := runPmap id { s with mapq := rest }; if rest = [] then u else causeOnce .mappingOpComplete u) := by
  show execMappingOpComplete s = _
  unfold execMappingOpComplete
  rw [event_awake ha]
  simp only [hm, hq, List.isEmpty_iff]

/-! ## Unmapping -/

/-- What a change of every home leaves true of each home that it names. -/
theorem forEach_modHome {P : Home → Prop} {g : Home → Home} (hg : ∀ x, P (g x)) {h : Nat} (l : List Nat) (s : State) (hh : h ∈ l ∨ P (homeOf h s)) :
    P (homeOf h (forEach l (fun h s => modHome h g s) s)) := by
  induction l generalizing s with
  | nil => exact hh.resolve_left List.not_mem_nil
  | cons k l ih =>
    refine ih (modHome k g s) ?_
    by_cases hk : h = k
    · subst hk
      exact .inr ((homeOf_modHome_same h g s).symm ▸ hg _)
    · rcases hh with hh | hh
      · exact .inl ((List.mem_cons.1 hh).resolve_left hk)
      · exact .inr ((homeOf_modHome_ne g s hk).symm ▸ hh)
/-- An unmapping leaves no translation of its page at any home (R148). -/
theorem unmap_translations (hm : m.op = 1) (s : State) : ∃ u, hostMapOp m s = some u ∧ ∀ h, h < 37 → ∀ e ∈ (homeOf h u).htb,
    e.base / pageBytes (max e.size m.size) ≠ m.va / pageBytes (max e.size m.size) := by
  refine ⟨htbReplace m.size m.va none (clearArea (pageArea m.size m.va) s), by unfold hostMapOp; simp only [hm], fun h hh => ?_⟩
  refine forEach_modHome (P := fun x => ∀ e ∈ x.htb, e.base / pageBytes (max e.size m.size) ≠ m.va / pageBytes (max e.size m.size))
    (fun x e he heq => ?_) (List.range 37) _ (.inl (List.mem_range.2 hh))
  obtain ⟨-, hno⟩ := List.mem_filter.1 he
  rw [Bool.not_eq_true', beq_eq_false_iff_ne] at hno
  exact hno heq

/-! ## The hotness ring (R164) -/

/-- The write of a ring's base where no ring was in use. -/
theorem hotBase_next (q : Nat) (ha : awake s = true) (hb : (ctlRaw (.hotBase q) s).getLsbD 0 = false) :
    let put := ctlPut (.hotBase q) (ctlMerge (.hotBase q) (ctlRaw (.hotBase q) s) v) s
    exec (.hotBaseWrite q v) s = .next (if v.getLsbD 0 then
      forEach (List.range 37) (fun h s => modHome h (fun x => { x with counts := x.counts.filter fun c => c.1 != q }) s)
        (reserveFrames (v.toNat / 2 ^ 16 % 2 ^ 32) (ringFrames v) true put) else put) := by
  intro put
  have hbit : ¬bit (ctlRaw (.hotBase q) s) 0 = true := by
    show ¬(ctlRaw (.hotBase q) s).getLsbD 0 = true
    rw [hb]
    exact Bool.false_ne_true
  show event (writeHotBase q v) s = _
  rw [event_awake (f := writeHotBase q v) ha]
  unfold writeHotBase
  dsimp only
  rw [if_neg hbit]
  rfl

/-- Settles O55. -/
theorem mappingOperations : Obligations.MappingOperations := by
  intro s v m id q rest old flags cleared op word writes ended idle base ring restarted ha
  refine ⟨fun hv ho => ptWrite_next ha (ptWrite_busy hv ho), fun hv ho => ptWrite_next ha (ptWrite_starts hv ho), fun ⟨hm, hr, hb⟩ => (mappingOp_ends ha hm hr hb).1,
    mappingOp_waits ha, fun ⟨hm, hr, hb⟩ => (mappingOp_ends ha hm hr hb).2, pmap_next ha, fun h => unmap_translations h s, fun hb hv => ?_, fun hb hv => ?_⟩
  · exact (hotBase_next q ha hb).trans (congrArg _ (if_neg (by rw [hv]; exact Bool.false_ne_true)))
  · exact (hotBase_next q ha hb).trans (congrArg _ (if_pos hv))

end Sys2Proof.Proofs
end

section
/-! SUPPORT. Flits, naks, pauses, retrains and failover of a Fjonlink port (R15, R16, R18 to R20). -/

namespace Sys2Proof.Proofs
open Sys2Proof Sys2Proof.Machine Sys2Proof.Safety Sys2Proof.Laws

variable {s : State} {n c : Nat} {f : Flit} {v : W64}

/-! ## Flits -/

/-- A port that takes flits. -/
def PortTakes (n : Nat) (s : State) : Prop := n < 8 ∧ (portOf n s).up = true ∧ (portOf n s).training = false
/-- The state once the flit's acknowledgement has freed what it names (R16). -/
def ackedBy (n : Nat) (f : Flit) (s : State) : State := modPort n (fun x => x.acked f.ack) s

theorem port_takes (h : PortTakes n s) : (decide (8 ≤ n) || !(portOf n s).up || (portOf n s).training) = false := by
  obtain ⟨hn, hu, ht⟩ := h
  rw [hu, ht, decide_eq_false (Nat.not_le.2 hn)]
  rfl
theorem flitIn_good (k : State → State) (h : PortTakes n s) (hg : goodFlit f = true) : flitIn n f k s = k (ackedBy n f s) := by
  unfold flitIn
  dsimp only
  rw [port_takes h, hg]
  rfl
theorem flitIn_bad (k : State → State) (h : PortTakes n s) (hg : ¬goodFlit f = true) : flitIn n f k s = sendNak n (countFec n f s) := by
  rw [Bool.not_eq_true] at hg
  unfold flitIn
  dsimp only
  rw [port_takes h, hg]
  rfl
/-- A flit that is not intact is answered by a nak, whatever its kind. -/
theorem badFlit_next (ha : awake s = true) (h : PortTakes n s) (hg : ¬goodFlit f = true) :
    exec (.dataFlit n f) s = .next (sendNak n (countFec n f s)) ∧ exec (.nakFlit n f) s = .next (sendNak n (countFec n f s))
    ∧ exec (.pauseFlit n f.toFlitHead f.body) s = .next (sendNak n (countFec n f s)) := by
  refine ⟨?_, ?_, ?_⟩
  · show execDataFlit n f s = _
    unfold execDataFlit
    rw [event_awake (f := flitIn n f _) ha, flitIn_bad _ h hg]
  · show execNakFlit n f s = _
    unfold execNakFlit
    rw [event_awake (f := flitIn n f _) ha, flitIn_bad _ h hg]
  · show execPauseFlit n f.toFlitHead f.body s = _
    unfold execPauseFlit
    dsimp only
    rw [event_awake (f := flitIn n f _) ha, flitIn_bad _ h hg]

/-- An acknowledgement leaves the receiving side of the port. -/
theorem acked_receives (x : Port) (a : Nat) : (x.acked a).rx = x.rx ∧ (x.acked a).expect = x.expect := by
  unfold Port.acked
  split <;> exact ⟨rfl, rfl⟩
theorem ackedBy_receives (n : Nat) (f : Flit) (s : State) : (portOf n (ackedBy n f s)).rx = (portOf n s).rx ∧ (portOf n (ackedBy n f s)).expect = (portOf n s).expect := by
  rw [ackedBy, portOf_modPort_same]
  exact acked_receives _ _
/-- What an intact data, acknowledgement or retrain flit does. -/
theorem dataFlit_good (ha : awake s = true) (h : PortTakes n s) (hg : goodFlit f = true) : exec (.dataFlit n f) s = .next (
    if f.ty = 3 then goOnPorts (ackedBy n f s)
    else if f.ty = 4 then modPort n (fun x => { x with training := true, naks := 0 }) (ackedBy n f s)
    else if f.ty ≠ 0 then ackedBy n f s
    else if f.seq ≠ (portOf n s).expect ∨ 65536 < ((portOf n s).rx.getD f.tc []).length + f.body.length then sendNak n (ackedBy n f s)
    else goOnPorts (modPort n (fun x =>
      let rx := x.rx.getD f.tc [] ++ f.body
      { x with expect := (x.expect + 1) % 4096, rx := x.rx.set f.tc (unpad (rx.length / 32 + 1) rx) }) (ackedBy n f s))) := by
  obtain ⟨hrx, hex⟩ := ackedBy_receives n f s
  show execDataFlit n f s = _
  unfold execDataFlit
  rw [event_awake (f := flitIn n f _) ha, flitIn_good _ h hg]
  unfold occupied
  rw [hrx, hex]

/-! ## Naks (R16) -/

/-- The port once a nak has been counted `k` times. -/
def nakCounted (seq k : Nat) (x : Port) : Port :=
  { (if 8 ≤ k then x.control 4 [] else x) with nakSeq := seq, naks := if 8 ≤ k then 0 else k, training := decide (8 ≤ k) }
/-- How often in a row the nak's number has come now. -/
def nakCount (seq : Nat) (y : Port) : Nat := if y.naks ≠ 0 ∧ y.nakSeq = seq then y.naks + 1 else 1
/-- The state once the flits from the number on are sent again, and their error counted. -/
def replayedFrom (n seq : Nat) (u : State) : State :=
  modPort n (fun x => { x with out := x.out ++ x.retry.dropWhile fun g => g.seq != seq })
    (ctlSetFld (.fjErr n) 0 32 (min (2 ^ 32 - 1) ((ctlRaw (.fjErr n) u).toNat % 2 ^ 32 + 1)) u)

theorem nakFlit_good (ha : awake s = true) (h : PortTakes n s) (hg : goodFlit f = true) :
    let u := ackedBy n f s
    exec (.nakFlit n f) s = .next (modPort n (nakCounted (nakOf f) (nakCount (nakOf f) (portOf n u)))
      (if (portOf n u).retry.any fun g => g.seq == nakOf f then replayedFrom n (nakOf f) u else u)) := by
  intro u
  have hfld : ctlFld (.fjErr n) 0 32 u = (ctlRaw (.fjErr n) u).toNat % 2 ^ 32 := fld_low _ _
  show execNakFlit n f s = _
  unfold execNakFlit
  rw [event_awake (f := flitIn n f _) ha, flitIn_good _ h hg]
  dsimp only
  rw [show ackedBy n f s = u from rfl, hfld]
  rfl
theorem nakCount_first {seq : Nat} {y : Port} (h : y.naks = 0 ∨ y.nakSeq ≠ seq) : nakCount seq y = 1 :=
  if_neg fun ⟨h0, h1⟩ => h.elim (fun h => h0 h) (fun h => h h1)
theorem nakCount_again {seq : Nat} {y : Port} (h0 : 0 < y.naks) (h : y.nakSeq = seq) : nakCount seq y = y.naks + 1 := if_pos ⟨Nat.pos_iff_ne_zero.1 h0, h⟩
theorem nakCounted_few {seq k : Nat} (h : k < 8) : nakCounted seq k = fun x => { x with nakSeq := seq, naks := k, training := false } := by
  funext x
  unfold nakCounted
  rw [if_neg (Nat.not_le.2 h), if_neg (Nat.not_le.2 h), decide_eq_false (Nat.not_le.2 h)]
/-- A nak below the eighth of its number, of a flit that the retry buffer holds. -/
theorem nak_held {k : Nat} (ha : awake s = true) (h : PortTakes n s) (hg : goodFlit f = true) (hr : ∃ g ∈ (portOf n (ackedBy n f s)).retry, g.seq = nakOf f)
    (hk : nakCount (nakOf f) (portOf n (ackedBy n f s)) = k) (h8 : k < 8) :
    exec (.nakFlit n f) s = .next (modPort n (fun x => { x with nakSeq := nakOf f, naks := k, training := false }) (replayedFrom n (nakOf f) (ackedBy n f s))) := by
  obtain ⟨g, hm, hs⟩ := hr
  have hany : ((portOf n (ackedBy n f s)).retry.any fun g => g.seq == nakOf f) = true := List.any_eq_true.2 ⟨g, hm, beq_iff_eq.2 hs⟩
  have hx := nakFlit_good ha h hg
  dsimp only at hx
  rwa [hany, if_pos rfl, hk, nakCounted_few h8] at hx
/-- A nak of a flit that the retry buffer no longer holds. -/
theorem nak_gone {k : Nat} (ha : awake s = true) (h : PortTakes n s) (hg : goodFlit f = true) (hr : ∀ g ∈ (portOf n (ackedBy n f s)).retry, g.seq ≠ nakOf f)
    (hk : nakCount (nakOf f) (portOf n (ackedBy n f s)) = k) : exec (.nakFlit n f) s = .next (modPort n (nakCounted (nakOf f) k) (ackedBy n f s)) := by
  have hany : ¬((portOf n (ackedBy n f s)).retry.any fun g => g.seq == nakOf f) = true := fun h => by
    obtain ⟨g, hm, hs⟩ := List.any_eq_true.1 h
    exact hr g hm (beq_iff_eq.1 hs)
  have hx := nakFlit_good ha h hg
  dsimp only at hx
  rwa [if_neg hany, hk] at hx
theorem nak_goneFew {k : Nat} (ha : awake s = true) (h : PortTakes n s) (hg : goodFlit f = true) (hr : ∀ g ∈ (portOf n (ackedBy n f s)).retry, g.seq ≠ nakOf f)
    (hk : nakCount (nakOf f) (portOf n (ackedBy n f s)) = k) (h8 : k < 8) :
    exec (.nakFlit n f) s = .next (modPort n (fun x => { x with nakSeq := nakOf f, naks := k, training := false }) (ackedBy n f s)) := by
  rw [nak_gone ha h hg hr hk, nakCounted_few h8]

/-! ## Pauses (R18) -/

theorem pauseFlit_good (ha : awake s = true) (h : PortTakes n s) (hg : goodFlit f = true) :
    let until' (x : Port) (c : Nat) : Nat :=
      if (pauseMask f).getLsbD c then (if pauseOf f = 0 then 0 else s.ck + (pauseOf f * 1216 + 9) / 10) else x.pausedUntil.getD c 0
    exec (.pauseFlit n f.toFlitHead f.body) s = .next (goOnPorts (modPort n (fun x => { x with pausedUntil := (List.range 4).map (until' x) }) (ackedBy n f s))) := by
  intro until'
  show execPauseFlit n f.toFlitHead f.body s = _
  unfold execPauseFlit
  dsimp only
  rw [event_awake (f := flitIn n f _) ha, flitIn_good _ h hg]
  rfl
theorem pauseExpiry_next (n c : Nat) (ha : awake s = true) : exec (.pauseExpiry n c) s = .next
    (if (portOf n s).pausedUntil.getD c 0 = 0 ∨ s.ck < (portOf n s).pausedUntil.getD c 0 then s
      else goOnPorts (modPort n (fun x => { x with pausedUntil := x.pausedUntil.set c 0 }) s)) := by
  show execPauseExpiry n c s = _
  unfold execPauseExpiry
  rw [event_awake ha]
/-- A port that is up, and whose pause of the class stands, looks at how full the class is. -/
theorem pauseRefresh_next (ha : awake s = true) (hu : (portOf n s).up = true) (ht : (portOf n s).training = false) (hw : (portOf n s).weSent.getD c false = true) :
    exec (.pauseRefresh n c) s = .next
      (if occupied n c s < 32768 then modPort n (fun x => { x with weSent := x.weSent.set c false }.sendPause c 0) s
        else if occupied n c s = 32768 then s else modPort n (fun x => x.sendPause c pauseTime) s) := by
  show execPauseRefresh n c s = _
  unfold execPauseRefresh
  rw [event_awake ha]
  dsimp only
  rw [hu, ht, hw]
  rfl
theorem pauseRefresh_idle (ha : awake s = true) (h : (portOf n s).up = false ∨ (portOf n s).training = true ∨ (portOf n s).weSent.getD c false = false) :
    exec (.pauseRefresh n c) s = .next s := by
  have hstop : (!(portOf n s).up || (portOf n s).training || !(portOf n s).weSent.getD c false) = true := by
    rcases h with h | h | h <;> rw [h]
    · rfl
    · rw [Bool.or_true, Bool.true_or]
    · exact Bool.or_true _
  show execPauseRefresh n c s = _
  unfold execPauseRefresh
  rw [event_awake ha]
  exact congrArg Host.Outcome.next (if_pos hstop)

/-! ## Retrains and failover (R19, R20) -/

theorem retrainComplete_next (ok : Bool) (ha : awake s = true) (hn : n < 8) (ht : (portOf n s).training = true) : exec (.retrainComplete n ok) s = .next
    (if ok then goOnPorts (modPort n (fun x => { x with up := true, training := false, fails := 0, naks := 0, out := x.out ++ x.retry }) s)
      else if 3 ≤ (portOf n s).fails + 1 then portDown n s
      else modPort n (fun x => { x with fails := x.fails + 1 }) s) := by
  have hgo : ¬(decide (8 ≤ n) || !((portOf n s).training || (!(portOf n s).up && ctlFld (.fjStat n) 2 1 s == 0))) = true := by
    rw [ht, decide_eq_false (Nat.not_le.2 hn), Bool.true_or]
    decide
  show execRetrainComplete n ok s = _
  unfold execRetrainComplete
  rw [event_awake ha]
  exact congrArg Host.Outcome.next (if_neg hgo)
/-- A packet that was re-sent and whose time is over. -/
def lateAt (ck : Nat) (k : Nat × Packet) : Bool := k.1 != 0 && decide (k.1 ≤ ck)
theorem failover_next (n : Nat) (ha : awake s = true) : exec (.failoverTimeout n) s = .next
    (forEach ((portOf n s).pend.filter (lateAt s.ck)) (fun k s => unreachable k.2 s) (modPort n (fun x => { x with pend := x.pend.filter fun k => !lateAt s.ck k }) s)) := by
  show execFailoverTimeout n s = _
  unfold execFailoverTimeout
  rw [event_awake ha]
  rfl
theorem failover_none (ha : awake s = true) (h : ∀ k ∈ (portOf n s).pend, lateAt s.ck k = false) :
    ∃ u, exec (.failoverTimeout n) s = .next u ∧ portOf n u = portOf n s ∧ u.agenda = s.agenda := by
  have hnone : (portOf n s).pend.filter (lateAt s.ck) = [] := List.filter_eq_nil_iff.2 fun k hk => Bool.eq_false_iff.1 (h k hk)
  have hall : ((portOf n s).pend.filter fun k => !lateAt s.ck k) = (portOf n s).pend := List.filter_eq_self.2 fun k hk => by rw [h k hk]; rfl
  refine ⟨modPort n (fun x => { x with pend := x.pend.filter fun k => !lateAt s.ck k }) s, ?_, ?_, rfl⟩
  · rw [failover_next n ha, hnone]
    rfl
  · rw [portOf_modPort_same, hall]
theorem failover_one {k : Nat × Packet} (ha : awake s = true) (hp : (portOf n s).pend = [k]) (hk : lateAt s.ck k = true) :
    exec (.failoverTimeout n) s = .next (unreachable k.2 (modPort n (fun x => { x with pend := [] }) s)) := by
  have hput : modPort n (fun x => { x with pend := x.pend.filter fun k => !lateAt s.ck k }) s = modPort n (fun x => { x with pend := [] }) s := by
    unfold modPort
    dsimp only
    rw [hp, List.filter_cons, hk]
    rfl
  rw [failover_next n ha, hput, hp, List.filter_cons, if_pos hk]
  rfl
theorem dedupExpiry_next (ha : awake s = true) : exec .dedupExpiry s = .next { s with accepted := s.accepted.filter fun a => decide (s.ck ≤ a.time + 3800000) } := by
  show execDedupExpiry s = _
  unfold execDedupExpiry
  rw [event_awake ha]
  rfl
theorem portRetrain_starts (ha : awake s = true) (hn : n < 8) (hv : v.getLsbD 2 = true) (hd : (ctlRaw (.fjStat n) s).toNat / 2 ^ 2 % 2 = 1) :
    exec (.portRetrain n v) s = .next (modPort n (fun x => { x with up := false, training := true, expect := 0, sent := 0, retry := [], queue := [], naks := 0, fails := 2 })
      (ctlSetFld (.fjStat n) 2 1 0 s)) := by
  have hfld : ctlFld (.fjStat n) 2 1 s = 1 := hd
  have hbit : bit v 2 = true := hv
  have hgo : ¬(decide (8 ≤ n) || !bit v 2 || ctlFld (.fjStat n) 2 1 s == 0) = true := by
    rw [hfld, hbit, decide_eq_false (Nat.not_le.2 hn)]
    decide
  show event (writeFjStat n v) s = _
  rw [event_awake (f := writeFjStat n v) ha]
  exact congrArg Host.Outcome.next (if_neg hgo)
theorem portRetrain_idle (ha : awake s = true) (h : v.getLsbD 2 = false ∨ ¬(ctlRaw (.fjStat n) s).toNat / 2 ^ 2 % 2 = 1) : exec (.portRetrain n v) s = .next s := by
  have hstop : (decide (8 ≤ n) || !bit v 2 || ctlFld (.fjStat n) 2 1 s == 0) = true := by
    rcases h with h | h
    · rw [show bit v 2 = false from h, Bool.not_false, Bool.or_true, Bool.true_or]
    · have hfld : ctlFld (.fjStat n) 2 1 s = 0 := by
        show (ctlRaw (.fjStat n) s).toNat / 2 ^ 2 % 2 ^ 1 = 0
        omega
      rw [hfld]
      exact Bool.or_true _
  show event (writeFjStat n v) s = _
  rw [event_awake (f := writeFjStat n v) ha]
  exact congrArg Host.Outcome.next (if_pos hstop)

/-- Settles O56. -/
theorem portEvents : Obligations.PortEvents := by
  intro s n c f v x ready good inSeq base mine put seq y errors replayed full until' late again down ha
  refine ⟨fun h hg ht hi => ?inOrder, badFlit_next ha, fun h hg ht hi => ?outOfOrder, fun h hg ht => ?ack, fun h hg ht => ?train,
    fun h hg hr h1 => nak_held ha h hg hr (nakCount_first h1) (by decide), fun h hg hr h1 h0 h7 => nak_held ha h hg hr (nakCount_again h0 h1) (Nat.succ_lt_succ h7),
    fun h hg hr h1 => nak_goneFew ha h hg hr (nakCount_first h1) (by decide),
    fun h hg hr h1 h0 h7 => nak_goneFew ha h hg hr (nakCount_again h0 h1) (Nat.succ_lt_succ h7), fun h hg hr h1 h7 => ?eighth, pauseFlit_good ha, fun h0 hp => ?expired, fun hp => ?running,
    fun hu ht hw => ⟨fun hf => ?low, fun hf => ?half, fun hf => ?high⟩, pauseRefresh_idle ha,
    fun hn ht => ⟨retrainComplete_next true ha hn ht, fun hf => ?retry, fun hf => ?fails⟩, failover_none ha, fun k => failover_one ha, dedupExpiry_next ha,
    portRetrain_starts ha, portRetrain_idle ha⟩
  case inOrder =>
    obtain ⟨hseq, hroom⟩ := hi
    rw [dataFlit_good ha h hg, ht, if_neg (by decide), if_neg (by decide), if_neg (by decide)]
    exact congrArg Host.Outcome.next (if_neg fun hbad => hbad.elim (fun hb => hb hseq) (fun hb => Nat.not_le.2 hb hroom))
  case outOfOrder =>
    rw [dataFlit_good ha h hg, ht, if_neg (by decide), if_neg (by decide), if_neg (by decide)]
    refine congrArg Host.Outcome.next (if_pos ?_)
    by_cases hseq : f.seq = x.expect
    · exact .inr (Nat.lt_of_not_le fun hroom => hi ⟨hseq, hroom⟩)
    · exact .inl hseq
  case ack => exact (dataFlit_good ha h hg).trans (congrArg _ (if_pos ht))
  case train =>
    rw [dataFlit_good ha h hg, ht]
    rfl
  case eighth =>
    have h8 : nakCount (nakOf f) (portOf n (ackedBy n f s)) = 8 := (nakCount_again (Nat.lt_of_lt_of_eq (by decide) h7.symm) h1).trans (congrArg Nat.succ h7)
    rw [nak_gone ha h hg hr h8]
    rfl
  case expired => exact (pauseExpiry_next n c ha).trans (congrArg _ (if_neg fun h => h.elim h0 (Nat.not_lt.2 hp)))
  case running => exact (pauseExpiry_next n c ha).trans (congrArg _ (if_pos (.inr hp)))
  case low => exact (pauseRefresh_next ha hu ht hw).trans (congrArg _ (if_pos hf))
  case half =>
    rw [pauseRefresh_next ha hu ht hw, show occupied n c s = 32768 from hf]
    rfl
  case high =>
    have h1 : ¬occupied n c s < 32768 := Nat.not_lt.2 (Nat.le_of_lt hf)
    have h2 : ¬occupied n c s = 32768 := Nat.ne_of_gt hf
    rw [pauseRefresh_next ha hu ht hw, if_neg h1, if_neg h2]
  case retry =>
    rw [retrainComplete_next false ha hn ht, if_neg Bool.false_ne_true]
    exact congrArg Host.Outcome.next (if_neg (Nat.not_le.2 (Nat.succ_lt_succ hf)))
  case fails =>
    rw [retrainComplete_next false ha hn ht, if_neg Bool.false_ne_true]
    exact congrArg Host.Outcome.next (if_pos (Nat.succ_le_succ (Nat.le_of_eq hf.symm)))

end Sys2Proof.Proofs
end

section
/-! SUPPORT. A chunk of a broadcast, at a team that holds two operations of one number (R375). -/

namespace Sys2Proof.Proofs
open Sys2Proof Sys2Proof.Machine Sys2Proof.Safety Sys2Proof.Laws

/-! ## Two parts of one broadcast under one number -/

/-- The part of module 11 in a broadcast from module 10 by 11 to 12, whose root is the module of the rank named. -/
def twinPart (root : Nat) : CollPart := { mods := [10, 11, 12], count := 8, tag := 7, rank := 1, root := root }
def twinOp (root : Nat) : EngOp := { id := 1, batch := 1, op := .coll 1 0, pc := 0, part := some (twinPart root) }
/-- A team whose L context holds two operations of one number, whose parts differ in their root alone. -/
def twinTeam : Team := { id := 1, part := 0, l := { ops := [twinOp 0, twinOp 1] } }
/-- Partition 0 belongs to tenant 5. -/
def twinState : State := { State.reset with cur := twinTeam, ctl := [(.fjTenant 0, 0x1_0005)] }
/-- An empty chunk of the broadcast, from module 10. -/
def twinChunk : ChunkMsg := { tag := 7, tenant := 5, srcm := 10, rank := 0, x := [], c1 := 0, c2 := 0, w := 0, count := 1, chunk := 0, kind := 1 }
/-- The ranks under which the parts of the team at the issue slot keep what they have received. -/
def keptRanks : Host.Outcome State Fault Refusal → List (List Nat)
  | .next u => u.cur.l.ops.map fun o => (o.part.map fun p => p.got.map (·.2.1)).getD []
  | _ => []

/-- The statement's account of that step: both parts keep the chunk under the root of the first. -/
def twinKept : State :=
  causeOnce (ownStep 1 1 0) (modPartOf 1 1 (fun p => { p with ptags := p.ptags ++ [(0, 0)] })
    (modPartOf 1 1 (fun p => { p with got := p.got ++ [(0, 0, [], 0, 0)] }) twinState))

/-- The model keeps the chunk under the root of each part that it is put into. -/
theorem twinChunk_ranks : keptRanks (exec (.chunk twinChunk) twinState) = [[0], [1]] := by decide
theorem twinKept_ranks : keptRanks (.next twinKept) = [[0], [0]] := by decide
/-- The chunk's part is found, and its rank and root are those of the first operation. -/
theorem twinChunk_found : tenantHere 5 twinState = true ∧ partFor 7 5 twinState = some (1, twinOp 0) ∧ (twinOp 0).part = some (twinPart 0) ∧ teamOf 1 twinState = some twinTeam := by
  refine ⟨?_, ?_, rfl, rfl⟩ <;> decide
theorem twinChunk_fits : twinChunk.kind = (twinOp 0).chunkKind ∧ twinChunk.w = (twinPart 0).w
    ∧ twinChunk.count = (twinPart 0).unitsOf (twinOp 0).chunkKind twinChunk.chunk
    ∧ ((twinPart 0).mods.findIdx fun m => m == twinChunk.srcm) < (twinPart 0).mods.length ∧ ((twinOp 0).collKind = 1 → prevInChain (twinPart 0) = some twinChunk.srcm) := by
  decide

/-- Refutes O57: the model stores a broadcast's chunk under the root of the part it is stored in, the statement under that of the part found. A state whose team
holds two operations of one number, with unlike roots, tells them apart. -/
theorem not_chunksAndFlue : ¬ Obligations.ChunksAndFlue := by
  intro h
  obtain ⟨-, -, -, -, -, hkept, -⟩ := h twinState twinChunk (twinOp 0) (twinPart 0) twinTeam 1 0 0 0 0 0 0 rfl
  obtain ⟨-, honward⟩ := hkept (by decide) twinChunk_found twinChunk_fits rfl fun _ hg => nomatch hg
  have hstep : exec (.chunk twinChunk) twinState = .next twinKept := honward 12 rfl
  have hranks : [[0], [1]] = [[0], [0]] := twinChunk_ranks.symm.trans (hstep ▸ twinKept_ranks)
  exact absurd hranks (by decide)

end Sys2Proof.Proofs
end

section
/-! SUPPORT. Throttling, thermal halt, power removal, measurements and attestation (R26 to R28, R30, R31). -/

namespace Sys2Proof.Proofs
open Sys2Proof Sys2Proof.Machine Sys2Proof.Safety Sys2Proof.Laws

variable {s : State} {d temp : Nat} {r : DieReading}

/-! ## Throttling (R27, R28) -/

theorem heed_cool (h : temp < 105) : heed temp s = s := by
  have h110 : ¬offTemp ≤ temp := Nat.not_le.2 (Nat.lt_trans h (by decide))
  have h105 : ¬(haltTemp ≤ temp ∧ s.power.halted = false) := fun hh => Nat.not_le.2 h hh.1
  unfold heed
  rw [if_neg h110, if_neg h105]
theorem heed_hot (h : 105 ≤ temp) (hlt : temp < 110) : heed temp s
    = if s.power.halted = false then sendMsix 0 1 { s with power := { s.power with halted := true, sticky := true } } else s := by
  have hon : haltTemp ≤ temp := h
  have hoff : ¬offTemp ≤ temp := Nat.not_le.2 hlt
  unfold heed
  rw [if_neg hoff]
  simp only [hon, true_and]
theorem heed_off (h : 110 ≤ temp) : heed temp s = { s with cond := .unpowered } := if_pos h

theorem steppedLately_iff : steppedLately d s = false ↔ ∀ x ∈ s.power.last, x.1 = d → x.2 + 19000 ≤ s.ck := by
  unfold steppedLately
  rw [List.any_eq_false]
  refine forall₂_congr fun x _ => ?_
  rw [Bool.and_eq_true, beq_iff_eq, decide_eq_true_eq, not_and, Nat.not_lt]
  rfl
/-- A step that is due moves the die's level by the causes that stand. -/
theorem throttleStep_due {p h : Bool} (ha : awake s = true) (hd : d < 4) (hl : steppedLately d s = false) (ht : r.temp < 105)
    (hp : decide (powerCap s * 1000 < 4 * r.powerMw + r.ioPowerMw) = p) (hh : decide (95 < r.temp) = h) :
    exec (.throttleStep d r) s = .next { s with power :=
      { level := s.power.level.set d (if p || h then min 7 (s.power.level.getD d 0 + 1) else s.power.level.getD d 0 - 1)
        temps := s.power.temps.set d r.temp, why := s.power.why.set d ((if p then 1 else 0) + (if h then 2 else 0)), last := alSet d s.ck s.power.last
        halted := s.power.halted, sticky := s.power.sticky } } := by
  have hgo : ¬(decide (4 ≤ d) || steppedLately d s) = true := by
    rw [hl, decide_eq_false (Nat.not_le.2 hd)]
    decide
  have hwhy : nb p + nb h * 2 = (if p then 1 else 0) + (if h then 2 else 0) := by cases p <;> cases h <;> rfl
  show execThrottleStep d r s = _
  unfold execThrottleStep
  rw [event_awake ha, if_neg hgo]
  dsimp only
  rw [hp, hh, heed_cool ht, hwhy]
  rfl
theorem throttleStep_early (ha : awake s = true) (h : 4 ≤ d ∨ steppedLately d s = true) (ht : r.temp < 105) :
    exec (.throttleStep d r) s = .next (noteTemp d r.temp s) := by
  have hstop : (decide (4 ≤ d) || steppedLately d s) = true := by rw [Bool.or_eq_true, decide_eq_true_eq]; exact h
  show execThrottleStep d r s = _
  unfold execThrottleStep
  rw [event_awake ha, if_pos hstop, heed_cool ht]
theorem thermalHalt_next (ha : awake s = true) (h : 105 ≤ temp) (hlt : temp < 110) : exec (.thermalHalt d temp) s = .next
    (if s.power.halted = false then sendMsix 0 1 { s with power := { s.power with temps := s.power.temps.set d temp, halted := true, sticky := true } } else noteTemp d temp s) := by
  have hgo : ¬decide (temp < haltTemp) = true := by rw [decide_eq_true_eq]; exact Nat.not_lt.2 h
  show execThermalHalt d temp s = _
  unfold execThermalHalt
  rw [event_awake ha, if_neg hgo, heed_hot h hlt]
  rfl
theorem powerRemoval_next (ha : awake s = true) (h : 110 ≤ temp) : exec (.powerRemoval d temp) s
    = .next { s with power := { s.power with temps := s.power.temps.set d temp }, cond := .unpowered } := by
  have hgo : ¬decide (temp < offTemp) = true := by rw [decide_eq_true_eq]; exact Nat.not_lt.2 h
  show execPowerRemoval d temp s = _
  unfold execPowerRemoval
  rw [event_awake ha, if_neg hgo, heed_off h]
  rfl
theorem measExtend_next (i : Nat) (image : List Byte) (ha : awake s = true) : exec (.measExtend i image) s
    = .next (if 4 ≤ i ∧ i < 8 then { s with meas := extendMeas i image s.meas } else s) := by
  show execMeasExtend i image s = _
  unfold execMeasExtend
  rw [event_awake ha]

/-! ## Reports (R31) -/

/-- A report up to its nonce. -/
def reportHeader (s : State) : List Byte :=
  bytesOfNat 4 0x4158_4E36 ++ (bytesOfNat 2 1 ++ (bytesOfNat 2 (nb Config.debugEnabled + nb (s.cond == .recovery) * 2) ++ (bytesOfNat 16 Config.serial.toNat
    ++ bytesOfNat 8 Config.fusedVersion.toNat)))
/-- A report from its nonce to its signature. -/
def reportTail (s : State) : List Byte :=
  bytesOfNat 8 Config.romVersion.toNat ++ ((List.range 3).flatMap (fun i => bytesOfNat 8 (s.fw.getD i 0).toNat)
    ++ ((List.range 8).flatMap (fun i => digestBytes (s.meas.getD i 0)) ++ ((List.range 4).flatMap (fun d => bytesOfNat 8 (ctlRaw (.harvest d) s).toNat)
    ++ (digestBytes (Config.sm3 ((List.range 64).flatMap fun q => bytesOfNat 8 (ctlRaw (.fjTenant q) s).toNat)) ++ List.replicate 32 0))))
theorem reportBody_eq (nonce : BitVec 256) (s : State) : reportBody nonce s = reportHeader s ++ (digestBytes nonce ++ reportTail s) := by
  unfold reportBody reportHeader reportTail
  simp only [List.append_assoc]

theorem digestBytes_length (x : BitVec 256) : (digestBytes x).length = 32 := bytesOfNat_length _ _
theorem flatMap_length_const {α : Type} (f : Nat → List α) (k : Nat) (hf : ∀ i, (f i).length = k) (n : Nat) : ((List.range n).flatMap f).length = n * k := by
  rw [List.length_flatMap, List.map_congr_left fun i _ => hf i, List.map_const', List.sum_replicate, List.length_range, smul_eq_mul]
theorem reportHeader_length (s : State) : (reportHeader s).length = 32 := by
  simp only [reportHeader, List.length_append, bytesOfNat_length]
theorem reportTail_length (s : State) : (reportTail s).length = 384 := by
  simp only [reportTail, List.length_append, bytesOfNat_length, digestBytes_length, List.length_replicate, flatMap_length_const _ 8 (fun i => bytesOfNat_length _ _),
    flatMap_length_const _ 32 (fun i => digestBytes_length _)]
theorem reportBody_length (nonce : BitVec 256) (s : State) : (reportBody nonce s).length = 448 := by
  rw [reportBody_eq, List.length_append, List.length_append, reportHeader_length, digestBytes_length, reportTail_length]

/-- The signature that ends a report. -/
def reportSignature (nonce : BitVec 256) (s : State) : List Byte :=
  digestBytes (Config.sm2Sign (Config.sm3 (reportBody nonce s))).1 ++ digestBytes (Config.sm2Sign (Config.sm3 (reportBody nonce s))).2
theorem attestation_eq (nonce : BitVec 256) (s : State) : attestation nonce s = reportBody nonce s ++ reportSignature nonce s := List.append_assoc _ _ _
/-- Length, magic word, nonce and signature of a report. -/
theorem attestation_parts (nonce : BitVec 256) (s : State) : (attestation nonce s).length = 512 ∧ (attestation nonce s).take 4 = [0x36, 0x4E, 0x58, 0x41]
    ∧ ((attestation nonce s).drop 32).take 32 = digestBytes nonce ∧ (attestation nonce s).drop 448 = reportSignature nonce s := by
  refine ⟨?_, ?_, ?_, ?_⟩
  · rw [attestation_eq, List.length_append, reportBody_length, reportSignature, List.length_append, digestBytes_length, digestBytes_length]
  · rw [attestation_eq, reportBody_eq, reportHeader, List.append_assoc, List.append_assoc]
    exact (List.take_left' (bytesOfNat_length 4 _)).trans (by decide)
  · rw [attestation_eq, reportBody_eq, List.append_assoc, List.append_assoc, List.drop_left' (reportHeader_length s)]
    exact List.take_left' (digestBytes_length nonce)
  · rw [attestation_eq]
    exact List.drop_left' (reportBody_length nonce s)

/-- Settles O58. -/
theorem powerAndTrust : Obligations.PowerAndTrust := by
  intro s d r temp i image nonce cap power hot level bytes noted why moved step due halt
  have hcap : powerCap s = cap := by
    rw [powerCap, ctlFld, fld_low]
  have hp : decide (powerCap s * 1000 < 4 * r.powerMw + r.ioPowerMw) = power := by rw [hcap]
  refine ⟨fun ha => ⟨fun hd hdue ht hc => ?_, fun hd hdue ht hc => ?_, fun h ht => throttleStep_early ha (h.imp_right fun hn => ?_) ht, fun h hlt hh => ?_,
    fun h hlt hh => ?_, powerRemoval_next ha, fun h4 h8 => ?_, fun h => ?_⟩, rfl, attestation_parts nonce s⟩
  · refine (throttleStep_due (p := power) (h := hot) ha hd (steppedLately_iff.2 hdue) ht hp rfl).trans ?_
    rw [hc]
    rfl
  · rw [Bool.not_eq_true'] at hc
    refine (throttleStep_due (p := power) (h := hot) ha hd (steppedLately_iff.2 hdue) ht hp rfl).trans ?_
    rw [hc]
    rfl
  · exact Bool.of_not_eq_false fun hl => hn (steppedLately_iff.1 hl)
  · exact (thermalHalt_next ha h hlt).trans (congrArg _ (if_pos hh))
  · exact (thermalHalt_next ha h hlt).trans (congrArg _ (if_neg (by rw [hh]; decide)))
  · exact (measExtend_next i image ha).trans (congrArg _ (if_pos ⟨h4, h8⟩))
  · exact (measExtend_next i image ha).trans (congrArg _ (if_neg fun ⟨h4, h8⟩ => h.elim (Nat.not_lt.2 h4) (Nat.not_le.2 h8)))

end Sys2Proof.Proofs
end

section
/-! SUPPORT. The host's writes to plain registers, and its commands over teams it emulates for (R4, R26, R35, R71, R159, R398). -/

namespace Sys2Proof.Proofs
open Sys2Proof Sys2Proof.Machine Sys2Proof.Safety Sys2Proof.Laws

variable {s : State} {r : CtlReg} {v : W64} {q n w : Nat} {t : Team} {rest : List Team}

/-! ## Registers -/

theorem registerWrite_next (r : CtlReg) (v : W64) (ha : awake s = true) : exec (.registerWrite r v) s = .next (hostWrite r v s) := by
  show event (hostWrite r v) s = _
  rw [event_awake (f := hostWrite r v) ha]
/-- A plain register takes the writable bits of what the host writes (R4). -/
theorem hostWrite_plain (h : r ∈ [.modid, .bankThr, .schedQuantum, .duty, .rmapBase, .ptRoot, .ptArg, .lvalBase, .dist n, .fjRoute n, .fjTenant n, .fpool q, .partHvec q,
    .partHdata q, .partKgrant q n, .hostPasid q]) : hostWrite r v s = ctlPut r (ctlMerge r (ctlRaw r s) v) s := by
  simp only [List.mem_cons, List.not_mem_nil, or_false] at h
  obtain rfl | rfl | rfl | rfl | rfl | rfl | rfl | rfl | rfl | rfl | rfl | rfl | rfl | rfl | rfl | rfl := h <;> rfl
/-- A register that is read-only to the host stays. -/
theorem hostWrite_fixed (h : r ∈ [.harvest n, .ncores, .coremap n, .feat n, .cap n, .bankPend n, .homeFlt n q 0, .emuPend q, .split q, .sigpol q, .lfeVfail q,
    .msixPba q n]) : hostWrite r v s = s := by
  simp only [List.mem_cons, List.not_mem_nil, or_false] at h
  obtain rfl | rfl | rfl | rfl | rfl | rfl | rfl | rfl | rfl | rfl | rfl | rfl := h <;> rfl
theorem hostWrite_pwrCap (v : W64) (s : State) : hostWrite .pwrCap v s = ctlPut .pwrCap (w64 (min 2000 (max 800 (v.toNat % 2 ^ 12)))) s := by
  show ctlPut .pwrCap (w64 (min 2000 (max 800 (fld v 0 12)))) s = _
  rw [fld_low]

/-- The entry of the MSI-X table that a write of one of its words leaves (R46). -/
def msixEntry (q n w : Nat) (v : W64) (s : State) : W64 × W32 × Bool :=
  let old := alGet ((0 : W64), (0 : W32), true) (q, n) s.msixTab
  if w = 0 then (v, old.2) else (old.1, v.setWidth 32, v.getLsbD 32)
/-- A write of the table sends the vector that was pending where the entry is not masked. -/
theorem writeMsix_eq (hq : q < 8) (hn : n < 2048) : writeMsix q n w v s =
    let stored : State := { s with msixTab := alSet (q, n) (msixEntry q n w v s) s.msixTab }
    if (msixEntry q n w v s).2.2 = false ∧ (q, n) ∈ s.msixPend then
      { stored with msixPend := s.msixPend.filter (· != (q, n)), msixSent := s.msixSent ++ [(q, (msixEntry q n w v s).1, (msixEntry q n w v s).2.1)] }
    else stored := by
  have hin : ¬(8 ≤ q ∨ 2048 ≤ n) := fun h => h.elim (Nat.not_le.2 hq) (Nat.not_le.2 hn)
  have hunfold : writeMsix q n w v s =
      let stored : State := { s with msixTab := alSet (q, n) (msixEntry q n w v s) s.msixTab }
      if !(msixEntry q n w v s).2.2 && s.msixPend.contains (q, n) then sendMsix q n { stored with msixPend := s.msixPend.filter (· != (q, n)) } else stored :=
    if_neg hin
  rw [hunfold]
  generalize msixEntry q n w v s = ent
  obtain ⟨addr, data, masked⟩ := ent
  dsimp only
  simp only [Bool.and_eq_true, Bool.not_eq_true', List.contains_iff_mem]
  by_cases h : masked = false ∧ (q, n) ∈ s.msixPend
  · rw [if_pos h, if_pos h]
    unfold sendMsix
    dsimp only
    rw [alGet_alSet_same]
    dsimp only
    rw [h.1]
    rfl
  · rw [if_neg h, if_neg h]

/-! ## Commands over an emulated team (R398) -/

theorem withEmulated_first (f : Team → State → State) (h : emuQueue q s = t :: rest) : withEmulated q f s = f t s := by
  unfold withEmulated
  rw [h]
theorem withEmulated_none (f : Team → State → State) (h : emuQueue q s = []) : withEmulated q f s = s := by
  unfold withEmulated
  rw [h]
/-- The host's three commands look at the oldest team of the partition that waits for it. -/
theorem emu_next (v : W64) (n q : Nat) (ha : awake s = true) : exec (.emuRegWrite q n v) s = .next (withEmulated q (fun t s => modTeam t.id (emuPut n v) s) s)
    ∧ exec (.emuKill q) s = .next (withEmulated q (fun t s => killTeam t.id s) s)
    ∧ exec (.emuEret q) s = .next (withEmulated q (fun t s => modTeam t.id (fun t => { t with emu := false }.wake s.ck) (Machine.returnFromTrap (focus t.id s))) s) :=
  ⟨event_awake (f := withEmulated q fun t s => modTeam t.id (emuPut n v) s) ha, event_awake (f := emuKillNow q) ha, event_awake (f := emuReturn q) ha⟩
theorem emuPut_scalar (v : W64) (hn : n < 64) : emuPut n v = fun u => u.setS ⟨n % 64, Nat.mod_lt _ (by decide)⟩ { val := v } := by
  have hr : (⟨n % 64, Nat.mod_lt _ (by decide)⟩ : Reg) = ⟨n, hn⟩ := Fin.ext (Nat.mod_eq_of_lt hn)
  funext u
  unfold emuPut
  rw [dif_pos hn, hr]
  rfl

/-- Settles O59. -/
theorem hostCommands : Obligations.HostCommands := by
  intro s r v q n w t rest plain fixed waits
  split
  next addr data masked hentry =>
  intro entry stored ha
  have hent : msixEntry q n w v s = entry := by
    unfold msixEntry
    rw [hentry]
  have hmsix (hq : q < 8) (hn : n < 2048) : exec (.registerWrite (.msix q n w) v) s = .next (writeMsix q n w v s) := registerWrite_next _ v ha
  obtain ⟨hreg, hkill, heret⟩ := emu_next v n q ha
  refine ⟨fun h => ?_, fun h => ?_, ?_, registerWrite_next .time v ha, fun hq hn hm => ?_, fun hq hn hm hp => ?_,
    ⟨ctlRaw_ctlPut_same r v s, fun r' hne => ctlRaw_ctlPut_ne v s hne⟩, fun hw hn => ?_, fun hw => ?_, fun hw => ?_, fun he => ⟨?_, ?_, ?_⟩⟩
  · rw [registerWrite_next r v ha, hostWrite_plain h]
  · rw [registerWrite_next r v ha, hostWrite_fixed h]
  · rw [registerWrite_next _ v ha, hostWrite_pwrCap]
  · rw [hmsix hq hn, writeMsix_eq hq hn, hent]
    exact congrArg Host.Outcome.next (if_neg fun ⟨h1, h2⟩ => hm.elim (fun h => Bool.false_ne_true (h1.symm.trans h)) (fun h => h h2))
  · rw [hmsix hq hn, writeMsix_eq hq hn, hent]
    exact congrArg Host.Outcome.next (if_pos ⟨hm, hp⟩)
  · rw [hreg, withEmulated_first _ hw, emuPut_scalar v hn]
  · rw [hkill, withEmulated_first _ hw]
  · rw [heret, withEmulated_first _ hw]
  · rw [hkill, withEmulated_none _ he]
  · rw [heret, withEmulated_none _ he]
  · rw [hreg, withEmulated_none _ he]

end Sys2Proof.Proofs
end

section
/-! SUPPORT. Conditions under which steps of the Rake, of mapping, of copies, flips, watchdogs and re-sent launches complete (R51, R52, R64, R72, R82,
R128 to R135, R154, R164, R190, R363). -/

namespace Sys2Proof.Proofs
open Sys2Proof Sys2Proof.Machine Sys2Proof.Safety Sys2Proof.Laws

variable {s : State} {n : Nat} {e : Evac}

/-! ## The Rake -/

/-- A bank without errors counts those of one crossing below the threshold. -/
theorem errorTimes_first {kind bank errs : Nat} (he : (coreOf n s).errs = []) (h : errs < (ctlRaw .bankThr s).toNat % 2 ^ 16) :
    errorTimes n kind bank errs s = List.replicate errs s.ck := by
  rw [errorTimes, he, Nat.min_eq_left (Nat.le_of_lt h)]
  show (List.replicate errs s.ck ++ []).take _ = _
  rw [List.append_nil, List.take_of_length_le (by rw [List.length_replicate]; exact Nat.le_of_lt h)]
theorem bankCrossing_counts {kind bank errs : Nat} (ha : awake s = true) (hn : n < ncores s) (hk : kind ≤ 2) (hb : bank < (bankCounts kind).2) (he : (coreOf n s).errs = [])
    (h : errs < (ctlRaw .bankThr s).toNat % 2 ^ 16) :
    exec (.bankCrossing n kind bank { errs := errs }) s = .next (modCore n (fun c => { c with errs := [((kind, bank), List.replicate errs s.ck)] }) s) := by
  have hother : otherCounts n kind bank s = [] := by rw [otherCounts, he]; rfl
  rw [bankCrossing_real ha hn hk hb (Nat.ne_zero_of_lt h), errorTimes_first he h, List.length_replicate, if_pos h, hother]
  rfl
/-- While an evacuation is under way, or with no order queued, the Rake takes up nothing. -/
theorem runRake_idle {fuel : Nat} (h : (coreOf n s).evac ≠ none ∨ (coreOf n s).rakeQ = []) : runRake n (fuel + 1) s = s := by
  unfold runRake
  dsimp only
  split
  · next he hq => exact absurd he (h.resolve_right fun h => List.cons_ne_nil _ _ (hq.symm.trans h))
  · rfl
/-- R129: an order for a bank that is not known joins the queue behind the evacuation under way. -/
theorem orderAsh_queues {k b : Nat} (he : (coreOf n s).evac = some e) (ha : ((coreOf n s).bmap k).ashed.contains b = false) (hq : (coreOf n s).rakeQ.contains (k, b) = false)
    (hb : e.kind ≠ k ∨ e.bank ≠ b) :
    orderAsh n k b s = modCore n (fun c => { c with pending := c.pending.filter (· != (k, b)), rakeQ := c.rakeQ ++ [(k, b)] }) s := by
  have hself : (e.kind == k && e.bank == b) = false := by
    rw [Bool.and_eq_false_iff, beq_eq_false_iff_ne, beq_eq_false_iff_ne]
    exact hb
  unfold orderAsh
  simp only [ha, hq, he, hself, Bool.or_self, Bool.false_eq_true, if_false]
  refine runRake_idle (.inl ?_)
  rw [coreOf_modCore_same]
  exact fun h => nomatch he.symm.trans h
theorem oldBankRelease_ends (ha : awake s = true) (he : (coreOf n s).evac = some e) (hf : e.flipped = true) (hq : (coreOf n s).rakeQ = []) :
    exec (.oldBankRelease n) s = .next (modCore n (fun c => { c with evac := none, old := c.old.filter (· != (e.kind, e.bank)) }) s) := by
  rw [oldBankRelease_next ha he hf, runRake_idle (.inr (by rw [coreOf_modCore_same]; exact hq))]
/-- R132: with nothing noted in any team, the flip changes its own core alone. -/
theorem spreadBad_none (hc : ∀ t ∈ s.cur :: s.teams, t.vbad = []) (n : Nat) : spreadBad n 0 s = s := by
  have hone (t : Team) (h : t.vbad = []) : t.spreadBad = t := by
    unfold Team.spreadBad
    rw [h, List.foldl_nil, ← h]
  have hteams : updWhere (fun t : Team => t.core == n) Team.spreadBad s.teams = s.teams := by
    refine (List.map_congr_left fun t ht => ?_).trans (List.map_id s.teams)
    rw [hone t (hc t (List.mem_cons_of_mem _ ht)), ite_self, id]
  rw [spreadBad, if_pos rfl, modTeams, hteams, hone s.cur (hc s.cur List.mem_cons_self), ite_self]
theorem mapFlip_completes (ha : awake s = true) (he : (coreOf n s).evac = some e) (hv : e.victims = []) (hf : e.flipped = false) (hn : e.total ≤ e.next) (hk : e.kind = 0)
    (hd : e.dest ≠ e.bank) (hdrop : e.drop = false) (hc : ∀ t ∈ s.cur :: s.teams, t.vbad = []) :
    ∃ u, exec (.mapFlip n) s = .next (cause (.oldBankRelease n) u) ∧ (coreOf n u).vmap.ashed = (coreOf n s).vmap.ashed ++ [e.bank]
      ∧ (coreOf n u).vmap.phys e.logical = e.dest ∧ (coreOf n u).evac = some { e with flipped := true }
      ∧ (∀ i, i ≠ n → coreOf i u = coreOf i s) ∧ { u with cores := s.cores } = s := by
  obtain ⟨hashed, hphys, -, hevac, -⟩ := flippedMap_moves (s := s) (n := n) e
  have hflip : flippedMap n e s = modCore n (fun c => flippedCore e c) s := by rw [flippedMap, hk, spreadBad_none hc]
  rw [hk] at hashed hphys
  refine ⟨flippedMap n e s, mapFlip_moves ha he hf hv hn hd hdrop, hashed, hphys, hevac, fun i hi => ?_, ?_⟩
  · rw [hflip, coreOf_modCore_ne _ _ hi]
  · rw [hflip]
    rfl
/-- R135: an evacuation that waits for another workgroup too goes on waiting. -/
theorem evacGoesOn_waits {wg other : Nat} (he : (coreOf n s).evac = some e) (hv : e.victims = [wg, other]) (hne : wg ≠ other) :
    evacGoesOn wg n s = modCore n (fun c => { c with evac := some { e with victims := [other] } }) s := by
  have hf : [wg, other].filter (· != wg) = [other] := by
    rw [List.filter_cons, bne_self_eq_false, if_neg (by decide), List.filter_cons, if_pos (bne_iff_ne.2 hne.symm), List.filter_nil]
  unfold evacGoesOn
  simp only [he, hv, hf, List.isEmpty_cons, Bool.false_eq_true, if_false]

/-! ## Mapping and the hotness ring -/

/-- What no step of a loop changes, the loop does not change. -/
theorem forEach_keeps {α β : Type} (g : State → β) {f : α → State → State} (hf : ∀ x u, g (f x u) = g u) (l : List α) (s : State) : g (forEach l f s) = g s := by
  induction l generalizing s with
  | nil => rfl
  | cons x l ih => exact (ih (f x s)).trans (hf x s)

theorem causeOnce_mem (i : Instr) (s : State) : i ∈ (causeOnce i s).agenda := by
  unfold causeOnce
  split
  · next h => exact List.contains_iff_mem.1 h
  · exact List.mem_append_right _ (List.mem_singleton_self i)
/-- What causing an event leaves: all but the agenda. -/
theorem causeOnce_agenda (i : Instr) (s : State) : ∃ l, causeOnce i s = { s with agenda := l } := by
  unfold causeOnce
  split
  · exact ⟨s.agenda, rfl⟩
  · exact ⟨_, rfl⟩
/-- R160: the command's word reads go as 1 while its operation is under way. -/
theorem startedWord_go (a b c d : Nat) : (w64 (1 + a * 2 + b * 2 ^ 4 + c * 2 ^ 6 + d * 2 ^ 16)).getLsbD 0 = true := by
  have hodd : (1 + a * 2 + b * 2 ^ 4 + c * 2 ^ 6 + d * 2 ^ 16) % 2 ^ 64 % 2 = 1 := by omega
  rw [BitVec.getLsbD, w64, BitVec.toNat_ofNat, Nat.testBit_zero, hodd]
  rfl
/-- The state in which an operation has been started. -/
def MapStarted (op : MapOp) (s u : State) : Prop :=
  u.mapop = some op ∧ .mappingOpComplete ∈ u.agenda ∧ (ctlRaw .ptCmd u).getLsbD 0 = true ∧ u.mem = s.mem ∧ u.lines = s.lines ∧ u.teams = s.teams ∧ u.homes = s.homes
theorem mapStarted_causeOnce {word : W64} (hw : word.getLsbD 0 = true) (op : MapOp) (s : State) :
    MapStarted op s (causeOnce .mappingOpComplete { ctlPut .ptCmd word s with mapop := some op }) := by
  have hmem := causeOnce_mem .mappingOpComplete { ctlPut .ptCmd word s with mapop := some op }
  obtain ⟨l, hl⟩ := causeOnce_agenda .mappingOpComplete { ctlPut .ptCmd word s with mapop := some op }
  have hgo : ctlRaw .ptCmd { ctlPut .ptCmd word s with mapop := some op, agenda := l } = word := ctlRaw_ctlPut_same .ptCmd word s
  rw [hl] at hmem ⊢
  exact ⟨rfl, hmem, hgo.symm ▸ hw, rfl, rfl, rfl, rfl⟩
theorem ptWrite_started {v : W64} (h : v.getLsbD 0 = true) (ho : (ctlRaw .ptCmd s).getLsbD 0 = false) : MapStarted (namedMapOp v s) s (ptWrite v s) := by
  have hw := ptWrite_starts (s := s) h ho
  dsimp only at hw
  rw [hw]
  exact mapStarted_causeOnce (startedWord_go _ _ _ _) _ _
theorem ite_mem_ctl (c : Prop) [Decidable c] (m : Memory) (u : State) : (if c then u else { u with mem := m }).ctl = u.ctl := by
  split <;> rfl
theorem reserveFrames_ctl (f n : Nat) (on : Bool) (s : State) : (reserveFrames f n on s).ctl = s.ctl := by
  unfold reserveFrames rmapSet
  by_cases h : ctlFld .rmapBase 0 1 s = 0
  · rw [if_pos h]
  · rw [if_neg h]
    refine forEach_keeps (fun u => u.ctl) (fun i u => ?_) _ s
    dsimp only
    exact ite_mem_ctl _ _ u
theorem forEach_modHome_ctl (g : Home → Home) (l : List Nat) (s : State) : (forEach l (fun h s => modHome h g s) s).ctl = s.ctl :=
  forEach_keeps (f := fun h s => modHome h g s) (fun s => s.ctl) (fun _ _ => rfl) l s
/-- R164: a ring taken up has its base as written, and counts nothing yet. -/
theorem hotBase_starts {v : W64} (q : Nat) (ha : awake s = true) (hb : (ctlRaw (.hotBase q) s).getLsbD 0 = false) (hv : v.getLsbD 0 = true) :
    ∃ u, exec (.hotBaseWrite q v) s = .next u ∧ ctlRaw (.hotBase q) u = ctlMerge (.hotBase q) (ctlRaw (.hotBase q) s) v
      ∧ ∀ h, h < 37 → ∀ x ∈ (homeOf h u).counts, x.1 ≠ q := by
  refine ⟨_, (hotBase_next q ha hb).trans (congrArg _ (if_pos hv)), ?_, fun h hh => ?_⟩
  · have hctl {u w : State} (h : u.ctl = w.ctl) : ctlRaw (.hotBase q) u = ctlRaw (.hotBase q) w := by unfold ctlRaw; rw [h]
    rw [hctl (forEach_modHome_ctl _ _ _), hctl (reserveFrames_ctl _ _ _ _), ctlRaw_ctlPut_same]
  · refine forEach_modHome (P := fun x => ∀ c ∈ x.counts, c.1 ≠ q) (fun x c hc => ?_) (List.range 37) _ (.inl (List.mem_range.2 hh))
    obtain ⟨-, hne⟩ := List.mem_filter.1 (show c ∈ x.counts.filter (fun c => c.1 != q) from hc)
    exact bne_iff_ne.1 hne

/-! ## Copies, flips, watchdogs and launches -/

/-- R363: a copy without rows is done at its first step. -/
theorem copyStep_empty {t : Team} {o : EngOp} {dst src : W64} {rowb ds ss : Nat} (h : o.op = .copy dst src 0 rowb ds ss 0 0 0 false) (s : State) :
    copyStep t o s = finishOp t.id 0 o.id s := by
  unfold copyStep
  rw [h]
  rfl
/-- The team's copies once their steps have moved its contexts on: a team without right to more of them stops. -/
def copiesMoved (team : Nat) (moved : State) : State := modTeam team (fun t => if t.dead || (partOf t.part moved).resetting then t.stopCopies else t) moved
/-- A team whose copies have moved on is looked at again while some are in flight. -/
def copiesGoOn (team : Nat) (x : State) : State :=
  (teamOf team x).elim x fun t => if t.c.inFlight = 0 then tryRetire team x else causeOnce (.copyChunk team) x
theorem copyChunk_empty {team : Nat} {t : Team} {o : EngOp} {dst src : W64} {rowb ds ss : Nat} (ha : awake s = true) (ht : teamOf team s = some t) (hr : copiesReady t s = [o])
    (h : o.op = .copy dst src 0 rowb ds ss 0 0 0 false) :
    exec (.copyChunk team) s
      = .next (copiesGoOn team (copiesMoved team (forEach ([0, 1, 2] : List (Fin 3)) (advance team) (finishOp t.id 0 o.id { s with free := s.free + 1 })))) := by
  have hpick (k : Nat) : [o][k % [o].length]? = some o := by
    rw [List.length_singleton, Nat.mod_one]
    rfl
  show execCopyChunk team s = _
  unfold execCopyChunk
  rw [event_awake ha]
  simp only [ht, hr, List.isEmpty_cons, Bool.false_eq_true, if_false, choose, hpick, copyStep_empty h]
  unfold copiesGoOn copiesMoved
  generalize modTeam team _ (forEach _ _ _) = x
  cases teamOf team x <;> rfl
/-- R52: a flip to the device ends once no snoop of it is outstanding. -/
theorem biasFlipDone_ends {g : Nat} (ha : awake s = true) (hb : s.biasOp = some (false, g, 2)) (hl : ∀ l ∈ s.links, l.kind ≠ .backInv) :
    exec .biasFlipDone s = .next (endFlip (rearmMonitors (granuleArea g s) { s with biasHost := s.biasHost.filter (· != g) })) := by
  have hsnoop : (s.links.any fun l => l.kind == .backInv && l.addr / 2 ^ 16 == g && l.req.agent == .host) = false := List.any_eq_false.2 fun l h => by
    rw [beq_false_of_ne (hl l h), Bool.false_and, Bool.false_and]
    exact Bool.false_ne_true
  show execBiasFlipDone s = _
  unfold execBiasFlipDone
  rw [event_awake ha]
  simp only [hb, hsnoop, if_true, Bool.false_eq_true, if_false]
theorem wdogResume_none {q : Nat} (ha : awake s = true) (hl : haltedLaunches q s = []) : exec (.wdogResume q) s = .next s := by
  rw [wdogResume_next ha, countAgain, hl]
  rfl
theorem launchResend_one {x : LinkReq} {id : Nat} {p : Packet} (ha : awake s = true) (hx : s.links = [x]) (hi : x.id = id) (hd : x.due ≠ 0) (hck : x.due ≤ s.ck)
    (hp : x.pkt = some p) : exec (.launchResend id) s = .next (sendPacket p { s with links := [{ x with due := 0 }] }) := by
  have hfind : (s.links.find? fun l => l.id == id && l.due != 0 && decide (l.due ≤ s.ck)) = some x := by
    rw [hx, List.find?_cons, beq_iff_eq.2 hi, bne_iff_ne.2 hd, decide_eq_true hck]
    rfl
  have hupd : updWhere (fun l : LinkReq => l.id == id) (fun l => { l with due := 0 }) s.links = [{ x with due := 0 }] := by
    rw [hx]
    exact congrArg (· :: []) (if_pos (beq_iff_eq.2 hi))
  rw [launchResend_sends ha hfind hp, hupd]

/-- Settles O60. -/
theorem stepsComplete : Obligations.StepsComplete := by
  intro s n kind bank errs wg other id team q g e v m w t o dst src rowb ds ss p c core raking k b a new clean op starts unmapped halted u ha
  have hstarts (hv : v.getLsbD 0 = true) (ho : (ctlRaw .ptCmd s).getLsbD 0 = false) : starts (.ptUnmap v) ∧ starts (.ptSplit v) ∧ starts (.ptMove v) ∧ starts (.ptReattribute v) := by
    have hstate := ptWrite_started hv ho
    obtain ⟨h1, h2, h3, h4⟩ := ptWrite_next (v := v) ha rfl
    exact ⟨⟨_, h1, hstate⟩, ⟨_, h2, hstate⟩, ⟨_, h3, hstate⟩, ⟨_, h4, hstate⟩⟩
  refine ⟨fun hn hk hb he h => bankCrossing_counts ha hn hk hb he h, fun hn hk hb he ⟨h1, h2, h3⟩ => ?_, fun ⟨he, hv⟩ hf hn => ?_, fun ⟨he, hv⟩ hf hn => ?_,
    fun ⟨he, hv⟩ hf hn hk hd hdrop hc => mapFlip_completes ha he hv hf hn hk hd hdrop hc, fun he hf hq => oldBankRelease_ends ha he hf hq,
    fun hb ho hw he hv hne hcs => ?_, fun hm hr hb h1 hfw hu => ?_, fun hm hq => ?_, fun hv ho => ?_, fun hb hv => ?_, fun hb hv => hotBase_starts q ha hb hv,
    fun ht hr ho => ?_, fun hb hl => biasFlipDone_ends ha hb hl, fun hl => wdogResume_none ha (by rw [haltedLaunches, hl]; rfl),
    fun x hx hi hd hck hp => launchResend_one ha hx hi hd hck hp⟩
  · rw [bankAsh_orders ha hn hk hb, orderAsh_queues he h1 h2 h3]
  · rw [rakeChunkCopy_copies ha he hf hv (Nat.lt_of_succ_lt hn)]
    exact congrArg Host.Outcome.next (if_pos hn)
  · rw [rakeChunkCopy_copies ha he hf hv (Nat.lt_of_succ_le (Nat.le_of_eq hn))]
    exact congrArg Host.Outcome.next (if_neg (Nat.not_lt.2 (Nat.le_of_eq hn.symm)))
  · have hone : (u.cores.filter (evacWaits wg)).map (·.1) = [n] := hcs
    rw [workgroupSave_goesOn ha hb ho hw]
    refine congrArg Host.Outcome.next (Eq.trans ?_ (evacGoesOn_waits he hv hne))
    show forEach ((u.cores.filter (evacWaits wg)).map (·.1)) (evacGoesOn wg) u = _
    rw [hone]
    rfl
  · have hop : hostMapOp m s = some unmapped := by unfold hostMapOp; simp only [h1]; rfl
    obtain ⟨hends, -⟩ := mappingOp_ends ha hm hr hb
    rw [hends unmapped hop hu, mapEnded, hfw]
    simp only [Bool.false_eq_true, if_false, List.isEmpty_iff]
  · exact (pmap_next ha hm hq).trans (congrArg _ (if_pos rfl))
  · obtain ⟨h1, h2, h3, h4⟩ := hstarts hv ho
    exact ⟨fun _ => h1, fun _ => h2, fun _ => h3, fun _ => h4⟩
  · exact (hotBase_next q ha hb).trans (congrArg _ (if_neg (by rw [hv]; exact Bool.false_ne_true)))
  · intro moved x
    refine (copyChunk_empty ha ht hr ho).trans (congrArg _ ?_)
    show copiesGoOn team x = _
    clear_value x
    unfold copiesGoOn
    cases teamOf team x <;> rfl

end Sys2Proof.Proofs
end
